-- ==== Sys2Proof/Word.lean ====
section
/-! DEFINITION. The word and byte types of the block and their plainest arithmetic: little-endian bytes (R9), bit
fields of registers (00, Notation), saturating counters (R435). -/

namespace Sys2Proof

/-- One register (R11). -/
abbrev Word := BitVec 32

/-- One byte of a store, a packet or a record. -/
abbrev Byte := BitVec 8

/-- A handle: type in [31:24], index in [23:0] (R282). -/
abbrev Handle := BitVec 32

/-- A SHA-384 digest, most significant byte first as SHA-384 writes it. -/
abbrev Digest := BitVec 384

namespace Bits

/-- The value of `n` little-endian bytes that begin at `off` of a list; a byte past the end reads 0 (R9). -/
def leNat (bs : List Byte) (off : Nat) : Nat → Nat
  | 0 => 0
  | n + 1 => (bs.getD off 0#8).toNat + 256 * leNat bs (off + 1) n

/-- `n` little-endian bytes of a number (R9). -/
def toLe (x : Nat) : Nat → List Byte
  | 0 => []
  | n + 1 => BitVec.ofNat 8 x :: toLe (x / 256) n

/-- `n` bytes, most significant first. -/
def toBe (x : Nat) (n : Nat) : List Byte :=
  (toLe x n).reverse

/-- The number that bytes spell, most significant first. -/
def beNat (bs : List Byte) : Nat :=
  bs.foldl (fun a b => a * 256 + b.toNat) 0

/-- Field `[hi:lo]` of a register as a number. -/
def field (w : Word) (hi lo : Nat) : Nat :=
  (w.toNat >>> lo) % 2 ^ (hi - lo + 1)

/-- A register with one field placed at bit `lo`. -/
def place (x lo : Nat) : Word :=
  BitVec.ofNat 32 (x <<< lo)

/-- One bit of a register. -/
def flag (b : Bool) (i : Nat) : Word :=
  if b then BitVec.ofNat 32 (1 <<< i) else 0#32

/-- A sum that stops at the largest value of `w` bits (R435). -/
def satAdd (w a b : Nat) : Nat :=
  min (a + b) (2 ^ w - 1)

/-- ⌈a / b⌉; 0 for `b = 0`. -/
def ceilDiv (a b : Nat) : Nat :=
  (a + b - 1) / b

end Bits

end Sys2Proof
end

