-- ==== Sys2Proof/Config.lean ====
section
/-! DEFINITION. What an implementation fixes and the spec leaves open: fuse values, keys, and the FREE VALUES. Every `opaque`
constant here has no body: nothing in Lean can compute it, and a statement about the machine holds for every value of it. -/

namespace Sys2Proof.Config

/-! ### Fuses and keys (R357, R364, R366) -/

/-- HUB_ID.MAJOR and MINOR (17: reset column "Fuse"). -/
opaque hubRevision : BitVec 16

/-- Public keys of one key pair of each kind: an uncompressed ECDSA P-384 point of 97 bytes, an HSS key of 60 (R366, R368). -/
abbrev Keys := Vector Byte 97 × Vector Byte 60

/-- A dual signature: r and s of 48 bytes each, and 3,604 bytes of HSS (R15, R366). -/
abbrev Signature := Vector Byte 96 × Vector Byte 3604

/-- The device seed in the hub's fuses (R357). -/
opaque deviceSeed : BitVec 384

/-- HKDF-SHA-384 of a seed with the label of the identity key or, true, of the ledger key, and the key pairs made from it (R364, which
gives neither the labels nor how the pairs are made). -/
opaque derivedKeys : BitVec 384 → Bool → Keys

/-- Oroset's firmware-signing public keys, whose key ID is fused (R357, R359). -/
opaque fwKeys : Keys

/-- The Oroset manufacturing keys that issued the identity certificate (R366). -/
opaque issuerKeys : Keys

/-- The signatures of the identity certificate, made at manufacture (R366). -/
opaque identitySignature : Signature

/-- The signatures of the ledger certificate, made at the device's first start in the factory (R366). -/
opaque ledgerSignature : Signature

/-- The ledger key's ECDSA signature of a digest: r and s, 96 bytes (R347). -/
opaque ledgerEcdsaSign : Digest → List Byte

/-- The ledger key's HSS signature with an index, of a message (R350). -/
opaque ledgerHssSign : Nat → List Byte → List Byte

/-- The identity ECDSA key's signature over an SPDM transcript digest (R365, R372). -/
opaque identityEcdsaSign : List Byte → List Byte

/-- The X.509 chain of slot 0 (R372). -/
opaque x509Chain : List Byte

/-- The digest of the boot ROM (R372, measurement index 1). -/
opaque bootRomDigest : Digest

/-- The shed key that the generator of the security block gives at a draw: the data key and the tweak key (R371). -/
opaque shedKey : Nat → BitVec 256 × BitVec 256

/-- The status with which FW_STAGE completes where the image cannot be programmed or read back (R363 gives none). -/
opaque stageStatus : BitVec 16

/-! ### Free values -/

/-- The cut of a monotone special function's FP32 results (R109, R116): on branch `b` of the function in `slot`, between the
adjacent FP32 values `lower` and the next one up, inputs at or beyond this ordinal take the upper value. -/
opaque sfnCut (slot branch : Nat) (lower : Word) : Int

/-- The neighbour that sin and cos return in FP32 (R109): true for the upper one. Fixed by the function, the mode's
position and the input. -/
opaque sfnChoice (slot : Nat) (pos : Option Nat) (x : Word) : Bool

/-- Which end of an enclosure stands for a value that the model's precision does not tell from a rounding boundary. -/
opaque sfnUndetermined (slot : Nat) (x : Word) : Bool

/-- The lane registers of a micro-program before its first step (R111 gives none): index 0 r, 1 sign, 2 a, 3-6 c0-c3. -/
opaque microInit : Nat → Word

/-- The integer k before the first step. -/
opaque microInitK : Int

/-- RANGE MODE 1 where x × C[i] is not finite (R112 states no integer). -/
opaque rangeK : Word → Word → Int

/-- RANGE MODE 2 for an x with no form m × 2^k, m in [1, 2) (R112). -/
opaque rangeM : Word → Word × Int

/-- What ROUND writes where its format code is not the format that the instruction writes (R112 states no result): by the two codes and a. -/
opaque roundOther : Nat → Nat → Word → Nat

/-- What a lane holds when a scaled element lies beyond the FP32 range that R100 widens it to (R100 states no such case). -/
opaque widenBeyond (format code : Nat) (scale : Byte) : Word

/-- Whether an NMA scales a score's sum by s_q before TAU (R222 names both scalings and not their order). -/
opaque scaleQueryFirst : Bool

/-- Whether RMS_FINISH writes the upper of the two neighbours of an inexact factor (R126: within 1 ulp), by (n, e, q) and ε. -/
opaque rmsUpper : Nat → Int → Word → Word → Bool

/-- The factor of RMS_FINISH where R126 calls it finite and its exact value lies beyond FP32, or where ε is none that R126
admits, by (n, e, q) and ε. -/
opaque rmsOther : Nat → Int → Word → Word → Nat

/-- The code that a conversion writes under a scale that is not positive and normal, by format, scale, zero point and value
(R129 states none). -/
opaque badScale : Nat → Word → Int → Word → Int

/-- The scale of the weights p_i of SMX_TILE in an integer operand format, by its code (R118 names none). -/
opaque smxScale : Nat → Word

/-- A fresh free bit: which contents an unfenced read returns, which of two unfenced writes lands last (R167). -/
opaque freeBit : Nat → Bool

/-- A fresh free byte: what a poisoned unit holds (R170 gives it no contents). -/
opaque freeByte : Nat → Byte

/-- The nJ of one meter sample: 24-bit voltage and current codes under the calibration constants (R334 gives the constants
no form). -/
opaque sampleEnergy : List Word → BitVec 24 → BitVec 24 → Nat

/-- The input voltage in 10 mV and current in 10 mA that some meter samples average to, under the calibration words (PWR_INPUT; R334
gives the constants no form). -/
opaque meterReading : List Word → List (BitVec 24 × BitVec 24) → Nat × Nat

/-- The rank among the candidates of R290 that the draw keyed by SEED and position takes: by seed, position, the candidates' logits
and TEMPERATURE (R290 gives neither the generator nor the arithmetic of the probabilities). -/
opaque sampleRank : Word → Nat → List Word → Word → Nat

/-- How many of the TOP_K candidates the cut at TOP_P keeps, by their logits, TEMPERATURE and TOP_P, where a logit is not finite (R290 gives such
a set no probability) or the enclosures of `cutScan` do not tell two sums apart. -/
opaque topPKeep : List Word → Word → Word → Nat

/-- The token of TEMPERATURE 0 where some logit is a NaN (R290 orders no NaN). -/
opaque nanToken : List Word → Nat

/-- The BF16 log-probability of a sampled token (R287), by the logits, TEMPERATURE, TOP_P, TOP_K and the token. -/
opaque logProb : List Word → Word → Word → Nat → Nat → BitVec 16

/-- The uniform draw of R420 from [−1/√m, 1/√m], keyed by NAME, path index and element index. -/
opaque drawUniform : BitVec 128 → Nat → Nat → Nat → Word

/-- The warning level and the critical level of a critical-path monitor (R405 gives no number). -/
opaque cpmLevels : BitVec 16 × BitVec 16

/-- The slack that two voltage steps are worth (R407). -/
opaque cpmTwoSteps : BitVec 16

/-- LINEAR11 (R481, PMBus 1.4): the exponent a reading is given. -/
opaque linear11Exp : Nat → BitVec 5

/-- The length of a dump's section 2 by the number of stalls (R451: at most 64 MiB). -/
opaque stallListLength : Nat → Nat

/-- SPDM's own encodings that the manual refers to SPDM 1.3 (R333): the body of a response to a request. -/
opaque spdmBody : Nat → List Byte → List Byte

end Sys2Proof.Config
end

