-- ==== Sys2Proof/Machine/Flags.lean ====
section
/-! DEFINITION. The four arithmetic flags of an engine (R95) and how they are gathered (R96): the computation of each
flag stands in Machine/Num.lean beside the rounding that raises it. -/

namespace Sys2Proof

/-- Overflow, underflow, inexact and invalid (R95). -/
structure ArithFlags where
  ovf : Bool := false
  unf : Bool := false
  inx : Bool := false
  inv : Bool := false
  deriving DecidableEq, Repr

namespace ArithFlags

/-- No flag raised. -/
def none : ArithFlags := {}

/-- The flags raised by two operations together (R95: a flag once set stays set). -/
def or (a b : ArithFlags) : ArithFlags :=
  { ovf := a.ovf || b.ovf, unf := a.unf || b.unf, inx := a.inx || b.inx, inv := a.inv || b.inv }

/-- Invalid alone, raised when `b` holds. -/
def invIf (b : Bool) : ArithFlags := { inv := b }

/-- The flags in the order of YRD_ARITH_FLAGS: overflow in bit 0, then underflow, inexact, invalid. -/
def nibble (f : ArithFlags) : Nat :=
  f.ovf.toNat + 2 * f.unf.toNat + 4 * f.inx.toNat + 8 * f.inv.toNat

/-- The flags of a list of operations. -/
def orAll (l : List ArithFlags) : ArithFlags :=
  l.foldl or none

end ArithFlags

/-- Which engine of a core keeps a flag (R95). -/
inductive Engine where
  | mxe
  | vxe
  deriving DecidableEq, Repr

/-- The byte of YRD_ARITH_FLAGS that an engine's flags fill: MXE in [3:0], VXE in [7:4] (R96). -/
def Engine.flagByte (e : Engine) (f : ArithFlags) : BitVec 8 :=
  match e with
  | .mxe => BitVec.ofNat 8 f.nibble
  | .vxe => BitVec.ofNat 8 (16 * f.nibble)

end Sys2Proof
end

