-- ==== Sys2Proof/Machine/Num.lean ====
section
/-! DEFINITION. The number formats of R72-R83: exact values, decoding, and the one rounding every conversion and every
FP32 operation goes through (R82, R88, R102, R127, R128). Values are exact fractions; a rounding happens only where the
spec names one. -/

namespace Sys2Proof

/-- The format codes of R72. -/
inductive Fmt where
  | fp32
  | bf16
  | fp16
  | e4m3
  | e5m2
  | e3m2
  | e2m3
  | e2m1
  | int8
  | int4
  | uint8
  | e8m0
  deriving DecidableEq, Repr

/-- The format of a 4-bit code; codes 0xC-0xF are reserved (R72). -/
def Fmt.ofCode (c : Nat) : Option Fmt :=
  [Fmt.fp32, .bf16, .fp16, .e4m3, .e5m2, .e3m2, .e2m3, .e2m1, .int8, .int4, .uint8, .e8m0][c]?

/-- The 4-bit code of a format (R72). -/
def Fmt.code : Fmt → Nat
  | .fp32 => 0
  | .bf16 => 1
  | .fp16 => 2
  | .e4m3 => 3
  | .e5m2 => 4
  | .e3m2 => 5
  | .e2m3 => 6
  | .e2m1 => 7
  | .int8 => 8
  | .int4 => 9
  | .uint8 => 10
  | .e8m0 => 11

/-- The width of a format in bits (R72). -/
def Fmt.width : Fmt → Nat
  | .fp32 => 32
  | .bf16 | .fp16 => 16
  | .e3m2 | .e2m3 => 6
  | .e2m1 | .int4 => 4
  | _ => 8

/-- The formats that exist only inside scaled blocks (R72, R79). -/
def Fmt.blockScaled : Fmt → Bool
  | .e4m3 | .e5m2 | .e3m2 | .e2m3 | .e2m1 => true
  | _ => false

/-- The integer formats with a zero point (R72, R83). -/
def Fmt.integer : Fmt → Bool
  | .int8 | .int4 | .uint8 => true
  | _ => false

/-- A value that an element, a lane or an accumulator stands for: NaN (signalling or quiet, R77), an infinity, a signed
zero (R76), or the non-zero fraction `n / d`. -/
inductive FNum where
  | nan (sig : Bool)
  | inf (neg : Bool)
  | zero (neg : Bool)
  | fin (n : Int) (d : Nat)
  deriving DecidableEq, Repr

namespace FNum

/-- The fraction `n / d` as a value; a zero takes the given sign. -/
def ofQ (neg0 : Bool) (n : Int) (d : Nat) : FNum :=
  if n = 0 then .zero neg0 else .fin n d

/-- An integer as a value; 0 is +0 (R83: the integer d). -/
def ofInt (n : Int) : FNum :=
  ofQ false n 1

/-- `n × 2^k` as a value. -/
def scaled (neg0 : Bool) (n : Int) (k : Int) : FNum :=
  if k ≥ 0 then ofQ neg0 (n * 2 ^ k.toNat) 1 else ofQ neg0 n (2 ^ (-k).toNat)

/-- Whether the value is negative, a negative zero included. -/
def isNeg : FNum → Bool
  | .nan _ => false
  | .inf s => s
  | .zero s => s
  | .fin n _ => n < 0

/-- Whether the value is NaN. -/
def isNan : FNum → Bool
  | .nan _ => true
  | _ => false

/-- Whether the value is a signalling NaN (R77). -/
def isSnan : FNum → Bool
  | .nan s => s
  | _ => false

/-- Whether the value is finite. -/
def isFin : FNum → Bool
  | .zero _ => true
  | .fin _ _ => true
  | _ => false

/-- Whether the value is a zero. -/
def isZero : FNum → Bool
  | .zero _ => true
  | _ => false

/-- The value with its sign changed. -/
def neg : FNum → FNum
  | .nan s => .nan s
  | .inf s => .inf (!s)
  | .zero s => .zero (!s)
  | .fin n d => .fin (-n) d

/-- The value without its sign. -/
def abs : FNum → FNum
  | .nan s => .nan s
  | .inf _ => .inf false
  | .zero _ => .zero false
  | .fin n d => .fin n.natAbs d

/-- The value times `2^k`, exact. -/
def mulPow2 (x : FNum) (k : Int) : FNum :=
  match x with
  | .fin n d => if k ≥ 0 then .fin (n * 2 ^ k.toNat) d else .fin n (d * 2 ^ (-k).toNat)
  | _ => x

/-- Exact sum of two fractions, over the larger denominator where one divides the other. -/
def addQ (n₁ : Int) (d₁ : Nat) (n₂ : Int) (d₂ : Nat) : Int × Nat :=
  if d₂ % d₁ = 0 then (n₁ * ((d₂ / d₁ : Nat) : Int) + n₂, d₂)
  else if d₁ % d₂ = 0 then (n₁ + n₂ * ((d₁ / d₂ : Nat) : Int), d₁)
  else (n₁ * (d₂ : Int) + n₂ * (d₁ : Int), d₁ * d₂)

/-- Exact sum with the zero signs of IEEE 754 under rounding to nearest; ∞ − ∞ is NaN (R89, R102). -/
def add (a b : FNum) : FNum :=
  match a, b with
  | .nan _, _ => .nan false
  | _, .nan _ => .nan false
  | .inf s, .inf t => if s = t then .inf s else .nan false
  | .inf s, _ => .inf s
  | _, .inf t => .inf t
  | .zero s, .zero t => .zero (s && t)
  | .zero _, y => y
  | x, .zero _ => x
  | .fin n₁ d₁, .fin n₂ d₂ => let q := addQ n₁ d₁ n₂ d₂; ofQ false q.1 q.2

/-- Whether a sum is the invalid ∞ − ∞ (R102). -/
def addInvalid (a b : FNum) : Bool :=
  match a, b with
  | .inf s, .inf t => s != t
  | _, _ => false

/-- Exact product; 0 × ∞ is NaN (R89, R102). -/
def mul (a b : FNum) : FNum :=
  match a, b with
  | .nan _, _ => .nan false
  | _, .nan _ => .nan false
  | .inf _, .zero _ => .nan false
  | .zero _, .inf _ => .nan false
  | .inf s, y => .inf (s != y.isNeg)
  | x, .inf t => .inf (x.isNeg != t)
  | .zero s, y => .zero (s != y.isNeg)
  | x, .zero t => .zero (x.isNeg != t)
  | .fin n₁ d₁, .fin n₂ d₂ => .fin (n₁ * n₂) (d₁ * d₂)

/-- Whether a product is the invalid 0 × ∞ (R102). -/
def mulInvalid (a b : FNum) : Bool :=
  match a, b with
  | .inf _, .zero _ => true
  | .zero _, .inf _ => true
  | _, _ => false

/-- Exact quotient of IEEE 754 (R120, R128): 0/0 and ∞/∞ are NaN, x/0 is an infinity. -/
def div (a b : FNum) : FNum :=
  match a, b with
  | .nan _, _ => .nan false
  | _, .nan _ => .nan false
  | .inf _, .inf _ => .nan false
  | .zero _, .zero _ => .nan false
  | .inf s, y => .inf (s != y.isNeg)
  | x, .inf t => .zero (x.isNeg != t)
  | .zero s, y => .zero (s != y.isNeg)
  | x, .zero t => .inf (x.isNeg != t)
  | .fin n₁ d₁, .fin n₂ d₂ => .fin (if n₂ < 0 then -(n₁ * (d₂ : Int)) else n₁ * (d₂ : Int)) (d₁ * n₂.natAbs)

/-- Whether a quotient is the invalid 0/0 or ∞/∞ (IEEE 754). -/
def divInvalid (a b : FNum) : Bool :=
  match a, b with
  | .inf _, .inf _ => true
  | .zero _, .zero _ => true
  | _, _ => false

/-- Numerical comparison `a < b`, zeros equal, NaN never below anything (R102: ordered comparison). -/
def lt (a b : FNum) : Bool :=
  match a, b with
  | .nan _, _ => false
  | _, .nan _ => false
  | .inf s, .inf t => s && !t
  | .inf s, _ => s
  | _, .inf t => !t
  | .zero _, .zero _ => false
  | .zero _, .fin n _ => 0 < n
  | .fin n _, .zero _ => n < 0
  | .fin n₁ d₁, .fin n₂ d₂ => n₁ * (d₂ : Int) < n₂ * (d₁ : Int)

/-- Numerical equality, zeros equal, NaN equal to nothing. -/
def eq (a b : FNum) : Bool :=
  !a.isNan && !b.isNan && !lt a b && !lt b a

/-- `a ≤ b`, false when either is NaN. -/
def le (a b : FNum) : Bool :=
  lt a b || eq a b

/-- The order of MAX and MIN: numerical, with −0 below +0 (R102). -/
def below (a b : FNum) : Bool :=
  lt a b || (eq a b && a.isNeg && !b.isNeg)

/-- The larger value in the order of R102, NaN if either is NaN. -/
def max (a b : FNum) : FNum :=
  if a.isNan || b.isNan then .nan false else if below a b then b else a

/-- The smaller value in the order of R102, NaN if either is NaN. -/
def min (a b : FNum) : FNum :=
  if a.isNan || b.isNan then .nan false else if below b a then b else a

end FNum

/-- ⌊log₂ (n / d)⌋ of a positive fraction. -/
def floorLog2 (n d : Nat) : Int :=
  let c : Int := (Nat.log2 n : Int) - (Nat.log2 d : Int)
  let ge : Bool := if c ≥ 0 then d * 2 ^ c.toNat ≤ n else d ≤ n * 2 ^ (-c).toNat
  if ge then c else c - 1

/-- The two roundings to nearest the device has: ties to even (R88, R102, R108) and ties away from zero (R127). -/
inductive RMode where
  | nearestEven
  | nearestAway
  deriving DecidableEq, Repr

/-- A non-negative fraction rounded to an integer, and whether bits were discarded. -/
def roundNat (m : RMode) (n d : Nat) : Nat × Bool :=
  let q := n / d
  let r := n % d
  if r = 0 then (q, false)
  else
    let up : Bool :=
      match m with
      | .nearestAway => d ≤ 2 * r
      | .nearestEven => d < 2 * r || (d = 2 * r && q % 2 = 1)
    (if up then q + 1 else q, true)

/-- The integer of R128: sign(q) × ⌊|q| + 1/2⌋, ties away from zero. -/
def roundTa (n : Int) (d : Nat) : Int :=
  let r := (roundNat .nearestAway n.natAbs d).1
  if n < 0 then -(r : Int) else (r : Int)

/-- How a float format treats its all-ones exponent field (R74). -/
inductive FloatKind where
  /-- infinities and NaNs of IEEE 754 -/
  | ieee
  /-- finite but for all mantissa bits set, which is NaN (E4M3, E5M2; R75) -/
  | fn
  /-- finite throughout (E3M2, E2M3, E2M1) -/
  | none
  deriving DecidableEq, Repr

/-- The parameters of R74: exponent bits, mantissa bits, bias, the encoding of the largest finite value, the kind. -/
structure FloatFmt where
  e : Nat
  m : Nat
  bias : Nat
  maxBits : Nat
  kind : FloatKind
  deriving DecidableEq, Repr

/-- The table of R74. -/
def Fmt.float : Fmt → Option FloatFmt
  | .fp32 => some ⟨8, 23, 127, 0x7F7FFFFF, .ieee⟩
  | .bf16 => some ⟨8, 7, 127, 0x7F7F, .ieee⟩
  | .fp16 => some ⟨5, 10, 15, 0x7BFF, .ieee⟩
  | .e4m3 => some ⟨4, 3, 7, 0x7E, .fn⟩
  | .e5m2 => some ⟨5, 2, 15, 0x7E, .fn⟩
  | .e3m2 => some ⟨3, 2, 3, 0x1F, .none⟩
  | .e2m3 => some ⟨2, 3, 1, 0x1F, .none⟩
  | .e2m1 => some ⟨2, 1, 1, 0x7, .none⟩
  | _ => Option.none

/-- The FP32 parameters of R74. -/
def f32 : FloatFmt := ⟨8, 23, 127, 0x7F7FFFFF, .ieee⟩

/-- The exponent of the smallest normal value. -/
def FloatFmt.emin (f : FloatFmt) : Int := 1 - (f.bias : Int)

/-- The sign bit of an element. -/
def FloatFmt.signBit (f : FloatFmt) : Nat := 2 ^ (f.e + f.m)

/-- The encoding of +infinity in a format that has one. -/
def FloatFmt.infBits (f : FloatFmt) : Nat := (2 ^ f.e - 1) * 2 ^ f.m

/-- The quiet NaN that the device writes (R77); formats without NaN write +0 (R82). -/
def FloatFmt.nanBits (f : FloatFmt) : Nat :=
  match f.kind with
  | .ieee => f.infBits + 2 ^ (f.m - 1)
  | .fn => 0x7F
  | .none => 0

/-- The value an element encoding stands for (R74-R76), without its block's scale. -/
def FloatFmt.decode (f : FloatFmt) (code : Nat) : FNum :=
  let neg := (code / f.signBit) % 2 = 1
  let body := code % f.signBit
  let ef := body / 2 ^ f.m
  let mant := body % 2 ^ f.m
  let special : Option FNum :=
    match f.kind with
    | .ieee =>
      if ef = 2 ^ f.e - 1 then
        if mant = 0 then some (.inf neg) else some (.nan (mant / 2 ^ (f.m - 1) = 0))
      else Option.none
    | .fn => if body = 0x7F then some (.nan false) else Option.none
    | .none => Option.none
  match special with
  | some x => x
  | Option.none =>
    let mag : Nat := if ef = 0 then mant else 2 ^ f.m + mant
    let k : Int := (if ef = 0 then f.emin else (ef : Int) - f.bias) - f.m
    FNum.scaled neg (if neg then -(mag : Int) else (mag : Int)) k

/-- The result of a rounding: the encoding, the flags of R82, R89 and R102, and whether the value lay (or rounded) beyond
the largest finite value of the format (R82: saturates, or becomes an infinity). -/
structure Rounded where
  bits : Nat
  fl : ArithFlags
  beyond : Bool := false
  deriving DecidableEq, Repr

/-- Rounds an exact value into a float format. A value beyond the largest finite becomes an infinity with overflow and
inexact in an IEEE format; in an element format it saturates (R82). Underflow: IEEE formats raise it for an inexact
result below the smallest normal, element formats only when a non-zero value rounds to zero (R82, R105). -/
def FloatFmt.round (f : FloatFmt) (mode : RMode) (x : FNum) : Rounded :=
  match x with
  | .nan _ => ⟨f.nanBits, {}, false⟩
  | .zero s => ⟨if s then f.signBit else 0, {}, false⟩
  | .inf s =>
    let sb := if s then f.signBit else 0
    match f.kind with
    | .ieee => ⟨sb + f.infBits, {}, false⟩
    | _ => ⟨sb + f.maxBits, { ovf := true }, true⟩
  | .fin n d =>
    let sb := if n < 0 then f.signBit else 0
    let E : Int := Max.max (floorLog2 n.natAbs d) f.emin
    let k : Int := E - f.m
    let r := if k ≥ 0 then roundNat mode n.natAbs (d * 2 ^ k.toNat) else roundNat mode (n.natAbs * 2 ^ (-k).toNat) d
    let body : Nat := (E - f.emin).toNat * 2 ^ f.m + r.1
    if f.maxBits < body then
      match f.kind with
      | .ieee => ⟨sb + f.infBits, { ovf := true, inx := true }, true⟩
      | _ => ⟨sb + f.maxBits, { inx := true }, true⟩
    else
      let unf : Bool :=
        match f.kind with
        | .ieee => r.2 && body < 2 ^ f.m
        | _ => body = 0
      ⟨sb + body, { unf := unf, inx := r.2 }, false⟩

/-- The value of an FP32 word. -/
def num32 (w : Word) : FNum := f32.decode w.toNat

/-- RNE32: the nearest FP32 value, ties to even, with its flags (R88, R102). -/
def rne32 (x : FNum) : Word × ArithFlags :=
  let r := f32.round .nearestEven x
  (BitVec.ofNat 32 r.bits, r.fl)

/-- The canonical FP32 NaN (R77). -/
def nan32 : Word := 0x7FC00000#32

/-- Raises invalid for each signalling operand (R77). -/
def snanFlags (l : List FNum) : ArithFlags :=
  .invIf (l.any FNum.isSnan)

/-- FP32 addition (R102). -/
def addF32 (a b : Word) : Word × ArithFlags :=
  let x := num32 a
  let y := num32 b
  let r := rne32 (x.add y)
  (r.1, (r.2.or (snanFlags [x, y])).or (.invIf (FNum.addInvalid x y)))

/-- The sign bit of an FP32 word changed. -/
def negF32 (a : Word) : Word := a ^^^ 0x80000000#32

/-- FP32 subtraction (R102). A NaN stays NaN whatever its sign. -/
def subF32 (a b : Word) : Word × ArithFlags :=
  addF32 a (negF32 b)

/-- FP32 multiplication (R102). -/
def mulF32 (a b : Word) : Word × ArithFlags :=
  let x := num32 a
  let y := num32 b
  let r := rne32 (x.mul y)
  (r.1, (r.2.or (snanFlags [x, y])).or (.invIf (FNum.mulInvalid x y)))

/-- Fused multiply-add `a × b + c`, rounded once (R102). DESIGN CHOICE (log 91): 0 × ∞ beside a quiet NaN addend raises invalid, which
IEEE 754 leaves open. -/
def fmaF32 (a b c : Word) : Word × ArithFlags :=
  let x := num32 a
  let y := num32 b
  let z := num32 c
  let p := x.mul y
  let r := rne32 (p.add z)
  (r.1, ((r.2.or (snanFlags [x, y, z])).or (.invIf (FNum.mulInvalid x y))).or (.invIf (FNum.addInvalid p z)))

/-- FP32 division, rounded once (R120). -/
def divF32 (a b : Word) : Word × ArithFlags :=
  let x := num32 a
  let y := num32 b
  let r := rne32 (x.div y)
  (r.1, (r.2.or (snanFlags [x, y])).or (.invIf (FNum.divInvalid x y)))

/-- The larger FP32 value; NaN if either is NaN; −0 below +0 (R102). -/
def maxF32 (a b : Word) : Word × ArithFlags :=
  let x := num32 a
  let y := num32 b
  (if x.isNan || y.isNan then nan32 else if x.below y then b else a, snanFlags [x, y])

/-- The smaller FP32 value; NaN if either is NaN; −0 below +0 (R102). -/
def minF32 (a b : Word) : Word × ArithFlags :=
  let x := num32 a
  let y := num32 b
  (if x.isNan || y.isNan then nan32 else if y.below x then b else a, snanFlags [x, y])

/-- The value of an E8M0 scale; `none` for the NaN code 0xFF (R78). The exponent is code − 127. -/
def scaleExp (code : Byte) : Option Int :=
  if code = 0xFF#8 then none else some ((code.toNat : Int) - 127)

/-- The signed integer of an integer code (R83). -/
def intCode (f : Fmt) (code : Nat) : Int :=
  match f with
  | .int8 => (BitVec.ofNat 8 code).toInt
  | .int4 => (BitVec.ofNat 4 code).toInt
  | _ => (code % 256 : Nat)

/-- The code range of an integer format (R83). -/
def Fmt.codeRange : Fmt → Int × Int
  | .int8 => (-128, 127)
  | .int4 => (-8, 7)
  | _ => (0, 255)

/-- The value of one element of an operand stream: a float with its block's scale (R79), or the integer d = code − z
(R83). Format E8M0 is never an operand (R84); it reads as NaN here. -/
def elemNum (f : Fmt) (code : Nat) (scale : Byte) (z : Int) : FNum :=
  if f.integer then .ofInt (intCode f code - z)
  else
    match f.float with
    | none => .nan false
    | some ff =>
      if f.blockScaled then
        match scaleExp scale with
        | none => .nan false
        | some k => (ff.decode code).mulPow2 k
      else ff.decode code

/-- The exponent of an element format's largest normal (R81 step 4). -/
def Fmt.emax : Fmt → Int
  | .e4m3 => 8
  | .e5m2 => 16
  | .e3m2 => 4
  | _ => 2

/-- The magnitude that stands for an input when a scale is chosen: an infinity counts as the FP32 largest finite value, a
NaN is left out (R81 step 1). -/
def scaleMag (x : FNum) : Option (Nat × Nat) :=
  match x with
  | .nan _ => none
  | .inf _ => some ((2 ^ 24 - 1) * 2 ^ 104, 1)
  | .zero _ => none
  | .fin n d => some (n.natAbs, d)

/-- The larger of two positive fractions. -/
def maxQ (a b : Nat × Nat) : Nat × Nat :=
  if a.1 * b.2 < b.1 * a.2 then b else a

/-- The scale code of R81 for a block's inputs, and whether it was clamped at 254. -/
def blockScale (f : Fmt) (xs : List FNum) : Byte × Bool :=
  if xs.any FNum.isNan then (0xFF#8, false)
  else
    match xs.filterMap scaleMag with
    | [] => (0x7F#8, false)
    | a :: l =>
      let m := l.foldl maxQ a
      let c := floorLog2 m.1 m.2 - f.emax + 127
      (BitVec.ofInt 8 (Max.max 0 (Min.min c 254)), 254 < c)

/-- One element written into a block of scale `k` (R81 step 5, R82): rounded under R127, saturating. -/
def blockElem (ff : FloatFmt) (mode : RMode) (k : Int) (x : FNum) : Rounded :=
  ff.round mode (x.mulPow2 (-k))

/-- A written scaled block: scale code, element codes, flags, and which elements R137 counts as clipped. -/
structure BlockOut where
  scale : Byte
  codes : List Nat
  fl : ArithFlags
  clipped : List Bool
  deriving DecidableEq, Repr

/-- Converts values into one scaled block: the scale is chosen first, then the elements (R81, R82). A scale clamped at 254
raises overflow beside the inexact of a saturation. -/
def toBlock (f : Fmt) (xs : List FNum) : BlockOut :=
  match f.float with
  | none => ⟨0x7F#8, xs.map fun _ => 0, {}, []⟩
  | some ff =>
    let s := blockScale f xs
    if s.1 = 0xFF#8 then ⟨0xFF#8, xs.map fun _ => 0, snanFlags xs, xs.map fun _ => false⟩
    else
      let k : Int := (s.1.toNat : Int) - 127
      let es := xs.map (blockElem ff .nearestAway k)
      ⟨s.1, es.map (·.bits), (ArithFlags.orAll (es.map (·.fl))).or { ovf := s.2 && es.any (·.beyond) }, es.map (·.beyond)⟩

/-- An integer code and the flags of its conversion (R82, R129): `clamp(round_ta(x / s) + z)`. `clip` says whether R137
counts the element. -/
structure IntOut where
  code : Int
  fl : ArithFlags
  clip : Bool
  deriving DecidableEq, Repr

/-- A value converted under the asymmetric mapping with scale `s` (an exact value) and zero point `z` (R82, R129). -/
def toIntCode (f : Fmt) (s : FNum) (z : Int) (x : FNum) : IntOut :=
  let r := f.codeRange
  match x with
  | .nan _ => ⟨z, { inv := true }, false⟩
  | .inf neg => ⟨if neg then r.1 else r.2, { ovf := true }, true⟩
  | .zero _ => ⟨z, {}, false⟩
  | _ =>
    match x.div s with
    | .fin n d =>
      let q := roundTa n d + z
      let c := Max.max r.1 (Min.min q r.2)
      ⟨c, { inx := c != q || n % (d : Int) != 0 }, c != q⟩
    | _ => ⟨z, {}, false⟩

/-- Converts a value into BF16 or FP16 (no scale) under R127, with the flags of R82 and whether it is clipped (R137). -/
def toHalf (f : FloatFmt) (x : FNum) : Rounded × Bool :=
  let r := f.round .nearestAway x
  ({ r with fl := r.fl.or (snanFlags [x]) }, x.isFin && r.beyond)

/-- The top bits of an integer code as stored (two's complement in the format's width). -/
def Fmt.wrap (f : Fmt) (c : Int) : Nat :=
  (c % (2 ^ f.width : Nat)).toNat

/-- Packs element codes into a bit string that starts at bit 0 of its first byte (R80). -/
def packBits (w : Nat) (codes : List Nat) : Nat :=
  codes.foldr (fun c acc => c % 2 ^ w + 2 ^ w * acc) 0

/-- The element codes of a packed bit string (R80). -/
def unpackBits (w n : Nat) (x : Nat) : List Nat :=
  (List.range n).map fun i => (x / 2 ^ (w * i)) % 2 ^ w

end Sys2Proof
end

