-- ==== Sys2Proof/Machine/Encl.lean ====
section
/-! DEFINITION. Enclosures of the real functions of R104, in integer fixed point: at precision `p` each gives a lower and an
upper bound of the exact value. They exist so that the correctly rounded results of R108 and the neighbours of R109 can be
computed; nothing here rounds to a format. -/

namespace Sys2Proof.Encl

/-- A closed interval that holds an exact real value. -/
structure Ival where
  lo : FNum
  hi : FNum
  deriving DecidableEq, Repr

/-- The interval `[(v − e) × 2^k, (v + e) × 2^k]`. -/
def around (v e : Int) (k : Int) : Ival :=
  ⟨.scaled false (v - e) k, .scaled false (v + e) k⟩

/-- A value named by one fraction: used where the exact value lies so near a fraction that no rounding boundary of a format
of at most 25 significant bits stands between them. -/
def near (x : FNum) : Ival := ⟨x, x⟩

/-- Fixed-point product, rounded down: at most one unit too small. -/
def mulF (P : Nat) (a b : Int) : Int := (a * b) >>> P

/-- `⌊(n / d) × 2^P⌋`. -/
def fix (P : Nat) (n : Int) (d : Nat) : Int := (n * 2 ^ P) / (d : Int)

/-- Σ zz^i × t₀ / (2i + 1) with signs `s^i`: the series of atanh (s = 1) and atan (s = −1), `fuel` terms. -/
def arcSeries (P : Nat) (s zz : Int) : Nat → Nat → Int → Int
  | 0, _, _ => 0
  | f + 1, i, t => t / ((2 * i + 1 : Nat) : Int) + arcSeries P s zz f (i + 1) (s * mulF P t zz)

/-- ln 2 in fixed point, within `2P` units (2 atanh(1/3)). -/
def ln2 (P : Nat) : Int :=
  2 * arcSeries P 1 (2 ^ P / 9) P 0 (2 ^ P / 3)

/-- π in fixed point, within `64P` units (16 atan(1/5) − 4 atan(1/239)). -/
def pi (P : Nat) : Int :=
  16 * arcSeries P (-1) (2 ^ P / 25) P 0 (2 ^ P / 5) - 4 * arcSeries P (-1) (2 ^ P / 57121) P 0 (2 ^ P / 239)

/-- e^X for |X| ≤ 1 in fixed point, by Horner's rule from term `n` down. -/
def expSmall (P : Nat) (X : Int) : Nat → Nat → Int → Int
  | 0, _, acc => acc
  | f + 1, i, acc => expSmall P X f (i - 1) (2 ^ P + mulF P X acc / (i : Int))

/-- e^X for a fixed-point X with |X| ≤ 1, within 8 units. -/
def expFix (P : Nat) (X : Int) : Int :=
  expSmall P X P P (2 ^ P)

/-- The nearest integer to `a / b`, b > 0. -/
def nearest (a b : Int) : Int := (2 * a + b) / (2 * b)

/-- e^y for a fixed-point y of error at most `e` units, |y| < 2^11: mantissa, error and exponent. -/
def expParts (P : Nat) (y : Int) (e : Int) : Int × Int × Int :=
  let L := ln2 P
  let k := nearest y L
  let v := expFix P (y - k * L)
  (v, 4 * (e + 4096 * (2 * (P : Int) + 2)) + 16, k)

/-- e^x of a fraction below 2^11 in magnitude. -/
def expQ (p : Nat) (n : Int) (d : Nat) : Ival :=
  let P := p + 64
  let r := expParts P (fix P n d) 1
  around r.1 r.2.1 (r.2.2 - P)

/-- 2^x of a fraction. -/
def exp2Q (p : Nat) (n : Int) (d : Nat) : Ival :=
  let P := p + 64
  let k := nearest n (d : Int)
  let v := expFix P (mulF P (fix P (n - k * (d : Int)) d) (ln2 P))
  around v (8 * (P : Int) + 32) (k - P)

/-- ln of a positive fraction in fixed point, within `2^16 × P` units. -/
def lnFix (P : Nat) (n d : Nat) : Int :=
  let k₀ := floorLog2 n d
  -- n/d = m × 2^k with m in [2/3, 4/3)
  let up : Bool := if k₀ ≥ 0 then 4 * d * 2 ^ k₀.toNat ≤ 3 * n else 4 * d ≤ 3 * n * 2 ^ (-k₀).toNat
  let k : Int := if up then k₀ + 1 else k₀
  let a : Nat := if k ≥ 0 then n else n * 2 ^ (-k).toNat
  let b : Nat := if k ≥ 0 then d * 2 ^ k.toNat else d
  let z := fix P ((a : Int) - b) (a + b)
  2 * arcSeries P 1 (mulF P z z) P 0 z + k * ln2 P

/-- The error bound of `lnFix`. -/
def lnErr (P : Nat) : Int := 65536 * ((P : Int) + 4)

/-- ln x of a positive fraction. -/
def lnQ (p : Nat) (n d : Nat) : Ival :=
  let P := p + 64
  around (lnFix P n d) (lnErr P) (-(P : Int))

/-- log₂ x of a positive fraction. -/
def log2Q (p : Nat) (n d : Nat) : Ival :=
  let P := p + 64
  around ((lnFix P n d * 2 ^ P) / ln2 P) (8 * lnErr P) (-(P : Int))

/-- sin r and cos r of a fixed-point r with |r| ≤ 1, by Horner's rule: the series 1 − q/(j(j+1)) (1 − …) with q = r². -/
def trigSeries (P : Nat) (q : Int) : Nat → Nat → Int → Int
  | 0, _, acc => acc
  | f + 1, j, acc => trigSeries P q f (j - 2) (2 ^ P - mulF P q acc / ((j * (j + 1) : Nat) : Int))

/-- sin or cos (`c`) of a fraction: reduction by π/2, then the series. -/
def trigQ (c : Bool) (p : Nat) (n : Int) (d : Nat) : Ival :=
  let P := p + 320
  let y := fix P n d
  let h := pi P / 2
  let k := nearest y h
  let r := y - k * h
  let q := mulF P r r
  let N := 2 * (P / 2)
  let sinr := mulF P r (trigSeries P q (P / 2) N (2 ^ P))
  let cosr := trigSeries P q (P / 2) (N - 1) (2 ^ P)
  let m := ((if c then k + 1 else k) % 4).toNat
  let v := match m with
    | 0 => sinr
    | 1 => cosr
    | 2 => -sinr
    | _ => -cosr
  around v (64 * (P : Int) * (k.natAbs + 2) + 64) (-(P : Int))

/-- 1 / (1 + e^(−x)) of a fraction below 2^8 in magnitude. -/
def sigmoidQ (p : Nat) (n : Int) (d : Nat) : Ival :=
  let P := p + 64
  let r := expParts P (fix P (-n.natAbs) d) 1
  -- e^(−|x|) in fixed point at P, error e
  let t : Int := if r.2.2 ≥ 0 then r.1 * 2 ^ r.2.2.toNat else r.1 >>> (-r.2.2).toNat
  let e := r.2.1 + 2
  let one : Int := 2 ^ P
  if n < 0 then
    -- t / (1 + t) keeps the relative precision of t through its exponent
    let den := one + t
    around ((r.1 * one) / den) (4 * e) (r.2.2 - P)
  else around ((one * one) / (one + t)) (4 * e) (-(P : Int))

/-- tanh x of a positive fraction below 2^6: (1 − u) / (1 + u) with u = e^(−2x). -/
def tanhPosQ (p n d : Nat) : Ival :=
  let P := p + 128
  let r := expParts P (fix P (-(2 * (n : Int))) d) 1
  let t : Int := if r.2.2 ≥ 0 then r.1 * 2 ^ r.2.2.toNat else r.1 >>> (-r.2.2).toNat
  let one : Int := 2 ^ P
  around (((one - t) * one) / (one + t)) (8 * (r.2.1 + 2)) (-(P : Int))

/-- ln(1 + e^x) of a fraction below 2^8 in magnitude: x⁺ + 2 atanh(t / (2 + t)) with t = e^(−|x|). -/
def softplusQ (p : Nat) (n : Int) (d : Nat) : Ival :=
  let P := p + 400
  let r := expParts P (fix P (-n.natAbs) d) 1
  let t : Int := if r.2.2 ≥ 0 then r.1 * 2 ^ r.2.2.toNat else r.1 >>> (-r.2.2).toNat
  let z := (t * 2 ^ P) / (2 * 2 ^ P + t)
  let l := 2 * arcSeries P 1 (mulF P z z) P 0 z
  let x := if n < 0 then 0 else fix P n d
  around (l + x) (16 * (r.2.1 + 8 * (P : Int))) (-(P : Int))

/-- Σ over the series of erf: t × Σ (2t²)^i / (1·3·…·(2i+1)), all terms positive. -/
def erfSeries (P : Nat) (tt2 : Int) : Nat → Nat → Int → Int
  | 0, _, _ => 0
  | f + 1, i, term => term + erfSeries P tt2 f (i + 1) (mulF P term tt2 / ((2 * i + 3 : Nat) : Int))

/-- (x/2)(1 + erf(x/√2)) of a fraction below 2^4 in magnitude. With y = |x|: erf(y/√2) = √(2/π) e^(−y²/2) Σ y^(2i+1)/(1·3·…). -/
def geluQ (p : Nat) (n : Int) (d : Nat) : Ival :=
  let P := p + 512
  let y := fix P n.natAbs d
  let yy := mulF P y y
  let S := erfSeries P yy (8 * 64 + 4 * P) 0 y
  let r := expParts P (-(yy / 2)) 4
  let g : Int := if r.2.2 ≥ 0 then r.1 * 2 ^ r.2.2.toNat else r.1 >>> (-r.2.2).toNat
  let c : Int := (Nat.sqrt ((2 * 2 ^ (3 * P)) / (pi P).toNat) : Nat)
  let erf := mulF P c (mulF P g S)
  let one : Int := 2 ^ P
  let w := if n < 0 then one - erf else one + erf
  let x := fix P n d
  -- every factor is below 2^200 at these arguments
  around (mulF P x w / 2) (2 ^ 300) (-(P : Int))

/-- ⌊√(n/d) × 2^k⌋ and whether that is exact. -/
def sqrtFloor (n d k : Nat) : Nat × Bool :=
  let q := n * 2 ^ (2 * k) / d
  let r := Nat.sqrt q
  (r, r * r * d = n * 2 ^ (2 * k))

/-- √(n/d): one unit in the last of `p` places beyond its magnitude. -/
def sqrtQ (p n d : Nat) : Ival :=
  let k := (p + 4 - floorLog2 n d / 2).toNat
  let r := sqrtFloor n d k
  if r.2 then near (.scaled false r.1 (-(k : Int)))
  else ⟨.scaled false r.1 (-(k : Int)), .scaled false (r.1 + 1) (-(k : Int))⟩

end Sys2Proof.Encl
end

