-- ==== Sys2Proof/Machine/Sfn.lean ====
section
/-! DEFINITION. The special functions of R104-R110 and the micro-programs of R111-R113, one lane at a time. -/

namespace Sys2Proof

open Sys2Proof.Encl (Ival near)

/-- The output formats of a special function (R107), with the E8M0 scale code that E4M3 and E5M2 carry. -/
inductive SfnOut where
  | fp32
  | bf16
  | fp16
  | e4m3 (scale : Byte)
  | e5m2 (scale : Byte)
  deriving DecidableEq, Repr

/-- The float format of an output. -/
def SfnOut.fmt : SfnOut → FloatFmt
  | .fp32 => f32
  | .bf16 => ⟨8, 7, 127, 0x7F7F, .ieee⟩
  | .fp16 => ⟨5, 10, 15, 0x7BFF, .ieee⟩
  | .e4m3 _ => ⟨4, 3, 7, 0x7E, .fn⟩
  | .e5m2 _ => ⟨5, 2, 15, 0x7E, .fn⟩

/-- The exponent of the scale that an output is divided by (R107). -/
def SfnOut.scaleExp : SfnOut → Int
  | .e4m3 s => (s.toNat : Int) - 127
  | .e5m2 s => (s.toNat : Int) - 127
  | _ => 0

/-- One lane's result: the code in the output format, its flags, and whether R137 counts it as clipped. -/
structure LaneOut where
  code : Nat
  fl : ArithFlags
  clip : Bool := false
  deriving DecidableEq, Repr

namespace Sfn

/-- `x × (1 − 2^−100)`: a fraction just inside `x`. -/
def justBelow (x : FNum) : FNum :=
  match x with
  | .fin n d => .fin (n * (2 ^ 100 - 1)) (d * 2 ^ 100)
  | _ => x

/-- `x × (1 + 2^−100)`: a fraction just outside `x`. -/
def justAbove (x : FNum) : FNum :=
  match x with
  | .fin n d => .fin (n * (2 ^ 100 + 1)) (d * 2 ^ 100)
  | _ => x

/-- A positive value above every format's range. -/
def huge : FNum := .fin (2 ^ 2000) 1

/-- A positive value below every format's range. -/
def tiny : FNum := .fin 1 (2 ^ 2000)

/-- Whether |n/d| is below 2^−60. -/
def isTiny (n : Int) (d : Nat) : Bool := n.natAbs * 2 ^ 60 < d

/-- Whether |n/d| is at least `b`. -/
def atLeast (b : Nat) (n : Int) (d : Nat) : Bool := b * d ≤ n.natAbs

/-- An interval times an exact value of either sign. -/
def mulIval (x : FNum) (i : Ival) : Ival :=
  if x.isNeg then ⟨x.mul i.hi, x.mul i.lo⟩ else ⟨x.mul i.lo, x.mul i.hi⟩

/-- An interval with its sign changed. -/
def negIval (i : Ival) : Ival := ⟨i.hi.neg, i.lo.neg⟩

/-- ½ moved a little to the side of the sign of `n`. -/
def halfAround (n : Int) : FNum :=
  if n < 0 then justBelow (.fin 1 2) else justAbove (.fin 1 2)

/-- An enclosure at precision `p` of the function of a shipped slot at the non-zero fraction `n / d` of its domain (R104). -/
def ival (slot : Nat) (n : Int) (d p : Nat) : Ival :=
  let x : FNum := .fin n d
  match slot with
  | 0 =>
    if atLeast 1024 n d then near (if n < 0 then tiny else huge)
    else if isTiny n d then near (if n < 0 then justBelow (.fin 1 1) else justAbove (.fin 1 1))
    else Encl.expQ p n d
  | 1 =>
    if atLeast 1024 n d then near (if n < 0 then tiny else huge)
    else if n % (d : Int) = 0 then near (.scaled false 1 (n / (d : Int)))
    else if isTiny n d then near (if n < 0 then justBelow (.fin 1 1) else justAbove (.fin 1 1))
    else Encl.exp2Q p n d
  | 2 => if n = (d : Int) then near (.zero false) else Encl.lnQ p n.natAbs d
  | 3 =>
    let k := floorLog2 n.natAbs d
    if FNum.eq x (.scaled false 1 k) then near (.ofInt k) else Encl.log2Q p n.natAbs d
  | 4 => near (if n < 0 then .fin (-(d : Int)) n.natAbs else .fin d n.natAbs)
  | 5 => Encl.sqrtQ p d n.natAbs
  | 6 => Encl.sqrtQ p n.natAbs d
  | 7 =>
    let a : FNum := .fin n.natAbs d
    let i := if atLeast 64 n d then near (justBelow (.fin 1 1))
      else if isTiny n d then near (justBelow a) else Encl.tanhPosQ p n.natAbs d
    if n < 0 then negIval i else i
  | 8 =>
    if atLeast 256 n d then
      if n < 0 then (if atLeast 1024 n d then near tiny else Encl.expQ p n d) else near (justBelow (.fin 1 1))
    else if isTiny n d then near (halfAround n) else Encl.sigmoidQ p n d
  | 9 =>
    if atLeast 16 n d then near (if n < 0 then tiny.neg else justBelow x)
    else if isTiny n d then near (x.mul (halfAround n)) else Encl.geluQ p n d
  | 10 =>
    if atLeast 256 n d then near (if n < 0 then tiny.neg else justBelow x)
    else if isTiny n d then near (x.mul (halfAround n)) else mulIval x (Encl.sigmoidQ p n d)
  | 11 =>
    if atLeast 256 n d then
      if n < 0 then (if atLeast 1024 n d then near tiny else Encl.expQ p n d) else near (justAbove x)
    else Encl.softplusQ p n d
  | 12 => if isTiny n d then near (justBelow x) else Encl.trigQ false p n d
  | _ => if isTiny n d then near (justBelow (.fin 1 1)) else Encl.trigQ true p n d

/-- The results of the special arguments (R105): `inl` an exact value with the invalid flag, `inr` a finite non-zero argument in
the domain. -/
def special (slot : Nat) (x : FNum) : (FNum × Bool) ⊕ (Int × Nat) :=
  match x with
  | .nan s => .inl (.nan false, s)
  | .inf neg =>
    match slot with
    | 0 | 1 | 11 => .inl (if neg then .zero false else .inf false, false)
    | 2 | 3 | 6 => if neg then .inl (.nan false, true) else .inl (.inf false, false)
    | 4 => .inl (.zero neg, false)
    | 5 => if neg then .inl (.nan false, true) else .inl (.zero false, false)
    | 7 => .inl (.ofInt (if neg then -1 else 1), false)
    | 8 => .inl (if neg then .zero false else .ofInt 1, false)
    | 9 | 10 => .inl (if neg then .zero true else .inf false, false)
    | _ => .inl (.nan false, true)
  | .zero neg =>
    match slot with
    | 0 | 1 | 13 => .inl (.ofInt 1, false)
    | 2 | 3 => .inl (.inf true, false)
    | 4 | 5 => .inl (.inf neg, false)
    | 8 => .inl (.fin 1 2, false)
    | 11 => .inr (0, 1)
    | _ => .inl (.zero neg, false)
  | .fin n d =>
    if n < 0 && (slot = 2 || slot = 3 || slot = 5 || slot = 6) then .inl (.nan false, true) else .inr (n, d)

/-- The precisions tried in turn until both ends of an enclosure round alike. -/
def precisions : List Nat := [80, 200, 500, 1200, 3000]

/-- Rounds an enclosure to the first precision at which both ends agree; `none` if none does. -/
def ziv (r : FNum → Nat × ArithFlags) (f : Nat → Ival) : List Nat → Option (Nat × ArithFlags)
  | [] => none
  | p :: ps =>
    let i := f p
    let a := r i.lo
    let b := r i.hi
    if a.1 = b.1 && a.2 = b.2 then some a else ziv r f ps

/-- The FP32 magnitude bits of a value truncated toward zero, and whether that is exact. -/
def truncMag (x : FNum) : Nat × Bool :=
  match x with
  | .fin n d =>
    let E : Int := Max.max (floorLog2 n.natAbs d) f32.emin
    let k : Int := E - f32.m
    let a : Nat := if k ≥ 0 then n.natAbs else n.natAbs * 2 ^ (-k).toNat
    let b : Nat := if k ≥ 0 then d * 2 ^ k.toNat else d
    ((E - f32.emin).toNat * 2 ^ f32.m + a / b, a % b = 0)
  | _ => (0, true)

/-- What an FP32 result needs of an exact value: its truncation, its exactness, and whether it rounds to an infinity. -/
def faithKey (x : FNum) : Nat × ArithFlags :=
  let t := truncMag x
  (2 * (if f32.infBits < t.1 then f32.infBits else t.1) + t.2.toNat,
    { ovf := (f32.round .nearestEven x).fl.ovf, inx := x.isNeg })

/-- The order of FP32 inputs, both zeros at 0 (R116). -/
def ordinal (x : Word) : Int :=
  let m : Nat := x.toNat % 2 ^ 31
  if x.toNat < 2 ^ 31 then m else -(m : Int)

/-- The monotone branch of an input and whether the function increases on it; `none` for sin and cos (R104). -/
def branch (slot : Nat) (x : FNum) : Option (Nat × Bool) :=
  match slot with
  | 4 => some (if x.isNeg then (0, false) else (1, false))
  | 5 => some (0, false)
  | 9 => some (if x.lt (.fin (-751791) 1000000) then (0, false) else (1, true))
  | 10 => some (if x.lt (.fin (-1278465) 1000000) then (0, false) else (1, true))
  | 12 | 13 => none
  | _ => some (0, true)

/-- The FP32 result of a value whose truncation, exactness and sign are known: the value itself when exact, else the neighbour
that R109 leaves free, bound to R116 by a cut. -/
def faithful (slot : Nat) (pos : Option Nat) (x : Word) (t : Nat) (exact ovf neg : Bool) : LaneOut :=
  let sb := if neg then 2 ^ 31 else 0
  if ovf then ⟨sb + f32.infBits, { ovf := true, inx := true }, false⟩
  else if exact then ⟨sb + t, {}, false⟩
  else
    let lower : Word := BitVec.ofNat 32 (if neg then sb + t + 1 else t)
    let upper : Bool :=
      match branch slot (num32 x) with
      | none => Config.sfnChoice slot pos x
      | some (b, inc) =>
        let c := Config.sfnCut slot b lower
        if inc then c ≤ ordinal x else ordinal x ≤ c
    -- the upper neighbour of a negative value is the one of smaller magnitude
    let far := if neg then !upper else upper
    -- the neighbour above the largest finite value is no FP32 value within 1 ulp (R109)
    let body := if far && t + 1 < f32.infBits then t + 1 else t
    ⟨sb + body, { unf := body < 2 ^ 23, inx := true }, false⟩

/-- The result of a finite non-zero argument: correctly rounded with ties to even in a narrow format (R108), a neighbour in
FP32 (R109). -/
def finite (slot : Nat) (pos : Option Nat) (out : SfnOut) (x : Word) (f : Nat → Ival) : LaneOut :=
  match out with
  | .fp32 =>
    match ziv faithKey f precisions with
    | some (k, fl) => faithful slot pos x (k / 2) (k % 2 = 1) fl.ovf fl.inx
    | none =>
      let i := f 3000
      let e := if Config.sfnUndetermined slot x then i.hi else i.lo
      let k := faithKey e
      faithful slot pos x (k.1 / 2) (k.1 % 2 = 1) k.2.ovf k.2.inx
  | _ =>
    let r : FNum → Nat × ArithFlags := fun v =>
      let y := out.fmt.round .nearestEven (v.mulPow2 (-out.scaleExp))
      (2 * y.bits + y.beyond.toNat, y.fl)
    match ziv r f precisions with
    | some (b, fl) => ⟨b / 2, fl, b % 2 = 1⟩
    | none =>
      let i := f 3000
      let y := r (if Config.sfnUndetermined slot x then i.hi else i.lo)
      ⟨y.1 / 2, y.2, y.1 % 2 = 1⟩

/-- A special value written in the output format (R105, R77, R82). DESIGN CHOICE (log 91): an infinite special result (the log of ±0, 1/±0)
saturates in E4M3 and E5M2 and raises overflow, as R82 gives for an infinity, although R105 gives the result itself no flag. -/
def writeSpecial (out : SfnOut) (v : FNum) (inv : Bool) : LaneOut :=
  let y := out.fmt.round .nearestEven (v.mulPow2 (-out.scaleExp))
  ⟨y.bits, y.fl.or (.invIf inv), y.beyond⟩

/-- A shipped function, slots 0-13, in value mode (R104-R110). -/
def shipped (slot : Nat) (out : SfnOut) (x : Word) : LaneOut :=
  match special slot (num32 x) with
  | .inl (v, inv) =>
    -- a result that is not a special value of the format (½ of sigmoid, −∞ of log ...) rounds like any other
    writeSpecial out v inv
  | .inr (n, d) => finite slot none out x (ival slot n d)

/-- sin and cos in position mode: the argument is the exact product p × ω (R106). -/
def positional (slot : Nat) (out : SfnOut) (p : BitVec 40) (omega : Word) : LaneOut :=
  let w := num32 omega
  let arg := (FNum.ofInt p.toNat).mul w
  match special slot arg with
  | .inl (v, inv) => writeSpecial out v (if w.isNan then w.isSnan else inv || FNum.mulInvalid (.ofInt p.toNat) w)
  | .inr (n, d) => finite slot (some p.toNat) out omega (ival slot n d)

/-! ### Micro-programs -/

/-- The registers of one lane (R111). -/
structure Lane where
  x : Word
  r : Word
  k : Int
  sign : Bool
  c : List Word
  a : Word
  fl : ArithFlags := {}
  deriving DecidableEq, Repr

/-- A lane before the first step; what R111 does not set is free. -/
def laneStart (x : Word) : Lane :=
  { x := x, r := Config.microInit 0, k := Config.microInitK, sign := (Config.microInit 1).msb
    c := [Config.microInit 3, Config.microInit 4, Config.microInit 5, Config.microInit 6], a := Config.microInit 2 }

/-- The fields of a step word (R112): OP, [27:24], [23:20]. -/
def stepOp (w : Word) : Nat := Bits.field w 31 28

/-- The exact integer nearest to a finite value, ties to even. -/
def roundHalfEven (x : FNum) : Option Int :=
  match x with
  | .zero _ => some 0
  | .fin n d =>
    let q : Int := (roundNat .nearestEven n.natAbs d).1
    some (if n < 0 then -q else q)
  | _ => none

/-- x − k × C[i+1] − k × C[i+2], each product exact and one rounding (R112), with the flags of R102. -/
def rangeReduce (x k a b : FNum) : Word × ArithFlags :=
  let p := k.mul a
  let q := k.mul b
  let u := x.add p.neg
  let r := rne32 (u.add q.neg)
  (r.1, (r.2.or (snanFlags [a, b])).or (.invIf
    (FNum.mulInvalid k a || FNum.mulInvalid k b || FNum.addInvalid x p.neg || FNum.addInvalid u q.neg)))

/-- RANGE (R112). A signalling x raises invalid in every mode (R77). -/
def stepRange (cs : List Word) (w : Word) (l : Lane) : Lane :=
  let i := Bits.field w 23 20
  let x := num32 l.x
  let l := { l with fl := l.fl.or (snanFlags [x]) }
  match Bits.field w 27 24 with
  | 0 => { l with r := l.x, k := 0 }
  | 1 =>
    let ci := cs.getD i 0#32
    let c := num32 ci
    let k := (roundHalfEven (x.mul c)).getD (Config.rangeK l.x ci)
    let r := rangeReduce x (FNum.ofInt k) (num32 (cs.getD (i + 1) 0#32)) (num32 (cs.getD (i + 2) 0#32))
    { l with r := r.1, k := k, fl := ((l.fl.or r.2).or (snanFlags [c])).or (.invIf (FNum.mulInvalid x c)) }
  | 2 =>
    match x with
    | .fin n d =>
      if n < 0 then { l with r := (Config.rangeM l.x).1, k := (Config.rangeM l.x).2 }
      else
        let k := floorLog2 n.natAbs d
        { l with r := (rne32 (x.mulPow2 (-k))).1, k := k }
    | _ => { l with r := (Config.rangeM l.x).1, k := (Config.rangeM l.x).2 }
  | _ => { l with sign := l.x.msb, r := l.x &&& 0x7FFFFFFF#32, k := 0 }

/-- The byte at which a TABLE step's entry begins in the table store (R113). DESIGN CHOICE (log 91): an r that is NaN or infinite takes the
last binade, and the top mantissa bits as its segment. -/
def tableByte (w : Word) (r : Word) : Nat :=
  let n := Bits.field w 27 24
  let b := Bits.field w 23 21
  let beta : Int := (BitVec.ofNat 8 (Bits.field w 20 13)).toInt
  let nb : Nat := Bits.field w 12 9 + 1
  let ef : Nat := (r.toNat / 2 ^ 23) % 256
  let bin : Int := if ef = 0 then 0 else (ef : Int) - 127 - beta
  let binade : Nat := if bin < 0 then 0 else Min.min bin.toNat (nb - 1)
  let seg : Nat := if ef = 0 then 0 else (r.toNat % 2 ^ 23) / 2 ^ (23 - b)
  16 * Bits.field w 8 0 + 4 * n * (2 ^ b * binade + seg)

/-- TABLE (R113): loads the coefficients of r's entry, then a := c(n−1). -/
def stepTable (tbl : Nat → Word) (w : Word) (l : Lane) : Lane :=
  let n := Bits.field w 27 24
  let at0 := tableByte w l.r
  let loaded := (List.range n).map fun j => tbl (at0 + 4 * j)
  { l with c := loaded ++ l.c.drop n, a := loaded.getD (n - 1) l.a }

/-- HORNER (R112): a := rne32(a × r + cj). -/
def stepHorner (w : Word) (l : Lane) : Lane :=
  let r := fmaF32 l.a l.r (l.c.getD (Bits.field w 27 24) 0#32)
  { l with a := r.1, fl := l.fl.or r.2 }

/-- RECON (R112). -/
def stepRecon (cs : List Word) (w : Word) (l : Lane) : Lane :=
  let ci := cs.getD (Bits.field w 23 20) 0#32
  let a := num32 l.a
  match Bits.field w 27 24 with
  | 0 =>
    let r := rne32 (a.mulPow2 l.k)
    { l with a := r.1, fl := (l.fl.or r.2).or (snanFlags [a]) }
  | 1 =>
    let p := (FNum.ofInt l.k).mul (num32 ci)
    let r := rne32 (a.add p)
    let bad := FNum.addInvalid a p || FNum.mulInvalid (FNum.ofInt l.k) (num32 ci)
    { l with a := r.1, fl := ((l.fl.or r.2).or (snanFlags [a, num32 ci])).or (.invIf bad) }
  | 2 => let r := mulF32 l.a l.x; { l with a := r.1, fl := l.fl.or r.2 }
  | 3 =>
    { l with a := (l.a &&& 0x7FFFFFFF#32) ||| (if l.sign then 0x80000000#32 else 0#32), fl := l.fl.or (snanFlags [a]) }
  | _ => let r := mulF32 l.a ci; { l with a := r.1, fl := l.fl.or r.2 }

/-- One step other than ROUND. -/
def step (cs : List Word) (tbl : Nat → Word) (w : Word) (l : Lane) : Lane :=
  match stepOp w with
  | 1 => stepRange cs w l
  | 2 => stepTable tbl w l
  | 3 => stepHorner w l
  | 4 => stepRecon cs w l
  | _ => l

/-- The format code of an output (R72). -/
def outCode (out : SfnOut) : Nat :=
  match out with
  | .fp32 => 0
  | .bf16 => 1
  | .fp16 => 2
  | .e4m3 _ => 3
  | .e5m2 _ => 4

/-- ROUND (R112): writes a in the output format, ties to even. Where the step's format code is not the instruction's output format the spec
states no result: the code is free (log 91). -/
def stepRound (w : Word) (out : SfnOut) (l : Lane) : LaneOut :=
  let a := num32 l.a
  let fl := l.fl.or (snanFlags [a])
  if Bits.field w 27 24 = outCode out then
    let y := out.fmt.round .nearestEven (a.mulPow2 (-out.scaleExp))
    ⟨y.bits, fl.or y.fl, out != .fp32 && y.beyond⟩
  else ⟨Config.roundOther (Bits.field w 27 24) (outCode out) l.a, fl, false⟩

/-- A user micro-program on one lane: its steps in order, the last of which is ROUND (R111). -/
def micro (cs steps : List Word) (tbl : Nat → Word) (out : SfnOut) (x : Word) : LaneOut :=
  stepRound (steps.getLastD 0#32) out ((steps.dropLast).foldl (fun l w => step cs tbl w l) (laneStart x))

/-- Whether a micro-program reads the table store. -/
def readsTable (steps : List Word) : Bool := steps.any fun w => stepOp w = 2

end Sfn

/-- e^x in FP32, the shipped function of slot 0 (R118, R254). -/
def expF32 (x : Word) : Word × ArithFlags :=
  let r := Sfn.shipped 0 .fp32 x
  (BitVec.ofNat 32 r.code, r.fl)

/-- The shipped sigmoid in FP32 (R254). -/
def sigmoidF32 (x : Word) : Word × ArithFlags :=
  let r := Sfn.shipped 8 .fp32 x
  (BitVec.ofNat 32 r.code, r.fl)

/-- The shipped sqrt in FP32 (R426). -/
def sqrtF32 (x : Word) : Word :=
  BitVec.ofNat 32 (Sfn.shipped 6 .fp32 x).code

/-- The shipped rsqrt in FP32 (R426). -/
def rsqrtF32 (x : Word) : Word :=
  BitVec.ofNat 32 (Sfn.shipped 5 .fp32 x).code

end Sys2Proof
end

