-- ==== Sys2Proof/Syntax.lean ====
section
/-! DEFINITION. The commands of the block: one constructor of `Instr` per row of spec/opcode_table.json, and the operands
that a command carries. Operands are structured data; the layouts of packets, manifests and records that the spec writes out
byte by byte are read by the meanings from the bytes they arrive in. -/

namespace Sys2Proof

/-! ### Places in the device (01) -/

/-- A yard, 0-7. -/
abbrev Yard := Fin 8

/-- A logical cluster, 25 × row + column (R20). -/
abbrev Cluster := Fin 250

/-- A core of a logical cluster, as a frame program names it (R19, R21). -/
structure CoreRef where
  yard : Yard
  cluster : Cluster
  core : Fin 40
  deriving DecidableEq, Repr

/-- Which store of a core reference an offset lies in (R146, R147). -/
inductive Store where
  | core
  | cluster
  deriving DecidableEq, Repr

/-- A byte place in a store that the core of an instruction reaches. -/
structure Loc where
  store : Store
  off : Nat
  deriving DecidableEq, Repr

/-- The row an instruction works for: its stall (R170), model layer and first output channel (R137), and whether the
conversion is of KV for an append (R138). -/
structure RowTag where
  stall : BitVec 16
  layer : BitVec 12
  chan : Nat
  deriving DecidableEq, Repr

/-- When an instruction of a frame program comes to issue (R40): the ACLK cycle from the bell at which all it needs is ready, and the cycle at
which Leaskow scheduled it. -/
structure When where
  cycle : Nat
  sched : Nat
  deriving DecidableEq, Repr

/-- A place that an engine reads (R17): an offset in core store, or with a hardware queue an offset in the area of its head token.
`release` frees the token once the block is read (R162). -/
structure Place where
  off : Nat
  queue : Option (Fin 4)
  release : Bool
  deriving DecidableEq, Repr

/-- Where the zero point of an integer operand stands (R130): a scalar operand, IN_ZP of an output channel's rescale entry, or the pair of a
row that ROWQ wrote to core store. -/
inductive ZeroAt where
  | scalar (z : Int)
  | entry (table : Place)
  | row (pair : Nat)
  deriving DecidableEq, Repr

/-- An operand stream of an MXE or VXE instruction (R17, R83, R100): where its row begins, its format, for block-scaled formats the block of
the row at which the operand begins (R149), for integer ones its zero point. -/
structure Src where
  place : Place
  fmt : Fmt
  block : Nat
  zero : ZeroAt
  deriving DecidableEq, Repr

/-- Where a result goes and how it is written (R100, R102, R489): the core-store offset at which its row begins, a format, for block-scaled
formats the block of the row at which the result begins and whether the row ends with it, and the scalar pair (s, z) for integer formats. -/
structure Dst where
  off : Nat
  fmt : Fmt
  block : Nat
  ends : Bool
  scale : Word
  zero : Int
  deriving DecidableEq, Repr

/-- What an engine instruction is: where it runs, for which row, and when (R40). -/
structure EngOp where
  core : CoreRef
  tag : RowTag
  at0 : When
  deriving DecidableEq, Repr

/-- An instruction that one sequencer of a yard issues, and when (R40). -/
structure YardAt where
  yard : Yard
  at0 : When
  deriving DecidableEq, Repr

/-- Where a row of block-scaled elements goes on (R149): the block of the row at which a result begins, and whether the row ends with it. -/
structure BlockAt where
  block : Nat
  ends : Bool
  deriving DecidableEq, Repr

/-- A triple of SMX (R119) in core store: its offset and the width of its o. -/
structure TripleAt where
  off : Nat
  width : Nat
  deriving DecidableEq, Repr

/-- What ROUTE_TOPK reads and writes (R254, R257): the scores of the token, and the output row that a token without a generation gets, by
offset and width. -/
structure RouteRow where
  scores : Nat
  dest : Nat
  width : Nat
  deriving DecidableEq, Repr

/-- The length of a row that SEND_RECORD takes (R258): its elements, and whether they stand in FP32 and are converted. -/
structure RowLen where
  width : Nat
  fp32 : Bool
  deriving DecidableEq, Repr

/-- A unit of weights (R206): whether it lies in the shed, and its address there or in the fast tier. -/
structure UnitAt where
  shed : Bool
  addr : Nat
  deriving DecidableEq, Repr

/-- What a yard without progress shows (R67): the tick's length so far and how long the sequencer has stood, in ACLK cycles. -/
structure Standstill where
  elapsed : Nat
  still : Nat
  deriving DecidableEq, Repr

/-- The end of an activation's load (R201, R209): the job, and the block whose master copy cannot be read. -/
structure LoadEnd where
  job : Handle
  unread : Option Nat
  deriving DecidableEq, Repr

/-- The expander's read of a record (R182, R193): the flight it serves, and the units that the stack cannot deliver. -/
structure ExpRead where
  flight : Nat
  bad : List Nat
  deriving DecidableEq, Repr

/-- The end of a channel's rebuild (R386, R209): the channel of its stack, and the images and blocks whose master copies cannot be read. -/
structure Rebuilt where
  channel : BitVec 5
  unread : List (Nat × Nat)
  deriving DecidableEq, Repr

/-- The end of the load of a relief set (R397, R209): the milliseconds since the loss, and the images and blocks whose master copies cannot be
read. -/
structure ReliefEnd where
  ms : Nat
  unread : List (Nat × Nat)
  deriving DecidableEq, Repr

/-- The ordered comparisons of CMP (R102). -/
inductive Rel where
  | lt
  | le
  | eq
  | ge
  | gt
  deriving DecidableEq, Repr

/-- How SFN takes its argument (R106). -/
inductive SfnMode where
  | value
  | position (p : BitVec 40)
  deriving DecidableEq, Repr

/-- How an instruction starts its accumulators (R85). -/
inductive AccStart where
  | keep
  | zero
  | load (off : Nat)
  deriving DecidableEq, Repr

/-- A lane partial: a slot of a core and a lane (R122, R125). -/
structure PartRef where
  cluster : Cluster
  core : Fin 40
  slot : BitVec 8
  lane : Fin 32
  deriving DecidableEq, Repr

/-- A block-list entry (R157). -/
structure BlockEntry where
  tier : BitVec 2
  comp : Bool
  rel : Bool
  mcast : Bool
  last : Bool
  gated : Bool
  rsvd : Bool
  queue : Fin 4
  noToken : Bool
  len : Nat
  destOff : BitVec 16
  store : Store
  mset : BitVec 8
  addr : BitVec 64
  deriving DecidableEq, Repr

/-- How a fast-tier read ends (R169): clean; clean on the second read after a correctable error; corrected again; or an
uncorrectable error. -/
inductive FastResult where
  | clean
  | retriedClean
  | corrected
  | uncorrectable
  deriving DecidableEq, Repr

/-- Where an SXE write goes: where its entry says, or another cluster's store through the spine, in this yard or (outbound
activations) in another (R31, R165). -/
inductive SxeTarget where
  | entry
  | cluster (yard : Yard) (c : Cluster)
  deriving DecidableEq, Repr

/-- An NMA operation (R221-R224): the near stack, the stall and local layer, the slice of the stall's attended blocks on that
stack (first and count, in position order), the KV head (grouped-query), where the query rows and their row pairs lie, and
where the triples and the mass record go in core store. -/
structure NmaOp where
  core : CoreRef
  near : Fin 2
  stall : BitVec 16
  layer : BitVec 12
  kvHead : Nat
  first : Nat
  count : Nat
  query : Nat
  pairs : Nat
  triples : Nat
  mass : Nat
  at0 : When
  late : Bool
  deriving DecidableEq, Repr

/-- Where an FXE takes an entry from (R157, R197): a block list of the frame program, or entry `index` of its block list of a layer that the
microbatch's epoch number `which` has in the yard's block-list area. -/
inductive EntrySrc where
  | plan (entry : BlockEntry)
  | list (which layer index : Nat)
  deriving DecidableEq, Repr

/-- An entry that a core's FXE comes to issue (R40, R157). -/
structure FxeIssue where
  core : CoreRef
  at0 : When
  entry : EntrySrc
  deriving DecidableEq, Repr

/-! ### Host memory and packets (10) -/

/-- What a read of host memory gives (R278): the data, a failed translation, or a read past the region's end. -/
inductive HostRead (α : Type) where
  | ok (a : α)
  | xlat
  | past
  deriving DecidableEq, Repr

/-- A region parameter: a region handle and a byte offset (R285). -/
structure RegionRef where
  handle : Handle
  off : Nat
  deriving DecidableEq, Repr

/-- The fields every packet carries (R277), with the function and queue it is fetched from. `rsvd` says that a reserved bit
or byte of it is not zero (R10). -/
structure Pkt where
  fn : BitVec 8
  q : Fin 4
  tag : BitVec 16
  irq : Bool
  subject : Handle
  rsvd : Bool
  deriving DecidableEq, Repr

/-- A signature pair and the key it names (R15, R369). -/
structure Sig where
  keyId : Digest
  ecdsa : List Byte
  hss : List Byte
  deriving DecidableEq, Repr

/-! ### Plans and graphs, as Leaskow compiles them (02, 05, 06, 08, 09, 14, 15) -/

/-- A present bucket (R43), its KV limits per near stack and in the shed (R220), its backward tokens (0: not a tuning
bucket, R423) and its limit of distinct adapters (R416). -/
structure Bucket where
  index : Nat
  t : Nat
  p : Nat
  s : Nat
  c : Nat
  pn : Nat
  ps : Nat
  bt : Nat
  d : Nat
  deriving DecidableEq, Repr

/-- An attention layer's KV descriptor (R213) with its model layer and yard. -/
structure KvDesc where
  layer : Nat
  yard : Yard
  kind : Nat
  format : Nat
  widthA : Nat
  widthB : Nat
  heads : Nat
  blockBytes : Nat
  scaleOff : Nat
  tau : Word
  deriving DecidableEq, Repr

/-- A mixture-of-experts layer's router descriptor (R252). -/
structure Router where
  layer : Nat
  yard : Yard
  nexp : Nat
  k : Nat
  sigmoid : Bool
  norm : Bool
  rsvd : Bool
  nslot : Nat
  slotCores : Nat
  rowFmt : Nat
  tps : Nat
  tableClu : Nat
  wideOn : Bool
  partner : Yard
  cold : BitVec 256
  wide : BitVec 256
  deriving DecidableEq, Repr

/-- An adapter path's descriptor (R415) with the yard that holds its layer. -/
structure AdapterPath where
  layer : Nat
  yard : Yard
  matrix : Nat
  kind : Nat
  m : Nat
  n : Nat
  alpha : Word
  deriving DecidableEq, Repr

/-- A user micro-program's descriptor (R115). -/
structure MicroProg where
  slot : Nat
  consts : List Word
  steps : List Word
  deriving DecidableEq, Repr

/-- Where a plan puts a block position (R196, R268, R269): a stack 0-15 or, for a cold block, a shed port, and whether the block
is expanded at load. -/
structure BlockPlace where
  stack : Nat
  shed : Bool
  expand : Bool
  deriving DecidableEq, Repr

/-- What an entry of a scale-table set serves (R133, R135, R216): a KV channel or an output channel; the integer format of its
outputs and of its weights, none where they are floats; the near stack that holds it; and the layer and the cluster of its table segment (R134). -/
structure EntryKind where
  stack : Nat
  layer : Nat
  cluster : Cluster
  kv : Bool
  out : Option Fmt
  weight : Option Fmt
  deriving DecidableEq, Repr

/-- An entry of a block-list template (R197, R261): the yard, the layer and the issuing cluster whose list it stands in, or the expert whose
list it is, the block of the image that it fetches, and the entry with its ADDR still to be relocated. -/
structure ListItem where
  yard : Yard
  layer : Nat
  cluster : Cluster
  expert : Option Nat
  block : Nat
  entry : BlockEntry
  deriving DecidableEq, Repr

/-- An image a plan names (R194): its manifest digest, its placement (R198), the place of each block, its footprint in 2 MiB units
on each of the 16 stacks and in each stack's region for a partner yard's experts (R268), what each entry of its scale-table set must suit
(R135), and its block-list template (R197). -/
structure PlanImage where
  digest : Digest
  atLoad : Bool
  blocks : List BlockPlace
  units : List Nat
  wideUnits : List Nat
  entries : List EntryKind
  lists : List ListItem
  deriving DecidableEq, Repr

/-- An entry of a plan's block lists, with its issuer (R158). -/
structure PlanEntry where
  yard : Yard
  cluster : Cluster
  sxe : Bool
  entry : BlockEntry
  deriving DecidableEq, Repr

/-- A cluster's store area (R148): kind 0 weight ring, 1 inbound, 2 outbound, 3 work; `carried` marks a part of the work area whose
contents the yard's map changes carry over (R380). -/
structure PlanArea where
  yard : Yard
  cluster : Cluster
  kind : Fin 4
  base : Nat
  size : Nat
  carried : Bool
  deriving DecidableEq, Repr

/-- The consumers that a hardware queue can be bound to (R161). -/
inductive Consumer where
  | mxeA
  | mxeB
  | vxe
  deriving DecidableEq, Repr

/-- A queue of every core of a cluster in the plan's segment header: the consumer it is bound to and its depth (R161). -/
structure PlanQueue where
  yard : Yard
  cluster : Cluster
  queue : Fin 4
  consumer : Consumer
  depth : Nat
  deriving DecidableEq, Repr

/-- A multicast set (R164). -/
structure MulticastSet where
  yard : Yard
  index : BitVec 8
  clusters : List Cluster
  cores : BitVec 40
  deriving DecidableEq, Repr

/-- A use of SFN in a plan (R104, R107). -/
structure SfnUse where
  slot : Nat
  format : Nat
  scale : Byte
  deriving DecidableEq, Repr

/-- A use of CVT into an integer format (R489). -/
structure CvtUse where
  format : Nat
  scale : Word
  zero : Int
  deriving DecidableEq, Repr

/-- A plan. Its byte format is Leaskow's and not part of the spec: a command carries what it holds beside `body`, the bytes that are signed
(R369). The instructions of its frame programs arrive
as commands of their own; `nmaLayers` names the layers whose frame programs run NMA operations (R213). -/
structure Plan where
  name : BitVec 128
  ident : Word
  body : List Byte
  sig : Sig
  length : Nat
  tickUnits : Nat
  contract : Nat
  layers : List (List Nat)
  buckets : List Bucket
  reliefBuckets : List (List Bucket)
  reliefOn : Bool
  images : List PlanImage
  weightBase : List Nat
  weightUnits : List Nat
  wideBase : List Nat
  wideRegion : List Nat
  listBase : List Nat
  listBytes : List Nat
  poolBase : List Nat
  poolUnits : List Nat
  reliefUnits : List Nat
  kvBase : List Nat
  kvSlots : List Nat
  reliefBase : List Nat
  reliefKvBase : List Nat
  reliefKvSlots : List Nat
  reserve : List Nat
  kvDescs : List KvDesc
  nmaLayers : List (Yard × Nat)
  routers : List Router
  paths : List AdapterPath
  micro : List MicroProg
  table : List Byte
  entries : List PlanEntry
  areas : List PlanArea
  queues : List PlanQueue
  msets : List MulticastSet
  formats : List Nat
  sfnUses : List SfnUse
  cvts : List CvtUse
  epsilons : List Word
  chunk : Nat
  tuneChunk : Nat
  tuneRegion : List Nat
  hkBlocks : Nat
  laneA : Nat
  laneW : Nat
  laneBase : List Nat
  laneBytes : Nat
  deriving DecidableEq, Repr

/-- A stored graph version (R296): the plan it was compiled for, the image names it uses, the tokens, positions and count of
stalls of one item, whether it is the export graph (R433), and the bytes that are signed (R369). -/
structure GraphBody where
  plan : BitVec 128
  images : List (BitVec 128)
  tokens : Nat
  positions : Nat
  exports : Bool
  body : List Byte
  sig : Sig
  deriving DecidableEq, Repr

/-- A graph patch (R296): what it replaces of the version it is made from; what it does not name stays. `body` holds the signed bytes of the
version that it makes (R369). -/
structure GraphPatch where
  plan : Option (BitVec 128)
  images : Option (List (BitVec 128))
  tokens : Option Nat
  positions : Option Nat
  exports : Option Bool
  body : List Byte
  sig : Sig
  deriving DecidableEq, Repr

/-- What phases 5 and 6 of IMAGE_INSTALL read from host memory (R178). -/
structure InstallData where
  records : HostRead (List Byte)
  scales : HostRead (List Byte)
  deriving DecidableEq, Repr

/-- An entry of TUNE_STEP's example region (R421): TOKEN, FLAGS and whether its reserved bytes are zero. -/
structure Example where
  token : Word
  flags : Byte
  clean : Bool
  deriving DecidableEq, Repr

/-- A fault that a self-test finds, and the tick in which it does (R412). -/
structure TestFault where
  yard : Byte
  place : Byte
  unit : BitVec 16
  cause : Byte
  tick : Nat
  deriving DecidableEq, Repr

/-! ### Ticks, meters and faults -/

/-- One sample of the module meter: the voltage and current codes (R334). -/
structure MeterSample where
  volt : BitVec 24
  amp : BitVec 24
  deriving DecidableEq, Repr

/-- How far a job that the device runs in time has come (R298): its function, its handle, the new PROGRESS, and whether its
work is at an end. -/
structure JobStep where
  fn : BitVec 8
  job : Handle
  progress : Nat
  ended : Bool
  deriving DecidableEq, Repr

/-- The scores that yard 7 samples from, for one stall: FP32 logits in token order (R290). -/
structure Logits where
  stall : Nat
  values : List Word
  deriving DecidableEq, Repr

/-- A part of an interval that lies in one rail telemetry window of a yard (R336): the microseconds of it, and the power of the window in mW; none
for a window that is still open. -/
structure RailPart where
  us : Nat
  power : Option Nat
  deriving DecidableEq, Repr

/-- What the outside gives at a bell or a hub timer period: the meter samples of the interval, each yard's rail telemetry windows in order
(R336), the average power over 1,000 ms in mW (R475), each yard's activity and lowest slack (YRD_MONITOR), and the progress
of the jobs that run in time. -/
structure Interval where
  samples : List MeterSample
  rails : List (List RailPart)
  pavg : Nat
  monitors : List (BitVec 8 × BitVec 16)
  jobs : List JobStep
  deriving DecidableEq, Repr

/-- What the outside gives at a bell: the ACLK cycle at which it rings, counted from the last bell; the grade-change gap in
ACLK; the yard that reported done last; the cycle at which the stall list became ready; the logits of yard 7. -/
structure BellIn where
  cycle : Nat
  gap : Nat
  lastYard : Yard
  listAt : Nat
  doneAt : Nat
  logits : List Logits
  meter : Interval
  deriving DecidableEq, Repr

/-- What the outside gives at a cut-off: the HEAD of an output ring that the front end reads (session handle by function, R288). -/
structure HeadRead where
  fn : BitVec 8
  session : Handle
  head : Nat
  deriving DecidableEq, Repr

/-- A cluster's done report (R42, R96, R137, R163, R206, R339): besides what the engines hold, the issue
slots used and offered, the waits, the corrected store errors, flit replays and late transfers of the tick. -/
structure DoneIn where
  yard : Yard
  cluster : Cluster
  cycle : Nat
  mxeUsed : Nat
  mxeOffered : Nat
  waitFetch : Nat
  waitMem : Nat
  sramCe : Nat
  replays : Nat
  portLate : Nat
  deriving DecidableEq, Repr

/-- A place in the core store of a core of the yard. -/
structure CorePlace where
  core : CoreRef
  off : Nat
  deriving DecidableEq, Repr

/-- What the scores of some attended blocks are formed from (R227): the mass record of the piece that holds them with their block indices in
slice order, the piece's triples, and the final triples, one per head of the width named, all in one core's store. -/
structure ScorePiece where
  core : CoreRef
  blocks : List Nat
  mass : Nat
  triples : Nat
  final : Nat
  heads : Nat
  width : Nat
  deriving DecidableEq, Repr

/-- What a yard's clusters hold for a stall when the scatter step runs (R216, R227): for one model layer where the codes of each new position
stand, what the scores are formed from, and for a long-lane visit the runs that the record it leaves is made of, behind its header (R250). -/
structure KvWrite where
  stall : Nat
  layer : Nat
  codes : List CorePlace
  scores : List ScorePiece
  lane : List (CorePlace × Nat)
  deriving DecidableEq, Repr

/-- One temperature sensor: its 1 ms average and its present sample, in °C. -/
structure Temp where
  avg : Nat
  now : Nat
  deriving DecidableEq, Repr

/-- Every sensor at a sample (R486). -/
structure Temps where
  die : List Temp
  stackA : List Temp
  stackB : List Temp
  hub : Temp
  inlet : Temp
  outlet : Temp
  deriving DecidableEq, Repr

/-- Causes of a latched trip (R476; TRIP codes 1-4). -/
inductive TripCause where
  | overPower
  | overCurrent
  | underVoltage
  | overVoltage
  deriving DecidableEq, Repr

/-- Which copy of a KV block (YRD_KV_ADDR.COPY). -/
inductive KvCopy where
  | fast
  | shadow
  | mirror
  deriving DecidableEq, Repr

/-- What an install, load or sealing step is told by the hardware that runs it: a weight restoration's master copy. -/
inductive MasterRead where
  | ok
  | unreadable
  deriving DecidableEq, Repr

/-- Why a cluster has a hard fault (R378). -/
inductive FaultCause where
  | sram (core : Fin 40) (off : Nat) (cstore : Bool)
  | checker
  | monitor
  | selftest
  deriving DecidableEq, Repr

/-- Why a yard is lost (R392). -/
inductive YardCause where
  | temperature
  | management
  | other
  deriving DecidableEq, Repr

/-- Why a DRAM row is repaired (R384) and whether its bank has a spare row left. -/
structure RowFault where
  yard : Yard
  near : Fin 2
  channel : BitVec 5
  row : Nat
  spare : Bool
  deriving DecidableEq, Repr

/-- The expander that a CXL port enumerates (R154, R402): width and rate in order, serial number, capacity in bytes. -/
structure CxlFound where
  present : Bool
  good : Bool
  serial : BitVec 64
  bytes : Nat
  deriving DecidableEq, Repr

/-- What training finds at a start (R401, R402, R484): the expander on each port, the sub-links in service and restored per
yard, whether each yard's base dies report their stack numbers, the lanes repaired and active state per site module, and the wear of
the coffer. -/
structure StartIn where
  cxl : List CxlFound
  links : List (BitVec 8 × BitVec 8)
  stacksOk : List Bool
  repaired : List (BitVec 4)
  linkUp : List Bool
  wear : BitVec 16 × BitVec 16
  deriving DecidableEq, Repr

/-- A firmware image as the boot ROM or the mailbox reads it (R358): the 4,096 header bytes and the body; `none` where it cannot be read. -/
structure FwImage where
  header : List Byte
  body : List Byte
  deriving DecidableEq, Repr

/-- A register access (R11): the function of a host site that makes it, by number, the offset, the width in bytes, and for a write the value, of
which a 32-bit access carries the low half. -/
structure RegAccess where
  fn : BitVec 8
  off : Nat
  width : Nat
  value : BitVec 64
  deriving DecidableEq, Repr

/-- The commands: one constructor per row of spec/opcode_table.json, in its order. -/
inductive Instr where
  -- Ndefoli packets (R285)
  | sessionOpen (p : Pkt) (name : BitVec 128) (adapter : Handle) (ring : RegionRef) (entries budget : Nat) (width : Byte)
  | sessionAppend (p : Pkt) (tokens : RegionRef) (count : Nat) (noPrefix : Bool) (data : HostRead (List Word))
  | sessionGenerate (p : Pkt) (maxTokens : Nat) (temperature topP : Word) (topK nstop : Nat) (stops : List Word) (seed : Word)
  | sessionFork (p : Pkt) (ring : RegionRef) (entries : Nat)
  | sessionClose (p : Pkt)
  | prefixPin (p : Pkt) (tokens : RegionRef) (count : Nat) (data : HostRead (List Word))
  | prefixUnpin (p : Pkt) (tokens : RegionRef) (count : Nat) (data : HostRead (List Word))
  | graphStore (p : Pkt) (region : RegionRef) (length : Nat) (data : HostRead (Option GraphBody))
  | graphPatch (p : Pkt) (region : RegionRef) (length : Nat) (data : HostRead (Option GraphPatch))
  | graphLaunch (p : Pkt) (input output : RegionRef) (adapter : Handle) (items : Nat)
  | graphDrop (p : Pkt)
  | jobSuspend (p : Pkt)
  | jobResume (p : Pkt)
  | jobCancel (p : Pkt)
  | jobQuery (p : Pkt) (result : RegionRef) (write : HostRead Unit)
  | imageInstall (p : Pkt) (manifest records scales : RegionRef) (scaleLen : Nat)
      (data : HostRead (List Byte))
  | imageActivate (p : Pkt) (cutover tablesOnly : Bool) (scales : RegionRef) (scaleLen : Nat) (data : HostRead (List Byte))
  | imageRetire (p : Pkt)
  | tuneOpen (p : Pkt) (name : BitVec 128) (adapter : Handle) (source : RegionRef) (rank : Nat) (b2 e1 e2 d : Word)
      (data : HostRead (List Byte))
  | tuneStep (p : Pkt) (region : RegionRef) (count : Nat) (rho : Word) (data : HostRead (List Example))
  | tuneSave (p : Pkt) (name : BitVec 128)
  | tuneClose (p : Pkt)
  | selftest (p : Pkt) (mask : Byte) (kind : Nat) (report : RegionRef) (found : List TestFault)
  | marginReplan (p : Pkt) (mask : Byte)
  | markBegin (p : Pkt) (ident : Word)
  | markEnd (p : Pkt) (ident : Word)
  | counterSnapshot (p : Pkt)
  | fence (p : Pkt) (mask : BitVec 4) (jobs : Bool)
  | fnCreate (p : Pkt) (site : Nat) (health : Bool) (quota : Nat)
  | fnDestroy (p : Pkt) (number : Nat) (result : RegionRef)
  | fnSetShare (p : Pkt) (number share tokenCap energyCap : Nat)
  | planLoad (p : Pkt) (region : RegionRef) (length : Nat) (name : HostRead (Option (BitVec 128)))
  | planSelect (p : Pkt)
  | folioGet (p : Pkt) (folio : Nat) (result : RegionRef) (length : Nat) (write : HostRead Unit)
  | ledgerConfig (p : Pkt) (period : Nat)
  -- security mailbox (R375)
  | fwSupply (image : HostRead (Option FwImage))
  | fwStage (image : HostRead (Option FwImage)) (programmed : Bool)
  | keyRegister (keys : HostRead (List Byte))
  | keyRevoke
  | keyRead (write : HostRead Unit)
  | chainRead (write : HostRead Unit)
  -- SPDM over DOE (R333, R372)
  | doeDiscovery (fn : BitVec 8) (index : Byte)
  | getVersion (fn : BitVec 8)
  | getCapabilities (fn : BitVec 8) (body : List Byte)
  | negotiateAlgorithms (fn : BitVec 8) (ecdsaP384 sha384 : Bool) (body : List Byte)
  | getDigests (fn : BitVec 8)
  | getCertificate (fn : BitVec 8) (slot : Nat) (off length : Nat)
  | challenge (fn : BitVec 8) (slot : Nat) (nonce : List Byte)
  | getMeasurements (fn : BitVec 8) (index : Byte) (signed : Bool) (nonce : List Byte)
  -- I3C and PMBus (R480, R481)
  | i3cPrivateWrite (address : BitVec 7) (off : Word) (value : Option Word)
  | i3cPrivateRead (address : BitVec 7)
  | setdasa (static dynamic : BitVec 7)
  | entdaa (dynamic : BitVec 7)
  | clearFaults
  | statusWord
  | statusInput
  | statusTemperature
  | readVin
  | readIin
  | readTemperature1
  | readTemperature2
  | readPin
  | pmbusRevision
  | mfrId
  -- host register actions
  | qDoorbell (fn : BitVec 8) (q : Fin 4) (tail : BitVec 16) (fetched : List (List Byte))
  | queueEnable (fn : BitVec 8) (q : Fin 4)
  | queueDisable (fn : BitVec 8) (q : Fin 4)
  | queueReset (fn : BitVec 8) (q : Fin 4)
  | qCqHead (fn : BitVec 8) (q : Fin 4) (head : BitVec 16)
  | qResume (fn : BitVec 8) (q : Fin 4)
  | regionCreate (fn : BitVec 8) (writable pasidEn : Bool) (pasid : BitVec 20)
  | regionDestroy (fn : BitVec 8)
  | eventWriteBack (fn : BitVec 8) (off : Nat) (value : Word)
  | deviceWarmReset (fn : BitVec 8) (value : Word) (meter : Interval)
  | siteReset (site : Fin 2) (fn : Option (BitVec 8))
  | cfgCommit (fn : BitVec 8) (value : Word)
  | dbgSnapGo (fn : BitVec 8) (value : Word)
  | journalArm (fn : BitVec 8) (value : Word)
  | streamEnable (fn : BitVec 8) (value : Word)
  | trig (fn : BitVec 8) (value : Word)
  | dumpFetch (fn : BitVec 8) (value : Word)
  | seqProbe (fn : BitVec 8) (yard : Yard) (value : Word)
  | persistentWrite (fn : BitVec 8) (off : Nat) (value : Word)
  | registerWrite (a : RegAccess)
  | functionLevelReset (fn : BitVec 8)
  | vfEnableClear (fn : BitVec 8)
  | atsInvalidation (fn : BitVec 8) (pasid : Option (BitVec 20)) (addr pages : Nat)
  -- power, clocks and start-up (18, 13)
  | modEnHigh
  | modEnLow
  | modRstNLow
  | modRstNRelease (meter : Interval)
  | firmwareCheck (image : Option FwImage) (start : StartIn)
  | inputTrip (cause : TripCause)
  | refclkLost
  | leak
  | leakOffExpiry
  | thermalSample (t : Temps)
  | thermalStepDown
  | thermalStepUp
  | criticalHalving
  | powerCapStepDown
  | powerCapStepUp
  -- the tick (02)
  | bell (b : BellIn)
  | admissionCutoff (heads : List HeadRead)
  | doneReport (d : DoneIn)
  | weightRestore (yard : Yard) (u : UnitAt) (image : Nat) (read : MasterRead)
  | kvRestore (yard : Yard) (copy : KvCopy) (addr : Nat)
  | storageRelease
  | hubTimerPeriod (m : Interval)
  | folioSealed (folio : Nat)
  | qntWindowClose (slot : Fin 64)
  | cfgCrcCheck
  | pcSample (yard : Yard) (cluster : Cluster) (cycle : Nat) (queued : Nat)
  | streamRecordCopy (ok : Bool)
  | hangLimitExpiry (elapsed : Nat) (us : Nat) (m : Interval)
  | progressStandstill (yard : Yard) (cluster : Cluster) (p : Standstill) (us : Nat) (m : Interval)
  | dumpDone (hostCopied : Bool)
  -- host-side faults and links (10, 11)
  | cqWriteFault (fn : BitVec 8) (q : Fin 4) (failed : Nat)
  | sqFetchFault (fn : BitVec 8) (q : Fin 4)
  | outputWriteFault (fn : BitVec 8) (session : Handle) (failed : Nat)
  | flrTimeout (fn : BitVec 8)
  | siteLinkDown (site : Fin 2)
  | siteLinkUp (site : Fin 2)
  | linkHoldExpiry (site : Fin 2)
  | siteDegraded
  | awaitSpaceResume (fn : BitVec 8) (job : Handle)
  | epochLoaded (fn : BitVec 8) (l : LoadEnd)
  -- streams (06, 08)
  | fxeEntryIssue (i : FxeIssue)
  | fxeBlockArrival (yard : Yard) (flight : Nat)
  | fastRead (yard : Yard) (flight part : Nat) (result : FastResult) (late : Bool)
  | shedRead (yard : Yard) (flight part : Nat) (poisoned late : Bool)
  | sxeWrite (o : EngOp) (entry : BlockEntry) (conv : Option Fmt) (target : SxeTarget) (replayed late : Bool)
  | appendScatterStep (yard : Yard) (writes : List KvWrite)
  | refresh (yard : Yard) (channel : Fin 64) (cycle : Nat)
  | idleRefresh (yard : Yard) (channel : Fin 64) (cycle : Nat)
  | forcedRefresh (yard : Yard) (channel : Fin 64) (cycle : Nat)
  | expanderBlock (yard : Yard) (x : ExpRead) (late : Bool)
  | nmaLatent (o : NmaOp)
  | nmaGqa (o : NmaOp)
  -- matrix engine (03)
  | mxeDotProduct (o : EngOp) (acc : BitVec 9) (pair : Bool) (start : AccStart) (a b : Src) (n : Nat)
  | pairMerge (o : EngOp) (acc : BitVec 9) (second : Nat)
  | accReadout (o : EngOp) (acc : BitVec 9) (count : Nat) (pair hiOnly : Bool) (dest : Nat)
  -- vector engine (04, 05)
  | add (o : EngOp) (a b : Src) (d : Dst)
  | sub (o : EngOp) (a b : Src) (d : Dst)
  | mul (o : EngOp) (a b : Src) (d : Dst)
  | fma (o : EngOp) (a b c : Src) (d : Dst)
  | abs (o : EngOp) (a : Src) (d : Dst)
  | neg (o : EngOp) (a : Src) (d : Dst)
  | min (o : EngOp) (a b : Src) (d : Dst)
  | max (o : EngOp) (a b : Src) (d : Dst)
  | cmp (o : EngOp) (r : Rel) (a b : Src) (dest : Nat)
  | sel (o : EngOp) (c a b : Src) (dest : Nat)
  | cvt (o : EngOp) (a : Src) (d : Dst)
  | rsum (o : EngOp) (a : Src) (d : Dst)
  | rmax (o : EngOp) (a : Src) (d : Dst)
  | rmin (o : EngOp) (a : Src) (d : Dst)
  | sfn (o : EngOp) (slot : Fin 64) (out : SfnOut) (mode : SfnMode) (a : Src) (dest : Nat) (at1 : BlockAt)
      (tableError : Option (Fin 128))
  | welfordAcc (o : EngOp) (slot : Byte) (a : Src)
  | welfordMerge (o : EngOp) (a b dest : PartRef)
  | varFinish (o : EngOp) (a : PartRef) (d : Dst)
  | ssqAcc (o : EngOp) (slot : Byte) (a : Src)
  | ssqMerge (o : EngOp) (a b dest : PartRef)
  | rmsFinish (o : EngOp) (a : PartRef) (epsilon : Word) (d : Dst)
  | smxTile (o : EngOp) (scores values : Src) (n d : Nat) (operand : Fmt) (triple : Nat) (fresh : Bool)
  | smxMerge (o : EngOp) (a b : Place) (d : TripleAt)
  | smxFinish (o : EngOp) (a : TripleAt) (d : Dst)
  | rescale (o : EngOp) (acc : BitVec 9) (count : Nat) (pair : Bool) (table : Place) (rowPair : Option Nat) (d : Dst)
  | rowq (o : EngOp) (row : List (Place × Nat)) (fmt : Fmt) (store : Store) (codes pair : Nat)
  | kvConversion (o : EngOp) (src n : Nat) (fmt : Fmt) (table : Place) (dest : Nat)
  -- expert routing (09)
  | routeTopk (o : EngOp) (token : BitVec 16) (r : RouteRow)
  | countReduce (y : YardAt) (layer : BitVec 12)
  | slotBuild (y : YardAt) (layer : BitVec 12)
  | slotTableMulticast (y : YardAt) (layer : BitVec 12)
  | baseOffsetReturn (y : YardAt) (layer : BitVec 12)
  | sendRecord (o : EngOp) (token : BitVec 16) (kr : Fin 2) (row : Nat) (len : RowLen) (area : Nat)
  | returnRecord (yard : Yard) (cluster : Cluster) (core : Fin 40) (layer : BitVec 12) (chan : Nat) (at0 : When) (area pos row width : Nat)
      (homeCore : Fin 40) (dest : Nat)
  | expertStream (yard : Yard) (layer : BitVec 12) (lead : Nat) (which : Nat) (at0 : When)
  -- sequencers and adapter tuning (06, 15, 16)
  | wfence (y : YardAt) (cluster : Cluster)
  | mark (yard : Yard) (cluster : Cluster) (ident : Word) (at0 : When)
  | clusterBarrier (y : YardAt)
  | gradientPartial (yard : Yard) (fn : BitVec 8) (run : Handle) (tensor : Nat) (stall : BitVec 16) (partials : List Word)
  | tuneUpdate (fn : BitVec 8) (run : Handle)
  -- faults and ageing (14)
  | clusterHardFault (yard : Yard) (cluster : Cluster) (cause : FaultCause)
  | sublinkLost (yard : Yard) (link : Fin 8)
  | rowRepair (r : RowFault)
  | channelLost (yard : Yard) (near : Fin 2) (channel : BitVec 5)
  | channelRebuilt (yard : Yard) (near : Fin 2) (x : Rebuilt)
  | phaseLost (yard : Option Yard)
  | cofferChannelLost (channel : BitVec 5)
  | cxlPortLost (port : Fin 4)
  | shadowRehomed (port : Fin 4)
  | yardLost (yard : Yard) (cause : YardCause)
  | reliefReady (x : ReliefEnd)
  | cpmRaise (yard : Yard) (cluster : Cluster) (code : BitVec 16) (us : Nat)
  | cpmCritical (yard : Yard) (cluster : Cluster) (code : BitVec 16)
  | marginChanged (yard : Yard) (grade : Fin 3) (proofs : List (List (BitVec 16)))
  -- completions of device work
  | imageReady (fn : BitVec 8) (job : Handle) (data : InstallData)
  | planLoadComplete (fn : BitVec 8) (job : Handle) (data : HostRead (Option Plan))
  | siteLinkTrained (site : Fin 2) (repaired : BitVec 4) (up : Bool)
  | refclkReturn
  | vinRange (centivolts : Nat)
  | meterFault (now : Bool)
  | leakNHigh
  deriving DecidableEq, Repr

end Sys2Proof
end

