-- ==== Sys2Proof/Machine/Sparse.lean ====
section
/-! DEFINITION. Sparse tables: lists of (key, value) pairs in one canonical form, keys strictly rising and no value equal to
what an unlisted key reads as. Memory is the one over bytes. -/

namespace Sys2Proof.Machine

namespace Sparse

variable {α : Type}

/-- The value at a key, `d` where the key is not listed. -/
def get (d : α) (l : List (Nat × α)) (k : Nat) : α :=
  match l with
  | [] => d
  | (j, v) :: t => if j < k then get d t k else if j = k then v else d

/-- The table with the value at a key replaced; writing `d` removes the entry. -/
def set [DecidableEq α] (d : α) (l : List (Nat × α)) (k : Nat) (v : α) : List (Nat × α) :=
  match l with
  | [] => if v = d then [] else [(k, v)]
  | (j, w) :: t =>
    if j < k then (j, w) :: set d t k v
    else if j = k then (if v = d then t else (k, v) :: t)
    else if v = d then (j, w) :: t else (k, v) :: (j, w) :: t

/-- Keys strictly rise, the first above `lo` (if given), and no value is the default. -/
def wfFrom [DecidableEq α] (d : α) (lo : Option Nat) (l : List (Nat × α)) : Bool :=
  match l with
  | [] => true
  | (j, v) :: t => (match lo with | none => true | some b => decide (b < j)) && decide (v ≠ d) && wfFrom d (some j) t

/-- The canonical form. -/
def wf [DecidableEq α] (d : α) (l : List (Nat × α)) : Bool := wfFrom d none l

/-- Changes the value at a key by a function. -/
def upd [DecidableEq α] (d : α) (l : List (Nat × α)) (k : Nat) (f : α → α) : List (Nat × α) :=
  set d l k (f (get d l k))

end Sparse

/-- A set of natural numbers as a strictly rising list. -/
abbrev NatSet := List Nat

namespace NatSet

/-- Membership. -/
def has (l : NatSet) (k : Nat) : Bool := l.contains k

/-- Adds a member, keeping the order. -/
def add (l : NatSet) (k : Nat) : NatSet :=
  match l with
  | [] => [k]
  | j :: t => if j < k then j :: add t k else if j = k then j :: t else k :: j :: t

/-- Removes a member. -/
def del (l : NatSet) (k : Nat) : NatSet := l.filter (· != k)

end NatSet

/-- The addressed RAM of the device: (key, byte) pairs in canonical form; a byte nothing has written reads as 0
(DESIGN CHOICE: the spec gives RAM no contents at power-on). -/
abbrev Mem := List Host.Cell

/-- What an unlisted byte reads as. -/
def Mem.blank : Byte := 0#8

/-- One byte. -/
def Mem.read (m : Mem) (k : Nat) : Byte := Sparse.get Mem.blank m k

/-- Writes one byte. -/
def Mem.write (m : Mem) (k : Nat) (b : Byte) : Mem := Sparse.set Mem.blank m k b

/-- `n` bytes from key `k` up. -/
def Mem.readN (m : Mem) (k : Nat) : Nat → List Byte
  | 0 => []
  | n + 1 => m.read k :: readN m (k + 1) n

/-- Writes bytes from key `k` up. -/
def Mem.writeN (m : Mem) (k : Nat) (bs : List Byte) : Mem :=
  match bs with
  | [] => m
  | b :: t => writeN (m.write k b) (k + 1) t

/-- The canonical form of memory. -/
def Mem.wf (m : Mem) : Bool := Sparse.wf Mem.blank m

end Sys2Proof.Machine
end

