-- ==== Sys2Proof/Machine/State.lean ====
section
/-! DEFINITION. The state of the block: every register, store, queue, table and mode the spec gives it, as plain data, the
reasons a command can stop, and the state after reset. -/

namespace Sys2Proof.Machine

/-! ### Registers of events -/

/-- An event register (R454, R455): its sequence number and its event bits. -/
structure EventReg where
  seq : BitVec 16 := 0#16
  bits : BitVec 16 := 0#16
  deriving DecidableEq, Repr

/-! ### Engines, stores and streams (03-09) -/

/-- A token of a core's hardware queue (R161): the flight that delivers it, its destination area, whether its data have
arrived, and its poison summary. -/
structure Token where
  flight : Nat
  store : Store
  off : Nat
  units : Nat
  arrived : Bool
  poison : Bool
  deriving DecidableEq, Repr

/-- Where one part of a block is read from (R159, R160). -/
inductive Tier where
  | fast
  | shed
  | void
  deriving DecidableEq, Repr

/-- One part of a block in flight: its tier and address, its length in bytes, and its data once read, with the poison mark of
each 64-byte unit (R170). -/
structure Part where
  tier : Tier
  addr : Nat
  bytes : Nat
  done : Bool
  data : List Byte
  poison : List Bool
  deriving DecidableEq, Repr

/-- A block in flight from a tier to stores: its issuer (a physical core index), the physical clusters it lands in with the
cores that get a token, its entry, its parts, and the stall whose object it reads. -/
structure Flight where
  id : Nat
  yard : Yard
  issuer : Nat
  entry : BlockEntry
  clusters : List Nat
  cores : List Nat
  parts : List Part
  stall : Option Nat
  expanded : Option (List Byte × Bool)
  deriving DecidableEq, Repr

/-- An SXE write that its cluster's fence has not yet covered (R167): the 64-byte unit and what stood there before it landed. The writes of a
unit stand newest first. -/
structure Unfenced where
  cluster : Nat
  unit : Nat
  old : List Byte
  oldPoison : Bool
  deriving DecidableEq, Repr

/-- A mean-variance partial (R122); `whole` says that every element so far is finite (R124). -/
structure WPart where
  n : Nat := 0
  mu : Word := 0#32
  m2 : Word := 0#32
  whole : Bool := true
  poison : Bool := false
  deriving DecidableEq, Repr

/-- A scaled sum-of-squares partial (R125): e = none stands for −∞; the marks of non-finite elements (R126). -/
structure SPart where
  n : Nat := 0
  e : Option Int := none
  q : Word := 0#32
  inf : Bool := false
  nan : Bool := false
  poison : Bool := false
  deriving DecidableEq, Repr

/-- One assignment of a token to an expert (R255): its stall, k-rank 0 or 1, the gate, the generation of the stall. -/
structure Assign where
  home : Cluster
  stall : Nat
  token : Nat
  kr : Nat
  expert : Nat
  gate : Word
  gen : Nat
  poison : Bool
  deriving DecidableEq, Repr

/-- A slot table (R260): slots per expert, first slot per expert, expert of each slot (none: idle). -/
structure SlotTable where
  n : List Nat
  first : List Nat
  expertOf : List (Option Nat)
  deriving DecidableEq, Repr

/-- The routing of one layer of one yard in a tick (R257-R266): assignments, the counts that COUNT_REDUCE carried, the slot
table, whether it was multicast, base offsets per cluster and expert, sends made, expert streams with the entries of each that have issued, results
kept. -/
structure RouteLayer where
  yard : Yard
  layer : Nat
  assigns : List Assign
  counts : List (Cluster × List Nat)
  table : Option SlotTable
  shared : Bool
  bases : List (Cluster × List Nat)
  sends : List (Nat × Nat × Nat)
  streams : List (Nat × Nat)
  kept : List (Nat × Nat × List Word × Word × Bool)
  deriving DecidableEq, Repr

/-- A stall's generation as the clusters of a yard hold it (R256). -/
structure GenEntry where
  yard : Yard
  stall : Nat
  gen : Nat
  deriving DecidableEq, Repr

/-- What a consumer waits for (R163). -/
inductive Wait where
  | none
  | fetch
  | mem
  deriving DecidableEq, Repr

/-- What a cluster has converted in this tick for one stall (R137, R138): clipped and converted elements of activation
traffic. -/
structure Converted where
  yard : Yard
  cluster : Nat
  stall : Nat
  clipped : Nat
  elements : Nat
  deriving DecidableEq, Repr

/-- Squared errors of KV conversions of one stall and layer in this tick: an FP32 pair and an element count (R138). -/
structure KvErr where
  yard : Yard
  stall : Nat
  layer : Nat
  hi : Word
  lo : Word
  count : Nat
  deriving DecidableEq, Repr

/-- The engines, stores and streams. `mem` holds core stores, cluster stores, accumulators, the fast tier and the shed, in
one key space (Machine/Ops.lean lays it out). `shedKeys` holds, by shed unit, one more than the number of the key it was written under (R172).
`inbound` and `inboundNext` hold the stalls, by yard, whose inbound activations of this tick and of the next carried poison (R166). `badBlocks` holds, by physical cluster, the tier addresses of weight
blocks that reached it as poison and that its done report will name (R206, R267). `units` holds, by yard, logical cluster, stall and class, the units of
work that no done report has named yet (R339). `progress` holds, by 250 × yard + logical cluster, the instructions that each local
sequencer has completed since the bell (R440). `drawn` is the model's own: a counter that a step which needs a free value reads
and advances. -/
structure Dp where
  mem : Mem
  poison : NatSet
  shedKeys : List (Nat × Nat)
  flags : List (Nat × BitVec 8)
  clips : List (Nat × Nat)
  converted : List Converted
  kvErrs : List KvErr
  rowPoison : NatSet
  queues : List (Nat × List Token)
  waits : List (Nat × Wait)
  waited : NatSet
  flights : List Flight
  nextFlight : Nat
  unfenced : List Unfenced
  inbound : NatSet
  inboundNext : NatSet
  badBlocks : List (Nat × Nat)
  units : List (Nat × Nat)
  commit : List (Yard × List Nat)
  wparts : List (Nat × WPart)
  sparts : List (Nat × SPart)
  routes : List RouteLayer
  gens : List GenEntry
  progress : List (Nat × Nat)
  drawn : Nat
  deriving DecidableEq, Repr

/-! ### Yards (14, 16, registers of 03, 06, 07, 08, 09) -/

/-- NMX_EXP_CHECK of one stack (07). -/
structure ExpCheck where
  seq : BitVec 16 := 0#16
  flag : Bool := false
  last : Nat := 0
  count : Nat := 0
  deriving DecidableEq, Repr

/-- What YRD_SEQ_PROBE captured of a local sequencer (R440): PC, stall state of R438, progress counter. -/
structure Probed where
  pc : Nat := 0
  state : Nat := 0
  progress : Nat := 0
  deriving DecidableEq, Repr

/-- A local sequencer (R379): whether its cluster is in fault mode. -/
structure Seq where
  faulty : Bool := false
  deriving DecidableEq, Repr

/-- A stack channel: the cycle of its last refresh from the bell, whether it is lost, and whether its rebuild is complete. -/
structure Channel where
  refreshed : Int := 0
  lost : Bool := false
  rebuilt : Bool := false
  deriving DecidableEq, Repr

/-- What the done reports of the tick have brought to the hub from one yard (R42, R96, R137, R170, R339). -/
structure Reports where
  clusters : List Nat := []
  flags : List (Nat × BitVec 8) := []
  units : List (Nat × Nat) := []
  poisoned : List Nat := []
  clips : List (Nat × Nat) := []
  converted : List Converted := []
  mxeUsed : Nat := 0
  mxeOffered : Nat := 0
  deriving DecidableEq, Repr

/-- A yard: its registers and what stands behind them. -/
structure Yd where
  lost : Bool := false
  arith : EventReg := {}
  clu : BitVec 256 := 0#256
  mem : EventReg := {}
  poisonAddr : Option (Nat × Nat) := none
  checkA : ExpCheck := {}
  checkB : ExpCheck := {}
  kvEvent : EventReg := {}
  kvAddr : Option (KvCopy × Nat) := none
  demoted : Nat := 0
  promoted : Nat := 0
  stale : Nat := 0
  maxSlots : Nat := 0
  maxDistinct : Nat := 0
  ras : EventReg := {}
  retired : List Nat := List.replicate 10 31
  rotating : BitVec 10 := 0#10
  remapped : BitVec 8 := 0#8
  links : BitVec 8 := 0#8
  linksNext : Option (BitVec 8) := none
  channels : List (Nat × Channel) := []
  held : List Bool := [true, true, true]
  offsets : List Int := [0, 0, 0]
  raised : Option Int := none
  raisedAt : Option Nat := none
  activity : BitVec 8 := 0#8
  minSlack : BitVec 16 := 0#16
  probe : Nat := 0
  probed : Probed := {}
  seqs : List (Nat × Seq) := []
  counts : List (Nat × Nat) := []
  reports : Reports := {}
  uncorrectable : List Nat := []
  damaged : List Nat := []
  restored : List Nat := []
  kvRestored : List Nat := []
  pools : List (Nat × Nat) := []
  moved : List (Nat × Nat × Nat) := []
  phases : Nat := 0
  tableRewrite : NatSet := []
  spaceWaitAt : Option Nat := none
  volts : Int := 0
  deriving DecidableEq, Repr

/-! ### Configuration that hosts write (registers of access type RW) -/

/-- The RW fields of the device registers (17, 05, 08, 11, 16, 18), most of them covered (R457). -/
structure Cfg where
  hangLimit : Nat := 64
  ceiling : Nat := 0
  checkEn : Bool := true
  fenceOnDrift : Bool := false
  factorKv : Nat := 0x20
  factorAct : Nat := 0x10
  window : Nat := 0x400
  high : Nat := 0xF0
  low : Nat := 0xE0
  decay : Nat := 0xF0
  demoteEn : Bool := true
  promote : Nat := 8
  holdTime : Nat := 0x0A
  sampleEn : Bool := false
  log2i : Nat := 0x10
  sampleYards : BitVec 8 := 0xFF#8
  streamEn : Bool := false
  mode : Nat := 0
  pre : Nat := 4
  cat : BitVec 7 := 0x0C#7
  trigSource : Nat := 0
  trigClass : Nat := 0
  trigArg : Word := 0#32
  autoReset : Bool := true
  stores : Bool := true
  dumpSlot : Nat := 0
  dumpAddr : Nat := 0
  dumpEn : Bool := false
  streamAddr : Nat := 0
  streamSize : Nat := 0x0C
  streamHead : Nat := 0
  arithMask : List (BitVec 8) := List.replicate 8 0x44#8
  powerCap : Nat := 4400
  bmcCap : Nat := 4400
  leakOff : Bool := false
  mbxOpcode : Byte := 0#8
  mbxAddr : Nat := 0
  mbxLen : Nat := 0
  mbxArg : Word := 0#32
  qntSel : Nat := 0
  fetched : Nat := 0
  wearSel : Nat := 0
  deriving DecidableEq, Repr

/-! ### The hub (02, 05, 14, 17) -/

/-- A statistics slot (R140): the scale-table set it holds, its calibration record, the ticks left of its window, the counts
of the open window per band, the KV error pair and element count per layer and band, and the last closed window. -/
structure QntSlot where
  image : Nat
  epoch : Nat
  layers : Nat
  actBands : BitVec 4
  kvBands : BitVec 4
  actRef : List Word
  kvRef : List (List Word)
  left : Nat
  clip : List Nat
  conv : List Nat
  err : List (Nat × Nat × Word × Word × Nat)
  actStatus : List Nat
  kvStatus : List Nat
  lastClip : List Nat
  lastConv : List Nat
  deriving DecidableEq, Repr

/-- A latched DRIFT outcome (HUB_QNT_DRIFT). -/
structure Drift where
  kv : Bool
  band : Nat
  slot : Nat
  layer : Nat
  deriving DecidableEq, Repr

/-- The states of a host site's link (HUB_SITE_STATUS). -/
inductive Link where
  | absent
  | training
  | active
  | hold
  | reset
  deriving DecidableEq, Repr

/-- A host site (R307, R330): its link, repaired lanes, SINGLE's degraded mark, and the PCIe settings of its physical
function (R311). `buffer` holds what the link buffer keeps, oldest first. -/
structure Site where
  link : Link := .absent
  repaired : BitVec 4 := 0#4
  degraded : Bool := false
  numVfs : Nat := 0
  vfEnable : Bool := false
  deriving DecidableEq, Repr

/-- A change of the grade or of where a change comes from (R68, R475, R487). -/
structure Grades where
  current : Nat := 0
  previous : Nat := 0
  temp : Nat := 0
  power : Nat := 0
  deriving DecidableEq, Repr

/-- The hub. `paused` counts the rebuilds that hold admission (R386), `short` says that no shed space is left for shadows (R391),
`reliefUp` that the relief set's copies stand (R397). -/
structure Hub where
  event : EventReg := {}
  eventPlan : Handle := 0#32
  tick : Nat := 0
  first : Bool := true
  long : Nat := 0
  grades : Grades := {}
  yardsUp : BitVec 8 := 0#8
  halted : Bool := false
  relief : Option Yard := none
  reliefNext : Option Yard := none
  reliefEnds : Bool := false
  fenced : Bool := false
  uncommitted : Bool := false
  mismatch : Bool := false
  crc : Word := 0#32
  crcRef : Word := 0xA01C1539#32
  qnt : List (Nat × QntSlot) := []
  unmeasured : Nat := 0
  drift : Option Drift := none
  siteEvent : EventReg := {}
  dual : Bool := false
  siteA : Site := {}
  siteB : Site := {}
  mgmtSite : Nat := 0
  ras : EventReg := {}
  rasValid : Bool := false
  rasPlaced : Bool := false
  rasYard : Yard := 0
  rasMs : Nat := 0
  rasJob : Handle := 0#32
  phases : Nat := 0
  halving : Bool := false
  paused : Nat := 0
  portPause : Bool := false
  short : Bool := false
  reliefUp : Bool := false
  deriving DecidableEq, Repr

/-! ### Microbatches and the front end (02, 08, 11) -/

/-- An extent of a stall's object: bytes from `off` of the object lie at `addr` of the fast tier or the shed (R159). -/
structure Extent where
  off : Nat
  shed : Bool
  addr : Nat
  len : Nat
  deriving DecidableEq, Repr

/-- A layer block as a stall was relocated to it (R219, R243): its local layer's model number, its block index, whether it is read from the
shed, its address, and how many of its positions the step uses. -/
structure ViewBlock where
  layer : Nat
  block : Nat
  far : Bool
  addr : Nat
  count : Nat
  deriving DecidableEq, Repr

/-- An object of a stall in one yard (R159, R219): slot number, extents, and for the KV objects the layer blocks behind them in view order. -/
structure ObjView where
  yard : Yard
  slot : Nat
  extents : List Extent
  blocks : List ViewBlock := []
  deriving DecidableEq, Repr

/-- What a stall computes. -/
inductive Work where
  | decode
  | prefill (count : Nat)
  | lane (positions : Nat)
  | item
  | forward (count : Nat)
  | backward (count : Nat)
  deriving DecidableEq, Repr

/-- A mark attached to a step (R442). -/
structure Mk where
  ident : Word
  ends : Bool
  fn : BitVec 8
  session : Handle
  deriving DecidableEq, Repr

/-- A stall (R30, R44, R256): whose it is, the request it serves, what it computes, its token and position, its counted
tokens and KV positions, its generation, and how it has fared. -/
structure Stall where
  fn : BitVec 8
  session : Handle
  job : Handle
  request : Nat
  work : Work
  tokens : List Word
  position : Nat
  positions : Nat
  count : Nat
  gen : Nat
  image : Nat
  epoch : Nat
  adapter : Handle
  replay : Bool
  struck : Bool
  failedAt : Option Nat
  committed : List Nat
  firstRun : List Nat
  marks : List Mk
  views : List ObjView
  pendingToken : Bool
  bwdYard : Option Nat
  deriving DecidableEq, Repr

/-- A microbatch in flight (R29, R30): its number, the yard it is in, its bucket, its band (R139), its stalls, the plan and
the relief set its programs are of, and by yard the addresses of the block lists of the epochs that it runs (R197). -/
structure Micro where
  mb : Nat
  yard : Nat
  bucket : Option Nat
  band : Nat
  stalls : List Stall
  relief : Option Yard
  lists : List (List Nat) := []
  deriving DecidableEq, Repr

/-- An allocation of shed space (R155, R246): `count` blocks of `bytes` bytes laid over shed units in the order of their
allocation. -/
structure ShedGroup where
  fn : BitVec 8
  bytes : Nat
  count : Nat
  units : List Nat
  deriving DecidableEq, Repr

/-- Storage that a change released (R243): the tick whose bell frees it, the yard and the fast-tier addresses of layer blocks,
and the shed addresses of block copies. -/
structure Released where
  due : Nat
  yard : Yard
  fast : List Nat
  shed : List Nat
  deriving DecidableEq, Repr

/-- A layer block that keeps failing and moves to a fresh slot (R233), none while there is no such slot: its maps are patched at the next cut-off. -/
structure KvMove where
  yard : Yard
  shadow : Nat
  new : Option Nat
  deriving DecidableEq, Repr

/-- A fetched packet (R275, R277): its function, queue, tag and IRQ flag, and its place in the order of fetching. -/
structure Cmd where
  fn : BitVec 8
  q : Fin 4
  tag : BitVec 16
  irq : Bool
  order : Nat
  deriving DecidableEq, Repr

/-- A switch that waits for the pipeline to drain (R52, R295): the plan's index, none where ticks are to stop, and whether a cut-off has accepted
it (R51). -/
structure Switch where
  plan : Option Nat
  cmd : Cmd
  accepted : Bool := false
  deriving DecidableEq, Repr

/-- The front end. `ready` names the activation jobs whose loads had ended at the cut-off. -/
structure Fe where
  ticking : Bool := false
  cut : Bool := false
  formed : Option Micro := none
  pipe : List Micro := []
  replays : List (List Stall) := []
  gen : Nat := 0
  lastLent : Nat := 0
  switch : Option Switch := none
  released : List Released := []
  kvMoves : List KvMove := []
  shed : List ShedGroup := []
  shedLast : Nat := 3
  ready : List (BitVec 8 × Nat) := []
  deriving DecidableEq, Repr

/-! ### Functions, queues and host memory (10, 11) -/

/-- A completion record as decided (R279), without PHASE and HELD. `job` is the job whose handle its delivery frees (R282). -/
structure Rec where
  tag : BitVec 16
  status : BitVec 16
  handle : Handle
  tick : Nat
  tally : Option (Nat × Nat × Nat)
  result : Nat
  irq : Bool
  final : Bool
  job : Option Nat
  deriving DecidableEq, Repr

/-- A command queue (R272-R274, R302-R305, registers of 10). Records of packets fetched before `since`, the packet count at its last
reset, are discarded (R305). -/
structure Queue where
  sqBase : Nat := 0
  sqLog : Nat := 4
  cqBase : Nat := 0
  cqLog : Nat := 4
  enabled : Bool := false
  pasidEn : Bool := false
  vector : Nat := 0
  pasid : BitVec 20 := 0#20
  tail : Nat := 0
  fetch : Nat := 0
  cqTail : Nat := 0
  phase : Bool := true
  head : Nat := 0
  stopped : Bool := false
  sqFault : Bool := false
  holdFull : Bool := false
  held : List Rec := []
  faultAddr : Option (Nat × Bool) := none
  progress : Nat := 0
  fences : List Nat := []
  resetting : Bool := false
  recent : List Rec := []
  since : Nat := 0
  deriving DecidableEq, Repr

/-- A host region (R284). -/
structure Region where
  addr : Nat
  len : Nat
  writable : Bool
  pasid : Option (BitVec 20)
  deriving DecidableEq, Repr

/-- The objects a handle names (R282). -/
inductive ObjKind where
  | session
  | region
  | graph
  | job
  | image
  | adapter
  | plan
  deriving DecidableEq, Repr

/-- The state of a function number (FN_TAB_STATE). -/
inductive FnSt where
  | free
  | active
  | disabling
  | linkHold
  | resetting
  deriving DecidableEq, Repr

/-- A disable sequence under way (R327-R329): bells since its moment, whether the function is destroyed, the FN_DESTROY that
asked for it with its result region, and whether steps 3 to 7 are done. -/
structure Disable where
  bells : Nat
  destroy : Bool
  mgr : Option Cmd
  result : Option RegionRef
  swept : Bool
  deriving DecidableEq, Repr

/-- A function (R309-R314, registers of 10 and 11). `msix` holds the address and data words of its MSI-X table by word index (R319);
`unheld` names, in the order of decision, the queues of the records that no room was left for in the holding area (R304); `seenTokens` and `seenEnergy` are
the period's totals that the last cut-off compared (FN_PERIOD_TOKENS, FN_PERIOD_ENERGY). -/
structure Fn where
  num : BitVec 8
  physical : Bool
  site : Nat
  health : Bool
  st : FnSt
  quota : Nat
  nextIx : Nat
  freed : List Nat
  handles : List (Nat × ObjKind × Nat)
  queues : List Queue
  event : EventReg := {}
  regionAddr : Nat := 0
  regionLen : Nat := 0
  regionHandle : Handle := 0#32
  regionWritable : Bool := false
  regionPasidEn : Bool := false
  regionPasid : BitVec 20 := 0#20
  regionStatus : Nat := 0
  regions : List (Nat × Region) := []
  eventEn : Bool := false
  deviceEn : Bool := false
  eventVector : Nat := 0
  irqPending : NatSet := []
  irqMasked : NatSet := []
  msix : List (Nat × Word) := []
  share : Nat := 0
  shareNext : Option (Nat × Nat × Nat) := none
  tokenCap : Nat := 0
  energyCap : Nat := 0
  periodTokens : Nat := 0
  periodEnergy : Nat := 0
  tokenCapped : Bool := false
  energyCapped : Bool := false
  deficit : Int := 0
  stalls : Nat := 0
  lent : Nat := 0
  qntClip : Nat := 0
  qntConv : Nat := 0
  tuneSteps : Nat := 0
  tuneSkipped : Nat := 0
  tokensIn : Nat := 0
  tokensOut : Nat := 0
  tallies : Nat := 0
  tallyEnergy : Nat := 0
  abandoned : Nat := 0
  snapSeq : Nat := 0
  holding : List (Nat × Nat) := []
  shedKey : Nat := 0
  disable : Option Disable := none
  fetched : Nat := 0
  opens : List (Nat × Fin 4 × Bool) := []
  atsEn : Bool := false
  pasidCap : Bool := false
  linkBuf : Nat := 0
  unheld : List (Fin 4) := []
  seenTokens : Nat := 0
  seenEnergy : Nat := 0
  deriving DecidableEq, Repr

/-- A translation held for a function (R316). -/
structure Xlat where
  fn : BitVec 8
  pasid : Option (BitVec 20)
  page : Nat
  deriving DecidableEq, Repr

/-! ### Sessions, jobs, graphs, images (07, 08, 10, 15) -/

/-- An entry of a KV map (R218). `copyOf` names, by its shadow address, the block that a forked session's block is to be copied
from in the next scatter step (R239). -/
structure MapEntry where
  yard : Yard
  layer : Nat
  block : Nat
  fast : Nat
  shadow : Nat
  mirror : Nat
  score : Word
  fill : Nat
  demoted : Bool
  evicted : Bool
  node : Bool
  hold : Bool
  copyOf : Option Nat
  deriving DecidableEq, Repr

/-- An entry of an output ring (R287). -/
structure OutEntry where
  token : Word
  position : Nat
  last : Bool
  stop : Bool
  logp : BitVec 16
  tag : BitVec 16
  deriving DecidableEq, Repr

/-- The long-lane record's header (R249, R250): the step, the cursor's yard, its local layer and next block index, the cursor
that the front end planned this tick's visit from and the one it expects for the next tick's, with the cursor after each of the two as its
slices were planned, and the record's place among the plan's. -/
structure Lane where
  step : Nat
  yard : Nat
  layer : Nat
  block : Nat
  plan : Option (Nat × Nat × Nat)
  expect : Option (Nat × Nat × Nat)
  planTo : Option (Nat × Nat × Nat)
  expectTo : Option (Nat × Nat × Nat)
  slot : Nat
  deriving DecidableEq, Repr

/-- A session (R286-R293). `genQueue` is the queue of the GENERATE whose tokens it wrote last (R288). `commands` holds the fetch orders of its running and queued commands; `swept` says that what a session
which the device ended held has been released. -/
structure Session where
  fn : BitVec 8
  ix : Nat
  image : Nat
  epoch : Nat
  adapter : Handle
  ring : RegionRef
  entries : Nat
  head : Nat
  tail : Nat
  budget : Nat
  width : Nat
  tokens : List Word
  pendingToken : Option Word
  pendingHost : Bool
  map : List MapEntry
  nodes : List Nat
  commands : List Nat
  inflight : Nat
  ended : Option (BitVec 16)
  swept : Bool
  closing : Option Cmd
  stopped : Option (Fin 4)
  kept : List OutEntry
  written : List OutEntry
  ownOnly : Bool
  lane : Option Lane
  order : Nat
  genQueue : Fin 4 := 0
  deriving DecidableEq, Repr

/-- Job states (R297). -/
inductive JobSt where
  | running
  | waiting
  | suspended
  | ended
  deriving DecidableEq, Repr

/-- What a job does (R298, R299) with what it keeps. An APPEND holds the tokens it is to commit, a pending token of the session
first where there was one (`lead`: whether that one came from the host), how many are admitted and committed, whether matching has
been done, and whether its last chunk is admitted with the final token left over (R289). A launch has version 0 until its first item is
admitted, when it is bound (R296). -/
inductive JobKind where
  | append (tokens : List Word) (next done : Nat) (lead : Option Bool) (noPrefix matched closed : Bool)
  | generate (max : Nat) (temperature topP : Word) (topK : Nat) (stops : List Word) (seed : Word) (written : Nat)
  | launch (graph version : Nat) (items admitted : Nat) (images : List (Nat × Nat)) (adapter : Handle) (output : RegionRef)
  | install (image : Nat) (handle : Nat) (manifest : List Byte)
  | activate (image : Nat) (cutover tablesOnly : Bool) (epoch : Option Nat) (base : Option (Nat × Nat)) (tables : List Byte)
      (loaded ended : Bool)
  | tuning
  | selftest (mask : Byte) (kind : Nat) (report : RegionRef) (found : List TestFault)
  | replan (mask : Byte) (left : List Nat)
  | planLoad (name : BitVec 128) (length : Nat)
  | migration
  | dump (slot : Nat)
  deriving DecidableEq, Repr

/-- A job (R297-R299), with the packet it came by, the suspends (true) and cancels that wait for the bell, the regions it reads
or writes and, for a request, what its tally gathers (R342, R343). -/
structure Job where
  cmd : Cmd
  ix : Nat
  opcode : Nat
  subject : Handle
  kind : JobKind
  st : JobSt
  wait : Nat
  progress : Nat
  limit : Nat
  started : Nat
  moved : Nat
  status : BitVec 16
  energy : Nat
  tokensIn : Nat
  tokensOut : Nat
  firstTick : Option Nat
  lastTick : Option Nat
  ops : List (Bool × Cmd)
  regions : List Handle
  isRequest : Bool
  device : Bool
  inflight : Nat
  ending : Option (BitVec 16)
  deriving DecidableEq, Repr

/-- An immediate command that waits for a bell or a state (R275, R280). -/
inductive Held where
  | open (name : BitVec 128) (adapter : Handle) (ring : RegionRef) (entries budget width : Nat) (ix : Nat)
  | fork (parent : Handle) (ring : RegionRef) (entries : Nat) (ix : Nat)
  | mark (ident : Word) (ends : Bool) (session : Option Handle)
  | tuneSave (run : Handle) (name : BitVec 128)
  | fence (mask : BitVec 4) (jobs : Bool)
  deriving DecidableEq, Repr

/-- A waiting command with its packet. -/
structure Waiting where
  cmd : Cmd
  what : Held
  deriving DecidableEq, Repr

/-- A stored graph version (R296). -/
structure GraphVer where
  version : Nat
  body : GraphBody
  launches : Nat
  deriving DecidableEq, Repr

/-- A graph. -/
structure Graph where
  fn : BitVec 8
  ix : Nat
  versions : List GraphVer
  dropped : Bool
  deriving DecidableEq, Repr

/-- States of an image (R175). -/
inductive ImgSt where
  | free
  | installing
  | ready
  | damaged
  | retiring
  deriving DecidableEq, Repr

/-- An entry of the image table (R176) with what the coffer holds for it: its block records in block order and its scale-table
set with the calibration record, for which `scaleLen` bytes are reserved; `without` holds the coffer channels that were lost when
it was programmed (R390). -/
structure Image where
  ix : Nat
  st : ImgSt
  variant : Bool
  base : Option Nat
  lastEpoch : Nat
  name : BitVec 128
  digest : Digest
  stored : Nat
  scaleLen : Nat
  owner : BitVec 8
  newest : Nat
  records : List (List Byte)
  scales : List Byte
  without : NatSet
  deriving DecidableEq, Repr

/-- Where an epoch stands (R196, R134, R269, R393): for each block whether it lies in the shed and its address, the addresses of its table
entries, and those of the copies of both in the relief regions. -/
structure Placed where
  blocks : List (Bool × Option Nat) := []
  entries : List (Option Nat) := []
  reliefBlocks : List (Option Nat) := []
  reliefEntries : List (Option Nat) := []
  deriving DecidableEq, Repr

/-- An epoch in service or being loaded (R200, R201): image index and number, the base epoch it keeps, the addresses of its 2 MiB
units, of its units in relief regions (R393), of its units in partner yards' regions (R268) and of its 64 KiB shed units (R269), where its
records and tables stand, the address of its block list in each yard (R197), whether it is in effect and current for its
name, its scale-table set and statistics slot (64 where it runs unmeasured), the epoch whose weights it shares (R144), and whether nothing is pinned to it any
more, so that the next bell frees it (R202). -/
structure Epoch where
  image : Nat
  num : Nat
  base : Option (Nat × Nat)
  units : List Nat
  relief : List Nat
  wide : List Nat
  cold : List Nat
  placed : Placed
  lists : List Nat
  effect : Bool
  current : Bool
  tables : List Byte
  slot : Option Nat
  shares : Option Nat
  due : Bool
  deriving DecidableEq, Repr

/-- A loaded plan (R48): its handle index, its load order, and whether it is replaced and only kept until another is in
force. -/
structure Loaded where
  ix : Nat
  plan : Plan
  order : Nat
  replaced : Bool
  deriving DecidableEq, Repr

/-- A tensor of a tuning run (R420): rows, columns, FP32 masters, statistics and the pair accumulator. -/
structure Tensor where
  path : Nat
  yard : Yard
  n : Nat
  m : Nat
  x : List Word
  r : List Word
  c : List Word
  acc : List (Word × Word)
  deriving DecidableEq, Repr

/-- A chunk of a tuning step (R422): its token count, the tick in which it entered yard 0, and the yards whose backward visit is
committed. -/
structure Chunk where
  tokens : Nat
  entered : Option Nat
  visited : List Nat
  deriving DecidableEq, Repr

/-- A TUNE_STEP that runs or waits (R429), with what its tally gathers and its status once its update or skip is made. -/
structure TuneStep where
  cmd : Cmd
  subject : Handle
  count : Nat
  rho : Word
  chunks : List Chunk
  energy : Nat
  firstTick : Option Nat
  lastTick : Option Nat
  status : Option (BitVec 16)
  deriving DecidableEq, Repr

/-- A tuning run (R419-R431), found by its job's handle. -/
structure Run where
  fn : BitVec 8
  ix : Nat
  name : BitVec 128
  image : Nat
  epoch : Nat
  rank : Nat
  b2 : Word
  e1 : Word
  e2 : Word
  d : Word
  bt : Word
  t : Nat
  tensors : List Tensor
  steps : List TuneStep
  closing : Option Cmd
  deriving DecidableEq, Repr

/-- A saved adapter (R418, R432). -/
structure Adapter where
  fn : BitVec 8
  ix : Nat
  name : BitVec 128
  image : Digest
  rank : Nat
  steps : Nat
  paths : Digest
  tensors : List Tensor
  replaced : Bool
  users : Nat
  deriving DecidableEq, Repr

/-- A node of the tree of shared position blocks (R234). -/
structure Node where
  id : Nat
  fn : BitVec 8
  image : Nat
  epoch : Nat
  adapter : Handle
  hash : BitVec 64
  parent : Option Nat
  tokens : List Word
  refs : Nat
  pins : Nat
  complete : Bool
  blocks : List MapEntry
  matched : Nat
  port : Nat
  deriving DecidableEq, Repr

/-- Everything that handles name, and what the device holds behind them. `delivered` holds the jobs whose final records are the last ones
written, the newest first: a failed write takes a record back and its job's handle with it (R282, R303). -/
structure Objs where
  sessions : List Session := []
  jobs : List Job := []
  delivered : List Job := []
  waiting : List Waiting := []
  graphs : List Graph := []
  images : List Image := []
  epochs : List Epoch := []
  plans : List Loaded := []
  selected : Option Nat := none
  runs : List Run := []
  adapters : List Adapter := []
  nodes : List Node := []
  nextNode : Nat := 1
  orders : Nat := 0
  deriving DecidableEq, Repr

/-! ### The ledger (12) -/

/-- A tally (R343) before it has an index. -/
structure Tally where
  kind : Nat
  fn : BitVec 8
  subject : Handle
  tag : BitVec 16
  status : BitVec 16
  energy : Nat
  tokensIn : Nat
  tokensOut : Nat
  first : Nat
  last : Nat
  opcode : Nat
  queue : Nat
  deriving DecidableEq, Repr

/-- A house account of the open folio (R345): KIND of its tally, the function, the energy, and the first and last tick in which
it received any. -/
structure House where
  kind : Nat
  fn : BitVec 8
  energy : Nat
  first : Option Nat
  last : Option Nat
  deriving DecidableEq, Repr

/-- The open folio (R345-R349). `tickFirst` is the first tick that it may cover. -/
structure Folio where
  number : Nat := 0
  restart : Bool := false
  power : Bool := false
  periodChanged : Bool := false
  prior : Nat := 0
  tallies : List Tally := []
  tickFirst : Nat := 1
  tickLast : Option Nat := none
  timeOpen : Nat := 0
  metered : Nat := 0
  carryIn : Nat := 0
  period : Nat := 1000
  house : List House := []
  deriving DecidableEq, Repr

/-- A sealed folio (R347): its number, bytes 0x000-0x13F of its header block, its tallies' bytes, the signatures once made,
and whether it is retrievable (R354). -/
structure Sealed where
  number : Nat
  header : List Byte
  tallies : List (List Byte)
  ecdsa : List Byte
  hss : List Byte
  ready : Bool
  deriving DecidableEq, Repr

/-- The ledger. `warm` says that the present start followed a device warm reset, `early` holds the nJ metered before its ledger opened
(R491), `railLast` the power of each yard's last completed telemetry window in mW (R336), `abandoned` the tallies of disabled functions that the next bell
writes, with the order of their requests (R327, R345). -/
structure Ldg where
  ready : Bool := false
  meterFault : Bool := false
  stopped : Bool := false
  event : EventReg := {}
  oldest : Nat := 0
  newest : Nat := 0
  anySealed : Bool := false
  period : Nat := 1000
  nextPeriod : Nat := 1000
  periodStart : Nat := 0
  time : Nat := 0
  metered : Nat := 0
  attributed : Nat := 0
  carry : Nat := 0
  residue : Nat := 0
  start : Nat := 0
  folio : Folio := {}
  sealedFolios : List Sealed := []
  unsigned : List Tally := []
  opening : Bool := false
  high : Bool := false
  warm : Bool := false
  early : Nat := 0
  railLast : List Nat := []
  abandoned : List (Nat × Tally) := []
  deriving DecidableEq, Repr

/-! ### Security, coffer, shed ports, power (13, 07, 06, 18) -/

/-- The states of SEC_STATE. -/
inductive SecSt where
  | boot
  | recoveryWait
  | running
  deriving DecidableEq, Repr

/-- A key slot (R368). -/
structure KeySlot where
  keyId : Digest
  ecdsa : List Byte
  hss : List Byte
  usage : Nat
  deriving DecidableEq, Repr

/-- The security block. `keyNext` is the count of shed keys drawn and `deviceKey` the draw that gave key 0 at
the present start (R371); `measured` what GET_MEASUREMENTS reports from the
last bell (R373). -/
structure Sec where
  st : SecSt := .boot
  cause : Nat := 0
  svn : Nat := 0
  busy : Bool := false
  result : BitVec 16 := 0#16
  progress : Nat := 0
  event : EventReg := {}
  keys : List (Option KeySlot) := List.replicate 16 none
  tableBytes : Option (List Byte) := none
  fw : Option FwImage := none
  keyNext : Nat := 0
  deviceKey : Nat := 0
  measured : List (List Byte) := List.replicate 8 []
  deriving DecidableEq, Repr

/-- A journal record (R443): its place in the record area and its order. -/
structure JRec where
  seq : Nat
  place : Nat
  typ : Nat
  len : Nat
  source : Nat
  tick : Nat
  cycle : Nat
  data0 : Nat
  body : List Byte
  deriving DecidableEq, Repr

/-- What section 3 of a dump holds for one physical cluster (R451): its number, the logical cluster that it runs, PC, state of R438,
progress counter, whether it had reported done, and whether it is in fault mode. -/
structure DumpSeq where
  phys : Nat
  logical : Option Nat
  pc : Nat
  state : Nat
  progress : Nat
  done : Bool
  faulty : Bool
  deriving DecidableEq, Repr

/-- The sections of a dump (R451): 1 the registers of BAR0 that do not read 0, 2 the microbatches in flight, 3 the sequencers, 4 and 5
core and cluster stores, 6 the trigger slot and the journal. -/
structure DumpBody where
  regs : List (Nat × Word) := []
  lists : List Micro := []
  seqs : List DumpSeq := []
  stores : Mem := []
  slot : List Byte := []
  journal : List JRec := []
  deriving DecidableEq, Repr

/-- A dump in a slot of the coffer (R451): its cause, the order of writing, its header with the section directory, whether it holds the
stores, whether it is complete, and its sections once it is. -/
structure Dump where
  slot : Nat
  cause : Nat
  order : Nat
  header : List Byte
  stores : Bool
  done : Bool
  body : DumpBody := {}
  deriving DecidableEq, Repr

/-- The coffer. `free` counts the free bytes of its 11,968 GB image region (R210) and `programmed` the bytes programmed there since the start. `region` is what the firmware region holds: `none` what the factory put there, `some none` invalid;
`fwWithout` the channels that were lost when it was programmed. -/
structure Cof where
  ready : Bool := false
  lost : NatSet := []
  event : EventReg := {}
  restore : Option (Nat × Nat) := none
  free : Nat := 11968000000000
  wearMax : BitVec 16 := 0#16
  wearMean : BitVec 16 := 0#16
  programmed : Nat := 0
  region : Option (Option FwImage) := none
  fwWithout : NatSet := []
  dumps : List Dump := []
  dumpHost : Bool := false
  dumpLast : Option Nat := none
  deriving DecidableEq, Repr

/-- A CXL root port (CXL_PORTn_STATUS, CXL_PORTn_CAP). -/
structure Port where
  up : Bool := false
  held : Bool := false
  cause : Nat := 0
  bytes : Nat := 0
  deriving DecidableEq, Repr

/-- The power states of R474. -/
inductive PwrSt where
  | off
  | standby
  | boot
  | idle
  | serving
  | halted
  deriving DecidableEq, Repr

/-- Power, clocks, pins and sensors. `warm`, `crit` say which sensors stand above a level; the PMBus and I3C targets. -/
structure Pwr where
  st : PwrSt := .boot
  trip : Nat := 0
  event : EventReg := {}
  vin : Nat := 0
  iin : Nat := 0
  pin : Nat := 0
  pavg : Nat := 0
  temps : Option Temps := none
  warned : Bool := false
  critical : Bool := false
  cool : Bool := false
  modEn : Bool := true
  rstN : Bool := true
  refclk : Bool := true
  leakN : Bool := true
  pg : Bool := true
  thermN : Bool := true
  vinBad : Bool := false
  statusInput : BitVec 8 := 0#8
  statusTemp : BitVec 8 := 0#8
  cml : Bool := false
  offBit : Bool := false
  i3cAddr : BitVec 7 := 0x4A#7
  i3cOff : Nat := 0
  deriving DecidableEq, Repr

/-! ### Observation, the persistent store, what goes out (16, 17) -/

/-- Observation. `hold` is the device holding set by BAR0 offset (R436); `counts` DBG_CNTi. -/
structure Dbg where
  event : EventReg := {}
  snapSeq : Nat := 0
  hold : List (Nat × Nat) := []
  counts : List (Nat × Nat) := []
  armed : Bool := false
  fired : Bool := false
  slot : List Byte := []
  recs : List JRec := []
  pos : Nat := 0
  base : Nat := 0
  limit : Nat := 67104768
  state : Nat := 0
  seq : Nat := 0
  refused : Nat := 0
  refusedTick : Nat := 0
  copyNext : Nat := 0
  tail : Nat := 0
  stall : Bool := false
  dumpJob : Handle := 0#32
  deriving DecidableEq, Repr

/-- What the factory writes into the persistent store: the digest of an empty key table (R368), margin plans that hold every grade at
offset 0 (R404), and no retired cluster (R380). -/
def factoryWords : List (Nat × Word) :=
  [(0x110, 0x4090A5E7#32), (0x111, 0x5829FBBF#32), (0x112, 0x7268A553#32), (0x113, 0x8C908E44#32), (0x114, 0xB26E02F6#32), (0x115, 0xD99A305A#32),
    (0x116, 0x6D466FBF#32), (0x117, 0x3C1542F0#32), (0x118, 0xF4A356EF#32), (0x119, 0xDFA9BE88#32), (0x11A, 0x3208D53B#32), (0x11B, 0x8CB4BA96#32)] ++
  ((List.range 24).map fun i => (0x400 + i, 0x80000000#32)) ++
  (List.range 16).map fun i => (0x440 + i, if i % 2 = 0 then 0xFFFFFFFF#32 else 0x0003FFFF#32)

/-- The persistent store (R465-R469): words, wear, what stands on spares. -/
structure Prs where
  words : List (Nat × Word) := factoryWords
  wear : List (Nat × Nat) := []
  onSpare : NatSet := []
  hostUsed : Nat := 0
  otherUsed : Nat := 0
  refused : Bool := false
  event : EventReg := {}
  last : Option (Bool × Nat) := none
  deriving DecidableEq, Repr

/-- A write to host memory: requester, PASID, host IO address (or region handle and offset), bytes. -/
structure HostWrite where
  fn : BitVec 8
  pasid : Option (BitVec 20)
  addr : Nat
  bytes : List Byte
  deriving DecidableEq, Repr

/-- What the device has sent, newest first: writes to host memory, dumps whose sections it wrote to host memory behind their headers at
an address (R451, R453), interrupt messages, in-band interrupts of the I3C
target, and answers on I3C, PMBus and DOE; `nack` says that the last I3C or PMBus transfer was not acknowledged. -/
structure Bus where
  writes : List HostWrite := []
  dumps : List (Nat × DumpBody) := []
  buffered : List (Nat × HostWrite) := []
  msgs : List (BitVec 8 × Nat) := []
  ibis : List Byte := []
  answers : List (List Byte) := []
  nack : Bool := false
  deriving DecidableEq, Repr

/-- The control side: everything but the engines and the configuration. `free` is the model's own: a counter that a step
which needs a free value reads and advances. -/
structure Ctl where
  yards : Vector Yd 8
  free : Nat
  hub : Hub
  fe : Fe
  fns : List Fn
  objs : Objs
  ldg : Ldg
  sec : Sec
  cof : Cof
  cxl : List Port
  pwr : Pwr
  dbg : Dbg
  prs : Prs
  bus : Bus
  xlats : List Xlat
  deriving DecidableEq, Repr

/-- The state of the block. `pending` is the queue of commands that wait, first in, first out. -/
structure State where
  dp : Dp
  cfg : Cfg
  ctl : Ctl
  pending : List Instr
  deriving DecidableEq, Repr

/-- Why a command stops with a fault. -/
inductive Fault where
  /-- An instruction or a stream names a byte outside the store it addresses (R146, R147, R150, R155): raised by the engine
  and stream commands. Safe: no such byte exists, and PLAN_LOAD refuses plans that name one (R158). -/
  | noSuchAddress
  /-- SFN names slot 14, 15 or a slot that the selected plan does not load (R104): raised by SFN. Safe: PLAN_LOAD refuses
  plans that call one. -/
  | emptySlot
  /-- An engine instruction names a format that is no element format (R73, R84): raised by the engine commands. Safe:
  PLAN_LOAD refuses plans that name one. -/
  | badFormat
  /-- A routing instruction names a layer for which the selected plan has no router descriptor (R252): raised by the routing commands.
  Safe: a plan's frame programs route only the layers that it describes. -/
  | noRouter
  deriving DecidableEq, Repr

/-- Why a command is refused. -/
inductive Refusal where
  /-- The command has no meaning in this model yet. Safe: nothing follows from it. -/
  | notModelled (mnemonic : String)
  deriving DecidableEq, Repr

/-- The engines after reset: stores blank, nothing in flight. -/
def Dp.reset : Dp :=
  { mem := [], poison := [], shedKeys := [], flags := [], clips := [], converted := [], kvErrs := [], rowPoison := [], queues := [], waits := [], waited := []
    flights := [], nextFlight := 0, unfenced := [], inbound := [], inboundNext := [], badBlocks := [], units := [], commit := [], wparts := [], sparts := [], routes := [], gens := []
    progress := [], drawn := 0 }

/-- The physical function of site A as it stands after reset (R309, R313): number 0, site A, queues disabled, vectors masked as PCIe
resets them. -/
def Fn.physicalA : Fn :=
  { num := 0#8, physical := true, site := 0, health := false, st := .active, quota := 2 ^ 24, nextIx := 1, freed := []
    handles := [], queues := List.replicate 4 {}, irqMasked := List.range 64 }

/-- The controls after reset. -/
def Ctl.reset : Ctl :=
  { yards := Vector.replicate 8 {}, free := 0, hub := {}, fe := {}, fns := [Fn.physicalA], objs := {}, ldg := {}, sec := {}, cof := {}, cxl := List.replicate 4 {}
    pwr := {}, dbg := {}, prs := {}, bus := {}, xlats := [] }

/-- The machine right after reset (R14): every register at its reset value, the device in BOOT with rails up, nothing
waiting. -/
def State.reset : State :=
  { dp := Dp.reset, cfg := {}, ctl := Ctl.reset, pending := [] }

end Sys2Proof.Machine
end

