-- ==== Sys2Proof/Machine/Ops.lean ====
section
/-! DEFINITION. The named operations over the state: where each store lies in memory, physical clusters, event registers and
everything an event sets off, counters, the journal, the trigger and snapshots. -/

namespace Sys2Proof.Machine

open Sys2Proof

/-! ### Control side, one part at a time -/

/-- Applies a change to the control side alone. -/
def State.onCtl (s : State) (f : Ctl → Ctl) : State := { s with ctl := f s.ctl }

/-- A yard. -/
def Ctl.yd (c : Ctl) (k : Yard) : Yd := c.yards[k]

/-- Applies a change to one yard. -/
def Ctl.onYard (c : Ctl) (k : Yard) (f : Yd → Yd) : Ctl := { c with yards := c.yards.set k (f c.yards[k]) }

/-- Applies a change to every yard. -/
def Ctl.onYards (c : Ctl) (f : Yd → Yd) : Ctl := { c with yards := c.yards.map f }

/-- Applies a change to the hub. -/
def Ctl.onHub (c : Ctl) (f : Hub → Hub) : Ctl := { c with hub := f c.hub }

/-- Applies a change to the front end. -/
def Ctl.onFe (c : Ctl) (f : Fe → Fe) : Ctl := { c with fe := f c.fe }

/-- Applies a change to the objects. -/
def Ctl.onObjs (c : Ctl) (f : Objs → Objs) : Ctl := { c with objs := f c.objs }

/-- Applies a change to the ledger. -/
def Ctl.onLdg (c : Ctl) (f : Ldg → Ldg) : Ctl := { c with ldg := f c.ldg }

/-- Applies a change to the security block. -/
def Ctl.onSec (c : Ctl) (f : Sec → Sec) : Ctl := { c with sec := f c.sec }

/-- Applies a change to the coffer. -/
def Ctl.onCof (c : Ctl) (f : Cof → Cof) : Ctl := { c with cof := f c.cof }

/-- Applies a change to the power side. -/
def Ctl.onPwr (c : Ctl) (f : Pwr → Pwr) : Ctl := { c with pwr := f c.pwr }

/-- Applies a change to observation. -/
def Ctl.onDbg (c : Ctl) (f : Dbg → Dbg) : Ctl := { c with dbg := f c.dbg }

/-- Applies a change to the persistent store. -/
def Ctl.onPrs (c : Ctl) (f : Prs → Prs) : Ctl := { c with prs := f c.prs }

/-- Applies a change to what goes out. -/
def Ctl.onBus (c : Ctl) (f : Bus → Bus) : Ctl := { c with bus := f c.bus }

/-- Applies a change to the functions of a number. -/
def Ctl.onFn (c : Ctl) (n : BitVec 8) (f : Fn → Fn) : Ctl :=
  { c with fns := c.fns.map fun x => if x.num = n then f x else x }

/-- A function by its number. -/
def Ctl.fn? (c : Ctl) (n : BitVec 8) : Option Fn := c.fns.find? (·.num = n)

/-! ### The key space of memory -/

/-- Physical cores and clusters: 260 clusters of 40 cores in each of 8 yards (R20, R23). -/
def physClusters : Nat := 260

/-- The physical cluster index of a yard's logical cluster under its map of retired columns (R20, R21): 26 × row + column. -/
def physOf (retired : List Nat) (c : Nat) : Nat :=
  let row := c / 25
  let col := c % 25
  26 * row + (if col < retired.getD row 31 then col else col + 1)

/-- The yard that runs the layers of yard `k`: under a relief set in force its relief yard (R35). -/
def Ctl.home (c : Ctl) (k : Yard) : Yard := if c.hub.relief = some k then k + 1 else k

/-- The device-wide index of a logical cluster of the yard that runs the layers of yard `k` (R21, R35). -/
def Ctl.clu (c : Ctl) (k : Yard) (l : Nat) : Nat := (c.home k).val * physClusters + physOf (c.yd (c.home k)).retired l

/-- The device-wide index of a core. -/
def Ctl.core (c : Ctl) (r : CoreRef) : Nat := c.clu r.yard r.cluster.val * 40 + r.core.val

/-- Bytes of core store, of which the last 8 KiB are the table store (R146). -/
def coreBytes : Nat := 0x8000

/-- Where the table store begins (R146). -/
def tableBase : Nat := 0x6000

/-- Bytes of cluster store (R147). -/
def clusterBytes : Nat := 0x80000

/-- Bytes of one stack that are addressable (R150). -/
def stackBytes : Nat := 0x165A0A0000

/-- The key of a core-store byte. -/
def coreKey (core off : Nat) : Nat := core * coreBytes + off

/-- The key of a cluster-store byte. -/
def clusterKey (cluster off : Nat) : Nat := 2 ^ 32 + cluster * clusterBytes + off

/-- The key of a byte of accumulator `i` (R85). -/
def accKey (core i : Nat) : Nat := 2 ^ 33 + core * 2048 + 4 * i

/-- The key of a fast-tier byte (R150). -/
def fastKey (addr : Nat) : Nat := 2 ^ 42 + addr

/-- The key of a shed byte (R155). -/
def shedKeyOf (addr : Nat) : Nat := 2 ^ 47 + addr

/-- Whether `n` bytes at a fast-tier address lie on one stack and in range (R150). -/
def fastIn (addr n : Nat) : Bool :=
  addr < 2 ^ 41 && addr % 2 ^ 37 + n ≤ stackBytes

/-- A CXL root port. -/
def Ctl.port (c : Ctl) (i : Nat) : Port := c.cxl.getD i {}

/-- A queue of a function. -/
def Fn.queue (f : Fn) (q : Fin 4) : Queue := f.queues.getD q.val {}

/-- Whether `n` bytes at a shed address lie on one expander within its capacity (R155). -/
def Ctl.shedIn (c : Ctl) (addr n : Nat) : Bool :=
  addr < 2 ^ 46 && addr % 2 ^ 44 + n ≤ (c.port (addr / 2 ^ 44)).bytes

/-- The key of a place in a store that a core reaches. -/
def locKey (core : Nat) (l : Loc) : Nat :=
  match l.store with
  | .core => coreKey core l.off
  | .cluster => clusterKey (core / 40) l.off

/-- Whether `n` bytes at a place may be read: they lie inside the store (R146, R147). -/
def locReadable (l : Loc) (n : Nat) : Bool :=
  match l.store with
  | .core => l.off + n ≤ coreBytes
  | .cluster => l.off + n ≤ clusterBytes

/-- Whether `n` bytes at a place may be written: the table store is written by plan selection and R115 alone (R146). -/
def locWritable (l : Loc) (n : Nat) : Bool :=
  match l.store with
  | .core => l.off + n ≤ tableBase
  | .cluster => l.off + n ≤ clusterBytes

/-- The selected plan (R36, R43). -/
def Ctl.plan? (c : Ctl) : Option Plan :=
  match c.objs.selected with
  | none => none
  | some ix => (c.objs.plans.find? (·.ix = ix)).map (·.plan)

/-! ### Poison of 64-byte units (R170) -/

/-- The units that `n` bytes from a key touch. -/
def unitsOf (key n : Nat) : List Nat :=
  if n = 0 then [] else (List.range ((key + n + 63) / 64 - key / 64)).map (key / 64 + ·)

/-- Whether any unit of a range is poisoned. -/
def Dp.poisoned (d : Dp) (key n : Nat) : Bool :=
  (unitsOf key n).any fun u => d.poison.contains u

/-- Writes bytes with a poison mark. A marked write poisons every unit it touches; an unmarked one clears the mark of the
units it fills whole. -/
def Dp.write (d : Dp) (key : Nat) (bs : List Byte) (mark : Bool) : Dp :=
  let us := unitsOf key bs.length
  { d with
    mem := d.mem.writeN key bs
    poison :=
      if mark then us.foldl NatSet.add d.poison
      else (us.filter fun u => key ≤ 64 * u && 64 * u + 64 ≤ key + bs.length).foldl NatSet.del d.poison }

/-- An instruction of a local sequencer's stream completes (R440): its progress counter, saturating at 32 bits. -/
def Dp.retireInstr (d : Dp) (k : Yard) (l : Cluster) : Dp :=
  { d with progress := Sparse.upd 0 d.progress (250 * k.val + l.val) fun n => Bits.satAdd 32 n 1 }

/-! ### Units of direct energy (R339) -/

/-- The classes of direct energy in the order of their numbers. -/
inductive EnergyClass where
  | mac4 | mac8 | mac16 | mac32 | vxeOp | sfn | nmaMac | nearByte | farByte | shedByte | writeByte | treeByte | spineByte
  deriving DecidableEq, Repr

/-- The number of a class. -/
def EnergyClass.num : EnergyClass → Nat
  | .mac4 => 0
  | .mac8 => 1
  | .mac16 => 2
  | .mac32 => 3
  | .vxeOp => 4
  | .sfn => 5
  | .nmaMac => 6
  | .nearByte => 7
  | .farByte => 8
  | .shedByte => 9
  | .writeByte => 10
  | .treeByte => 11
  | .spineByte => 12

/-- The key under which a cluster of a yard's range counts the units of a class for a stall. -/
def unitKey (k : Yard) (l stall : Nat) (e : EnergyClass) : Nat := ((250 * k.val + l) * 65536 + stall) * 13 + e.num

/-- Counts units for a stall. -/
def Dp.countUnits (d : Dp) (k : Yard) (l stall : Nat) (work : List (EnergyClass × Nat)) : Dp :=
  { d with units := work.foldl (fun m w => Sparse.upd 0 m (unitKey k l stall w.1) (· + w.2)) d.units }

/-- The class of an element format in multiplication (R84): 0 the 4-bit class up to 3 FP32. -/
def macRank (f : Fmt) : Nat := if f.width ≤ 4 then 0 else if f.width ≤ 8 then 1 else if f.width ≤ 16 then 2 else 3

/-- The class in which a multiply-accumulate of two formats counts: that of the slower operand (R84, R339). -/
def macClass (a b : Fmt) : EnergyClass :=
  match Max.max (macRank a) (macRank b) with
  | 0 => .mac4
  | 1 => .mac8
  | 2 => .mac16
  | _ => .mac32

/-- A 32-bit value in memory. -/
def Dp.word (d : Dp) (key : Nat) : Word := BitVec.ofNat 32 (Bits.leNat (d.mem.readN key 4) 0 4)

/-- The word of a core's table store at a byte offset from its start (R114). -/
def Dp.tableWord (d : Dp) (core off : Nat) : Word := d.word (coreKey core (tableBase + off))

/-- Writes a plan's image into the table store of a physical core (R114, R115), zeros behind it. -/
def Dp.writeTable (d : Dp) (core : Nat) (image : List Byte) : Dp :=
  d.write (coreKey core tableBase) ((image ++ List.replicate (coreBytes - tableBase) 0#8).take (coreBytes - tableBase)) false

/-- Whether a byte's key lies in the table store of some core. -/
def inTableStore (key : Nat) : Bool := key < 2 ^ 32 && tableBase ≤ key % coreBytes

/-- Physical cores of the device, spare column included (R19). -/
def allCores : Nat := 8 * physClusters * 40

/-- Writes a plan's image into the table stores of some physical cores that are blank. -/
def Dp.putTables (d : Dp) (cores : List Nat) (image : List Byte) : Dp :=
  if image.all (· = 0#8) then d else cores.foldl (fun d core => d.writeTable core image) d

/-- Loads a plan's image into the table store of every physical core (R114): what stood there before is gone, and so are its errors. -/
def Dp.loadTables (d : Dp) (image : List Byte) : Dp :=
  { d with mem := d.mem.filter fun x => !inTableStore x.1
           poison := d.poison.filter fun u => !inTableStore (64 * u) }.putTables (List.range allCores) image

/-- 32-bit values from a key up. -/
def Dp.words (d : Dp) (key n : Nat) : List Word := (List.range n).map fun i => d.word (key + 4 * i)

/-- The bytes of 32-bit values. -/
def wordBytes (ws : List Word) : List Byte := ws.flatMap fun w => Bits.toLe w.toNat 4

/-! ### Event registers (R454, R455, R320) -/

/-- The registers that record events (R320). -/
inductive EvReg where
  | hub
  | site
  | ras
  | ldg
  | sec
  | cof
  | pwr
  | dbg
  | prs
  | arith (k : Yard)
  | mem (k : Yard)
  | kv (k : Yard)
  | yras (k : Yard)
  deriving DecidableEq, Repr

/-- The BAR0 offset of an event register (R470). -/
def EvReg.off : EvReg → Nat
  | .hub => 0x8
  | .site => 0xA04
  | .ras => 0xB00
  | .ldg => 0x200004
  | .sec => 0x300028
  | .cof => 0x400004
  | .pwr => 0x600004
  | .dbg => 0x700000
  | .prs => 0x1010004
  | .arith k => 0x800400 + k.val * 0x100000
  | .mem k => 0x800600 + k.val * 0x100000
  | .kv k => 0x800A08 + k.val * 0x100000
  | .yras k => 0x800E00 + k.val * 0x100000

/-- The register's present value. -/
def EventReg.word (e : EventReg) : Word := e.seq ++ e.bits

/-- The sequence number after one advance: 0xFFFF returns to 0x0001 (R454). -/
def nextSeq (q : BitVec 16) : BitVec 16 := if q = 0xFFFF#16 then 1#16 else q + 1#16

/-- An event (R454): the sequence number advances, the bits are set. -/
def EventReg.raise (e : EventReg) (bits : BitVec 16) : EventReg := { seq := nextSeq e.seq, bits := e.bits ||| bits }

/-- Whether a write-back is current (R13, R455): only bits [31:16] are compared. -/
def EventReg.current (e : EventReg) (v : Word) : Bool := v.extractLsb' 16 16 = e.seq

/-- A write-back (R455): it clears the bits when it names the present sequence number, and otherwise nothing. -/
def EventReg.writeBack (e : EventReg) (v : Word) : EventReg := if e.current v then { e with bits := 0#16 } else e

/-- Reads an event register. -/
def Ctl.ev (c : Ctl) : EvReg → EventReg
  | .hub => c.hub.event
  | .site => c.hub.siteEvent
  | .ras => c.hub.ras
  | .ldg => c.ldg.event
  | .sec => c.sec.event
  | .cof => c.cof.event
  | .pwr => c.pwr.event
  | .dbg => c.dbg.event
  | .prs => c.prs.event
  | .arith k => (c.yd k).arith
  | .mem k => (c.yd k).mem
  | .kv k => (c.yd k).kvEvent
  | .yras k => (c.yd k).ras

/-- Changes an event register. -/
def Ctl.setEv (c : Ctl) (r : EvReg) (e : EventReg) : Ctl :=
  match r with
  | .hub => c.onHub fun h => { h with event := e }
  | .site => c.onHub fun h => { h with siteEvent := e }
  | .ras => c.onHub fun h => { h with ras := e }
  | .ldg => c.onLdg fun h => { h with event := e }
  | .sec => c.onSec fun h => { h with event := e }
  | .cof => c.onCof fun h => { h with event := e }
  | .pwr => c.onPwr fun h => { h with event := e }
  | .dbg => c.onDbg fun h => { h with event := e }
  | .prs => c.onPrs fun h => { h with event := e }
  | .arith k => c.onYard k fun y => { y with arith := e }
  | .mem k => c.onYard k fun y => { y with mem := e }
  | .kv k => c.onYard k fun y => { y with kvEvent := e }
  | .yras k => c.onYard k fun y => { y with ras := e }

/-! ### Counters -/

/-- A saturating 64-bit sum (R435). -/
def sat64 (a b : Nat) : Nat := Bits.satAdd 64 a b

/-- Adds to a counter of a table. -/
def bump (l : List (Nat × Nat)) (i n : Nat) : List (Nat × Nat) := Sparse.upd 0 l i fun v => sat64 v n

/-- Adds to DBG_CNTi. -/
def Ctl.count (c : Ctl) (i n : Nat) : Ctl := c.onDbg fun d => { d with counts := bump d.counts i n }

/-- Adds to YRD_CNTi of a yard; breach counters 11-16 are 32 bits wide (16). -/
def Ctl.countYard (c : Ctl) (k : Yard) (i n : Nat) : Ctl :=
  c.onYard k fun y => { y with counts := Sparse.upd 0 y.counts i fun v => Bits.satAdd (if i < 11 then 64 else 32) v n }

/-- The management function: the physical function of the site that the persistent store named at the start (R310). -/
def Ctl.mgmt (c : Ctl) : BitVec 8 := BitVec.ofNat 8 c.hub.mgmtSite

/-- Whether a function number is the management function. -/
def Ctl.isMgmt (c : Ctl) (n : BitVec 8) : Bool := n = c.mgmt

/-- Sets a vector of a function pending (R320). -/
def Ctl.pendVector (c : Ctl) (n : BitVec 8) (v : Nat) : Ctl :=
  c.onFn n fun f => { f with irqPending := f.irqPending.add v }

/-! ### Snapshots (R436, R437) -/

/-- The counters of the management function's window that its holding set covers, by window offset (R436). -/
def Fn.counters (f : Fn) : List (Nat × Nat) :=
  [(0x30000, f.stalls), (0x30008, f.lent), (0x30100, f.qntClip), (0x30108, f.qntConv), (0x30200, f.tuneSteps),
    (0x30208, f.tuneSkipped), (0x30300, f.tokensIn), (0x30308, f.tokensOut), (0x30310, f.tallies), (0x30318, f.tallyEnergy),
    (0x30320, f.abandoned)] ++
  (List.finRange 4).map fun q => (0x10028 + 0x100 * q.val, (f.queue q).progress)

/-- The counters of the device set by BAR0 offset (R436): HUB, LDG, DBG and yard blocks, and the management function's own. -/
def Ctl.deviceCounters (c : Ctl) : List (Nat × Nat) :=
  [(0x28, c.hub.tick), (0x30, c.hub.long), (0x200018, c.ldg.metered), (0x200020, c.ldg.attributed),
    (0x200028, c.ldg.carry)] ++
  ((List.range 64).map fun i => (0x701000 + 8 * i, Sparse.get 0 c.dbg.counts i)) ++
  ((List.finRange 8).flatMap fun k =>
    (0x800C00 + k.val * 0x100000, (c.yd k).stale) ::
    (List.range 64).map fun i => (0x801000 + 8 * i + k.val * 0x100000, Sparse.get 0 (c.yd k).counts i)) ++
  ((c.fn? c.mgmt).map fun f => f.counters.map fun p => (0x2000000 + p.1, p.2)).getD []

/-- A snapshot of the device set: every covered counter is copied and the set's sequence number advances (R437). -/
def Ctl.snapDevice (c : Ctl) : Ctl :=
  { c with dbg := { c.dbg with hold := c.deviceCounters, snapSeq := (c.dbg.snapSeq + 1) % 2 ^ 32 } }

/-- A snapshot of a function's own set (R436). -/
def Ctl.snapFn (c : Ctl) (n : BitVec 8) : Ctl :=
  c.onFn n fun f => { f with holding := f.counters, snapSeq := (f.snapSeq + 1) % 2 ^ 32 }

/-! ### The journal (R443-R448) -/

/-- The record area J in bytes (R443). -/
def journalBytes : Nat := 67104768

/-- Whether a record overlaps a range of the record area. -/
def JRec.meets (r : JRec) (lo hi : Nat) : Bool := r.place < hi && lo < r.place + 16 * r.len

/-- Appends a record at the write position of the area `[base, base + limit)` that is open, with a PAD record where it does
not fit before the end (R443); whole records in the way are overwritten (R446). -/
def Dbg.putRing (d : Dbg) (r : JRec) : Dbg :=
  let n := 16 * r.len
  let wrap := journalBytes < d.pos + n
  let at0 := if wrap then 0 else d.pos
  let keep := d.recs.filter fun x => !(wrap && x.meets d.pos journalBytes) && !(x.meets at0 (at0 + n))
  let pad : List JRec :=
    if wrap && d.pos < journalBytes then
      [{ seq := d.seq, place := d.pos, typ := 0, len := Min.min 255 ((journalBytes - d.pos) / 16), source := 0xFFFF
         tick := r.tick, cycle := r.cycle, data0 := 0, body := [] }]
    else []
  { d with recs := keep ++ pad ++ [{ r with place := at0, seq := d.seq + pad.length }]
           pos := (at0 + n) % journalBytes, seq := d.seq + pad.length + 1 }

/-- The GAP record of refused records, kept current in the last 32 bytes of the share that is full (R446, R448). -/
def Dbg.putGap (d : Dbg) (tick cycle : Nat) : Dbg :=
  let first := d.refused = 0
  let n := d.refused + 1
  let ft := if first then tick else d.refusedTick
  let gap : JRec :=
    { seq := d.seq, place := (d.base + d.limit - 32) % journalBytes, typ := 0x0E, len := 2, source := 0x8FFF, tick := tick
      cycle := cycle, data0 := 0, body := Bits.toLe n 8 ++ Bits.toLe ft 8 }
  { d with refused := n, refusedTick := ft, seq := d.seq + 1, recs := (d.recs.filter (·.typ ≠ 0x0E)) ++ [gap] }

/-- The category bit of a record type (R444). -/
def categoryOf (typ : Nat) : Option Nat :=
  if typ = 1 then some 0 else if typ = 2 then some 1 else if typ = 3 ∨ typ = 4 then some 2 else if typ = 5 then some 3
  else if typ = 6 then some 4 else if typ = 7 ∨ typ = 8 then some 5 else if typ = 9 then some 6 else none

/-- Writes a journal record of an enabled category (R444), under the mode of the record area (R446, R448). States of
DBG_JNL_STATUS: 0 running, 1 post share filling, 2 post share closed, 3 stopped full. -/
def Ctl.journal (c : Ctl) (cfg : Cfg) (typ source cycle data0 : Nat) (body : List Byte) : Ctl :=
  match categoryOf typ with
  | none => c
  | some b =>
    if !(cfg.cat.getLsbD b) then c
    else
      let r : JRec :=
        { seq := c.dbg.seq, place := 0, typ := typ, len := 1 + Bits.ceilDiv body.length 16, source := source
          tick := c.hub.tick % 2 ^ 32, cycle := Min.min cycle (2 ^ 32 - 1), data0 := data0 % 2 ^ 32, body := body }
      let n := 16 * r.len
      let full := if c.dbg.state = 0 then cfg.mode = 1 && journalBytes < c.dbg.pos + n + 32
        else if c.dbg.state = 1 then c.dbg.limit < (c.dbg.pos + journalBytes - c.dbg.base) % journalBytes + n + 32
        else true
      if full then
        let d := c.dbg
        let e := if d.refused = 0 then d.event.raise 8#16 else d.event
        ({ c with dbg := ({ d with event := e, state := if d.state = 0 then 3 else if d.state = 1 then 2 else d.state }.putGap
            r.tick r.cycle) }).count 3 1
      else ({ c with dbg := c.dbg.putRing r }).count 1 1

/-- The word of NMX_EXP_CHECK. -/
def ExpCheck.word (x : ExpCheck) : Word :=
  x.seq ++ (if x.flag then 1#1 else 0#1) ++ BitVec.ofNat 3 x.last ++ BitVec.ofNat 12 x.count

/-- The value of every hub and yard event register in offset order (R447). -/
def Ctl.eventWords (c : Ctl) : List Word :=
  [c.hub.event.word, c.hub.siteEvent.word, c.hub.ras.word, c.ldg.event.word, c.sec.event.word, c.cof.event.word,
    c.pwr.event.word, c.dbg.event.word] ++
  ((List.finRange 8).flatMap fun k =>
    let y := c.yd k
    [y.arith.word, y.mem.word,
      y.checkA.word, y.checkB.word,
      y.kvEvent.word, y.ras.word]) ++ [c.prs.event.word]

/-- Fires the trigger with a cause (R447, R448): a device snapshot, the TRIGGER record and the event registers in the trigger
slot, and in triggered-window mode the frozen window and the post share. A trigger that has fired counts as ignored. -/
def Ctl.trigger (c : Ctl) (cfg : Cfg) (cause : Nat) : Ctl :=
  if !c.dbg.armed then c
  else if c.dbg.fired then c.count 6 1
  else
    let c := c.snapDevice
    let d := c.dbg
    let rec0 : List Byte :=
      [0x0F#8, 4#8] ++ Bits.toLe 0x8FFF 2 ++ Bits.toLe c.hub.tick 4 ++ Bits.toLe 0 4 ++ Bits.toLe cause 4 ++
        Bits.toLe cfg.trigArg.toNat 4 ++ Bits.toLe d.snapSeq 4 ++ List.replicate 40 0#8
    let slot := rec0 ++ wordBytes c.eventWords
    let p := 4096 * (journalBytes * cfg.pre / 65536)
    let frozen := d.recs.filter fun r => (d.pos + journalBytes - r.place) % journalBytes ≤ p && 16 * r.len ≤ p
    let d := { d with fired := true, slot := slot ++ List.replicate (4096 - slot.length) 0#8
                      event := d.event.raise 4#16 }
    let d := if cfg.mode = 2 then
        { d with recs := frozen, state := 1, base := d.pos, limit := journalBytes - p, refused := 0 }
      else d
    ({ c with dbg := d }).count 5 1

/-- What follows from an event at a register (R454): the count of advances (R435), the management function's vector under
DEVICE_EN (R320), the EVENT record (R444), and a trigger on an event bit (R447). `was` is what the bits were before. -/
def Ctl.announce (c : Ctl) (cfg : Cfg) (off : Nat) (e : Word) (was bits : BitVec 16) : Ctl :=
  let c := c.count 0 1
  let c := match c.fn? c.mgmt with
    | some f => if f.deviceEn then c.pendVector f.num f.eventVector else c
    | none => c
  let c := c.journal cfg 5 0x8FFF 0 off (Bits.toLe e.toNat 4 ++ List.replicate 12 0#8)
  let bit := Bits.field cfg.trigArg 3 0
  if cfg.trigSource = 4 && off / 4 = Bits.field cfg.trigArg 25 4 && bits.getLsbD bit && !was.getLsbD bit
  then c.trigger cfg 4 else c

/-- Raises an event (R454) and everything that follows from it, the in-band interrupt of PWR_EVENT (R480) among it. -/
def Ctl.raise (c : Ctl) (cfg : Cfg) (r : EvReg) (bits : BitVec 16) : Ctl :=
  let old := c.ev r
  let e := old.raise bits
  let c := (c.setEv r e).announce cfg r.off e.word old.bits bits
  if r = .pwr then c.onBus fun b => { b with ibis := BitVec.ofNat 8 e.bits.toNat :: b.ibis } else c

/-- An event of a function's own register FN_EVENT: a bit that rises makes EVENT_VECTOR pending (R320). -/
def Ctl.raiseFn (c : Ctl) (n : BitVec 8) (bits : BitVec 16) : Ctl :=
  c.onFn n fun f =>
    { f with event := f.event.raise bits
             irqPending := if f.eventEn && (bits &&& ~~~f.event.bits) ≠ 0#16 then f.irqPending.add f.eventVector
               else f.irqPending }

/-- A breach of the contract in a yard (R63, R64): counted in the yard's counter of its class, CONTRACT_BREACH in
YRD_RAS_EVENT, a BREACH record, and the trigger on its class. `overrun` is the cause OVERRUN of REFRESH_FORCED. -/
def Ctl.breach (c : Ctl) (cfg : Cfg) (k : Yard) (cls cycle : Nat) (overrun : Bool) : Ctl :=
  let c := c.countYard k (10 + cls) 1
  let c := c.raise cfg (.yras k) (1#16 <<< 14)
  let c := c.journal cfg 4 (k.val * 4096 + 0xFFF) cycle (cls + (if overrun then 16 else 0)) []
  if cfg.trigSource = 3 && cfg.trigClass = cls then c.trigger cfg 3 else c

/-- An event of NMX_EXP_CHECK (R193): the failed check, counted once per block. -/
def ExpCheck.fail (x : ExpCheck) (check : Nat) : ExpCheck :=
  { seq := nextSeq x.seq, flag := true, last := check, count := Bits.satAdd 12 x.count 1 }

/-- NMX_EXP_CHECK of a near stack. -/
def Yd.check (y : Yd) (near : Nat) : ExpCheck := if near = 0 then y.checkA else y.checkB

/-- Counts a failed check of R193 in NMX_EXP_CHECK of a near stack. -/
def Ctl.expFail (c : Ctl) (cfg : Cfg) (k : Yard) (near check : Nat) : Ctl :=
  let old := (c.yd k).check near
  let x := old.fail check
  let c := c.onYard k fun y => if near = 0 then { y with checkA := x } else { y with checkB := x }
  c.announce cfg (0x800800 + 0x40 * near + k.val * 0x100000) x.word (if old.flag then 0x8000#16 else 0#16) 0x8000#16

/-- Latches the first poison of a yard since YRD_MEM_EVENT was last cleared (YRD_POISON_ADDR). -/
def Ctl.latchPoison (c : Ctl) (k : Yard) (source addr : Nat) : Ctl :=
  c.onYard k fun y => { y with poisonAddr := y.poisonAddr.orElse fun _ => some (source, addr) }

/-- An operation on a yard that answers: one that is lost and held in reset takes no action (R463). -/
def Ctl.yardUp (c : Ctl) (k : Yard) : Bool := c.hub.yardsUp.getLsbD k.val && !(c.yd k).lost

/-- The microbatch whose pass has reached the layers of yard `k` (R29). -/
def Ctl.microIn (c : Ctl) (k : Yard) : Option Micro := c.fe.pipe.find? (·.yard = k.val)

/-- Whether a cluster's segment of the tick runs for the layers of yard `k` (R19, R42, R45, R66): ticks run, the device is not frozen (R450), the
yard answers, its microbatch has stalls, and the cluster has not reported done. -/
def Ctl.segment (c : Ctl) (k : Yard) (l : Nat) : Bool :=
  c.fe.ticking && !c.hub.halted && c.yardUp (c.home k) && ((c.microIn k).any fun m => !m.stalls.isEmpty) &&
    !(c.yd k).reports.clusters.contains l

/-- Whether an instruction of a cluster's segment issues (R40): never before its scheduled cycle. -/
def Ctl.issues (c : Ctl) (k : Yard) (l : Nat) (w : When) : Bool := c.segment k l && w.sched ≤ w.cycle

/-- The tick length of the selected plan in ACLK (R36). -/
def Ctl.tickLen (c : Ctl) : Nat := ((c.plan?.map (·.tickUnits)).getD 0) * 4096

/-- The pages of host IO address space that a range touches (R316). -/
def hostPages (addr n : Nat) : List Nat := (List.range ((addr + n + 4095) / 4096 - addr / 4096)).map (addr / 4096 + ·)

/-- The translations that an access uses, held in the cache of 4,096 entries, the least recently used going first (R316). -/
def Ctl.translate (c : Ctl) (n : BitVec 8) (pasid : Option (BitVec 20)) (addr len : Nat) : Ctl :=
  match c.fn? n with
  | some f =>
    if f.atsEn then
      let use : List Xlat := (hostPages addr len).map fun p => ⟨n, pasid, p⟩
      { c with xlats := (use ++ c.xlats.filter fun x => !use.contains x).take 4096 }
    else c
  | none => c

/-- A host write by the device (R315, R316). -/
def Ctl.hostWrite (c : Ctl) (n : BitVec 8) (pasid : Option (BitVec 20)) (addr : Nat) (bs : List Byte) : Ctl :=
  (c.translate n pasid addr bs.length).onBus fun b => { b with writes := ⟨n, pasid, addr, bs⟩ :: b.writes }

end Sys2Proof.Machine
end

