-- ==== Sys2Proof/Machine/Operands.lean ====
section
/-! DEFINITION. Operand forms of the engines: reading lanes and elements from core store and queues, rows of scaled blocks, writing results
with the rounding of R127, flags, clip counts, poison and tokens. -/

namespace Sys2Proof.Machine

open Sys2Proof

/-! ### Tokens of hardware queues (R161-R163) -/

/-- The key of queue `q` of a core. -/
def queueKey (core : Nat) (q : Fin 4) : Nat := 4 * core + q.val

/-- The number of a consumer among a core's three. -/
def consumerIndex : Consumer → Nat
  | .mxeA => 0
  | .mxeB => 1
  | .vxe => 2

/-- The key of a consumer's wait state. -/
def waitKey (core : Nat) (who : Consumer) : Nat := 3 * core + consumerIndex who

/-- The segment header's line for a queue of a cluster (R161); none where it names none. -/
def Ctl.queueLine (c : Ctl) (k : Yard) (l : Cluster) (q : Fin 4) : Option PlanQueue :=
  ((c.plan?.map (·.queues)).getD []).find? fun x => x.yard = k && x.cluster = l && x.queue = q

/-- What an instruction needs of one operand: its place, the consumer that takes it, and the byte runs it reads there. -/
structure Need where
  place : Place
  who : Consumer
  runs : List (Nat × Nat)
  deriving DecidableEq, Repr

/-- Where an operand stands: a place and the poison summary of its token, or what its consumer waits for. -/
inductive SrcAt where
  | place (l : Loc) (poison : Bool)
  | waits (w : Wait)
  deriving DecidableEq, Repr

/-- What a consumer of an operand waits for, if anything. -/
def SrcAt.wait? : SrcAt → Option Wait
  | .waits w => some w
  | .place _ _ => none

/-- Where an operand stands. -/
def SrcAt.loc : SrcAt → Loc
  | .place l _ => l
  | .waits _ => ⟨.core, 0⟩

/-- The poison summary of an operand's token. -/
def SrcAt.mark : SrcAt → Bool
  | .place _ p => p
  | .waits _ => false

/-- Where a need stands (R17, R162, R163): in core store, or within the area of a token of its queue, the one after the `skip` tokens that
earlier operands of the instruction take. A queue bound to another consumer holds no token for this one. -/
def Dp.needAt (d : Dp) (c : Ctl) (o : EngOp) (skip : Nat) (x : Need) : SrcAt :=
  match x.place.queue with
  | none => .place ⟨.core, x.place.off⟩ false
  | some q =>
    match (c.queueLine o.core.yard o.core.cluster q).filter (·.consumer = x.who) with
    | none => .waits .fetch
    | some _ =>
      match (Sparse.get [] d.queues (queueKey (c.core o.core) q)).drop skip with
      | [] => .waits .fetch
      | t :: _ => if t.arrived then .place ⟨t.store, t.off + x.place.off⟩ t.poison else .waits .mem

/-- Tokens of a need's queue that the needs before it release. -/
def skipOf (before : List Need) (x : Need) : Nat :=
  (before.filter fun y => y.place.release && y.place.queue.isSome && y.place.queue = x.place.queue).length

/-- Where each need of an instruction stands, in order. -/
def Dp.needsAt (d : Dp) (c : Ctl) (o : EngOp) (ns : List Need) : List SrcAt :=
  ns.mapIdx fun i x => d.needAt c o (skipOf (ns.take i) x) x

/-- Frees the head token of a queue once its instruction has read the block (R162). -/
def Dp.releaseToken (d : Dp) (core : Nat) (x : Place) : Dp :=
  match x.queue with
  | some q => if x.release then { d with queues := Sparse.upd [] d.queues (queueKey core q) List.tail } else d
  | none => d

/-- Records what a consumer waits for, and that its cluster saw such a wait in this tick (R163). -/
def Dp.setWait (d : Dp) (core : Nat) (who : Consumer) (w : Wait) : Dp :=
  { d with
    waits := Sparse.set Wait.none d.waits (waitKey core who) w
    waited := match w with
      | .none => d.waited
      | .fetch => d.waited.add (2 * (core / 40))
      | .mem => d.waited.add (2 * (core / 40) + 1) }

/-! ### Element codes (R80, R83, R100) -/

/-- Bytes that `n` elements of a format fill (R80). -/
def codeBytes (f : Fmt) (n : Nat) : Nat := Bits.ceilDiv (n * f.width) 8

/-- Element formats: every format of R72 but E8M0 (R73, R84). -/
def isElement (f : Fmt) : Bool := f != .e8m0

/-- The FP32 value of one element (R100): FP32, BF16 and FP16 patterns keep their NaN's sign, kind and payload, every other value is exact. -/
def widen (f : Fmt) (code : Nat) (scale : Byte) (z : Int) : Word :=
  match f with
  | .fp32 => BitVec.ofNat 32 code
  | .bf16 => BitVec.ofNat 32 (code * 2 ^ 16)
  | _ =>
    let x := elemNum f code scale z
    if x.isNan && f = .fp16 then
      BitVec.ofNat 32 ((code / 2 ^ 15) % 2 * 2 ^ 31 + 0x7F800000 + (code % 2 ^ 10) * 2 ^ 13)
    else if (f32.round .nearestEven x).beyond then Config.widenBeyond f.code code scale else (rne32 x).1

/-! ### Rows of scaled blocks (R149) -/

/-- Bytes of a block group: 64 scale bytes and 64 element fields (R149). -/
def groupBytes (f : Fmt) : Nat := 64 + 64 * codeBytes f 32

/-- Where the scale byte of block `b` of a row stands. -/
def scaleAt (f : Fmt) (b : Nat) : Nat := b / 64 * groupBytes f + b % 64

/-- Where the element field of block `b` of a row begins. -/
def fieldAt (f : Fmt) (b : Nat) : Nat := b / 64 * groupBytes f + 64 + b % 64 * codeBytes f 32

/-- The blocks that hold `n` elements from the start of block `b`. -/
def blocksFrom (b n : Nat) : List Nat := (List.range (Bits.ceilDiv n 32)).map (b + ·)

/-- The byte runs that `n` elements fill, by offset and length from the start of the row: one run, or for a scaled format the scale byte and
the element field of each block. -/
def elemRuns (f : Fmt) (block n : Nat) : List (Nat × Nat) :=
  if f.blockScaled then (blocksFrom block n).flatMap fun b => [(scaleAt f b, 1), (fieldAt f b, codeBytes f 32)]
  else [(0, codeBytes f n)]

/-- The codes of `n` elements that begin at a key. -/
def Dp.codes (d : Dp) (key : Nat) (f : Fmt) (n : Nat) : List Nat :=
  let w := codeBytes f n
  unpackBits f.width n (Bits.leNat (d.mem.readN key w) 0 w)

/-- The codes of `n` elements of a row with the scale byte of each; 0x7F where the format has no scale. -/
def Dp.scaledCodes (d : Dp) (key : Nat) (f : Fmt) (block n : Nat) : List (Nat × Byte) :=
  if f.blockScaled then
    ((blocksFrom block n).flatMap fun b =>
      (d.codes (key + fieldAt f b) f 32).map fun c => (c, d.mem.read (key + scaleAt f b))).take n
  else (d.codes key f n).map fun c => (c, 0x7F#8)

/-- Two's complement of 16 bits. -/
def signed16 (n : Nat) : Int := if n < 2 ^ 15 then n else (n : Int) - 2 ^ 16

/-- The zero point of an operand (R130): scalar, IN_ZP of the entry at a place (byte 14), or the row pair's (bytes 4 and 5). -/
def Dp.zeroOf (d : Dp) (core : Nat) (f : Fmt) (z : ZeroAt) (l : Loc) : Int :=
  match z with
  | .scalar z => z
  | .entry _ =>
    let b := d.mem.read (locKey core l + 14)
    if f = .uint8 then b.toNat else b.toInt
  | .row p => signed16 (Bits.leNat (d.mem.readN (coreKey core p + 4) 2) 0 2)

/-- What an operand of `n` elements needs: its own place, and the place of its zero point. -/
def srcNeeds (a : Src) (who : Consumer) (n : Nat) : List Need :=
  [⟨a.place, who, elemRuns a.fmt a.block n⟩,
    match a.zero with
    | .scalar _ => ⟨⟨0, none, false⟩, who, []⟩
    | .entry t => ⟨t, who, [(0, 16)]⟩
    | .row p => ⟨⟨p, none, false⟩, who, [(0, 8)]⟩]

/-- The elements of an operand as exact values (R86), from its place and its zero point's. -/
def Dp.elems (d : Dp) (core : Nat) (l lz : Loc) (a : Src) (n : Nat) : List FNum :=
  let z := d.zeroOf core a.fmt a.zero lz
  (d.scaledCodes (locKey core l) a.fmt a.block n).map fun x => elemNum a.fmt x.1 x.2 z

/-- The elements of an operand as FP32 lanes (R100). -/
def Dp.lanes (d : Dp) (core : Nat) (l lz : Loc) (a : Src) (n : Nat) : List Word :=
  let z := d.zeroOf core a.fmt a.zero lz
  (d.scaledCodes (locKey core l) a.fmt a.block n).map fun x => widen a.fmt x.1 x.2 z

/-- Whether the runs of a need lie inside their store. -/
def Need.fits (x : Need) (l : Loc) : Bool := x.runs.all fun r => locReadable ⟨l.store, l.off + r.1⟩ r.2

/-- Whether a need carries poison: its token, or a unit it reads (R170). -/
def Dp.needPoison (d : Dp) (core : Nat) (x : Need) (a : SrcAt) : Bool :=
  a.mark || x.runs.any fun r => d.poisoned (locKey core a.loc + r.1) r.2

/-! ### Flags, counts and rows -/

/-- ORs an operation's flags into the sticky flags of a core (R95). -/
def Dp.raiseFlags (d : Dp) (core : Nat) (e : Engine) (f : ArithFlags) : Dp :=
  { d with flags := Sparse.upd 0#8 d.flags core fun b => b ||| e.flagByte f }

/-- The mark of a poisoned row: the yard whose layers the instruction serves, its logical cluster, its stall. -/
def rowMark (k : Yard) (l : Cluster) (stall : Nat) : Nat := (250 * k.val + l.val) * 65536 + stall

/-- Marks the row of an instruction's stall as poisoned in its cluster (R170). -/
def Dp.poisonRow (d : Dp) (o : EngOp) (mark : Bool) : Dp :=
  if mark then { d with rowPoison := d.rowPoison.add (rowMark o.core.yard o.core.cluster o.tag.stall.toNat) } else d

/-- Counts clipped elements in the group of 64 output channels of their layer and cluster, 16 bits, saturating (R137). -/
def Dp.clip (d : Dp) (cluster layer chan n : Nat) : Dp :=
  { d with clips := Sparse.upd 0 d.clips ((cluster * 4096 + layer) * 65536 + chan / 64) fun v => Bits.satAdd 16 v n }

/-- Counts each clipped value of a run that begins at a channel. -/
def Dp.clipRun (d : Dp) (cluster layer chan : Nat) (cs : List Bool) : Dp :=
  (cs.mapIdx fun i b => (i, b)).foldl (fun d p => if p.2 then d.clip cluster layer (chan + p.1) 1 else d) d

/-- Adds to the converted totals of a stall in a cluster (R137, R138). -/
def Dp.convert (d : Dp) (yard : Yard) (cluster stall clipped elements : Nat) : Dp :=
  match d.converted.find? fun x => x.yard = yard && x.cluster = cluster && x.stall = stall with
  | some _ =>
    { d with converted := d.converted.map fun x =>
        if x.yard = yard && x.cluster = cluster && x.stall = stall
        then { x with clipped := x.clipped + clipped, elements := x.elements + elements } else x }
  | none => { d with converted := d.converted ++ [⟨yard, cluster, stall, clipped, elements⟩] }

/-! ### Writing results (R82, R102, R127) -/

/-- A converted run of values: bytes of codes, scale bytes, flags, and for each value whether it is clipped. -/
structure Written where
  codes : List Byte
  scales : List Byte
  fl : ArithFlags
  clipped : List Bool
  deriving DecidableEq, Repr

/-- The bytes of element codes. -/
def codesToBytes (f : Fmt) (codes : List Nat) : List Byte :=
  Bits.toLe (packBits f.width codes) (codeBytes f codes.length)

/-- Splits a list into runs of 32; the last may be short. -/
def chunks32 {α : Type} (xs : List α) : List (List α) :=
  (List.range (Bits.ceilDiv xs.length 32)).map fun i => (xs.drop (32 * i)).take 32

/-- One FP32 value as an integer code (R82, R129) under an FP32 scale; R129 states no code for a scale that is not positive and
normal. -/
def intOf (f : Fmt) (s : Word) (z : Int) (v : Word) : IntOut :=
  if s.toNat < 2 ^ 23 || 0x7F800000 ≤ s.toNat then ⟨Config.badScale f.code s z v, {}, false⟩
  else toIntCode f (num32 s) z (num32 v)

/-- Converts FP32 values into a stored format (R82, R127): block-scaled formats in blocks of 32 padded with +0 (R79). -/
def convertOut (f : Fmt) (s : Word) (z : Int) (vs : List Word) : Written :=
  match f with
  | .fp32 | .e8m0 => ⟨wordBytes vs, [], {}, vs.map fun _ => false⟩
  | .bf16 | .fp16 =>
    let ff := (f.float).getD f32
    let rs := vs.map fun v => toHalf ff (num32 v)
    ⟨codesToBytes f (rs.map (·.1.bits)), [], ArithFlags.orAll (rs.map (·.1.fl)), rs.map (·.2)⟩
  | .int8 | .int4 | .uint8 =>
    let rs := vs.map fun v => intOf f s z v
    ⟨codesToBytes f (rs.map fun r => f.wrap r.code), [], ArithFlags.orAll (rs.map (·.fl)), rs.map (·.clip)⟩
  | _ =>
    let bs := (chunks32 vs).map fun b =>
      toBlock f ((b ++ List.replicate (32 - b.length) 0#32).map num32)
    ⟨bs.flatMap (fun b => codesToBytes f b.codes), bs.map (·.scale), ArithFlags.orAll (bs.map (·.fl)),
      bs.flatMap (·.clipped)⟩

/-- The bytes that fill the unused blocks of a row's last group: scale 0x7F and +0 elements (R149). -/
def padRuns (f : Fmt) (block n : Nat) : List (Nat × List Byte) :=
  let e := block + Bits.ceilDiv n 32
  ((List.range (Bits.ceilDiv e 64 * 64 - e)).map (e + ·)).flatMap fun b =>
    [(scaleAt f b, [0x7F#8]), (fieldAt f b, List.replicate (codeBytes f 32) 0#8)]

/-- Where the bytes of a converted run of `n` values go, by offset in core store (R149). -/
def dstRuns (d : Dst) (n : Nat) (w : Written) : List (Nat × List Byte) :=
  if d.fmt.blockScaled then
    ((blocksFrom d.block n).mapIdx fun i b =>
      [(d.off + scaleAt d.fmt b, [w.scales.getD i 0x7F#8]),
        (d.off + fieldAt d.fmt b, (w.codes.drop (i * codeBytes d.fmt 32)).take (codeBytes d.fmt 32))]).flatten ++
      (if d.ends then (padRuns d.fmt d.block n).map fun r => (d.off + r.1, r.2) else [])
  else [(d.off, w.codes)]

/-- The core-store runs that `n` values fill, by offset and length. -/
def dstSpans (d : Dst) (n : Nat) : List (Nat × Nat) :=
  (elemRuns d.fmt d.block n).map (fun r => (d.off + r.1, r.2)) ++
    (if d.fmt.blockScaled && d.ends then (padRuns d.fmt d.block n).map fun r => (d.off + r.1, r.2.length) else [])

/-- Whether the destination of `n` values lies inside the writable core store. -/
def dstFits (d : Dst) (n : Nat) : Bool := (dstSpans d n).all fun r => locWritable ⟨.core, r.1⟩ r.2

/-- Writes runs of bytes to core store with one poison mark. -/
def Dp.writeRuns (d : Dp) (core : Nat) (rs : List (Nat × List Byte)) (mark : Bool) : Dp :=
  rs.foldl (fun d r => d.write (coreKey core r.1) r.2 mark) d

/-- Counts the conversion of a run of values (R137): its clipped elements, and for activation traffic the converted totals (R138). -/
def Dp.countConv (d : Dp) (core : Nat) (yard : Yard) (tag : RowTag) (f : Fmt) (clipped : List Bool) : Dp :=
  if f = .fp32 then d
  else (d.clipRun (core / 40) tag.layer.toNat tag.chan clipped).convert yard (core / 40) tag.stall.toNat
    (clipped.filter id).length clipped.length

/-- Writes a converted run to a core-store destination with its flags, its counts and its poison. -/
def Dp.putWritten (d : Dp) (core : Nat) (o : EngOp) (dst : Dst) (n : Nat) (w : Written) (mark : Bool) : Dp :=
  (((d.writeRuns core (dstRuns dst n w) mark).raiseFlags core .vxe w.fl).poisonRow o mark).countConv core o.core.yard o.tag dst.fmt
    (w.clipped.take n)

/-- Writes values to a core-store destination (R100, R127). -/
def Dp.put (d : Dp) (core : Nat) (o : EngOp) (dst : Dst) (vs : List Word) (mark : Bool) : Dp :=
  d.putWritten core o dst vs.length (convertOut dst.fmt dst.scale dst.zero vs) mark

/-- A destination of FP32 values at a core-store offset. -/
def rawDst (off : Nat) : Dst := ⟨off, .fp32, 0, false, 0#32, 0⟩

/-! ### One shared operation for engine instructions -/

/-- `n` free bytes. -/
def freeBytes (at0 n : Nat) : List Byte := (List.range n).map fun i => Config.freeByte (at0 + i)

/-- Fault mode (R379): an instruction computes nothing, and what it stores carries poison. -/
def Dp.faultMode (d : Dp) (o : EngOp) (dests : List (Nat × Nat)) : Dp :=
  (dests.foldl (fun d r => { (d.write r.1 (freeBytes d.drawn r.2) true) with drawn := d.drawn + r.2 }) d).poisonRow o true

/-- The sequencer of a logical cluster, of the yard that runs the layers of yard `k` (R35). -/
def Ctl.seq (c : Ctl) (k : Yard) (l : Nat) : Seq := ((c.yd (c.home k)).seqs.find? (·.1 = l)).map (·.2) |>.getD {}

/-- Where a core's destination runs lie. -/
def spanKeys (core : Nat) (d : Dst) (n : Nat) : List (Nat × Nat) := (dstSpans d n).map fun r => (coreKey core r.1, r.2)

/-- Runs an engine instruction: outside its cluster's segment or before its scheduled cycle none issues (R19, R40); it waits where a queue
head has no data (R163), stops where an operand lies outside its store or has no element format, marks poison alone in fault mode (R379), and
otherwise runs `f` on the places of its needs and their poison, counts the units of `work` for its stall (R339), and frees their tokens. -/
def runEngine (s : State) (o : EngOp) (needs : List Need) (formats inside : Bool) (dests : List (Nat × Nat)) (work : List (EnergyClass × Nat))
    (f : Nat → List Loc → Bool → Dp → Dp) : Host.Outcome State Fault Refusal :=
  if !s.ctl.issues o.core.yard o.core.cluster.val o.at0 then .next s else
  let core := s.ctl.core o.core
  let ats := s.dp.needsAt s.ctl o needs
  match (needs.zip ats).findSome? fun a => (a.2.wait?).map fun w => (a.1.who, w) with
  | some w => .next { s with dp := s.dp.setWait core w.1 w.2 }
  | none =>
    if !formats then .fault .badFormat
    else if !inside || (needs.zip ats).any fun a => !a.1.fits a.2.loc then .fault .noSuchAddress
    else
      let d := needs.foldl (fun d x => d.setWait core x.who Wait.none) s.dp
      let mark := (needs.zip ats).any fun a => d.needPoison core a.1 a.2
      let ran := if (s.ctl.seq o.core.yard o.core.cluster.val).faulty then d.faultMode o dests
        else (f core (ats.map (·.loc)) mark d).countUnits o.core.yard o.core.cluster.val o.tag.stall.toNat work
      .next { s with dp := (needs.foldl (fun d x => d.releaseToken core x.place) ran).retireInstr o.core.yard o.core.cluster }

/-- The place of need `i` of an instruction. -/
def locOf (ls : List Loc) (i : Nat) : Loc := ls.getD i ⟨.core, 0⟩

end Sys2Proof.Machine
end

