-- ==== Sys2Proof/Machine/Packet.lean ====
section
/-! DEFINITION. Ndefoli packets as the 64 bytes that a submission queue holds (R277, R285): which bytes each opcode uses, the reserved ones, and
the command that a packet's bytes are. -/

namespace Sys2Proof.Machine

open Sys2Proof

/-- What an opcode makes of the parameter bytes 8 to 59 (R285): the byte runs that it uses, and for bytes that hold bits alone the bits that it
defines. -/
structure PktLayout where
  used : List (Nat × Nat)
  bits : List (Nat × Nat)
  deriving DecidableEq, Repr

/-- The opcode table (R285); `flag` is bit 1 of byte 8, TABLES_ONLY of IMAGE_ACTIVATE. None: an opcode that is not defined. -/
def pktLayout (opcode : Nat) (flag : Bool) : Option PktLayout :=
  match opcode with
  | 0x10 => some ⟨[(8, 16), (24, 4), (28, 12), (40, 4), (44, 4), (48, 1)], []⟩
  | 0x11 => some ⟨[(8, 12), (20, 4)], [(24, 1)]⟩
  | 0x12 => some ⟨[(8, 52)], []⟩
  | 0x13 => some ⟨[(8, 12), (20, 4)], []⟩
  | 0x14 => some ⟨[], []⟩
  | 0x18 => some ⟨[(8, 12), (20, 4)], []⟩
  | 0x19 => some ⟨[(8, 12), (20, 4)], []⟩
  | 0x20 => some ⟨[(8, 12), (20, 4)], []⟩
  | 0x21 => some ⟨[(8, 12), (20, 4)], []⟩
  | 0x22 => some ⟨[(8, 12), (20, 12), (32, 4), (36, 4)], []⟩
  | 0x23 => some ⟨[], []⟩
  | 0x30 => some ⟨[], []⟩
  | 0x31 => some ⟨[], []⟩
  | 0x32 => some ⟨[], []⟩
  | 0x33 => some ⟨[(8, 12)], []⟩
  | 0x40 => some ⟨[(8, 12), (20, 12), (32, 12), (44, 4)], []⟩
  | 0x41 => some ⟨if flag then [(12, 12), (24, 4)] else [], [(8, 3)]⟩
  | 0x42 => some ⟨[], []⟩
  | 0x50 => some ⟨[(8, 16), (24, 4), (28, 12), (40, 2), (44, 16)], []⟩
  | 0x51 => some ⟨[(8, 12), (20, 4), (24, 4)], []⟩
  | 0x52 => some ⟨[(8, 16)], []⟩
  | 0x53 => some ⟨[], []⟩
  | 0x60 => some ⟨[(8, 1), (9, 1), (12, 12)], []⟩
  | 0x61 => some ⟨[(8, 1)], []⟩
  | 0x70 => some ⟨[(8, 4)], []⟩
  | 0x71 => some ⟨[(8, 4)], []⟩
  | 0x78 => some ⟨[], []⟩
  | 0x7F => some ⟨[], [(8, 31)]⟩
  | 0x80 => some ⟨[(8, 1), (12, 4)], [(9, 1)]⟩
  | 0x81 => some ⟨[(8, 1), (12, 12)], []⟩
  | 0x82 => some ⟨[(8, 1), (10, 2), (12, 4), (16, 8)], []⟩
  | 0x88 => some ⟨[(8, 12), (20, 4)], []⟩
  | 0x89 => some ⟨[], []⟩
  | 0x90 => some ⟨[(8, 4), (12, 12), (24, 4)], []⟩
  | 0x91 => some ⟨[(8, 4)], []⟩
  | _ => none

/-- The bits of a packet's byte that an opcode gives a meaning; those of bytes 0 to 7 stand in every packet (R277). -/
def PktLayout.defined (l : PktLayout) (i : Nat) : Nat :=
  if i < 8 then (if i = 1 then 1 else 255)
  else if l.used.any fun r => r.1 ≤ i && i < r.1 + r.2 then 255
  else ((l.bits.find? (·.1 = i)).map (·.2)).getD 0

/-- Whether a reserved bit or byte of a packet is not zero (R10, R278 check 3). -/
def PktLayout.dirty (l : PktLayout) (bs : List Byte) : Bool :=
  (List.range 64).any fun i => (bs.getD i 0#8).toNat &&& (255 - l.defined i) ≠ 0

/-- A region parameter: a handle and a 64-bit offset (R285). -/
def regionAt (bs : List Byte) (off : Nat) : RegionRef := ⟨BitVec.ofNat 32 (Bits.leNat bs off 4), Bits.leNat bs (off + 4) 8⟩

/-- A 32-bit parameter. -/
def wordAt (bs : List Byte) (off : Nat) : Word := BitVec.ofNat 32 (Bits.leNat bs off 4)

/-- A name of sixteen bytes. -/
def nameAt (bs : List Byte) (off : Nat) : BitVec 128 := BitVec.ofNat 128 (Bits.leNat bs off 16)

/-- What the reads and writes of host memory that a packet calls for give (R278). -/
structure HostData where
  tokens : HostRead (List Word)
  graph : HostRead (Option GraphBody)
  patch : HostRead (Option GraphPatch)
  bytes : HostRead (List Byte)
  examples : HostRead (List Example)
  planName : HostRead (Option (BitVec 128))
  write : HostRead Unit
  found : List TestFault
  deriving DecidableEq, Repr

/-- The fields that every packet carries (R277). -/
def pktOf (fn : BitVec 8) (q : Fin 4) (l : PktLayout) (bs : List Byte) : Pkt :=
  { fn := fn, q := q, tag := BitVec.ofNat 16 (Bits.leNat bs 2 2), irq := (bs.getD 1 0#8).getLsbD 0, subject := wordAt bs 4, rsvd := l.dirty bs }

/-- The command of a defined opcode (R285). -/
def pktCommand (p : Pkt) (bs : List Byte) (h : HostData) : Option Instr :=
  let n (off len : Nat) : Nat := Bits.leNat bs off len
  let r := regionAt bs
  let w := wordAt bs
  let b (i : Nat) : Byte := bs.getD i 0#8
  match n 0 1 with
  | 0x10 => some (.sessionOpen p (nameAt bs 8) (w 24) (r 28) (n 40 4) (n 44 4) (b 48))
  | 0x11 => some (.sessionAppend p (r 8) (n 20 4) ((b 24).getLsbD 0) h.tokens)
  | 0x12 => some (.sessionGenerate p (n 8 4) (w 12) (w 16) (n 20 2) (n 22 1) ((List.range 8).map fun i => w (24 + 4 * i)) (w 56))
  | 0x13 => some (.sessionFork p (r 8) (n 20 4))
  | 0x14 => some (.sessionClose p)
  | 0x18 => some (.prefixPin p (r 8) (n 20 4) h.tokens)
  | 0x19 => some (.prefixUnpin p (r 8) (n 20 4) h.tokens)
  | 0x20 => some (.graphStore p (r 8) (n 20 4) h.graph)
  | 0x21 => some (.graphPatch p (r 8) (n 20 4) h.patch)
  | 0x22 => some (.graphLaunch p (r 8) (r 20) (w 32) (n 36 4))
  | 0x23 => some (.graphDrop p)
  | 0x30 => some (.jobSuspend p)
  | 0x31 => some (.jobResume p)
  | 0x32 => some (.jobCancel p)
  | 0x33 => some (.jobQuery p (r 8) h.write)
  | 0x40 => some (.imageInstall p (r 8) (r 20) (r 32) (n 44 4) h.bytes)
  | 0x41 => some (.imageActivate p ((b 8).getLsbD 0) ((b 8).getLsbD 1) (r 12) (n 24 4) h.bytes)
  | 0x42 => some (.imageRetire p)
  | 0x50 => some (.tuneOpen p (nameAt bs 8) (w 24) (r 28) (n 40 2) (w 44) (w 48) (w 52) (w 56) h.bytes)
  | 0x51 => some (.tuneStep p (r 8) (n 20 4) (w 24) h.examples)
  | 0x52 => some (.tuneSave p (nameAt bs 8))
  | 0x53 => some (.tuneClose p)
  | 0x60 => some (.selftest p (b 8) (n 9 1) (r 12) h.found)
  | 0x61 => some (.marginReplan p (b 8))
  | 0x70 => some (.markBegin p (w 8))
  | 0x71 => some (.markEnd p (w 8))
  | 0x78 => some (.counterSnapshot p)
  | 0x7F => some (.fence p ((b 8).extractLsb' 0 4) ((b 8).getLsbD 4))
  | 0x80 => some (.fnCreate p (n 8 1) ((b 9).getLsbD 0) (n 12 4))
  | 0x81 => some (.fnDestroy p (n 8 1) (r 12))
  | 0x82 => some (.fnSetShare p (n 8 1) (n 10 2) (n 12 4) (n 16 8))
  | 0x88 => some (.planLoad p (r 8) (n 20 4) h.planName)
  | 0x89 => some (.planSelect p)
  | 0x90 => some (.folioGet p (n 8 4) (r 12) (n 24 4) h.write)
  | 0x91 => some (.ledgerConfig p (n 8 4))
  | _ => none

/-- The command that a fetched packet's 64 bytes are (R277, R278 check 1, R285); none where the opcode is not defined. -/
def packetCommand (fn : BitVec 8) (q : Fin 4) (bs : List Byte) (h : HostData) : Option Instr :=
  (pktLayout (Bits.leNat bs 0 1) ((bs.getD 8 0#8).getLsbD 1)).bind fun l => pktCommand (pktOf fn q l bs) bs h

/-- What a completion needs of a packet whose opcode is not defined. -/
structure UndefPkt where
  tag : BitVec 16
  irq : Bool
  deriving DecidableEq, Repr

/-- The packets of undefined opcodes among those that a fetch meets, in order (R278 check 1). -/
def undefOf (fetched : List (List Byte)) : List UndefPkt :=
  (fetched.filter fun bs => (pktLayout (Bits.leNat bs 0 1) false).isNone).map fun bs =>
    ⟨BitVec.ofNat 16 (Bits.leNat bs 2 2), (bs.getD 1 0#8).getLsbD 0⟩

end Sys2Proof.Machine
end

