-- ==== Sys2Proof/Machine/Queues.lean ====
section
/-! DEFINITION. Command queues (10): status codes, handles, completion records and the holding area, the checks that every
packet passes, fences, and the register actions of a queue. -/

namespace Sys2Proof.Machine

open Sys2Proof

/-! ### Status codes (R281) -/

namespace Status

def success : BitVec 16 := 0x0000#16
def jobAccepted : BitVec 16 := 0x0001#16
def genStop : BitVec 16 := 0x0002#16
def genLimit : BitVec 16 := 0x0003#16
def noEffect : BitVec 16 := 0x0004#16
def badOpcode : BitVec 16 := 0x0100#16
def badHandle : BitVec 16 := 0x0101#16
def badParameter : BitVec 16 := 0x0102#16
def permission : BitVec 16 := 0x0103#16
def badState : BitVec 16 := 0x0104#16
def translation : BitVec 16 := 0x0105#16
def noSpace : BitVec 16 := 0x0200#16
def awaitSpace : BitVec 16 := 0x0201#16
def queueFull : BitVec 16 := 0x0202#16
def noSpare : BitVec 16 := 0x0203#16
def imageDamaged : BitVec 16 := 0x0300#16
def uncorrectable : BitVec 16 := 0x0301#16
def selftestFailed : BitVec 16 := 0x0302#16
def cancelled : BitVec 16 := 0x0400#16
def epochReplaced : BitVec 16 := 0x0401#16
def functionReset : BitVec 16 := 0x0402#16
def abandoned : BitVec 16 := 0x0403#16
def planSwitch : BitVec 16 := 0x0404#16
def queueReset : BitVec 16 := 0x0405#16

end Status

/-! ### Handles (R282, R283) -/

/-- The type byte of a handle (R282). -/
def ObjKind.code : ObjKind → Nat
  | .session => 0x01
  | .region => 0x02
  | .graph => 0x03
  | .job => 0x04
  | .image => 0x05
  | .adapter => 0x06
  | .plan => 0x08

/-- The handle of an index. -/
def handleOf (k : ObjKind) (ix : Nat) : Handle := BitVec.ofNat 32 (k.code * 2 ^ 24 + ix)

/-- The index of a handle. -/
def ixOf (h : Handle) : Nat := h.toNat % 2 ^ 24

/-- The object that a handle names in a function's table, if it is live and of the kind (R278 check 4). -/
def Fn.object (f : Fn) (k : ObjKind) (h : Handle) : Option Nat :=
  if h.toNat / 2 ^ 24 = k.code then (f.handles.find? fun e => e.1 = ixOf h && e.2.1 = k).map (·.2.2) else none

/-- A handle issued for an object: a fresh index while any is left, then the one freed longest ago (R283); none where the table
is full. -/
def Fn.issue (f : Fn) (k : ObjKind) (key : Nat) : Option (Nat × Fn) :=
  if f.handles.length + 1 ≥ f.quota then none
  else if f.nextIx < f.quota then
    some (f.nextIx, { f with nextIx := f.nextIx + 1, handles := f.handles ++ [(f.nextIx, k, key)] })
  else
    match f.freed with
    | [] => none
    | ix :: rest => some (ix, { f with freed := rest, handles := f.handles ++ [(ix, k, key)] })

/-- Frees the handle of an index. -/
def Fn.free (f : Fn) (ix : Nat) : Fn :=
  if f.handles.any (·.1 = ix) then
    { f with handles := f.handles.filter (·.1 ≠ ix), freed := f.freed ++ [ix] }
  else f

/-- The index at which a handle of an object stands. -/
def Fn.ixOfKey (f : Fn) (k : ObjKind) (key : Nat) : Option Nat :=
  (f.handles.find? fun e => e.2.1 = k && e.2.2 = key).map (·.1)

/-! ### Writing records (R274, R279, R302-R304) -/

/-- A site. -/
def Ctl.site (c : Ctl) (i : Nat) : Site := if i = 0 then c.hub.siteA else c.hub.siteB

/-- Applies a change to a site. -/
def Ctl.onSite (c : Ctl) (i : Nat) (f : Site → Site) : Ctl :=
  c.onHub fun h => if i = 0 then { h with siteA := f h.siteA } else { h with siteB := f h.siteB }

/-- Applies a change to a queue of a function. -/
def Ctl.onQueue (c : Ctl) (n : BitVec 8) (q : Fin 4) (f : Queue → Queue) : Ctl :=
  c.onFn n fun x => { x with queues := x.queues.mapIdx fun i y => if i = q.val then f y else y }

/-- A queue. -/
def Ctl.queueOf (c : Ctl) (n : BitVec 8) (q : Fin 4) : Queue := ((c.fn? n).map (·.queue q)).getD {}

/-- Entries of a ring. -/
def ringSize (log : Nat) : Nat := 2 ^ log

/-- The 32 bytes of a record (R279). -/
def recordOut (r : Rec) (phase held : Bool) : List Byte :=
  let t := r.tally.getD (0, 0, 0)
  let info := (if phase then 1 else 0) + (if held then 2 else 0) + (if r.tally.isNone then 4 else 0)
  Bits.toLe r.tag.toNat 2 ++ Bits.toLe r.status.toNat 2 ++ Bits.toLe r.handle.toNat 4 ++ Bits.toLe r.tick 5 ++
    [BitVec.ofNat 8 info] ++ Bits.toLe t.1 6 ++ Bits.toLe t.2.1 4 ++ Bits.toLe (Min.min t.2.2 (2 ^ 48 - 1)) 6 ++
    Bits.toLe r.result 2

/-- Whether a queue's writer could write one more record now, leaving held ones aside (R274, R302): no write that would need a PASID which the
function's capability does not enable is made (R315). -/
def Ctl.writerOpen (c : Ctl) (f : Fn) (q : Fin 4) : Bool :=
  let x := f.queue q
  x.enabled && !x.stopped && f.st = .active && (c.site f.site).link = .active && (!x.pasidEn || f.pasidCap) &&
    (x.cqTail + 1) % ringSize x.cqLog != x.head

/-- Frees a job whose final record is delivered (R282). -/
def Ctl.deliver (c : Ctl) (n : BitVec 8) (r : Rec) : Ctl :=
  match r.job with
  | none => c
  | some ix =>
    let mine (j : Job) : Bool := j.cmd.fn = n && j.ix = ix
    (c.onFn n fun f => f.free ix).onObjs fun o =>
      { o with jobs := o.jobs.filter fun j => !mine j, delivered := (o.jobs.filter mine ++ o.delivered).take 65536 }

/-- A record that goes back to the holding area is not delivered: its job and the job's handle stand again, where the index has not been issued
anew (R282, R303). -/
def Ctl.undeliver (c : Ctl) (n : BitVec 8) (r : Rec) : Ctl :=
  match r.job with
  | none => c
  | some ix =>
    match c.objs.delivered.find? fun j => j.cmd.fn = n && j.ix = ix, c.fn? n with
    | some j, some f =>
      if f.handles.any (·.1 = ix) then c
      else
        let c := c.onFn n fun f => { f with handles := f.handles ++ [(ix, .job, ix)], freed := f.freed.filter (· ≠ ix) }
        c.onObjs fun o => { o with jobs := o.jobs ++ [j], delivered := o.delivered.filter fun x => !(x.cmd.fn = n && x.ix = ix) }
    | _, _ => c

/-- Writes a record into the next completion slot (R274, R276, R320). -/
def Ctl.writeRec (c : Ctl) (f : Fn) (q : Fin 4) (r : Rec) (held : Bool) : Ctl :=
  let x := f.queue q
  let c := c.hostWrite f.num (if x.pasidEn then some x.pasid else none) (x.cqBase + 32 * x.cqTail) (recordOut r x.phase held)
  let c := c.onQueue f.num q fun y =>
    { y with cqTail := (y.cqTail + 1) % ringSize y.cqLog
             phase := if y.cqTail + 1 = ringSize y.cqLog then !y.phase else y.phase
             recent := (r :: y.recent).take (ringSize y.cqLog) }
  let c := if r.irq && r.final then c.pendVector f.num x.vector else c
  c.deliver f.num r

/-- Every record of a function that is not written yet: those in its holding area, and those kept with their commands (R302, R304). -/
def Fn.unwritten (f : Fn) : Nat := (f.queues.map (·.held.length)).sum

/-- Records in a function's holding area (R302, FN_TAB_HELDn). -/
def Fn.heldCount (f : Fn) : Nat := f.unwritten - f.unheld.length

/-- Records of a queue in the holding area (Q_STATUS.HELD). -/
def Fn.heldOf (f : Fn) (q : Fin 4) : Nat := (f.queue q).held.length - f.unheld.count q

/-- Fills the holding area as far as it has room with the records kept with their commands, the first decided first (R304). -/
def Fn.fillArea (f : Fn) : Fn :=
  let kept := f.unheld.reverse.foldl (fun acc q => if acc.count q < (f.queue q).held.length then q :: acc else acc) []
  { f with unheld := kept.drop (1024 - (f.unwritten - kept.length)) }

/-- Writes held records of a queue in order while its writer is open (R302). -/
def Ctl.drainN (c : Ctl) (n : BitVec 8) (q : Fin 4) : Nat → Ctl
  | 0 => c
  | k + 1 =>
    match c.fn? n with
    | none => c
    | some f =>
      match (f.queue q).held with
      | [] => c
      | r :: rest =>
        if c.writerOpen f q then
          ((c.writeRec f q r true).onQueue n q fun y => { y with held := rest }).drainN n q k
        else c

/-- Clears HOLD_FULL of a function's queues once its holding area has room (R304). -/
def Ctl.relax (c : Ctl) (n : BitVec 8) : Ctl :=
  c.onFn n fun f =>
    let f := f.fillArea
    if f.heldCount < 1024 then { f with queues := f.queues.map fun y => { y with holdFull := false } } else f

/-- Writes what a queue holds, as far as it may. -/
def Ctl.drain (c : Ctl) (n : BitVec 8) (q : Fin 4) : Ctl :=
  (c.drainN n q (c.queueOf n q).held.length).relax n

/-- Writes what every queue of a function holds. -/
def Ctl.drainAll (c : Ctl) (n : BitVec 8) : Ctl := (List.finRange 4).foldl (fun c q => c.drain n q) c

/-- Posts a record: into the ring, or into the holding area (R302); with the area full the record is kept with its command and its queue stops
fetching (R304). -/
def Ctl.post (c : Ctl) (n : BitVec 8) (q : Fin 4) (r : Rec) : Ctl :=
  match c.fn? n with
  | none => c
  | some f =>
    if c.writerOpen f q && (f.queue q).held.isEmpty then c.writeRec f q r false
    else
      (c.onQueue n q fun y => { y with held := y.held ++ [r], holdFull := y.holdFull || 1024 ≤ f.heldCount }).onFn n fun g =>
        { g with unheld := if 1024 ≤ f.heldCount then g.unheld ++ [q] else g.unheld }

/-- Posts a packet's record; one that was fetched before its queue's last reset has none any more (R305). -/
def Ctl.postFor (c : Ctl) (m : Cmd) (r : Rec) : Ctl :=
  if m.order < (c.queueOf m.fn m.q).since then c.deliver m.fn r else c.post m.fn m.q r

/-- Decides the final status of a packet: its record, the queue's progress (R279, R300). -/
def Ctl.decide (c : Ctl) (m : Cmd) (status : BitVec 16) (handle : Handle) (result : Nat) (tally : Option (Nat × Nat × Nat))
    (job : Option Nat) : Ctl :=
  let c := c.onFn m.fn fun f => { f with opens := f.opens.filter (·.1 ≠ m.order) }
  let c := c.onQueue m.fn m.q fun y => { y with progress := sat64 y.progress 1 }
  c.postFor m
    { tag := m.tag, status := status, handle := handle, tick := c.hub.tick, tally := tally, result := result, irq := m.irq
      final := true, job := job }

/-- Whether a fence has nothing left to wait for (R301). -/
def Fn.fenceMet (f : Fn) (order : Nat) (mask : BitVec 4) (jobs : Bool) : Bool :=
  f.opens.all fun e => !(e.1 < order && mask.getLsbD e.2.1.val && (jobs || !e.2.2))

/-- Completes the fences of a function that have nothing left to wait for, in the order of fetching. -/
def Ctl.settle (c : Ctl) (n : BitVec 8) : Ctl :=
  c.objs.waiting.foldl (fun c w =>
    match w.what, c.fn? n with
    | .fence mask jobs, some f =>
      if w.cmd.fn = n && f.fenceMet w.cmd.order mask jobs then
        let c := c.onObjs fun o => { o with waiting := o.waiting.filter fun x => x.cmd.order ≠ w.cmd.order }
        let c := c.onQueue n w.cmd.q fun y => { y with fences := y.fences.filter (· ≠ w.cmd.order) }
        c.decide w.cmd Status.success 0#32 0 none none
      else c
    | _, _ => c) c

/-- The final record of a command without a tally, and the fences it completes. -/
def Ctl.finish (c : Ctl) (m : Cmd) (status : BitVec 16) (handle : Handle) (result : Nat) : Ctl :=
  (c.decide m status handle result none none).settle m.fn

/-- An interim record (R280); JOB_ACCEPTED counts for fences without JOBS. -/
def Ctl.interim (c : Ctl) (m : Cmd) (status : BitVec 16) (ix : Nat) : Ctl :=
  let c := c.postFor m
    { tag := m.tag, status := status, handle := handleOf .job ix, tick := c.hub.tick, tally := none, result := 0, irq := m.irq
      final := false, job := none }
  if status = Status.jobAccepted then
    (c.onFn m.fn fun f =>
      { f with opens := f.opens.map fun e => if e.1 = m.order then (e.1, e.2.1, true) else e }).settle m.fn
  else c

/-! ### Fetching and the checks of R278 -/

/-- Whether a queue has a packet that the device may fetch now (R273, R301, R303, R304, R315, R327, R330). -/
def Ctl.mayFetch (c : Ctl) (f : Fn) (q : Fin 4) : Bool :=
  let x := f.queue q
  x.enabled && !x.sqFault && !x.holdFull && !x.resetting && x.fetch != x.tail && x.fences.isEmpty && f.fetched < 4096 &&
    f.st = .active && (c.site f.site).link = .active && c.sec.st = .running && (!x.pasidEn || f.pasidCap)

/-- Whether the device fetches from this queue next: it may, and no queue of higher priority may (R273). -/
def Ctl.fetchable (c : Ctl) (f : Fn) (q : Fin 4) : Bool :=
  c.mayFetch f q && (List.finRange 4).all fun p => q.val ≤ p.val || !c.mayFetch f p

/-- Takes a packet from the submission ring. -/
def Ctl.fetch (c : Ctl) (n : BitVec 8) (q : Fin 4) : Ctl :=
  let order := c.objs.orders
  let y := c.queueOf n q
  let c := c.translate n (if y.pasidEn then some y.pasid else none) (y.sqBase + 64 * y.fetch) 64
  let c := c.onObjs fun o => { o with orders := o.orders + 1 }
  let c := c.onFn n fun f => { f with fetched := f.fetched + 1, opens := f.opens ++ [(order, q, false)] }
  c.onQueue n q fun y => { y with fetch := (y.fetch + 1) % ringSize y.sqLog }

/-- The first failing check of a list, as a status. -/
def firstFail (l : List (Bool × BitVec 16)) : Option (BitVec 16) := (l.find? fun x => !x.1).map (·.2)

/-- Who may send an opcode. -/
inductive Right where
  | any
  | health
  | management
  deriving DecidableEq, Repr

/-- Whether a function has a right (R278 check 2, R285). -/
def Ctl.holds (c : Ctl) (f : Fn) (r : Right) : Bool :=
  match r with
  | .any => true
  | .health => c.isMgmt f.num || f.health
  | .management => c.isMgmt f.num

/-- Runs a packet (R278): fetched, checked for its right, its reserved bits and the further checks in their order, and then
given its effect. A packet that the device does not fetch changes nothing. -/
def Ctl.packet (c : Ctl) (p : Pkt) (right : Right) (noSubject : Bool) (checks : Fn → List (Bool × BitVec 16))
    (effect : Ctl → Fn → Cmd → Ctl) : Ctl :=
  match c.fn? p.fn with
  | none => c
  | some f =>
    if !c.fetchable f p.q then c
    else
      let m : Cmd := ⟨p.fn, p.q, p.tag, p.irq, c.objs.orders⟩
      let d := c.fetch p.fn p.q
      match firstFail ([(c.holds f right, Status.permission),
          (!p.rsvd && (!noSubject || p.subject = 0#32), Status.badParameter)] ++ checks f) with
      | some st => d.finish m st 0#32 0
      | none => match d.fn? p.fn with
        | none => d
        | some g => effect d g m

/-- What a read of host memory gave, or `x` where it failed. -/
def readOr {α : Type} (d : HostRead α) (x : α) : α :=
  match d with
  | .ok a => a
  | .xlat => x
  | .past => x

/-- A region of a function by handle. -/
def Fn.region (f : Fn) (h : Handle) : Option Region :=
  (f.object .region h).bind fun k => (f.regions.find? (·.1 = k)).map (·.2)

/-- Whether a region parameter names a live region (R278 check 4). -/
def Fn.regionLive (f : Fn) (r : RegionRef) : Bool := (f.region r.handle).isSome

/-- Whether a region parameter suits its use (R278 check 5, R315): its offset, and its length where the packet gives it, inside
the region; writable where the device writes; a PASID only where the function's capability has it. -/
def Fn.regionOk (f : Fn) (r : RegionRef) (len : Option Nat) (write : Bool) : Bool :=
  match f.region r.handle with
  | none => false
  | some x => r.off < x.len && r.off + len.getD 0 ≤ x.len && (!write || x.writable) && (x.pasid.isNone || f.pasidCap)

/-- Whether the device may send a request to a function's host memory: the function is not being disabled (R327 step 1), and a PASID that the request
needs is one that its capability enables (R315). -/
def Fn.reaches (f : Fn) (pasid : Option (BitVec 20)) : Bool :=
  f.st ≠ .disabling && f.st ≠ .resetting && (pasid.isNone || f.pasidCap)

/-- Writes bytes into a region (R284, R315, R327). -/
def Ctl.regionWrite (c : Ctl) (f : Fn) (r : RegionRef) (bs : List Byte) : Ctl :=
  match f.region r.handle with
  | none => c
  | some x => if f.reaches x.pasid then c.hostWrite f.num x.pasid (x.addr + r.off) bs else c

/-- FENCE (R301). -/
def Ctl.fenceCmd (c : Ctl) (p : Pkt) (mask : BitVec 4) (jobs : Bool) : Ctl :=
  c.packet p .any true (fun _ => []) fun d _ m =>
    let d := d.onQueue m.fn m.q fun y => { y with fences := y.fences ++ [m.order] }
    let d := d.onObjs fun o => { o with waiting := o.waiting ++ [⟨m, .fence mask jobs⟩] }
    d.settle m.fn

/-- FENCE (R301). -/
def execFence (p : Pkt) (mask : BitVec 4) (jobs : Bool) (s : State) : Host.Outcome State Fault Refusal :=
  .next { s with ctl := s.ctl.fenceCmd p mask jobs }

/-! ### Register actions of a queue (R273, R274, R303-R305, R490) -/

/-- Whether a function's window is served to its host (R311, R464). -/
def Ctl.served (c : Ctl) (n : BitVec 8) : Bool := c.sec.st = .running && (c.fn? n).isSome

/-- The undefined packets that a doorbell's fetch meets: each completes with BAD_OPCODE (R278 check 1). -/
def Ctl.undefPacket (c : Ctl) (n : BitVec 8) (q : Fin 4) (u : UndefPkt) : Ctl :=
  match c.fn? n with
  | none => c
  | some f =>
    if c.fetchable f q then (c.fetch n q).finish ⟨n, q, u.tag, u.irq, c.objs.orders⟩ Status.badOpcode 0#32 0 else c

/-- A doorbell's effect (R273): a value below the ring size of an enabled queue becomes the tail. -/
def Ctl.doorbell (c : Ctl) (n : BitVec 8) (q : Fin 4) (tail : Nat) : Ctl :=
  c.onQueue n q fun y => if y.enabled && tail < ringSize y.sqLog then { y with tail := tail } else y

/-- Q_DOORBELL (R273): of the packets that its fetch meets, those of an undefined opcode complete at once; the others are commands of their own. -/
def execQDoorbell (fn : BitVec 8) (q : Fin 4) (tail : BitVec 16) (fetched : List (List Byte)) (s : State) :
    Host.Outcome State Fault Refusal :=
  if !s.ctl.served fn then .next s
  else .next { s with ctl := (undefOf fetched).foldl (fun c u => c.undefPacket fn q u) (s.ctl.doorbell fn q tail.toNat) }

/-- ENABLE rises: indices and PHASE start afresh, held records are written first (R274, R490). -/
def Ctl.enableQueue (c : Ctl) (n : BitVec 8) (q : Fin 4) : Ctl :=
  if (c.queueOf n q).enabled || (c.queueOf n q).resetting then c
  else
    (c.onQueue n q fun y =>
      { y with enabled := true, tail := 0, fetch := 0, cqTail := 0, head := 0, phase := true, stopped := false
               sqFault := false, recent := [] }).drain n q

/-- ENABLE falls without RESET (R490). -/
def Ctl.disableQueue (c : Ctl) (n : BitVec 8) (q : Fin 4) : Ctl :=
  c.onQueue n q fun y => { y with enabled := false }

/-- RESET (R305): every job submitted through the queue is to be cancelled at the next bell with a QUEUE_RESET tally; held
records go; the queue is left disabled with its rings and indices cleared. -/
def Ctl.resetQueue (c : Ctl) (n : BitVec 8) (q : Fin 4) : Ctl :=
  let dropped := (c.queueOf n q).held
  let c := dropped.foldl (fun c r => c.deliver n r) c
  let c := c.onQueue n q fun y =>
    { y with enabled := false, tail := 0, fetch := 0, cqTail := 0, head := 0, phase := true, stopped := false
             sqFault := false, holdFull := false, held := [], recent := [], fences := [], resetting := true, since := c.objs.orders
             sqBase := 0, cqBase := 0, sqLog := 4, cqLog := 4 }
  c.relax n

/-- QUEUE_ENABLE (R274, R490). -/
def execQueueEnable (fn : BitVec 8) (q : Fin 4) (s : State) : Host.Outcome State Fault Refusal :=
  if !s.ctl.served fn then .next s else .next { s with ctl := s.ctl.enableQueue fn q }

/-- QUEUE_DISABLE (R490). -/
def execQueueDisable (fn : BitVec 8) (q : Fin 4) (s : State) : Host.Outcome State Fault Refusal :=
  if !s.ctl.served fn then .next s else .next { s with ctl := s.ctl.disableQueue fn q }

/-- QUEUE_RESET (R305). -/
def execQueueReset (fn : BitVec 8) (q : Fin 4) (s : State) : Host.Outcome State Fault Refusal :=
  if !s.ctl.served fn then .next s else .next { s with ctl := s.ctl.resetQueue fn q }

/-- A new completion head (R274): values at or beyond the ring size are ignored; room lets held records out. -/
def Ctl.cqHead (c : Ctl) (n : BitVec 8) (q : Fin 4) (head : Nat) : Ctl :=
  (c.onQueue n q fun y => if head < ringSize y.cqLog then { y with head := head } else y).drain n q

/-- Q_CQ_HEAD (R274, R302). -/
def execQCqHead (fn : BitVec 8) (q : Fin 4) (head : BitVec 16) (s : State) : Host.Outcome State Fault Refusal :=
  if !s.ctl.served fn then .next s else .next { s with ctl := s.ctl.cqHead fn q head.toNat }

/-- The bytes of an output-ring entry (R287). -/
def outBytes (e : OutEntry) : List Byte :=
  wordBytes [e.token] ++ Bits.toLe e.position 5 ++ [BitVec.ofNat 8 ((if e.last then 1 else 0) + (if e.stop then 2 else 0))] ++
    Bits.toLe e.logp.toNat 2 ++ Bits.toLe e.tag.toNat 2 ++ [0#8, 0#8]

/-- Replaces a session. -/
def Ctl.setSession (c : Ctl) (x : Session) : Ctl :=
  c.onObjs fun o => { o with sessions := o.sessions.map fun y => if y.fn = x.fn && y.ix = x.ix then x else y }

/-- Writes entries at the tail of a session's output ring, each before the TAIL that covers it (R287); on a site in link hold
they go to the link buffer (R330). -/
def Ctl.ringWrite (c : Ctl) (x : Session) (es : List OutEntry) : Ctl :=
  match c.fn? x.fn with
  | none => c
  | some f =>
    match f.region x.ring.handle with
    | none => c
    | some r =>
      let hold := f.st = .linkHold
      let put (c : Ctl) (addr : Nat) (bs : List Byte) : Ctl :=
        if hold then
          (c.onBus fun b => { b with buffered := b.buffered ++ [(f.site, ⟨f.num, r.pasid, addr, bs⟩)] }).onFn f.num
            fun g => { g with linkBuf := g.linkBuf + bs.length }
        else if f.reaches r.pasid then c.hostWrite f.num r.pasid addr bs else c
      let base := r.addr + x.ring.off
      let step (a : Ctl × Nat) (e : OutEntry) : Ctl × Nat :=
        let c := put a.1 (base + 64 + 16 * (a.2 % x.entries)) (outBytes e)
        (put c (base + 8) (Bits.toLe (a.2 + 1) 8), a.2 + 1)
      let r := es.foldl step (c, x.tail)
      r.1.setSession { x with tail := r.2, written := (es.reverse ++ x.written).take x.entries, kept := [], stopped := none }

/-- Q_RESUME.GO (R303, R288): the writer and fetching restart, held records are written, and kept tokens of the queue's sessions
go out. -/
def Ctl.resumeQueue (c : Ctl) (n : BitVec 8) (q : Fin 4) : Ctl :=
  let c := (c.onQueue n q fun y => { y with stopped := false, sqFault := false }).drain n q
  (c.objs.sessions.filter fun x => x.fn = n && x.stopped = some q).foldl (fun c x => c.ringWrite x x.kept) c

/-- Q_RESUME (R303, R288). -/
def execQResume (fn : BitVec 8) (q : Fin 4) (s : State) : Host.Outcome State Fault Refusal :=
  if !s.ctl.served fn then .next s else .next { s with ctl := s.ctl.resumeQueue fn q }

/-- Latches the first failed access of a queue since FN_EVENT was last cleared (R303). -/
def Ctl.latchFault (c : Ctl) (n : BitVec 8) (q : Fin 4) (addr : Nat) (read : Bool) : Ctl :=
  c.onQueue n q fun y => { y with faultAddr := y.faultAddr.orElse fun _ => some (addr / 64 * 64, read) }

/-- A failed write of a completion record (R303): the last `failed` records written go back to the holding area, the writer
stops, the address is latched, CQ_UNDELIVERABLE is raised. -/
def Ctl.cqFault (c : Ctl) (n : BitVec 8) (q : Fin 4) (failed : Nat) : Ctl :=
  let y := c.queueOf n q
  let k := Min.min failed y.recent.length
  if k = 0 then c
  else
    let size := ringSize y.cqLog
    let tail := (y.cqTail + size - k % size) % size
    let back := (y.recent.take k).reverse
    let c := c.onQueue n q fun z =>
      { z with held := back ++ z.held, recent := z.recent.drop k, cqTail := tail, stopped := true
               phase := if z.cqTail < tail then !z.phase else z.phase }
    let c := back.foldl (fun c r => c.undeliver n r) c
    (c.latchFault n q (y.cqBase + 32 * tail) false).raiseFn n 1#16

/-- CQ_WRITE_FAULT (R303). -/
def execCqWriteFault (fn : BitVec 8) (q : Fin 4) (failed : Nat) (s : State) : Host.Outcome State Fault Refusal :=
  .next { s with ctl := s.ctl.cqFault fn q failed }

/-- A failed fetch (R303): fetching stops, the address is latched, SQ_FAULT is raised. -/
def Ctl.sqFaultAt (c : Ctl) (n : BitVec 8) (q : Fin 4) : Ctl :=
  let y := c.queueOf n q
  ((c.onQueue n q fun z => { z with sqFault := true }).latchFault n q (y.sqBase + 64 * y.fetch) true).raiseFn n 2#16

/-- SQ_FETCH_FAULT (R303): where the device was to fetch. -/
def execSqFetchFault (fn : BitVec 8) (q : Fin 4) (s : State) : Host.Outcome State Fault Refusal :=
  match s.ctl.fn? fn with
  | none => .next s
  | some f => if s.ctl.mayFetch f q then .next { s with ctl := s.ctl.sqFaultAt fn q } else .next s

/-- A failed write of output (R288): the last `failed` entries are kept in the session, its admission stops with OUTPUT_FULL,
OUT_BLOCKED is raised. -/
def Ctl.outputFault (c : Ctl) (n : BitVec 8) (h : Handle) (failed : Nat) : Ctl :=
  match c.objs.sessions.find? fun x => x.fn = n && handleOf .session x.ix = h with
  | none => c
  | some x =>
    let k := Min.min failed x.written.length
    if k = 0 then c
    else
      (c.setSession { x with kept := (x.written.take k).reverse ++ x.kept, written := x.written.drop k, tail := x.tail - k
                             stopped := some x.genQueue }).raiseFn n 4#16

/-- OUTPUT_WRITE_FAULT (R288). -/
def execOutputWriteFault (fn : BitVec 8) (session : Handle) (failed : Nat) (s : State) : Host.Outcome State Fault Refusal :=
  .next { s with ctl := s.ctl.outputFault fn session failed }

/-! ### Regions (R284) -/

/-- Whether a live session writes a region or a job uses it. -/
def Ctl.regionUsed (c : Ctl) (n : BitVec 8) (h : Handle) : Bool :=
  c.objs.sessions.any (fun x => x.fn = n && x.ring.handle = h) ||
    c.objs.jobs.any fun j => j.cmd.fn = n && j.st ≠ .ended && j.regions.contains h

/-- The outcome of creating a region (FN_REGION_CTRL.STATUS): 1 bad address or length, 2 table full, 0 done. -/
def Ctl.createRegion (c : Ctl) (n : BitVec 8) : Ctl :=
  c.onFn n fun f =>
    if f.regionAddr % 4096 ≠ 0 || f.regionLen % 4096 ≠ 0 || f.regionLen < 4096 || 16000000000000 < f.regionLen ||
        2 ^ 64 < f.regionAddr + f.regionLen then { f with regionStatus := 1 }
    else
      match f.issue .region f.nextIx with
      | none => { f with regionStatus := 2 }
      | some (ix, g) =>
        let r : Region := ⟨f.regionAddr, f.regionLen, f.regionWritable, if f.regionPasidEn then some f.regionPasid else none⟩
        { g with handles := g.handles.map fun e => if e.1 = ix then (ix, .region, ix) else e
                 regions := (g.regions.filter (·.1 ≠ ix)) ++ [(ix, r)]
                 regionHandle := handleOf .region ix, regionStatus := 0 }

/-- REGION_CREATE: the write of FN_REGION_CTRL with ACTION 1 (R284). -/
def execRegionCreate (fn : BitVec 8) (writable pasidEn : Bool) (pasid : BitVec 20) (s : State) :
    Host.Outcome State Fault Refusal :=
  if !s.ctl.served fn then .next s
  else
    .next { s with ctl := (s.ctl.onFn fn fun f =>
      { f with regionWritable := writable, regionPasidEn := pasidEn, regionPasid := pasid }).createRegion fn }

/-- The outcome of destroying a region: 4 bad handle, 3 in use, 0 done. -/
def Ctl.destroyRegion (c : Ctl) (n : BitVec 8) : Ctl :=
  c.onFn n fun f =>
    match f.object .region f.regionHandle with
    | none => { f with regionStatus := 4 }
    | some ix =>
      if c.regionUsed n f.regionHandle then { f with regionStatus := 3 }
      else { (f.free ix) with regions := f.regions.filter (·.1 ≠ ix), regionStatus := 0 }

/-- REGION_DESTROY: the write of FN_REGION_CTRL with ACTION 2 (R284). -/
def execRegionDestroy (fn : BitVec 8) (s : State) : Host.Outcome State Fault Refusal :=
  if !s.ctl.served fn then .next s else .next { s with ctl := s.ctl.destroyRegion fn }

end Sys2Proof.Machine
end

