-- ==== Sys2Proof/Machine/Xts.lean ====
section
/-! DEFINITION. AES-256-XTS over 64-byte data units, as the shed uses it (R172): the cipher of FIPS 197 and the mode of IEEE 1619. -/

namespace Sys2Proof.Machine

open Sys2Proof

namespace Aes

/-- The substitution of SubBytes. -/
def sbox : List Byte :=
  [0x63, 0x7c, 0x77, 0x7b, 0xf2, 0x6b, 0x6f, 0xc5, 0x30, 0x01, 0x67, 0x2b, 0xfe, 0xd7, 0xab, 0x76,
   0xca, 0x82, 0xc9, 0x7d, 0xfa, 0x59, 0x47, 0xf0, 0xad, 0xd4, 0xa2, 0xaf, 0x9c, 0xa4, 0x72, 0xc0] ++
  [0xb7, 0xfd, 0x93, 0x26, 0x36, 0x3f, 0xf7, 0xcc, 0x34, 0xa5, 0xe5, 0xf1, 0x71, 0xd8, 0x31, 0x15,
   0x04, 0xc7, 0x23, 0xc3, 0x18, 0x96, 0x05, 0x9a, 0x07, 0x12, 0x80, 0xe2, 0xeb, 0x27, 0xb2, 0x75] ++
  [0x09, 0x83, 0x2c, 0x1a, 0x1b, 0x6e, 0x5a, 0xa0, 0x52, 0x3b, 0xd6, 0xb3, 0x29, 0xe3, 0x2f, 0x84,
   0x53, 0xd1, 0x00, 0xed, 0x20, 0xfc, 0xb1, 0x5b, 0x6a, 0xcb, 0xbe, 0x39, 0x4a, 0x4c, 0x58, 0xcf] ++
  [0xd0, 0xef, 0xaa, 0xfb, 0x43, 0x4d, 0x33, 0x85, 0x45, 0xf9, 0x02, 0x7f, 0x50, 0x3c, 0x9f, 0xa8,
   0x51, 0xa3, 0x40, 0x8f, 0x92, 0x9d, 0x38, 0xf5, 0xbc, 0xb6, 0xda, 0x21, 0x10, 0xff, 0xf3, 0xd2] ++
  [0xcd, 0x0c, 0x13, 0xec, 0x5f, 0x97, 0x44, 0x17, 0xc4, 0xa7, 0x7e, 0x3d, 0x64, 0x5d, 0x19, 0x73,
   0x60, 0x81, 0x4f, 0xdc, 0x22, 0x2a, 0x90, 0x88, 0x46, 0xee, 0xb8, 0x14, 0xde, 0x5e, 0x0b, 0xdb] ++
  [0xe0, 0x32, 0x3a, 0x0a, 0x49, 0x06, 0x24, 0x5c, 0xc2, 0xd3, 0xac, 0x62, 0x91, 0x95, 0xe4, 0x79,
   0xe7, 0xc8, 0x37, 0x6d, 0x8d, 0xd5, 0x4e, 0xa9, 0x6c, 0x56, 0xf4, 0xea, 0x65, 0x7a, 0xae, 0x08] ++
  [0xba, 0x78, 0x25, 0x2e, 0x1c, 0xa6, 0xb4, 0xc6, 0xe8, 0xdd, 0x74, 0x1f, 0x4b, 0xbd, 0x8b, 0x8a,
   0x70, 0x3e, 0xb5, 0x66, 0x48, 0x03, 0xf6, 0x0e, 0x61, 0x35, 0x57, 0xb9, 0x86, 0xc1, 0x1d, 0x9e] ++
  [0xe1, 0xf8, 0x98, 0x11, 0x69, 0xd9, 0x8e, 0x94, 0x9b, 0x1e, 0x87, 0xe9, 0xce, 0x55, 0x28, 0xdf,
   0x8c, 0xa1, 0x89, 0x0d, 0xbf, 0xe6, 0x42, 0x68, 0x41, 0x99, 0x2d, 0x0f, 0xb0, 0x54, 0xbb, 0x16]

/-- Its inverse. -/
def sboxInv : List Byte :=
  [0x52, 0x09, 0x6a, 0xd5, 0x30, 0x36, 0xa5, 0x38, 0xbf, 0x40, 0xa3, 0x9e, 0x81, 0xf3, 0xd7, 0xfb,
   0x7c, 0xe3, 0x39, 0x82, 0x9b, 0x2f, 0xff, 0x87, 0x34, 0x8e, 0x43, 0x44, 0xc4, 0xde, 0xe9, 0xcb] ++
  [0x54, 0x7b, 0x94, 0x32, 0xa6, 0xc2, 0x23, 0x3d, 0xee, 0x4c, 0x95, 0x0b, 0x42, 0xfa, 0xc3, 0x4e,
   0x08, 0x2e, 0xa1, 0x66, 0x28, 0xd9, 0x24, 0xb2, 0x76, 0x5b, 0xa2, 0x49, 0x6d, 0x8b, 0xd1, 0x25] ++
  [0x72, 0xf8, 0xf6, 0x64, 0x86, 0x68, 0x98, 0x16, 0xd4, 0xa4, 0x5c, 0xcc, 0x5d, 0x65, 0xb6, 0x92,
   0x6c, 0x70, 0x48, 0x50, 0xfd, 0xed, 0xb9, 0xda, 0x5e, 0x15, 0x46, 0x57, 0xa7, 0x8d, 0x9d, 0x84] ++
  [0x90, 0xd8, 0xab, 0x00, 0x8c, 0xbc, 0xd3, 0x0a, 0xf7, 0xe4, 0x58, 0x05, 0xb8, 0xb3, 0x45, 0x06,
   0xd0, 0x2c, 0x1e, 0x8f, 0xca, 0x3f, 0x0f, 0x02, 0xc1, 0xaf, 0xbd, 0x03, 0x01, 0x13, 0x8a, 0x6b] ++
  [0x3a, 0x91, 0x11, 0x41, 0x4f, 0x67, 0xdc, 0xea, 0x97, 0xf2, 0xcf, 0xce, 0xf0, 0xb4, 0xe6, 0x73,
   0x96, 0xac, 0x74, 0x22, 0xe7, 0xad, 0x35, 0x85, 0xe2, 0xf9, 0x37, 0xe8, 0x1c, 0x75, 0xdf, 0x6e] ++
  [0x47, 0xf1, 0x1a, 0x71, 0x1d, 0x29, 0xc5, 0x89, 0x6f, 0xb7, 0x62, 0x0e, 0xaa, 0x18, 0xbe, 0x1b,
   0xfc, 0x56, 0x3e, 0x4b, 0xc6, 0xd2, 0x79, 0x20, 0x9a, 0xdb, 0xc0, 0xfe, 0x78, 0xcd, 0x5a, 0xf4] ++
  [0x1f, 0xdd, 0xa8, 0x33, 0x88, 0x07, 0xc7, 0x31, 0xb1, 0x12, 0x10, 0x59, 0x27, 0x80, 0xec, 0x5f,
   0x60, 0x51, 0x7f, 0xa9, 0x19, 0xb5, 0x4a, 0x0d, 0x2d, 0xe5, 0x7a, 0x9f, 0x93, 0xc9, 0x9c, 0xef] ++
  [0xa0, 0xe0, 0x3b, 0x4d, 0xae, 0x2a, 0xf5, 0xb0, 0xc8, 0xeb, 0xbb, 0x3c, 0x83, 0x53, 0x99, 0x61,
   0x17, 0x2b, 0x04, 0x7e, 0xba, 0x77, 0xd6, 0x26, 0xe1, 0x69, 0x14, 0x63, 0x55, 0x21, 0x0c, 0x7d]

/-- A byte through a table. -/
def look (t : List Byte) (b : Byte) : Byte := t.getD b.toNat 0#8

/-- A byte times x in the field of AES. -/
def xtime (b : Byte) : Byte := (b <<< 1) ^^^ (if b.msb then 0x1B#8 else 0#8)

/-- A byte times a constant below 16. -/
def times (c : Nat) (b : Byte) : Byte :=
  let b2 := xtime b
  let b4 := xtime b2
  let b8 := xtime b4
  (if c % 2 = 1 then b else 0#8) ^^^ (if c / 2 % 2 = 1 then b2 else 0#8) ^^^ (if c / 4 % 2 = 1 then b4 else 0#8) ^^^
    (if c / 8 % 2 = 1 then b8 else 0#8)

/-- Two byte strings XORed. -/
def xor (a b : List Byte) : List Byte := a.zipWith (· ^^^ ·) b

/-- The next four bytes of the key schedule: `i` counts words of four bytes, `back` is the word eight before. -/
def nextWord (i : Nat) (rcon : Byte) (back prev : List Byte) : List Byte :=
  let t := if i % 8 = 0 then xor ((prev.drop 1 ++ prev.take 1).map (look sbox)) [rcon, 0#8, 0#8, 0#8]
    else if i % 8 = 4 then prev.map (look sbox) else prev
  xor back t

/-- The key schedule: 60 words from a key of 32 bytes; the words stand newest first. -/
def expandKey (key : List Byte) : List (List Byte) :=
  let start := ((List.range 8).map fun i => (key.drop (4 * i)).take 4).reverse
  ((List.range 52).foldl (fun (a : List (List Byte) × Byte) j =>
    let i := j + 8
    (nextWord i a.2 (a.1.getD 7 []) (a.1.headD []) :: a.1, if i % 8 = 0 then xtime a.2 else a.2)) (start, 1#8)).1.reverse

/-- The 15 round keys of 16 bytes. -/
def roundKeys (key : List Byte) : List (List Byte) :=
  let w := expandKey key
  (List.range 15).map fun r => ((w.drop (4 * r)).take 4).flatten

/-- ShiftRows: byte 4c + r of the block comes from column c + r. -/
def shiftRows (b : List Byte) : List Byte := (List.range 16).map fun i => b.getD ((i + 4 * (i % 4)) % 16) 0#8

/-- The inverse of ShiftRows. -/
def unshiftRows (b : List Byte) : List Byte := (List.range 16).map fun i => b.getD ((i + 12 * (i % 4)) % 16) 0#8

/-- MixColumns with the four coefficients of a row, or its inverse. -/
def mixWith (k : List Nat) (b : List Byte) : List Byte :=
  (List.range 16).map fun i =>
    (List.range 4).foldl (fun a j => a ^^^ times (k.getD ((j + 4 - i % 4) % 4) 0) (b.getD (i / 4 * 4 + j) 0#8)) 0#8

/-- One block enciphered. -/
def encrypt (keys : List (List Byte)) (b : List Byte) : List Byte :=
  let b := ((keys.drop 1).take 13).foldl (fun b k => xor (mixWith [2, 3, 1, 1] (shiftRows (b.map (look sbox)))) k) (xor b (keys.headD []))
  xor (shiftRows (b.map (look sbox))) (keys.getD 14 [])

/-- One block deciphered. -/
def decrypt (keys : List (List Byte)) (b : List Byte) : List Byte :=
  let b := (((keys.drop 1).take 13).reverse).foldl (fun b k => mixWith [14, 11, 13, 9] (xor ((unshiftRows b).map (look sboxInv)) k))
    (xor b (keys.getD 14 []))
  xor ((unshiftRows b).map (look sboxInv)) (keys.headD [])

end Aes

/-- The bytes of half of a shed key (R371), most significant first. -/
def keyBytes (k : BitVec 256) : List Byte := Bits.toBe k.toNat 32

/-- The tweak of block `j` of a data unit (IEEE 1619): the enciphered tweak times x^j, the block taken little-endian. -/
def tweakAt (t0 : Nat) : Nat → Nat
  | 0 => t0
  | j + 1 =>
    let t := tweakAt t0 j
    2 * t % 2 ^ 128 ^^^ (if 2 ^ 127 ≤ t then 0x87 else 0)

/-- One 64-byte unit through a block cipher in XTS mode: `tweak` is the unit's shed address shifted right by 6, as 128 bits little-endian
(R172). -/
def xtsUnit (cipher : List Byte → List Byte) (tweakKeys : List (List Byte)) (tweak : Nat) (unit : List Byte) : List Byte :=
  let t0 := Bits.leNat (Aes.encrypt tweakKeys (Bits.toLe tweak 16)) 0 16
  (List.range 4).flatMap fun j =>
    let t := Bits.toLe (tweakAt t0 j) 16
    Aes.xor (cipher (Aes.xor ((unit.drop (16 * j)).take 16) t)) t

/-- A unit enciphered under the shed key of a number. -/
def shedCipher (key tweak : Nat) (unit : List Byte) : List Byte :=
  let k := Config.shedKey key
  xtsUnit (Aes.encrypt (Aes.roundKeys (keyBytes k.1))) (Aes.roundKeys (keyBytes k.2)) tweak unit

/-- A unit deciphered under the shed key of a number. -/
def shedPlain (key tweak : Nat) (unit : List Byte) : List Byte :=
  let k := Config.shedKey key
  xtsUnit (Aes.decrypt (Aes.roundKeys (keyBytes k.1))) (Aes.roundKeys (keyBytes k.2)) tweak unit

end Sys2Proof.Machine
end

