-- ==== Sys2Proof/Machine/Shed.lean ====
section
/-! DEFINITION. The shed's encryption at rest (R172, R173): which key each 64-byte unit was written under, and what a read under a key
gives. Memory holds what the unit deciphers to under the key it was written with; the expander holds `shedStored`. -/

namespace Sys2Proof.Machine

open Sys2Proof

/-- What the expander holds of a unit: its contents enciphered under the key it was written with, the tweak being the shed address shifted right
by 6 (R172); none where nothing has been written since the start. -/
def Dp.shedStored (d : Dp) (u : Nat) : Option (List Byte) :=
  match Sparse.get 0 d.shedKeys u with
  | 0 => none
  | k + 1 => some (shedCipher k u (d.mem.readN (shedKeyOf (64 * u)) 64))

/-- A unit of the shed read under the key of a number (R172): under another key than it was written with, what that key makes of the stored
bytes (R173). -/
def Dp.shedUnit (d : Dp) (key u : Nat) : List Byte :=
  if Sparse.get 0 d.shedKeys u = key + 1 then d.mem.readN (shedKeyOf (64 * u)) 64
  else
    match d.shedStored u with
    | none => d.mem.readN (shedKeyOf (64 * u)) 64
    | some bs => shedPlain key u bs

/-- Takes a unit over under a key, as the read that precedes a partial write finds it. -/
def Dp.adoptUnit (d : Dp) (key u : Nat) : Dp :=
  if Sparse.get 0 d.shedKeys u = key + 1 then d
  else { d with mem := d.mem.writeN (shedKeyOf (64 * u)) (d.shedUnit key u), shedKeys := Sparse.set 0 d.shedKeys u (key + 1) }

/-- Takes over every unit that `n` bytes at a shed address touch. -/
def Dp.adoptShed (d : Dp) (key addr n : Nat) : Dp := (unitsOf addr n).foldl (fun d u => d.adoptUnit key u) d

/-- A write to the shed under a key (R171, R172). -/
def Dp.shedWrite (d : Dp) (key addr : Nat) (bs : List Byte) (mark : Bool) : Dp :=
  (d.adoptShed key addr bs.length).write (shedKeyOf addr) bs mark

/-- A read of the shed under a key. -/
def Dp.shedRead (d : Dp) (key addr n : Nat) : List Byte :=
  (((unitsOf addr n).flatMap (d.shedUnit key)).drop (addr % 64)).take n

/-- The number of the key under which a function's KV stands in the shed (R172). -/
def Ctl.fnKey (c : Ctl) (n : BitVec 8) : Nat := ((c.fn? n).map (·.shedKey)).getD c.sec.deviceKey

end Sys2Proof.Machine
end

