-- ==== Sys2Proof/Machine/Streams.lean ====
section
/-! DEFINITION. Streams (06): block lists, the fetch engine, reads of the tiers, the scatter engine, fences, barriers and
refresh. -/

namespace Sys2Proof.Machine

open Sys2Proof

/-! ### Stalls as a yard sees them -/

/-- A stall of a yard's microbatch by index; none where it is vacant. -/
def Ctl.stallIn (c : Ctl) (k : Yard) (i : Nat) : Option Stall := (c.microIn k).bind fun m => m.stalls[i]?

/-- Whether a stall runs in a yard: a backward stall is vacant in every yard but its own (R422). -/
def Stall.runsIn (st : Stall) (k : Nat) : Bool :=
  match st.work with
  | .backward _ => st.bwdYard = some k
  | _ => true

/-- The stall of a stall reference (R159). -/
def refStall (ref : BitVec 64) : Nat := (ref.toNat >>> 40) % 2 ^ 16

/-- The stall that a stall reference names where it may be read: neither vacant in the yard nor struck (R160, R422). -/
def Ctl.refStall? (c : Ctl) (k : Yard) (ref : BitVec 64) : Option Stall :=
  (c.stallIn k (refStall ref)).filter fun st => st.runsIn k.val && !st.struck

/-- The object of a stall reference (R159): none where the slot is empty or the stall is vacant or struck (R160). -/
def Ctl.objectOf (c : Ctl) (k : Yard) (ref : BitVec 64) : Option ObjView :=
  (c.refStall? k ref).bind fun st => st.views.find? fun v => v.yard = k && v.slot = ref.toNat >>> 60

/-- The session of a function by handle. -/
def Ctl.sessionOf (c : Ctl) (fn : BitVec 8) (h : Handle) : Option Session :=
  c.objs.sessions.find? fun x => x.fn = fn && x.ix = h.toNat % 2 ^ 24

/-- The byte offset of a stall reference (R159). -/
def refOff (ref : BitVec 64) : Nat := ref.toNat % 2 ^ 40

/-- The runs of `n` bytes from a fast-tier address, split at each boundary of a 4 KiB interleave unit (R151). -/
def unitRuns (addr n : Nat) : List (Nat × Nat) :=
  (List.range (if n = 0 then 0 else (addr + n - 1) / 4096 - addr / 4096 + 1)).map fun i =>
    let lo := Max.max addr ((addr / 4096 + i) * 4096)
    (lo, Min.min (addr + n) ((addr / 4096 + i + 1) * 4096) - lo)

/-- The parts of a read of `n` bytes from a tier address: a fast-tier access never crosses a 4 KiB unit (R151). -/
def tierParts (shed : Bool) (addr n : Nat) : List Part :=
  if shed then [⟨.shed, addr, n, false, [], []⟩] else (unitRuns addr n).map fun r => ⟨.fast, r.1, r.2, false, [], []⟩

/-- The parts of `n` bytes from offset `off` of an object, split at extent boundaries; what lies in no extent is void (R159,
R160). -/
def partsOf (es : List Extent) (off n : Nat) : List Part :=
  let gap (a b : Nat) : List Part := if a < b then [⟨.void, 0, b - a, true, List.replicate (b - a) 0#8, []⟩] else []
  let r := es.foldl (fun (acc : Nat × List Part) e =>
    let lo := Max.max acc.1 e.off
    let hi := Min.min (off + n) (e.off + e.len)
    if lo < hi then (hi, acc.2 ++ gap acc.1 lo ++ tierParts e.shed (e.addr + (lo - e.off)) (hi - lo))
    else acc) (off, [])
  r.2 ++ gap r.1 (off + n)

/-! ### Runs of 64-byte units -/

/-- The contents and mark of a unit that stands held: a unit of the shed is read under the key of number `sk` (R172). -/
def Dp.unitData (d : Dp) (sk u : Nat) : List Byte × Bool :=
  (if 2 ^ 41 ≤ u then d.shedUnit sk (u - 2 ^ 41) else d.mem.readN (64 * u) 64, d.poison.contains u)

/-- What a read of a unit gives while writes of it, newest first, are not yet fenced: the contents after any one of them or before them all, as
free bits say (R167). -/
def pickUnit (free : Nat) (now : List Byte × Bool) : List Unfenced → List Byte × Bool
  | [] => now
  | w :: ws => if Config.freeBit free then pickUnit (free + 1) (w.old, w.oldPoison) ws else now

/-- One unit as a read finds it. -/
def Dp.readUnit (d : Dp) (sk free u : Nat) : List Byte × Bool :=
  pickUnit free (d.unitData sk u) (d.unfenced.filter (·.unit = u))

/-- The data of a run of units and their poison marks; a unit that `bad` names or that holds poison is delivered as poison, its
contents free. -/
def Dp.readUnits (d : Dp) (sk key n : Nat) (bad : Nat → Bool) : List Byte × List Bool :=
  let us := (List.range (n / 64)).map fun i =>
    let x := d.readUnit sk (d.drawn + n + 64 * i) (key / 64 + i)
    if x.2 || bad i then (freeBytes (d.drawn + 64 * i) 64, true) else (x.1, false)
  (us.flatMap (·.1), us.map (·.2))

/-- Advances the counter that free values are drawn by, past a read or a write of `n` bytes. -/
def Dp.draw (d : Dp) (n : Nat) : Dp := { d with drawn := d.drawn + 2 * n + 1 }

/-- Writes a run of bytes, each 64-byte unit with its own mark. -/
def Dp.writeUnits (d : Dp) (key : Nat) (bs : List Byte) (marks : List Bool) : Dp :=
  (List.range (Bits.ceilDiv bs.length 64)).foldl
    (fun d i => d.write (key + 64 * i) ((bs.drop (64 * i)).take 64) (marks.getD i false)) d

/-- Takes a unit over under a key where it lies in the shed (R172). -/
def Dp.adoptAny (d : Dp) (sk u : Nat) : Dp := if 2 ^ 41 ≤ u then d.adoptUnit sk (u - 2 ^ 41) else d

/-- One SXE write of a unit before its cluster's next fence: it lands whole. Over another cluster's write not yet fenced, a free bit says
whether it lands after that one or before it (R165, R167). -/
def Dp.sxeUnit (d : Dp) (sk cluster key : Nat) (bs : List Byte) (mark : Bool) : Dp :=
  let u := key / 64
  let d := d.adoptAny sk u
  let e := { d with drawn := d.drawn + 1 }
  match d.unfenced.find? (·.unit = u) with
  | some v =>
    if Config.freeBit d.drawn then
      let under := ({ d with mem := d.mem.writeN (64 * u) v.old }).write key bs mark
      let w : Unfenced := ⟨cluster, u, v.old, v.oldPoison⟩
      let top : Unfenced := { v with old := under.mem.readN (64 * u) 64, oldPoison := mark }
      { e with unfenced := d.unfenced.flatMap fun x => if x = v then [top, w] else [x] }
    else { (e.write key bs mark) with unfenced := ⟨cluster, u, d.mem.readN (64 * u) 64, d.poison.contains u⟩ :: d.unfenced }
  | none => { (e.write key bs mark) with unfenced := ⟨cluster, u, d.mem.readN (64 * u) 64, d.poison.contains u⟩ :: d.unfenced }

/-- An SXE write of a run of units. -/
def Dp.sxeRun (d : Dp) (sk cluster key : Nat) (bs : List Byte) (marks : List Bool) : Dp :=
  (List.range (Bits.ceilDiv bs.length 64)).foldl
    (fun d i => d.sxeUnit sk cluster (key + 64 * i) ((bs.drop (64 * i)).take 64) (marks.getD i false)) d

/-- Everything that a cluster wrote is held (R167): its records go, and with each the older ones of the same unit, which landed before it. -/
def fenceWrites (cluster : Nat) : List Unfenced → List Nat → List Unfenced
  | [], _ => []
  | w :: ws, held =>
    if held.contains w.unit then fenceWrites cluster ws held
    else if w.cluster = cluster then fenceWrites cluster ws (w.unit :: held)
    else w :: fenceWrites cluster ws held

/-! ### The fetch engine (R157-R164) -/

/-- Cores of a core mask. -/
def coresOf (m : BitVec 40) : List (Fin 40) := (List.finRange 40).filter fun i => m.getLsbD i.val

/-- The logical clusters that an entry's data land in, and the cores of each that get a token (R161, R164). -/
def Ctl.receivers (c : Ctl) (r : CoreRef) (e : BlockEntry) : List (Cluster × List (Fin 40)) :=
  if e.mcast then
    match ((c.plan?.map (·.msets)).getD []).find? fun m => m.yard = r.yard && m.index = e.mset with
    | some m => m.clusters.map fun l => (l, coresOf m.cores)
    | none => []
  else [(r.cluster, [r.core])]

/-- The device-wide clusters of receivers. -/
def Ctl.landClusters (c : Ctl) (k : Yard) (rs : List (Cluster × List (Fin 40))) : List Nat := rs.map fun x => c.clu k x.1.val

/-- The device-wide cores of receivers. -/
def Ctl.landCores (c : Ctl) (k : Yard) (rs : List (Cluster × List (Fin 40))) : List Nat :=
  rs.flatMap fun x => x.2.map fun i => c.clu k x.1.val * 40 + i.val

/-- The sixteen bytes of a block-list entry (R157). -/
def entryToBytes (e : BlockEntry) : List Byte :=
  let bit (b : Bool) (i : Nat) : Nat := if b then 2 ^ i else 0
  [BitVec.ofNat 8 (e.tier.toNat + bit e.comp 2 + bit e.rel 3 + bit e.mcast 4 + bit e.last 5 + bit e.gated 6 + bit e.rsvd 7),
    BitVec.ofNat 8 (e.queue.val + bit e.noToken 2)] ++ Bits.toLe e.len 2 ++ Bits.toLe e.destOff.toNat 2 ++
    [match e.store with | .core => 0#8 | .cluster => 1#8, e.mset] ++ Bits.toLe e.addr.toNat 8

/-- The block-list entry that sixteen bytes are (R157); `rsvd` says that a reserved bit is set. -/
def entryOfBytes (bs : List Byte) : BlockEntry :=
  let b (i : Nat) : Byte := bs.getD i 0#8
  { tier := (b 0).setWidth 2, comp := (b 0).getLsbD 2, rel := (b 0).getLsbD 3, mcast := (b 0).getLsbD 4, last := (b 0).getLsbD 5
    gated := (b 0).getLsbD 6, rsvd := (b 0).getLsbD 7 || (b 1).toNat / 8 ≠ 0 || (b 6).toNat / 2 ≠ 0
    queue := Fin.ofNat 4 (b 1).toNat, noToken := (b 1).getLsbD 2, len := Bits.leNat bs 2 2
    destOff := BitVec.ofNat 16 (Bits.leNat bs 4 2), store := if (b 6).getLsbD 0 then .cluster else .core, mset := b 7
    addr := BitVec.ofNat 64 (Bits.leNat bs 8 8) }

/-- Entry `i` of the block list at a fast-tier address (R157, R197). -/
def Dp.listEntry (d : Dp) (addr i : Nat) : BlockEntry := entryOfBytes (d.mem.readN (fastKey (addr + 16 * i)) 16)

/-- An image by its table index. -/
def Ctl.imageAt (c : Ctl) (ix : Nat) : Option Image := c.objs.images.find? (·.ix = ix)

/-- The plan's word on an image (R194). -/
def Ctl.planImage (c : Ctl) (i : Image) : Option PlanImage := c.plan?.bind fun p => p.images.find? (·.digest = i.digest)

/-- The epoch whose block list a microbatch in yard `k` has under a number, with the list's address (R197). -/
def Ctl.listEpoch (c : Ctl) (k : Yard) (which : Nat) : Option (Nat × Epoch) :=
  match (c.microIn k).bind fun m => (m.lists.getD k.val [])[which]? with
  | none => none
  | some a => (c.objs.epochs.find? fun e => e.lists.getD k.val 0 = a).map fun e => (a, e)

/-- The template of an epoch's block list in a yard (R197). -/
def Ctl.listItems (c : Ctl) (k : Yard) (e : Epoch) : List ListItem :=
  match (c.imageAt e.image).bind c.planImage with
  | some pi => pi.lists.filter (·.yard = k)
  | none => []

/-- The entries of the list that some items of an epoch's template make up, as they stand in the block-list area, up to the one marked LAST. -/
def Ctl.subList (c : Ctl) (d : Dp) (k : Yard) (which : Nat) (mine : ListItem → Bool) : List BlockEntry :=
  match c.listEpoch k which with
  | none => []
  | some (a, e) =>
    let all := ((c.listItems k e).mapIdx fun i x => (i, x)).filterMap fun x => if mine x.2 then some (d.listEntry a x.1) else none
    all.take ((all.findIdx? (·.last)).map (· + 1) |>.getD all.length)

/-- The entry that an FXE comes to (R197): one of the frame program's own lists, or one of its cluster's list of a layer of its microbatch's
epoch; none beyond the end of the list or where the microbatch runs no such epoch. -/
def Ctl.entryOf (c : Ctl) (d : Dp) (r : CoreRef) : EntrySrc → Option BlockEntry
  | .plan e => some e
  | .list which layer i =>
    (c.subList d r.yard which fun x => x.layer = layer && x.expert.isNone && x.cluster = r.cluster)[i]?

/-- Bytes of a block. -/
def entryBytes (e : BlockEntry) : Nat := 64 * e.len

/-- The store area of an entry (R157). -/
def entryArea (e : BlockEntry) : Loc := ⟨e.store, 64 * e.destOff.toNat⟩

/-- Whether a token's area meets the destination area of an entry. -/
def Token.meets (t : Token) (e : BlockEntry) : Bool :=
  t.store = e.store && t.off < (entryArea e).off + (entryBytes e) && (entryArea e).off < t.off + 64 * t.units

/-- The tokens of a core. -/
def Dp.tokens (d : Dp) (core : Nat) : List Token :=
  (List.finRange 4).flatMap fun q => Sparse.get [] d.queues (queueKey core q)

/-- Whether the destination area of an entry meets that of a block in flight that lands in a common place. -/
def Flight.meets (f : Flight) (e : BlockEntry) (clusters cores : List Nat) : Bool :=
  f.entry.store = e.store && (entryArea f.entry).off < (entryArea e).off + entryBytes e &&
    (entryArea e).off < (entryArea f.entry).off + entryBytes f.entry &&
    (match e.store with
      | .core => f.cores.any cores.contains
      | .cluster => f.clusters.any clusters.contains)

/-- Whether every part of an entry's destination area has been released (R162, R164): no token stands for it in any receiver, and no block, with
a token or without, is on its way to it. -/
def Dp.areaFree (d : Dp) (clusters cores : List Nat) (e : BlockEntry) : Bool :=
  !(d.flights.any fun f => f.meets e clusters cores) &&
  (match e.store with
    | .core => cores.all fun i => (d.tokens i).all fun t => !t.meets e
    | .cluster => clusters.all fun x => (List.finRange 40).all fun i => (d.tokens (x * 40 + i.val)).all fun t => !t.meets e)

/-- Whether the queue of an entry has a free token in every receiving core: fewer tokens than its depth in the segment header of the
core's cluster (R161, R162). -/
def Ctl.tokenFree (c : Ctl) (d : Dp) (k : Yard) (rs : List (Cluster × List (Fin 40))) (q : Fin 4) : Bool :=
  rs.all fun x => x.2.all fun i =>
    (Sparse.get [] d.queues (queueKey (c.clu k x.1.val * 40 + i.val) q)).length < ((c.queueLine k x.1 q).map (·.depth)).getD 0

/-- Whether an entry may issue (R162). -/
def Ctl.issueReady (c : Ctl) (d : Dp) (k : Yard) (rs : List (Cluster × List (Fin 40))) (e : BlockEntry) : Bool :=
  (e.noToken || c.tokenFree d k rs e.queue) && d.areaFree (c.landClusters k rs) (c.landCores k rs) e

/-- Whether an entry names bytes that exist: its destination in the writable store, its absolute source in its tier (R158). -/
def Ctl.entryFits (c : Ctl) (e : BlockEntry) : Bool :=
  locWritable (entryArea e) (entryBytes e) && e.addr.toNat % 64 = 0 &&
  (e.rel || (if e.comp then fastIn e.addr.toNat 64
    else if e.tier = 0#2 then fastIn e.addr.toNat (entryBytes e)
    else if e.tier = 1#2 then c.shedIn e.addr.toNat (entryBytes e)
    else if e.tier = 2#2 then locReadable ⟨.cluster, e.addr.toNat⟩ (entryBytes e)
    else false))

/-- A tensor of a BF16 serving copy (R416): row-major, rounded under R127, from a 64-byte boundary on. -/
def tensorCopy (x : Tensor) : List Byte :=
  let bs := (convertOut .bf16 0#32 0 x.x).codes
  bs ++ List.replicate (Bits.ceilDiv bs.length 64 * 64 - bs.length) 0#8

/-- The stall's adapter in a yard, object slot 6 (R416, R420): the serving copy of its adapter, or the working copy of its run. -/
def Ctl.servingCopy (c : Ctl) (k : Yard) (st : Stall) : List Byte :=
  let run := c.objs.runs.find? fun r => r.fn = st.fn && handleOf .job r.ix = st.job
  let tensors : List Tensor :=
    match c.objs.adapters.find? fun a => a.fn = st.fn && handleOf .adapter a.ix = st.adapter, run with
    | some a, _ => a.tensors
    | none, some r => r.tensors
    | none, none => []
  (tensors.filter fun x => x.yard = k).flatMap tensorCopy

/-- The part of a block that names object slot 6 (R416): the bytes of the serving copy, and zeros beyond its length or for a stall that is
vacant or struck (R160). -/
def Ctl.adapterPart (c : Ctl) (k : Yard) (ref : BitVec 64) (n : Nat) : Part :=
  let bs := match c.refStall? k ref with
    | some st => ((c.servingCopy k st).drop (refOff ref)).take n
    | none => []
  ⟨.void, 0, n, true, bs ++ List.replicate (n - bs.length) 0#8, []⟩

/-- The SCORE of a block of a session's map (R218). -/
def Session.scoreOf (x : Session) (k : Yard) (b : ViewBlock) : Word :=
  ((x.map.find? fun e => e.yard = k && e.layer = b.layer && e.block = b.block).map (·.score)).getD 0#32

/-- The part of a block that names object slot 4, the score view (R219): one SCORE after another in KV-view order, and zeros beyond (R160). -/
def Ctl.scorePart (c : Ctl) (k : Yard) (ref : BitVec 64) (n : Nat) : Part :=
  let bs := match c.refStall? k ref, c.objectOf k ref with
    | some st, some v => match c.sessionOf st.fn st.session with
      | some x => ((v.blocks.flatMap fun b => Bits.toLe (x.scoreOf k b).toNat 4).drop (refOff ref)).take n
      | none => []
    | _, _ => []
  ⟨.void, 0, n, true, bs ++ List.replicate (n - bs.length) 0#8, []⟩

/-- A write through the score view (R219, R227): each whole SCORE that the bytes cover goes into the session's map. -/
def Ctl.writeScores (c : Ctl) (k : Yard) (ref : BitVec 64) (bs : List Byte) : Ctl :=
  match c.refStall? k ref, c.objectOf k ref with
  | some st, some v =>
    let at0 := refOff ref
    let new : List (ViewBlock × Word) := (v.blocks.mapIdx fun i b => (i, b)).filterMap fun p =>
      if at0 ≤ 4 * p.1 && 4 * p.1 + 4 ≤ at0 + bs.length then
        some (p.2, BitVec.ofNat 32 (Bits.leNat bs (4 * p.1 - at0) 4)) else none
    let upd (e : MapEntry) : MapEntry :=
      match new.find? fun p => e.yard = k && e.layer = p.1.layer && e.block = p.1.block with
      | some p => { e with score := p.2 }
      | none => e
    c.onObjs fun o => { o with sessions := o.sessions.map fun x =>
      if x.fn = st.fn && x.ix = st.session.toNat % 2 ^ 24 then { x with map := x.map.map upd } else x }
  | _, _ => c

/-- Where an offset of a cluster's inbound area lies in one of the area's two halves (R31, R148): a yard's activations of tick t land in half
(t + 1) mod 2 and are read there in tick t + 1. Offsets of other areas stand as they are. -/
def Ctl.inHalf (c : Ctl) (k : Yard) (l : Cluster) (off half : Nat) : Nat :=
  match ((c.plan?.map (·.areas)).getD []).find? fun a => a.yard = k && a.cluster = l && a.kind = 1 && a.base ≤ off && off < a.base + a.size with
  | some a => a.base + half % 2 * (a.size / 2) + (off - a.base) % (a.size / 2)
  | none => off

/-- The parts that an entry's block is read in (R151, R157, R159, R160). -/
def Ctl.entryParts (c : Ctl) (d : Dp) (r : CoreRef) (e : BlockEntry) : List Part :=
  if e.rel then
    if e.addr.toNat >>> 60 = 6 then [c.adapterPart r.yard e.addr (entryBytes e)]
    else if e.addr.toNat >>> 60 = 4 then [c.scorePart r.yard e.addr (entryBytes e)]
    else match c.objectOf r.yard e.addr with
    | none => [⟨.void, 0, (entryBytes e), true, List.replicate (entryBytes e) 0#8, []⟩]
    | some v => partsOf v.extents (refOff e.addr) (entryBytes e)
  else if e.comp then []
  else if e.tier = 0#2 then tierParts false e.addr.toNat (entryBytes e)
  else if e.tier = 1#2 then tierParts true e.addr.toNat (entryBytes e)
  else
    let a := c.inHalf r.yard r.cluster e.addr.toNat c.hub.tick
    let x := d.readUnits 0 (clusterKey (c.clu r.yard r.cluster.val) a) (entryBytes e) fun _ => false
    [⟨.void, 0, (entryBytes e), true, x.1, x.2⟩]

/-- Issues an entry to receivers: a flight, and its tokens at the tails of the receiving queues (R161, R162). -/
def Ctl.issueTo (c : Ctl) (d : Dp) (r : CoreRef) (e : BlockEntry) (rs : List (Cluster × List (Fin 40))) : Dp :=
  let id := d.nextFlight
  let cores := c.landCores r.yard rs
  let fl : Flight :=
    { id := id, yard := r.yard, issuer := c.core r, entry := e, clusters := c.landClusters r.yard rs, cores := cores
      parts := c.entryParts d r e, stall := if e.rel then some (refStall e.addr) else none, expanded := none }
  let t : Token := ⟨id, e.store, (entryArea e).off, e.len, false, false⟩
  let queues := if e.noToken then d.queues
    else cores.foldl (fun q i => Sparse.upd [] q (queueKey i e.queue) (· ++ [t])) d.queues
  { (d.draw (entryBytes e)) with flights := d.flights ++ [fl], nextFlight := id + 1, queues := queues }

/-- Issues an entry once its queue and area are free; before that it delays its stream alone. -/
def issueEntry (s : State) (r : CoreRef) (e : BlockEntry) : Host.Outcome State Fault Refusal :=
  if !s.ctl.entryFits e then .fault .noSuchAddress
  else
    let rs := s.ctl.receivers r e
    if !s.ctl.issueReady s.dp r.yard rs e then .next s
    else .next { s with dp := (s.ctl.issueTo s.dp r e rs).retireInstr r.yard r.cluster }

/-- FXE_ENTRY_ISSUE (R40, R157-R162): an entry of its cluster's segment issues at or after its scheduled cycle once its queue and area are
free. -/
def execFxeEntryIssue (i : FxeIssue) (s : State) : Host.Outcome State Fault Refusal :=
  if !s.ctl.issues i.core.yard i.core.cluster.val i.at0 then .next s
  else match s.ctl.entryOf s.dp i.core i.entry with
    | none => .next s
    | some e => issueEntry s i.core e

/-- A flight by number in a yard. -/
def Dp.flight? (d : Dp) (k : Yard) (id : Nat) : Option Flight := d.flights.find? fun f => f.id = id && f.yard = k

/-- Replaces a flight. -/
def Dp.setFlight (d : Dp) (f : Flight) : Dp := { d with flights := d.flights.map fun g => if g.id = f.id then f else g }

/-- The whole block of a flight once every part has been read; none before. -/
def Flight.whole (f : Flight) : Option (List Byte × List Bool) :=
  if f.entry.comp then f.expanded.map fun x => (x.1, List.replicate f.entry.len x.2)
  else if f.parts.all (·.done) then
    some (f.parts.flatMap (·.data), f.parts.flatMap fun p =>
      (List.range (p.bytes / 64)).map fun i => p.poison.getD i false)
  else none

/-- Writes an arriving block to every place it lands in (R164). -/
def Dp.land (d : Dp) (f : Flight) (bs : List Byte) (marks : List Bool) : Dp :=
  match f.entry.store with
  | .cluster => f.clusters.foldl (fun d x => d.writeUnits (clusterKey x (entryArea f.entry).off) bs marks) d
  | .core => f.cores.foldl (fun d i => d.writeUnits (coreKey i (entryArea f.entry).off) bs marks) d

/-- Marks a flight's tokens as arrived, with their poison summary (R161). -/
def Dp.arriveTokens (d : Dp) (f : Flight) (poison : Bool) : Dp :=
  let tok (t : Token) : Token := if t.flight = f.id then { t with arrived := true, poison := poison } else t
  { d with queues := f.cores.foldl (fun q i => Sparse.upd [] q (queueKey i f.entry.queue) (·.map tok)) d.queues }

/-- Notes a weight block that arrives as poison with each cluster that it reaches (R206, R267). -/
def Dp.noteBad (d : Dp) (f : Flight) : Dp :=
  if f.entry.rel || f.entry.tier = 2#2 then d
  else { d with badBlocks := d.badBlocks ++ (f.clusters.map fun x => (x, f.entry.addr.toNat)).filter fun x => !d.badBlocks.contains x }

/-- FXE_BLOCK_ARRIVAL (R160-R164): once every part has been read the data stand in the stores and the tokens are ready. -/
def execFxeBlockArrival (yard : Yard) (flight : Nat) (s : State) : Host.Outcome State Fault Refusal :=
  match s.dp.flight? yard flight with
  | none => .next s
  | some f =>
    match f.whole with
    | none => .next s
    | some x =>
      let d := (s.dp.land f x.1 x.2).arriveTokens f (x.2.any id)
      let d := if x.2.any id then d.noteBad f else d
      .next { s with dp := { d with flights := d.flights.filter (·.id ≠ flight) } }

/-! ### Reads of the tiers (R168-R171, R386, R390) -/

/-- The yard that owns a fast-tier address (R26, R152). -/
def ownerOf (addr : Nat) : Yard := Fin.ofNat 8 (addr / 2 ^ 38)

/-- The channel of a fast-tier address within its yard: near stack and channel (R151). -/
def channelOf (addr : Nat) : Nat := (addr / 2 ^ 37 % 2) * 32 + addr / 4096 % 32

/-- A channel of a yard. -/
def Ctl.channel (c : Ctl) (k : Yard) (i : Nat) : Channel := Sparse.get {} (c.yd k).channels i

/-- Whether a fast-tier address lies on a lost channel whose rebuild is not complete (R386). -/
def Ctl.addrLost (c : Ctl) (addr : Nat) : Bool :=
  let x := c.channel (ownerOf addr) (channelOf addr)
  x.lost && !x.rebuilt

/-- Replaces part `i` of a flight. -/
def Flight.setPart (f : Flight) (i : Nat) (p : Part) : Flight :=
  { f with parts := f.parts.mapIdx fun j q => if j = i then p else q }

/-- A poisoned fast-tier read: FAST_UE, its count, the latched address (R171). -/
def Ctl.fastPoison (c : Ctl) (cfg : Cfg) (addr : Nat) : Ctl :=
  let k := ownerOf addr
  ((c.raise cfg (.mem k) 4#16).countYard k 6 1).latchPoison k 0 addr

/-- The address of the first unit of a run that its marks call poisoned (R171). -/
def firstPoison (addr : Nat) (marks : List Bool) : Option Nat := (marks.findIdx? id).map fun i => addr + 64 * i

/-- Whether a layer block of a stall's view is a prefix-tree node's, whose reads are shared work (R218, R339). -/
def Ctl.nodeBlock (c : Ctl) (k : Yard) (st : Stall) (b : ViewBlock) : Bool :=
  (c.sessionOf st.fn st.session).any fun x => x.map.any fun e => e.node && e.yard = k && e.layer = b.layer && e.block = b.block

/-- Whether a part of a flight is read from a prefix-tree node's layer block: the blocks of a KV view lie one after another in equal lengths. -/
def Ctl.nodePart (c : Ctl) (f : Flight) (part : Nat) : Bool :=
  match c.refStall? f.yard f.entry.addr, c.objectOf f.yard f.entry.addr with
  | some st, some v =>
    let size := (v.extents.map (·.len)).sum / Max.max 1 v.blocks.length
    let off := refOff f.entry.addr + ((f.parts.take part).map (·.bytes)).sum
    (v.blocks[off / Max.max 1 size]?).any (c.nodeBlock f.yard st)
  | _, _ => false

/-- Counts a part that is read for a stall with the cluster whose FXE issued it (R339): weights and nodes' blocks are shared work. -/
def Ctl.countRead (c : Ctl) (d : Dp) (f : Flight) (part : Nat) (e : EnergyClass) (n : Nat) : Dp :=
  match f.stall, (List.range 250).find? fun l => c.clu f.yard l = f.issuer / 40 with
  | some i, some l => if c.nodePart f part then d else d.countUnits f.yard l i [(e, n)]
  | _, _ => d

/-- FAST_READ (R151, R169-R171): one part of a block, inside one interleave unit, is read from the fast tier. -/
def execFastRead (yard : Yard) (flight part : Nat) (result : FastResult) (late : Bool) (s : State) :
    Host.Outcome State Fault Refusal :=
  match s.dp.flight? yard flight with
  | none => .next s
  | some f =>
    match f.parts[part]? with
    | none => .next s
    | some p =>
      if p.tier != .fast || p.done then .next s
      else if !fastIn p.addr p.bytes then .fault .noSuchAddress
      else
        let x := s.dp.readUnits 0 (fastKey p.addr) p.bytes fun i =>
          decide (result = .uncorrectable) || s.ctl.addrLost (p.addr + 64 * i)
        let d := (s.dp.draw p.bytes).setFlight (f.setPart part { p with done := true, data := x.1, poison := x.2 })
        let d := if result = .uncorrectable
          then { d with poison := (unitsOf (fastKey p.addr) p.bytes).foldl NatSet.add d.poison } else d
        let k := ownerOf p.addr
        let d := s.ctl.countRead d f part (if k = s.ctl.home yard then .nearByte else .farByte) p.bytes
        let c := if result = .retriedClean || result = .corrected then (s.ctl.raise s.cfg (.mem k) 2#16).countYard k 5 1
          else s.ctl
        let c := match firstPoison p.addr x.2 with | some a => c.fastPoison s.cfg a | none => c
        let c := if late then c.breach s.cfg (s.ctl.home yard) 2 0 false else c
        .next { s with dp := d, ctl := c }

/-- The number of the shed key that a block is read or written under (R172): the owner's of the stall it refers to, else the device key. -/
def Ctl.blockKey (c : Ctl) (k : Yard) (stall : Option Nat) : Nat :=
  match stall.bind (c.stallIn k) with
  | some st => c.fnKey st.fn
  | none => c.sec.deviceKey

/-- SHED_READ (R156, R168, R171, R172, R390): one part of a block is read from the shed under its owner's key; a port out of service delivers
poison. -/
def execShedRead (yard : Yard) (flight part : Nat) (poisoned late : Bool) (s : State) : Host.Outcome State Fault Refusal :=
  match s.dp.flight? yard flight with
  | none => .next s
  | some f =>
    match f.parts[part]? with
    | none => .next s
    | some p =>
      if p.tier != .shed || p.done then .next s
      else if !s.ctl.shedIn p.addr p.bytes then .fault .noSuchAddress
      else
        let port := s.ctl.port (p.addr / 2 ^ 44)
        let x := s.dp.readUnits (s.ctl.blockKey yard f.stall) (shedKeyOf p.addr) p.bytes fun _ => poisoned || !port.up || port.held
        let d := (s.dp.draw p.bytes).setFlight (f.setPart part { p with done := true, data := x.1, poison := x.2 })
        let d := s.ctl.countRead d f part .shedByte p.bytes
        let k := s.ctl.home yard
        let c := match firstPoison p.addr x.2 with
          | some a => ((s.ctl.raise s.cfg (.mem k) 64#16).countYard k 10 1).latchPoison k 1 a
          | none => s.ctl
        let c := if late then c.breach s.cfg k 2 0 false else c
        .next { s with dp := d, ctl := c }

/-! ### The scatter engine (R165-R167, R31) -/

/-- A converted run in the layout of R149: groups of 64 scale bytes and 64 element fields, the last one padded. -/
def groupsOf (f : Fmt) (w : Written) : List Byte :=
  let n := w.scales.length
  (List.range (Bits.ceilDiv n 64)).flatMap fun g =>
    let sc := (w.scales.drop (64 * g)).take 64
    let fs := (w.codes.drop (64 * g * codeBytes f 32)).take (64 * codeBytes f 32)
    sc ++ List.replicate (64 - sc.length) 0x7F#8 ++ fs ++ List.replicate (64 * codeBytes f 32 - fs.length) 0#8

/-- What an SXE makes of its source: FP32 values converted under R127 and R81. -/
def sxeConvert (f : Fmt) (src : List Byte) : Written :=
  convertOut f 0#32 0 ((List.range (src.length / 4)).map fun i => BitVec.ofNat 32 (Bits.leNat src (4 * i) 4))

/-- What an SXE writes of its source: the bytes, or the converted values. -/
def sxeBytes (conv : Option Fmt) (src : List Byte) : List Byte :=
  match conv with
  | none => src
  | some f => if f.blockScaled then groupsOf f (sxeConvert f src) else (sxeConvert f src).codes

/-- Whether a write under GATED is made: its stall is in the commit mask of its yard (R166). -/
def Dp.gateOpen (d : Dp) (k : Yard) (e : BlockEntry) : Bool :=
  !(e.gated && e.rel) || (((d.commit.find? (·.1 = k)).map (·.2)).getD []).contains (refStall e.addr)

/-- The runs of a tier or a store that an SXE write lands in: key, offset within the written bytes, length. -/
def Ctl.sxeTargets (c : Ctl) (r : CoreRef) (e : BlockEntry) (target : SxeTarget) (n : Nat) : List (Nat × Nat × Nat) :=
  match target with
  | .cluster k l =>
    let off := e.addr.toNat % clusterBytes
    [(clusterKey (c.clu k l.val) (if k = r.yard then off else c.inHalf k l off (c.hub.tick + 1)), 0, n)]
  | .entry =>
    if e.rel then
      match c.objectOf r.yard e.addr with
      | none => []
      | some v =>
        ((partsOf v.extents (refOff e.addr) n).foldl (fun (acc : Nat × List (Nat × Nat × Nat)) p =>
          (acc.1 + p.bytes,
            match p.tier with
            | .fast => acc.2 ++ [(fastKey p.addr, acc.1, p.bytes)]
            | .shed => acc.2 ++ [(shedKeyOf p.addr, acc.1, p.bytes)]
            | .void => acc.2)) (0, [])).2
    else if e.tier = 0#2 then [(fastKey e.addr.toNat, 0, n)]
    else if e.tier = 1#2 then [(shedKeyOf e.addr.toNat, 0, n)]
    else [(clusterKey (c.clu r.yard r.cluster.val) e.addr.toNat, 0, n)]

/-- The units that an SXE write counts for its stall (R339): the bytes that reach the fast tier, the shed, or another yard through the uplink. -/
def Ctl.sxeWork (c : Ctl) (r : CoreRef) (e : BlockEntry) (target : SxeTarget) (n : Nat) : List (EnergyClass × Nat) :=
  match target with
  | .cluster k _ => if k = r.yard then [] else [(.treeByte, n)]
  | .entry => (c.sxeTargets r e target n).filterMap fun t =>
      if shedKeyOf 0 ≤ t.1 then some (.shedByte, t.2.2) else if fastKey 0 ≤ t.1 then some (.writeByte, t.2.2) else none

/-- Whether the source and the absolute target of an SXE write exist. -/
def Ctl.sxeFits (c : Ctl) (e : BlockEntry) (target : SxeTarget) (n : Nat) : Bool :=
  locReadable (entryArea e) (entryBytes e) &&
  (match target with
    | .cluster _ _ => e.addr.toNat % clusterBytes + n ≤ clusterBytes
    | .entry => e.rel || (if e.tier = 0#2 then fastIn e.addr.toNat n
        else if e.tier = 1#2 then c.shedIn e.addr.toNat n
        else if e.tier = 2#2 then e.addr.toNat + n ≤ clusterBytes
        else false))

/-- The mark of a stall of a yard. -/
def stallMark (k : Yard) (stall : Nat) : Nat := k.val * 65536 + stall

/-- An SXE write that is made: its bytes land in the runs of its target with their marks under the owner's key, and outbound activations that
carry poison take it to the next yard's stall (R166, R171). -/
def Ctl.sxeLand (c : Ctl) (d : Dp) (r : CoreRef) (tag : RowTag) (e : BlockEntry) (target : SxeTarget) (bs : List Byte)
    (marks : List Bool) : Dp :=
  let sk := c.blockKey r.yard (if e.rel then some (refStall e.addr) else none)
  let d := (c.sxeTargets r e target bs.length).foldl (fun (d : Dp) t =>
    d.sxeRun sk (c.clu r.yard r.cluster.val) t.1 ((bs.drop t.2.1).take t.2.2) (marks.drop (t.2.1 / 64))) d
  match target with
  | .cluster k _ =>
    if k != r.yard && marks.any id then { d with inboundNext := d.inboundNext.add (stallMark k tag.stall.toNat) } else d
  | .entry => d

/-- SXE_WRITE (R165-R168, R171): a block goes from a store to a tier or to another cluster's store, with its marks; a gated
write of a stall outside the commit mask is not made. A conversion counts its clipped and converted elements (R137, R138). -/
def execSxeWrite (o : EngOp) (entry : BlockEntry) (conv : Option Fmt) (target : SxeTarget) (replayed late : Bool) (s : State) : Host.Outcome State Fault Refusal :=
  if !s.ctl.issues o.core.yard o.core.cluster.val o.at0 then .next s
  else if (match conv with | some f => f.integer || !isElement f || f = Fmt.fp32 | none => false) then .fault .badFormat
  else
    let key := locKey (s.ctl.core o.core) (entryArea entry)
    let src := s.dp.mem.readN key (entryBytes entry)
    let bs := sxeBytes conv src
    if !s.ctl.sxeFits entry target bs.length then .fault .noSuchAddress
    else
      let faulty := (s.ctl.seq o.core.yard o.core.cluster.val).faulty
      let units := (List.range entry.len).map fun i => s.dp.poison.contains (key / 64 + i)
      let marks := if conv = none && !faulty then units
        else List.replicate (Bits.ceilDiv bs.length 64) (faulty || units.any id)
      let d := if s.dp.gateOpen o.core.yard entry then s.ctl.sxeLand s.dp o.core o.tag entry target bs marks else s.dp
      let d := if s.dp.gateOpen o.core.yard entry
        then d.countUnits o.core.yard o.core.cluster.val o.tag.stall.toNat (s.ctl.sxeWork o.core entry target bs.length) else d
      let d := match conv with
        | some f =>
          let w := sxeConvert f src
          d.countConv (s.ctl.core o.core) o.core.yard o.tag f (w.clipped.take (src.length / 4))
        | none => d
      let k := s.ctl.home o.core.yard
      let c := match target with
        | .entry => if entry.rel && entry.addr.toNat >>> 60 = 4 && s.dp.gateOpen o.core.yard entry
            then s.ctl.writeScores o.core.yard entry.addr bs else s.ctl
        | .cluster _ _ => s.ctl
      let c := if replayed then (c.raise s.cfg (.mem k) 32#16).countYard k 9 1 else c
      let c := if late then c.breach s.cfg k 5 0 false else c
      .next { s with dp := d.retireInstr o.core.yard o.core.cluster, ctl := c }

/-- WFENCE (R167): every write the cluster issued before it is held. -/
def execWfence (y : YardAt) (cluster : Cluster) (s : State) : Host.Outcome State Fault Refusal :=
  if !s.ctl.issues y.yard cluster.val y.at0 then .next s
  else
    .next { s with dp :=
      { s.dp with unfenced := fenceWrites (s.ctl.clu y.yard cluster.val) s.dp.unfenced [] }.retireInstr y.yard cluster }

/-- The stalls whose rows the clusters of a yard have poisoned in this tick (R170). -/
def Dp.poisonedStalls (d : Dp) (k : Yard) : List Nat :=
  (d.rowPoison.filter fun x => x / 65536 / 250 = k.val).map (· % 65536)

/-- Whether some cluster of the yard that runs the layers of yard `k` is in fault mode: it poisons every row that it works for (R379). -/
def Ctl.anyFaulty (c : Ctl) (k : Yard) : Bool := (c.yd (c.home k)).seqs.any fun x => x.2.faulty

/-- The commit mask of a yard (R166): stalls neither vacant nor struck, without poison in this yard, in their inbound activations or in an
earlier yard, and none while a cluster is in fault mode. -/
def commitMask (c : Ctl) (d : Dp) (k : Yard) : List Nat :=
  let bad := d.poisonedStalls k
  if c.anyFaulty k then []
  else match c.microIn k with
  | none => []
  | some m => (List.range m.stalls.length).filter fun i =>
      match m.stalls[i]? with
      | none => false
      | some st => st.runsIn k.val && !st.struck && st.failedAt.isNone && !bad.contains i && !d.inbound.contains (stallMark k i)

/-- CLUSTER_BARRIER (R166, R170): the commit mask of the yard is formed. -/
def execClusterBarrier (y : YardAt) (s : State) : Host.Outcome State Fault Refusal :=
  if y.at0.cycle < y.at0.sched || (List.finRange 250).all (fun l => !s.ctl.segment y.yard l.val) then .next s
  else
    .next { s with dp := { s.dp with commit := (s.dp.commit.filter (·.1 ≠ y.yard)) ++ [(y.yard, commitMask s.ctl s.dp y.yard)] } }

/-! ### Refresh (R58-R61) -/

/-- Records a refresh of a channel at a cycle from the bell. -/
def Ctl.refreshAt (c : Ctl) (k : Yard) (channel : Fin 64) (cycle : Nat) : Ctl :=
  c.onYard k fun y => { y with channels := Sparse.upd {} y.channels channel.val fun x => { x with refreshed := cycle } }

/-- Whether a yard does frame-program work: it has stalls to run and not every cluster has reported done (R60). -/
def Ctl.yardBusy (c : Ctl) (k : Yard) : Bool :=
  c.fe.ticking && (match c.microIn k with | some m => !m.stalls.isEmpty | none => false) &&
    (c.yd k).reports.clusters.length < 250

/-- REFRESH (R58, R59): a channel refreshes at its scheduled cycle. -/
def execRefresh (yard : Yard) (channel : Fin 64) (cycle : Nat) (s : State) : Host.Outcome State Fault Refusal :=
  .next { s with ctl := s.ctl.refreshAt yard channel cycle }

/-- IDLE_REFRESH (R60): a channel without frame-program work refreshes 3,840 ACLK after its last refresh; no breach. -/
def execIdleRefresh (yard : Yard) (channel : Fin 64) (cycle : Nat) (s : State) : Host.Outcome State Fault Refusal :=
  if s.ctl.yardBusy yard || (cycle : Int) - (s.ctl.channel yard channel.val).refreshed < 3840 then .next s
  else .next { s with ctl := s.ctl.refreshAt yard channel cycle }

/-- The plan's part in a forced refresh before cycle L (R64): CONTRACT_BREACH in the hub with the plan's handle. -/
def Ctl.planBreach (c : Ctl) (cfg : Cfg) : Ctl :=
  let first := !c.hub.event.bits.getLsbD 1
  let h : Handle := match c.objs.selected with | some ix => BitVec.ofNat 32 (0x08 * 2 ^ 24 + ix) | none => 0#32
  let c := c.raise cfg .hub 2#16
  if first then c.onHub fun x => { x with eventPlan := h } else c

/-- FORCED_REFRESH (R61, R63, R64): a busy channel 6,912 ACLK after its last refresh ended is refreshed at once, a breach of
class REFRESH_FORCED. -/
def execForcedRefresh (yard : Yard) (channel : Fin 64) (cycle : Nat) (s : State) : Host.Outcome State Fault Refusal :=
  if !s.ctl.yardBusy yard || (cycle : Int) - (s.ctl.channel yard channel.val).refreshed ≤ 768 + 6912 then .next s
  else
    let overrun := s.ctl.tickLen ≤ cycle
    let c := (s.ctl.refreshAt yard channel cycle).breach s.cfg yard 1 cycle overrun
    .next { s with ctl := if overrun then c else c.planBreach s.cfg }

end Sys2Proof.Machine
end

