-- ==== Sys2Proof/Machine/Expander.lean ====
section
/-! DEFINITION. The expander (07): block records, delta sub-streams, the checks of R193. -/

namespace Sys2Proof.Machine

open Sys2Proof

/-- Sub-streams of a block by format (R182); 0 for formats that no weight image holds. -/
def subStreams (f : Fmt) : Nat :=
  match f with
  | .e8m0 => 0
  | _ => if f.width = 4 then 32 else if f.width ≤ 8 then 16 else if f.width = 16 then 8 else 4

/-- Scale bytes of one sub-stream (R183). -/
def subScales (f : Fmt) : Nat := if f.blockScaled then 8 else 0

/-- Code bytes of one sub-stream: 256 elements (R183). -/
def subCodes (f : Fmt) : Nat := 32 * f.width

/-- Bytes of a raw record (R182, R185). -/
def rawRecord (f : Fmt) : Nat := 16 + subStreams f * (subScales f + subCodes f)

/-- Bytes of a block's expanded output (R182). -/
def expandedBytes (f : Fmt) : Nat := subStreams f * (subScales f + subCodes f)

/-- The header of a block record (R184). -/
structure RecHeader where
  kind : Nat
  format : Option Fmt
  nsub : Nat
  nsym : Nat
  length : Nat
  base : Nat
  deriving DecidableEq, Repr

/-- Reads a header from 16 bytes. -/
def recHeader (bs : List Byte) : RecHeader :=
  { kind := Bits.leNat bs 0 1, format := Fmt.ofCode (Bits.leNat bs 1 1), nsub := Bits.leNat bs 2 1, nsym := Bits.leNat bs 3 1
    length := Bits.leNat bs 4 4, base := Bits.leNat bs 8 8 }

/-- A sub-stream as scales and element codes. -/
structure SubStream where
  scales : List Byte
  codes : List Nat
  deriving DecidableEq, Repr

/-- Reads a raw sub-stream (R183). -/
def rawSub (f : Fmt) (bs : List Byte) : SubStream :=
  let s := subScales f
  ⟨bs.take s, unpackBits f.width 256 (Bits.leNat (bs.drop s) 0 (subCodes f))⟩

/-- The sub-streams of a raw record. -/
def rawSubs (f : Fmt) (rec : List Byte) : List SubStream :=
  (List.range (subStreams f)).map fun j =>
    rawSub f ((rec.drop (16 + j * (subScales f + subCodes f))).take (subScales f + subCodes f))

/-- A symbol of a delta record's table (R186): its value and codeword length, and whether it is ESC. -/
structure Symbol where
  value : Nat
  len : Nat
  esc : Bool
  deriving DecidableEq, Repr

/-- Reads entry `i` of the symbol table: FP32 values are sign-extended from 16 bits (R186). -/
def symbolAt (f : Fmt) (rec : List Byte) (i : Nat) : Symbol :=
  let v := Bits.leNat rec (16 + 4 * i) 2
  { value := if f.width = 32 then (if v < 2 ^ 15 then v else v + (2 ^ 32 - 2 ^ 16)) else v % 2 ^ f.width
    len := Bits.leNat rec (18 + 4 * i) 1, esc := Bits.leNat rec (19 + 4 * i) 1 % 2 = 1 }

/-- The canonical codewords of R189: (length, codeword, symbol), by length and then table index. -/
def codewords (syms : List Symbol) : List (Nat × Nat × Symbol) :=
  let used := (List.range 16).flatMap fun l => syms.filter fun s => s.len = l && 0 < l
  (used.foldl (fun (acc : List (Nat × Nat × Symbol) × Option (Nat × Nat)) s =>
    let w := match acc.2 with | none => 0 | some (l, c) => (c + 1) * 2 ^ (s.len - l)
    (acc.1 ++ [(s.len, w, s)], some (s.len, w))) ([], none)).1

/-- The bits of bytes, from bit 7 to bit 0 of each (R187). -/
def bitsOf (bs : List Byte) : List Bool := bs.flatMap fun b => (List.range 8).map fun i => b.getLsbD (7 - i)

/-- The number that bits spell, most significant first. -/
def bitsNat (bs : List Bool) : Nat := bs.foldl (fun a b => 2 * a + b.toNat) 0

/-- How a sub-stream's decoding ends. -/
inductive Decoded where
  | ok (ds : List Nat) (left : Nat)
  | codeword
  | count
  deriving DecidableEq, Repr

/-- Decodes `n` symbols (R188, R193): running out of bits at a symbol's start fails the count check, elsewhere the codeword
check. -/
def decodeSyms (w : Nat) (cs : List (Nat × Nat × Symbol)) : Nat → List Bool → List Nat → Decoded
  | 0, bits, acc => .ok acc.reverse bits.length
  | n + 1, bits, acc =>
    if bits.isEmpty then .count
    else
      match cs.find? fun c => c.1 ≤ bits.length && bitsNat (bits.take c.1) = c.2.1 with
      | none => .codeword
      | some c =>
        let rest := bits.drop c.1
        if c.2.2.esc then
          if rest.length < w then .codeword
          else decodeSyms w cs n (rest.drop w) (bitsNat (rest.take w) :: acc)
        else decodeSyms w cs n rest (c.2.2.value :: acc)

/-- Replaces the scales that a mask names, one byte each in ascending order (R187). -/
def replaceScales (mask : Byte) (new : List Byte) (old : List Byte) : List Byte :=
  (old.foldl (fun (acc : Nat × List Byte × List Byte) b =>
    if mask.getLsbD acc.1 then (acc.1 + 1, acc.2.1.tail, acc.2.2 ++ [acc.2.1.headD 0#8])
    else (acc.1 + 1, acc.2.1, acc.2.2 ++ [b])) (0, new, [])).2.2

/-- One delta sub-stream over its base (R187, R188), or the first check it fails in the order of R193: 3 codeword, 4 count, 5 length. DESIGN
CHOICE (log 93): bytes that end before the mask and the replacement scales do fail the count check, as bytes that run out before COUNT
symbols. -/
def deltaSub (f : Fmt) (cs : List (Nat × Nat × Symbol)) (bs : List Byte) (count : Nat) (base : SubStream) :
    SubStream ⊕ Nat :=
  let mask := bs.headD 0#8
  let reps := if f.blockScaled then ((List.range 8).filter fun i => mask.getLsbD i).length else 0
  if bs.length < 1 + reps then .inr 4
  else
    let bits := bitsOf (bs.drop (1 + reps))
    match decodeSyms f.width cs count bits [] with
    | .codeword => .inr 3
    | .count => .inr 4
    | .ok ds left =>
      if 256 < count then .inr 4
      else if 8 ≤ left then .inr 5
      else .inl ⟨if f.blockScaled then replaceScales mask ((bs.drop 1).take reps) base.scales else [],
        base.codes.mapIdx fun i c => (c + ds.getD i 0) % 2 ^ f.width⟩

/-- The expanded output (R149, R183): groups of 64 blocks with their scales first, or packed codes. -/
def expandedOut (f : Fmt) (subs : List SubStream) : List Byte :=
  if f.blockScaled then
    (List.range (subs.length / 8)).flatMap fun g =>
      let grp := (subs.drop (8 * g)).take 8
      grp.flatMap (·.scales) ++ grp.flatMap fun s => codesToBytes f s.codes
  else subs.flatMap fun s => codesToBytes f s.codes

/-- The directory of a delta record: COUNT and BYTES per sub-stream (R186). -/
def directory (rec : List Byte) (n : Nat) : List (Nat × Nat) :=
  (List.range n).map fun j => (Bits.leNat rec (80 + 4 * j) 2, Bits.leNat rec (82 + 4 * j) 2)

/-- The bytes of each delta sub-stream, without padding between them (R186). -/
def deltaBytes (rec : List Byte) (n : Nat) : List (List Byte) :=
  ((directory rec n).foldl (fun (acc : Nat × List (List Byte)) e =>
    (acc.1 + e.2, acc.2 ++ [(rec.drop acc.1).take e.2])) (80 + 4 * n, [])).2

/-- The header check of R193. -/
def headerFails (h : RecHeader) (rec : List Byte) (len : Nat) : Bool :=
  match h.format with
  | none => true
  | some f =>
    let n := subStreams f
    h.kind > 1 || n = 0 || h.nsub != n || expandedBytes f != 64 * len ||
      (if h.kind = 0 then h.length != rawRecord f
      else
        let dir := directory rec n
        h.length < 80 + 4 * n || dir.any (fun e => e.2 < 1 || 1024 < e.2) ||
          h.length != 80 + 4 * n + (dir.map (·.2)).sum ||
          (!f.blockScaled && (deltaBytes rec n).any fun b => b.headD 0#8 != 0#8))

/-- The code-table check of R193. -/
def tableFails (h : RecHeader) (rec : List Byte) : Bool :=
  let lens := (List.range 16).map fun i => Bits.leNat rec (18 + 4 * i) 1
  h.nsym < 1 || 16 < h.nsym || (List.range 16).any (fun i => h.nsym ≤ i && Bits.leNat rec (16 + 4 * i) 4 != 0) ||
    lens.any (15 < ·) || 2 ^ 15 < ((lens.filter (0 < ·)).map fun l => 2 ^ (15 - l)).sum

/-- The most bytes a block record that passes its header check has: a delta record of 32 sub-streams of 1,024 bytes. -/
def maxRecord : Nat := 80 + 4 * 32 + 32 * 1024

/-- Bytes of a stack from an address to its end. -/
def stackLeft (addr : Nat) : Nat := stackBytes - addr % 2 ^ 37

/-- What the expander reads at a fast-tier address, no further than the end of its stack: bytes, and the address of the first poisoned unit. -/
def Dp.readRecord (d : Dp) (c : Ctl) (addr n : Nat) : List Byte × Option Nat :=
  let m := Min.min n (stackLeft addr)
  let x := d.readUnits 0 (fastKey addr) (64 * Bits.ceilDiv m 64) fun i => c.addrLost (addr + 64 * i)
  (x.1.take m, firstPoison addr x.2)

/-- Where the expander finds a block's record and its base's: the header at the entry's address, the bytes of the record that it reads, and
whether BASE names a place on the same stack (R193). -/
def Dp.recordAt (d : Dp) (c : Ctl) (addr : Nat) : RecHeader × Nat × Bool :=
  let h := recHeader (d.readRecord c addr 16).1
  (h, Max.max 16 (Min.min h.length maxRecord), h.base % 64 = 0 && fastIn h.base 16 && h.base / 2 ^ 37 = addr / 2 ^ 37)

/-- Expands a block record (R191-R193): the output, or the check that fails first in the order of R193 with the address of what failed. A record
that passes its header check and runs beyond its stack fails that check (log 93). -/
def expand (c : Ctl) (d : Dp) (addr len : Nat) : List Byte ⊕ (Nat × Nat) :=
  let p := d.recordAt c addr
  let h := p.1
  let r := d.readRecord c addr p.2.1
  let rec0 := r.1
  let f := h.format.getD .fp32
  let bb := if h.kind = 1 && p.2.2 then d.readRecord c h.base (rawRecord f) else ([], none)
  let bh := recHeader bb.1
  match r.2.orElse fun _ => bb.2 with
  | some a => .inr (6, a)
  | none =>
  if headerFails h rec0 len || stackLeft addr < h.length then .inr (0, addr)
  else if h.kind = 0 then .inl (expandedOut f (rawSubs f rec0))
  else if !p.2.2 || bh.kind != 0 || bh.format != h.format || bh.nsub != h.nsub || bh.length != rawRecord f then .inr (1, addr)
  else if tableFails h rec0 then .inr (2, addr)
  else
    let cs := codewords ((List.range 16).map (symbolAt f rec0))
    let subs := ((deltaBytes rec0 h.nsub).zip (directory rec0 h.nsub)).zipWith
      (fun (x : List Byte × Nat × Nat) b => deltaSub f cs x.1 x.2.1 b) (rawSubs f bb.1)
    match (subs.filterMap fun x => match x with | .inr k => some k | .inl _ => none) with
    | [] => .inl (expandedOut f (subs.filterMap fun x => match x with | .inl s => some s | .inr _ => none))
    | k :: ks => .inr (ks.foldl Min.min k, addr)

/-- The uncorrectable errors that the reads of a block find (R168): those of the named unit addresses that lie in its record or in the base
record that it reads stay poison. -/
def Dp.badUnits (d : Dp) (c : Ctl) (addr : Nat) (bad : List Nat) : Dp :=
  let p := d.recordAt c addr
  let n := rawRecord (p.1.format.getD .fp32)
  let hit (a : Nat) : Bool := (addr ≤ a && a < addr + p.2.1) || (p.1.kind = 1 && p.2.2 && p.1.base ≤ a && a < p.1.base + n)
  { d with poison := (bad.filter hit).foldl (fun u a => u.add (fastKey a / 64)) d.poison }

/-- EXPANDER_BLOCK (R168, R182-R193, R195): a COMP block is expanded; a failed check poisons the whole output and is counted. `bad` names the
units whose reads end in an uncorrectable error. -/
def execExpanderBlock (yard : Yard) (x : ExpRead) (late : Bool) (s : State) : Host.Outcome State Fault Refusal :=
  match s.dp.flight? yard x.flight with
  | none => .next s
  | some f =>
    if !f.entry.comp || f.expanded.isSome then .next s
    else
      let addr := f.entry.addr.toNat
      let d := s.dp.badUnits s.ctl addr x.bad
      let r := expand s.ctl d addr f.entry.len
      let k := ownerOf addr
      let out : List Byte × Bool :=
        match r with
        | .inl bs => (bs, false)
        | .inr _ => (freeBytes d.drawn (entryBytes f.entry), true)
      let d := (d.draw (entryBytes f.entry)).setFlight { f with expanded := some out }
      let d := match r with
        | .inl _ => d
        | .inr w => { d with badBlocks := d.badBlocks ++ f.clusters.map fun u => (u, w.2) }
      let c :=
        match r with
        | .inl _ => s.ctl
        | .inr w =>
          let c := if w.1 = 6 then s.ctl.fastPoison s.cfg w.2 else s.ctl.latchPoison k 0 addr
          c.expFail s.cfg k (addr / 2 ^ 37 % 2) w.1
      let c := if late then c.breach s.cfg (s.ctl.home yard) 3 0 false else c
      .next { s with dp := d, ctl := c }

end Sys2Proof.Machine
end

