-- ==== Sys2Proof/Machine/Signing.lean ====
section
/-! DEFINITION. The verification of signatures as R15 names it: ECDSA over P-384, and HSS of two levels of LMS_SHA256_M32_H20 with
LM-OTS_SHA256_N32_W8. PRESUMED (log entry 104): the layouts and type codes of keys and signatures are those of SEC 1 and of RFC 8554, whose
lengths are the ones that the spec gives. -/

namespace Sys2Proof.Machine

open Sys2Proof

/-! ### SHA-256 -/

/-- The first 32 bits of the fractional parts of the cube roots of the first 64 primes. -/
def sha256K : List (BitVec 32) :=
  [0x428a2f98#32, 0x71374491#32, 0xb5c0fbcf#32, 0xe9b5dba5#32, 0x3956c25b#32, 0x59f111f1#32, 0x923f82a4#32, 0xab1c5ed5#32,
   0xd807aa98#32, 0x12835b01#32, 0x243185be#32, 0x550c7dc3#32, 0x72be5d74#32, 0x80deb1fe#32, 0x9bdc06a7#32, 0xc19bf174#32,
   0xe49b69c1#32, 0xefbe4786#32, 0x0fc19dc6#32, 0x240ca1cc#32, 0x2de92c6f#32, 0x4a7484aa#32, 0x5cb0a9dc#32, 0x76f988da#32,
   0x983e5152#32, 0xa831c66d#32, 0xb00327c8#32, 0xbf597fc7#32, 0xc6e00bf3#32, 0xd5a79147#32, 0x06ca6351#32, 0x14292967#32] ++
  [0x27b70a85#32, 0x2e1b2138#32, 0x4d2c6dfc#32, 0x53380d13#32, 0x650a7354#32, 0x766a0abb#32, 0x81c2c92e#32, 0x92722c85#32,
   0xa2bfe8a1#32, 0xa81a664b#32, 0xc24b8b70#32, 0xc76c51a3#32, 0xd192e819#32, 0xd6990624#32, 0xf40e3585#32, 0x106aa070#32,
   0x19a4c116#32, 0x1e376c08#32, 0x2748774c#32, 0x34b0bcb5#32, 0x391c0cb3#32, 0x4ed8aa4a#32, 0x5b9cca4f#32, 0x682e6ff3#32,
   0x748f82ee#32, 0x78a5636f#32, 0x84c87814#32, 0x8cc70208#32, 0x90befffa#32, 0xa4506ceb#32, 0xbef9a3f7#32, 0xc67178f2#32]

/-- The state before the first block. -/
def sha256Init : List (BitVec 32) :=
  [0x6a09e667#32, 0xbb67ae85#32, 0x3c6ef372#32, 0xa54ff53a#32, 0x510e527f#32, 0x9b05688c#32, 0x1f83d9ab#32, 0x5be0cd19#32]

/-- Rotation to the right. -/
def rotr32 (x : BitVec 32) (n : Nat) : BitVec 32 := (x >>> n) ||| (x <<< (32 - n))

/-- A message padded to whole blocks of 64 bytes. -/
def sha256Pad (m : List Byte) : List Byte :=
  m ++ [0x80#8] ++ List.replicate ((119 - m.length % 64) % 64) 0#8 ++ Bits.toBe (8 * m.length) 8

/-- The 16 words of a block, most significant byte first. -/
def sha256Words (b : List Byte) : List (BitVec 32) :=
  (List.range 16).map fun i => BitVec.ofNat 32 (Bits.beNat ((b.drop (4 * i)).take 4))

/-- One word of the schedule from the 16 before it. -/
def sha256Next (w : List (BitVec 32)) : BitVec 32 :=
  let a := w.getD 1 0#32
  let b := w.getD 14 0#32
  (rotr32 b 17 ^^^ rotr32 b 19 ^^^ (b >>> 10)) + w.getD 9 0#32 + (rotr32 a 7 ^^^ rotr32 a 18 ^^^ (a >>> 3)) + w.getD 0 0#32

/-- One round: the state and the window of the schedule. -/
def sha256Round (st : List (BitVec 32) × List (BitVec 32)) (k : BitVec 32) : List (BitVec 32) × List (BitVec 32) :=
  match st.1 with
  | [a, b, c, d, e, f, g, h] =>
    let t1 := h + (rotr32 e 6 ^^^ rotr32 e 11 ^^^ rotr32 e 25) + ((e &&& f) ^^^ (~~~e &&& g)) + k + st.2.headD 0#32
    let t2 := (rotr32 a 2 ^^^ rotr32 a 13 ^^^ rotr32 a 22) + ((a &&& b) ^^^ (a &&& c) ^^^ (b &&& c))
    ([t1 + t2, a, b, c, d + t1, e, f, g], st.2.tail ++ [sha256Next st.2])
  | l => (l, st.2)

/-- One block. -/
def sha256Block (h : List (BitVec 32)) (b : List Byte) : List (BitVec 32) :=
  h.zipWith (· + ·) (sha256K.foldl sha256Round (h, sha256Words b)).1

/-- SHA-256 of a message, as the 32 bytes that it writes. -/
def sha256 (m : List Byte) : List Byte :=
  let p := sha256Pad m
  Bits.toBe (Bits.beNat (((List.range (p.length / 64)).foldl (fun h i => sha256Block h ((p.drop (64 * i)).take 64)) sha256Init).flatMap fun x =>
    Bits.toBe x.toNat 4)) 32

/-! ### LM-OTS, LMS and HSS (RFC 8554) -/

/-- Bytes of a record from an offset. -/
def slice (bs : List Byte) (off n : Nat) : List Byte := (bs.drop off).take n

/-- A big-endian number in a record. -/
def beAt (bs : List Byte) (off n : Nat) : Nat := Bits.beNat (slice bs off n)

/-- LM-OTS_SHA256_N32_W8. -/
def otsType : Nat := 4

/-- LMS_SHA256_M32_H20. -/
def lmsType : Nat := 8

/-- The height of its tree. -/
def lmsHeight : Nat := 20

/-- Steps of a Winternitz chain from position `j` on. -/
def otsChain (key : List Byte) : Nat → Nat → List Byte → List Byte
  | _, 0, t => t
  | j, n + 1, t => otsChain key (j + 1) n (sha256 (key ++ [BitVec.ofNat 8 j] ++ t))

/-- The 34 digits that LM-OTS signs: those of the message's hash, and their checksum. -/
def otsDigits (hash : List Byte) : List Nat :=
  let ds := hash.map BitVec.toNat
  let sum := (ds.map fun d => 255 - d).sum
  ds ++ [sum / 256 % 256, sum % 256]

/-- The public key that an LM-OTS signature of a message is one under: `key` is the tree's identifier with the leaf's number. -/
def otsCandidate (key msg sig : List Byte) : List Byte :=
  let hash := sha256 (key ++ [0x81#8, 0x81#8] ++ slice sig 4 32 ++ msg)
  let zs := ((otsDigits hash).mapIdx fun i a => otsChain (key ++ Bits.toBe i 2) a (255 - a) (slice sig (36 + 32 * i) 32)).flatten
  sha256 (key ++ [0x80#8, 0x80#8] ++ zs)

/-- The root above a node of a Merkle tree, by the path of its siblings. -/
def lmsClimb (ident sig : List Byte) : Nat → Nat → List Byte → List Byte
  | 0, _, t => t
  | n + 1, node, t =>
    let sibling := slice sig (1132 + 32 * (lmsHeight - (n + 1))) 32
    lmsClimb ident sig n (node / 2)
      (sha256 (ident ++ Bits.toBe (node / 2) 4 ++ [0x83#8, 0x83#8] ++ if node % 2 = 1 then sibling ++ t else t ++ sibling))

/-- The root of the tree that an LMS signature of a message is one under. -/
def lmsCandidate (ident msg sig : List Byte) : List Byte :=
  let node := 2 ^ lmsHeight + beAt sig 0 4
  lmsClimb ident sig lmsHeight node
    (sha256 (ident ++ Bits.toBe node 4 ++ [0x82#8, 0x82#8] ++ otsCandidate (ident ++ slice sig 0 4) msg (slice sig 4 1124)))

/-- Whether a 56-byte LMS public key is of the types of R15. -/
def lmsKeyOk (pub : List Byte) : Bool := pub.length = 56 && beAt pub 0 4 = lmsType && beAt pub 4 4 = otsType

/-- Whether an LMS signature, 1,772 bytes, verifies. -/
def lmsVerifies (pub msg sig : List Byte) : Bool :=
  lmsKeyOk pub && sig.length = 1772 && beAt sig 4 4 = otsType && beAt sig 1128 4 = lmsType && beAt sig 0 4 < 2 ^ lmsHeight &&
    lmsCandidate (slice pub 8 16) msg sig = slice pub 24 32

/-- Whether a 60-byte HSS public key is of two levels of the types of R15. -/
def hssKeyOk (pub : List Byte) : Bool := pub.length = 60 && beAt pub 0 4 = 2 && lmsKeyOk (pub.drop 4)

/-- Whether an HSS signature, 3,604 bytes, of a message verifies under a public key (R15): the upper tree signs the lower tree's key, and the
lower tree the message. -/
def hssVerifies (pub msg sig : List Byte) : Bool :=
  hssKeyOk pub && sig.length = 3604 && beAt sig 0 4 = 1 && lmsVerifies (pub.drop 4) (slice sig 1776 56) (slice sig 4 1772) &&
    lmsVerifies (slice sig 1776 56) msg (sig.drop 1832)

/-! ### ECDSA over P-384 -/

namespace P384

/-- The field's prime. -/
def p : Nat := 2 ^ 384 - 2 ^ 128 - 2 ^ 96 + 2 ^ 32 - 1

/-- The order of the curve. -/
def n : Nat := 0xffffffffffffffffffffffffffffffffffffffffffffffffc7634d81f4372ddf581a0db248b0a77aecec196accc52973

/-- The constant term of the curve y² = x³ − 3x + b. -/
def b : Nat := 0xb3312fa7e23ee7e4988e056be3f82d19181d9c6efe8141120314088f5013875ac656398d8a2ed19d2a85c8edd3ec2aef

/-- A point x/z², y/z³; z = 0 is the point at infinity. -/
structure Point where
  x : Nat
  y : Nat
  z : Nat
  deriving DecidableEq, Repr

/-- The base point. -/
def g : Point :=
  ⟨0xaa87ca22be8b05378eb1c71ef320ad746e1d3b628ba79b9859f741e082542a385502f25dbf55296c3a545e3872760ab7,
   0x3617de4a96262c6f5d9e98bf9292dc29f8f41dbd289a147ce9da3113b5f0b8c00a60b1ce1d7e819d7a431d7c90ea0e5f, 1⟩

/-- A difference in the field. -/
def sub (u v : Nat) : Nat := (u + p - v % p) % p

/-- Twice a point. -/
def dbl (a : Point) : Point :=
  let d := a.z * a.z % p
  let g := a.y * a.y % p
  let e := a.x * g % p
  let f := 3 * sub a.x d * (a.x + d) % p
  let x := sub (f * f % p) (8 * e)
  ⟨x, sub (f * sub (4 * e) x) (8 * g * g), sub (sub ((a.y + a.z) * (a.y + a.z)) g) d⟩

/-- The sum of two points. -/
def add (a c : Point) : Point :=
  if a.z = 0 then c
  else if c.z = 0 then a
  else
    let d := a.z * a.z % p
    let e := c.z * c.z % p
    let u := a.x * e % p
    let v := c.x * d % p
    let s := a.y * c.z * e % p
    let t := c.y * a.z * d % p
    if u = v then (if s = t then dbl a else ⟨1, 1, 0⟩)
    else
      let h := sub v u
      let r := sub t s
      let hh := h * h % p
      let hhh := h * hh % p
      let x := sub (sub (r * r) hhh) (2 * u * hh)
      ⟨x, sub (r * sub (u * hh) x) (s * hhh), h * a.z * c.z % p⟩

/-- A multiple of a point, by the bits of the factor from bit 383 down. -/
def mul (k : Nat) (a : Point) : Point :=
  (List.range 384).foldl (fun acc i => let d := dbl acc; if k.testBit (383 - i) then add d a else d) ⟨1, 1, 0⟩

/-- A power modulo a number, by the bits of the exponent from bit 383 down. -/
def powMod (a e m : Nat) : Nat :=
  (List.range 384).foldl (fun acc i => if e.testBit (383 - i) then acc * acc % m * a % m else acc * acc % m) 1

/-- The public key that 97 bytes give, uncompressed: 0x04, x and y of a point on the curve. -/
def keyOf (bs : List Byte) : Option Point :=
  let x := beAt bs 1 48
  let y := beAt bs 49 48
  if bs.length = 97 && bs.headD 0#8 = 4#8 && x < p && y < p && y * y % p = (x * x * x + b + (p - 3) * x) % p then some ⟨x, y, 1⟩ else none

/-- Whether a signature, r and s of 48 bytes each, verifies over a digest. -/
def verifies (q : Point) (e r s : Nat) : Bool :=
  let w := powMod s (n - 2) n
  let a := add (mul (e * w % n) g) (mul (r * w % n) q)
  let i := powMod a.z (p - 2) p
  0 < r && r < n && 0 < s && s < n && a.z ≠ 0 && a.x * i % p * i % p % n = r

end P384

/-- Whether an ECDSA P-384 signature over a digest verifies under a 97-byte public key (R15). -/
def ecdsaVerifies (pub : List Byte) (digest : Digest) (sig : List Byte) : Bool :=
  match P384.keyOf pub with
  | none => false
  | some q => sig.length = 96 && P384.verifies q digest.toNat (beAt sig 0 48) (beAt sig 48 48)

/-- Whether 157 bytes are two well-formed public keys (R375): a point of the curve and an HSS key of two levels. -/
def keysWellFormed (bs : List Byte) : Bool := bs.length = 157 && (P384.keyOf (bs.take 97)).isSome && hssKeyOk (bs.drop 97)

end Sys2Proof.Machine
end

