-- ==== Sys2Proof/Machine/Identity.lean ====
section
/-! DEFINITION. The device's identity (R357, R364-R367): key IDs, the keys that the seed derives, the two certificate records, and the procedure by
which a holder of them judges the ledger's keys. -/

namespace Sys2Proof.Machine

open Sys2Proof

/-- Bytes of a record as a digest. -/
def digestAt (bs : List Byte) (off : Nat) : Digest := BitVec.ofNat 384 (Bits.beNat ((bs.drop off).take 48))

/-- Whether a dual signature verifies under a key (R15): ECDSA over the digest of the message, HSS over the message. -/
def dualVerifies (ecdsa hss msg sigE sigH : List Byte) : Bool := ecdsaVerifies ecdsa (sha384 msg) sigE && hssVerifies hss msg sigH

/-! ### Keys -/

/-- The public keys of a pair of signatures' key pairs as bytes: the ECDSA key, then the HSS key. -/
def publicBytes (k : Config.Keys) : List Byte := k.1.toList ++ k.2.toList

/-- The key ID of two public keys (R347, R368). -/
def keyIdOf (k : Config.Keys) : Digest := sha384 (publicBytes k)

/-- The identity key and the ledger key (R364): derived from the seed, so the same at every start. -/
def identityKeys : Config.Keys := Config.derivedKeys Config.deviceSeed false

/-- See `identityKeys`. -/
def ledgerKeys : Config.Keys := Config.derivedKeys Config.deviceSeed true

/-- DEVICE_ID (R364). -/
def deviceId : Digest := keyIdOf identityKeys

/-- LEDGER_KEY_ID (R347). -/
def ledgerKeyId : Digest := keyIdOf ledgerKeys

/-- The fused key ID of Oroset's firmware-signing key pair (R357). -/
def fwKeyId : Digest := keyIdOf Config.fwKeys

/-! ### Certificates (R366, R367) -/

/-- The MAGIC of a certificate record. -/
def certMagic : Nat := 0x4F574352

/-- Bytes 0x000 to 0x10F of a certificate record: what its signatures are made over. -/
def certBody (kind : Byte) (subject : Config.Keys) (issuer : Digest) : List Byte :=
  Bits.toLe certMagic 4 ++ [kind, 0#8, 0#8, 0#8] ++ digestBytes (keyIdOf subject) ++ digestBytes issuer ++ publicBytes subject ++ List.replicate 11 0#8

/-- A certificate record: 4,096 bytes. -/
def certRecord (kind : Byte) (subject : Config.Keys) (issuer : Digest) (sig : Config.Signature) : List Byte :=
  certBody kind subject issuer ++ sig.1.toList ++ sig.2.toList ++ List.replicate 124 0#8

/-- The identity certificate, issued at manufacture, and the ledger certificate, issued by the identity key: written once, never replaced. -/
def identityCertificate : List Byte := certRecord 0#8 identityKeys (keyIdOf Config.issuerKeys) Config.identitySignature

/-- See `identityCertificate`. -/
def ledgerCertificate : List Byte := certRecord 1#8 ledgerKeys deviceId Config.ledgerSignature

/-- Whether a record's two signatures verify under two public keys, over its bytes 0x000 to 0x10F. -/
def certSigned (ecdsa hss rec : List Byte) : Bool :=
  dualVerifies ecdsa hss (rec.take 0x110) (slice rec 0x110 96) (slice rec 0x170 3604)

/-- The ECDSA and HSS keys that a record certifies. -/
def certSubject (rec : List Byte) : List Byte × List Byte := (slice rec 0x068 97, slice rec 0x0C9 60)

/-- certified() of R367: whether two records, with the manufacturing keys that Oroset publishes, certify keys as the ledger's keys of a device. -/
def certified (oroset : List (List Byte × List Byte)) (i l : List Byte) (keys : List Byte × List Byte) (device : Digest) : Bool :=
  let a := certSubject i
  let b := certSubject l
  Bits.leNat i 0 4 = certMagic && i.getD 4 0#8 = 0#8 && Bits.leNat l 0 4 = certMagic && l.getD 4 0#8 = 1#8 &&
    sha384 (a.1 ++ a.2) = device && digestAt i 0x008 = device && digestAt l 0x038 = device &&
    (oroset.any fun k => sha384 (k.1 ++ k.2) = digestAt i 0x038 && certSigned k.1 k.2 i) &&
    sha384 (keys.1 ++ keys.2) = digestAt l 0x008 && sha384 (b.1 ++ b.2) = digestAt l 0x008 && certSigned a.1 a.2 l

end Sys2Proof.Machine
end

