-- ==== Sys2Proof/Machine/Jobs.lean ====
section
/-! DEFINITION. Jobs (10): acceptance, endings, suspension, resumption, cancellation and queries. -/

namespace Sys2Proof.Machine

open Sys2Proof

/-- Issues a handle whose object is found by the handle's own index. -/
def Fn.issueSelf (f : Fn) (k : ObjKind) : Option (Nat × Fn) :=
  match f.issue k 0 with
  | none => none
  | some (ix, g) => some (ix, { g with handles := g.handles.map fun e => if e.1 = ix then (ix, k, ix) else e })

/-- Whether a function's handle table is full (R282, R283). -/
def Fn.full (f : Fn) : Bool := (f.issue .job 0).isNone

/-- A job of a function by handle index. -/
def Ctl.job? (c : Ctl) (n : BitVec 8) (ix : Nat) : Option Job := c.objs.jobs.find? fun j => j.cmd.fn = n && j.ix = ix

/-- A job by the order in which its packet was fetched. -/
def Ctl.jobByOrder (c : Ctl) (order : Nat) : Option Job := c.objs.jobs.find? fun j => !j.device && j.cmd.order = order

/-- Replaces a job. -/
def Ctl.setJob (c : Ctl) (j : Job) : Ctl :=
  c.onObjs fun o => { o with jobs := o.jobs.map fun x => if x.cmd.fn = j.cmd.fn && x.ix = j.ix then j else x }

/-- A session of a function by handle index. -/
def Ctl.session? (c : Ctl) (n : BitVec 8) (ix : Nat) : Option Session :=
  c.objs.sessions.find? fun x => x.fn = n && x.ix = ix

/-- Frees a handle of a function. -/
def Ctl.freeHandle (c : Ctl) (n : BitVec 8) (ix : Nat) : Ctl := c.onFn n fun f => f.free ix

/-- A job's state when it is accepted. -/
def Job.fresh (m : Cmd) (ix opcode tick : Nat) (subject : Handle) (kind : JobKind) (limit : Nat) (regions : List Handle)
    (isRequest device : Bool) : Job :=
  { cmd := m, ix := ix, opcode := opcode, subject := subject, kind := kind, st := .running, wait := 0, progress := 0
    limit := limit, started := tick, moved := tick, status := if device then 0#16 else Status.jobAccepted, energy := 0
    tokensIn := 0, tokensOut := 0, firstTick := none, lastTick := none, ops := [], regions := regions
    isRequest := isRequest, device := device, inflight := 0, ending := none }

/-- Accepts a job (R280): a handle of type 0x04 and the JOB_ACCEPTED record; NO_SPACE where the table is full. -/
def Ctl.acceptJob (c : Ctl) (m : Cmd) (opcode : Nat) (subject : Handle) (kind : JobKind) (limit : Nat)
    (regions : List Handle) (isRequest : Bool) : Ctl × Option Nat :=
  match (c.fn? m.fn).bind fun f => f.issueSelf .job with
  | none => (c.finish m Status.noSpace 0#32 0, none)
  | some (ix, g) =>
    let c := c.onFn m.fn fun _ => g
    let j := Job.fresh m ix opcode c.hub.tick subject kind limit regions isRequest false
    let c := c.onObjs fun o => { o with jobs := o.jobs ++ [j] }
    (c.interim m Status.jobAccepted ix, some ix)

/-- Commands that wait on a job which ends of itself complete with NO_EFFECT (R297). -/
def Ctl.dropOps (c : Ctl) (j : Job) : Ctl := j.ops.foldl (fun c o => c.finish o.2 Status.noEffect 0#32 0) c

/-- Ends a job that has no tally: its final record (R280), its pending commands. -/
def Ctl.finishJob (c : Ctl) (j : Job) (status : BitVec 16) (handle : Handle) (result : Nat) : Ctl :=
  let c := c.setJob { j with st := .ended, wait := 0, status := status, ops := [], ending := some status }
  let c := if j.device then c else (c.decide j.cmd status handle result none (some j.ix)).settle j.cmd.fn
  c.dropOps j

/-- Decides that a request ends with a status; its tally and record follow at the bell once no step of it is in flight (R342). -/
def Ctl.endRequest (c : Ctl) (j : Job) (status : BitVec 16) : Ctl :=
  if j.ending.isSome || j.st = .ended then c else c.setJob { j with ending := some status }

/-- Moves a job's PROGRESS (R298, R299). -/
def Job.moveTo (j : Job) (tick progress : Nat) : Job :=
  if progress = j.progress then j else { j with progress := progress, moved := tick }

/-! ### Commands on jobs (R297) -/

/-- Whether a job's final status stands. -/
def Job.over (j : Job) : Bool := j.st = .ended || j.ending.isSome

/-- The checks of a command on a job: a live handle of type 0x04, a job that the device did not start. -/
def Ctl.jobChecks (c : Ctl) (p : Pkt) (f : Fn) : List (Bool × BitVec 16) :=
  [((f.object .job p.subject).isSome, Status.badHandle),
    (match c.job? p.fn (ixOf p.subject) with | some j => !j.device | none => true, Status.badState)]

/-- The job that a packet names. -/
def Ctl.jobOf (c : Ctl) (m : Cmd) (p : Pkt) : Option Job := c.job? m.fn (ixOf p.subject)

/-- JOB_SUSPEND and JOB_CANCEL (R297): they wait for the next bell. -/
def Ctl.jobOp (c : Ctl) (p : Pkt) (suspend : Bool) : Ctl :=
  c.packet p .any false (c.jobChecks p) fun d _ m =>
    match d.jobOf m p with
    | none => d.finish m Status.badHandle 0#32 0
    | some j =>
      if j.over || (suspend && j.st = .suspended) then d.finish m Status.noEffect 0#32 0
      else d.setJob { j with ops := j.ops ++ [(suspend, m)] }

/-- JOB_SUSPEND (R297, R298). -/
def execJobSuspend (p : Pkt) (s : State) : Host.Outcome State Fault Refusal := .next { s with ctl := s.ctl.jobOp p true }

/-- JOB_CANCEL (R297, R298). -/
def execJobCancel (p : Pkt) (s : State) : Host.Outcome State Fault Refusal := .next { s with ctl := s.ctl.jobOp p false }

/-- A job resumed (R297): a job that was suspended while WAITING returns to its wait. -/
def Job.resume (j : Job) : Job := { j with st := if j.wait = 3 || j.wait = 4 then .waiting else .running }

/-- JOB_RESUME (R297): a suspended job is eligible from the next cut-off. -/
def Ctl.jobResume (c : Ctl) (p : Pkt) : Ctl :=
  c.packet p .any false (fun f => [((f.object .job p.subject).isSome, Status.badHandle)]) fun d _ m =>
    match d.jobOf m p with
    | none => d.finish m Status.badHandle 0#32 0
    | some j =>
      if j.over || j.st ≠ .suspended then d.finish m Status.noEffect 0#32 0
      else (d.setJob j.resume).finish m Status.success 0#32 0

/-- JOB_RESUME (R297, R298). -/
def execJobResume (p : Pkt) (s : State) : Host.Outcome State Fault Refusal := .next { s with ctl := s.ctl.jobResume p }

/-! ### JOB_QUERY (R299) -/

/-- TYPE of a job. -/
def JobKind.typ : JobKind → Nat
  | .append .. => 1
  | .generate .. => 2
  | .launch .. => 3
  | .install .. => 4
  | .activate .. => 5
  | .tuning .. => 6
  | .selftest .. => 7
  | .replan .. => 8
  | .planLoad .. => 9
  | .migration => 10
  | .dump .. => 11

/-- STATE of a job: one with a wait cause is WAITING unless suspended or ended. -/
def Job.stateCode (j : Job) : Nat :=
  match j.st with
  | .suspended => 2
  | .ended => 3
  | .waiting => 1
  | .running => if j.wait = 0 then 0 else 1

/-- The 128-byte record of R299. -/
def queryBytes (typ state wait : Nat) (subject : Handle) (progress limit started moved energy : Nat) (status : BitVec 16) :
    List Byte :=
  [BitVec.ofNat 8 typ, BitVec.ofNat 8 state, BitVec.ofNat 8 wait, 0#8] ++ Bits.toLe subject.toNat 4 ++ Bits.toLe progress 8 ++
    Bits.toLe limit 8 ++ Bits.toLe started 8 ++ Bits.toLe moved 8 ++ Bits.toLe energy 8 ++ Bits.toLe status.toNat 2 ++
    List.replicate 78 0#8

/-- The record of a job. -/
def Job.query (j : Job) : List Byte :=
  queryBytes j.kind.typ j.stateCode j.wait j.subject j.progress j.limit j.started j.moved j.energy j.status

/-- The running command of a session, where it is a job. -/
def Ctl.runningJob (c : Ctl) (x : Session) : Option Job := x.commands.head?.bind c.jobByOrder

/-- The record of a session. -/
def Ctl.querySession (c : Ctl) (x : Session) : List Byte :=
  let j := c.runningJob x
  queryBytes 0x81 (if x.ended.isSome then 3 else (j.map (·.stateCode)).getD 0) ((j.map (·.wait)).getD 0)
    (handleOf .session x.ix) x.tokens.length (x.image + 2 ^ 16 * x.epoch) ((j.map (·.started)).getD 0)
    ((j.map (·.moved)).getD 0) ((j.map (·.energy)).getD 0) (x.ended.getD ((j.map (·.status)).getD 0#16))

/-- STATE of an image (R175). -/
def ImgSt.code : ImgSt → Nat
  | .free => 0
  | .installing => 1
  | .ready => 2
  | .damaged => 3
  | .retiring => 4

/-- The image table entry of R176. -/
def Image.bytes (i : Image) : List Byte :=
  [BitVec.ofNat 8 i.st.code, if i.variant then 1#8 else 0#8] ++ Bits.toLe (i.base.getD 0xFFFF) 2 ++ Bits.toLe i.lastEpoch 4 ++
    Bits.toLe i.name.toNat 16 ++ digestBytes i.digest ++ Bits.toLe i.stored 8 ++ Bits.toLe i.owner.toNat 8 ++
    List.replicate 40 0#8

/-- What JOB_QUERY writes for a handle. -/
def Ctl.queryOf (c : Ctl) (f : Fn) (h : Handle) : Option (List Byte) :=
  match f.object .job h, f.object .session h, f.object .graph h, f.object .image h with
  | some ix, _, _, _ => (c.job? f.num ix).map (·.query)
  | _, some ix, _, _ => (c.session? f.num ix).map c.querySession
  | _, _, some ix, _ => (c.objs.graphs.find? fun g => g.fn = f.num && g.ix = ix).map fun g =>
      queryBytes 0x83 0 0 h ((g.versions.map (·.version)).foldl Max.max 0) ((g.versions.map (·.launches)).sum) 0 0 0 0#16
  | _, _, _, some k => (c.objs.images.find? (·.ix = k)).map (·.bytes)
  | _, _, _, _ => none

/-- Writes a result into a region (R278): past the region's end BAD_PARAMETER, a failed translation TRANSLATION, else SUCCESS with
RESULT in 64-byte units. -/
def Ctl.resultWrite (c : Ctl) (f : Fn) (m : Cmd) (r : RegionRef) (bs : List Byte) (write : HostRead Unit) (handle : Handle) :
    Ctl :=
  let len := ((f.region r.handle).map (·.len)).getD 0
  if len < r.off + bs.length then c.finish m Status.badParameter 0#32 0
  else
    match write with
    | .xlat => c.finish m Status.translation 0#32 0
    | .past => c.finish m Status.badParameter 0#32 0
    | .ok _ => (c.regionWrite f r bs).finish m Status.success handle (Bits.ceilDiv bs.length 64)

/-- The state check of a query on a session that has ended (R278 check 6, R292): its ending status. -/
def Ctl.queryState (c : Ctl) (f : Fn) (h : Handle) : List (Bool × BitVec 16) :=
  match (f.object .session h).bind fun ix => c.session? f.num ix with
  | some x => [(x.ended.isNone, x.ended.getD 0#16)]
  | none => []

/-- JOB_QUERY (R299). -/
def Ctl.jobQuery (c : Ctl) (p : Pkt) (result : RegionRef) (write : HostRead Unit) : Ctl :=
  c.packet p .any false (fun f =>
    [((c.queryOf f p.subject).isSome && f.regionLive result, Status.badHandle),
      (f.regionOk result none true, Status.badParameter)] ++ c.queryState f p.subject) fun d f m =>
    d.resultWrite f m result ((c.queryOf f p.subject).getD []) write 0#32

/-- JOB_QUERY (R299). -/
def execJobQuery (p : Pkt) (result : RegionRef) (write : HostRead Unit) (s : State) : Host.Outcome State Fault Refusal :=
  .next { s with ctl := s.ctl.jobQuery p result write }

end Sys2Proof.Machine
end

