-- ==== Sys2Proof/Machine/Mxe.lean ====
section
/-! DEFINITION. The matrix engine (03): group sums, accumulators, error-compensating pairs, read-out. -/

namespace Sys2Proof.Machine

open Sys2Proof

/-! ### Group sums (R86, R87, R89) -/

/-- ⌊log2⌋ of a finite non-zero product; none for the others. -/
def prodExp : FNum → Option Int
  | .fin n d => some (floorLog2 n.natAbs d)
  | _ => none

/-- A finite product counted in units of 2^u, truncated toward negative infinity, and whether bits were discarded (R87). -/
def prodUnits (u : Int) (x : FNum) : Int × Bool :=
  match x with
  | .fin n d =>
    let num : Int := if u ≤ 0 then n * 2 ^ (-u).toNat else n
    let den : Nat := if u ≤ 0 then d else d * 2 ^ u.toNat
    (Int.fdiv num den, num % (den : Int) != 0)
  | _ => (0, false)

/-- The group sum of exact products, and the flags of R87 and R89; `invalid` says that a signalling NaN was read or a product
is 0 × ∞. Every row of R89 whose case holds raises its flag: infinite products of both signs raise invalid beside a quiet NaN too. -/
def groupSum (ps : List FNum) (invalid : Bool) : FNum × ArithFlags :=
  let pos := ps.any fun p => p = .inf false
  let neg := ps.any fun p => p = .inf true
  if ps.any FNum.isNan || (pos && neg) then (.nan false, { inv := invalid || (pos && neg) })
  else if pos then (.inf false, {})
  else if neg then (.inf true, {})
  else
    match ps.filterMap prodExp with
    | [] => (if !ps.isEmpty && ps.all fun p => p = .zero true then .zero true else .zero false, {})
    | e :: es =>
      let u := es.foldl Max.max e - 48
      let us := ps.map (prodUnits u)
      (.scaled false ((us.map (·.1)).foldl (· + ·) 0) u, { inx := us.any (·.2) })

/-- The group sum of two operand runs (R86); a short last group is padded with zero products (R88). -/
def dotGroup (a b : List FNum) : FNum × ArithFlags :=
  let ps := a.zipWith FNum.mul b
  let zi := (a.zipWith FNum.mulInvalid b).any id
  let padded := ps ++ List.replicate (32 - ps.length) (.zero false)
  groupSum padded (zi || a.any FNum.isSnan || b.any FNum.isSnan)

/-! ### Accumulators (R85, R88, R92-R94) -/

/-- An FP32 accumulator takes a group sum with one rounding (R88, R89). -/
def accAdd (acc : Word) (g : FNum) : Word × ArithFlags :=
  let x := num32 acc
  let r := rne32 (x.add g)
  (r.1, (r.2.or (snanFlags [x])).or (.invIf (FNum.addInvalid x g)))

/-- The flags of a rounding of s or hi: overflow and inexact beyond the FP32 range, none for a finite result (R93). -/
def bigFlags (f : ArithFlags) : ArithFlags := if f.ovf then { ovf := true, inx := true } else {}

/-- An error-compensating pair takes a group sum (R92, R93). DESIGN CHOICE (log 18): a finite rounding gh := rne32(G) raises no inexact of
its own, its error being kept in gl; R93 names gl, t, s and hi alone. -/
def pairAdd (p : Word × Word) (g : FNum) : (Word × Word) × ArithFlags :=
  let hi := num32 p.1
  let lo := num32 p.2
  let gh := rne32 g
  let ghn := num32 gh.1
  let gl := if ghn.isFin || ghn.isZero then rne32 (g.add ghn.neg) else (0#32, {})
  let s := rne32 (hi.add ghn)
  let sn := num32 s.1
  let read := (snanFlags [hi, lo]).or (.invIf (FNum.addInvalid hi ghn))
  let f1 := ((read.or (bigFlags gh.2)).or (bigFlags s.2)).or gl.2
  if sn.isFin || sn.isZero then
    let e := (hi.add ghn).add sn.neg
    let t := rne32 ((lo.add (num32 gl.1)).add e)
    let tn := num32 t.1
    let h := rne32 (sn.add tn)
    let hn := num32 h.1
    let f2 := (f1.or t.2).or (bigFlags h.2)
    if hn.isFin || hn.isZero then ((h.1, (rne32 ((sn.add tn).add hn.neg)).1), f2) else ((h.1, 0#32), f2)
  else ((s.1, 0#32), f1)

/-- The mark under which an accumulator's poison is kept: beyond every 64-byte unit. -/
def accMark (core i : Nat) : Nat := 2 ^ 60 + core * 512 + i

/-- Whether an accumulator is poisoned. -/
def Dp.accPoisoned (d : Dp) (core i : Nat) : Bool := d.poison.contains (accMark core i)

/-- The value of an accumulator. -/
def Dp.acc (d : Dp) (core i : Nat) : Word := d.word (accKey core i)

/-- Writes an accumulator with its poison mark. -/
def Dp.setAcc (d : Dp) (core i : Nat) (v : Word) (mark : Bool) : Dp :=
  { d with mem := d.mem.writeN (accKey core i) (Bits.toLe v.toNat 4)
           poison := if mark then d.poison.add (accMark core i) else d.poison.del (accMark core i) }

/-- The first accumulator of the pair that an index names (R85). -/
def pairBase (acc : BitVec 9) : Nat := acc.toNat / 2 * 2

/-- How an accumulator starts: its value and poison, +0, or a value loaded from core store (R85). -/
def Dp.startAcc (d : Dp) (core i : Nat) (st : AccStart) (at0 : Nat) : Word × Bool :=
  match st with
  | .keep => (d.acc core i, d.accPoisoned core i)
  | .zero => (0#32, false)
  | .load off => (d.word (coreKey core (off + at0)), d.poisoned (coreKey core (off + at0)) 4)

/-- Whether a load of accumulators lies in core store. -/
def startFits (st : AccStart) (n : Nat) : Bool :=
  match st with
  | .load off => locReadable ⟨.core, off⟩ n
  | _ => true

/-- What a dot product of `n` indices needs: operands A and B with their zero points (R130). -/
def dotNeeds (a b : Src) (n : Nat) : List Need := srcNeeds a .mxeA n ++ srcNeeds b .mxeB n

/-- MXE_DOT_PRODUCT (R85-R93): one group of up to 32 indices enters an accumulator or a pair. -/
def execMxeDotProduct (o : EngOp) (acc : BitVec 9) (pair : Bool) (start : AccStart) (a b : Src) (n : Nat) (s : State) :
    Host.Outcome State Fault Refusal :=
  runEngine s o (dotNeeds a b n) (isElement a.fmt && isElement b.fmt) (n ≤ 32 && startFits start (if pair then 8 else 4)) []
    [(macClass a.fmt b.fmt, n)] fun core ls mark d =>
    let g := dotGroup (d.elems core (locOf ls 0) (locOf ls 1) a n) (d.elems core (locOf ls 2) (locOf ls 3) b n)
    if pair then
      let i := pairBase acc
      let h := d.startAcc core i start 0
      let l := d.startAcc core (i + 1) start 4
      let r := pairAdd (h.1, l.1) g.1
      let m := mark || h.2 || l.2
      (((d.setAcc core i r.1.1 m).setAcc core (i + 1) r.1.2 m).raiseFlags core .mxe (g.2.or r.2)).poisonRow o m
    else
      let x := d.startAcc core acc.toNat start 0
      let r := accAdd x.1 g.1
      ((d.setAcc core acc.toNat r.1 (mark || x.2)).raiseFlags core .mxe (g.2.or r.2)).poisonRow o (mark || x.2)

/-- PAIR_MERGE (R94): the pair (h2, l2) at a core-store offset enters an accumulator pair with G := h2 + l2 exactly. DESIGN CHOICE
(log 91): infinities of opposite sign in h2 and l2 make G NaN, and forming G raises no flag. -/
def execPairMerge (o : EngOp) (acc : BitVec 9) (second : Nat) (s : State) : Host.Outcome State Fault Refusal :=
  runEngine s o [] true (locReadable ⟨.core, second⟩ 8) [] [] fun core _ _ d =>
    let i := pairBase acc
    let h2 := num32 (d.word (coreKey core second))
    let l2 := num32 (d.word (coreKey core (second + 4)))
    let r := pairAdd (d.acc core i, d.acc core (i + 1)) (h2.add l2)
    let m := d.accPoisoned core i || d.accPoisoned core (i + 1) || d.poisoned (coreKey core second) 8
    (((d.setAcc core i r.1.1 m).setAcc core (i + 1) r.1.2 m).raiseFlags core .mxe (r.2.or (snanFlags [h2, l2]))).poisonRow o m

/-- Bytes that a read-out writes (R85): 4 for an accumulator or a pair's hi alone (R94), 8 for a pair. -/
def readoutBytes (pair hiOnly : Bool) : Nat := if pair && !hiOnly then 8 else 4

/-- The words of a read-out of `count` accumulators or pairs, hi at the lower address (R85). -/
def Dp.readout (d : Dp) (core : Nat) (acc : BitVec 9) (count : Nat) (pair hiOnly : Bool) : List Word :=
  (List.range count).flatMap fun j =>
    if pair then
      let i := (pairBase acc + 2 * j) % 512
      if hiOnly then [d.acc core i] else [d.acc core i, d.acc core (i + 1)]
    else [d.acc core ((acc.toNat + j) % 512)]

/-- Whether a run of accumulators holds poison. -/
def Dp.runPoisoned (d : Dp) (core : Nat) (acc : BitVec 9) (count : Nat) (pair : Bool) : Bool :=
  (List.range count).any fun j =>
    if pair then
      let i := (pairBase acc + 2 * j) % 512
      d.accPoisoned core i || d.accPoisoned core (i + 1)
    else d.accPoisoned core ((acc.toNat + j) % 512)

/-- ACC_READOUT (R85, R94): accumulators are written to core store. -/
def execAccReadout (o : EngOp) (acc : BitVec 9) (count : Nat) (pair hiOnly : Bool) (dest : Nat) (s : State) :
    Host.Outcome State Fault Refusal :=
  let n := count * readoutBytes pair hiOnly
  runEngine s o [] true (locWritable ⟨.core, dest⟩ n) [(coreKey (s.ctl.core o.core) dest, n)] [] fun core _ _ d =>
    let m := d.runPoisoned core acc count pair
    (d.write (coreKey core dest) (wordBytes (d.readout core acc count pair hiOnly)) m).poisonRow o m

end Sys2Proof.Machine
end

