-- ==== Sys2Proof/Machine/Vxe.lean ====
section
/-! DEFINITION. The vector engine (04): element-wise operations, comparison and selection, conversion, lane reductions and
special functions. -/

namespace Sys2Proof.Machine

open Sys2Proof

/-! ### Lanes -/

/-- An element-wise FP32 operation on lanes with its flags. -/
def mapLanes (f : Word → Word × ArithFlags) (a : List Word) : List Word × ArithFlags :=
  let r := a.map f
  (r.map (·.1), ArithFlags.orAll (r.map (·.2)))

/-- An element-wise FP32 operation on two lists of lanes. -/
def zipLanes (f : Word → Word → Word × ArithFlags) (a b : List Word) : List Word × ArithFlags :=
  let r := a.zipWith f b
  (r.map (·.1), ArithFlags.orAll (r.map (·.2)))

/-- What an instruction over lanes of VXE operands needs. -/
def laneNeeds (srcs : List Src) (n : Nat) : List Need := srcs.flatMap fun a => srcNeeds a .vxe n

/-- The lanes of operand `i` of an instruction over lanes. -/
def laneArgs (dp : Dp) (core : Nat) (ls : List Loc) (srcs : List Src) (n : Nat) : List (List Word) :=
  srcs.mapIdx fun i x => dp.lanes core (locOf ls (2 * i)) (locOf ls (2 * i + 1)) x n

/-- An instruction over 32 lanes of its operands, written to a destination (R100). -/
def laneOp (o : EngOp) (srcs : List Src) (d : Dst) (f : List (List Word) → List Word × ArithFlags) (s : State) :
    Host.Outcome State Fault Refusal :=
  runEngine s o (laneNeeds srcs 32) (isElement d.fmt && srcs.all fun a => isElement a.fmt) (dstFits d 32)
    (spanKeys (s.ctl.core o.core) d 32) [(.vxeOp, 32)] fun core ls mark dp =>
      let r := f (laneArgs dp core ls srcs 32)
      (dp.raiseFlags core .vxe r.2).put core o d r.1 mark

/-- ABS of one lane (R77, R101): a NaN is written as the canonical one. -/
def absLane (w : Word) : Word × ArithFlags :=
  let x := num32 w
  (if x.isNan then nan32 else w &&& 0x7FFFFFFF#32, snanFlags [x])

/-- NEG of one lane (R77, R101). -/
def negLane (w : Word) : Word × ArithFlags :=
  let x := num32 w
  (if x.isNan then nan32 else negF32 w, snanFlags [x])

/-- Whether an ordered comparison holds; false with a NaN (R102). -/
def relHolds (r : Rel) (x y : FNum) : Bool :=
  match r with
  | .lt => x.lt y
  | .le => x.le y
  | .eq => x.eq y
  | .ge => y.le x
  | .gt => y.lt x

/-- CMP of one lane: all ones for true, zero for false; invalid for a signalling NaN alone (R102). -/
def cmpLane (r : Rel) (a b : Word) : Word × ArithFlags :=
  let x := num32 a
  let y := num32 b
  (if relHolds r x y then 0xFFFFFFFF#32 else 0#32, snanFlags [x, y])

/-- SEL of one lane: a where the condition has any bit set, else b, unchanged and without flags (R102). -/
def selLane (c a b : Word) : Word := if c = 0#32 then b else a

/-- CVT of one lane before its write: only an FP32 result names its NaN here; narrower formats write theirs under R82. -/
def cvtLane (f : Fmt) (w : Word) : Word × ArithFlags :=
  let x := num32 w
  if f = .fp32 then (if x.isNan then nan32 else w, snanFlags [x]) else (w, {})

/-- ADD (R102). -/
def execAdd (o : EngOp) (a b : Src) (d : Dst) (s : State) : Host.Outcome State Fault Refusal :=
  laneOp o [a, b] d (fun v => zipLanes addF32 (v.getD 0 []) (v.getD 1 [])) s

/-- SUB (R102). -/
def execSub (o : EngOp) (a b : Src) (d : Dst) (s : State) : Host.Outcome State Fault Refusal :=
  laneOp o [a, b] d (fun v => zipLanes subF32 (v.getD 0 []) (v.getD 1 [])) s

/-- MUL (R102). -/
def execMul (o : EngOp) (a b : Src) (d : Dst) (s : State) : Host.Outcome State Fault Refusal :=
  laneOp o [a, b] d (fun v => zipLanes mulF32 (v.getD 0 []) (v.getD 1 [])) s

/-- FMA: a × b + c with one rounding (R102). -/
def execFma (o : EngOp) (a b c : Src) (d : Dst) (s : State) : Host.Outcome State Fault Refusal :=
  laneOp o [a, b, c] d (fun v =>
    let r := ((v.getD 0 []).zip (v.getD 1 [])).zipWith (fun p z => fmaF32 p.1 p.2 z) (v.getD 2 [])
    (r.map (·.1), ArithFlags.orAll (r.map (·.2)))) s

/-- ABS (R101). -/
def execAbs (o : EngOp) (a : Src) (d : Dst) (s : State) : Host.Outcome State Fault Refusal :=
  laneOp o [a] d (fun v => mapLanes absLane (v.getD 0 [])) s

/-- NEG (R101). -/
def execNeg (o : EngOp) (a : Src) (d : Dst) (s : State) : Host.Outcome State Fault Refusal :=
  laneOp o [a] d (fun v => mapLanes negLane (v.getD 0 [])) s

/-- MIN: NaN if either operand is NaN; −0 is below +0 (R102). -/
def execMin (o : EngOp) (a b : Src) (d : Dst) (s : State) : Host.Outcome State Fault Refusal :=
  laneOp o [a, b] d (fun v => zipLanes minF32 (v.getD 0 []) (v.getD 1 [])) s

/-- MAX (R102). -/
def execMax (o : EngOp) (a b : Src) (d : Dst) (s : State) : Host.Outcome State Fault Refusal :=
  laneOp o [a, b] d (fun v => zipLanes maxF32 (v.getD 0 []) (v.getD 1 [])) s

/-- CMP (R102). -/
def execCmp (o : EngOp) (r : Rel) (a b : Src) (dest : Nat) (s : State) : Host.Outcome State Fault Refusal :=
  laneOp o [a, b] (rawDst dest) (fun v => zipLanes (cmpLane r) (v.getD 0 []) (v.getD 1 [])) s

/-- SEL (R102). -/
def execSel (o : EngOp) (c a b : Src) (dest : Nat) (s : State) : Host.Outcome State Fault Refusal :=
  laneOp o [c, a, b] (rawDst dest) (fun v =>
    (((v.getD 0 []).zip (v.getD 1 [])).zipWith (fun p z => selLane p.1 p.2 z) (v.getD 2 []), {})) s

/-- CVT (R127, R489): the conversion itself is the destination's. -/
def execCvt (o : EngOp) (a : Src) (d : Dst) (s : State) : Host.Outcome State Fault Refusal :=
  laneOp o [a] d (fun v => mapLanes (cvtLane d.fmt) (v.getD 0 [])) s

/-! ### Reductions (R103) -/

/-- One level of the tree: lane 2i with lane 2i + 1. -/
def pairUp (f : Word → Word → Word × ArithFlags) : List Word → List Word × ArithFlags
  | a :: b :: t =>
    let r := f a b
    let u := pairUp f t
    (r.1 :: u.1, r.2.or u.2)
  | l => (l, {})

/-- The tree over five levels: 32 lanes to one value. -/
def treeOf (f : Word → Word → Word × ArithFlags) : Nat → List Word × ArithFlags → List Word × ArithFlags
  | 0, x => x
  | n + 1, x =>
    let y := pairUp f x.1
    treeOf f n (y.1, x.2.or y.2)

/-- A reduction of one chunk, its unused lanes filled with the identity. -/
def reduceChunk (f : Word → Word → Word × ArithFlags) (e : Word) (xs : List Word) : Word × ArithFlags :=
  let r := treeOf f 5 (xs ++ List.replicate (32 - xs.length) e, {})
  (r.1.getD 0 e, r.2)

/-- A reduction of any number of values: chunks of 32, then the chunk results one at a time in order (R103). -/
def reduceAll (f : Word → Word → Word × ArithFlags) (e : Word) (xs : List Word) : Word × ArithFlags :=
  match (chunks32 xs).map (reduceChunk f e) with
  | [] => (e, {})
  | r :: rs => rs.foldl (fun a b => let y := f a.1 b.1; (y.1, (a.2.or b.2).or y.2)) r

/-- The identities of the reductions (R103): −0 for sums, −∞ for maxima, +∞ for minima. -/
def sumId : Word := 0x80000000#32

/-- See `sumId`. -/
def maxId : Word := 0xFF800000#32

/-- See `sumId`. -/
def minId : Word := 0x7F800000#32

/-- A lane reduction instruction: one value, in FP32 or converted on write (R100, R103). -/
def reduceOp (o : EngOp) (a : Src) (d : Dst) (f : Word → Word → Word × ArithFlags) (e : Word) (s : State) :
    Host.Outcome State Fault Refusal :=
  runEngine s o (laneNeeds [a] 32) (isElement d.fmt && isElement a.fmt) (dstFits d 1) (spanKeys (s.ctl.core o.core) d 1)
    [(.vxeOp, 32)] fun core ls mark dp =>
      let r := reduceChunk f e (dp.lanes core (locOf ls 0) (locOf ls 1) a 32)
      (dp.raiseFlags core .vxe r.2).put core o d [r.1] mark

/-- RSUM (R103). -/
def execRsum (o : EngOp) (a : Src) (d : Dst) (s : State) : Host.Outcome State Fault Refusal :=
  reduceOp o a d addF32 sumId s

/-- RMAX (R103). -/
def execRmax (o : EngOp) (a : Src) (d : Dst) (s : State) : Host.Outcome State Fault Refusal :=
  reduceOp o a d maxF32 maxId s

/-- RMIN (R103). -/
def execRmin (o : EngOp) (a : Src) (d : Dst) (s : State) : Host.Outcome State Fault Refusal :=
  reduceOp o a d minF32 minId s

/-! ### Special functions (R104-R115) -/

/-- The user micro-program of a slot in the selected plan. -/
def Ctl.microOf (c : Ctl) (slot : Nat) : Option MicroProg := ((c.plan?.map (·.micro)).getD []).find? (·.slot = slot)

/-- One lane of SFN in a slot, with the table store of its core; none where the slot holds nothing. DESIGN CHOICE (log 91): position mode on
a slot other than sin's and cos's runs as value mode and ignores the position, R106 giving the mode to those two alone. -/
def sfnLane (c : Ctl) (tbl : Nat → Word) (slot : Nat) (out : SfnOut) (mode : SfnMode) (x : Word) : Option LaneOut :=
  if slot < 14 then
    match mode with
    | .position p => if slot = 12 || slot = 13 then some (Sfn.positional slot out p x) else some (Sfn.shipped slot out x)
    | .value => some (Sfn.shipped slot out x)
  else if slot < 16 then none
  else (c.microOf slot).map fun m => Sfn.micro m.consts m.steps tbl out x

/-- Whether a slot holds a function (R104). -/
def Ctl.slotHeld (c : Ctl) (slot : Nat) : Bool := slot < 14 || (16 ≤ slot && (c.microOf slot).isSome)

/-- Whether the function of a slot reads the table store (R113): shipped functions have a store of their own (R104). -/
def Ctl.slotReads (c : Ctl) (slot : Nat) : Bool := 16 ≤ slot && (c.microOf slot).any fun m => Sfn.readsTable m.steps

/-- The format that a special function writes. -/
def sfnFmt (o : SfnOut) : Fmt :=
  match o with
  | .fp32 => .fp32
  | .bf16 => .bf16
  | .fp16 => .fp16
  | .e4m3 _ => .e4m3
  | .e5m2 _ => .e5m2

/-- The scale byte that an E4M3 or E5M2 output carries (R107). -/
def sfnScales (o : SfnOut) : List Byte :=
  match o with
  | .e4m3 b => [b]
  | .e5m2 b => [b]
  | _ => []

/-- Where SFN writes. -/
def sfnDst (out : SfnOut) (dest block : Nat) (ends : Bool) : Dst := ⟨dest, sfnFmt out, block, ends, 0#32, 0⟩

/-- Lanes of SFN as a converted run. -/
def sfnWritten (out : SfnOut) (rs : List LaneOut) : Written :=
  ⟨codesToBytes (sfnFmt out) (rs.map (·.code)), sfnScales out, ArithFlags.orAll (rs.map (·.fl)), rs.map (·.clip)⟩

/-- An uncorrectable table-store read (R115, R168, R171): SRAM_UE, the first poison latched, and the rewrite at the next bell. -/
def Ctl.tableFault (c : Ctl) (cfg : Cfg) (r : CoreRef) (unit : Nat) : Ctl :=
  let k := c.home r.yard
  let p := physOf (c.yd k).retired r.cluster.val
  let c := (c.raise cfg (.mem k) 16#16).countYard k 8 1
  let c := c.latchPoison k 4 (p * 2 ^ 48 + r.core.val * 2 ^ 42 + tableBase + 64 * unit)
  c.onYard k fun y => { y with tableRewrite := y.tableRewrite.add (c.core r) }

/-- SFN (R104-R115): 32 lanes through a micro-program; an uncorrectable error in a table read of it poisons the results (R115). -/
def execSfn (o : EngOp) (slot : Fin 64) (out : SfnOut) (mode : SfnMode) (a : Src) (dest : Nat) (at1 : BlockAt)
    (tableError : Option (Fin 128)) (s : State) : Host.Outcome State Fault Refusal :=
  if !s.ctl.issues o.core.yard o.core.cluster.val o.at0 then .next s
  else if !s.ctl.slotHeld slot.val then .fault .emptySlot
  else
    let d := sfnDst out dest at1.block at1.ends
    let bad := if s.ctl.slotReads slot.val then tableError else none
    let ready := (s.dp.needsAt s.ctl o (laneNeeds [a] 32)).all fun x => x.wait?.isNone
    let ctl := match bad with | some u => if ready then s.ctl.tableFault s.cfg o.core u.val else s.ctl | none => s.ctl
    runEngine { s with ctl := ctl } o (laneNeeds [a] 32) (isElement a.fmt) (dstFits d 32) (spanKeys (s.ctl.core o.core) d 32)
      [(.sfn, 32)] fun core ls mark dp =>
        let rs := (dp.lanes core (locOf ls 0) (locOf ls 1) a 32).map fun x =>
          (sfnLane s.ctl (dp.tableWord core) slot.val out mode x).getD ⟨0, {}, false⟩
        dp.putWritten core o d 32 (sfnWritten out rs) (mark || bad.isSome)

end Sys2Proof.Machine
end

