-- ==== Sys2Proof/Machine/Stats.lean ====
section
/-! DEFINITION. Row statistics (04): mean-variance partials and scaled sums of squares, kept per core, slot and lane. -/

namespace Sys2Proof.Machine

open Sys2Proof

/-- The key of a lane's partial. -/
def partKey (core slot lane : Nat) : Nat := (core * 256 + slot) * 32 + lane

/-- The key of a partial that an instruction names. -/
def Ctl.partAt (c : Ctl) (k : Yard) (p : PartRef) : Nat :=
  partKey (c.core ⟨k, p.cluster, p.core⟩) p.slot.toNat p.lane.val

/-- A count as an FP32 value; exact up to 2^24 (R124). -/
def countF32 (n : Nat) : Word := (rne32 (FNum.ofInt n)).1

/-! ### Mean and variance (R122-R124) -/

/-- The mean-variance partial of a lane. -/
def Dp.wpart (d : Dp) (k : Nat) : WPart := Sparse.get {} d.wparts k

/-- Replaces a mean-variance partial. -/
def Dp.setWpart (d : Dp) (k : Nat) (p : WPart) : Dp := { d with wparts := Sparse.set {} d.wparts k p }

/-- The M2 of elements that are all finite: where the steps of R122 and R123 would give NaN after a deviation beyond the FP32 range, R124
gives +∞. The mean and the flags stay those of the steps (log 91). -/
def finiteM2 (whole : Bool) (m2 : Word) : Word := if whole && (num32 m2).isNan then 0x7F800000#32 else m2

/-- One element enters a partial (R122, R124). -/
def welfordStep (p : WPart) (x : Word) (mark : Bool) : WPart × ArithFlags :=
  let whole := (p.n = 0 || p.whole) && (num32 x).isFin
  if p.n = 0 then
    ({ n := 1, mu := if (num32 x).isNan then nan32 else x, m2 := 0#32, whole := whole, poison := p.poison || mark }, snanFlags [num32 x])
  else
    let n := p.n + 1
    let d := subF32 x p.mu
    let inv := divF32 (countF32 1) (countF32 n)
    let mu := fmaF32 d.1 inv.1 p.mu
    let dd := mulF32 d.1 d.1
    let w := divF32 (countF32 (n - 1)) (countF32 n)
    let t := mulF32 dd.1 w.1
    let m2 := addF32 p.m2 t.1
    ({ n := n, mu := mu.1, m2 := finiteM2 whole m2.1, whole := whole, poison := p.poison || mark },
      ArithFlags.orAll [d.2, inv.2, mu.2, dd.2, w.2, t.2, m2.2])

/-- Two partials combine (R123, R124). -/
def welfordPair (a b : WPart) : WPart × ArithFlags :=
  if a.n = 0 then ({ b with poison := a.poison || b.poison }, {})
  else if b.n = 0 then ({ a with poison := a.poison || b.poison }, {})
  else
    let n := a.n + b.n
    let dl := subF32 b.mu a.mu
    let f := divF32 (countF32 b.n) (countF32 n)
    let p := mulF32 dl.1 f.1
    let mu := addF32 a.mu p.1
    let m := addF32 a.m2 b.m2
    let dd := mulF32 dl.1 dl.1
    let nn := mulF32 (countF32 a.n) (countF32 b.n)
    let w := divF32 nn.1 (countF32 n)
    let t := mulF32 dd.1 w.1
    let m2 := addF32 m.1 t.1
    ({ n := n, mu := mu.1, m2 := finiteM2 (a.whole && b.whole) m2.1, whole := a.whole && b.whole, poison := a.poison || b.poison },
      ArithFlags.orAll [dl.2, f.2, p.2, mu.2, m.2, dd.2, nn.2, w.2, t.2, m2.2])

/-- A statistics instruction over 32 lanes: each lane takes its element into its partial. -/
def accOp (o : EngOp) (slot : Byte) (a : Src) (f : Nat → Word → Bool → Dp → Dp × ArithFlags) (s : State) :
    Host.Outcome State Fault Refusal :=
  runEngine s o (laneNeeds [a] 32) (isElement a.fmt) true [] [(.vxeOp, 32)] fun core ls mark dp =>
    let xs := dp.lanes core (locOf ls 0) (locOf ls 1) a 32
    (xs.mapIdx fun i x => (i, x)).foldl (fun (d : Dp) (p : Nat × Word) =>
      let r := f (partKey core slot.toNat p.1) p.2 mark d
      r.1.raiseFlags core .vxe r.2) (dp.poisonRow o mark)

/-- WELFORD_ACC (R122): each of 32 lanes takes one element into its partial. -/
def execWelfordAcc (o : EngOp) (slot : Byte) (a : Src) (s : State) : Host.Outcome State Fault Refusal :=
  accOp o slot a (fun k x mark d =>
    let r := welfordStep (d.wpart k) x mark
    (d.setWpart k r.1, r.2)) s

/-- WELFORD_MERGE (R123). -/
def execWelfordMerge (o : EngOp) (a b dest : PartRef) (s : State) : Host.Outcome State Fault Refusal :=
  runEngine s o [] true true [] [(.vxeOp, 1)] fun core _ _ dp =>
    let r := welfordPair (dp.wpart (s.ctl.partAt o.core.yard a)) (dp.wpart (s.ctl.partAt o.core.yard b))
    ((dp.setWpart (s.ctl.partAt o.core.yard dest) r.1).raiseFlags core .vxe r.2).poisonRow o r.1.poison

/-- VAR_FINISH (R123): μ and then the population variance M2 / n, rounded once. -/
def execVarFinish (o : EngOp) (a : PartRef) (d : Dst) (s : State) : Host.Outcome State Fault Refusal :=
  runEngine s o [] (isElement d.fmt) (dstFits d 2) (spanKeys (s.ctl.core o.core) d 2) [(.vxeOp, 2)] fun core _ _ dp =>
    let p := dp.wpart (s.ctl.partAt o.core.yard a)
    let v := divF32 p.m2 (countF32 p.n)
    (dp.raiseFlags core .vxe v.2).put core o d [p.mu, v.1] p.poison

/-! ### Root mean square (R125, R126) -/

/-- The sum-of-squares partial of a lane. -/
def Dp.spart (d : Dp) (k : Nat) : SPart := Sparse.get {} d.sparts k

/-- Replaces a sum-of-squares partial. -/
def Dp.setSpart (d : Dp) (k : Nat) (p : SPart) : Dp := { d with sparts := Sparse.set {} d.sparts k p }

/-- q brought from exponent `e` to the larger exponent `e'` (R125). -/
def ssqRaise (q : Word) (e e' : Int) : Word × ArithFlags :=
  if e = e' then (q, {}) else rne32 ((num32 q).mulPow2 (2 * (e - e')))

/-- One element enters a partial (R125, R126). -/
def ssqStep (p : SPart) (x : Word) (mark : Bool) : SPart × ArithFlags :=
  let p := { p with n := p.n + 1, poison := p.poison || mark }
  match num32 x with
  | .nan sg => ({ p with nan := true }, .invIf sg)
  | .inf _ => ({ p with inf := true }, {})
  | .zero _ => (p, {})
  | .fin m d =>
    let ex := floorLog2 m.natAbs d
    let e := match p.e with | none => ex | some e0 => Max.max e0 ex
    let q := match p.e with | none => (0#32, ArithFlags.none) | some e0 => ssqRaise p.q e0 e
    let y := (FNum.fin m d).mulPow2 (-e)
    let r := rne32 ((num32 q.1).add (y.mul y))
    ({ p with e := some e, q := r.1 }, q.2.or r.2)

/-- Two partials combine (R125, R126). -/
def ssqPair (a b : SPart) : SPart × ArithFlags :=
  let base : SPart := { n := a.n + b.n, inf := a.inf || b.inf, nan := a.nan || b.nan, poison := a.poison || b.poison }
  match a.e, b.e with
  | none, none => (base, {})
  | some e, none => ({ base with e := some e, q := a.q }, {})
  | none, some e => ({ base with e := some e, q := b.q }, {})
  | some e1, some e2 =>
    let e := Max.max e1 e2
    let x := ssqRaise a.q e1 e
    let y := ssqRaise b.q e2 e
    let r := addF32 x.1 y.1
    ({ base with e := some e, q := r.1 }, (x.2.or y.2).or r.2)

/-- SSQ_ACC (R125): each of 32 lanes takes one element into its partial. -/
def execSsqAcc (o : EngOp) (slot : Byte) (a : Src) (s : State) : Host.Outcome State Fault Refusal :=
  accOp o slot a (fun k x mark d =>
    let r := ssqStep (d.spart k) x mark
    (d.setSpart k r.1, r.2)) s

/-- SSQ_MERGE (R125, R126). -/
def execSsqMerge (o : EngOp) (a b dest : PartRef) (s : State) : Host.Outcome State Fault Refusal :=
  runEngine s o [] true true [] [(.vxeOp, 1)] fun core _ _ dp =>
    let r := ssqPair (dp.spart (s.ctl.partAt o.core.yard a)) (dp.spart (s.ctl.partAt o.core.yard b))
    ((dp.setSpart (s.ctl.partAt o.core.yard dest) r.1).raiseFlags core .vxe r.2).poisonRow o r.1.poison

/-- √(n / d) of a positive fraction, exact where it is rational and otherwise between the neighbours of a grid far finer than
FP32's: enough to round it once. -/
def sqrtQ (n d : Nat) : FNum :=
  let k := 64 + (Nat.log2 d + 1 - Nat.log2 n)
  let v := n * 4 ^ k / d
  let r := Nat.sqrt v
  if r * r * d = n * 4 ^ k then FNum.fin r (2 ^ k) else FNum.fin (2 * r + 1) (2 ^ (k + 1))

/-- √x of a non-negative finite value. -/
def sqrtNum (x : FNum) : FNum :=
  match x with
  | .fin n d => sqrtQ n.natAbs d
  | y => y

/-- A positive inexact factor as one of its two FP32 neighbours (R126: within 1 ulp, and finite: above the largest finite value the lower
one stands). -/
def neighbour (y : FNum) (upper : Bool) : Word × ArithFlags :=
  let r := rne32 y
  if !r.2.inx then r
  else
    let low := if (num32 r.1).below y then r.1 else r.1 - 1#32
    let w := if upper && low != 0x7F7FFFFF#32 then low + 1#32 else low
    (w, { inx := true, unf := w.toNat < 2 ^ 23 })

/-- The root mean square and the normalisation factor of a partial (R126). DESIGN CHOICE (log 91): an empty partial counts as a row of zeros,
so its factor is 1/√ε, +∞ for ε = +0; and where R126 calls a factor finite whose exact value rounds beyond FP32, the free finite value
that stands for it comes with overflow and inexact. -/
def rmsPair (p : SPart) (eps : Word) : (Word × Word) × ArithFlags :=
  if p.nan then ((nan32, nan32), {})
  else if p.inf then ((0x7F800000#32, 0#32), {})
  else
    let e := p.e.getD 0
    let mean : FNum :=
      match num32 p.q with
      | .fin n d => (FNum.fin n (d * p.n)).mulPow2 (2 * e)
      | _ => .zero false
    let root := rne32 (sqrtNum mean)
    let other := Config.rmsOther p.n e p.q eps
    match num32 eps with
    | .nan _ => ((root.1, BitVec.ofNat 32 other), root.2)
    | .inf _ => ((root.1, BitVec.ofNat 32 other), root.2)
    | x =>
      if x.isNeg then ((root.1, BitVec.ofNat 32 other), root.2)
      else
        match mean.add x with
        | .fin n d =>
          let y := sqrtQ d n.natAbs
          if (rne32 y).2.ovf then
            ((root.1, BitVec.ofNat 32 (other % 0x7F800000)), root.2.or { ovf := true, inx := true })
          else
            let f := neighbour y (Config.rmsUpper p.n e p.q eps)
            ((root.1, f.1), root.2.or f.2)
        | _ => ((root.1, 0x7F800000#32), root.2)

/-- RMS_FINISH (R126): the root mean square and then the factor. -/
def execRmsFinish (o : EngOp) (a : PartRef) (epsilon : Word) (d : Dst) (s : State) : Host.Outcome State Fault Refusal :=
  runEngine s o [] (isElement d.fmt) (dstFits d 2) (spanKeys (s.ctl.core o.core) d 2) [(.vxeOp, 2)] fun core _ _ dp =>
    let p := dp.spart (s.ctl.partAt o.core.yard a)
    let v := rmsPair p epsilon
    (dp.raiseFlags core .vxe v.2).put core o d [v.1.1, v.1.2] p.poison

end Sys2Proof.Machine
end

