-- ==== Sys2Proof/Machine/Quant.lean ====
section
/-! DEFINITION. Quantisation (05): rescaling after accumulation, row quantisation, KV conversion. -/

namespace Sys2Proof.Machine

open Sys2Proof

/-- An entry of a rescale table (R133). -/
structure RescaleEntry where
  scale : Word
  offset : Word
  outScale : Word
  outZp : Int
  inZp : Byte
  rsvd : Byte
  deriving DecidableEq, Repr

/-- The entry that 16 bytes spell (R133). -/
def rescaleEntry (bs : List Byte) : RescaleEntry :=
  { scale := BitVec.ofNat 32 (Bits.leNat bs 0 4), offset := BitVec.ofNat 32 (Bits.leNat bs 4 4)
    outScale := BitVec.ofNat 32 (Bits.leNat bs 8 4), outZp := signed16 (Bits.leNat bs 12 2)
    inZp := bs.getD 14 0#8, rsvd := bs.getD 15 0#8 }

/-- The entry at a key. -/
def Dp.rescaleEntry (d : Dp) (key : Nat) : RescaleEntry := Machine.rescaleEntry (d.mem.readN key 16)

/-- p and y of R132 for one channel: `acc` is the exact accumulator value. -/
def rescaleLane (acc : FNum) (read : ArithFlags) (e : RescaleEntry) (rs : Word) : Word × ArithFlags :=
  let sc := num32 e.scale
  let p := rne32 (acc.mul sc)
  let y := fmaF32 p.1 rs e.offset
  (y.1, ArithFlags.orAll [read, snanFlags [sc], .invIf (acc.mulInvalid sc), p.2, y.2])

/-- The exact value of an accumulator or of a pair, with the flags of reading it (R132). -/
def Dp.accValue (d : Dp) (core : Nat) (acc : BitVec 9) (j : Nat) (pair : Bool) : FNum × ArithFlags :=
  if pair then
    let i := (pairBase acc + 2 * j) % 512
    let hi := num32 (d.acc core i)
    let lo := num32 (d.acc core (i + 1))
    (hi.add lo, (snanFlags [hi, lo]).or (.invIf (FNum.addInvalid hi lo)))
  else
    let x := num32 (d.acc core ((acc.toNat + j) % 512))
    (x, snanFlags [x])

/-- A run of values as a format writes them, with a scale and zero point of its own for each integer code. -/
def writtenPer (f : Fmt) (es : List RescaleEntry) (vs : List Word) : Written :=
  if f.integer then
    let rs := vs.zipWith (fun v (e : RescaleEntry) => intOf f e.outScale e.outZp v) es
    ⟨codesToBytes f (rs.map fun r => f.wrap r.code), [], ArithFlags.orAll (rs.map (·.fl)), rs.map (·.clip)⟩
  else convertOut f 0#32 0 vs

/-- RESCALE (R132): output channel j takes accumulator (or pair) `acc + j` and entry j of the table. -/
def execRescale (o : EngOp) (acc : BitVec 9) (count : Nat) (pair : Bool) (table : Place) (rowPair : Option Nat) (d : Dst)
    (s : State) : Host.Outcome State Fault Refusal :=
  let rows : List Need := match rowPair with | some p => [⟨⟨p, none, false⟩, .vxe, [(0, 8)]⟩] | none => []
  runEngine s o (⟨table, .vxe, [(0, 16 * count)]⟩ :: rows) (isElement d.fmt) (dstFits d count)
    (spanKeys (s.ctl.core o.core) d count) [(.vxeOp, count)] fun core ls mark dp =>
    let es := (List.range count).map fun j => dp.rescaleEntry (locKey core (locOf ls 0) + 16 * j)
    let rs := match rowPair with | some p => dp.word (coreKey core p) | none => 0x3F800000#32
    let ys := es.mapIdx fun j e =>
      let a := dp.accValue core acc j pair
      rescaleLane a.1 a.2 e rs
    (dp.raiseFlags core .vxe (ArithFlags.orAll (ys.map (·.2)))).putWritten core o d count (writtenPer d.fmt es (ys.map (·.1)))
      (mark || dp.runPoisoned core acc count pair)

/-- The pair of a row (R131): s, z and the code range it converts into. -/
def rowPairOf (f : Fmt) (xs : List FNum) : Word × Int :=
  let fin := xs.filter fun x => x.isFin || x.isZero
  let lo := fin.foldl FNum.min (.zero false)
  let hi := fin.foldl FNum.max (.zero false)
  let r := f.codeRange
  match hi.add lo.neg with
  | .fin n d =>
    let q := rne32 (.fin n (d * (r.2 - r.1).toNat))
    let s := if q.1.toNat < 2 ^ 23 then 0x00800000#32 else q.1
    let t := match lo.div (num32 s) with | .fin a b => roundTa a b | _ => 0
    (s, Max.max r.1 (Min.min (r.1 - t) r.2))
  | _ => (0x3F800000#32, 0)

/-- The codes of a row (R131): all z where it holds a NaN. -/
def rowCodes (f : Fmt) (s : Word) (z : Int) (ws : List Word) : List IntOut :=
  if ws.any fun w => (num32 w).isNan then ws.map fun _ => ⟨z, { inv := true }, false⟩
  else ws.map fun w => intOf f s z w

/-- The 8-byte record of a row's pair (R131). -/
def pairRecord (s : Word) (z : Int) : List Byte := wordBytes [s] ++ Bits.toLe (z % 65536).toNat 2 ++ [0#8, 0#8]

/-- What ROWQ needs: the pieces of its row, each a place and a count of FP32 values, in order. -/
def rowNeeds (row : List (Place × Nat)) : List Need := row.map fun p => ⟨p.1, .vxe, [(0, 4 * p.2)]⟩

/-- The row that ROWQ takes, piece by piece. -/
def Dp.rowWords (d : Dp) (core : Nat) (ls : List Loc) (row : List (Place × Nat)) : List Word :=
  (row.mapIdx fun i p => d.words (locKey core (locOf ls i)) p.2).flatten

/-- ROWQ (R131): a row of FP32 values becomes integer codes with a pair of its own. A row longer than one place holds comes in pieces, from
core store or from tokens of a queue in order; the codes go to either store (log 92). -/
def execRowq (o : EngOp) (row : List (Place × Nat)) (fmt : Fmt) (store : Store) (codes pair : Nat) (s : State) :
    Host.Outcome State Fault Refusal :=
  let n := (row.map (·.2)).sum
  let core := s.ctl.core o.core
  runEngine s o (rowNeeds row) fmt.integer (locWritable ⟨store, codes⟩ (codeBytes fmt n) && locWritable ⟨.core, pair⟩ 8)
    [(locKey core ⟨store, codes⟩, codeBytes fmt n), (coreKey core pair, 8)] [(.vxeOp, n)] fun core ls m dp =>
      let ws := dp.rowWords core ls row
      let p := rowPairOf fmt (ws.map num32)
      let rs := rowCodes fmt p.1 p.2 ws
      let dp := (dp.write (locKey core ⟨store, codes⟩) (codesToBytes fmt (rs.map fun r => fmt.wrap r.code)) m).write
        (coreKey core pair) (pairRecord p.1 p.2) m
      ((dp.raiseFlags core .vxe (ArithFlags.orAll (rs.map (·.fl)))).poisonRow o m).countConv core o.core.yard o.tag fmt
        (rs.map (·.clip))

/-- Adds exact squared errors to a stall's sums of one layer (R138): an FP32 pair under R94 and an element count. -/
def Dp.addKvErr (d : Dp) (yard : Yard) (stall layer : Nat) (es : List FNum) : Dp :=
  let old := (d.kvErrs.find? fun x => x.yard = yard && x.stall = stall && x.layer = layer).getD ⟨yard, stall, layer, 0, 0, 0⟩
  let p := es.foldl (fun p e => (pairAdd p (e.mul e)).1) (old.hi, old.lo)
  { d with kvErrs := (d.kvErrs.filter fun x => !(x.yard = yard && x.stall = stall && x.layer = layer)) ++
      [{ old with hi := p.1, lo := p.2, count := sat64 old.count es.length }] }

/-- KV_CONVERSION (R216, R129, R138): n FP32 values of a position become KV codes, each channel with its entry's scale and zero
point, or BF16; the squared errors enter the statistics. -/
def execKvConversion (o : EngOp) (src n : Nat) (fmt : Fmt) (table : Place) (dest : Nat) (s : State) :
    Host.Outcome State Fault Refusal :=
  runEngine s o [⟨⟨src, none, false⟩, .vxe, [(0, 4 * n)]⟩, ⟨table, .vxe, if fmt = .bf16 then [] else [(0, 16 * n)]⟩]
    (fmt = .int8 || fmt = .uint8 || fmt = .bf16) (locWritable ⟨.core, dest⟩ (codeBytes fmt n))
    [(coreKey (s.ctl.core o.core) dest, codeBytes fmt n)] [(.vxeOp, n)] fun core ls m dp =>
    let ws := dp.words (coreKey core src) n
    let es := (List.range n).map fun j => dp.rescaleEntry (locKey core (locOf ls 1) + 16 * j)
    let w := writtenPer fmt es ws
    let stored := unpackBits fmt.width n (Bits.leNat w.codes 0 w.codes.length)
    let errs := (ws.zip stored).zipWith (fun (p : Word × Nat) (e : RescaleEntry) =>
      let back := if fmt = .bf16 then elemNum .bf16 p.2 0x7F#8 0 else (num32 e.outScale).mul (elemNum fmt p.2 0x7F#8 e.outZp)
      (num32 p.1).add back.neg) es
    let dp := (dp.write (coreKey core dest) w.codes m).raiseFlags core .vxe w.fl
    let dp := (dp.poisonRow o m).clipRun (core / 40) o.tag.layer.toNat o.tag.chan w.clipped
    dp.addKvErr o.core.yard o.tag.stall.toNat o.tag.layer.toNat errs

end Sys2Proof.Machine
end

