-- ==== Sys2Proof/Machine/Keys.lean ====
section
/-! DEFINITION. Signatures and the key table (R15, R368, R369), manifests (R177) and scale-table sets (R133, R135, R141). -/

namespace Sys2Proof.Machine

open Sys2Proof

/-! ### Keys -/

/-- A slot as KEY_READ returns it (R368): 208 bytes, all zero where empty. -/
def slotBytes : Option KeySlot → List Byte
  | none => List.replicate 208 0#8
  | some k =>
    digestBytes k.keyId ++ (k.ecdsa ++ List.replicate (97 - k.ecdsa.length) 0#8) ++
      (k.hss ++ List.replicate (60 - k.hss.length) 0#8) ++ [BitVec.ofNat 8 k.usage, 0#8, 0#8]

/-- The key table's 3,328 bytes. -/
def tableBytes (ks : List (Option KeySlot)) : List Byte := ks.flatMap slotBytes

/-- The slot of a key ID with a usage bit, 0 IMAGE or 1 PLAN (R369). -/
def Ctl.signer (c : Ctl) (keyId : Digest) (usage : Nat) : Option KeySlot :=
  (c.sec.keys.filterMap id).find? fun k => k.keyId = keyId && k.usage.testBit usage

/-- Whether a signed body passes the check of R369: both signatures are made over its bytes. -/
def Ctl.signed (c : Ctl) (usage : Nat) (body : List Byte) (sig : Sig) : Bool :=
  match c.signer sig.keyId usage with
  | none => false
  | some k => dualVerifies k.ecdsa k.hss body sig.ecdsa sig.hss

/-! ### Manifests (R177) -/

/-- What a manifest says: kind, name, base, key, counts, digests, its signed length and its block table as (offset, length). -/
structure Manifest where
  variant : Bool
  name : BitVec 128
  baseDigest : Digest
  keyId : Digest
  stored : Nat
  tableDigest : Digest
  recordsDigest : Digest
  scalesDigest : Digest
  cover : Nat
  tableOff : Nat
  blocks : List (Nat × Nat)
  deriving DecidableEq, Repr

/-- Whether some bytes of a list are zero. -/
def zeroAt (bs : List Byte) (off n : Nat) : Bool := (List.range n).all fun i => bs.getD (off + i) 0#8 = 0#8

/-- Whether the reserved bytes of a manifest's tables are zero. -/
def tablesClean (bs : List Byte) (nt nb : Nat) : Bool :=
  (List.range nt).all (fun i => zeroAt bs (0x200 + 16 * i + 9) 3 && zeroAt bs (0x200 + 16 * i + 14) 2) &&
    (List.range nb).all fun i => zeroAt bs (0x200 + 16 * nt + 16 * i + 11) 5

/-- Reads a manifest (R177); none where phase 1 of R178 fails before the key. -/
def manifestOf (bs : List Byte) : Option Manifest :=
  let nt := Bits.leNat bs 0x78 4
  let nb := Bits.leNat bs 0x7C 4
  let cover := 0x200 + 16 * nt + 16 * nb
  if bs.length < 0x200 || Bits.leNat bs 0 4 ≠ 0x4F57494D || Bits.leNat bs 4 2 ≠ 1 || 1 < Bits.leNat bs 6 1 ||
      !zeroAt bs 7 1 || !zeroAt bs 0x118 232 || nt < 1 || 65535 < nt || nb < 1 || bs.length < cover + 96 + 3604 ||
      !tablesClean bs nt nb then none
  else some
    { variant := Bits.leNat bs 6 1 = 1, name := BitVec.ofNat 128 (Bits.leNat bs 8 16), baseDigest := digestAt bs 0x18
      keyId := digestAt bs 0x48, stored := Bits.leNat bs 0x80 8, tableDigest := digestAt bs 0x88
      recordsDigest := digestAt bs 0xB8, scalesDigest := digestAt bs 0xE8, cover := cover, tableOff := 0x200 + 16 * nt
      blocks := (List.range nb).map fun i =>
        (Bits.leNat bs (0x200 + 16 * nt + 16 * i) 8, Bits.leNat bs (0x200 + 16 * nt + 16 * i + 8) 2) }

/-- Phase 1 of R178: a manifest whose key is in a slot with the IMAGE bit and whose signatures verify. -/
def Ctl.manifestOk (c : Ctl) (bs : List Byte) : Option Manifest :=
  match manifestOf bs with
  | none => none
  | some m =>
    match c.signer m.keyId 0 with
    | none => none
    | some k =>
      let msg := bs.take m.cover
      if dualVerifies k.ecdsa k.hss msg ((bs.drop m.cover).take 96) ((bs.drop (m.cover + 96)).take 3604)
      then some m else none

/-! ### Scale-table sets (R133, R135, R141) -/

/-- Whether an FP32 value is finite, and whether it is a positive normal one. -/
def finite32 (w : Word) : Bool := (num32 w).isFin || (num32 w).isZero

/-- See `finite32`. -/
def positiveNormal (w : Word) : Bool := finite32 w && 0x00800000 ≤ w.toNat && w.toNat < 0x80000000

/-- Whether a zero point lies in the code range of a format. -/
def zeroIn (f : Fmt) (z : Int) : Bool := f.codeRange.1 ≤ z && z ≤ f.codeRange.2

/-- Whether an entry suits R133 and, where the plan says what it serves, the formats of R135 and R216; where it does not, some integer format. -/
def entryOk (k : Option EntryKind) (e : RescaleEntry) : Bool :=
  finite32 e.scale && finite32 e.offset && e.rsvd = 0#8 &&
  match k with
  | none => (e.outScale = 0#32 && e.outZp = 0) || (positiveNormal e.outScale && [Fmt.int8, .uint8, .int4].any fun f => zeroIn f e.outZp)
  | some k =>
    if k.kv then e.scale = 0#32 && e.offset = 0#32 && e.inZp = 0#8 && positiveNormal e.outScale && zeroIn (k.out.getD .int8) e.outZp
    else
      (match k.out with
        | none => e.outScale = 0#32 && e.outZp = 0
        | some f => positiveNormal e.outScale && zeroIn f e.outZp) &&
      (match k.weight with
        | none => e.inZp = 0#8
        | some f => zeroIn f (if f = .uint8 then (e.inZp.toNat : Int) else e.inZp.toInt))

/-- The calibration record of a scale set's bytes and the set before it (R141): the least number of entries after which a record
of VERSION 1 fits exactly. -/
def splitScales (bs : List Byte) : Option (List Byte × List Byte) :=
  ((List.range (bs.length / 16 + 1)).find? fun n =>
    Bits.leNat bs (16 * n) 2 = 1 && bs.length = 16 * n + 64 + 16 * Bits.leNat bs (16 * n + 2) 2).map fun n =>
    (bs.take (16 * n), bs.drop (16 * n))

/-- Whether an FP32 reference is finite and not negative, or positive. -/
def refOk (w : Word) (positive : Bool) : Bool :=
  finite32 w && (w = 0x80000000#32 || w.toNat < 0x80000000) && (!positive || !(num32 w).isZero)

/-- Whether a calibration record passes R141. -/
def calibrationOk (bs : List Byte) : Bool :=
  let n := Bits.leNat bs 2 2
  let act := bs.getD 4 0#8
  let kv := bs.getD 5 0#8
  1 ≤ n && n ≤ 4095 && act.toNat < 16 && kv.toNat < 16 && zeroAt bs 6 2 && zeroAt bs 24 40 &&
    ((List.range 4).all fun b => !act.getLsbD b || refOk (BitVec.ofNat 32 (Bits.leNat bs (8 + 4 * b) 4)) false) &&
    (List.range n).all fun l => (List.range 4).all fun b =>
      !kv.getLsbD b || refOk (BitVec.ofNat 32 (Bits.leNat bs (64 + 16 * l + 4 * b) 4)) true

/-- Entry `i` of a set. -/
def setEntry (set : List Byte) (i : Nat) : RescaleEntry := rescaleEntry ((set.drop (16 * i)).take 16)

/-- The check of R135: every entry against R133 and the plan's formats, and the calibration record. -/
def scalesOk (kinds : Option (List EntryKind)) (bs : List Byte) : Bool :=
  match splitScales bs with
  | none => false
  | some (set, cal) =>
    let n := set.length / 16
    calibrationOk cal && (match kinds with | some ks => ks.length = n | none => true) &&
      (List.range n).all fun i => entryOk (match kinds with | some ks => ks[i]? | none => none) (setEntry set i)

/-- What the selected plan says of an image's entries. -/
def Ctl.entryKinds (c : Ctl) (digest : Digest) : Option (List EntryKind) :=
  c.plan?.bind fun p => (p.images.find? (·.digest = digest)).map (·.entries)

end Sys2Proof.Machine
end

