-- ==== Sys2Proof/Machine/Softmax.lean ====
section
/-! DEFINITION. Softmax by tiles (04): partial triples (m, l, o), their merge and their finish. -/

namespace Sys2Proof.Machine

open Sys2Proof

/-- −∞ in FP32. -/
def negInf : Word := 0xFF800000#32

/-- A partial triple (R118). -/
structure Triple where
  m : Word
  l : Word
  o : List Word
  deriving DecidableEq, Repr

/-- A new triple of width d (R118). -/
def Triple.fresh (d : Nat) : Triple := ⟨negInf, 0#32, List.replicate d 0#32⟩

/-- Bytes of a triple's record: 64 and 4 per element, padded to a multiple of 64 (R121). -/
def tripleBytes (d : Nat) : Nat := 64 + 64 * Bits.ceilDiv (4 * d) 64

/-- The record of a triple (R121). -/
def Triple.bytes (t : Triple) : List Byte :=
  let d := t.o.length
  wordBytes [t.m, t.l] ++ Bits.toLe d 2 ++ List.replicate 54 0#8 ++ wordBytes t.o ++
    List.replicate (tripleBytes d - 64 - 4 * d) 0#8

/-- The triple of a record. -/
def Dp.triple (d : Dp) (key width : Nat) : Triple := ⟨d.word key, d.word (key + 4), d.words (key + 64) width⟩

/-- rne32 of one product per element, with flags. -/
def scaleAll (c : Word) (xs : List Word) : List Word × ArithFlags :=
  let r := xs.map fun x => mulF32 x c
  (r.map (·.1), ArithFlags.orAll (r.map (·.2)))

/-- The weights of a tile in the operand format of the plan (R118): BF16 and FP16 under R127, scaled blocks under R81; with the conversion. -/
def weightNums (f : Fmt) (ps : List Word) : List FNum × Written :=
  let w := convertOut f (Config.smxScale f.code) 0 ps
  let n := ps.length
  let codes := if f.blockScaled
    then (chunks32 ps).flatMap fun b => (toBlock f ((b ++ List.replicate (32 - b.length) 0#32).map num32)).codes
    else unpackBits f.width n (Bits.leNat w.codes 0 w.codes.length)
  ((codes.take n).mapIdx fun i c => elemNum f c (w.scales.getD (i / 32) 0x7F#8) 0, w)

/-- One tile of exact operand values added onto an accumulator, a group of 32 at a time (R88, R118). -/
def accTile (acc : Word) (ps vs : List FNum) : Word × ArithFlags :=
  ((chunks32 ps).zip (chunks32 vs)).foldl (fun a g =>
    let s := dotGroup g.1 g.2
    let r := accAdd a.1 s.1
    (r.1, (a.2.or s.2).or r.2)) (acc, {})

/-- Whether every score of a tile is masked (R118). -/
def allMasked (scores : List Word) : Bool := (reduceAll maxF32 maxId scores).1 = negInf

/-- What one tile makes of a triple (R118): the triple, the VXE's flags and the MXE's flags. `col j` gives element j of every
value row. -/
def smxTileOf (t : Triple) (scores : List Word) (f : Fmt) (col : Nat → List FNum) : Triple × ArithFlags × ArithFlags :=
  let mt := reduceAll maxF32 maxId scores
  if mt.1 = negInf then (t, mt.2, {})
  else
    let mn := maxF32 t.m mt.1
    let dc := subF32 t.m mn.1
    let c := expF32 dc.1
    let ds := scores.map fun x => subF32 x mn.1
    let ps := ds.map fun x => expF32 x.1
    let lc := mulF32 t.l c.1
    let sum := reduceAll addF32 sumId (ps.map (·.1))
    let l := addF32 lc.1 sum.1
    let oc := scaleAll c.1 t.o
    let w := weightNums f (ps.map (·.1))
    let o := oc.1.mapIdx fun j x => accTile x w.1 (col j)
    (⟨mn.1, l.1, o.map (·.1)⟩,
      ArithFlags.orAll ([mt.2, mn.2, dc.2, c.2, lc.2, sum.2, l.2, oc.2, w.2.fl] ++ ds.map (·.2) ++ ps.map (·.2)),
      ArithFlags.orAll (o.map (·.2)))

/-- Which weights of a tile its conversion clips (R137): those of the VXE's weights in the operand format. -/
def smxClips (t : Triple) (scores : List Word) (f : Fmt) : List Bool :=
  let mn := maxF32 t.m (reduceAll maxF32 maxId scores).1
  ((weightNums f (scores.map fun x => (expF32 (subF32 x mn.1).1).1)).2.clipped).take scores.length

/-- Bytes that a reduction row of `n` values fills from its first block group on (R149). -/
def rowSpan (f : Fmt) (block n : Nat) : Nat := Bits.ceilDiv (block + Bits.ceilDiv n 32) 64 * groupBytes f

/-- The operands of a tile's value rows: in a scaled format one reduction row of `n` positions for each of the `d` elements, since blocks run
along the reduction (R79); otherwise the `n` rows one after the other (log 25). -/
def valueSrcs (v : Src) (n d : Nat) : List (Src × Nat) :=
  if v.fmt.blockScaled then
    (List.range d).map fun j =>
      ({ v with place := ⟨v.place.off + j * rowSpan v.fmt v.block n, v.place.queue, v.place.release && j + 1 = d⟩ }, n)
  else [(v, n * d)]

/-- What SMX_TILE needs. -/
def smxNeeds (scores values : Src) (n d : Nat) : List Need :=
  srcNeeds scores .vxe n ++ (valueSrcs values n d).flatMap fun a => srcNeeds a.1 .mxeB a.2

/-- Element j of every value row of a tile. -/
def valueCol (dp : Dp) (core : Nat) (ls : List Loc) (values : Src) (n d j : Nat) : List FNum :=
  if values.fmt.blockScaled then dp.elems core (locOf ls (2 + 2 * j)) (locOf ls (3 + 2 * j)) values n
  else
    let all := dp.elems core (locOf ls 2) (locOf ls 3) values (n * d)
    (List.range n).map fun i => all.getD (i * d + j) (.zero false)

/-- SMX_TILE (R118, R120, R121): the triple at a core-store offset takes a tile of n scores and their value rows of width d;
the accumulators keep the elements they formed, and a tile whose every score is masked leaves them as they are. -/
def execSmxTile (o : EngOp) (scores values : Src) (n d : Nat) (operand : Fmt) (triple : Nat) (fresh : Bool) (s : State) :
    Host.Outcome State Fault Refusal :=
  runEngine s o (smxNeeds scores values n d) (isElement operand && isElement scores.fmt && isElement values.fmt)
    (locWritable ⟨.core, triple⟩ (tripleBytes d)) [(coreKey (s.ctl.core o.core) triple, tripleBytes d)]
    [(macClass operand values.fmt, n * d), (.vxeOp, n), (.sfn, n)] fun core ls mark dp =>
      let key := coreKey core triple
      let t := if fresh then Triple.fresh d else dp.triple key d
      let xs := dp.lanes core (locOf ls 0) (locOf ls 1) scores n
      let r := smxTileOf t xs operand fun j => valueCol dp core ls values n d j
      let m := mark || (!fresh && dp.poisoned key (tripleBytes d))
      let dp := (dp.write key r.1.bytes m).raiseFlags core .vxe r.2.1
      let dp := (dp.raiseFlags core .mxe r.2.2).poisonRow o m
      if allMasked xs then dp
      else
        (r.1.o.mapIdx fun j x => (j, x)).foldl (fun d p => d.setAcc core (p.1 % 512) p.2 m)
          (dp.countConv core o.core.yard o.tag operand (smxClips t xs operand))

/-- R119: two triples of one width combine. -/
def smxPair (a b : Triple) : Triple × ArithFlags :=
  if a.m = negInf ∧ b.m = negInf then (Triple.fresh a.o.length, {})
  else
    let m := maxF32 a.m b.m
    let d1 := subF32 a.m m.1
    let d2 := subF32 b.m m.1
    let c1 := expF32 d1.1
    let c2 := expF32 d2.1
    let l1 := mulF32 a.l c1.1
    let l2 := mulF32 b.l c2.1
    let l := addF32 l1.1 l2.1
    let o1 := scaleAll c1.1 a.o
    let o2 := scaleAll c2.1 b.o
    let o := zipLanes addF32 o1.1 o2.1
    (⟨m.1, l.1, o.1⟩, ArithFlags.orAll [m.2, d1.2, d2.2, c1.2, c2.2, l1.2, l2.2, l.2, o1.2, o2.2, o.2])

/-- SMX_MERGE (R119) of two triples of the width that the instruction names, from core store or through a queue (R121). -/
def execSmxMerge (o : EngOp) (a b : Place) (d : TripleAt) (s : State) : Host.Outcome State Fault Refusal :=
  let n := tripleBytes d.width
  runEngine s o [⟨a, .vxe, [(0, n)]⟩, ⟨b, .vxe, [(0, n)]⟩] true (locWritable ⟨.core, d.off⟩ n)
    [(coreKey (s.ctl.core o.core) d.off, n)] [(.vxeOp, d.width)] fun core ls m dp =>
      let r := smxPair (dp.triple (locKey core (locOf ls 0)) d.width) (dp.triple (locKey core (locOf ls 1)) d.width)
      ((dp.write (coreKey core d.off) r.1.bytes m).raiseFlags core .vxe r.2).poisonRow o m

/-- R120: o / l elementwise; +0 everywhere, without flags, for l = +0. -/
def smxQuotients (t : Triple) : List Word × ArithFlags :=
  if t.l = 0#32 then (t.o.map fun _ => 0#32, {}) else mapLanes (fun x => divF32 x t.l) t.o

/-- SMX_FINISH (R120): the quotients in FP32 or converted on write (R100). -/
def execSmxFinish (o : EngOp) (a : TripleAt) (d : Dst) (s : State) : Host.Outcome State Fault Refusal :=
  runEngine s o [⟨⟨a.off, none, false⟩, .vxe, [(0, 64 + 4 * a.width)]⟩] (isElement d.fmt) (dstFits d a.width)
    (spanKeys (s.ctl.core o.core) d a.width) [(.vxeOp, a.width)] fun core _ m dp =>
      let r := smxQuotients (dp.triple (coreKey core a.off) a.width)
      (dp.raiseFlags core .vxe r.2).put core o d r.1 m

end Sys2Proof.Machine
end

