-- ==== Sys2Proof/Machine/Nma.lean ====
section
/-! DEFINITION. Decode attention in the near-memory attention units (08): slices of a stall's attended blocks on one near stack
become one partial triple per head and a mass record. -/

namespace Sys2Proof.Machine

open Sys2Proof

/-- The KV descriptor of a layer of a yard (R213). -/
def Ctl.kvDesc (c : Ctl) (k : Yard) (layer : Nat) : Option KvDesc :=
  ((c.plan?.map (·.kvDescs)).getD []).find? fun x => x.yard = k && x.layer = layer

/-- Where entry `i` of an epoch's scale-table set stands for the yard that runs the layers of yard `k` (R134, R393); none where the epoch holds
none. -/
def Ctl.tableEntry (c : Ctl) (e : Epoch) (k : Yard) (i : Nat) : Option Nat :=
  (if c.hub.relief = some k then e.placed.reliefEntries.getD i none else e.placed.entries.getD i none)

/-- The bytes of a table entry in the fast tier, and whether they are poisoned (R170, R216). -/
def Dp.tableBytes (d : Dp) (a : Option Nat) : List Byte × Bool :=
  match a with
  | some a => (d.mem.readN (fastKey a) 16, d.poisoned (fastKey a) 16)
  | none => ([], false)

/-- The attended blocks of a stall's KV view in one layer on one stack, in position order (R217, R219, R221). -/
def Stall.nearBlocks (st : Stall) (k : Yard) (layer stack : Nat) : List ViewBlock :=
  (st.views.filter fun v => v.yard = k && v.slot = 1).flatMap fun v =>
    v.blocks.filter fun b => b.layer = layer && !b.far && b.addr / 2 ^ 37 = stack

/-- How a KV head of a descriptor lies in a layer block (R214, R215): first byte of the key codes and their stride, of the second
key part and its stride (latent rotary codes), of the value codes, and the channel of each part's first code. -/
structure KvShape where
  heads : Nat
  partA : Nat
  partB : Nat
  offA : Nat
  offB : Nat
  offV : Nat
  chanA : Nat
  chanB : Nat
  chanV : Nat
  deriving DecidableEq, Repr

/-- The shape of a descriptor for an NMA operation on KV head `g`. -/
def kvShape (x : KvDesc) (g : Nat) : KvShape :=
  if x.kind = 0 then
    { heads := x.heads, partA := x.widthA, partB := x.widthB, offA := 0, offB := 64 * x.widthA, offV := 0, chanA := 0
      chanB := x.widthA, chanV := 0 }
  else
    let base := 128 * x.widthA * g
    { heads := x.heads, partA := x.widthA, partB := 0, offA := base, offB := 0, offV := base + 64 * x.widthA
      chanA := g * x.widthA, chanB := 0, chanV := x.widthB * x.widthA + g * x.widthA }

/-- d = code − z of a KV code (R83, R216). -/
def kvNum (f : Fmt) (code : Byte) (z : Int) : FNum := FNum.ofInt (intCode f code.toNat - z)

/-- The key of position `p` of a block: its parts as integers less their zero points. -/
def keyNums (f : Fmt) (sh : KvShape) (ep : Nat → RescaleEntry) (blk : Nat → Byte) (p : Nat) : List FNum :=
  ((List.range sh.partA).map fun i => kvNum f (blk (sh.offA + sh.partA * p + i)) (ep (sh.chanA + i)).outZp) ++
  (List.range sh.partB).map fun i => kvNum f (blk (sh.offB + sh.partB * p + i)) (ep (sh.chanB + i)).outZp

/-- The value of position `p` of a block. -/
def valueNums (f : Fmt) (sh : KvShape) (ep : Nat → RescaleEntry) (blk : Nat → Byte) (p : Nat) : List FNum :=
  (List.range sh.partA).map fun i => kvNum f (blk (sh.offV + sh.partA * p + i)) (ep (sh.chanV + i)).outZp

/-- A score (R222): the exact sum scaled by s_q and by TAU in FP32, one rounding each. -/
def nmaScore (tau sq : Word) (q k : List FNum) : Word :=
  let sum := (accTile 0#32 q k).1
  if Config.scaleQueryFirst then (mulF32 tau (mulF32 sq sum).1).1 else (mulF32 sq (mulF32 tau sum).1).1

/-- One head over the blocks of a slice (R223): the triple, with o still in units of codes, and each block's own (m, l). -/
def nmaHead (f : Fmt) (sh : KvShape) (ep : Nat → RescaleEntry) (tau sq : Word) (q : List FNum)
    (blocks : List ((Nat → Byte) × Nat)) : Triple × List (Word × Word) :=
  blocks.foldl (fun acc b =>
    let scores := (List.range b.2).map fun p => nmaScore tau sq q (keyNums f sh ep b.1 p)
    let vals := (List.range b.2).map fun p => valueNums f sh ep b.1 p
    let col (j : Nat) : List FNum := vals.map fun v => v.getD j (.zero false)
    let own := (smxTileOf (Triple.fresh 0) scores .e4m3 fun _ => []).1
    ((smxTileOf acc.1 scores .e4m3 col).1, acc.2 ++ [(own.m, own.l)])) (Triple.fresh sh.partA, [])

/-- e^x at a precision; beyond ±2047 a number as small or as large as every use of it needs. -/
def expEncl (p : Nat) (x : FNum) : Encl.Ival :=
  match x with
  | .zero _ => Encl.near (.ofInt 1)
  | .fin n d =>
    if n.natAbs < 2047 * d then Encl.expQ p n d
    else Encl.near (if n < 0 then .fin 1 (2 ^ 2900) else .fin (2 ^ 2900) 1)
  | .inf s => Encl.near (if s then .zero false else .inf false)
  | .nan _ => Encl.near (.nan false)

/-- e^(a − b) at a precision. -/
def expGap (p : Nat) (a b : Word) : Encl.Ival := expEncl p ((num32 a).add (num32 b).neg)

/-- rne32 of a value known by enclosures: rounded once. -/
def roundEncl (key : Word) (f : Nat → Encl.Ival) : Word :=
  match Sfn.ziv (fun v => ((rne32 v).1.toNat, {})) f Sfn.precisions with
  | some r => BitVec.ofNat 32 r.1
  | none => (rne32 (if Config.sfnUndetermined 0 key then (f 3000).hi else (f 3000).lo)).1

/-- x × e^(a − b) / y at a precision, for x and y that are not negative. -/
def scaledGap (p : Nat) (x a b y : Word) : Encl.Ival :=
  let g := expGap p a b
  ⟨((num32 x).mul g.lo).div (num32 y), ((num32 x).mul g.hi).div (num32 y)⟩

/-- An entry of the mass record (R224): l_b × exp(m_b − m) / l, rounded once. -/
def massEntry (t : Triple) (b : Word × Word) : Word := roundEncl b.1 fun p => scaledGap p b.2 b.1 t.m t.l

/-- The blocks that an operation attends (R221, R222, R226): those of its slice that its stall was relocated to on its near stack; a vacant or
struck stall attends none. -/
def Ctl.nmaBlocks (c : Ctl) (o : NmaOp) : List ViewBlock :=
  match c.stallIn o.core.yard o.stall.toNat with
  | some st =>
    if st.struck then []
    else ((st.nearBlocks o.core.yard o.layer.toNat (2 * (c.home o.core.yard).val + o.near.val)).drop o.first).take o.count
  | none => []

/-- Bytes of a mass record of `n` blocks (R224). -/
def massBytes (heads n : Nat) : Nat := 64 * Bits.ceilDiv (4 * heads * n) 64

/-- Whether every operand of an operation lies in its store and every block in the fast tier. -/
def Ctl.nmaFits (c : Ctl) (o : NmaOp) (x : KvDesc) : Bool :=
  let sh := kvShape x o.kvHead
  locReadable ⟨.core, o.query⟩ (sh.heads * (sh.partA + sh.partB)) && locReadable ⟨.core, o.pairs⟩ (8 * sh.heads) &&
    locWritable ⟨.core, o.triples⟩ (sh.heads * tripleBytes sh.partA) &&
    locWritable ⟨.core, o.mass⟩ (massBytes sh.heads (c.nmaBlocks o).length) &&
    (c.nmaBlocks o).all fun e => fastIn e.addr x.blockBytes

/-- The channels of the KV entries that an operation uses (R216). -/
def KvShape.channels (sh : KvShape) : List Nat :=
  (List.range sh.partA).map (sh.chanA + ·) ++ (List.range sh.partB).map (sh.chanB + ·) ++ (List.range sh.partA).map (sh.chanV + ·)

/-- The channel entries of an operation's epoch, as they stand in the fast tier, and whether any of them is poisoned (R170, R216). -/
def Ctl.nmaEntries (c : Ctl) (d : Dp) (o : NmaOp) (x : KvDesc) (sh : KvShape) : (Nat → RescaleEntry) × Bool :=
  let st := c.stallIn o.core.yard o.stall.toNat
  match st.bind fun y => c.objs.epochs.find? fun e => e.image = y.image && e.num = y.epoch with
  | some e =>
    let at0 (i : Nat) : List Byte × Bool := d.tableBytes (c.tableEntry e o.core.yard (x.scaleOff + i))
    (fun i => Machine.rescaleEntry (at0 i).1, sh.channels.any fun i => (at0 i).2)
  | none => (fun _ => Machine.rescaleEntry [], false)

/-- What an NMA operation makes of one head: its triple, scaled, and its column of the mass record (R222-R224). -/
def Dp.nmaHeadOf (d : Dp) (core : Nat) (o : NmaOp) (x : KvDesc) (f : Fmt) (sh : KvShape) (ep : Nat → RescaleEntry)
    (blocks : List ((Nat → Byte) × Nat)) (h : Nat) : Triple × List Word :=
  let width := sh.partA + sh.partB
  let sq := d.word (coreKey core (o.pairs + 8 * h))
  let zq := signed16 (Bits.leNat (d.mem.readN (coreKey core (o.pairs + 8 * h + 4)) 2) 0 2)
  let q := (List.range width).map fun i => kvNum f (d.mem.read (coreKey core (o.query + h * width + i))) zq
  let r := nmaHead f sh ep x.tau sq q blocks
  ({ r.1 with o := r.1.o.mapIdx fun i v => (mulF32 v (ep (sh.chanV + i)).outScale).1 }, r.2.map (massEntry r.1))

/-- The blocks of an operation that are read as poison: a unit is poisoned or its channel is lost (R170, R386). -/
def Ctl.nmaBad (c : Ctl) (d : Dp) (o : NmaOp) (x : KvDesc) : List ViewBlock :=
  (c.nmaBlocks o).filter fun e => d.poisoned (fastKey e.addr) x.blockBytes ||
    (List.range (x.blockBytes / 4096)).any fun i => c.addrLost (e.addr + 4096 * i)

/-- The address of the first bad unit of a block (R171). -/
def Ctl.badUnit (c : Ctl) (d : Dp) (addr n : Nat) : Nat :=
  (((List.range (n / 64)).map fun i => addr + 64 * i).find? fun a => d.poisoned (fastKey a) 64 || c.addrLost a).getD addr

/-- The units that an operation counts for its stall (R339): the multiply-accumulates of its scores and of its values, and the code bytes of the blocks
that it streams, those of prefix-tree nodes apart. -/
def Ctl.nmaWork (c : Ctl) (o : NmaOp) (sh : KvShape) : List (EnergyClass × Nat) :=
  let k := o.core.yard
  let blocks := c.nmaBlocks o
  let own := blocks.filter fun b => match c.stallIn k o.stall.toNat with
    | some st => !c.nodeBlock k st b
    | none => false
  let perPosition := if sh.offV = 0 then sh.partA + sh.partB else 2 * sh.partA
  [(.nmaMac, (blocks.map (·.count)).sum * sh.heads * (2 * sh.partA + sh.partB)), (.nearByte, (own.map (·.count)).sum * perPosition)]

/-- An NMA operation (R221-R224): in its cluster's segment, at or after its scheduled cycle. -/
def nmaOp (kind : Nat) (o : NmaOp) (s : State) : Host.Outcome State Fault Refusal :=
  let k := o.core.yard
  if !s.ctl.issues k o.core.cluster.val o.at0 then .next s
  else
  match s.ctl.kvDesc k o.layer.toNat with
  | none => .fault .badFormat
  | some x =>
    match (if x.format = 8 then some Fmt.int8 else if x.format = 10 then some Fmt.uint8 else none) with
    | none => .fault .badFormat
    | some f =>
      if x.kind ≠ kind then .fault .badFormat
      else if !s.ctl.nmaFits o x then .fault .noSuchAddress
      else
        let core := s.ctl.core o.core
        let sh := kvShape x o.kvHead
        let d := s.dp
        let attended := s.ctl.nmaBlocks o
        let ep := s.ctl.nmaEntries d o x sh
        let blocks : List ((Nat → Byte) × Nat) := attended.map fun e => (fun i => d.mem.read (fastKey (e.addr + i)), e.count)
        let heads := (List.range sh.heads).map (d.nmaHeadOf core o x f sh ep.1 blocks)
        let mass := (List.range attended.length).flatMap fun b => heads.map fun h => h.2.getD b 0#32
        let bad := s.ctl.nmaBad d o x
        let mark := !bad.isEmpty || ep.2 || d.poisoned (coreKey core o.query) (sh.heads * (sh.partA + sh.partB)) ||
          d.poisoned (coreKey core o.pairs) (8 * sh.heads) || (s.ctl.seq k o.core.cluster.val).faulty
        let e : EngOp := ⟨o.core, ⟨o.stall, o.layer, 0⟩, o.at0⟩
        let massB := massBytes sh.heads attended.length
        let d := d.write (coreKey core o.triples) (heads.flatMap fun h => h.1.bytes) mark
        let d := (d.write (coreKey core o.mass) (wordBytes mass ++ List.replicate (massB - 4 * mass.length) 0#8) mark).poisonRow e mark
        let c := match bad with
          | [] => s.ctl
          | b :: _ => s.ctl.fastPoison s.cfg (s.ctl.badUnit s.dp b.addr x.blockBytes)
        let c := if o.late then c.breach s.cfg (s.ctl.home k) 4 0 false else c
        let d := if (s.ctl.seq k o.core.cluster.val).faulty then d
          else d.countUnits k o.core.cluster.val o.stall.toNat (s.ctl.nmaWork o sh)
        .next { s with dp := d.retireInstr k o.core.cluster, ctl := c }

/-- NMA_LATENT (R221-R224): H heads in latent space. -/
def execNmaLatent (o : NmaOp) (s : State) : Host.Outcome State Fault Refusal := nmaOp 0 o s

/-- NMA_GQA (R221-R224): G query heads that share one KV head. -/
def execNmaGqa (o : NmaOp) (s : State) : Host.Outcome State Fault Refusal := nmaOp 1 o s

end Sys2Proof.Machine
end

