-- ==== Sys2Proof/Machine/Kv.lean ====
section
/-! DEFINITION. The KV cache (08): layer blocks and their copies, allocation, the prefix tree, demotion and promotion, views, the
append scatter step, restoration and release. -/

namespace Sys2Proof

/-- The attention layers of a yard, in order (R213). -/
def Plan.descs (p : Plan) (k : Yard) : List KvDesc := p.kvDescs.filter (·.yard = k)

/-- BLOCK_BYTES of a yard's layers (R213). -/
def Plan.blockBytes (p : Plan) (k : Yard) : Nat := ((p.descs k).head?.map (·.blockBytes)).getD 0

/-- P_S of a plan's buckets that a slice is cut by: the largest. -/
def Plan.maxPs (p : Plan) : Nat := (p.buckets.map (·.ps)).foldl Max.max 0

end Sys2Proof

namespace Sys2Proof.Machine

open Sys2Proof

/-! ### Places -/

/-- The yard that covers a yard under relief placement (R35, R393). -/
def reliefYard (k : Yard) : Yard := k + 1

/-- The KV region of a yard's layers on one of two near stacks (R217, R393): stack, base offset and slots. -/
def Ctl.kvRegion (c : Ctl) (p : Plan) (k : Yard) (side : Nat) : Nat × Nat × Nat :=
  let i := 2 * k.val + side
  if c.hub.relief = some k then (2 * (reliefYard k).val + side, p.reliefKvBase.getD i 0, p.reliefKvSlots.getD i 0)
  else (i, p.kvBase.getD i 0, p.kvSlots.getD i 0)

/-- Layer blocks that a list of map entries holds in the fast tier for a yard. -/
def fastOf (m : List MapEntry) (k : Yard) : List Nat :=
  (m.filter fun e => e.yard = k && !e.demoted && !e.evicted).map (·.fast)

/-- Fast-tier addresses of a yard's layer blocks that are in use, storage not yet freed included (R240, R243). -/
def Ctl.fastUsed (c : Ctl) (k : Yard) : List Nat :=
  (c.objs.sessions.flatMap (fun x => fastOf x.map k) ++ c.objs.nodes.flatMap (fun n => fastOf n.blocks k) ++
    (c.fe.released.flatMap fun r => if r.yard = k then r.fast else []) ++
    c.fe.kvMoves.filterMap fun m => if m.yard = k then m.new else none).eraseDups

/-- Slots of the KV regions of a yard. -/
def Ctl.kvSlots (c : Ctl) (k : Yard) : Nat :=
  match c.plan? with
  | none => 0
  | some p => (c.kvRegion p k 0).2.2 + (c.kvRegion p k 1).2.2

/-- A free layer-block slot on one of a yard's two near stacks: the lowest one. -/
def Ctl.sideAlloc (c : Ctl) (p : Plan) (k : Yard) (side : Nat) : Option Nat :=
  let r := c.kvRegion p k side
  let used := c.fastUsed k
  ((List.range (Min.min r.2.2 (used.length + 1))).map fun i => r.1 * 2 ^ 37 + r.2.1 + i * p.blockBytes k).find? fun a =>
    !used.contains a

/-- A free layer-block slot for a layer and block index (R217). -/
def Ctl.fastAlloc (c : Ctl) (p : Plan) (k : Yard) (layer block : Nat) : Option Nat := c.sideAlloc p k ((block + layer) % 2)

/-! ### Shed space (R155, R246) -/

/-- The ports in service. -/
def Ctl.portsUp (c : Ctl) : List Nat := (List.range 4).filter fun i => (c.port i).up && !(c.port i).held

/-- A free shed unit of a port: the lowest one. Address 0 is never given, since MIRROR 0 stands for no mirror (R218). -/
def Ctl.shedUnit (c : Ctl) (port : Nat) : Option Nat :=
  let used := ((c.fe.shed.flatMap (·.units)) ++ c.objs.epochs.flatMap (·.cold)).filter fun a => a / 2 ^ 44 = port
  ((List.range (Min.min ((c.port port).bytes / 65536) (used.length + 2))).map fun i => port * 2 ^ 44 + i * 65536).find? fun a =>
    a ≠ 0 && !used.contains a

/-- Shed units for one allocation, round-robin over some ports from the one after the port that took the last (R155). -/
def Ctl.shedTake (c : Ctl) (ports : List Nat) (g : ShedGroup) : Nat → Option (ShedGroup × Ctl)
  | 0 => some (g, c.onFe fun f => { f with shed := f.shed ++ [g] })
  | n + 1 =>
    let order := ((List.range 4).map fun i => (c.fe.shedLast + 1 + i) % 4).filter ports.contains
    match order.findSome? fun q => ((c.onFe fun f => { f with shed := f.shed ++ [g] }).shedUnit q).map fun a => (q, a) with
    | none => none
    | some (q, a) => (c.onFe fun f => { f with shedLast := q }).shedTake ports { g with units := g.units ++ [a] } n

/-- The shed address of a group's block. -/
def ShedGroup.addr (g : ShedGroup) (i : Nat) : Nat :=
  g.units.getD (i * g.bytes / 65536) 0 + i * g.bytes % 65536

/-- The runs (shed address, length) of a group's block over its units. -/
def ShedGroup.runs (g : ShedGroup) (i : Nat) : List (Nat × Nat) :=
  let lo := i * g.bytes
  (List.range (g.bytes / 65536 + 2)).filterMap fun j =>
    let u := lo / 65536 + j
    let a := Max.max lo (u * 65536)
    let b := Min.min (lo + g.bytes) (u * 65536 + 65536)
    if a < b then some (g.units.getD u 0 + a % 65536, b - a) else none

/-- The runs of the block copy that begins at a shed address. -/
def Ctl.shedRuns (c : Ctl) (addr : Nat) : List (Nat × Nat) :=
  (c.fe.shed.findSome? fun g => ((List.range g.count).find? fun i => g.addr i = addr).map g.runs).getD []

/-- Shed addresses of block copies in use, storage not yet freed included. -/
def Ctl.shedUsed (c : Ctl) : List Nat :=
  let of (m : List MapEntry) : List Nat := m.flatMap fun e => if e.evicted && !e.node then [] else [e.shadow, e.mirror]
  (c.objs.sessions.flatMap fun x => of x.map) ++ (c.objs.nodes.flatMap fun n => of n.blocks) ++
    c.fe.released.flatMap (·.shed)

/-- Space for one shadow copy of a function (R246): in a group of 16 blocks with room, or in a new group. -/
def Ctl.shadowAlloc (c : Ctl) (fn : BitVec 8) (bytes : Nat) : Option (Nat × Ctl) :=
  let used := c.shedUsed
  match c.fe.shed.findSome? fun g =>
    if g.fn = fn && g.bytes = bytes && g.count = 16 && g.units.all fun a => c.portsUp.contains (a / 2 ^ 44) then
      ((List.range 16).map g.addr).find? fun a => !used.contains a
    else none with
  | some a => some (a, c)
  | none => if c.hub.short then none
    else (c.shedTake c.portsUp ⟨fn, bytes, 16, []⟩ (Bits.ceilDiv (16 * bytes) 65536)).map fun r => (r.1.addr 0, r.2)

/-- Space for a mirror (R241): every unit of it on a port that holds no part of the shadow. -/
def Ctl.mirrorAlloc (c : Ctl) (fn : BitVec 8) (bytes shadow : Nat) : Option (Nat × Ctl) :=
  let taken := (c.shedRuns shadow).map fun r => r.1 / 2 ^ 44
  (c.shedTake (c.portsUp.filter fun q => !taken.contains q) ⟨fn, bytes, 1, []⟩ (Bits.ceilDiv bytes 65536)).map fun r =>
    (r.1.addr 0, r.2)

/-! ### Copies of blocks -/

/-- The 64-byte units of a fast-tier copy. -/
def fastUnits (addr bytes : Nat) : List Nat := (List.range (bytes / 64)).map fun i => fastKey addr / 64 + i

/-- The 64-byte units of a shed copy. -/
def Ctl.shedUnits (c : Ctl) (addr : Nat) : List Nat :=
  (c.shedRuns addr).flatMap fun r => (List.range (r.2 / 64)).map fun i => shedKeyOf r.1 / 64 + i

/-- The number of the shed key under which the block copy at a shed address stands (R172): its allocation's owner's. -/
def Ctl.shadowKey (c : Ctl) (addr : Nat) : Nat :=
  match c.fe.shed.find? fun g => (List.range g.count).any fun i => g.addr i = addr with
  | some g => c.fnKey g.fn
  | none => c.sec.deviceKey

/-- Copies units with their poison; those in the shed are read and written under the key of number `sk` (R172). -/
def Dp.copyUnits (d : Dp) (sk : Nat) (src dst : List Nat) : Dp :=
  (src.zip dst).foldl (fun d p =>
    let x := d.unitData sk p.1
    (d.adoptAny sk p.2).write (64 * p.2) x.1 x.2) d

/-- Writes bytes at an offset of a copy given by its units, under a key where it lies in the shed. -/
def Dp.writeAt (d : Dp) (sk : Nat) (units : List Nat) (off : Nat) (bs : List Byte) : Dp :=
  (bs.mapIdx fun i b => (i, b)).foldl (fun d p =>
    let o := off + p.1
    match units[o / 64]? with
    | some u =>
      let d := d.adoptAny sk u
      { d with mem := d.mem.write (64 * u + o % 64) p.2 }
    | none => d) d

/-- Changes every map entry and node entry of the block whose shadow stands at an address. -/
def Ctl.onBlock (c : Ctl) (shadow : Nat) (f : MapEntry → MapEntry) : Ctl :=
  let g (m : List MapEntry) : List MapEntry := m.map fun e => if e.shadow = shadow then f e else e
  c.onObjs fun o => { o with sessions := o.sessions.map fun x => { x with map := g x.map }
                             nodes := o.nodes.map fun n => { n with blocks := g n.blocks } }

/-- The tick whose bell frees storage that a change releases now (R243): the eighth bell, counted from the bell that ends the tick
at whose cut-off the change takes effect. -/
def Ctl.dueTick (c : Ctl) : Nat := c.hub.tick + (if c.fe.cut then 9 else 8)

/-- Releases storage (R243). -/
def Ctl.release (c : Ctl) (k : Yard) (fast shed : List Nat) : Ctl :=
  if fast.isEmpty && shed.isEmpty then c
  else c.onFe fun f => { f with released := f.released ++ [⟨c.dueTick, k, fast, shed.filter (· ≠ 0)⟩] }

/-- Releases a block's copies. -/
def Ctl.releaseEntry (c : Ctl) (e : MapEntry) : Ctl :=
  c.release e.yard (if e.demoted then [] else [e.fast]) [e.shadow, e.mirror]

/-- STORAGE_RELEASE's effect: storage due is freed; shed allocations that no block uses are freed (R243). -/
def Ctl.freeDue (c : Ctl) : Ctl :=
  let c := c.onFe fun f => { f with released := f.released.filter fun r => c.hub.tick < r.due }
  let used := c.shedUsed
  c.onFe fun f => { f with shed := f.shed.filter fun g => (List.range g.count).any fun i => used.contains (g.addr i) }

/-! ### Map order and new blocks (R218, R230) -/

/-- A map with an entry in its place: by yard, layer and block index. -/
def insertEntry (m : List MapEntry) (e : MapEntry) : List MapEntry :=
  let before (a : MapEntry) : Bool := a.yard < e.yard || (a.yard = e.yard && (a.layer < e.layer ||
    (a.layer = e.layer && a.block < e.block)))
  m.takeWhile before ++ e :: m.dropWhile before

/-- An entry of a map. -/
def entryAt (m : List MapEntry) (k : Yard) (layer block : Nat) : Option MapEntry :=
  m.find? fun e => e.yard = k && e.layer = layer && e.block = block

/-- A new, empty layer block for a session: its slot and its shadow space. -/
def Ctl.newBlock (c : Ctl) (p : Plan) (x : Session) (k : Yard) (layer block : Nat) (copyOf : Option Nat) :
    Option (Session × Ctl) :=
  match c.fastAlloc p k layer block, c.shadowAlloc x.fn (p.blockBytes k) with
  | some a, some (sh, c) =>
    let e : MapEntry :=
      { yard := k, layer := layer, block := block, fast := a, shadow := sh, mirror := 0, score := 0#32, fill := 0
        demoted := false, evicted := false, node := false, hold := false, copyOf := copyOf }
    let x := { x with map := insertEntry x.map e }
    some (x, c.setSession x)
  | _, _ => none

/-- The layer blocks that appends of positions `lo` to `hi - 1` fill (R230): missing ones are allocated in every yard; otherwise the yard that
lacks space, and whether it is a shadow that finds none. -/
def Ctl.reserve (c : Ctl) (p : Plan) (x : Session) (lo hi : Nat) : Except (Yard × Bool) (Session × Ctl) :=
  let blocks := (List.range ((hi + 63) / 64 - lo / 64)).map (lo / 64 + ·)
  p.kvDescs.foldl (fun acc ds => blocks.foldl (fun acc b =>
    match acc with
    | .error k => .error k
    | .ok (x, c) =>
      if (entryAt x.map ds.yard ds.layer b).isSome then .ok (x, c)
      else match c.newBlock p x ds.yard ds.layer b none with
        | some r => .ok r
        | none => .error (ds.yard, (c.shadowAlloc x.fn (p.blockBytes ds.yard)).isNone)) acc) (.ok (x, c))

/-! ### The prefix tree (R234-R240) -/

/-- H64 of R235. -/
def hash64 (bs : List Byte) : BitVec 64 := BitVec.ofNat 64 (Bits.leNat (digestBytes (sha384 bs)) 0 8)

/-- h_0 of R235. -/
def rootHash (fn : BitVec 8) (image epoch : Nat) (adapter : Handle) : BitVec 64 :=
  hash64 ([fn, 0#8] ++ Bits.toLe image 2 ++ Bits.toLe epoch 4 ++ Bits.toLe adapter.toNat 4 ++ [0#8, 0#8, 0#8, 0#8])

/-- h_j of R235. -/
def chainHash (h : BitVec 64) (tokens : List Word) : BitVec 64 := hash64 (Bits.toLe h.toNat 8 ++ wordBytes tokens)

/-- A node by its id. -/
def Ctl.node? (c : Ctl) (id : Nat) : Option Node := c.objs.nodes.find? (·.id = id)

/-- Applies a change to a node. -/
def Ctl.onNode (c : Ctl) (id : Nat) (f : Node → Node) : Ctl :=
  c.onObjs fun o => { o with nodes := o.nodes.map fun n => if n.id = id then f n else n }

/-- The hash of the position block that would follow a node, or the root of a session, with some tokens. -/
def Ctl.nextHash (c : Ctl) (x : Session) (last : Option Nat) (tokens : List Word) : BitVec 64 :=
  chainHash (((last.bind c.node?).map (·.hash)).getD (rootHash x.fn x.image x.epoch x.adapter)) tokens

/-- The node that matches (R236): equal hash, parent and tokens, complete, of the session's root; the one inserted first (R238). -/
def Ctl.matchNode (c : Ctl) (x : Session) (last : Option Nat) (tokens : List Word) : Option Node :=
  let h := c.nextHash x last tokens
  c.objs.nodes.find? fun n => n.hash = h && n.parent = last && n.tokens = tokens && n.complete && n.fn = x.fn &&
    n.image = x.image && n.epoch = x.epoch && n.adapter = x.adapter

/-- Cached nodes, the least recently matched first (R239, R240). -/
def Ctl.cachedNodes (c : Ctl) : List Node :=
  (c.objs.nodes.filter fun n => n.refs = 0 && n.pins = 0).mergeSort fun a b => a.matched ≤ b.matched

/-- Removes a node and releases its blocks; sessions that hold its blocks keep them as private ones. -/
def Ctl.dropNode (c : Ctl) (n : Node) : Ctl :=
  let held := c.objs.sessions.any fun x => x.nodes.contains n.id
  let c := c.onObjs fun o =>
    { o with nodes := o.nodes.filter (·.id ≠ n.id)
             sessions := o.sessions.map fun x =>
               if x.nodes.contains n.id then
                 { x with nodes := x.nodes.takeWhile (· ≠ n.id), ownOnly := true
                          map := x.map.map fun e => if n.blocks.any (·.shadow = e.shadow) then { e with node := false } else e }
               else x }
  if held then c else n.blocks.foldl (fun c e => c.releaseEntry e) c

/-- Whether a session's position block `j` is full in every layer and yard and still attended (R231). -/
def blockFull (p : Plan) (x : Session) (j : Nat) : Bool :=
  p.kvDescs.all fun ds => match entryAt x.map ds.yard ds.layer j with
    | some e => e.fill = 64 && !e.evicted
    | none => false

/-- Whether every layer block of position block `j` is written in full, evicted ones included. -/
def blockWritten (p : Plan) (x : Session) (j : Nat) : Bool :=
  !p.kvDescs.isEmpty && p.kvDescs.all fun ds => match entryAt x.map ds.yard ds.layer j with
    | some e => e.fill = 64
    | none => false

/-- The tree is limited to 2^24 nodes (R234). -/
def maxNodes : Nat := 2 ^ 24

/-- The tokens of a session that stand in the cache, in order: the committed ones, then those of its steps in flight (a block may
be full before the bell that commits its last tokens). -/
def Ctl.knownTokens (c : Ctl) (x : Session) : List Word :=
  let mine := (c.fe.pipe.flatMap (·.stalls)).filter fun st => st.fn = x.fn && st.session = handleOf .session x.ix && !st.struck &&
    st.failedAt.isNone && x.tokens.length ≤ st.position
  x.tokens ++ (mine.mergeSort fun a b => a.position ≤ b.position).flatMap (·.tokens)

/-- Inserts a session's next position block into the tree where R231 lets it; otherwise the session's later blocks stay private. -/
def Ctl.insertNext (c : Ctl) (p : Plan) (x : Session) : Ctl :=
  let j := x.nodes.length
  if x.ownOnly || !blockWritten p x j then c
  else
    let last := x.nodes.getLast?
    let parentOk := match last with | none => true | some id => match c.node? id with | some n => n.complete | none => false
    if !(blockFull p x j && parentOk) then c.setSession { x with ownOnly := true }
    else
      let c := if c.objs.nodes.length < maxNodes then c
        else match c.cachedNodes with | [] => c | n :: _ => c.dropNode n
      if maxNodes ≤ c.objs.nodes.length then c.setSession { x with ownOnly := true }
      else
        let toks := ((c.knownTokens x).drop (64 * j)).take 64
        let mark (e : MapEntry) : MapEntry := if e.block = j then { e with node := true } else e
        let map := x.map.map mark
        let n : Node :=
          { id := c.objs.nextNode, fn := x.fn, image := x.image, epoch := x.epoch, adapter := x.adapter
            hash := c.nextHash x last toks, parent := last, tokens := toks, refs := 1, pins := 0, complete := true
            blocks := map.filter (·.block = j), matched := c.hub.tick
            port := (c.portsUp.getD (c.objs.nextNode % Max.max 1 c.portsUp.length) 0) }
        (c.onObjs fun o => { o with nodes := o.nodes ++ [n], nextNode := o.nextNode + 1 }).setSession
          { x with map := map, nodes := x.nodes ++ [n.id] }

/-- Insertion at a cut-off for one session: as many position blocks as have become full (R231). -/
def Ctl.insertBlocks (c : Ctl) (p : Plan) (fn : BitVec 8) (ix : Nat) : Nat → Ctl
  | 0 => c
  | n + 1 =>
    match c.session? fn ix with
    | none => c
    | some x =>
      let d := c.insertNext p x
      match d.session? fn ix with
      | some y => if y.nodes.length = x.nodes.length then d else d.insertBlocks p fn ix n
      | none => d

/-- Matches position blocks of a prompt for a session (R237): nodes gain a reference, their blocks enter the map. -/
def Ctl.matchBlocks (c : Ctl) (x : Session) (tokens : List Word) : Nat → Session × Ctl
  | 0 => (x, c)
  | n + 1 =>
    if tokens.length < 65 then (x, c)
    else
      match c.matchNode x x.nodes.getLast? (tokens.take 64) with
      | none => (x, c)
      | some nd =>
        let x := { x with nodes := x.nodes ++ [nd.id], tokens := x.tokens ++ tokens.take 64
                          map := nd.blocks.foldl (fun m e => insertEntry m { e with node := true, score := 0#32, hold := false, evicted := false }) x.map }
        let c := (c.onNode nd.id fun y => { y with refs := y.refs + 1, matched := c.hub.tick }).setSession x
        c.matchBlocks x (tokens.drop 64) n

/-- Whether a session may match (R237): no step in flight and every block it holds full with NODE set. -/
def Session.mayMatch (x : Session) : Bool := x.inflight = 0 && x.map.all fun e => e.fill = 64 && e.node

/-- The chain of a session's root over the complete blocks of some tokens (R294). -/
def Ctl.chain (c : Ctl) (x : Session) (last : Option Nat) (tokens : List Word) : Nat → List Nat
  | 0 => []
  | n + 1 =>
    if tokens.length < 64 then []
    else match c.matchNode x last (tokens.take 64) with
      | none => []
      | some nd => nd.id :: c.chain x (some nd.id) (tokens.drop 64) n

/-- The attended blocks of a session in a layer at a position, in position order. -/
def attendedAt (x : Session) (k : Yard) (layer pos : Nat) : List MapEntry :=
  x.map.filter fun e => e.yard = k && e.layer = layer && !e.evicted && 64 * e.block < pos

/-- Which near stack of the pair a layer block lies on (R217). -/
def MapEntry.side (e : MapEntry) : Nat := e.fast / 2 ^ 37 % 2

/-! ### Demotion, promotion and moves (R217, R240-R242) -/

/-- Whether occupancy, in 1/256 of a yard's KV regions, is at or above a level (R240). -/
def atLeast (used total level : Nat) : Bool := level * total ≤ used * 256

/-- Releases the fast copies of a cached node in a yard (R240 step 1): its blocks go on their shadows. -/
def Ctl.shrinkNode (c : Ctl) (k : Yard) (n : Node) : Ctl :=
  let out := n.blocks.filter fun e => e.yard = k && !e.demoted
  let c := c.onNode n.id fun y =>
    { y with blocks := y.blocks.map fun e => if e.yard = k && !e.demoted then { e with demoted := true, fast := 0, mirror := 0 } else e }
  c.release k (out.map (·.fast)) []

/-- The blocks of a yard that may be demoted (R241), lowest SCORE first, then the oldest session, then the lower index. -/
def Ctl.demotable (c : Ctl) (k : Yard) : List (Session × MapEntry) :=
  let ok (x : Session) (e : MapEntry) : Bool :=
    let recent := ((x.map.map (·.block)).foldl Max.max 0) + 1 - 16
    e.yard = k && e.fill = 64 && !e.demoted && !e.evicted && e.block ≠ 0 && e.block < recent && !e.hold && e.copyOf.isNone &&
      (!e.node || c.objs.nodes.all fun n => !(n.blocks.any (·.shadow = e.shadow)) || (n.refs ≤ 1 && n.pins = 0))
  (c.objs.sessions.flatMap fun x => (x.map.filter (ok x)).map fun e => (x, e)).mergeSort fun a b =>
    a.2.score.toNat < b.2.score.toNat || (a.2.score = b.2.score && (a.1.order < b.1.order ||
      (a.1.order = b.1.order && a.2.block ≤ b.2.block)))

/-- Demotes a block (R241): a mirror is written, the fast copy released; MIRROR_SHORT where no place suits. -/
def demote (s : State) (p : Plan) (x : Session) (e : MapEntry) : Bool × State :=
  match s.ctl.mirrorAlloc x.fn (p.blockBytes e.yard) e.shadow with
  | none => (false, { s with ctl := s.ctl.raise s.cfg (.kv e.yard) 16#16 })
  | some (a, c) =>
    let d := s.dp.copyUnits (c.fnKey x.fn) (fastUnits e.fast (p.blockBytes e.yard)) (c.shedUnits a)
    let c := (c.onBlock e.shadow fun y => { y with demoted := true, fast := 0, mirror := a }).release e.yard [e.fast] []
    (true, { s with dp := d, ctl := c.onYard e.yard fun y => { y with demoted := Bits.satAdd 32 y.demoted 1 } })

/-- The blocks of a yard that may be promoted (R242): demoted, with SCORE of at least 2^−PROMOTE, the highest first. -/
def Ctl.promotable (c : Ctl) (cfg : Cfg) (k : Yard) : List (Session × MapEntry) :=
  let least := (127 - cfg.promote) * 2 ^ 23
  (c.objs.sessions.flatMap fun x => (x.map.filter fun e => e.yard = k && e.demoted && !e.evicted &&
    least ≤ e.score.toNat).map fun e => (x, e)).mergeSort fun a b => b.2.score.toNat ≤ a.2.score.toNat

/-- Promotes a block (R242): copied into a fast slot, its mirror freed. -/
def promote (s : State) (p : Plan) (e : MapEntry) : Bool × State :=
  match s.ctl.fastAlloc p e.yard e.layer e.block with
  | none => (false, s)
  | some a =>
    let d := s.dp.copyUnits (s.ctl.shadowKey e.shadow) (s.ctl.shedUnits e.shadow) (fastUnits a (p.blockBytes e.yard))
    let c := (s.ctl.onBlock e.shadow fun y => { y with demoted := false, fast := a, mirror := 0 }).release e.yard [] [e.mirror]
    (true, { s with dp := d, ctl := c.onYard e.yard fun y => { y with promoted := Bits.satAdd 32 y.promoted 1 } })

/-- The block of a session's layer that the next move of R217 takes, with the stack it goes to: where one near stack holds at least two attended
blocks more than the other, its last full one that no other map shares and no fault holds. -/
def rebalanceNext (x : Session) (k : Yard) (layer : Nat) : Option (MapEntry × Nat) :=
  let near := x.map.filter fun e => e.yard = k && e.layer = layer && !e.evicted && !e.demoted
  let on (side : Nat) : List MapEntry := near.filter (·.side = side)
  let from0 := if (on 1).length + 2 ≤ (on 0).length then some 0 else if (on 0).length + 2 ≤ (on 1).length then some 1 else none
  from0.bind fun side =>
    (((on side).filter fun e => e.fill = 64 && !e.node && !e.hold && e.copyOf.isNone).getLast?).map fun e => (e, 1 - side)

/-- One move of a block to a slot on a stack (R217); the old slot is released under R243. -/
def moveBlock (s : State) (p : Plan) (e : MapEntry) (side : Nat) : Option State :=
  (s.ctl.sideAlloc p e.yard side).map fun a =>
    let n := p.blockBytes e.yard
    { s with dp := s.dp.copyUnits 0 (fastUnits e.fast n) (fastUnits a n)
             ctl := (s.ctl.onBlock e.shadow fun y => { y with fast := a }).release e.yard [e.fast] [] }

/-- The moves of R217 in one layer of a session, while the budget lasts. -/
def rebalance (s : State) (p : Plan) (fn : BitVec 8) (ix : Nat) (k : Yard) (layer : Nat) : Nat → State × Nat
  | 0 => (s, 0)
  | n + 1 =>
    match ((s.ctl.session? fn ix).bind fun x => rebalanceNext x k layer).bind fun m => moveBlock s p m.1 m.2 with
    | none => (s, n + 1)
    | some t => rebalance t p fn ix k layer n

/-- Release and demotion of one yard at a cut-off (R240, R241); the block moves that are left of the budget. -/
def houseOut (s : State) (p : Plan) (k : Yard) (total used : Nat) : State × Nat :=
  let r := s.ctl.cachedNodes.foldl (fun (acc : Ctl × Nat) n =>
    if atLeast acc.2 total s.cfg.low then
      (acc.1.shrinkNode k n, acc.2 - (n.blocks.filter fun e => e.yard = k && !e.demoted).length)
    else acc) (s.ctl, used)
  let s := { s with ctl := r.1 }
  if !s.cfg.demoteEn || s.ctl.hub.paused ≠ 0 || s.ctl.hub.short then (s, p.hkBlocks)
  else
    let z := (s.ctl.demotable k).foldl (fun (acc : State × Nat × Nat) q =>
      if 0 < acc.2.2 && atLeast acc.2.1 total s.cfg.low then
        let m := demote acc.1 p q.1 q.2
        if m.1 then (m.2, acc.2.1 - 1, acc.2.2 - 1) else (m.2, acc.2.1, acc.2.2)
      else acc) (s, r.2, p.hkBlocks)
    (z.1, z.2.2)

/-- Promotion of one yard at a cut-off (R242); the block moves that are left of the budget. -/
def houseIn (s : State) (p : Plan) (k : Yard) (total used : Nat) : State × Nat :=
  let z := (s.ctl.promotable s.cfg k).foldl (fun (acc : State × Nat × Nat) q =>
    let live := match acc.1.ctl.session? q.1.fn q.1.ix with
      | some x => (x.map.find? fun e => e.shadow = q.2.shadow && e.demoted).isSome
      | none => false
    if 0 < acc.2.2 && !atLeast acc.2.1 total s.cfg.low && live then
      let m := promote acc.1 p q.2
      if m.1 then (m.2, acc.2.1 + 1, acc.2.2 - 1) else acc
    else acc) (s, used, p.hkBlocks)
  (z.1, z.2.2)

/-- Housekeeping of one yard at a cut-off (R217, R240-R242), within the plan's budget of block moves. -/
def houseKeep (s : State) (p : Plan) (k : Yard) : State :=
  let total := s.ctl.kvSlots k
  let used := (s.ctl.fastUsed k).length
  if total = 0 then s
  else
    let r := if atLeast used total s.cfg.high then houseOut s p k total used
      else if !atLeast used total s.cfg.low then houseIn s p k total used
      else (s, p.hkBlocks)
    (r.1.ctl.objs.sessions.foldl (fun acc x => (p.descs k).foldl (fun (acc : State × Nat) ds =>
      rebalance acc.1 p x.fn x.ix k ds.layer acc.2) acc) r).1

/-! ### Views of a stall (R219) -/

/-- Positions of an attended block at a position. -/
def MapEntry.filled (e : MapEntry) (pos : Nat) : Nat := Min.min 64 (pos - 64 * e.block)

/-- Filled positions that a step at `pos` attends in a layer: on each near stack, and demoted (R220). -/
def layerUse (x : Session) (k : Yard) (layer pos : Nat) : Nat × Nat × Nat :=
  let es := attendedAt x k layer pos
  let sum (f : MapEntry → Bool) : Nat := ((es.filter f).map fun e => e.filled pos).sum
  (sum fun e => !e.demoted && e.side = 0, sum fun e => !e.demoted && e.side = 1, sum (·.demoted))

/-- Extents of blocks laid one after another from an offset. -/
def blockExtents (c : Ctl) (off bytes : Nat) (es : List MapEntry) (shadow : MapEntry → Bool) : List Extent :=
  (es.mapIdx fun i e =>
    if shadow e then
      ((c.shedRuns e.shadow).foldl (fun (acc : Nat × List Extent) r =>
        (acc.1 + r.2, acc.2 ++ [⟨acc.1, true, r.1, r.2⟩])) (off + i * bytes, [])).2
    else [⟨off + i * bytes, false, e.fast, bytes⟩]).flatten

/-- Blocks of a layer as a view names them. -/
def viewBlocks (pos : Nat) (far : MapEntry → Bool) (es : List MapEntry) : List ViewBlock :=
  es.map fun e => ⟨e.layer, e.block, far e, if far e then e.shadow else e.fast, e.filled pos⟩

/-- The attended blocks of a layer in KV-view order (R219): near stack 2k, near stack 2k + 1, the shed. -/
def kvOrder (es : List MapEntry) : List MapEntry :=
  (es.filter fun e => !e.demoted && e.side = 0) ++ (es.filter fun e => !e.demoted && e.side = 1) ++ es.filter (·.demoted)

/-- The object views of a stall in one yard (R219). -/
def viewsIn (c : Ctl) (p : Plan) (x : Session) (k : Yard) (pos count pn ps : Nat) : List ObjView :=
  let bb := p.blockBytes k
  let near := Bits.ceilDiv pn 64 * bb
  let stride := 2 * near + Bits.ceilDiv ps 64 * bb
  let new := (List.range ((pos + count + 63) / 64 - pos / 64)).map (pos / 64 + ·)
  let layers := (p.descs k).mapIdx fun i ds => (i, ds.layer)
  let kv := layers.flatMap fun l =>
    let es := attendedAt x k l.2 pos
    blockExtents c (l.1 * stride) bb (es.filter fun e => !e.demoted && e.side = 0) (fun _ => false) ++
      blockExtents c (l.1 * stride + near) bb (es.filter fun e => !e.demoted && e.side = 1) (fun _ => false) ++
      blockExtents c (l.1 * stride + 2 * near) bb (es.filter (·.demoted)) (fun _ => true)
  let order := layers.flatMap fun l => viewBlocks pos (·.demoted) (kvOrder (attendedAt x k l.2 pos))
  let app := layers.map fun l => (l.1, new.filterMap fun b => entryAt x.map k l.2 b)
  let mine := app.flatMap (·.2)
  let at0 (i : Nat) : Nat := i * new.length * bb
  [⟨k, 1, kv, order⟩,
    ⟨k, 2, app.flatMap fun a => blockExtents c (at0 a.1) bb a.2 fun _ => false, viewBlocks (pos + count) (fun _ => false) mine⟩,
    ⟨k, 3, app.flatMap fun a => blockExtents c (at0 a.1) bb a.2 fun _ => true, viewBlocks (pos + count) (fun _ => true) mine⟩,
    ⟨k, 4, [], order⟩] ++
  match x.lane with
  | none => []
  | some l => if l.yard = k.val then [⟨k, 5, [⟨0, false, p.laneBase.getD k.val 0 + l.slot * p.laneBytes, p.laneBytes⟩], []⟩] else []

/-- The object views of a stall in every yard. -/
def viewsOf (c : Ctl) (p : Plan) (x : Session) (pos count pn ps : Nat) : List ObjView :=
  (List.finRange 8).flatMap fun k => viewsIn c p x k pos count pn ps

/-! ### The append scatter step (R227, R229, R245, R246) -/

/-- Bytes of an element of a layer's KV (R213). -/
def kvWidth (ds : KvDesc) : Nat := if ds.format = 1 then 2 else 1

/-- Bytes of one position of a layer (R214, R215). -/
def positionBytes (ds : KvDesc) : Nat :=
  if ds.kind = 0 then (ds.widthA + ds.widthB) * kvWidth ds else 2 * ds.widthA * ds.widthB * kvWidth ds

/-- Where the codes of one position go in a layer block (R214, R215): byte offset and bytes. The first position of a block brings the zero
padding behind its 64 positions with it. -/
def codePlaces (ds : KvDesc) (pos : Nat) (codes : List Byte) : List (Nat × List Byte) :=
  let p := pos % 64
  let b := kvWidth ds
  (if p = 0 then [(64 * positionBytes ds, List.replicate (ds.blockBytes - 64 * positionBytes ds) 0#8)] else []) ++
  if ds.kind = 0 then
    [(ds.widthA * b * p, codes.take (ds.widthA * b)),
      (64 * ds.widthA * b + ds.widthB * b * p, (codes.drop (ds.widthA * b)).take (ds.widthB * b))]
  else
    let row := ds.widthA * b
    (List.range ds.widthB).flatMap fun h =>
      [(128 * ds.widthA * h * b + row * p, (codes.drop (h * row)).take row),
        (128 * ds.widthA * h * b + 64 * row + row * p, (codes.drop ((ds.widthB + h) * row)).take row)]

/-- The address of a block in one of a stall's views of a yard, as the stall was relocated (R243). -/
def Stall.blockAddr (st : Stall) (k : Yard) (slot layer block : Nat) : Option Nat :=
  (st.views.find? fun v => v.yard = k && v.slot = slot).bind fun v =>
    (v.blocks.find? fun b => b.layer = layer && b.block = block).map (·.addr)

/-- Writes one position's codes through the append view and the shadow view that its stall was relocated with (R229, R243, R246); where the
block's copies have moved since, into the present ones too, so that each holds every committed position. Cluster `l` counts the bytes for stall
`i` (R339). -/
def writePosition (s : State) (p : Plan) (ds : KvDesc) (st : Stall) (i : Nat) (l : Cluster) (e : MapEntry) (pos : Nat) (codes : List Byte) : State :=
  let fast := ((st.blockAddr e.yard 2 ds.layer (pos / 64)).toList ++ if e.demoted then [] else [e.fast]).dedup
  let shed := ((st.blockAddr e.yard 3 ds.layer (pos / 64)).toList ++ [e.shadow]).dedup
  let sk := s.ctl.fnKey st.fn
  let d := (codePlaces ds pos codes).foldl (fun d x =>
    let d := fast.foldl (fun d a => d.writeAt sk (fastUnits a (p.blockBytes e.yard)) x.1 x.2) d
    shed.foldl (fun d a => d.writeAt sk (s.ctl.shedUnits a) x.1 x.2) d) s.dp
  { s with dp := d.countUnits e.yard l.val i [(.writeByte, fast.length * codes.length), (.shedByte, shed.length * codes.length)] }

/-- The bytes that a core holds at a place. -/
def coreBytesAt (s : State) (a : CorePlace) (n : Nat) : List Byte := s.dp.mem.readN (coreKey (s.ctl.core a.core) a.off) n

/-- r_b,h × w_h of R227 for head `h` of block `b` of a piece, enclosed at a precision: r from the mass record, w from the piece's triple and the
final one. -/
def scoreTerm (s : State) (x : ScorePiece) (p b h : Nat) : Encl.Ival :=
  let core := s.ctl.core x.core
  let at0 (base : Nat) : Nat := coreKey core (base + h * tripleBytes x.width)
  let r := s.dp.word (coreKey core (x.mass + 4 * (b * x.heads + h)))
  let w := scaledGap p (s.dp.word (at0 x.triples + 4)) (s.dp.word (at0 x.triples)) (s.dp.word (at0 x.final)) (s.dp.word (at0 x.final + 4))
  ⟨(num32 r).mul w.lo, (num32 r).mul w.hi⟩

/-- Query heads of a layer, H_t (R213, R227). -/
def queryHeads (ds : KvDesc) : Nat := if ds.kind = 0 then ds.heads else ds.heads * ds.widthB

/-- The score of an attended block after the step (R227): formed from the pieces that hold it, a grouped-query layer having one piece for each of
its KV heads. -/
def scoreAfter (s : State) (ds : KvDesc) (ps : List ScorePiece) (e : MapEntry) : Word :=
  let mine := ps.filterMap fun x => (x.blocks.findIdx? (· = e.block)).map fun b => (x, b)
  match mine with
  | [] => e.score
  | _ =>
    let old := ((FNum.ofInt s.cfg.decay).mulPow2 (-8)).mul (num32 e.score)
    roundEncl e.score fun p =>
      let ts := mine.flatMap fun x => (List.range x.1.heads).map (scoreTerm s x.1 p x.2)
      let sum (f : Encl.Ival → FNum) : FNum := ((ts.map f).foldl FNum.add (.zero false)).div (.ofInt (queryHeads ds))
      ⟨old.add (sum (·.lo)), old.add (sum (·.hi))⟩

/-- The attended blocks that a budget drops in a layer (R245): the lowest SCORE first, then the lower index; never block 0 nor the 16
most recent ones. -/
def overBudget (x : Session) (k : Yard) (layer : Nat) : List Nat :=
  if x.budget = 0 then []
  else
    let es := x.map.filter fun e => e.yard = k && e.layer = layer && !e.evicted && 0 < e.fill
    let top := (es.map (·.block)).foldl Max.max 0
    let may := (es.filter fun e => e.block ≠ 0 && e.block + 16 ≤ top).mergeSort fun a b =>
      a.score.toNat < b.score.toNat || (a.score = b.score && a.block ≤ b.block)
    (may.take (es.length - x.budget / 64)).map (·.block)

/-- Evicts a block (R245): a private one is released; a node's clears its node's complete flag. -/
def Ctl.evict (c : Ctl) (x : Session) (e : MapEntry) : Ctl :=
  let c := match c.session? x.fn x.ix with
    | some y =>
      let drop (z : MapEntry) : MapEntry := if z.shadow = e.shadow then { z with evicted := true } else z
      c.setSession { y with map := y.map.map drop }
    | none => c
  if e.node then
    let unmark (n : Node) : Node := if n.blocks.any (·.shadow = e.shadow) then { n with complete := false } else n
    c.onObjs fun o => { o with nodes := o.nodes.map unmark }
  else c.releaseEntry e

/-- Entries of a session in a yard that are copies still to be made (R239). -/
def copyForks (s : State) (p : Plan) (k : Yard) : State :=
  s.ctl.objs.sessions.foldl (fun s x =>
    x.map.foldl (fun (s : State) e =>
      match e.copyOf with
      | some src =>
        if e.yard ≠ k then s
        else
          let origin := (s.ctl.objs.sessions.flatMap (·.map)).find? fun z => z.shadow = src
          let n := p.blockBytes k
          let sk := s.ctl.fnKey x.fn
          let d := match origin with
            | some z => if z.demoted then s.dp.copyUnits sk (s.ctl.shedUnits z.shadow) (fastUnits e.fast n)
                else s.dp.copyUnits sk (fastUnits z.fast n) (fastUnits e.fast n)
            | none => s.dp.copyUnits sk (s.ctl.shedUnits src) (fastUnits e.fast n)
          let d := d.copyUnits sk (fastUnits e.fast n) (s.ctl.shedUnits e.shadow)
          { s with dp := d, ctl := s.ctl.onBlock e.shadow fun y => { y with copyOf := none } }
      | none => s) s) s

/-- The codes of a step's new positions, through its views, with FILL (R229). -/
def scatterCodes (s : State) (p : Plan) (k : Yard) (st : Stall) (i : Nat) (ds : KvDesc) (codes : List CorePlace) : State :=
  (codes.mapIdx fun j a => (st.position + j, a)).foldl (fun (s : State) q =>
    match (s.ctl.session? st.fn (ixOf st.session)).bind fun y => entryAt y.map k ds.layer (q.1 / 64) with
    | none => s
    | some e =>
      let s := writePosition s p ds st i q.2.core.cluster e q.1 (coreBytesAt s q.2 (positionBytes ds))
      { s with ctl := s.ctl.onBlock e.shadow fun y => { y with fill := Max.max y.fill (q.1 % 64 + 1) } }) s

/-- What the scatter step does for one layer of a committed stall: codes into the append and shadow views, FILL, scores, eviction. -/
def scatterLayer (s : State) (p : Plan) (k : Yard) (st : Stall) (w : KvWrite) (score : Bool) : State :=
  match s.ctl.session? st.fn (ixOf st.session), (p.descs k).find? (·.layer = w.layer) with
  | some x, some ds =>
    let s := scatterCodes s p k st w.stall ds w.codes
    let c := match s.ctl.session? x.fn x.ix with
      | none => s.ctl
      | some y =>
        let rescore (e : MapEntry) : MapEntry :=
          if score && e.yard = k && e.layer = w.layer && !e.evicted then { e with score := scoreAfter s ds w.scores e } else e
        let y := { y with map := y.map.map rescore }
        (overBudget y k w.layer).foldl (fun c b => match entryAt y.map k w.layer b with
          | some e => c.evict y e
          | none => c) (s.ctl.setSession y)
    { s with ctl := c }
  | _, _ => s

/-- The next slice of a layer for the long lane (R249): attended blocks in position order from a block index while each near stack
holds at most A / 2 positions and the shed at most P_S; the block index after it. -/
def sliceEnd (x : Session) (k : Yard) (layer pos from0 half ps : Nat) : Nat × Bool :=
  let es := (attendedAt x k layer pos).filter fun e => from0 ≤ e.block
  let r := es.foldl (fun (acc : Nat × Nat × Nat × Nat × Bool) e =>
    if acc.2.2.2.2 then acc
    else
      let n := e.filled pos
      let a := if !e.demoted && e.side = 0 then acc.2.1 + n else acc.2.1
      let b := if !e.demoted && e.side = 1 then acc.2.2.1 + n else acc.2.2.1
      let d := if e.demoted then acc.2.2.2.1 + n else acc.2.2.2.1
      if a ≤ half && b ≤ half && d ≤ ps then (e.block + 1, a, b, d, false) else (acc.1, acc.2.1, acc.2.2.1, acc.2.2.2.1, true))
    (from0, 0, 0, 0, false)
  (r.1, !r.2.2.2.2)

/-- The cursor after one visit (R249): yard, local layer, block index. The visit goes on from layer to layer while slices complete
them. -/
def visitFrom (x : Session) (p : Plan) (k : Yard) (pos ps : Nat) (layers : List Nat) (layer block : Nat) : Nat → Nat × Nat × Nat
  | 0 => (k.val, layer, block)
  | n + 1 =>
    match layers[layer]? with
    | none => (k.val + 1, 0, 0)
    | some l =>
      let r := sliceEnd x k l pos block (p.laneA / 2) ps
      if r.2 then visitFrom x p k pos ps layers (layer + 1) 0 n
      else (k.val, layer, r.1)

/-- The cursor after a visit in yard `k` from a cursor. -/
def planVisit (p : Plan) (x : Session) (k : Yard) (layer block : Nat) : Nat × Nat × Nat :=
  let layers := (p.descs k).map (·.layer)
  visitFrom x p k x.tokens.length p.maxPs layers layer block (layers.length + 1)

/-- The header of a long-lane record (R250): the step, the cursor's local layer and next block index, and the head count. -/
def laneHeader (l : Lane) (heads : Nat) : List Byte :=
  Bits.toLe l.step 8 ++ Bits.toLe l.layer 4 ++ Bits.toLe l.block 4 ++ Bits.toLe heads 4 ++ List.replicate 44 0#8

/-- Writes a long-lane record (R250): its header, and behind it what the visit's cores hold of it, as far as the record reaches. Each
cluster counts what it writes for stall `i`, cluster 0 the header (R339). -/
def writeLane (s : State) (p : Plan) (k : Yard) (i : Nat) (l : Lane) (heads : Nat) (body : List (CorePlace × Nat)) : State :=
  let bs := (laneHeader l heads ++ body.flatMap fun b => coreBytesAt s b.1 b.2).take p.laneBytes
  let d := s.dp.write (fastKey (p.laneBase.getD k.val 0 + l.slot * p.laneBytes)) bs false
  { s with dp := body.foldl (fun d b => d.countUnits k b.1.core.cluster.val i [(.writeByte, b.2)]) (d.countUnits k 0 i [(.writeByte, 64)]) }

/-- A committed long-lane visit (R249, R250): one that meets the cursor it was planned for moves it on as its slices were planned, and leaves the
record; the layers it completes. -/
def laneVisit (s : State) (p : Plan) (k : Yard) (i : Nat) (x : Session) (body : List (CorePlace × Nat)) : List Nat × State :=
  match x.lane with
  | none => ([], s)
  | some l =>
    match l.planTo with
    | none => ([], s)
    | some v =>
      if l.yard ≠ k.val || l.plan ≠ some (l.yard, l.layer, l.block) then ([], s)
      else
        let layers := p.descs k
        let done := if v.1 = k.val then (layers.drop l.layer).take (v.2.1 - l.layer) else layers.drop l.layer
        let new := { l with yard := v.1, layer := if v.1 = k.val then v.2.1 else layers.length, block := v.2.2 }
        let heads := ((layers[Min.min new.layer (layers.length - 1)]?).map queryHeads).getD 0
        let s := writeLane s p k i new heads body
        (done.map (·.layer), { s with ctl := s.ctl.setSession { x with lane := some { new with layer := v.2.1 } } })

/-- The append scatter step of a yard (R229): for the stalls of the commit mask. -/
def scatterStep (s : State) (k : Yard) (writes : List KvWrite) : State :=
  match s.ctl.plan?, s.ctl.microIn k with
  | some p, some m =>
    let mask := ((s.dp.commit.find? (·.1 = k)).map (·.2)).getD []
    let s := copyForks s p k
    let s := (List.range m.stalls.length).foldl (fun (s : State) i =>
      match m.stalls[i]? with
      | none => s
      | some st =>
        if !mask.contains i then s
        else
          let mine := writes.filter (·.stall = i)
          match st.work with
          | .lane _ =>
            match s.ctl.session? st.fn (ixOf st.session) with
            | none => s
            | some x =>
              let v := laneVisit s p k i x (mine.flatMap (·.lane))
              (mine.filter fun w => v.1.contains w.layer).foldl (fun s w => scatterLayer s p k st w false) v.2
          | .decode => mine.foldl (fun s w => scatterLayer s p k st w true) s
          | .prefill _ => mine.foldl (fun s w => scatterLayer s p k st w false) s
          | .item | .forward _ | .backward _ => s) s
    -- committed in this yard
    let put (i : Nat) (st : Stall) : Stall :=
      if mask.contains i && !st.committed.contains k.val then { st with committed := st.committed ++ [k.val] } else st
    { s with ctl := s.ctl.onFe fun f =>
        { f with pipe := f.pipe.map fun y => if y.yard = k.val then { y with stalls := y.stalls.mapIdx put } else y } }
  | _, _ => s

/-- APPEND_SCATTER_STEP (R227-R231, R245, R246). -/
def execAppendScatterStep (yard : Yard) (writes : List KvWrite) (s : State) : Host.Outcome State Fault Refusal :=
  if s.ctl.hub.halted then .next s else .next (scatterStep s yard writes)

/-! ### Restoration and release (R232, R233, R243) -/

/-- Whether a copy of a block is good: its port or channels in service and none of its units poisoned. -/
def goodShed (s : State) (addr : Nat) : Bool :=
  addr ≠ 0 && (s.ctl.shedRuns addr).all (fun r => (s.ctl.port (r.1 / 2 ^ 44)).up && !(s.ctl.port (r.1 / 2 ^ 44)).held) &&
    !(s.ctl.shedRuns addr).isEmpty && (s.ctl.shedUnits addr).all fun u => !s.dp.poison.contains u

/-- Whether a fast copy is good. -/
def goodFast (s : State) (addr bytes : Nat) : Bool :=
  !(s.dp.poisoned (fastKey addr) bytes) && (List.range (bytes / 4096)).all fun i => !s.ctl.addrLost (addr + 4096 * i)

/-- Every block of sessions and nodes. -/
def Ctl.allBlocks (c : Ctl) : List MapEntry := (c.objs.sessions.flatMap (·.map)) ++ c.objs.nodes.flatMap (·.blocks)

/-- The block whose copy holds an address. -/
def Ctl.blockAt (c : Ctl) (p : Plan) (copy : KvCopy) (addr : Nat) : Option MapEntry :=
  c.allBlocks.find? fun e =>
    match copy with
    | .fast => !e.demoted && e.fast ≤ addr && addr < e.fast + p.blockBytes e.yard
    | .shadow => (c.shedRuns e.shadow).any fun r => r.1 ≤ addr && addr < r.1 + r.2
    | .mirror => e.mirror ≠ 0 && (c.shedRuns e.mirror).any fun r => r.1 ≤ addr && addr < r.1 + r.2

/-- Ends a session of itself at the next bell (R292): its status stands at once, the bell does the rest. -/
def Ctl.endSession (c : Ctl) (x : Session) (status : BitVec 16) : Ctl :=
  match c.session? x.fn x.ix with
  | some y => if y.ended.isSome then c else c.setSession { y with ended := some status }
  | none => c

/-- No good copy of a block remains (R233): its sessions end with UNCORRECTABLE, its node goes, KV_LOST. -/
def Ctl.kvLost (c : Ctl) (cfg : Cfg) (e : MapEntry) : Ctl :=
  let c := (c.objs.sessions.filter fun x => x.map.any fun z => z.shadow = e.shadow && !z.evicted).foldl
    (fun c x => c.endSession x Status.uncorrectable) c
  let c := (c.objs.nodes.filter fun n => n.blocks.any (·.shadow = e.shadow)).foldl (fun c n => c.dropNode n) c
  c.raise cfg (.kv e.yard) 8#16

/-- Latches the first restored copy since YRD_KV_EVENT was last cleared and raises KV_RESTORED (R232 step 1). -/
def Ctl.kvLatch (c : Ctl) (cfg : Cfg) (k : Yard) (copy : KvCopy) (addr : Nat) : Ctl :=
  (c.onYard k fun y => { y with kvAddr := y.kvAddr.orElse fun _ => some (copy, addr) }).raise cfg (.kv k) 1#16

/-- Whether a failing fast-tier address is among the last 256 that its yard restored (R233), and its entry there. -/
def Ctl.rememberKv (c : Ctl) (k : Yard) (addr : Nat) : Bool × Ctl :=
  ((c.yd k).kvRestored.contains addr, c.onYard k fun y => { y with kvRestored := (addr :: y.kvRestored).take 256 })

/-- A block that keeps failing is to move to a fresh slot (R233): one is taken at once where there is one. -/
def Ctl.planMove (c : Ctl) (p : Plan) (e : MapEntry) : Ctl :=
  if c.fe.kvMoves.any (·.shadow = e.shadow) then c
  else c.onFe fun f => { f with kvMoves := f.kvMoves ++ [⟨e.yard, e.shadow, c.fastAlloc p e.yard e.layer e.block⟩] }

/-- Restores a copy of a KV block from a good one (R232, R233): a fast block that fails again at a remembered address moves to a
fresh slot. -/
def restoreKv (s : State) (k : Yard) (copy : KvCopy) (addr : Nat) : State :=
  match s.ctl.plan? with
  | none => s
  | some p =>
    match s.ctl.blockAt p copy addr with
    | none => s
    | some e =>
      let n := p.blockBytes e.yard
      let src : Option (List Nat) := match copy with
        | .fast => if goodShed s e.shadow then some (s.ctl.shedUnits e.shadow) else none
        | .shadow => if e.demoted then (if goodShed s e.mirror then some (s.ctl.shedUnits e.mirror) else none)
            else if goodFast s e.fast n then some (fastUnits e.fast n) else none
        | .mirror => if goodShed s e.shadow then some (s.ctl.shedUnits e.shadow) else none
      let s := { s with ctl := s.ctl.kvLatch s.cfg k copy addr }
      match src with
      | none => { s with ctl := s.ctl.kvLost s.cfg e }
      | some us =>
        let c := s.ctl.onBlock e.shadow fun y => { y with hold := true }
        let sk := c.shadowKey e.shadow
        match copy with
        | .fast =>
          let r := c.rememberKv k addr
          { s with dp := s.dp.copyUnits sk us (fastUnits e.fast n), ctl := if r.1 then r.2.planMove p e else r.2 }
        | .shadow => { s with dp := s.dp.copyUnits sk us (c.shedUnits e.shadow), ctl := c }
        | .mirror => { s with dp := s.dp.copyUnits sk us (c.shedUnits e.mirror), ctl := c }

/-- A view with one block's address changed. -/
def ObjView.patch (v : ObjView) (old new : Nat) : ObjView :=
  { v with extents := v.extents.map fun e => if !e.shed && e.addr = old then { e with addr := new } else e
           blocks := v.blocks.map fun b => if !b.far && b.addr = old then { b with addr := new } else b }

/-- One move of R233 at a cut-off: the maps and the views of waiting replays name the fresh slot, which holds what the old one held; KV_MOVED. -/
def moveKept (s : State) (p : Plan) (m : KvMove) : State :=
  match s.ctl.allBlocks.find? fun e => e.shadow = m.shadow && !e.demoted with
  | none => { s with ctl := s.ctl.onFe fun f => { f with kvMoves := f.kvMoves.filter (·.shadow ≠ m.shadow) } }
  | some e =>
    match m.new.orElse fun _ => s.ctl.fastAlloc p e.yard e.layer e.block with
    | none => s
    | some a =>
      let n := p.blockBytes e.yard
      let c := s.ctl.onFe fun f =>
        { f with kvMoves := f.kvMoves.filter (·.shadow ≠ m.shadow)
                 replays := f.replays.map fun g => g.map fun st => { st with views := st.views.map fun v => v.patch e.fast a } }
      let c := (c.onBlock m.shadow fun y => { y with fast := a }).release e.yard [e.fast] []
      { s with dp := s.dp.copyUnits 0 (fastUnits e.fast n) (fastUnits a n), ctl := c.raise s.cfg (.kv e.yard) 2#16 }

/-- The moves of R233 that wait for the cut-off. -/
def moveAllKept (s : State) (p : Plan) : State := s.ctl.fe.kvMoves.foldl (fun s m => moveKept s p m) s

/-- KV_RESTORE (R232, R233). -/
def execKvRestore (yard : Yard) (copy : KvCopy) (addr : Nat) (s : State) : Host.Outcome State Fault Refusal :=
  if s.ctl.hub.halted then .next s else .next (restoreKv s yard copy addr)

/-- STORAGE_RELEASE (R243): what is due is freed. -/
def execStorageRelease (s : State) : Host.Outcome State Fault Refusal := .next { s with ctl := s.ctl.freeDue }

end Sys2Proof.Machine
end

