-- ==== Sys2Proof/Machine/Sessions.lean ====
section
/-! DEFINITION. Sessions (10): opening, appending, generating, forking, closing, and pins of the prefix tree. -/

namespace Sys2Proof.Machine

open Sys2Proof

/-! ### Names, images and epochs (R174, R286) -/

/-- An image by its table index. -/
def Ctl.image? (c : Ctl) (ix : Nat) : Option Image := c.objs.images.find? (·.ix = ix)

/-- An epoch by its image's index and its number. -/
def Ctl.epoch? (c : Ctl) (image num : Nat) : Option Epoch := c.objs.epochs.find? fun e => e.image = image && e.num = num

/-- The images among which a function's name is resolved (R286): its own, else the management function's. -/
def Ctl.versions (c : Ctl) (n : BitVec 8) (name : BitVec 128) : List Image :=
  let mine := c.objs.images.filter fun i => i.owner = n && i.name = name
  if mine.isEmpty then c.objs.images.filter fun i => i.owner = c.mgmt && i.name = name else mine

/-- The current epoch of a name (R174). -/
def Ctl.currentEpoch (c : Ctl) (vs : List Image) : Option Epoch :=
  c.objs.epochs.find? fun e => e.current && e.effect && vs.any (·.ix = e.image)

/-- Whether an activation under CUTOVER has ended the old epochs of a name and not yet brought its own (R203). -/
def Ctl.cutOver (c : Ctl) (vs : List Image) : Bool :=
  c.objs.jobs.any fun j => !j.over && match j.kind with
    | .activate image _ _ _ _ _ _ ended => ended && vs.any (·.ix = image)
    | _ => false

/-- Whether the selected plan names an image (R194). -/
def Ctl.planNames (c : Ctl) (i : Image) : Bool :=
  match c.plan? with
  | none => false
  | some p => p.images.any (·.digest = i.digest)

/-- An adapter of a function by handle. -/
def Ctl.adapter? (c : Ctl) (f : Fn) (h : Handle) : Option Adapter :=
  (f.object .adapter h).bind fun k => c.objs.adapters.find? fun a => a.fn = f.num && a.ix = k

/-- Whether an adapter parameter, 0 or a handle, suits an image (R417). -/
def Ctl.adapterSuits (c : Ctl) (f : Fn) (h : Handle) (i : Option Image) : Bool :=
  h = 0#32 || match c.adapter? f h, i with
    | some a, some i => a.image = i.digest
    | _, none => true
    | none, _ => false

/-! ### SESSION_OPEN (R286, R417, R245, R248) -/

/-- Whether RING_ENTRIES is a power of two from 64 to 1,048,576. -/
def ringEntriesOk (n : Nat) : Bool := 64 ≤ n && n ≤ 2 ^ 20 && n = 2 ^ Nat.log2 n

/-- Whether a session's KV budget is 0 or as R245 has it. -/
def budgetOk (b : Nat) : Bool := b = 0 || (b % 64 = 0 && 1088 ≤ b)

/-- Whether an output ring of some entries fits its region, writable (R287). -/
def Fn.ringOk (f : Fn) (r : RegionRef) (entries : Nat) : Bool := f.regionOk r (some (64 + 16 * entries)) true

/-- What the name of a SESSION_OPEN gives: none where it may be bound or waits under CUTOVER. -/
def Ctl.openState (c : Ctl) (n : BitVec 8) (name : BitVec 128) : List (Bool × BitVec 16) :=
  let vs := c.versions n name
  match c.currentEpoch vs with
  | none => [(c.cutOver vs, Status.badState)]
  | some e => match c.image? e.image with
    | none => [(false, Status.badState)]
    | some i => [(i.st ≠ .damaged, Status.imageDamaged), (c.planNames i, Status.badState)]

/-- SESSION_OPEN at its fetch: its handle is issued; the session is bound at the next bell. -/
def Ctl.sessionOpen (c : Ctl) (p : Pkt) (name : BitVec 128) (adapter : Handle) (ring : RegionRef) (entries budget : Nat)
    (width : Byte) : Ctl :=
  let image := (c.currentEpoch (c.versions p.fn name)).bind fun e => c.image? e.image
  c.packet p .any true (fun f =>
    [((adapter = 0#32 || (f.object .adapter adapter).isSome) && f.regionLive ring, Status.badHandle),
      (ringEntriesOk entries && budgetOk budget && [0, 1, 2, 4, 8].contains width.toNat && f.ringOk ring entries &&
        c.adapterSuits f adapter image, Status.badParameter)] ++ c.openState p.fn name) fun d f m =>
    match f.issueSelf .session with
    | none => d.finish m Status.noSpace 0#32 0
    | some (ix, g) =>
      (d.onFn f.num fun _ => g).onObjs fun o =>
        { o with waiting := o.waiting ++ [⟨m, .open name adapter ring entries budget width.toNat ix⟩] }

/-- SESSION_OPEN (R286, R245, R248, R417). -/
def execSessionOpen (p : Pkt) (name : BitVec 128) (adapter : Handle) (ring : RegionRef) (entries budget : Nat) (width : Byte)
    (s : State) : Host.Outcome State Fault Refusal :=
  .next { s with ctl := s.ctl.sessionOpen p name adapter ring entries budget width }

/-- A session as it is bound. -/
def Session.fresh (m : Cmd) (ix : Nat) (e : Epoch) (adapter : Handle) (ring : RegionRef) (entries budget width : Nat) :
    Session :=
  { fn := m.fn, ix := ix, image := e.image, epoch := e.num, adapter := adapter, ring := ring, entries := entries, head := 0
    tail := 0, budget := budget, width := width, tokens := [], pendingToken := none, pendingHost := false, map := []
    nodes := [], commands := [], inflight := 0, ended := none, swept := false, closing := none, stopped := none, kept := [], written := []
    ownOnly := false, lane := none, order := m.order }

/-- Removes a waiting command. -/
def Ctl.dropWaiting (c : Ctl) (order : Nat) : Ctl :=
  c.onObjs fun o => { o with waiting := o.waiting.filter fun w => w.cmd.order ≠ order }

/-- An adapter's users change (R417). -/
def Ctl.useAdapter (c : Ctl) (n : BitVec 8) (h : Handle) (f : Nat → Nat) : Ctl :=
  if h = 0#32 then c
  else c.onObjs fun o =>
    { o with adapters := o.adapters.map fun a => if a.fn = n && handleOf .adapter a.ix = h then { a with users := f a.users } else a }

/-- A waiting SESSION_OPEN at a bell (R286, R203): bound, waiting on, or ended with BAD_STATE or IMAGE_DAMAGED. -/
def Ctl.bindOpen (c : Ctl) (w : Waiting) : Ctl :=
  match w.what with
  | .open name adapter ring entries budget width ix =>
    let m := w.cmd
    let vs := c.versions m.fn name
    let fail (st : BitVec 16) : Ctl := ((c.dropWaiting m.order).freeHandle m.fn ix).finish m st 0#32 0
    match c.currentEpoch vs with
    | none => if c.cutOver vs then c else fail Status.badState
    | some e =>
      match c.image? e.image with
      | none => fail Status.badState
      | some i =>
        if i.st = .damaged then fail Status.imageDamaged
        else if !c.planNames i then fail Status.badState
        else
          let x := Session.fresh m ix e adapter ring entries budget width
          let c := ((c.dropWaiting m.order).onObjs fun o => { o with sessions := o.sessions ++ [x] }).useAdapter m.fn adapter (· + 1)
          c.finish m Status.success (handleOf .session ix) 0
  | _ => c

/-! ### Commands on a session (R278 checks 4 and 6, R292, R293) -/

/-- The session that a packet names, once it is bound. -/
def Ctl.sessionAt (c : Ctl) (f : Fn) (h : Handle) : Option Session := (f.object .session h).bind fun ix => c.session? f.num ix

/-- The check that a packet names a live session. -/
def Ctl.sessionLive (c : Ctl) (f : Fn) (h : Handle) : Bool × BitVec 16 := ((c.sessionAt f h).isSome, Status.badHandle)

/-- The state checks of a session: an ended one answers with its ending status, a closing one with BAD_STATE. -/
def Ctl.sessionState (c : Ctl) (f : Fn) (h : Handle) : List (Bool × BitVec 16) :=
  match c.sessionAt f h with
  | none => []
  | some x => [(x.ended.isNone, x.ended.getD 0#16), (x.closing.isNone, Status.badState)]

/-- The check of R293: at most 16 commands behind the running one. -/
def Ctl.sessionRoom (c : Ctl) (f : Fn) (h : Handle) : Bool × BitVec 16 :=
  match c.sessionAt f h with
  | none => (true, 0#16)
  | some x => (x.commands.length < 17, Status.queueFull)

/-- Puts an accepted job into its session's queue; behind another it waits with cause SESSION_ORDER. -/
def Ctl.enqueue (c : Ctl) (m : Cmd) (ix : Nat) (h : Handle) : Ctl :=
  match c.session? m.fn (ixOf h), c.job? m.fn ix with
  | some x, some j =>
    (c.setSession { x with commands := x.commands ++ [m.order] }).setJob { j with wait := if x.commands.isEmpty then 0 else 6 }
  | _, _ => c

/-- SESSION_APPEND (R289, R293). -/
def Ctl.sessionAppend (c : Ctl) (p : Pkt) (tokens : RegionRef) (count : Nat) (noPrefix : Bool) (data : HostRead (List Word)) :
    Ctl :=
  c.packet p .any false (fun f =>
    [((c.sessionAt f p.subject).isSome && f.regionLive tokens, Status.badHandle),
      (1 ≤ count && count < 2 ^ 32 && tokens.off % 4 = 0 && f.regionOk tokens (some (4 * count)) false, Status.badParameter)] ++
    c.sessionState f p.subject ++ [c.sessionRoom f p.subject]) fun d _ m =>
    let toks := (readOr data []).take count
    let r := d.acceptJob m 0x11 p.subject (.append toks 0 0 none noPrefix false false) count [tokens.handle] true
    match r.2 with
    | none => r.1
    | some ix =>
      let d := r.1.enqueue m ix p.subject
      match data, d.job? m.fn ix with
      | .xlat, some j => d.endRequest j Status.translation
      | .past, some j => d.endRequest j Status.badParameter
      | _, _ => d

/-- SESSION_APPEND (R285, R289, R293). -/
def execSessionAppend (p : Pkt) (tokens : RegionRef) (count : Nat) (noPrefix : Bool) (data : HostRead (List Word)) (s : State) :
    Host.Outcome State Fault Refusal :=
  .next { s with ctl := s.ctl.sessionAppend p tokens count noPrefix data }

/-- Whether a session holds or awaits an appended token (R290). -/
def Ctl.hasToken (c : Ctl) (x : Session) : Bool :=
  !x.tokens.isEmpty || x.pendingToken.isSome || x.commands.any fun o =>
    match c.jobByOrder o with
    | none => false
    | some j => j.kind.typ = 1

/-- Whether TEMPERATURE is at least 0, and TOP_P in (0, 1] (R285). -/
def samplingOk (temperature topP : Word) : Bool :=
  FNum.le (FNum.ofInt 0) (num32 temperature) && FNum.lt (FNum.ofInt 0) (num32 topP) && FNum.le (num32 topP) (FNum.ofInt 1)

/-- SESSION_GENERATE (R290, R293). -/
def Ctl.sessionGenerate (c : Ctl) (p : Pkt) (maxTokens : Nat) (temperature topP : Word) (topK nstop : Nat) (stops : List Word)
    (seed : Word) : Ctl :=
  c.packet p .any false (fun f =>
    [c.sessionLive f p.subject,
      (1 ≤ maxTokens && samplingOk temperature topP && topK ≤ 1024 && nstop ≤ 8, Status.badParameter)] ++
    c.sessionState f p.subject ++
    [(match c.sessionAt f p.subject with | some x => c.hasToken x | none => true, Status.badState),
      c.sessionRoom f p.subject]) fun d _ m =>
    let r := d.acceptJob m 0x12 p.subject (.generate maxTokens temperature topP topK (stops.take nstop) seed 0) maxTokens [] true
    match r.2 with
    | none => r.1
    | some ix => r.1.enqueue m ix p.subject

/-- SESSION_GENERATE (R285, R290, R293). -/
def execSessionGenerate (p : Pkt) (maxTokens : Nat) (temperature topP : Word) (topK nstop : Nat) (stops : List Word)
    (seed : Word) (s : State) : Host.Outcome State Fault Refusal :=
  .next { s with ctl := s.ctl.sessionGenerate p maxTokens temperature topP topK nstop stops seed }

/-! ### SESSION_FORK (R291, R239) -/

/-- Whether some job of a session runs or waits its turn unsuspended. -/
def Ctl.sessionRuns (c : Ctl) (x : Session) : Bool :=
  x.commands.any fun o => match c.jobByOrder o with
    | some j => !j.over && j.st ≠ .suspended
    | none => false

/-- The child's own blocks (R239): for each private block of the parent a slot and shadow space, to be copied in the next scatter
step; none where one of them finds no space. -/
def Ctl.forkBlocks (c : Ctl) (p : Plan) (child : Session) (es : List MapEntry) : Option (Session × Ctl) :=
  es.foldl (fun acc e =>
    match acc.bind fun a => a.2.newBlock p a.1 e.yard e.layer e.block (some e.shadow) with
    | none => none
    | some (x, c) =>
      let fill (z : MapEntry) : MapEntry :=
        if z.yard = e.yard && z.layer = e.layer && z.block = e.block then
          { z with fill := e.fill, score := e.score, evicted := e.evicted } else z
      let x := { x with map := x.map.map fill }
      some (x, c.setSession x)) (some (child, c))

/-- Makes the child of a fork (R291): the parent's epoch, adapter, budget, width, pending token and prefix references. While its own blocks find
no space the fork waits (R239, R244). -/
def Ctl.forkNow (c0 : Ctl) (m : Cmd) (x : Session) (ring : RegionRef) (entries ix : Nat) : Ctl :=
  let c := c0
  let child : Session :=
    { x with ix := ix, ring := ring, entries := entries, head := 0, tail := 0, commands := [], inflight := 0, closing := none
             stopped := none, kept := [], written := [], lane := none, order := m.order
             map := x.map.filter (·.node) }
  let c := (c.dropWaiting m.order).onObjs fun o =>
    { o with sessions := (o.sessions.map fun y =>
               if y.fn = x.fn && y.ix = x.ix then { y with commands := y.commands.filter (· ≠ m.order) } else y) ++ [child]
             nodes := o.nodes.map fun n => if x.nodes.contains n.id then { n with refs := n.refs + 1 } else n }
  let c := c.useAdapter x.fn x.adapter (· + 1)
  let made : Option Ctl := match c.plan? with
    | none => some c
    | some p => (c.forkBlocks p child (x.map.filter fun e => !e.node && !e.evicted)).map (·.2)
  match made with
  | some c => c.finish m Status.success (handleOf .session ix) 0
  | none => c0

/-- A waiting SESSION_FORK: done once its parent has no step in flight. -/
def Ctl.tryFork (c : Ctl) (w : Waiting) : Ctl :=
  match w.what with
  | .fork parent ring entries ix =>
    match c.session? w.cmd.fn (ixOf parent) with
    | none => ((c.dropWaiting w.cmd.order).freeHandle w.cmd.fn ix).finish w.cmd Status.badHandle 0#32 0
    | some x => if x.inflight = 0 then c.forkNow w.cmd x ring entries ix else c
  | _ => c

/-- SESSION_FORK (R291, R293). -/
def Ctl.sessionFork (c : Ctl) (p : Pkt) (ring : RegionRef) (entries : Nat) : Ctl :=
  c.packet p .any false (fun f =>
    [((c.sessionAt f p.subject).isSome && f.regionLive ring, Status.badHandle),
      (ringEntriesOk entries && f.ringOk ring entries, Status.badParameter)] ++ c.sessionState f p.subject ++
    [(match c.sessionAt f p.subject with | some x => !c.sessionRuns x | none => true, Status.badState),
      c.sessionRoom f p.subject]) fun d f m =>
    match f.issueSelf .session, d.session? f.num (ixOf p.subject) with
    | some (ix, g), some x =>
      let d := (d.onFn f.num fun _ => g).setSession { x with commands := x.commands ++ [m.order] }
      let w : Waiting := ⟨m, .fork p.subject ring entries ix⟩
      (d.onObjs fun o => { o with waiting := o.waiting ++ [w] }).tryFork w
    | _, _ => d.finish m Status.noSpace 0#32 0

/-- SESSION_FORK (R291, R239, R293). -/
def execSessionFork (p : Pkt) (ring : RegionRef) (entries : Nat) (s : State) : Host.Outcome State Fault Refusal :=
  .next { s with ctl := s.ctl.sessionFork p ring entries }

/-! ### The end of a session (R292, R293, R230, R243) -/

/-- Frees a session's storage and prefix references (R230, R243): private blocks are released, nodes lose a reference. -/
def Ctl.releaseSession (c : Ctl) (x : Session) : Ctl :=
  let c := (x.map.filter fun e => !e.node && !e.evicted).foldl (fun c e => c.releaseEntry e) c
  let c := c.onObjs fun o =>
    { o with nodes := o.nodes.map fun n => if x.nodes.contains n.id then { n with refs := n.refs - 1 } else n }
  match c.session? x.fn x.ix with
  | some y => c.setSession { y with map := [], nodes := [], lane := none, tokens := [], pendingToken := none }
  | none => c

/-- Removes a session and frees its handle. -/
def Ctl.removeSession (c : Ctl) (x : Session) : Ctl :=
  ((c.onObjs fun o => { o with sessions := o.sessions.filter fun y => !(y.fn = x.fn && y.ix = x.ix) }).freeHandle x.fn x.ix).useAdapter
    x.fn x.adapter (· - 1)

/-- Ends every job of a session's queue, and its waiting forks, with a status (R292, R293). -/
def Ctl.endCommands (c : Ctl) (x : Session) (status : BitVec 16) : Ctl :=
  let c := x.commands.foldl (fun c o => match c.jobByOrder o with
    | some j => c.endRequest j status
    | none => c) c
  (c.objs.waiting.filter fun w => x.commands.contains w.cmd.order && w.cmd.fn = x.fn).foldl (fun c w =>
    match w.what with
    | .fork _ _ _ ix => ((c.dropWaiting w.cmd.order).freeHandle x.fn ix).finish w.cmd status 0#32 0
    | _ => c) c

/-- SESSION_CLOSE (R292, R293): an ended session's handle is freed at once; otherwise its jobs end with CANCELLED and the close
completes at the bell after its last step leaves yard 7. -/
def Ctl.sessionClose (c : Ctl) (p : Pkt) : Ctl :=
  c.packet p .any false (fun f =>
    [c.sessionLive f p.subject,
      (match c.sessionAt f p.subject with | some x => x.closing.isNone | none => true, Status.badState)]) fun d f m =>
    match d.sessionAt f p.subject with
    | none => d.finish m Status.badHandle 0#32 0
    | some x =>
      if x.ended.isSome && x.map.isEmpty && x.inflight = 0 then (d.removeSession x).finish m Status.success 0#32 0
      else (d.setSession { x with closing := some m }).endCommands x (x.ended.getD Status.cancelled)

/-- SESSION_CLOSE (R292, R293). -/
def execSessionClose (p : Pkt) (s : State) : Host.Outcome State Fault Refusal := .next { s with ctl := s.ctl.sessionClose p }

/-! ### PREFIX_PIN and PREFIX_UNPIN (R294, R239) -/

/-- Adds a pin to each node of a chain, or removes one; how many nodes changed. -/
def Ctl.pinChain (c : Ctl) (ids : List Nat) (pin : Bool) : Nat × Ctl :=
  let may (n : Node) : Bool := ids.contains n.id && if pin then n.pins < 65535 else 0 < n.pins
  let next (n : Node) : Node := if may n then { n with pins := if pin then n.pins + 1 else n.pins - 1 } else n
  ((c.objs.nodes.filter may).length, c.onObjs fun o => { o with nodes := o.nodes.map next })

/-- PREFIX_PIN and PREFIX_UNPIN (R294). -/
def Ctl.prefixPins (c : Ctl) (p : Pkt) (tokens : RegionRef) (count : Nat) (data : HostRead (List Word)) (pin : Bool) : Ctl :=
  c.packet p .any false (fun f =>
    [((c.sessionAt f p.subject).isSome && f.regionLive tokens, Status.badHandle),
      (f.regionOk tokens (some (4 * count)) false, Status.badParameter)] ++ c.sessionState f p.subject) fun d f m =>
    match data, d.sessionAt f p.subject with
    | .xlat, _ => d.finish m Status.translation 0#32 0
    | .ok ts, some x =>
      let ids := d.chain x none (ts.take count) (count / 64 + 1)
      let r := d.pinChain ids pin
      r.2.finish m Status.success (BitVec.ofNat 32 r.1) 0
    | _, _ => d.finish m Status.badParameter 0#32 0

/-- PREFIX_PIN (R294, R239). -/
def execPrefixPin (p : Pkt) (tokens : RegionRef) (count : Nat) (data : HostRead (List Word)) (s : State) :
    Host.Outcome State Fault Refusal :=
  .next { s with ctl := s.ctl.prefixPins p tokens count data true }

/-- PREFIX_UNPIN (R294, R239). -/
def execPrefixUnpin (p : Pkt) (tokens : RegionRef) (count : Nat) (data : HostRead (List Word)) (s : State) :
    Host.Outcome State Fault Refusal :=
  .next { s with ctl := s.ctl.prefixPins p tokens count data false }

end Sys2Proof.Machine
end

