-- ==== Sys2Proof/Machine/Images.lean ====
section
/-! DEFINITION. Images and epochs (07): installation, activation, loading into the fast tier, retirement, restoration of damaged
weights. -/

namespace Sys2Proof.Machine

open Sys2Proof

/-! ### IMAGE_INSTALL (R178) -/

/-- Bytes of the coffer's image region (R210). -/
def imageRegion : Nat := 11968000000000

/-- What programming since the start adds to every erase count: wear levelling spreads it over the whole image region (R210). -/
def Cof.worn (k : Cof) : Nat := k.programmed / imageRegion

/-- The mean erase count of the image region (R210). -/
def Cof.mean (k : Cof) : Nat := k.wearMean.toNat + k.worn

/-- Programs bytes into the image region (R210): WEAR_LIMIT where its mean erase count reaches nine tenths of the 3,000 cycles that a cell is
rated for. -/
def Ctl.program (c : Ctl) (cfg : Cfg) (n : Nat) : Ctl :=
  let d := c.onCof fun k => { k with programmed := k.programmed + n }
  if c.cof.mean < 2700 && 2700 ≤ d.cof.mean then d.raise cfg .cof 16#16 else d

/-- Applies a change to the images of a table index. -/
def Ctl.onImage (c : Ctl) (ix : Nat) (f : Image → Image) : Ctl :=
  c.onObjs fun o => { o with images := o.images.map fun i => if i.ix = ix then f i else i }

/-- A free entry of the image table (R175): the lowest index. -/
def Ctl.imageSlot (c : Ctl) : Option Nat :=
  (List.range (Min.min 4096 (c.objs.images.length + 1))).find? fun i => !c.objs.images.any (·.ix = i)

/-- The READY base image of a digest (R178 phase 2). -/
def Ctl.baseOf? (c : Ctl) (d : Digest) : Option Image :=
  c.objs.images.find? fun i => i.st = .ready && !i.variant && i.digest = d

/-- Phases 2 to 4 of R178: the base, the space, the entry and its handle. -/
def Ctl.reserveImage (c : Ctl) (n : BitVec 8) (mf : Manifest) (digest : Digest) (scaleLen : Nat) :
    (Nat × Nat × Ctl) ⊕ BitVec 16 :=
  let base := if mf.variant then (c.baseOf? mf.baseDigest).map (·.ix) else none
  if mf.variant && base.isNone then .inr Status.badHandle
  else if c.cof.free < mf.stored + scaleLen then .inr Status.noSpace
  else
    match c.imageSlot, (c.fn? n).bind fun f => f.issue .image (c.imageSlot.getD 0) with
    | some ix, some (h, g) =>
      let i : Image :=
        { ix := ix, st := .installing, variant := mf.variant, base := base, lastEpoch := 0, name := mf.name, digest := digest
          stored := mf.stored, scaleLen := scaleLen, owner := n, newest := 0, records := [], scales := [], without := [] }
      let c := (c.onFn n fun _ => g).onObjs fun o => { o with images := o.images ++ [i] }
      .inl (ix, h, c.onCof fun k => { k with free := k.free - (mf.stored + scaleLen) })
    | _, _ => .inr Status.noSpace

/-- IMAGE_INSTALL (R178 phases 1 to 4): the job's acceptance and what it checks before it streams. -/
def Ctl.imageInstall (c : Ctl) (p : Pkt) (manifest records scales : RegionRef) (scaleLen : Nat) (data : HostRead (List Byte)) :
    Ctl :=
  c.packet p .any true (fun f =>
    [(f.regionLive manifest && f.regionLive records && f.regionLive scales, Status.badHandle),
      (f.regionOk manifest none false && f.regionOk records none false && f.regionOk scales (some scaleLen) false,
        Status.badParameter)]) fun d _ m =>
    let bytes := readOr data []
    let r := d.acceptJob m 0x40 0#32 (.install 0 0 bytes) 0 [manifest.handle, records.handle, scales.handle] false
    match r.2.bind fun ix => r.1.job? m.fn ix with
    | none => r.1
    | some j =>
      match data, r.1.manifestOk bytes with
      | .xlat, _ => r.1.finishJob j Status.translation 0#32 0
      | _, none => r.1.finishJob j Status.permission 0#32 0
      | _, some mf =>
        match r.1.reserveImage m.fn mf (sha384 (bytes.take mf.cover)) scaleLen with
        | .inr st => r.1.finishJob j st 0#32 0
        | .inl (ix, h, e) => e.setJob { j with kind := .install ix h bytes, limit := mf.stored }

/-- IMAGE_INSTALL (R178). -/
def execImageInstall (p : Pkt) (manifest records scales : RegionRef) (scaleLen : Nat) (data : HostRead (List Byte)) (s : State) :
    Host.Outcome State Fault Refusal :=
  .next { s with ctl := s.ctl.imageInstall p manifest records scales scaleLen data }

/-- Frees an image's entry, its coffer space and its handles (R180, R181). -/
def Ctl.freeImage (c : Ctl) (i : Image) : Ctl :=
  let c := c.onObjs fun o => { o with images := o.images.filter (·.ix ≠ i.ix) }
  let c := c.onCof fun k => { k with free := k.free + i.stored + i.scaleLen }
  c.fns.foldl (fun c f => match f.ixOfKey .image i.ix with
    | some h => c.freeHandle f.num h
    | none => c) c

/-- An installation that ends without its image (R178, R180). -/
def Ctl.dropInstall (c : Ctl) (image : Nat) : Ctl :=
  match c.image? image with
  | some i => if i.st = .installing then c.freeImage i else c
  | none => c

/-- Phases 5 and 6 of R178: what ends the job, none where the image is good. -/
def Ctl.installFails (c : Ctl) (mf : Manifest) (manifest : List Byte) (data : InstallData) : Option (BitVec 16) :=
  match data.records, data.scales with
  | .xlat, _ => some Status.translation
  | .past, _ => some Status.badParameter
  | .ok rs, sc =>
    let table := (manifest.drop mf.tableOff).take (16 * mf.blocks.length)
    if rs.length ≠ mf.stored || sha384 table ≠ mf.tableDigest || sha384 rs ≠ mf.recordsDigest then some Status.badParameter
    else match sc with
      | .xlat => some Status.translation
      | .past => some Status.badParameter
      | .ok bs =>
        if sha384 bs ≠ mf.scalesDigest || !scalesOk (c.entryKinds (sha384 (manifest.take mf.cover))) bs then
          some Status.badParameter
        else none

/-- Phases 5 to 7 of R178 at the end of the job. -/
def Ctl.imageReady (c : Ctl) (cfg : Cfg) (n : BitVec 8) (h : Handle) (data : InstallData) : Ctl :=
  match c.job? n (ixOf h) with
  | none => c
  | some j =>
    match j.kind with
    | .install image handle manifest =>
      if j.over || j.st = .suspended || j.wait = 8 || (c.image? image).isNone then c
      else
        match manifestOf manifest with
        | none => c
        | some mf =>
          match c.installFails mf manifest data with
          | some st => (c.dropInstall image).finishJob j st 0#32 0
          | none =>
            let rs := match data.records with | .ok rs => rs | _ => []
            let bs := match data.scales with | .ok bs => bs | _ => []
            let newest := ((c.objs.images.map (·.newest)).foldl Max.max 0) + 1
            let c := (c.program cfg (mf.stored + bs.length)).onImage image fun i =>
              { i with st := .ready, newest := newest, scales := bs, without := c.cof.lost
                       records := mf.blocks.map fun b => (rs.drop b.1).take b.2 }
            c.finishJob { j with progress := mf.stored } Status.success (handleOf .image handle) 0
    | _ => c

/-- IMAGE_READY (R178 phases 5 to 7). -/
def execImageReady (fn : BitVec 8) (job : Handle) (data : InstallData) (s : State) : Host.Outcome State Fault Refusal :=
  .next { s with ctl := s.ctl.imageReady s.cfg fn job data }

/-! ### Placement (R196, R268, R269, R393) -/

/-- Bytes of a unit of a weight region (R196). -/
def unitBytes : Nat := 2 ^ 21

/-- The stack of an address. -/
def stackOf (addr : Nat) : Nat := addr / 2 ^ 37

/-- Free units of a region on one stack, lowest first. -/
def freeUnits (used : List Nat) (stack base count : Nat) : List Nat :=
  ((List.range count).map fun i => stack * 2 ^ 37 + base + i * unitBytes).filter fun a => !used.contains a

/-- The relief stack of a stack (R393): the same side of the relief yard. -/
def reliefStack (stack : Nat) : Nat := (stack + 2) % 16

/-- Units of a kind of region for an epoch on every stack, by what it needs of each, or none where some region lacks space. -/
def takeRegions (need used : List Nat) (place : Nat → Nat) (base count : List Nat) : Option (List Nat) :=
  (List.range 16).foldl (fun acc s =>
    acc.bind fun us =>
      let n := need.getD s 0
      let a := freeUnits used (place s) (base.getD s 0) (count.getD s 0)
      if a.length < n then none else some (us ++ a.take n)) (some [])

/-- Shed units for the cold records of an epoch (R155, R269), outside the groups of KV shadows. -/
def Ctl.allocCold (c : Ctl) (n : Nat) : Option (List Nat × Ctl) :=
  if n = 0 then some ([], c)
  else (c.shedTake c.portsUp ⟨0#8, 65536, 0, []⟩ n).map fun r => (r.1.units, r.2.onFe fun f => { f with shed := c.fe.shed })

/-- Where items go in the units of an epoch: each item names a stack and a length, is placed 64-byte aligned behind the one before it
on its stack, and crosses no unit boundary; none where the units of its stack are used up. -/
def placeItems (units : List Nat) (items : List (Nat × Nat)) : List (Option Nat) :=
  (items.foldl (fun (acc : List (Nat × Nat) × List (Option Nat)) it =>
    let at0 := Sparse.get 0 acc.1 it.1
    let off := if at0 % unitBytes + it.2 ≤ unitBytes then at0 else (at0 / unitBytes + 1) * unitBytes
    let mine := units.filter fun u => stackOf u = it.1
    (Sparse.set 0 acc.1 it.1 (off + 64 * Bits.ceilDiv it.2 64), acc.2 ++ [(mine[off / unitBytes]?).map (· + off % unitBytes)])) ([], [])).2

/-- Where items go in shed units, one after another, 64-byte aligned, crossing no unit boundary. -/
def placeCold (units : List Nat) (lens : List Nat) : List (Option Nat) :=
  (lens.foldl (fun (acc : Nat × List (Option Nat)) n =>
    let off := if acc.1 % 65536 + n ≤ 65536 then acc.1 else (acc.1 / 65536 + 1) * 65536
    (off + 64 * Bits.ceilDiv n 64, acc.2 ++ [(units[off / 65536]?).map (· + off % 65536)])) (0, [])).2

/-- Where a block of an image stands under a plan (R196, R268, R269): its stack, whether it lies in the shed or in a partner yard's region, and
whether its delta records are expanded at load. -/
structure BlockHome where
  stack : Nat
  shed : Bool
  wide : Bool
  expand : Bool
  deriving DecidableEq, Repr

/-- The router of an expert whose list names a block, where one of its masks has that expert (R252, R261). -/
def maskedBy (p : Plan) (pi : PlanImage) (b : Nat) (mask : Router → BitVec 256) : Option Router :=
  pi.lists.findSome? fun x =>
    if x.block = b then
      x.expert.bind fun e => p.routers.find? fun r => r.layer = x.layer && r.yard = x.yard && (mask r).getLsbD e
    else none

/-- The place of a block (R156, R196, R198, R268-R270): the experts of COLD_MASK in the shed, those of WIDE_MASK on the partner yard's stacks, on
the side that the plan gives; both are expanded at load. -/
def blockHome (p : Plan) (pi : PlanImage) (b : Nat) : BlockHome :=
  let x := pi.blocks.getD b ⟨0, false, false⟩
  match maskedBy p pi b fun r => if r.wideOn then r.wide else 0#256 with
  | some r => ⟨2 * r.partner.val + x.stack % 2, false, true, true⟩
  | none =>
    let cold := x.shed || (maskedBy p pi b (·.cold)).isSome
    ⟨x.stack, cold, false, pi.atLoad || cold || x.expand⟩

/-- The raw record that a delta record over a base record expands into (R184, R185, R188); none where a check of R193 fails. -/
def rawFrom (rec base : List Byte) : Option (List Byte) :=
  let h := recHeader rec
  match h.format with
  | none => none
  | some f =>
    let bh := recHeader base
    if headerFails h rec (expandedBytes f / 64) || bh.kind ≠ 0 || bh.format ≠ h.format || tableFails h rec then none
    else
      let cs := codewords ((List.range 16).map (symbolAt f rec))
      let subs := ((deltaBytes rec h.nsub).zip (directory rec h.nsub)).zipWith
        (fun (x : List Byte × Nat × Nat) b => deltaSub f cs x.1 x.2.1 b) (rawSubs f base)
      if subs.any fun x => match x with | .inr _ => true | .inl _ => false then none
      else
        let body := subs.flatMap fun x => match x with
          | .inl s => s.scales ++ codesToBytes f s.codes
          | .inr _ => []
        some ([0#8, rec.getD 1 0#8, rec.getD 2 0#8, 0#8] ++ Bits.toLe (rawRecord f) 4 ++ List.replicate 8 0#8 ++ body)

/-- Whether a record is a delta one. -/
def isDelta (rec : List Byte) : Bool := (recHeader rec).kind = 1

/-- A raw record in the expanded layout of R149, as the shed holds weights (R156). -/
def expandedFrom (raw : List Byte) : List Byte :=
  match (recHeader raw).format with
  | some f => expandedOut f (rawSubs f raw)
  | none => raw

/-- Bytes that a block occupies once loaded. -/
def loadedBytes (x : BlockHome) (rec : List Byte) : Nat :=
  match (recHeader rec).format with
  | some f => if x.shed then expandedBytes f else if isDelta rec && x.expand then rawRecord f else rec.length
  | none => rec.length

/-- Merges near, wide and cold addresses in block order. -/
def mergePlaces : List BlockHome → List (Option Nat) → List (Option Nat) → List (Option Nat) → List (Bool × Option Nat)
  | [], _, _, _ => []
  | x :: xs, near, wide, cold =>
    if x.shed then (true, cold.headD none) :: mergePlaces xs near wide cold.tail
    else if x.wide then (false, wide.headD none) :: mergePlaces xs near wide.tail cold
    else (false, near.headD none) :: mergePlaces xs near.tail wide cold

/-- The table segment that an entry belongs to (R134): its stack, whether it serves KV, its layer and its cluster. -/
def segmentOf (k : EntryKind) : Nat × Bool × Nat × Cluster := (k.stack, k.kv, k.layer, k.cluster)

/-- The table segments of an image, in the order of their first entries. -/
def segments (pi : PlanImage) : List (Nat × Bool × Nat × Cluster) := (pi.entries.map segmentOf).eraseDups

/-- The numbers of the entries of a segment, in order. -/
def entriesOf (pi : PlanImage) (g : Nat × Bool × Nat × Cluster) : List Nat :=
  (pi.entries.mapIdx fun i k => (i, k)).filterMap fun x => if segmentOf x.2 = g then some x.1 else none

/-- Where each entry stands when the segments stand at some places. -/
def entryPlaces (pi : PlanImage) (at0 : List (Option Nat)) : List (Option Nat) :=
  pi.entries.mapIdx fun i k =>
    let g := segmentOf k
    (at0.getD ((segments pi).idxOf g) none).map (· + 16 * (entriesOf pi g).idxOf i)

/-- The blocks whose records an epoch holds itself, with their places: none where it shares another's weights (R144). -/
def ownBlocks (p : Plan) (pi : PlanImage) (recs : List (List Byte)) (e : Epoch) : List (BlockHome × Nat) :=
  if e.shares.isSome then []
  else (recs.take pi.blocks.length).mapIdx fun b rec =>
    let x := blockHome p pi b
    (x, loadedBytes x rec)

/-- Where an epoch's records and tables stand (R134, R196, R268, R269, R393): the records in block order, then the table segments, each on its
stack; and the copies of what lies in the weight regions in the relief regions. -/
def placeEpoch (p : Plan) (pi : PlanImage) (recs : List (List Byte)) (e : Epoch) : Placed :=
  let bs := ownBlocks p pi recs e
  let near := (bs.filter fun b => !b.1.shed && !b.1.wide).map fun b => (b.1.stack, b.2)
  let segs := (segments pi).map fun g => (g.1, 16 * (entriesOf pi g).length)
  let fast := placeItems e.units (near ++ segs)
  let relief := placeItems e.relief ((near ++ segs).map fun i => (reliefStack i.1, i.2))
  let wide := placeItems e.wide ((bs.filter (·.1.wide)).map fun b => (b.1.stack, b.2))
  let homes := bs.map (·.1)
  { blocks := mergePlaces homes (fast.take near.length) wide (placeCold e.cold ((bs.filter (·.1.shed)).map (·.2)))
    entries := entryPlaces pi (fast.drop near.length)
    reliefBlocks := (mergePlaces homes (relief.take near.length) [] []).map (·.2)
    reliefEntries := entryPlaces pi (relief.drop near.length) }

/-- The epoch that holds the weights of an epoch: itself, or the one that it shares them with (R144). -/
def Ctl.weightsOf (c : Ctl) (e : Epoch) : Epoch := (e.shares.bind (c.epoch? e.image)).getD e

/-- The tier address of a block of an epoch. -/
def Ctl.blockPlace (c : Ctl) (image num b : Nat) : Option Nat :=
  (c.epoch? image num).bind fun e => ((c.weightsOf e).placed.blocks.getD b (false, none)).2

/-! ### What a load writes (R156, R192, R196-R198, R201, R269, R393) -/

/-- A record with its BASE field written (R192). -/
def withBase (rec : List Byte) (base : Nat) : List Byte := rec.take 8 ++ Bits.toLe base 8 ++ rec.drop 16

/-- What stands in its tier for block `b` of an image's epoch: the record as stored with BASE written, or its expansion, in the shed in the
layout of R149; none where the expansion fails. -/
def Ctl.loadedRecord (c : Ctl) (p : Plan) (e : Epoch) (i : Image) (pi : PlanImage) (b : Nat) : Option (List Byte) :=
  let rec0 := i.records.getD b []
  let x := blockHome p pi b
  let raw : Option (List Byte) :=
    if !isDelta rec0 then some rec0
    else
      match e.base with
      | none => some rec0
      | some (bi, bn) =>
        if x.expand then rawFrom rec0 (((c.image? bi).map fun y => y.records.getD b []).getD [])
        else some (withBase rec0 ((c.blockPlace bi bn b).getD 0))
  if x.shed then raw.map expandedFrom else raw

/-- A copy that an epoch keeps of a block or of a table segment: whether in the shed, whether in a relief region, its address, its bytes (none
where an expansion fails), its length, and the block. -/
structure Copy where
  shed : Bool
  relief : Bool
  addr : Nat
  bytes : Option (List Byte)
  len : Nat
  block : Option Nat
  deriving DecidableEq, Repr

/-- The copies of the blocks of an epoch, the relief ones or the others. -/
def Ctl.blockCopies (c : Ctl) (p : Plan) (pi : PlanImage) (i : Image) (e : Epoch) (relief : Bool) : List Copy :=
  (List.range e.placed.blocks.length).filterMap fun b =>
    let at0 : Bool × Option Nat := if relief then (false, e.placed.reliefBlocks.getD b none) else e.placed.blocks.getD b (false, none)
    at0.2.map fun a => ⟨at0.1, relief, a, c.loadedRecord p e i pi b, loadedBytes (blockHome p pi b) (i.records.getD b []), some b⟩

/-- The copies of the table segments of an epoch. -/
def segmentCopies (pi : PlanImage) (e : Epoch) (relief : Bool) : List Copy :=
  (segments pi).filterMap fun g =>
    let is := entriesOf pi g
    ((if relief then e.placed.reliefEntries else e.placed.entries).getD (is.headD 0) none).map fun a =>
      ⟨false, relief, a, some (is.flatMap fun i => (e.tables.drop (16 * i)).take 16), 16 * is.length, none⟩

/-- Every copy of an epoch, the relief ones or the others. -/
def Ctl.copiesOf (c : Ctl) (e : Epoch) (relief : Bool) : List Copy :=
  match c.image? e.image, c.plan? with
  | some i, some p =>
    match c.planImage i with
    | some pi => c.blockCopies p pi i e relief ++ segmentCopies pi e relief
    | none => []
  | _, _ => []

/-- Writes bytes at an address of a tier, zeros behind them to the end of their last 64-byte unit; where an expansion failed, poisoned bytes of
free contents (R193). The shed is written under key 0 (R172). -/
def Dp.putRecord (d : Dp) (dk : Nat) (shed : Bool) (addr : Nat) (bytes : Option (List Byte)) (n : Nat) : Dp :=
  let n := 64 * Bits.ceilDiv n 64
  let mark := bytes.isNone
  let bs := match bytes with
    | some bs => bs ++ List.replicate (n - bs.length) 0#8
    | none => freeBytes d.drawn n
  let d := if shed then d.shedWrite dk addr bs mark else d.write (fastKey addr) bs mark
  if mark then d.draw n else d

/-- Writes copies. -/
def Dp.putCopies (d : Dp) (dk : Nat) (l : List Copy) : Dp := l.foldl (fun d x => d.putRecord dk x.shed x.addr x.bytes x.len) d

/-- The entry of an epoch's block list that a template's item becomes (R197, R201): its ADDR is the block's place, under yard `k`'s relief set that of
the relief copy (R393). -/
def Ctl.relocated (c : Ctl) (e : Epoch) (k : Yard) (x : ListItem) : BlockEntry :=
  let w := (c.weightsOf e).placed
  let near := (w.blocks.getD x.block (false, none)).2
  let a := if c.hub.relief = some k then (w.reliefBlocks.getD x.block none).orElse fun _ => near else near
  { x.entry with addr := BitVec.ofNat 64 (a.getD 0) }

/-- Writes the block list of an epoch in a yard (R197). -/
def Ctl.putList (c : Ctl) (d : Dp) (e : Epoch) (k : Yard) : Dp :=
  let a := e.lists.getD k.val 0
  let items := c.listItems k e
  if a = 0 then d else d.putRecord 0 false a (some (items.flatMap fun x => entryToBytes (c.relocated e k x))) (16 * items.length)

/-- Writes the block lists of an epoch in every yard. -/
def Ctl.putLists (c : Ctl) (d : Dp) (e : Epoch) : Dp := (List.finRange 8).foldl (fun d k => c.putList d e k) d

/-- Writes an epoch's copies into the relief regions (R393, R397). -/
def loadRelief (c : Ctl) (d : Dp) (e : Epoch) : Dp := d.putCopies c.sec.deviceKey (c.copiesOf e true)

/-- Loads an epoch (R201 step 3): records, expansions, tables and block lists, and the relief copies under relief placement or while a relief set
runs. -/
def loadEpoch (c : Ctl) (d : Dp) (e : Epoch) : Dp :=
  let d := c.putLists (d.putCopies c.sec.deviceKey (c.copiesOf e false)) e
  if (c.plan?.map (·.reliefOn)).getD false || c.hub.relief.isSome then loadRelief c d e else d

/-! ### The block-list areas of the yards (R197) -/

/-- Bytes that an image's block list takes in a yard's area, whole 64-byte units. -/
def listBytes (pi : PlanImage) (k : Yard) : Nat := 64 * Bits.ceilDiv (16 * (pi.lists.filter (·.yard = k)).length) 64

/-- The lowest free span of a length in an area; address 0 is never given. -/
def freeSpan (base size need : Nat) (used : List (Nat × Nat)) : Option Nat :=
  let at0 := (used.mergeSort fun a b => a.1 ≤ b.1).foldl (fun at0 x => if at0 + need ≤ x.1 then at0 else Max.max at0 (x.1 + x.2)) (Max.max base 64)
  if at0 + need ≤ base + size then some at0 else none

/-- The block lists that stand now: address and bytes. -/
def Ctl.listSpans (c : Ctl) : List (Nat × Nat) :=
  c.objs.epochs.flatMap fun e => (List.finRange 8).filterMap fun k =>
    let a := e.lists.getD k.val 0
    if a = 0 then none else some (a, 64 * Bits.ceilDiv (16 * (c.listItems k e).length) 64)

/-- Room for an image's block list of a yard, in the area of the yard that runs its layers: 0 where there is nothing to place; none where the area
lacks it. -/
def Ctl.allocList (c : Ctl) (p : Plan) (pi : PlanImage) (k : Yard) (used : List (Nat × Nat)) : Option Nat :=
  let h := (c.home k).val
  if listBytes pi k = 0 then some 0 else freeSpan (p.listBase.getD h 0) (p.listBytes.getD h 0) (listBytes pi k) used

/-- Room for an image's block lists of every yard; none where an area lacks it. -/
def Ctl.allocLists (c : Ctl) (p : Plan) (pi : PlanImage) : Option (List Nat) :=
  ((List.finRange 8).foldl (fun (acc : Option (List Nat × List (Nat × Nat))) k =>
    acc.bind fun r => (c.allocList p pi k r.2).map fun a => (r.1 ++ [a], if a = 0 then r.2 else r.2 ++ [(a, listBytes pi k)]))
    (some ([], c.listSpans))).map (·.1)

/-- An epoch with the address of its block list in a yard. -/
def Epoch.withList (e : Epoch) (k : Yard) (a : Nat) : Epoch :=
  { e with lists := (List.range 8).map fun i => if i = k.val then a else e.lists.getD i 0 }

/-- Changes one epoch. -/
def Ctl.setEpoch (c : Ctl) (e : Epoch) : Ctl :=
  c.onObjs fun o => { o with epochs := o.epochs.map fun x => if x.image = e.image && x.num = e.num then e else x }

/-- Relocates the block lists of a yard anew (R48, R197, R394): into the area of the yard that runs its layers under the plan that is selected. An
epoch that the plan does not name, or for which the area has no room, has none. -/
def relistYard (c : Ctl) (d : Dp) (k : Yard) : Ctl × Dp :=
  let bare := c.onObjs fun o => { o with epochs := o.epochs.map fun e => e.withList k 0 }
  bare.objs.epochs.foldl (fun (acc : Ctl × Dp) e =>
    match acc.1.plan?, (acc.1.image? e.image).bind acc.1.planImage with
    | some p, some pi =>
      let e := e.withList k ((acc.1.allocList p pi k acc.1.listSpans).getD 0)
      let c := acc.1.setEpoch e
      (c, c.putList acc.2 e k)
    | _, _ => acc) (bare, d)

/-- Relocates every block list anew (R48). -/
def relistAll (c : Ctl) (d : Dp) : Ctl × Dp := (List.finRange 8).foldl (fun acc k => relistYard acc.1 acc.2 k) (c, d)

/-! ### IMAGE_ACTIVATE (R200-R204, R144) -/

/-- Whether an activation of a name is in progress (R200). -/
def Ctl.activating (c : Ctl) (i : Image) : Bool :=
  c.objs.jobs.any fun j => !j.over && match j.kind with
    | .activate image _ _ _ _ _ _ _ => match c.image? image with
      | some k => k.name = i.name && k.owner = i.owner
      | none => false
    | _ => false

/-- The newest epoch in service of an image (R200). -/
def Ctl.newestEpoch (c : Ctl) (image : Nat) : Option Epoch :=
  (c.objs.epochs.filter fun e => e.image = image && e.effect).foldl (fun acc e =>
    match acc with
    | some x => if x.num < e.num then some e else acc
    | none => some e) none

/-- Units an activation needs on each stack: the plan's footprint, or, tables-only, the tables' (R144, R196). -/
def unitsNeeded (pi : PlanImage) (tablesOnly : Bool) : List Nat :=
  let segs := (segments pi).map fun g => (g.1, 64 * Bits.ceilDiv (16 * (entriesOf pi g).length) 64)
  if tablesOnly then (List.range 16).map fun s => Bits.ceilDiv ((segs.filter (·.1 = s)).map (·.2)).sum unitBytes
  else pi.units

/-- Shed units that an epoch's cold records need. -/
def coldNeeded (p : Plan) (pi : PlanImage) (i : Image) (e : Epoch) : Nat :=
  Bits.ceilDiv (((ownBlocks p pi i.records e).filter (·.1.shed)).map fun b => 64 * Bits.ceilDiv b.2 64).sum 32768

/-- An epoch as step 1 of R201 leaves it: without a place yet. -/
def Ctl.newEpoch (c : Ctl) (i : Image) (tablesOnly : Bool) (base : Option (Nat × Nat)) (tables : List Byte) : Epoch :=
  { image := i.ix, num := i.lastEpoch + 1, base := base, units := [], relief := [], wide := [], cold := [], placed := {}, lists := [], effect := false
    current := false, tables := tables, slot := none
    shares := if tablesOnly then (c.newestEpoch i.ix).map (fun x => x.shares.getD x.num) else none, due := false }

/-- Space for an epoch (R196, R197, R268, R269, R393) in every region that it needs, with what stands where; none where some region lacks it. -/
def Ctl.allocEpoch (c : Ctl) (p : Plan) (i : Image) (pi : PlanImage) (tablesOnly : Bool) (e : Epoch) : Option (Epoch × Ctl) :=
  let es := c.objs.epochs
  let need := unitsNeeded pi tablesOnly
  match takeRegions need (es.flatMap (·.units)) id p.weightBase p.weightUnits,
    takeRegions need (es.flatMap (·.relief)) reliefStack p.reliefBase p.reliefUnits,
    takeRegions (if tablesOnly then [] else pi.wideUnits) (es.flatMap (·.wide)) id p.wideBase p.wideRegion,
    c.allocLists p pi, c.allocCold (coldNeeded p pi i e) with
  | some us, some rs, some ws, some ls, some (cold, d) =>
    let e := { e with units := us, relief := rs, wide := ws, lists := ls, cold := cold }
    some ({ e with placed := placeEpoch p pi i.records e }, d)
  | _, _, _, _, _ => none

/-- Step 2 of R201: the epoch's space. The job goes on, or waits with AWAIT_SPACE. -/
def Ctl.allocActivate (c : Ctl) (j : Job) (first : Bool) : Ctl :=
  match j.kind, c.plan? with
  | .activate image cutover tablesOnly _ base tables loaded ended, some p =>
    match c.image? image with
    | none => c
    | some i =>
      match c.planImage i with
      | none => c
      | some pi =>
        match c.allocEpoch p i pi tablesOnly (c.newEpoch i tablesOnly base tables) with
        | some (e, d) =>
          let d := d.onObjs fun o => { o with epochs := o.epochs ++ [e] }
          d.setJob { j with kind := .activate image cutover tablesOnly (some e.num) base tables loaded ended
                            st := if j.st = .waiting then .running else j.st, wait := 0 }
        | none =>
          let c := c.setJob { j with st := if j.st = .suspended then .suspended else .waiting, wait := 3, status := Status.awaitSpace }
          if first then c.interim j.cmd Status.awaitSpace j.ix else c
  | _, _ => c

/-- What ends an activation in step 1 of R201, or the base epoch that it holds and its tables. -/
def Ctl.activateStart (c : Ctl) (i : Image) (tablesOnly : Bool) (data : HostRead (List Byte)) :
    (Option (Nat × Nat) × List Byte) ⊕ BitVec 16 :=
  if !c.planNames i then .inr Status.permission
  else
    let set : List Byte ⊕ BitVec 16 :=
      if tablesOnly then
        match data with
        | .xlat => .inr Status.translation
        | .past => .inr Status.badParameter
        | .ok bs => .inl bs
      else .inl i.scales
    match set with
    | .inr st => .inr st
    | .inl bs =>
      if !scalesOk (c.entryKinds i.digest) bs then .inr Status.badParameter
      else if tablesOnly && (c.newestEpoch i.ix).isNone then .inr Status.badState
      else if i.variant then
        match i.base.bind c.newestEpoch with
        | some b => .inl (some (b.image, b.num), bs)
        | none => .inr Status.badState
      else .inl (none, bs)

/-- The packet of an IMAGE_ACTIVATE: without TABLES_ONLY its scale bytes are reserved (R10, R285). -/
def activatePkt (p : Pkt) (tablesOnly : Bool) (scales : RegionRef) (scaleLen : Nat) : Pkt :=
  { p with rsvd := p.rsvd || (!tablesOnly && (scales.handle ≠ 0#32 || scales.off ≠ 0 || scaleLen ≠ 0)) }

/-- IMAGE_ACTIVATE (R200, R201 steps 1 and 2). With TABLES_ONLY the tables are what it loads (R298). -/
def Ctl.imageActivate (c : Ctl) (p : Pkt) (cutover tablesOnly : Bool) (scales : RegionRef) (scaleLen : Nat)
    (data : HostRead (List Byte)) : Ctl :=
  let image (f : Fn) : Option Image := (f.object .image p.subject).bind c.image?
  c.packet (activatePkt p tablesOnly scales scaleLen) .any false (fun f =>
    [((image f).isSome && (!tablesOnly || f.regionLive scales), Status.badHandle),
      (!tablesOnly || f.regionOk scales (some scaleLen) false, Status.badParameter),
      ((image f).all fun i => i.st ≠ .damaged, Status.imageDamaged), ((image f).all fun i => i.st = .ready, Status.badState),
      ((image f).all fun i => !c.activating i, Status.queueFull)]) fun d f m =>
    match (f.object .image p.subject).bind d.image? with
    | none => d.finish m Status.badHandle 0#32 0
    | some i =>
      let r := d.acceptJob m 0x41 p.subject (.activate i.ix cutover tablesOnly none none [] false false)
        (if tablesOnly then scaleLen else i.stored) (if tablesOnly then [scales.handle] else []) false
      match r.2.bind fun ix => r.1.job? m.fn ix with
      | none => r.1
      | some j =>
        match r.1.activateStart i tablesOnly data with
        | .inr st => r.1.finishJob j st 0#32 0
        | .inl (base, tables) =>
          let j := { j with kind := JobKind.activate i.ix cutover tablesOnly none base tables false false }
          (r.1.setJob j).allocActivate j true

/-- IMAGE_ACTIVATE (R200, R201, R144). -/
def execImageActivate (p : Pkt) (cutover tablesOnly : Bool) (scales : RegionRef) (scaleLen : Nat) (data : HostRead (List Byte))
    (s : State) : Host.Outcome State Fault Refusal :=
  .next { s with ctl := s.ctl.imageActivate p cutover tablesOnly scales scaleLen data }

/-- AWAIT_SPACE_RESUME (R201): a waiting activation whose space is there goes on. -/
def Ctl.awaitSpaceResume (c : Ctl) (n : BitVec 8) (h : Handle) : Ctl :=
  match c.job? n (ixOf h) with
  | some j => if j.over || j.st ≠ .waiting || j.wait ≠ 3 then c else c.allocActivate j false
  | none => c

/-- AWAIT_SPACE_RESUME (R201). -/
def execAwaitSpaceResume (fn : BitVec 8) (job : Handle) (s : State) : Host.Outcome State Fault Refusal :=
  .next { s with ctl := s.ctl.awaitSpaceResume fn job }

/-- Frees what an activation that creates no epoch has loaded (R204). -/
def Ctl.dropActivate (c : Ctl) (j : Job) : Ctl :=
  match j.kind with
  | .activate image _ _ (some num) _ _ _ _ =>
    c.onObjs fun o => { o with epochs := o.epochs.filter fun e => !(e.image = image && e.num = num && !e.effect) }
  | _ => c

/-- Ends the activations of an image that loses its state (R204): DAMAGED or retired. -/
def Ctl.stopActivations (c : Ctl) (image : Nat) (status : BitVec 16) : Ctl :=
  (c.objs.jobs.filter fun j => !j.over && match j.kind with
    | .activate i _ _ _ _ _ _ _ => i = image
    | _ => false).foldl (fun c j => (c.dropActivate j).finishJob j status 0#32 0) c

/-! ### IMAGE_RETIRE (R181) -/

/-- IMAGE_RETIRE (R181): READY or DAMAGED becomes RETIRING; a base with variants is refused. -/
def Ctl.imageRetire (c : Ctl) (p : Pkt) : Ctl :=
  let image (f : Fn) : Option Image := (f.object .image p.subject).bind c.image?
  c.packet p .any false (fun f =>
    [((image f).isSome, Status.badHandle),
      ((image f).all fun i => !c.objs.images.any fun k => k.base = some i.ix, Status.badParameter),
      ((image f).all fun i => i.st = .ready || i.st = .damaged, Status.badState)]) fun d f m =>
    match (f.object .image p.subject).bind d.image? with
    | none => d.finish m Status.badHandle 0#32 0
    | some i => ((d.onImage i.ix fun k => { k with st := .retiring }).stopActivations i.ix Status.badState).finish m
        Status.success 0#32 0

/-- IMAGE_RETIRE (R181). -/
def execImageRetire (p : Pkt) (s : State) : Host.Outcome State Fault Refusal := .next { s with ctl := s.ctl.imageRetire p }

/-! ### Damaged weights (R206-R209) -/

/-- Latches the first restored block since COF_EVENT was last cleared and raises WEIGHT_RESTORED (R206 step 1). The register holds 41 bits of the
address. -/
def Ctl.latchRestore (c : Ctl) (cfg : Cfg) (image addr : Nat) : Ctl :=
  (c.onCof fun k => { k with restore := k.restore.orElse fun _ => some (image, addr % 2 ^ 41) }).raise cfg .cof 1#16

/-- Images that an unreadable block of an image damages (R209): itself and every variant with a delta block on that block. -/
def Ctl.damagedBy (c : Ctl) (image : Nat) (block : Option Nat) : List Image :=
  c.objs.images.filter fun i => i.ix = image || (i.base = some image && match block with
    | some b => isDelta (i.records.getD b [])
    | none => false)

/-- An image becomes DAMAGED (R209): its activations end; its sessions and launches end at the next bell. -/
def Ctl.damage (c : Ctl) (cfg : Cfg) (i : Image) : Ctl :=
  if i.st ≠ .ready && i.st ≠ .retiring then c
  else ((c.onImage i.ix fun k => { k with st := .damaged }).stopActivations i.ix Status.imageDamaged).raise cfg .cof 4#16

/-- The master copy of a block of an image cannot be read (R209). -/
def Ctl.damageBlock (c : Ctl) (cfg : Cfg) (image : Nat) (block : Option Nat) : Ctl :=
  (c.damagedBy image block).foldl (fun c i => c.damage cfg i) c

/-- EPOCH_LOADED (R201 step 3): the records stand in their tiers; the epoch takes effect at the next bell. A block whose master copy cannot be read
(`unread`) damages its image instead, which ends the job (R204, R209). -/
def execEpochLoaded (fn : BitVec 8) (l : LoadEnd) (s : State) : Host.Outcome State Fault Refusal :=
  match s.ctl.job? fn (ixOf l.job) with
  | none => .next s
  | some j =>
    match j.kind with
    | .activate image cutover tablesOnly (some num) base tables false ended =>
      match s.ctl.epoch? image num with
      | none => .next s
      | some e =>
        if j.over || j.st = .suspended then .next s
        else
          match l.unread with
          | some b => .next { s with ctl := s.ctl.damageBlock s.cfg image (some b) }
          | none =>
            .next { s with dp := loadEpoch s.ctl s.dp e
                           ctl := s.ctl.setJob { j with kind := .activate image cutover tablesOnly (some num) base tables true ended
                                                        progress := j.limit, moved := s.ctl.hub.tick } }
    | _ => .next s

/-- The copy of a block or a table segment of an image that stands at an address of a tier, with its epoch: the first that holds it. -/
def Ctl.weightAt (c : Ctl) (image : Nat) (shed : Bool) (addr : Nat) : Option (Epoch × Copy) :=
  (c.objs.epochs.filter (·.image = image)).findSome? fun e =>
    ((c.copiesOf e false ++ c.copiesOf e true).find? fun x => x.shed = shed && x.addr ≤ addr && addr < x.addr + 64 * Bits.ceilDiv x.len 64).map
      fun x => (e, x)

/-- Takes room for a block in a stack's retirement pool (R208); none where it is full. -/
def Ctl.poolTake (c : Ctl) (k : Yard) (stack n : Nat) : Option (Nat × Ctl) :=
  match c.plan? with
  | none => none
  | some p =>
    let size := p.poolUnits.getD stack 0 * unitBytes
    let at0 := Bits.ceilDiv (Sparse.get 0 (c.yd k).pools (stack % 2)) 64 * 64
    if size < at0 + n then none
    else some (stack * 2 ^ 37 + p.poolBase.getD stack 0 + at0,
      c.onYard k fun y => { y with pools := Sparse.set 0 y.pools (stack % 2) (at0 + n) })

/-- Rewrites a block in place or, where it fails again, into the retirement pool too (R206, R208): the block lists name its new place from the
next bell. -/
def restoreBlock (s : State) (k : Yard) (x : Copy) (again : Bool) : State :=
  let dk := s.ctl.sec.deviceKey
  let d := s.dp.putRecord dk x.shed x.addr x.bytes x.len
  if !again || x.shed || (s.ctl.yd k).moved.any (·.1 = x.addr) then { s with dp := d }
  else
    match s.ctl.poolTake k (stackOf x.addr) x.len with
    | some (dst, c) =>
      { s with dp := d.putRecord dk false dst x.bytes x.len
               ctl := (c.onYard k fun y => { y with moved := y.moved ++ [(x.addr, dst, x.len)] }).raise s.cfg .cof 2#16 }
    | none => { s with dp := d, ctl := s.ctl.raise s.cfg .cof 8#16 }

/-- Restores the block or the table segment at an address of a tier (R134, R206, R208). -/
def restoreWeight (s : State) (k : Yard) (shed : Bool) (addr image : Nat) : State :=
  let again := (s.ctl.yd k).restored.contains addr
  let s := { s with ctl := s.ctl.onYard k fun y => { y with restored := (addr :: y.restored).take 256 } }
  match s.ctl.weightAt image shed addr with
  | none => s
  | some (_, x) =>
    let s := restoreBlock s k x again
    { s with ctl := s.ctl.onYard k fun y => { y with damaged := y.damaged.filter fun a => !(x.addr ≤ a && a < x.addr + 64 * Bits.ceilDiv x.len 64) } }

/-- WEIGHT_RESTORE (R134, R206, R208, R209) of the block or table at an address of the fast tier or the shed. -/
def execWeightRestore (yard : Yard) (u : UnitAt) (image : Nat) (read : MasterRead) (s : State) : Host.Outcome State Fault Refusal :=
  if s.ctl.hub.halted then .next s
  else
    let s := { s with ctl := s.ctl.latchRestore s.cfg image u.addr }
    match read with
    | .ok => .next (restoreWeight s yard u.shed u.addr image)
    | .unreadable =>
      .next { s with ctl := s.ctl.damageBlock s.cfg image ((s.ctl.weightAt image u.shed u.addr).bind fun x => x.2.block) }

/-! ### Moves into a retirement pool, at a bell (R51 row 2, R208) -/

/-- An address with the moves of a yard made to it. -/
def movedTo (ms : List (Nat × Nat × Nat)) (a : Nat) : Nat :=
  match ms.find? fun m => m.1 ≤ a && a < m.1 + m.2.2 with
  | some m => m.2.1 + (a - m.1)
  | none => a

/-- Where an epoch stands once the moves of a yard are made. -/
def Placed.move (x : Placed) (ms : List (Nat × Nat × Nat)) : Placed :=
  { blocks := x.blocks.map fun b => (b.1, if b.1 then b.2 else b.2.map (movedTo ms)), entries := x.entries.map fun a => a.map (movedTo ms)
    reliefBlocks := x.reliefBlocks.map fun a => a.map (movedTo ms), reliefEntries := x.reliefEntries.map fun a => a.map (movedTo ms) }

/-- The patch of R51 row 2 (R208): every block-list entry that names a block which a yard has moved names its new place. -/
def patchMoved (s : State) (k : Yard) : State :=
  let ms := (s.ctl.yd k).moved
  if ms.isEmpty then s
  else
    let c := s.ctl.onObjs fun o => { o with epochs := o.epochs.map fun e => { e with placed := e.placed.move ms } }
    let c := c.onYard k fun y => { y with moved := [] }
    { s with dp := c.objs.epochs.foldl (fun d e => c.putLists d e) s.dp, ctl := c }

end Sys2Proof.Machine
end

