-- ==== Sys2Proof/Machine/Persist.lean ====
section
/-! DEFINITION. The persistent store (17): durable words, wear, spares, and host writes to its window. -/

namespace Sys2Proof.Machine

open Sys2Proof

/-- A word of the store; the factory leaves 0 where the model is told nothing else. -/
def Prs.word (p : Prs) (i : Nat) : Word := Sparse.get 0#32 p.words i

/-- Words from an index up. -/
def Prs.range (p : Prs) (i n : Nat) : List Word := (List.range n).map fun k => p.word (i + k)

/-- The writes that a word's location is rated for (R466). -/
def prsRating : Nat := 1000000

/-- Whether a word lies in the host area (R468). -/
def hostWord (i : Nat) : Bool := 0x2000 ≤ i && i < 0x3000

/-- Spare words left (PRS_STATUS.SPARES). -/
def Prs.spares (p : Prs) : Nat := 64 - (p.hostUsed + p.otherUsed)

/-- Whether a spare is left that a worn word may take (R466): 16 for the host area, 48 for the rest. -/
def Prs.spareFor (p : Prs) (i : Nat) : Bool := if hostWord i then p.hostUsed < 16 else p.otherUsed < 48

/-- A word moved to a spare with its new value (R466). -/
def Prs.remap (p : Prs) (i : Nat) (v : Word) : Prs :=
  { p with words := Sparse.set 0#32 p.words i v, wear := Sparse.set 0 p.wear i 1, onSpare := p.onSpare.add i
           hostUsed := if hostWord i then p.hostUsed + 1 else p.hostUsed
           otherUsed := if hostWord i then p.otherUsed else p.otherUsed + 1 }

/-- Latches the word of the first remap or refusal (PRS_LAST). -/
def Prs.latch (p : Prs) (refusal : Bool) (i : Nat) : Prs :=
  { p with last := p.last.orElse fun _ => some (refusal, i) }

/-- Writes a word durably (R465-R467): whether it is done, and the state after it. -/
def Ctl.persist (c : Ctl) (cfg : Cfg) (i : Nat) (v : Word) : Bool × Ctl :=
  if c.prs.word i = v then (true, c)
  else
    let w := Sparse.get 0 c.prs.wear i
    if w < prsRating then
      (true, c.onPrs fun p => { p with words := Sparse.set 0#32 p.words i v, wear := Sparse.set 0 p.wear i (w + 1) })
    else if c.prs.spareFor i then
      let c := c.onPrs fun p => (p.remap i v).latch false i
      (true, c.raise cfg .prs (if c.prs.spares ≤ 8 then 3#16 else 1#16))
    else (false, (c.onPrs fun p => p.latch true i).raise cfg .prs 4#16)

/-- Writes words durably from an index up. -/
def Ctl.persistAll (c : Ctl) (cfg : Cfg) (i : Nat) (ws : List Word) : Ctl :=
  ((ws.mapIdx fun k w => (i + k, w)).foldl (fun c x => (c.persist cfg x.1 x.2).2) c)

/-- What a host write to the window's word stores (R468, R10): none where the word is no host's to write. -/
def hostWritable (off : Nat) (v : Word) : Option Word :=
  if off = 0x100 then some (v &&& 1#32)
  else if 0x200 ≤ off && off < 0x240 then
    if off % 16 = 0 then some (v &&& 0xFFFF0001#32) else if off % 16 = 12 then none else some v
  else if 0x8000 ≤ off && off < 0xC000 then some v
  else none

/-- A host write to the persistent window (R465-R469). -/
def Ctl.persistHost (c : Ctl) (cfg : Cfg) (off : Nat) (v : Word) : Ctl :=
  if off % 4 ≠ 0 then c
  else match hostWritable off v with
  | none => c
  | some w =>
    let r := c.persist cfg (off / 4) w
    r.2.onPrs fun p => { p with refused := !r.1 }

/-- Whether a function reaches the management function's BAR0 now (R464, R471). -/
def Ctl.mgmtAccess (c : Ctl) (n : BitVec 8) : Bool := c.isMgmt n && (c.fn? n).isSome && c.sec.st = .running

/-- PERSISTENT_WRITE (R465-R469): a write at an offset of the PRS window. -/
def execPersistentWrite (fn : BitVec 8) (off : Nat) (value : Word) (s : State) : Host.Outcome State Fault Refusal :=
  if s.ctl.mgmtAccess fn then .next { s with ctl := s.ctl.persistHost s.cfg off value } else .next s

end Sys2Proof.Machine
end

