-- ==== Sys2Proof/Machine/Ledger.lean ====
section
/-! DEFINITION. The energy ledger (12): closing an interval, apportionment, tallies, folios, the reservation of numbers, and
retrieval. -/

namespace Sys2Proof.Machine

open Sys2Proof

/-! ### Apportionment (R340) -/

/-- Which sinks get one of the µJ left after the floors: the largest remainders first, ties to the lower sink. -/
def extraSinks (rems : List Nat) (left : Nat) : List Nat :=
  (((rems.mapIdx fun i r => (i, r)).mergeSort fun a b => b.2 < a.2 || (a.2 = b.2 && a.1 ≤ b.1)).take left).map (·.1)

/-- Divides `w` µJ among sinks by integer weights, exactly (R340); equal weights where all are zero. -/
def apportion (w : Nat) (weights : List Nat) : List Nat :=
  let xs := if weights.sum = 0 then weights.map fun _ => 1 else weights
  let total := xs.sum
  let floors := xs.map fun x => w * x / total
  let extra := extraSinks (xs.map fun x => w * x % total) (w - floors.sum)
  floors.mapIdx fun i f => if extra.contains i then f + 1 else f

/-- The unit in which direct energy is held exactly: 2^−149 pJ, as µJ. -/
def directUnit : Nat := 2 ^ 149 * 1000000

/-- A coefficient in units of 2^−149 pJ (LDG_COEFn); a negative or non-finite one counts nothing. -/
def coefUnits (w : Word) : Nat :=
  let e := Bits.field w 30 23
  let f := Bits.field w 22 0
  if w.getLsbD 31 || e = 255 then 0 else if e = 0 then f else (2 ^ 23 + f) <<< (e - 1)

/-- Direct energy of a stall in `directUnit`ths of a µJ: Σ coefficient × units (R339). -/
def directOf (coefs : List Word) (us : List (Nat × Nat)) (stall : Nat) : Nat :=
  ((us.filter fun u => u.1 / 13 % 65536 = stall).map fun u => coefUnits (coefs.getD (u.1 % 13) 0#32) * u.2).sum

/-- The weights x_s of a yard's stalls in units of 2^−24 µJ, each term rounded down (R339, R340). -/
def stallWeights (y : Nat) (direct tokens : List Nat) : List Nat :=
  let d := direct.sum
  let ys := y * directUnit
  let shared := ys - Min.min d ys
  let t := tokens.sum
  direct.zipWith (fun a n =>
    (if d = 0 then 0 else a * Min.min d ys * 2 ^ 24 / (d * directUnit)) +
      (if t = 0 then shared * 2 ^ 24 / (direct.length * directUnit) else shared * n * 2 ^ 24 / (t * directUnit))) tokens

/-! ### Accounts (R341, R345) -/

/-- How an interval ends: with its tick, without one (or at a warm reset, R491), or with a hang. -/
inductive CloseKind where
  | tick
  | idle
  | hang
  deriving DecidableEq, Repr

/-- Adds to a house account of the open folio. -/
def Ctl.addHouse (c : Ctl) (kind : Nat) (n : BitVec 8) (e : Nat) (tick : Option Nat) : Ctl :=
  if e = 0 then c
  else c.onLdg fun l =>
    let hs := l.folio.house
    let add (h : House) : House :=
      if h.kind = kind && h.fn = n then
        { h with energy := h.energy + e, first := h.first.orElse fun _ => tick, last := tick.orElse fun _ => h.last } else h
    let hs := if hs.any fun h => h.kind = kind && h.fn = n then hs.map add else hs ++ [⟨kind, n, e, tick, tick⟩]
    { l with folio := { l.folio with house := hs } }

/-- The house kinds of R343. -/
def houseIdle : Nat := 1

/-- See `houseIdle`. -/
def houseFault : Nat := 2

/-- See `houseIdle`. -/
def houseStruck : Nat := 3

/-- Gives energy to a stall's request, where its tally is still to be written; none otherwise. -/
def Ctl.chargeRequest (c : Ctl) (st : Stall) (e tick : Nat) : Option Ctl :=
  let spend (c : Ctl) : Ctl := c.onFn st.fn fun f => { f with periodEnergy := f.periodEnergy + e }
  match st.work with
  | .forward _ | .backward _ =>
    let pay (t : TuneStep) : TuneStep :=
      if t.cmd.order = st.request then
        { t with energy := t.energy + e, firstTick := if e = 0 then t.firstTick else t.firstTick.orElse fun _ => some tick
                 lastTick := if e = 0 then t.lastTick else some tick } else t
    if c.objs.runs.any fun r => r.fn = st.fn && r.steps.any fun t => t.cmd.order = st.request then
      some (spend (c.onObjs fun o => { o with runs := o.runs.map fun r => if r.fn = st.fn then { r with steps := r.steps.map pay } else r }))
    else none
  | _ =>
    match c.jobByOrder st.request with
    | some j =>
      if j.isRequest && j.st ≠ .ended then
        some (spend (c.setJob { j with energy := j.energy + e
                                       firstTick := if e = 0 then j.firstTick else j.firstTick.orElse fun _ => some tick
                                       lastTick := if e = 0 then j.lastTick else some tick }))
      else none
    | none => none

/-- Gives a stall's energy of a yard to its account (R341): the first row that applies. -/
def Ctl.account (c : Ctl) (k : Yard) (st : Stall) (e : Nat) : Ctl :=
  let done := st.committed.contains k.val
  if (!done && !st.struck) || (st.replay && st.firstRun.contains k.val) then c.addHouse houseFault c.mgmt e (some c.hub.tick)
  else match c.chargeRequest st e c.hub.tick with
    | some d => d
    | none => c.addHouse houseStruck st.fn e (some c.hub.tick)

/-- The stalls of a yard in the tick (R339). -/
def Ctl.yardStalls (c : Ctl) (k : Yard) : List Stall := ((c.microIn k).map (·.stalls)).getD []

/-- The layer ranges that a yard runs (R35, R339): its own, none where a relief set runs for it, and beside its own that of the lost
yard whose relief yard it is. -/
def Ctl.rangesOf (c : Ctl) (k : Yard) : List Yard :=
  (List.finRange 8).filter fun j => c.home j = k

/-- The stalls that a yard runs in the tick (R339), each with its range and the direct energy that its range's reports give it. -/
def Ctl.yardWork (c : Ctl) (k : Yard) : List (Yard × Stall × Nat) :=
  let coefs := c.prs.range 0x300 16
  (c.rangesOf k).flatMap fun j =>
    (((c.yardStalls j).mapIdx fun i st => (j, st, directOf coefs (c.yd j).reports.units i)).filter fun x => x.2.1.runsIn j.val)

/-- Divides a yard's share among its sinks (R338 stage 3, R339, R341). -/
def Ctl.closeYard (c : Ctl) (cfg : Cfg) (kind : CloseKind) (k : Yard) (y : Nat) : Ctl :=
  let work := c.yardWork k
  match kind with
  | .hang => c.addHouse houseFault c.mgmt y (some c.hub.tick)
  | .idle => c.addHouse houseIdle c.mgmt y none
  | .tick =>
    if work.isEmpty then c.addHouse houseIdle c.mgmt y (some c.hub.tick)
    else
      let direct := work.map (·.2.2)
      let c := if y * directUnit < direct.sum then c.raise cfg .ldg 16#16 else c
      let es := apportion y (stallWeights y direct (work.map (·.2.1.count)))
      (work.zip es).foldl (fun c x => c.account x.1.1 x.1.2.1 x.2) c

/-! ### Sealing (R345-R351) -/

/-- The 48 bytes of a tally at a leaf of a folio (R343). -/
def tallyBytes (folio leaf : Nat) (t : Tally) : List Byte :=
  Bits.toLe (folio * 65536 + leaf) 6 ++ [BitVec.ofNat 8 t.kind, t.fn] ++ Bits.toLe t.subject.toNat 4 ++ Bits.toLe t.tag.toNat 2 ++
    Bits.toLe t.status.toNat 2 ++ Bits.toLe t.energy 8 ++ Bits.toLe t.tokensIn 4 ++ Bits.toLe t.tokensOut 4 ++
    Bits.toLe t.first 5 ++ Bits.toLe t.last 5 ++ [BitVec.ofNat 8 t.opcode, BitVec.ofNat 8 (t.queue % 4)] ++ Bits.toLe 0 4

/-- One level of the Merkle tree (R348): an unpaired last node is carried up. -/
def merkleUp : List Digest → List Digest
  | a :: b :: t => sha384 (1#8 :: (digestBytes a ++ digestBytes b)) :: merkleUp t
  | l => l

/-- The root over some levels. -/
def merkleTop : Nat → List Digest → Digest
  | 0, l => l.headD 0#384
  | n + 1, l => if l.length ≤ 1 then l.headD 0#384 else merkleTop n (merkleUp l)

/-- The Merkle root of tallies (R348). -/
def merkleRoot (leaves : List (List Byte)) : Digest :=
  if leaves.isEmpty then sha384 [2#8] else merkleTop 17 (leaves.map fun t => sha384 (0#8 :: t))

/-- Most request tallies of a folio (R345). -/
def maxLeaves : Nat := 65278

/-- The µJ given to requests whose tallies are not yet written (R349). -/
def Ctl.owed (c : Ctl) : Nat :=
  ((c.objs.jobs.filter fun j => j.isRequest && j.st ≠ .ended).map (·.energy)).sum +
    ((c.objs.runs.flatMap (·.steps)).map (·.energy)).sum + (c.ldg.unsigned.map (·.energy)).sum + (c.ldg.abandoned.map (·.2.energy)).sum

/-- CARRY_OUT (R349). -/
def Ctl.carryNow (c : Ctl) : Nat := c.ldg.residue + 1000 * c.owed

/-- The house tallies of a folio in their order (R345): IDLE, FAULT, then STRUCK by function. -/
def houseTallies (tick : Nat) (hs : List House) : List Tally :=
  ((hs.filter fun h => h.energy ≠ 0).mergeSort fun a b => a.kind < b.kind || (a.kind = b.kind && a.fn.toNat ≤ b.fn.toNat)).map fun h =>
    { kind := h.kind, fn := h.fn, subject := 0#32, tag := 0#16, status := 0#16, energy := h.energy, tokensIn := 0, tokensOut := 0
      first := h.first.getD tick, last := h.last.getD tick, opcode := 0, queue := 0 }

/-- The identity part of a folio's header block, bytes 0x00 to 0x1F (R347). `flags` are FULL, RESET and HANG. -/
def Folio.identBytes (f : Folio) (start flags leaves : Nat) : List Byte :=
  let fl := (if f.restart then 1 else 0) + (if f.power then 2 else 0) + flags + (if f.periodChanged then 32 else 0)
  Bits.toLe 0x4F57464F 4 ++ Bits.toLe 1 2 ++ Bits.toLe fl 2 ++ Bits.toLe f.number 4 ++ Bits.toLe start 4 ++
    Bits.toLe (if f.restart then f.prior else 0) 4 ++ Bits.toLe leaves 4 ++ Bits.toLe f.period 4 ++ Bits.toLe 0 4

/-- The ticks, times and energies of a folio's header block (R347). -/
def Ctl.folioAmounts (c : Ctl) (attributed : Nat) : List Byte :=
  let f := c.ldg.folio
  Bits.toLe f.tickFirst 8 ++ Bits.toLe (f.tickLast.getD (f.tickFirst - 1)) 8 ++ Bits.toLe f.timeOpen 8 ++
    Bits.toLe c.ldg.time 8 ++ Bits.toLe f.metered 8 ++ Bits.toLe f.carryIn 8 ++ Bits.toLe c.carryNow 8 ++
    Bits.toLe attributed 8

/-- Bytes 0x000 to 0x13F of a folio's header block (R347). -/
def Ctl.folioHeader (c : Ctl) (flags : Nat) (leaves : List (List Byte)) (attributed : Nat) : List Byte :=
  let cal := wordBytes (c.prs.range 0x200 256 ++ c.prs.range 0x300 16)
  c.ldg.folio.identBytes c.ldg.start flags leaves.length ++ c.folioAmounts attributed ++ digestBytes (merkleRoot leaves) ++
    digestBytes deviceId ++ digestBytes ledgerKeyId ++ digestBytes (sha384 cal) ++ List.replicate 32 0#8

/-- The word number of the ledger's reservation word (R468). -/
def ledgerWord : Nat := 0x100

/-- The ledger stops (R353 step 1). -/
def Ctl.stopLedger (c : Ctl) (cfg : Cfg) : Ctl :=
  (c.onLdg fun l => { l with stopped := true, ready := false }).raise cfg .ldg 32#16

/-- Reserves the block of the open folio's number where it is the first of an unreserved block (R350). -/
def Ctl.reserveBlock (c : Ctl) (cfg : Cfg) : Ctl :=
  let b := c.ldg.folio.number / 4096
  if b ≤ (c.prs.word ledgerWord).toNat then c
  else
    let r := c.persist cfg ledgerWord (BitVec.ofNat 32 b)
    if r.1 then r.2 else r.2.stopLedger cfg

/-- Seals the open folio and opens the next one (R346); a stopped ledger's folio stays open (R353). -/
def Ctl.seal (c : Ctl) (cfg : Cfg) (flags : Nat) : Ctl :=
  if c.ldg.stopped then c
  else
    let c := c.reserveBlock cfg
    if c.ldg.stopped then c
    else
      let f := c.ldg.folio
      let house := houseTallies c.hub.tick f.house
      let all := f.tallies ++ house
      let leaves := all.mapIdx fun i t => tallyBytes f.number i t
      let sum := (all.map (·.energy)).sum
      let entry : Sealed :=
        { number := f.number, header := c.folioHeader flags leaves sum, tallies := leaves, ecdsa := [], hss := [], ready := false }
      let next : Folio :=
        { number := f.number + 1, restart := false, power := false, periodChanged := f.period ≠ c.ldg.period, prior := 0
          tallies := [], tickFirst := (f.tickLast.map (· + 1)).getD f.tickFirst, tickLast := none, timeOpen := c.ldg.time, metered := 0
          carryIn := c.carryNow, period := c.ldg.period, house := [] }
      c.onLdg fun l =>
        { l with sealedFolios := l.sealedFolios ++ [entry], folio := next
                 attributed := sat64 l.attributed (house.map (·.energy)).sum }

/-- Writes a request's tally (R342, R343): its place for the completion record, none where it is not placed (R353). -/
def Ctl.writeTally (c : Ctl) (cfg : Cfg) (t : Tally) : Option (Nat × Nat × Nat) × Ctl :=
  let lost := t.status = Status.abandoned || t.status = Status.queueReset
  let c := c.onFn t.fn fun f =>
    { f with tallies := sat64 f.tallies 1, tallyEnergy := sat64 f.tallyEnergy t.energy, tokensIn := sat64 f.tokensIn t.tokensIn
             tokensOut := sat64 f.tokensOut t.tokensOut, abandoned := if lost then sat64 f.abandoned 1 else f.abandoned }
  let c := if maxLeaves ≤ c.ldg.folio.tallies.length then c.seal cfg 4 else c
  if maxLeaves ≤ c.ldg.folio.tallies.length then (none, c.onLdg fun l => { l with unsigned := l.unsigned ++ [t] })
  else
    let f := c.ldg.folio
    (some (f.number * 65536 + f.tallies.length, f.number, t.energy),
      c.onLdg fun l => { l with folio := { f with tallies := f.tallies ++ [t] }, attributed := sat64 l.attributed t.energy })

/-- The tally of a job's request (R343). -/
def Job.tally (j : Job) (status : BitVec 16) (tick : Nat) : Tally :=
  { kind := 0, fn := j.cmd.fn, subject := j.subject, tag := j.cmd.tag, status := status, energy := j.energy, tokensIn := j.tokensIn
    tokensOut := j.tokensOut, first := j.firstTick.getD tick, last := j.lastTick.getD tick, opcode := j.opcode
    queue := j.cmd.q.val }

/-- The tally of a TUNE_STEP (R343). -/
def TuneStep.tally (t : TuneStep) (status : BitVec 16) (tokensIn tick : Nat) : Tally :=
  { kind := 0, fn := t.cmd.fn, subject := t.subject, tag := t.cmd.tag, status := status, energy := t.energy, tokensIn := tokensIn
    tokensOut := 0, first := t.firstTick.getD tick, last := t.lastTick.getD tick, opcode := 0x51, queue := t.cmd.q.val }

/-- How many period boundaries meter time has passed, at most `n`, with a new length in force from the first (R346). -/
def Ldg.turn (l : Ldg) : Nat → Ldg
  | 0 => l
  | n + 1 =>
    if l.periodStart + l.period * 1000 ≤ l.time then
      ({ l with periodStart := l.periodStart + l.period * 1000, period := l.nextPeriod }).turn n
    else l

/-- What the meter's samples of an interval show in PWR_STATUS and PWR_INPUT: the averages over its last ms, and over 1,000 ms. -/
def Ctl.meterSeen (c : Ctl) (m : Interval) : Ctl :=
  let cal := c.prs.range 0x200 256
  let last := m.samples.drop (m.samples.length - 1000)
  if last.isEmpty then c.onPwr fun p => { p with pavg := m.pavg }
  else
    let r := Config.meterReading cal (last.map fun x => (x.volt, x.amp))
    let e := (last.map fun x => Config.sampleEnergy cal x.volt x.amp).sum
    c.onPwr fun p => { p with vin := r.1, iin := r.2, pin := e / (1000 * last.length), pavg := m.pavg }

/-- A yard's rail energy in nJ, and the power of its last completed telemetry window (R336): the window still open is charged at that power. -/
def railEnergy (last : Nat) (ps : List RailPart) : Nat × Nat :=
  ps.foldl (fun acc p => let w := p.power.getD acc.2; (acc.1 + w * p.us, w)) (0, last)

/-- Closes an accounting interval (R338): its energy divided among yards and sinks, the LDG_INTERVAL record, and the carry. -/
def Ctl.closeInterval (c : Ctl) (cfg : Cfg) (kind : CloseKind) (m : Interval) : Ctl :=
  let cal := c.prs.range 0x200 256
  let energy := (m.samples.map fun x => Config.sampleEnergy cal x.volt x.amp).sum + c.ldg.early
  let a := energy + c.ldg.residue
  let w := a / 1000
  let covers := c.fe.ticking && !(c.hub.halted && kind = .idle)
  let c := c.onLdg fun l =>
    { l with time := l.time + m.samples.length, metered := sat64 l.metered energy, residue := a % 1000, early := 0
             folio := { l.folio with metered := l.folio.metered + energy
                                     tickLast := if covers then some c.hub.tick else l.folio.tickLast
                                     tickFirst := if covers && l.folio.tickLast.isNone then c.hub.tick else l.folio.tickFirst } }
  let rails := (List.range 8).map fun k => railEnergy (c.ldg.railLast.getD k 0) (m.rails.getD k [])
  let c := c.onLdg fun l => { l with railLast := rails.map (·.2) }
  let ys := apportion w (rails.map (·.1))
  let c := (List.finRange 8).foldl (fun c k => c.closeYard cfg kind k (ys.getD k.val 0)) c
  let c := c.journal cfg 9 0x8FFF 0 0 (Bits.toLe energy 8 ++ Bits.toLe c.ldg.residue 8 ++
    (List.range 8).flatMap fun k => Bits.toLe (ys.getD k 0) 8)
  (c.onLdg fun l => { l with carry := Min.min c.carryNow (2 ^ 64 - 1) }).meterSeen m

/-- A period boundary at or before this close seals the folio and begins a new period for the caps (R346, R325). -/
def Ctl.turnPeriod (c : Ctl) (cfg : Cfg) : Ctl :=
  let l := c.ldg.turn (c.ldg.time / 250000 + 1)
  if l.periodStart = c.ldg.periodStart then c
  else
    let c := { c with ldg := l }
    let clear (f : Fn) : Fn := { f with periodTokens := 0, periodEnergy := 0, seenTokens := 0, seenEnergy := 0, tokenCapped := false, energyCapped := false }
    ({ c with fns := c.fns.map clear }).seal cfg 0

/-- Samples that come in before the ledger of a start is open (R491): after a warm reset they wait for its first interval. -/
def Ctl.meterEarly (c : Ctl) (m : Interval) : Ctl :=
  if c.ldg.warm then
    let cal := c.prs.range 0x200 256
    c.onLdg fun l =>
      { l with early := l.early + (m.samples.map fun x => Config.sampleEnergy cal x.volt x.amp).sum, time := l.time + m.samples.length }
  else c

/-- A start of the ledger (R351): the next block is reserved, or the ledger stops (R353). After a warm reset the residue is kept. -/
def Ctl.startLedger (c : Ctl) (cfg : Cfg) : Ctl :=
  let prior := (c.prs.word ledgerWord).toNat
  let r := c.persist cfg ledgerWord (BitVec.ofNat 32 (prior + 1))
  let folio : Folio :=
    { number := 4096 * (prior + 1), restart := true, power := !c.ldg.warm, prior := prior, carryIn := c.ldg.residue }
  let c := r.2.onLdg fun l => { l with ready := true, stopped := false, start := prior + 1, folio := folio, opening := true }
  if r.1 then c else c.stopLedger cfg

/-! ### Signing and retrieval (R350, R354, R355) -/

/-- Bytes of a folio. -/
def Sealed.size (f : Sealed) : Nat := 4096 + 48 * f.tallies.length

/-- The folio store's size (R354). -/
def folioStore : Nat := 2000000000

/-- Whether the host has not fetched a folio (LDG_FETCHED). -/
def Sealed.unfetched (f : Sealed) (cfg : Cfg) : Bool := cfg.fetched < f.number

/-- Overwrites the oldest folios while the store is over full: how many unfetched ones went. -/
def evictFolios (cfg : Cfg) : Nat → List Sealed → Bool × List Sealed
  | 0, l => (false, l)
  | n + 1, l =>
    match l with
    | [] => (false, l)
    | f :: t =>
      if folioStore < (l.map Sealed.size).sum then
        let r := evictFolios cfg n t
        (r.1 || f.unfetched cfg, r.2)
      else (false, l)

/-- A folio is signed and becomes retrievable (R350, R354). -/
def Ctl.signFolio (c : Ctl) (cfg : Cfg) (n : Nat) : Ctl :=
  match c.ldg.sealedFolios.find? fun f => f.number = n && !f.ready with
  | none => c
  | some f =>
    let g := { f with ready := true, ecdsa := Config.ledgerEcdsaSign (sha384 f.header), hss := Config.ledgerHssSign n f.header }
    let l := c.ldg.sealedFolios.map fun x => if x.number = n then g else x
    let ev := evictFolios cfg l.length l
    let ready := ev.2.filter (·.ready)
    let held := ((ready.filter fun x => x.unfetched cfg).map Sealed.size).sum
    let high := 3 * folioStore ≤ 4 * held
    let bits := 1#16 ||| (if high && !c.ldg.high then 2#16 else 0#16) ||| (if ev.1 then 4#16 else 0#16)
    (c.onLdg fun x =>
      { x with sealedFolios := ev.2, anySealed := true, high := high, newest := (ready.map (·.number)).foldl Max.max 0
               oldest := ((ready.head?).map (·.number)).getD n }).raise cfg .ldg bits

/-- FOLIO_SEALED (R350, R354). -/
def execFolioSealed (folio : Nat) (s : State) : Host.Outcome State Fault Refusal :=
  .next { s with ctl := s.ctl.signFolio s.cfg folio }

/-- The 4,096 bytes of a header block (R347). -/
def Sealed.headerBlock (f : Sealed) : List Byte :=
  let fit (bs : List Byte) (n : Nat) : List Byte := bs.take n ++ List.replicate (n - bs.length) 0#8
  fit f.header 0x140 ++ fit f.ecdsa 96 ++ fit f.hss 3604 ++ List.replicate 76 0#8

/-- What FOLIO_GET writes (R355). -/
def Ctl.folioBytes (c : Ctl) (n length : Nat) : Option (List Byte) :=
  (c.ldg.sealedFolios.find? fun f => f.number = n && f.ready).bind fun f =>
    if length < 4096 then none
    else if f.size ≤ length then some (f.headerBlock ++ f.tallies.flatten) else some f.headerBlock

/-- FOLIO_GET (R355). -/
def Ctl.folioGet (c : Ctl) (p : Pkt) (folio : Nat) (result : RegionRef) (length : Nat) (write : HostRead Unit) : Ctl :=
  c.packet p .management true (fun f =>
    [(f.regionLive result, Status.badHandle),
      (f.regionOk result none true && (c.folioBytes folio length).isSome, Status.badParameter)]) fun d f m =>
    d.resultWrite f m result ((d.folioBytes folio length).getD []) write 0#32

/-- FOLIO_GET (R355). -/
def execFolioGet (p : Pkt) (folio : Nat) (result : RegionRef) (length : Nat) (write : HostRead Unit) (s : State) :
    Host.Outcome State Fault Refusal :=
  .next { s with ctl := s.ctl.folioGet p folio result length write }

/-- LEDGER_CONFIG (R346): a new folio period from the next period boundary. -/
def Ctl.ledgerConfig (c : Ctl) (p : Pkt) (period : Nat) : Ctl :=
  c.packet p .management true (fun _ => [(250 ≤ period && period ≤ 60000, Status.badParameter)]) fun d _ m =>
    (d.onLdg fun l => { l with nextPeriod := period }).finish m Status.success 0#32 0

/-- LEDGER_CONFIG (R346). -/
def execLedgerConfig (p : Pkt) (period : Nat) (s : State) : Host.Outcome State Fault Refusal :=
  .next { s with ctl := s.ctl.ledgerConfig p period }

/-- METER_FAULT (LDG_STATUS, LDG_EVENT): the converter's fault, raised as it rises. -/
def execMeterFault (now : Bool) (s : State) : Host.Outcome State Fault Refusal :=
  let c := s.ctl.onLdg fun l => { l with meterFault := now }
  .next { s with ctl := if now && !s.ctl.ldg.meterFault then c.raise s.cfg .ldg 8#16 else c }

end Sys2Proof.Machine
end

