-- ==== Sys2Proof/Machine/Graphs.lean ====
section
/-! DEFINITION. Graphs (10): storing, patching, launching and dropping. -/

namespace Sys2Proof.Machine

open Sys2Proof

/-- The most bytes of a graph region (R285): 256 MiB. -/
def maxGraph : Nat := 2 ^ 28

/-- A graph of a function by handle; a dropped one is no longer found (R296). -/
def Ctl.graphAt (c : Ctl) (f : Fn) (h : Handle) : Option Graph :=
  (f.object .graph h).bind fun ix => c.objs.graphs.find? fun g => g.fn = f.num && g.ix = ix && !g.dropped

/-- Whether a plan of a name is loaded and not replaced (R48, R296). -/
def Ctl.planLoaded (c : Ctl) (name : BitVec 128) : Bool := c.objs.plans.any fun l => l.plan.name = name && !l.replaced

/-- The checks of a stored version (R369, R296): its signatures, then its plan. -/
def Ctl.graphFails (c : Ctl) (data : HostRead (Option GraphBody)) : GraphBody ⊕ BitVec 16 :=
  match data with
  | .xlat => .inr Status.translation
  | .past => .inr Status.badParameter
  | .ok none => .inr Status.permission
  | .ok (some b) =>
    if !c.signed 1 b.body b.sig then .inr Status.permission
    else if !c.planLoaded b.plan then .inr Status.badParameter
    else .inl b

/-- The parameter check of a graph region. -/
def Fn.graphRegionOk (f : Fn) (r : RegionRef) (length : Nat) : Bool := length ≤ maxGraph && f.regionOk r (some length) false

/-- GRAPH_STORE (R296). -/
def Ctl.graphStore (c : Ctl) (p : Pkt) (region : RegionRef) (length : Nat) (data : HostRead (Option GraphBody)) : Ctl :=
  c.packet p .any true (fun f =>
    [(f.regionLive region, Status.badHandle), (f.graphRegionOk region length, Status.badParameter)]) fun d f m =>
    match d.graphFails data with
    | .inr st => d.finish m st 0#32 0
    | .inl b =>
      match f.issueSelf .graph with
      | none => d.finish m Status.noSpace 0#32 0
      | some (ix, g) =>
        let gr : Graph := ⟨f.num, ix, [⟨1, b, 0⟩], false⟩
        ((d.onFn f.num fun _ => g).onObjs fun o => { o with graphs := o.graphs ++ [gr] }).finish m Status.success
          (handleOf .graph ix) 0

/-- GRAPH_STORE (R296, R369). -/
def execGraphStore (p : Pkt) (region : RegionRef) (length : Nat) (data : HostRead (Option GraphBody)) (s : State) :
    Host.Outcome State Fault Refusal :=
  .next { s with ctl := s.ctl.graphStore p region length data }

/-- Replaces a graph. -/
def Ctl.setGraph (c : Ctl) (g : Graph) : Ctl :=
  c.onObjs fun o => { o with graphs := o.graphs.map fun x => if x.fn = g.fn && x.ix = g.ix then g else x }

/-- The latest version of a graph. -/
def Graph.latest (g : Graph) : Option GraphVer := g.versions.getLast?

/-- Frees versions that a later one replaces and that no launch uses, and dropped graphs without launches (R296). -/
def Ctl.sweepGraphs (c : Ctl) : Ctl :=
  let keep (g : Graph) : Graph :=
    { g with versions := g.versions.filter fun v => v.launches ≠ 0 || (g.latest.map (·.version)) = some v.version }
  let waits (g : Graph) : Bool := c.objs.jobs.any fun j => j.cmd.fn = g.fn && j.st ≠ .ended && match j.kind with
    | .launch x 0 _ _ _ _ _ => x = g.ix
    | _ => false
  let gone := c.objs.graphs.filter fun g => g.dropped && g.versions.all (·.launches = 0) && !waits g
  gone.foldl (fun c g =>
    (c.onObjs fun o => { o with graphs := o.graphs.filter fun x => !(x.fn = g.fn && x.ix = g.ix) }).freeHandle g.fn g.ix)
    (c.onObjs fun o => { o with graphs := o.graphs.map keep })

/-- A version's body with a patch made to it (R296). -/
def patchedBody (b : GraphBody) (x : GraphPatch) : GraphBody :=
  { plan := x.plan.getD b.plan, images := x.images.getD b.images, tokens := x.tokens.getD b.tokens, positions := x.positions.getD b.positions
    exports := x.exports.getD b.exports, body := x.body, sig := x.sig }

/-- The body that a patch read from host memory makes of a graph's latest version. -/
def Graph.patchedBy (g : Graph) (data : HostRead (Option GraphPatch)) : HostRead (Option GraphBody) :=
  match data with
  | .xlat => .xlat
  | .past => .past
  | .ok x => .ok (x.bind fun y => g.latest.map fun v => patchedBody v.body y)

/-- GRAPH_PATCH (R296): version n + 1 from version n and the patch; HANDLE is its number. -/
def Ctl.graphPatch (c : Ctl) (p : Pkt) (region : RegionRef) (length : Nat) (data : HostRead (Option GraphPatch)) : Ctl :=
  c.packet p .any false (fun f =>
    [((c.graphAt f p.subject).isSome && f.regionLive region, Status.badHandle),
      (f.graphRegionOk region length, Status.badParameter)]) fun d f m =>
    match d.graphAt f p.subject with
    | none => d.finish m Status.badHandle 0#32 0
    | some g =>
      match d.graphFails (g.patchedBy data) with
      | .inr st => d.finish m st 0#32 0
      | .inl b =>
        let n := ((g.latest.map (·.version)).getD 0) + 1
        ((d.setGraph { g with versions := g.versions ++ [⟨n, b, 0⟩] }).sweepGraphs).finish m Status.success (BitVec.ofNat 32 n) 0

/-- GRAPH_PATCH (R296, R369). -/
def execGraphPatch (p : Pkt) (region : RegionRef) (length : Nat) (data : HostRead (Option GraphPatch)) (s : State) :
    Host.Outcome State Fault Refusal :=
  .next { s with ctl := s.ctl.graphPatch p region length data }

/-- The current epochs of the names that a graph uses (R296, R202); none where a name has none in effect. -/
def Ctl.bindNames (c : Ctl) (n : BitVec 8) (names : List (BitVec 128)) : Option (List (Nat × Nat)) :=
  names.foldl (fun acc name =>
    match acc, c.currentEpoch (c.versions n name) with
    | some l, some e => some (l ++ [(e.image, e.num)])
    | _, _ => none) (some [])

/-- Whether a graph's latest version may be launched (R296, R181): its plan is selected and its names have epochs. -/
def Ctl.launchable (c : Ctl) (f : Fn) (h : Handle) : Bool :=
  match (c.graphAt f h).bind Graph.latest, c.plan? with
  | some v, some p => v.body.plan = p.name && (c.bindNames f.num v.body.images).isSome
  | _, _ => false

/-- Changes the launches of a graph's version. -/
def Ctl.onLaunches (c : Ctl) (n : BitVec 8) (graph version : Nat) (f : Nat → Nat) : Ctl :=
  let at0 (v : GraphVer) : GraphVer := if v.version = version then { v with launches := f v.launches } else v
  c.onObjs fun o =>
    { o with graphs := o.graphs.map fun g => if g.fn = n && g.ix = graph then { g with versions := g.versions.map at0 } else g }

/-- Binds a launch when its first item comes to be admitted (R296): to the graph's latest version and the current epochs of the names it uses, both
kept to its end; none where it cannot be bound. -/
def Ctl.bindLaunch (c : Ctl) (j : Job) : Option (Job × Ctl) :=
  match j.kind with
  | .launch g 0 items admitted _ adapter output =>
    match (c.objs.graphs.find? fun x => x.fn = j.cmd.fn && x.ix = g).bind Graph.latest with
    | none => none
    | some v =>
      (c.bindNames j.cmd.fn v.body.images).map fun eps =>
        let k := { j with kind := .launch g v.version items admitted eps adapter output }
        (k, (c.setJob k).onLaunches j.cmd.fn g v.version (· + 1))
  | _ => some (j, c)

/-- GRAPH_LAUNCH (R296, R298). -/
def Ctl.graphLaunch (c : Ctl) (p : Pkt) (input output : RegionRef) (adapter : Handle) (items : Nat) : Ctl :=
  c.packet p .any false (fun f =>
    [((c.graphAt f p.subject).isSome && f.regionLive input && f.regionLive output &&
        (adapter = 0#32 || (f.object .adapter adapter).isSome), Status.badHandle),
      (1 ≤ items && f.regionOk input none false && f.regionOk output none true, Status.badParameter),
      (c.launchable f p.subject, Status.badState)]) fun d f m =>
    match (d.graphAt f p.subject).bind Graph.latest with
    | none => d.finish m Status.badHandle 0#32 0
    | some _ =>
      (d.acceptJob m 0x22 p.subject (.launch (ixOf p.subject) 0 items 0 [] adapter output) items [input.handle, output.handle] true).1

/-- GRAPH_LAUNCH (R296, R202). -/
def execGraphLaunch (p : Pkt) (input output : RegionRef) (adapter : Handle) (items : Nat) (s : State) :
    Host.Outcome State Fault Refusal :=
  .next { s with ctl := s.ctl.graphLaunch p input output adapter items }

/-- GRAPH_DROP (R296). -/
def Ctl.graphDrop (c : Ctl) (p : Pkt) : Ctl :=
  c.packet p .any false (fun f => [((c.graphAt f p.subject).isSome, Status.badHandle)]) fun d f m =>
    match d.graphAt f p.subject with
    | none => d.finish m Status.badHandle 0#32 0
    | some g => ((d.setGraph { g with dropped := true }).sweepGraphs).finish m Status.success 0#32 0

/-- GRAPH_DROP (R296). -/
def execGraphDrop (p : Pkt) (s : State) : Host.Outcome State Fault Refusal := .next { s with ctl := s.ctl.graphDrop p }

end Sys2Proof.Machine
end

