-- ==== Sys2Proof/Machine/Tuning.lean ====
section
/-! DEFINITION. Adapter tuning (15): runs, their steps, gradient reduction, the update rule, saving and closing, and adapter
records. -/

namespace Sys2Proof.Machine

open Sys2Proof

/-! ### Adapter records (R432) -/

/-- The 16 bytes of an adapter path's descriptor (R415). -/
def pathBytes (x : AdapterPath) : List Byte :=
  Bits.toLe x.layer 2 ++ [BitVec.ofNat 8 x.matrix, BitVec.ofNat 8 x.kind] ++ Bits.toLe x.m 2 ++ Bits.toLe x.n 2 ++
    wordBytes [x.alpha] ++ Bits.toLe 0 4

/-- PATHS_DIGEST: SHA-384 of the plan's path descriptors, in order (R432). -/
def pathsDigest (ps : List AdapterPath) : Digest := sha384 (ps.flatMap pathBytes)

/-- The tensors of a path of a rank, as (rows, columns): A and B, or v (R414). -/
def pathShapes (x : AdapterPath) (r : Nat) : List (Nat × Nat) := if x.kind = 0 then [(r, x.m), (x.n, r)] else [(1, x.n)]

/-- The tensors of every path in order, as (path index, yard, rows, columns). -/
def allShapes (ps : List AdapterPath) (r : Nat) : List (Nat × Yard × Nat × Nat) :=
  (ps.mapIdx fun i x => (pathShapes x r).map fun s => (i, x.yard, s.1, s.2)).flatten

/-- Bytes of a tensor in a record: FP32, padded to 64 (R432). -/
def tensorSpan (n : Nat) : Nat := 64 * Bits.ceilDiv (4 * n) 64

/-- Byte offsets of the tensors of a record. -/
def tensorOffsets (npaths : Nat) (sizes : List Nat) : List Nat :=
  (sizes.foldl (fun (acc : Nat × List Nat) n => (acc.1 + tensorSpan n, acc.2 ++ [acc.1]))
    (Bits.ceilDiv (256 + 16 * npaths) 64 * 64, [])).2

/-- The record of an adapter (R432): header, directory, tensors. -/
def adapterRecord (ps : List AdapterPath) (a : Adapter) : List Byte :=
  let sizes := a.tensors.map fun x => x.n * x.m
  let offs := tensorOffsets ps.length sizes
  let dir := (ps.mapIdx fun i x =>
    let mine := (a.tensors.zip offs).filter fun y => y.1.path = i
    Bits.toLe i 2 ++ [BitVec.ofNat 8 x.kind, 0#8] ++ Bits.toLe (mine.map fun y => y.1.n * y.1.m).sum 4 ++
      Bits.toLe ((mine.head?.map (·.2)).getD 0) 8).flatten
  let head := Bits.toLe 0x4F574144 4 ++ Bits.toLe 1 2 ++ Bits.toLe a.rank 2 ++ Bits.toLe a.name.toNat 16 ++
    digestBytes a.image ++ Bits.toLe ps.length 4 ++ Bits.toLe a.steps 4 ++ digestBytes a.paths ++ List.replicate 128 0#8
  let pad (n : Nat) : List Byte := List.replicate n 0#8
  head ++ dir ++ pad (Bits.ceilDiv (256 + 16 * ps.length) 64 * 64 - (256 + 16 * ps.length)) ++
    a.tensors.flatMap fun x => wordBytes x.x ++ pad (tensorSpan (x.n * x.m) - 4 * (x.n * x.m))

/-- Bytes of a record. -/
def recordSize (npaths : Nat) (sizes : List Nat) : Nat :=
  Bits.ceilDiv (256 + 16 * npaths) 64 * 64 + (sizes.map tensorSpan).sum

/-- The values of an imported record (R420, R432), none where its rank, image or paths differ or it is cut short. -/
def importRecord (ps : List AdapterPath) (rank : Nat) (image : Digest) (bs : List Byte) : Option (List (List Word)) :=
  let shapes := allShapes ps rank
  let sizes := shapes.map fun s => s.2.2.1 * s.2.2.2
  if Bits.leNat bs 0 4 ≠ 0x4F574144 || Bits.leNat bs 4 2 ≠ 1 || Bits.leNat bs 6 2 ≠ rank || digestAt bs 24 ≠ image ||
      Bits.leNat bs 72 4 ≠ ps.length || digestAt bs 80 ≠ pathsDigest ps || bs.length < recordSize ps.length sizes then none
  else some (((tensorOffsets ps.length sizes).zip sizes).map fun x =>
    (List.range x.2).map fun i => BitVec.ofNat 32 (Bits.leNat bs (x.1 + 4 * i) 4))

/-- Coffer bytes of a saved adapter. -/
def adapterSize (ts : List Tensor) : Nat := recordSize (ts.map (·.path)).eraseDups.length (ts.map fun x => x.n * x.m)

/-! ### TUNE_OPEN (R419, R420) -/

/-- Whether β2, ε1, ε2 and d lie in their ranges (R419). -/
def tuneParamsOk (b2 e1 e2 d : Word) : Bool :=
  let zero := FNum.ofInt 0
  finite32 b2 && FNum.le zero (num32 b2) && FNum.lt (num32 b2) (FNum.ofInt 1) && finite32 e1 && FNum.lt zero (num32 e1) &&
    finite32 e2 && FNum.le zero (num32 e2) && finite32 d && FNum.lt zero (num32 d)

/-- Whether every low-rank path admits a rank (R419). -/
def rankFits (ps : List AdapterPath) (r : Nat) : Bool :=
  ps.all fun x => x.kind ≠ 0 || r * Max.max x.m x.n ≤ 2 ^ 22

/-- A fresh tensor with its values: statistics and accumulators at +0. -/
def Tensor.fresh (s : Nat × Yard × Nat × Nat) (x : List Word) : Tensor :=
  { path := s.1, yard := s.2.1, n := s.2.2.1, m := s.2.2.2, x := x, r := List.replicate s.2.2.1 0#32
    c := List.replicate s.2.2.2 0#32, acc := List.replicate (s.2.2.1 * s.2.2.2) (0#32, 0#32) }

/-- The initial values of a path's tensors (R420): A drawn, B and v at +0. -/
def initialValues (name : BitVec 128) (ps : List AdapterPath) (r : Nat) : List (List Word) :=
  (ps.mapIdx fun i x =>
    if x.kind = 0 then
      [(List.range (r * x.m)).map fun k => Config.drawUniform name i k x.m, List.replicate (x.n * r) 0#32]
    else [List.replicate x.n 0#32]).flatten

/-- Bytes that a run takes in a yard's tuning region (R420): master, pair and BF16 copy per element, statistics per row and
column. -/
def tuneBytes (ts : List (Nat × Yard × Nat × Nat)) (k : Yard) : Nat :=
  ((ts.filter fun s => s.2.1 = k).map fun s => 14 * s.2.2.1 * s.2.2.2 + 4 * (s.2.2.1 + s.2.2.2)).sum

/-- Whether the tuning regions have room for one more run. -/
def Ctl.tuneRoom (c : Ctl) (p : Plan) (ts : List (Nat × Yard × Nat × Nat)) : Bool :=
  (List.finRange 8).all fun k =>
    ((c.objs.runs.map fun r => tuneBytes (r.tensors.map fun x => (x.path, x.yard, x.n, x.m)) k).sum) + tuneBytes ts k ≤
      p.tuneRegion.getD k.val 0

/-- The epoch that a run's name resolves to (R419, R286). -/
def Ctl.tuneEpoch (c : Ctl) (n : BitVec 8) (name : BitVec 128) : Option (Epoch × Image) :=
  (c.currentEpoch (c.versions n name)).bind fun e => (c.image? e.image).map fun i => (e, i)

/-- The state checks of TUNE_OPEN. -/
def Ctl.tuneState (c : Ctl) (n : BitVec 8) (name : BitVec 128) : List (Bool × BitVec 16) :=
  match c.tuneEpoch n name, c.plan? with
  | some (_, i), some p =>
    [(!p.paths.isEmpty, Status.badState), (i.st ≠ .damaged, Status.imageDamaged), (c.planNames i, Status.badState)]
  | _, _ => [(false, Status.badState)]

/-- Whether a starting adapter has the rank, the image and the paths of the run (R419). -/
def Ctl.startSuits (c : Ctl) (f : Fn) (adapter : Handle) (rank : Nat) (name : BitVec 128) : Bool :=
  adapter = 0#32 || match c.adapter? f adapter, c.tuneEpoch f.num name, c.plan? with
    | some a, some (_, i), some p => a.rank = rank && a.image = i.digest && a.paths = pathsDigest p.paths
    | _, _, _ => true

/-- TUNE_OPEN (R419, R420). -/
def Ctl.tuneOpen (c : Ctl) (p : Pkt) (name : BitVec 128) (adapter : Handle) (source : RegionRef) (rank : Nat) (b2 e1 e2 d : Word)
    (data : HostRead (List Byte)) : Ctl :=
  let imports := source.handle ≠ 0#32
  let paths := (c.plan?.map (·.paths)).getD []
  c.packet p .any true (fun f =>
    [((adapter = 0#32 || (f.object .adapter adapter).isSome) && (!imports || f.regionLive source), Status.badHandle),
      (1 ≤ rank && rank ≤ 256 && tuneParamsOk b2 e1 e2 d && rankFits paths rank && !(imports && adapter ≠ 0#32) &&
        (!imports || f.regionOk source none false) && c.startSuits f adapter rank name, Status.badParameter)] ++
    c.tuneState p.fn name) fun c f m =>
    let r := c.acceptJob m 0x50 0#32 .tuning 0 (if imports then [source.handle] else []) false
    match r.2.bind fun ix => r.1.job? m.fn ix, c.tuneEpoch m.fn name with
    | some j, some (e, i) =>
      let shapes := allShapes paths rank
      let values : List (List Word) ⊕ BitVec 16 :=
        if imports then
          match data with
          | .xlat => .inr Status.translation
          | .past => .inr Status.badParameter
          | .ok bs => match importRecord paths rank i.digest bs with
            | some v => .inl v
            | none => .inr Status.badParameter
        else match c.adapter? f adapter with
          | some a => .inl (a.tensors.map (·.x))
          | none => .inl (initialValues name paths rank)
      match values, c.plan? with
      | .inr st, _ => r.1.finishJob j st 0#32 0
      | .inl v, some pl =>
        if !r.1.tuneRoom pl shapes then r.1.finishJob j Status.noSpace 0#32 0
        else
          let run : Run :=
            { fn := m.fn, ix := j.ix, name := name, image := e.image, epoch := e.num, rank := rank, b2 := b2, e1 := e1, e2 := e2
              d := d, bt := 0x3F800000#32, t := 0, tensors := shapes.zipWith Tensor.fresh v, steps := [], closing := none }
          r.1.onObjs fun o => { o with runs := o.runs ++ [run] }
      | _, none => r.1.finishJob j Status.badState 0#32 0
    | _, _ => r.1

/-- TUNE_OPEN (R419, R420). -/
def execTuneOpen (p : Pkt) (name : BitVec 128) (adapter : Handle) (source : RegionRef) (rank : Nat) (b2 e1 e2 d : Word)
    (data : HostRead (List Byte)) (s : State) : Host.Outcome State Fault Refusal :=
  .next { s with ctl := s.ctl.tuneOpen p name adapter source rank b2 e1 e2 d data }

/-! ### TUNE_STEP (R421, R422, R429) -/

/-- A run of a function by its handle. -/
def Ctl.run? (c : Ctl) (n : BitVec 8) (h : Handle) : Option Run := c.objs.runs.find? fun r => r.fn = n && handleOf .job r.ix = h

/-- Replaces a run. -/
def Ctl.setRun (c : Ctl) (r : Run) : Ctl :=
  c.onObjs fun o => { o with runs := o.runs.map fun x => if x.fn = r.fn && x.ix = r.ix then r else x }

/-- The lengths of the examples of a step, in order (R421). -/
def exampleLengths (es : List Example) : List Nat :=
  (es.foldl (fun (acc : List Nat) e =>
    if e.flags.getLsbD 0 then 1 :: acc else match acc with | [] => [1] | n :: t => (n + 1) :: t) []).reverse

/-- Whether the entries of an example region keep the rules of R421. -/
def examplesOk (es : List Example) (chunk : Nat) : Bool :=
  (match es with | [] => false | e :: _ => e.flags.getLsbD 0) &&
    es.all (fun e => e.clean && e.flags.toNat < 4 && !(e.flags.getLsbD 0 && e.flags.getLsbD 1)) &&
    es.any (fun e => e.flags.getLsbD 1) && (exampleLengths es).all (· ≤ chunk)

/-- Packs examples in order, and whole, into chunks of at most C_T tokens (R422). -/
def packChunks (chunk : Nat) (lens : List Nat) : List Nat :=
  (lens.foldl (fun (acc : List Nat) n =>
    match acc with
    | [] => [n]
    | k :: t => if k + n ≤ chunk then (k + n) :: t else n :: k :: t) []).reverse

/-- TUNE_STEP (R421, R422, R427, R429). -/
def Ctl.tuneStep (c : Ctl) (p : Pkt) (region : RegionRef) (count : Nat) (rho : Word) (data : HostRead (List Example)) : Ctl :=
  c.packet p .any false (fun f =>
    [((f.object .job p.subject).isSome && (c.run? f.num p.subject).isSome && f.regionLive region, Status.badHandle),
      (1 ≤ count && f.regionOk region (some (8 * count)) false && finite32 rho && FNum.le (FNum.ofInt 0) (num32 rho),
        Status.badParameter),
      (match c.run? f.num p.subject with | some r => r.closing.isNone | none => true, Status.badState),
      (match c.run? f.num p.subject with | some r => r.steps.length < 17 | none => true, Status.queueFull)]) fun d _ m =>
    match data, d.run? m.fn p.subject with
    | .xlat, _ => d.finish m Status.translation 0#32 0
    | .ok es, some r =>
      let ct := (d.plan?.map (·.tuneChunk)).getD 0
      if es.length ≠ count || !examplesOk es ct then d.finish m Status.badParameter 0#32 0
      else
        let st : TuneStep :=
          { cmd := m, subject := p.subject, count := count, rho := rho
            chunks := (packChunks ct (exampleLengths es)).map fun n => ⟨n, none, []⟩, energy := 0, firstTick := none
            lastTick := none, status := none }
        d.setRun { r with steps := r.steps ++ [st] }
    | _, _ => d.finish m Status.badParameter 0#32 0

/-- TUNE_STEP (R421, R422, R427, R429). -/
def execTuneStep (p : Pkt) (region : RegionRef) (count : Nat) (rho : Word) (data : HostRead (List Example)) (s : State) :
    Host.Outcome State Fault Refusal :=
  .next { s with ctl := s.ctl.tuneStep p region count rho data }

/-! ### TUNE_SAVE and TUNE_CLOSE (R430, R418) -/

/-- The check that a packet names a run that is not being closed. -/
def Ctl.runChecks (c : Ctl) (p : Pkt) (f : Fn) : List (Bool × BitVec 16) :=
  [((f.object .job p.subject).isSome && (c.run? f.num p.subject).isSome, Status.badHandle),
    (match c.run? f.num p.subject with | some r => r.closing.isNone | none => true, Status.badState)]

/-- TUNE_SAVE (R430): it waits for the step in flight and is made at a bell. -/
def Ctl.tuneSave (c : Ctl) (p : Pkt) (name : BitVec 128) : Ctl :=
  c.packet p .any false (c.runChecks p) fun d _ m =>
    d.onObjs fun o => { o with waiting := o.waiting ++ [⟨m, .tuneSave p.subject name⟩] }

/-- TUNE_SAVE (R430). -/
def execTuneSave (p : Pkt) (name : BitVec 128) (s : State) : Host.Outcome State Fault Refusal :=
  .next { s with ctl := s.ctl.tuneSave p name }

/-- TUNE_CLOSE (R430): the rest is done at bells. -/
def Ctl.tuneClose (c : Ctl) (p : Pkt) : Ctl :=
  c.packet p .any false (c.runChecks p) fun d _ m =>
    match d.run? m.fn p.subject with
    | some r => d.setRun { r with closing := some m }
    | none => d.finish m Status.badHandle 0#32 0

/-- TUNE_CLOSE (R430). -/
def execTuneClose (p : Pkt) (s : State) : Host.Outcome State Fault Refusal := .next { s with ctl := s.ctl.tuneClose p }

/-- Whether a step has a chunk in flight or done. -/
def TuneStep.begun (t : TuneStep) : Bool := t.chunks.any fun k => k.entered.isSome

/-- Whether a run has a step in flight. -/
def Run.inFlight (r : Run) : Bool := (r.steps.head?.map (·.begun)).getD false

/-- Frees replaced adapters and those of freed images that no session uses (R418). -/
def Ctl.sweepAdapters (c : Ctl) : Ctl :=
  let gone := c.objs.adapters.filter fun a => a.replaced && a.users = 0
  gone.foldl (fun c a =>
    let h := handleOf .adapter a.ix
    let nodes := c.objs.nodes.filter fun n => n.fn = a.fn && n.adapter = h
    let c := nodes.foldl (fun c n => c.dropNode n) c
    let size := adapterSize a.tensors
    ((c.onObjs fun o => { o with adapters := o.adapters.filter fun x => !(x.fn = a.fn && x.ix = a.ix) }).onCof fun k =>
      { k with free := k.free + size }).freeHandle a.fn a.ix) c

/-- A waiting TUNE_SAVE at a bell (R430, R418): the tensors go into the coffer under a new handle. -/
def Ctl.trySave (c : Ctl) (cfg : Cfg) (w : Waiting) : Ctl :=
  match w.what with
  | .tuneSave h name =>
    let m := w.cmd
    match c.run? m.fn h, c.fn? m.fn with
    | some r, some f =>
      if r.inFlight then c
      else
        let c := c.dropWaiting m.order
        let size := adapterSize r.tensors
        match f.issueSelf .adapter, c.image? r.image, c.plan? with
        | some (ix, _), some i, some p =>
          if c.cof.free < size || 65536 ≤ c.objs.adapters.length then c.finish m Status.noSpace 0#32 0
          else
            let a : Adapter :=
              { fn := m.fn, ix := ix, name := name, image := i.digest, rank := r.rank, steps := r.t, paths := pathsDigest p.paths
                tensors := r.tensors, replaced := false, users := 0 }
            let old (x : Adapter) : Adapter := if x.fn = m.fn && x.name = name then { x with replaced := true } else x
            let c := (c.onFn m.fn fun g => ((g.issueSelf .adapter).map (·.2)).getD g).onObjs fun o =>
              { o with adapters := o.adapters.map old ++ [a] }
            (((c.program cfg size).onCof fun k => { k with free := k.free - size }).sweepAdapters).finish m Status.success (handleOf .adapter ix) 0
        | _, _, _ => c.finish m Status.noSpace 0#32 0
    | _, _ => (c.dropWaiting m.order).finish m Status.badHandle 0#32 0
  | _ => c

/-! ### Gradient reduction (R425) -/

/-- Adds a partial into an accumulator, element by element (R425, R92). -/
def addPartials (acc : List (Word × Word)) (ps : List Word) : List (Word × Word) :=
  acc.mapIdx fun i a => match ps[i]? with
    | some g => (pairAdd a (num32 g)).1
    | none => a

/-- GRADIENT_PARTIAL's effect: a partial of a committed backward visit of the run enters the tensor's accumulator, unless the yard
has already given this chunk's. -/
def gradientPartial (s : State) (k : Yard) (n : BitVec 8) (h : Handle) (tensor stall : Nat) (ps : List Word) : Ctl :=
  let mask := ((s.dp.commit.find? (·.1 = k)).map (·.2)).getD []
  match s.ctl.run? n h, s.ctl.stallIn k stall with
  | some r, some st =>
    let back := match st.work with | .backward _ => true | _ => false
    let seen := (((r.steps.head?.bind fun x => x.chunks[st.position]?).map (·.visited)).getD []).contains k.val
    if back && st.fn = n && st.session = h && st.bwdYard = some k.val && mask.contains stall && !seen then
      s.ctl.setRun { r with tensors := r.tensors.mapIdx fun i t =>
        if i = tensor && t.yard = k then { t with acc := addPartials t.acc ps } else t }
    else s.ctl
  | _, _ => s.ctl

/-- GRADIENT_PARTIAL (R424, R425). -/
def execGradientPartial (yard : Yard) (fn : BitVec 8) (run : Handle) (tensor : Nat) (stall : BitVec 16) (partials : List Word)
    (s : State) : Host.Outcome State Fault Refusal :=
  if s.ctl.hub.halted then .next s else .next { s with ctl := gradientPartial s yard fn run tensor stall.toNat partials }

/-! ### The update rule (R426-R428) -/

/-- FP32 arithmetic of the update units, rounded to nearest-even, without flags (R426, R98). -/
def tAdd (a b : Word) : Word := (addF32 a b).1

/-- See `tAdd`. -/
def tSub (a b : Word) : Word := (subF32 a b).1

/-- See `tAdd`. -/
def tMul (a b : Word) : Word := (mulF32 a b).1

/-- See `tAdd`. -/
def tDiv (a b : Word) : Word := (divF32 a b).1

/-- A sum in index order. -/
def tSum (xs : List Word) : Word := xs.foldl tAdd 0#32

/-- 1.0. -/
def one32 : Word := 0x3F800000#32

/-- The square root of a mean square: sqrt(Σ x² / count). -/
def rms32 (xs : List Word) : Word := sqrtF32 (tDiv (tSum (xs.map fun x => tMul x x)) (countF32 xs.length))

/-- What the update rule computes for one tensor before the check (R426). -/
structure Update where
  r : List Word
  c : List Word
  u : List Word
  q : Word
  x : List Word
  finite : Bool
  deriving DecidableEq, Repr

/-- The update of one tensor (R426). -/
def updateOf (run : Run) (rho bt : Word) (t : Tensor) : Update :=
  let g := t.acc.map (·.1)
  let at0 (i j : Nat) : Word := g.getD (i * t.m + j) 0#32
  let sq (i j : Nat) : Word := tAdd (tMul (at0 i j) (at0 i j)) run.e1
  let w := tSub one32 run.b2
  let c0 := tSub one32 bt
  let rows := (List.range t.n).map fun i =>
    tAdd (tMul run.b2 (t.r.getD i 0#32)) (tMul w (tSum ((List.range t.m).map fun j => sq i j)))
  let cols := (List.range t.m).map fun j =>
    tAdd (tMul run.b2 (t.c.getD j 0#32)) (tMul w (tSum ((List.range t.n).map fun i => sq i j)))
  let sr := tSum rows
  let u := (List.range t.n).flatMap fun i => (List.range t.m).map fun j =>
    tMul (at0 i j) (rsqrtF32 (tDiv (tDiv (tMul (rows.getD i 0#32) (cols.getD j 0#32)) sr) c0))
  let q := rms32 u
  let f := tDiv (tMul rho (maxF32 run.e2 (rms32 t.x)).1) (maxF32 one32 (tDiv q run.d)).1
  { r := rows, c := cols, u := u, q := q, x := t.x.zipWith (fun x u => tSub x (tMul f u)) u
    finite := (g ++ rows ++ cols ++ u ++ [q]).all finite32 }

/-- Whether every chunk of a step has made its backward visit in every yard. -/
def TuneStep.visited (t : TuneStep) : Bool := t.chunks.all fun k => (List.range 8).all k.visited.contains

/-- TUNE_UPDATE's effect: the running step, once all its visits are committed, is applied to all tensors or skipped. -/
def Ctl.tuneUpdate (c : Ctl) (n : BitVec 8) (h : Handle) : Ctl :=
  match c.run? n h with
  | none => c
  | some r =>
    match r.steps with
    | [] => c
    | st :: rest =>
      if !st.visited || st.status.isSome || r.closing.isSome then c
      else
        let bt := tMul r.bt r.b2
        let us := r.tensors.map fun t => updateOf r st.rho bt t
        let steps := { st with status := some Status.success } :: rest
        if us.all (·.finite) then
          let ts := r.tensors.zipWith (fun (t : Tensor) (u : Update) =>
            { t with x := u.x, r := u.r, c := u.c, acc := t.acc.map fun _ => (0#32, 0#32) }) us
          let c := c.setRun { r with t := r.t + 1, bt := bt, tensors := ts, steps := steps }
          let c := c.onFn n fun f => { f with tuneSteps := sat64 f.tuneSteps 1 }
          match c.job? n r.ix with
          | some j => c.setJob (j.moveTo c.hub.tick (j.progress + 1))
          | none => c
        else (c.setRun { r with steps := steps }).onFn n fun f => { f with tuneSkipped := sat64 f.tuneSkipped 1 }

/-- TUNE_UPDATE (R426-R428). -/
def execTuneUpdate (fn : BitVec 8) (run : Handle) (s : State) : Host.Outcome State Fault Refusal :=
  if s.ctl.hub.halted then .next s else .next { s with ctl := s.ctl.tuneUpdate fn run }

end Sys2Proof.Machine
end

