-- ==== Sys2Proof/Machine/Functions.lean ====
section
/-! DEFINITION. Functions and host sites (11): creation, shares, the disable sequence, resets, links and translations. -/

namespace Sys2Proof.Machine

open Sys2Proof

/-! ### FN_CREATE and FN_SET_SHARE (R311-R313, R322) -/

/-- Whether a site or a function on it is being reset or disabled (R313). -/
def Ctl.siteResetting (c : Ctl) (i : Nat) : Bool :=
  (c.site i).link = .reset || c.fns.any fun f => f.physical && f.site = i && f.disable.isSome

/-- The lowest free function number for a virtual function of a site (R312). -/
def Ctl.freeNumber (c : Ctl) (i : Nat) : Option (BitVec 8) :=
  ((List.range 256).find? fun n => 1 ≤ n && n ≤ (c.site i).numVfs && (c.fn? (BitVec.ofNat 8 n)).isNone).map (BitVec.ofNat 8)

/-- Draws a shed key (R173, R371): its number. -/
def Ctl.drawKey (c : Ctl) : Nat × Ctl := (c.sec.keyNext, c.onSec fun x => { x with keyNext := x.keyNext + 1 })

/-- A function as it is created (R312). -/
def Fn.created (num : BitVec 8) (physical : Bool) (site : Nat) (health : Bool) (quota key : Nat) : Fn :=
  { num := num, physical := physical, site := site, health := health, st := .active, quota := quota, nextIx := 1, freed := []
    handles := [], queues := List.replicate 4 {}, irqMasked := List.range (if physical then 64 else 16), shedKey := key }

/-- FN_CREATE (R312). -/
def Ctl.fnCreate (c : Ctl) (p : Pkt) (site : Nat) (health : Bool) (quota : Nat) : Ctl :=
  c.packet p .management true (fun _ =>
    [(site < 2 && 4096 ≤ quota && quota ≤ 2 ^ 24, Status.badParameter), (!c.siteResetting site, Status.functionReset),
      ((c.site site).link = .active && (c.site site).vfEnable, Status.badState),
      ((c.freeNumber site).isSome && (c.fns.map (·.quota)).sum + quota ≤ 2 ^ 28, Status.noSpace)]) fun d _ m =>
    match d.freeNumber site with
    | none => d.finish m Status.noSpace 0#32 0
    | some n =>
      let k := d.drawKey
      let d := { k.2 with fns := k.2.fns ++ [Fn.created n false site health quota k.1] }
      d.finish m Status.success (n.zeroExtend 32) 0

/-- FN_CREATE (R312). -/
def execFnCreate (p : Pkt) (site : Nat) (health : Bool) (quota : Nat) (s : State) : Host.Outcome State Fault Refusal :=
  .next { s with ctl := s.ctl.fnCreate p site health quota }

/-- A function's SHARE once every change that waits has taken effect. -/
def Fn.shareDue (f : Fn) : Nat := (f.shareNext.map (·.1)).getD f.share

/-- FN_SET_SHARE (R322): it takes effect under R51 row 5. -/
def Ctl.fnSetShare (c : Ctl) (p : Pkt) (number share tokenCap energyCap : Nat) : Ctl :=
  let n := BitVec.ofNat 8 number
  let others := ((c.fns.filter (·.num ≠ n)).map Fn.shareDue).sum
  c.packet p .management true (fun _ =>
    [(number < 256 && (c.fn? n).isSome && others + share ≤ 1024, Status.badParameter),
      (((c.fn? n).all fun f => f.disable.isNone && !c.siteResetting f.site), Status.functionReset)]) fun d _ m =>
    (d.onFn n fun f => { f with shareNext := some (share, tokenCap, energyCap) }).finish m Status.success 0#32 0

/-- FN_SET_SHARE (R322, R325). -/
def execFnSetShare (p : Pkt) (number share tokenCap energyCap : Nat) (s : State) : Host.Outcome State Fault Refusal :=
  .next { s with ctl := s.ctl.fnSetShare p number share tokenCap energyCap }

/-! ### The disable sequence (R327-R329) -/

/-- Vectors of a function (R319). -/
def Fn.vectors (f : Fn) : Nat := if f.physical then 64 else 16

/-- Step 1 of R327 at its moment: vectors masked, fetching and host requests stopped; its share falls to 0 under R51. -/
def Ctl.startDisable (c : Ctl) (n : BitVec 8) (destroy : Bool) (mgr : Option Cmd) (result : Option RegionRef) : Ctl :=
  c.onFn n fun f =>
    if f.disable.isSome then f
    else
      { f with st := if destroy then .disabling else .resetting, irqMasked := List.range f.vectors
               shareNext := some (0, 0, 0), disable := some ⟨0, destroy, mgr, result, false⟩ }

/-- Whether a function is bound as a virtual function of a site. -/
def Fn.vfOf (f : Fn) (site : Nat) : Bool := !f.physical && f.site = site

/-- Starts the disable sequence of every virtual function of a site (R314). -/
def Ctl.destroyVfs (c : Ctl) (site : Nat) : Ctl :=
  (c.fns.filter fun f => f.vfOf site).foldl (fun c f => c.startDisable f.num true none none) c

/-- FN_DESTROY (R313, R329): it completes when the disable sequence does. -/
def Ctl.fnDestroy (c : Ctl) (p : Pkt) (number : Nat) (result : RegionRef) : Ctl :=
  let n := BitVec.ofNat 8 number
  let named := result.handle ≠ 0#32
  c.packet p .management true (fun f =>
    [(!named || f.regionLive result, Status.badHandle),
      ((!named || f.regionOk result none true) && number < 256 && (c.fn? n).any fun g => !g.physical, Status.badParameter),
      ((c.fn? n).all fun g => g.disable.isNone && !c.siteResetting g.site, Status.functionReset)]) fun d _ m =>
    d.startDisable n true (some m) (if named then some result else none)

/-- FN_DESTROY (R313, R329). -/
def execFnDestroy (p : Pkt) (number : Nat) (result : RegionRef) (s : State) : Host.Outcome State Fault Refusal :=
  .next { s with ctl := s.ctl.fnDestroy p number result }

/-- The configuration space of a physical function is reset as PCIe requires (R314): VF Enable and NumVFs are clear. PRESUMED (log entry 105). -/
def Ctl.resetConfig (c : Ctl) (site : Nat) : Ctl := c.onSite site fun x => { x with vfEnable := false, numVfs := 0 }

/-- A function-level reset at its moment (R326, R314). -/
def Ctl.flr (c : Ctl) (n : BitVec 8) : Ctl :=
  match c.fn? n with
  | none => c
  | some f => (if f.physical then (c.resetConfig f.site).destroyVfs f.site else c).startDisable n false none none

/-- FUNCTION_LEVEL_RESET (R326-R328). -/
def execFunctionLevelReset (fn : BitVec 8) (s : State) : Host.Outcome State Fault Refusal :=
  .next { s with ctl := s.ctl.flr fn }

/-- Strikes the stalls that satisfy a test wherever they stand (R51): in the microbatches in flight, the one formed and the replays
that wait. -/
def Ctl.strikeAll (c : Ctl) (test : Stall → Bool) : Ctl :=
  let strike (st : Stall) : Stall := if test st then { st with struck := true } else st
  c.onFe fun f =>
    { f with pipe := f.pipe.map fun m => { m with stalls := m.stalls.map strike }
             formed := f.formed.map fun m => { m with stalls := m.stalls.map strike }
             replays := (f.replays.map fun g => g.filter fun st => !test st).filter fun g => !g.isEmpty }

/-- The requests of a function that have not ended, as (fetch order, tally). -/
def Ctl.openRequests (c : Ctl) (n : BitVec 8) (status : BitVec 16) : List (Nat × Tally) :=
  let jobs := (c.objs.jobs.filter fun j => j.cmd.fn = n && j.isRequest && j.st ≠ .ended).map fun j =>
    (j.cmd.order, j.tally status c.hub.tick)
  let steps := (c.objs.runs.filter (·.fn = n)).flatMap fun r => r.steps.map fun t => (t.cmd.order, t.tally status 0 c.hub.tick)
  (jobs ++ steps).mergeSort fun a b => a.1 ≤ b.1

/-- The requests of a function get ABANDONED tallies (R327 step 5, R344), which are written with the other tallies of the bell (R345). -/
def Ctl.abandonRequests (c : Ctl) (n : BitVec 8) : Ctl :=
  c.onLdg fun l => { l with abandoned := l.abandoned ++ c.openRequests n Status.abandoned }

/-- Writes one tally of the requests that are abandoned, by the order of its request (R345). -/
def Ctl.writeAbandoned (c : Ctl) (cfg : Cfg) (order : Nat) : Ctl :=
  match c.ldg.abandoned.find? (·.1 = order) with
  | none => c
  | some t => ((c.onLdg fun l => { l with abandoned := l.abandoned.filter (·.1 ≠ order) }).writeTally cfg t.2).2

/-- The tallies that wait to be written for abandoned requests, as (function, order of the request). -/
def Ctl.abandonedNow (c : Ctl) : List (Nat × Nat) := c.ldg.abandoned.map fun t => (t.2.fn.toNat, t.1)

/-- Requests by function and then in the order of fetching (R345). -/
def leafOrder (l : List (Nat × Nat)) : List (Nat × Nat) := l.mergeSort fun a b => a.1 < b.1 || (a.1 = b.1 && a.2 ≤ b.2)

/-- What a job has under way that its end undoes (R178, R204). -/
def Ctl.undoJob (c : Ctl) (j : Job) : Ctl :=
  match j.kind with
  | .install image _ _ => c.dropInstall image
  | .activate .. => c.dropActivate j
  | .launch g v .. => c.onLaunches j.cmd.fn g v (· - 1)
  | _ => c

/-- Frees everything of a function but its images and saved adapters (R327 step 3). -/
def Ctl.clearObjects (c : Ctl) (n : BitVec 8) : Ctl :=
  let c := (c.objs.jobs.filter fun j => j.cmd.fn = n).foldl (fun c j => c.undoJob j) c
  let c := (c.objs.sessions.filter (·.fn = n)).foldl (fun c x => (c.releaseSession x).useAdapter x.fn x.adapter (· - 1)) c
  let c := (c.objs.nodes.filter (·.fn = n)).foldl (fun c x => c.dropNode x) c
  c.onObjs fun o =>
    { o with jobs := o.jobs.filter (·.cmd.fn ≠ n), sessions := o.sessions.filter (·.fn ≠ n)
             waiting := o.waiting.filter (·.cmd.fn ≠ n), graphs := o.graphs.filter (·.fn ≠ n), runs := o.runs.filter (·.fn ≠ n) }

/-- The stalls of functions that are being disabled, struck before the bell settles their tick: what still runs for them commits nothing and writes
nothing (R327 step 2). -/
def Ctl.strikeDisabled (c : Ctl) : Ctl :=
  (c.fns.filter fun f => f.disable.any fun d => !d.swept).foldl (fun c f => c.strikeAll fun st => st.fn = f.num) c

/-- Steps 2 to 7 of R327 at a bell. -/
def Ctl.sweepFn (c : Ctl) (n : BitVec 8) : Ctl :=
  let c := c.strikeAll fun st => st.fn = n
  let c := (c.abandonRequests n).clearObjects n
  let k := c.drawKey
  let c := k.2.onFn n fun f =>
    { f with queues := f.queues.map fun y => { y with held := [], fences := [] }, unheld := [], regions := [], opens := [], deficit := 0, linkBuf := 0
             fetched := 0, irqPending := [], shedKey := k.1, disable := f.disable.map fun d => { d with swept := true } }
  c.onBus fun b => { b with buffered := b.buffered.filter fun w => w.2.fn ≠ n }

/-- Issues handles in order for objects given by kind and key. -/
def Fn.issueAll (f : Fn) : List (ObjKind × Nat) → Fn × List (Option Nat)
  | [] => (f, [])
  | x :: t =>
    match f.issue x.1 x.2 with
    | none => let r := f.issueAll t; (r.1, none :: r.2)
    | some (ix, g) => let r := g.issueAll t; (r.1, some ix :: r.2)

/-- Images of an owner in table order. -/
def Ctl.ownImages (c : Ctl) (n : BitVec 8) : List Image :=
  (c.objs.images.filter (·.owner = n)).mergeSort fun a b => a.ix ≤ b.ix

/-- Gives a function's adapters and, for the management function, the loaded plans the indices from `base` on (R329): their handles
are their indices. -/
def Ctl.renumber (c : Ctl) (n : BitVec 8) (base : Nat) : List (ObjKind × Nat) × Ctl :=
  let ads := (c.objs.adapters.filter (·.fn = n)).map (·.ix)
  let plans := if c.isMgmt n then (c.objs.plans.mergeSort fun a b => a.order ≤ b.order).map (·.ix) else []
  let adIx (i : Nat) : Nat := base + ads.idxOf i
  let planIx (i : Nat) : Nat := base + ads.length + plans.idxOf i
  let moveAd (a : Adapter) : Adapter := if a.fn = n then { a with ix := adIx a.ix } else a
  let movePlan (l : Loaded) : Loaded := if plans.contains l.ix then { l with ix := planIx l.ix } else l
  let move (i : Nat) : Nat := if plans.contains i then planIx i else i
  ((ads.map fun i => (ObjKind.adapter, adIx i)) ++ plans.map fun i => (ObjKind.plan, planIx i),
    (c.onObjs fun o => { o with adapters := o.adapters.map moveAd, plans := o.plans.map movePlan, selected := o.selected.map move }).onFe
      fun f => { f with switch := f.switch.map fun w => { w with plan := w.plan.map move } })

/-- The translations held for a function go with its reset: ATS is not enabled any more (R316). -/
def Ctl.dropXlats (c : Ctl) (n : BitVec 8) : Ctl := { c with xlats := c.xlats.filter (·.fn ≠ n) }

/-- The end of an FLR (R328, R329): a function in its created state with handles re-issued. -/
def Ctl.finishFlr (c : Ctl) (n : BitVec 8) : Ctl :=
  match c.fn? n with
  | none => c
  | some f =>
    let imgs := (c.ownImages n).map fun i => (ObjKind.image, i.ix)
    let r := c.renumber n (imgs.length + 1)
    let g := ((Fn.created n f.physical f.site f.health f.quota f.shedKey).issueAll (imgs ++ r.1)).1
    let link := (c.site f.site).link
    (r.2.dropXlats n).onFn n fun _ =>
      { g with st := if link = .hold then .linkHold else .active, shareNext := f.shareNext, share := f.share
               disable := f.disable.bind fun d => if d.swept then none else some { d with bells := 2 } }

/-- Frees a destroyed function's adapters (R329). -/
def Ctl.freeAdapters (c : Ctl) (n : BitVec 8) : Ctl :=
  let gone := c.objs.adapters.filter (·.fn = n)
  (c.onCof fun k => { k with free := k.free + (gone.map fun a => adapterSize a.tensors).sum }).onObjs fun o =>
    { o with adapters := o.adapters.filter (·.fn ≠ n) }

/-- The end of an FN_DESTROY (R329): its images pass to the management function with new handles, its adapters are freed, its number
becomes free, and the command completes. -/
def Ctl.finishDestroy (c : Ctl) (f : Fn) (d : Disable) : Ctl :=
  let imgs := c.ownImages f.num
  let c := c.freeAdapters f.num
  let c := { c.dropXlats f.num with fns := c.fns.filter (·.num ≠ f.num) }
  match c.fn? c.mgmt with
  | none => c
  | some g =>
    let r := g.issueAll (imgs.map fun i => (ObjKind.image, i.ix))
    let hs := (r.2.filterMap id).map (handleOf .image)
    let c := (c.onFn g.num fun _ => r.1).onObjs fun o =>
      { o with images := o.images.map fun i => if i.owner = f.num then { i with owner := g.num } else i }
    match d.mgr with
    | none => c
    | some m =>
      match d.result with
      | none => c.finish m Status.success (BitVec.ofNat 32 hs.length) 0
      | some reg =>
        let room := ((r.1.region reg.handle).map fun x => x.len - reg.off).getD 0
        let bs := wordBytes (hs.take (room / 4))
        (c.regionWrite r.1 reg bs).finish m Status.success (BitVec.ofNat 32 hs.length) (Bits.ceilDiv bs.length 64)

/-- Ends a disable sequence. -/
def Ctl.finishDisable (c : Ctl) (n : BitVec 8) : Ctl :=
  match c.fn? n with
  | none => c
  | some f =>
    match f.disable with
    | none => c
    | some d => if d.destroy then c.finishDestroy f d else c.finishFlr n

/-- One bell of a disable sequence (R327, R328): the sweep at the first, the end at the second. -/
def Ctl.disableBell (c : Ctl) (n : BitVec 8) : Ctl :=
  match (c.fn? n).bind (·.disable) with
  | none => c
  | some d =>
    let c := if d.swept then c else c.sweepFn n
    if 2 ≤ d.bells then c.onFn n fun f => { f with disable := none }
    else if d.bells = 1 then c.finishDisable n
    else c.onFn n fun f => { f with disable := f.disable.map fun x => { x with bells := 1 } }

/-- Objects of a function whose sequence is cut short keep no handle that a new one could name: their indices leave the handle
range. -/
def Ctl.detach (c : Ctl) (n : BitVec 8) : Ctl :=
  let off (i : Nat) : Nat := if i < 2 ^ 24 then i + 2 ^ 24 else i
  c.onObjs fun o =>
    { o with jobs := o.jobs.map fun j => if j.cmd.fn = n then { j with ix := off j.ix } else j
             sessions := o.sessions.map fun x => if x.fn = n then { x with ix := off x.ix } else x
             runs := o.runs.map fun r => if r.fn = n then { r with ix := off r.ix } else r
             graphs := o.graphs.filter (·.fn ≠ n) }

/-- FLR_TIMEOUT (R328): at 100 ms the function's stalls are fenced and struck, and the sequence ends; steps not yet done follow at the
next bell. -/
def flrTimeout (s : State) (n : BitVec 8) : State :=
  match (s.ctl.fn? n).bind (·.disable) with
  | none => s
  | some d =>
    let mine := s.ctl.fe.pipe.flatMap fun m => (m.stalls.mapIdx fun i st => (m.yard, i, st)).filter fun x => x.2.2.fn = n
    let gens := s.dp.gens.map fun g => if mine.any fun x => x.1 = g.yard.val && x.2.1 = g.stall then { g with gen := 0 } else g
    let c := s.ctl.strikeAll fun st => st.fn = n
    let c := if d.destroy then (if d.swept then c else c.sweepFn n).finishDisable n
      else (if d.swept then c else c.detach n).finishDisable n
    { s with dp := { s.dp with gens := gens }, ctl := c }

/-- FLR_TIMEOUT (R328). -/
def execFlrTimeout (fn : BitVec 8) (s : State) : Host.Outcome State Fault Refusal := .next (flrTimeout s fn)

/-- Clears VF Enable of a physical function (R314). -/
def Ctl.vfEnableClear (c : Ctl) (n : BitVec 8) : Ctl :=
  match c.fn? n with
  | some f => if f.physical then (c.onSite f.site fun x => { x with vfEnable := false }).destroyVfs f.site else c
  | none => c

/-- VF_ENABLE_CLEAR (R314). -/
def execVfEnableClear (fn : BitVec 8) (s : State) : Host.Outcome State Fault Refusal :=
  .next { s with ctl := s.ctl.vfEnableClear fn }

/-- ATS_INVALIDATION (R317): every matching entry of the translation cache goes. -/
def execAtsInvalidation (fn : BitVec 8) (pasid : Option (BitVec 20)) (addr pages : Nat) (s : State) :
    Host.Outcome State Fault Refusal :=
  let hit (x : Xlat) : Bool := x.fn = fn && x.pasid = pasid && addr / 4096 ≤ x.page && x.page < addr / 4096 + pages
  .next { s with ctl := { s.ctl with xlats := s.ctl.xlats.filter fun x => !hit x } }

/-! ### Sites (R307, R308, R326, R330, R331) -/

/-- The event bit of a site: `bit` for A, the next for B. -/
def siteBit (bit site : Nat) : BitVec 16 := 1#16 <<< (bit + site)

/-- A site reset (R326, R314): its physical function runs an FLR, its virtual functions are destroyed, its link retrains and its link
buffer is emptied. -/
def Ctl.siteReset (c : Ctl) (cfg : Cfg) (i : Nat) : Ctl :=
  if (c.site i).link = .absent then c
  else
    let c := (c.onSite i fun x => { x with link := .reset, degraded := false }).resetConfig i
    let c := (c.destroyVfs i).onBus fun b => { b with buffered := b.buffered.filter fun w => w.1 ≠ i }
    let c := (c.fns.filter fun f => f.physical && f.site = i).foldl (fun c f => c.startDisable f.num false none none) c
    c.raise cfg .site (siteBit 4 i)

/-- SITE_RESET (R326): by the site's host, or by the management function for the other site. -/
def execSiteReset (site : Fin 2) (fn : Option (BitVec 8)) (s : State) : Host.Outcome State Fault Refusal :=
  match fn with
  | none => .next { s with ctl := s.ctl.siteReset s.cfg site.val }
  | some n =>
    if s.ctl.isMgmt n && s.ctl.served n && (s.ctl.fn? n).any fun f => f.site ≠ site.val then
      .next { s with ctl := s.ctl.siteReset s.cfg site.val }
    else .next s

/-- Jobs of a site that read host memory, plan loads and installations, wait for the link with WAIT 8 (R330), or go on. -/
def Ctl.hostReads (c : Ctl) (i : Nat) (hold : Bool) : Ctl :=
  let reads (j : Job) : Bool := !j.over && (j.kind.typ = 4 || j.kind.typ = 9) && (c.fn? j.cmd.fn).any fun f => f.site = i
  let set (j : Job) : Job :=
    if !reads j then j else if hold then (if j.wait = 0 then { j with wait := 8 } else j) else if j.wait = 8 then { j with wait := 0 } else j
  c.onObjs fun o => { o with jobs := o.jobs.map set }

/-- SITE_LINK_DOWN (R330): a link hold of every function of the site; a HOLD_TIME of 0 makes it a site reset. -/
def Ctl.linkDown (c : Ctl) (cfg : Cfg) (i : Nat) : Ctl :=
  if (c.site i).link ≠ .active then c
  else
    let c := c.raise cfg .site (siteBit 0 i)
    if cfg.holdTime = 0 then c.siteReset cfg i
    else
      let c := c.onSite i fun x => { x with link := .hold }
      let hold (f : Fn) : Fn := if f.site = i && f.st = .active then { f with st := .linkHold } else f
      { c with fns := c.fns.map hold }.hostReads i true

/-- SITE_LINK_DOWN (R330). -/
def execSiteLinkDown (site : Fin 2) (s : State) : Host.Outcome State Fault Refusal :=
  .next { s with ctl := s.ctl.linkDown s.cfg site.val }

/-- The link returns within the hold (R331): the buffer drains in order, held records are written. -/
def Ctl.linkUp (c : Ctl) (cfg : Cfg) (i : Nat) : Ctl :=
  if (c.site i).link ≠ .hold then c
  else
    let mine := (c.bus.buffered.filter fun w => w.1 = i).map (·.2)
    let c := (c.onSite i fun x => { x with link := .active }).onBus fun b => { b with buffered := b.buffered.filter fun w => w.1 ≠ i }
    let wake (f : Fn) : Fn := if f.site = i && f.st = .linkHold then { f with st := .active, linkBuf := 0 } else f
    let c := { c with fns := c.fns.map wake }.hostReads i false
    let c := mine.foldl (fun c w => c.hostWrite w.fn w.pasid w.addr w.bytes) c
    let c := (c.fns.filter fun f => f.site = i).foldl (fun c f => c.drainAll f.num) c
    c.raise cfg .site (siteBit 2 i)

/-- SITE_LINK_UP (R331). -/
def execSiteLinkUp (site : Fin 2) (s : State) : Host.Outcome State Fault Refusal :=
  .next { s with ctl := s.ctl.linkUp s.cfg site.val }

/-- LINK_HOLD_EXPIRY (R331): a site reset. -/
def execLinkHoldExpiry (site : Fin 2) (s : State) : Host.Outcome State Fault Refusal :=
  if (s.ctl.site site.val).link = .hold then .next { s with ctl := s.ctl.siteReset s.cfg site.val } else .next s

/-- SITE_DEGRADED (R308): a SINGLE link that loses one module keeps running. -/
def execSiteDegraded (s : State) : Host.Outcome State Fault Refusal :=
  let a := s.ctl.hub.siteA
  if s.ctl.hub.dual || a.link ≠ .active || a.degraded then .next s
  else .next { s with ctl := (s.ctl.onSite 0 fun x => { x with degraded := true }).raise s.cfg .site 64#16 }

/-- A site's link trains (R306, R326): active at full rate and width, held out of service otherwise. -/
def Ctl.linkTrained (c : Ctl) (i : Nat) (repaired : BitVec 4) (up : Bool) : Ctl :=
  let link := (c.site i).link
  if link ≠ .training && link ≠ .reset then c
  else
    let c := c.onSite i fun x => { x with link := if up then .active else .training, repaired := repaired }
    if up then (c.fns.filter fun f => f.site = i).foldl (fun c f => c.drainAll f.num) c else c

/-- SITE_LINK_TRAINED (R306, R326). -/
def execSiteLinkTrained (site : Fin 2) (repaired : BitVec 4) (up : Bool) (s : State) : Host.Outcome State Fault Refusal :=
  .next { s with ctl := s.ctl.linkTrained site.val repaired up }

end Sys2Proof.Machine
end

