-- ==== Sys2Proof/Machine/Resets.lean ====
section
/-! DEFINITION. Resets and start-up (11, 13, 18): what survives each reset, the firmware check, and the steps of a start. -/

namespace Sys2Proof.Machine

open Sys2Proof

/-! ### What a reset keeps (R14, R326, R352, R476, R479, R491) -/

/-- Pins, sensors' targets and faults that stand across a reset of the device. -/
def Pwr.kept (p : Pwr) : Pwr :=
  { ({} : Pwr) with st := .boot, trip := p.trip, modEn := p.modEn, rstN := p.rstN, refclk := p.refclk, leakN := p.leakN, pg := p.pg
                    vinBad := p.vinBad, statusInput := p.statusInput, statusTemp := p.statusTemp, cml := p.cml, offBit := p.offBit
                    i3cAddr := p.i3cAddr }

/-- The persistent store: words, wear and spares stay (R465). -/
def Prs.kept (p : Prs) : Prs :=
  { ({} : Prs) with words := p.words, wear := p.wear, onSpare := p.onSpare, hostUsed := p.hostUsed, otherUsed := p.otherUsed }

/-- The coffer: its contents, its lost channels, its wear and its dumps stay. -/
def Cof.kept (k : Cof) : Cof :=
  { ({} : Cof) with lost := k.lost, region := k.region, fwWithout := k.fwWithout, dumps := k.dumps, dumpHost := k.dumpHost, dumpLast := k.dumpLast, free := k.free }

/-- Images that a start finds (R175, R181): one that was installing is gone, one that was retiring has no epoch left; an image of a
function that is gone passes to the management function. -/
def Image.kept (i : Image) (mgmt : BitVec 8) (alive : BitVec 8 → Bool) : Option Image :=
  if i.st = .installing || i.st = .retiring then none
  else some (if alive i.owner then i else { i with owner := mgmt })

/-- Coffer bytes that a reset frees: those of images and adapters that it drops. -/
def Ctl.lostBytes (c : Ctl) (alive : BitVec 8 → Bool) : Nat :=
  ((c.objs.images.filter fun i => (i.kept c.mgmt alive).isNone).map fun i => i.stored + i.scaleLen).sum +
    ((c.objs.adapters.filter fun a => !alive a.fn || a.replaced).map fun a => adapterSize a.tensors).sum

/-- The controls as a reset leaves them: the reset values, and what each chapter keeps. `warm` says that it is a device warm reset, which
keeps the ledger's residue and folios; any other reset is a power loss to the ledger, which keeps its folios (R352). -/
def Ctl.restart (c : Ctl) (warm : Bool) : Ctl :=
  let alive (n : BitVec 8) : Bool := (c.fn? n).any (·.physical)
  let r := Ctl.reset
  let objs : Objs :=
    { images := c.objs.images.filterMap fun i => i.kept c.mgmt alive
      adapters := (c.objs.adapters.filter fun a => alive a.fn && !a.replaced).map fun a => { a with users := 0 } }
  let ldg : Ldg :=
    { sealedFolios := c.ldg.sealedFolios.filter fun f => warm || f.ready, oldest := c.ldg.oldest, newest := c.ldg.newest
      anySealed := c.ldg.anySealed, residue := if warm then c.ldg.residue else 0, warm := warm
      early := if warm then c.ldg.early else 0 }
  { r with free := c.free, objs := objs, ldg := ldg, prs := c.prs.kept, pwr := c.pwr.kept
           cof := { c.cof.kept with free := c.cof.free + c.lostBytes alive }
           sec := { r.sec with keys := c.sec.keys, tableBytes := c.sec.tableBytes, keyNext := c.sec.keyNext }
           hub := { r.hub with dual := c.hub.dual, mgmtSite := c.hub.mgmtSite }
           fns := [Fn.physicalA], bus := { c.bus with buffered := [] } }

/-- A reset of the whole device with the queue of commands left alone. -/
def restart (s : State) (warm : Bool) : State :=
  { s with dp := { Dp.reset with drawn := s.dp.drawn }, cfg := {}, ctl := s.ctl.restart warm }

/-- What a device warm reset does to the ledger first (R491, R344, R346): the interval closes to IDLE, requests get ABANDONED tallies,
the folio is sealed with RESET. -/
def Ctl.closeForReset (c : Ctl) (cfg : Cfg) (m : Interval) : Ctl :=
  if !c.ldg.opening then c
  else
    let c := c.closeInterval cfg .idle m
    let c := c.fns.foldl (fun c f => c.abandonRequests f.num) c
    let c := (leafOrder c.abandonedNow).foldl (fun c x => c.writeAbandoned cfg x.2) c
    let c := c.onObjs fun o =>
      { o with jobs := o.jobs.map fun j => if j.isRequest then { j with st := .ended } else j, runs := [] }
    c.seal cfg 8

/-- No meter samples: what the meter gives where no interval of a ledger is open, or none is to be closed. -/
def noMeter : Interval := ⟨[], [], 0, [], []⟩

/-- A device warm reset (R326, R491). -/
def warmReset (s : State) (m : Interval) : State :=
  restart { s with ctl := s.ctl.closeForReset s.cfg m } true

/-- DEVICE_WARM_RESET: a write of HUB_RESET with its key and WARM (R326). -/
def execDeviceWarmReset (fn : BitVec 8) (value : Word) (meter : Interval) (s : State) : Host.Outcome State Fault Refusal :=
  if s.ctl.mgmtAccess fn && Bits.field value 31 16 = 0x5752 && value.getLsbD 0 then .next (warmReset s meter) else .next s

/-! ### The firmware check (R358-R361) -/

/-- The word of the anti-rollback counter (R468). -/
def rollbackWord : Nat := 0x102

/-- SVN of an image. -/
def fwSvn (i : FwImage) : Nat := Bits.leNat i.header 6 2

/-- The body's length that a firmware image's header gives. -/
def fwLength (i : FwImage) : Nat := Bits.leNat i.header 8 4

/-- Check 2 of R359: MAGIC, VERSION, LENGTH and the reserved bytes of a header. -/
def fwHeaderOk (h : List Byte) : Bool :=
  Bits.leNat h 0 4 = 0x4F574657 && Bits.leNat h 4 2 = 1 && Bits.leNat h 8 4 % 4096 = 0 && Bits.leNat h 8 4 ≤ 2 ^ 28 &&
    zeroAt h 0xC 4 && zeroAt h 0x80 128 && zeroAt h 0xF74 140

/-- Checks 2 to 7 of R359 on an image: the cause of the first that fails, 0 where all pass. -/
def fwCause (i : FwImage) (counter : Nat) : Nat :=
  let h := i.header
  let msg := h.take 0x100
  if !fwHeaderOk h then 2
  else if digestAt h 0x40 ≠ fwKeyId then 3
  else if !ecdsaVerifies Config.fwKeys.1.toList (sha384 msg) (slice h 0x100 96) then 4
  else if !hssVerifies Config.fwKeys.2.toList msg (slice h 0x160 3604) then 5
  else if i.body.length ≠ fwLength i || sha384 i.body ≠ digestAt h 0x10 then 6
  else if (fwSvn i) < counter then 7
  else 0

/-- Whether the counter's word can still take a write (R362, R466, R467). -/
def Prs.canRaise (p : Prs) : Bool := Sparse.get 0 p.wear rollbackWord < prsRating || p.spareFor rollbackWord

/-- The firmware region's image (R358): what it was found to hold, the factory's where nothing was ever programmed. -/
def Cof.firmware (k : Cof) (found : Option FwImage) : Option FwImage :=
  match k.region with
  | none => found
  | some r => r

/-! ### Steps of a start (R484, R401, R402, R351) -/

/-- Row `r`'s retired column in the 50 bits of a yard's retirement words (R380, R468). -/
def retiredOf (lo hi : Word) : List Nat :=
  let v := lo.toNat + 2 ^ 32 * hi.toNat
  (List.range 10).map fun r => v / 2 ^ (5 * r) % 32

/-- A margin-plan entry (R404): held, and the offset in steps. -/
def marginOf (w : Word) : Bool × Int :=
  (w.getLsbD 31, if w.getLsbD 7 then (Bits.field w 7 0 : Int) - 256 else (Bits.field w 7 0 : Int))

/-- A yard as a start finds it (step 9): retirements, lost channels and margins from the persistent store, links as trained. -/
def Yd.started (p : Prs) (k : Yard) (links : BitVec 8 × BitVec 8) : Yd :=
  let lost (side : Nat) : List (Nat × Channel) := (List.range 32).filterMap fun i =>
    if (p.word (0x480 + 2 * k.val + side)).getLsbD i then some (32 * side + i, { lost := true, rebuilt := true }) else none
  { ({} : Yd) with
    retired := retiredOf (p.word (0x440 + 2 * k.val)) (p.word (0x441 + 2 * k.val))
    channels := lost 0 ++ lost 1
    held := (List.range 3).map fun g => (marginOf (p.word (0x400 + 3 * k.val + g))).1
    offsets := (List.range 3).map fun g => (marginOf (p.word (0x400 + 3 * k.val + g))).2
    links := links.1, remapped := links.2 }

/-- The sub-links in service that the link set stands for. -/
def linkCount (l : BitVec 8) : Nat := ((List.range 8).filter l.getLsbD).length

/-- Trains the yards (R401, R382, R383): swapped positions, missing sub-links and wrong stacks raise their events; a yard with a wrong
stack, fewer than five sub-links or no grade held is not in service. -/
def Ctl.startYard (c : Ctl) (cfg : Cfg) (st : StartIn) (k : Yard) : Ctl :=
  let links := st.links.getD k.val (0xFF#8, 0#8)
  let c := c.onYard k fun _ => Yd.started c.prs k links
  let bits := (if links.2 ≠ 0#8 then 0x800#16 else 0#16) ||| (if links.1 ≠ 0xFF#8 then 4#16 else 0#16) |||
    (if linkCount links.1 < 7 then 8#16 else 0#16)
  let good := st.stacksOk.getD k.val true
  let c := if bits = 0#16 then c else c.raise cfg (.yras k) bits
  let c := if good then c else c.raise cfg (.yras k) 0x2000#16
  let ok := good && 5 ≤ linkCount links.1 && (c.yd k).held.any id
  if ok then c.onHub fun h => { h with yardsUp := h.yardsUp ||| (1#8 <<< k.val) }
  else (c.onYard k fun y => { y with lost := true }).raise cfg (.yras k) 0x1000#16

/-- The board plan's entry of a port (R402, R468): present, capacity in GB, serial number. -/
def Prs.board (p : Prs) (n : Nat) : Bool × Nat × BitVec 64 :=
  let w := p.word (0x80 + 4 * n)
  (w.getLsbD 0, Bits.field w 31 16, p.word (0x82 + 4 * n) ++ p.word (0x81 + 4 * n))

/-- Whether the serial number found on a port is the one expected on another (R402). -/
def swapped (p : Prs) (found : List CxlFound) (n : Nat) : Option Nat :=
  match found[n]? with
  | none => none
  | some f =>
    if !f.present || !(p.board n).1 || f.serial = (p.board n).2.2 then none
    else (List.range 4).find? fun m => m ≠ n && (p.board m).1 && f.serial = (p.board m).2.2

/-- What enumeration makes of a port (R154, R402): the port and whether it differs from the board plan. -/
def startPort (p : Prs) (found : List CxlFound) (n : Nat) : Port × Bool :=
  let b := p.board n
  match found[n]? with
  | none => ({}, false)
  | some f =>
    if !b.1 then ({}, false)
    else if !f.present then ({ held := true, cause := 3 }, false)
    else if !f.good then ({ held := true, cause := 1 }, false)
    else if f.serial ≠ b.2.2 || f.bytes ≠ b.2.1 * 1000000000 || (List.range 4).any fun m => swapped p found m = some n then
      ({ up := true, held := true, cause := 0, bytes := f.bytes }, f.serial ≠ b.2.2 || f.bytes ≠ b.2.1 * 1000000000)
    else ({ up := true, held := false, cause := 0, bytes := f.bytes }, false)

/-- The capacity of the shed over all its ports (R145). -/
def shedCapacity : Nat := 16000000000000

/-- Ports with the shed's capacity laid over them in their order: what stands beyond 16 TB is not used (R145). -/
def withinShed (room : Nat) : List Port → List Port
  | [] => []
  | p :: ps => { p with bytes := Nat.min p.bytes room } :: withinShed (room - p.bytes) ps

/-- Trains the CXL ports (step 10). -/
def Ctl.startPorts (c : Ctl) (cfg : Cfg) (found : List CxlFound) : Ctl :=
  let ps := (List.range 4).map (startPort c.prs found)
  let swap := (List.range 4).any fun n => (swapped c.prs found n).isSome
  let bits := (if ps.any (·.2) then 32#16 else 0#16) ||| (if swap then 64#16 else 0#16)
  let c := { c with cxl := withinShed shedCapacity (ps.map (·.1)) }
  if bits = 0#16 then c else c.raise cfg .ras bits

/-- Checks the key table (R368): one that does not match its digest counts as empty. -/
def Ctl.startKeys (c : Ctl) (cfg : Cfg) : Ctl :=
  let bs := c.sec.tableBytes.getD (tableBytes c.sec.keys)
  if wordBytes (c.prs.range 0x110 12) = digestBytes (sha384 bs) then c
  else (c.onSec fun x => { x with keys := List.replicate 16 none, tableBytes := some bs }).raise cfg .sec 16#16

/-- The measurements of R372 as they stand. -/
def Ctl.measure (c : Ctl) : Ctl :=
  let imgs := (c.objs.images.filter fun i => i.st ≠ .free && i.st ≠ .installing).mergeSort fun a b => a.ix ≤ b.ix
  let plans := c.objs.plans.mergeSort fun a b => a.order ≤ b.order
  c.onSec fun x =>
    { x with measured :=
      [digestBytes (sha384 (digestBytes Config.bootRomDigest ++ digestBytes fwKeyId)),
        digestBytes (sha384 (((x.fw.map (·.header)).getD []).take 0x100)), digestBytes (sha384 (wordBytes [c.prs.word rollbackWord])),
        wordBytes (c.prs.range 0x110 12), (c.plan?.map fun p => digestBytes (sha384 p.body)).getD (List.replicate 48 0#8),
        digestBytes (sha384 (plans.flatMap fun l => digestBytes (sha384 l.plan.body))),
        digestBytes (sha384 (imgs.flatMap fun i => Bits.toLe i.ix 2 ++ digestBytes i.digest ++ [BitVec.ofNat 8 i.st.code])),
        digestBytes (sha384 (wordBytes (c.prs.range 0x200 256 ++ c.prs.range 0x300 16)))] }

/-- The physical functions of a start (R309, R313, R322) with the handles of their images and adapters (R329). -/
def Ctl.startFns (c : Ctl) : Ctl :=
  let two := c.hub.dual && c.hub.siteB.link ≠ .absent
  let mgmtSite := if two then Bits.field (c.prs.word 0x40) 0 0 else 0
  let c := c.onHub fun h => { h with mgmtSite := mgmtSite }
  let make (c : Ctl) (i : Nat) : Ctl :=
    let k := c.drawKey
    let f := Fn.created (BitVec.ofNat 8 i) true i (i = mgmtSite) (if i = mgmtSite then 2 ^ 24 else 2 ^ 22) k.1
    let c := { k.2 with fns := k.2.fns ++ [{ f with health := false, share := if two then 512 else 1024 }] }
    c.finishFlr (BitVec.ofNat 8 i)
  let c := { c with fns := [] }
  if two then make (make c 0) 1 else make c 0

/-- A site as its module trained (R306). -/
def Ctl.startSite (c : Ctl) (st : StartIn) (i : Nat) : Ctl :=
  c.onSite i fun x => if x.link = .absent then x
    else { x with link := if st.linkUp.getD i false then .active else .training, repaired := st.repaired.getD i 0#4 }

/-- Populated sites (R307): A always, B where the package is DUAL and its module was found. -/
def Ctl.findSites (c : Ctl) (st : StartIn) : Ctl :=
  let b : Link := if c.hub.dual && 2 ≤ st.linkUp.length then .training else .absent
  (c.onSite 0 fun x => { x with link := .training }).onSite 1 fun x => { x with link := b }

/-- The lowest grade that the margin plan and the thermal state allow (step 6, R404). -/
def Ctl.marginGrade (c : Ctl) : Nat :=
  ((List.range 3).find? fun g => (List.finRange 8).all fun k => (c.yd k).lost || (c.yd k).held.getD g false).getD 2

/-- RECOVERY_WAIT with a cause (R359, R362): the host port trains. -/
def Ctl.recover (c : Ctl) (st : StartIn) (cause : Nat) : Ctl :=
  let c := c.findSites st
  (((c.onSec fun x => { x with st := .recoveryWait, cause := cause }).startFns.startSite st 0).startSite st 1).measure

/-- RUNNING, steps 8 to 10 of R484: IDLE at the end. -/
def Ctl.run (c : Ctl) (cfg : Cfg) (st : StartIn) (i : FwImage) : Ctl :=
  let c := c.findSites st
  let c := c.onSec fun x => { x with st := .running, cause := 0, svn := (fwSvn i), fw := some i }
  let c := c.onCof fun k => { k with ready := true, programmed := 0, wearMax := st.wear.1, wearMean := st.wear.2 }
  let k := c.drawKey
  let c := (k.2.onSec fun x => { x with deviceKey := k.1 }).startKeys cfg
  let c := (List.finRange 8).foldl (fun c k => c.startYard cfg st k) c
  let c := ((c.startPorts cfg st.cxl).startFns.startSite st 0).startSite st 1
  let c := c.startLedger cfg
  let c := c.onHub fun h => { h with grades := { current := c.marginGrade, previous := c.marginGrade, temp := 0, power := 0 } }
  (c.onPwr fun p => { p with st := .idle }).measure

/-- FIRMWARE_CHECK (R359, R361, R484): checks 1 to 8, then RUNNING and IDLE, or RECOVERY_WAIT. -/
def firmwareCheck (c : Ctl) (cfg : Cfg) (found : Option FwImage) (st : StartIn) : Ctl :=
  match c.cof.firmware found with
  | none => c.recover st 1
  | some i =>
    let counter := (c.prs.word rollbackWord).toNat
    let cause := fwCause i counter
    if cause ≠ 0 then c.recover st cause
    else
      let r := if counter < (fwSvn i) then c.persist cfg rollbackWord (BitVec.ofNat 32 (fwSvn i)) else (true, c)
      if r.1 then r.2.run cfg st i else r.2.recover st 8

/-- FIRMWARE_CHECK (R359-R361, R484): only in BOOT, with the rails up, the clock there and MOD_RST_N released. -/
def execFirmwareCheck (image : Option FwImage) (start : StartIn) (s : State) : Host.Outcome State Fault Refusal :=
  let p := s.ctl.pwr
  if s.ctl.sec.st = .boot && p.st = .boot && p.pg && p.rstN && p.refclk then
    .next { s with ctl := firmwareCheck s.ctl s.cfg image start }
  else .next s

end Sys2Proof.Machine
end

