-- ==== Sys2Proof/Machine/Observe.lean ====
section
/-! DEFINITION. Observation (16): snapshots, sampling, marks, the journal's arming and streaming, the trigger, hangs and dumps. -/

namespace Sys2Proof.Machine

open Sys2Proof

/-! ### Snapshots (R436, R437) -/

/-- COUNTER_SNAPSHOT (R436): the device set for the management function, its own set for any other. -/
def Ctl.counterSnapshot (c : Ctl) (p : Pkt) : Ctl :=
  c.packet p .any true (fun _ => []) fun d f m =>
    (if d.isMgmt f.num then d.snapDevice else d.snapFn f.num).finish m Status.success 0#32 0

/-- COUNTER_SNAPSHOT (R436, R437). -/
def execCounterSnapshot (p : Pkt) (s : State) : Host.Outcome State Fault Refusal :=
  .next { s with ctl := s.ctl.counterSnapshot p }

/-- DBG_SNAP.GO (R436). -/
def execDbgSnapGo (fn : BitVec 8) (value : Word) (s : State) : Host.Outcome State Fault Refusal :=
  if s.ctl.mgmtAccess fn && value.getLsbD 0 then .next { s with ctl := s.ctl.snapDevice } else .next s

/-! ### Sampling and probes (R438-R440) -/

/-- What the consumers of a logical cluster's cores wait for (R163): its queues first. -/
def coreWait (s : State) (k : Yard) (l : Cluster) : Wait :=
  let ws := (List.range 120).map fun i => Sparse.get Wait.none s.dp.waits (s.ctl.clu k l.val * 120 + i)
  if ws.contains .fetch then .fetch else if ws.contains .mem then .mem else .none

/-- Whether a sequencer's segment is complete: its report is in, or its microbatch is empty (R45). -/
def seqDone (s : State) (k : Yard) (l : Cluster) : Bool := (s.ctl.yd k).reports.clusters.contains l.val || (s.ctl.yardStalls k).isEmpty

/-- The stall state of a sequencer (R438). -/
def seqState (s : State) (k : Yard) (l : Cluster) : Nat :=
  if seqDone s k l then 6
  else match coreWait s k l with
    | .none => 0
    | .fetch => 1
    | .mem => 2

/-- The progress counter of a sequencer (R440). -/
def seqProgress (s : State) (k : Yard) (l : Cluster) : Nat := Sparse.get 0 s.dp.progress (250 * k.val + l.val)

/-- The PC of a sequencer (R438): the next instruction still to issue, 0 when the segment is complete. -/
def seqPc (s : State) (k : Yard) (l : Cluster) : Nat := if seqState s k l = 6 then 0 else seqProgress s k l

/-- SEQ_PROBE (R440): a write of a logical cluster to YRD_SEQ_PROBE; a number beyond 249 is reserved (R12). -/
def execSeqProbe (fn : BitVec 8) (yard : Yard) (value : Word) (s : State) : Host.Outcome State Fault Refusal :=
  let l := Bits.field value 27 20
  if h : s.ctl.mgmtAccess fn ∧ s.ctl.yardUp yard ∧ l < 250 then
    let k : Cluster := ⟨l, h.2.2⟩
    .next { s with ctl := s.ctl.onYard yard fun y =>
      { y with probe := l, probed := ⟨seqPc s yard k, seqState s yard k, seqProgress s yard k⟩ } }
  else .next s

/-- The cycles at which a sequencer samples (R438): φ + n I. -/
def sampleCycle (k : Yard) (l : Cluster) (log2i cycle : Nat) : Bool :=
  let i := 2 ^ log2i
  let phi := (250 * k.val + l.val) * i / 2000
  phi ≤ cycle && (cycle - phi) % i = 0

/-- PC_SAMPLE (R438, R439): a sample that meets a queue more than three-quarters full is dropped and counted. -/
def execPcSample (yard : Yard) (cluster : Cluster) (cycle : Nat) (queued : Nat) (s : State) : Host.Outcome State Fault Refusal :=
  let on := s.cfg.sampleEn && s.cfg.sampleYards.getLsbD yard.val && s.ctl.yardUp yard && s.ctl.fe.ticking && !s.ctl.hub.halted
  if !on || !sampleCycle yard cluster s.cfg.log2i cycle || !(s.cfg.cat.getLsbD 0) then .next s
  else if 3072 < queued then .next { s with ctl := s.ctl.count 2 1 }
  else
    let data0 := seqState s yard cluster * 2 ^ 29 + seqPc s yard cluster % 2 ^ 24
    .next { s with ctl := s.ctl.journal s.cfg 1 (yard.val * 4096 + cluster.val) cycle data0 [] }

/-! ### Marks (R441, R442) -/

/-- Writes a MARK record and fires a trigger on its identifier (R444, R447). A record of a disabled category is not formed. -/
def Ctl.markRecord (c : Ctl) (cfg : Cfg) (source cycle : Nat) (ident : Word) (fn : BitVec 8) (flags stall : Nat) (session : Handle) :
    Ctl :=
  if !(cfg.cat.getLsbD 1) then c
  else
    let c := c.journal cfg 2 source cycle ident.toNat
      ([fn, BitVec.ofNat 8 flags] ++ Bits.toLe stall 2 ++ Bits.toLe session.toNat 4 ++ List.replicate 8 0#8)
    if cfg.trigSource = 5 && cfg.trigArg = ident then c.trigger cfg 5 else c

/-- MARK (R441): an instruction of a sequencer's stream, issued inside its segment and at its scheduled cycle (R19, R40). -/
def execMark (yard : Yard) (cluster : Cluster) (ident : Word) (at0 : When) (s : State) : Host.Outcome State Fault Refusal :=
  if s.ctl.issues yard cluster.val at0 then
    .next { s with dp := s.dp.retireInstr yard cluster
                   ctl := s.ctl.markRecord s.cfg (yard.val * 4096 + cluster.val) at0.cycle ident 0#8 0 0 0#32 }
  else .next s

/-- MARK_BEGIN and MARK_END (R442): without a session the mark waits for the next bell; otherwise it waits for the session's next step. -/
def Ctl.markCmd (c : Ctl) (p : Pkt) (ident : Word) (ends : Bool) : Ctl :=
  c.packet p .any false (fun f =>
    [(p.subject = 0#32 || (c.sessionAt f p.subject).isSome, Status.badHandle)] ++
      (if p.subject = 0#32 then [] else c.sessionState f p.subject)) fun d _ m =>
    let session := if p.subject = 0#32 then none else some p.subject
    d.onObjs fun o => { o with waiting := o.waiting ++ [⟨m, .mark ident ends session⟩] }

/-- MARK_BEGIN (R442). -/
def execMarkBegin (p : Pkt) (ident : Word) (s : State) : Host.Outcome State Fault Refusal :=
  .next { s with ctl := s.ctl.markCmd p ident false }

/-- MARK_END (R442). -/
def execMarkEnd (p : Pkt) (ident : Word) (s : State) : Host.Outcome State Fault Refusal :=
  .next { s with ctl := s.ctl.markCmd p ident true }

/-! ### Arming, streaming, the trigger (R446-R449) -/

/-- Arms the journal (R446): record area and trigger slot emptied. -/
def Dbg.arm (d : Dbg) : Dbg :=
  { d with armed := true, fired := false, slot := [], recs := [], pos := 0, base := 0, limit := journalBytes, state := 0, seq := 0
           refused := 0, refusedTick := 0, copyNext := 0 }

/-- A word made of fields: (value, lowest bit). -/
def bitsAt (l : List (Nat × Nat)) : Word := BitVec.ofNat 32 ((l.map fun p => p.1 * 2 ^ p.2).sum)

/-- A flag as a field value. -/
def flagBit (b : Bool) : Nat := if b then 1 else 0

/-- The covered registers in ascending offset order with their RW fields (R457). -/
def Cfg.covered (c : Cfg) : List (Nat × Word) :=
  [(0x3C, bitsAt [(c.hangLimit, 0)]), (0x40, bitsAt [(c.ceiling, 30)]),
    (0x100, bitsAt [(flagBit c.checkEn, 31), (flagBit c.fenceOnDrift, 30)]),
    (0x800, bitsAt [(c.factorKv, 24), (c.factorAct, 16), (c.window, 0)]),
    (0x900, bitsAt [(c.high, 24), (c.low, 16), (c.decay, 8), (flagBit c.demoteEn, 7), (c.promote, 0)]),
    (0xA08, bitsAt [(c.holdTime, 8)]), (0x600008, bitsAt [(c.powerCap, 0)]), (0x600010, bitsAt [(flagBit c.leakOff, 31)]),
    (0x700010, bitsAt [(flagBit c.sampleEn, 31), (c.log2i, 24), (c.sampleYards.toNat, 0)]),
    (0x700020, bitsAt [(flagBit c.streamEn, 30), (c.mode, 28), (c.pre, 16), (c.cat.toNat, 0)]),
    (0x700024, bitsAt [(c.trigSource, 28), (c.trigClass, 24)]),
    (0x700050, bitsAt [(flagBit c.autoReset, 31), (flagBit c.stores, 30), (c.dumpSlot, 0)])] ++
  (List.range 8).map fun k => (0x800430 + k * 0x100000, (c.arithMask.getD k 0#8).zeroExtend 32)

/-- The configuration CRC (R457). -/
def Cfg.crc (c : Cfg) : Word := crc32c (c.covered.flatMap fun r => Bits.toLe r.1 4 ++ Bits.toLe r.2.toNat 4)

/-- The RW fields of a write to DBG_JNL_CTRL (R12: MODE 3 is reserved). -/
def Cfg.jnl (c : Cfg) (v : Word) : Cfg :=
  { c with streamEn := v.getLsbD 30, mode := if Bits.field v 29 28 = 3 then c.mode else Bits.field v 29 28
           pre := Bits.field v 19 16, cat := v.extractLsb' 0 7 }

/-- A host write to a covered register (R458): UNCOMMITTED is set. -/
def Ctl.touchCovered (c : Ctl) : Ctl := c.onHub fun h => { h with uncommitted := true }

/-- A write of DBG_JNL_CTRL: ARM, STREAM_EN and the journal's mode. -/
def jnlWrite (s : State) (v : Word) : State :=
  let c := s.ctl.touchCovered
  { s with cfg := s.cfg.jnl v, ctl := if v.getLsbD 31 then c.onDbg Dbg.arm else c }

/-- JOURNAL_ARM: a write of DBG_JNL_CTRL with ARM (R446). -/
def execJournalArm (fn : BitVec 8) (value : Word) (s : State) : Host.Outcome State Fault Refusal :=
  if s.ctl.mgmtAccess fn then .next (jnlWrite s value) else .next s

/-- STREAM_ENABLE: a write of DBG_JNL_CTRL that sets STREAM_EN (R449). -/
def execStreamEnable (fn : BitVec 8) (value : Word) (s : State) : Host.Outcome State Fault Refusal :=
  if s.ctl.mgmtAccess fn then .next (jnlWrite s value) else .next s

/-- A write of DBG_TRIG_SEL: SOURCE, CLASS and TRIG (R447; sources 1 and 6 to 15 are reserved). -/
def trigWrite (s : State) (v : Word) : State :=
  let src := Bits.field v 31 28
  let cfg := { s.cfg with trigSource := if src = 0 || (2 ≤ src && src ≤ 5) then src else s.cfg.trigSource
                          trigClass := Bits.field v 27 24 }
  let c := s.ctl.touchCovered
  { s with cfg := cfg, ctl := if v.getLsbD 0 then c.trigger cfg 1 else c }

/-- TRIG: a write of DBG_TRIG_SEL (R447). -/
def execTrig (fn : BitVec 8) (value : Word) (s : State) : Host.Outcome State Fault Refusal :=
  if s.ctl.mgmtAccess fn then .next (trigWrite s value) else .next s

/-- The bytes of a journal record (R443). -/
def JRec.bytes (r : JRec) : List Byte :=
  let bs := [BitVec.ofNat 8 r.typ, BitVec.ofNat 8 r.len] ++ Bits.toLe r.source 2 ++ Bits.toLe r.tick 4 ++ Bits.toLe r.cycle 4 ++
    Bits.toLe r.data0 4 ++ r.body
  bs ++ List.replicate (16 * r.len - bs.length) 0#8

/-- Units of the host ring (DBG_STREAM_BASE). -/
def Cfg.streamUnits (c : Cfg) : Nat := 2 ^ c.streamSize * 256

/-- Writes units into the host ring from a position, one by one round its end. -/
def Ctl.streamWrite (c : Ctl) (cfg : Cfg) (pos : Nat) (bs : List Byte) : Nat → Ctl
  | 0 => c
  | n + 1 =>
    (c.hostWrite c.mgmt none (cfg.streamAddr + 16 * (pos % cfg.streamUnits)) (bs.take 16)).streamWrite cfg (pos + 1) (bs.drop 16) n

/-- The GAP record that stands for records overwritten before they were copied (R449). -/
def Dbg.lostGap (d : Dbg) (tick lost : Nat) : JRec :=
  { seq := d.copyNext, place := 0, typ := 0x0E, len := 2, source := 0x8FFF, tick := tick % 2 ^ 32, cycle := 0, data0 := 0
    body := Bits.toLe lost 8 ++ Bits.toLe tick 8 }

/-- STREAM_RECORD_COPY (R449): the next record, or one GAP for those overwritten, goes to the host ring; a full ring stalls, a failed
write clears STREAM_EN. -/
def streamCopy (s : State) (ok : Bool) : State :=
  let d := s.ctl.dbg
  match d.recs.find? fun r => d.copyNext ≤ r.seq && r.typ ≠ 0 with
  | none => s
  | some r =>
    let lost := r.seq - d.copyNext
    let gap := d.recs.all fun x => d.copyNext < x.seq
    let out := if gap then d.lostGap s.ctl.hub.tick lost else r
    let n := s.cfg.streamUnits
    let used := (d.tail + n - s.cfg.streamHead % n) % n
    if !ok then
      let cfg := { s.cfg with streamEn := false }
      { s with cfg := cfg, ctl := (s.ctl.onHub fun h => { h with crcRef := cfg.crc }).raise cfg .dbg 16#16 }
    else if n ≤ used + out.len then { s with ctl := s.ctl.onDbg fun x => { x with stall := true } }
    else
      let c := s.ctl.streamWrite s.cfg d.tail out.bytes out.len
      let c := c.onDbg fun x => { x with stall := false, tail := (x.tail + out.len) % n, copyNext := if gap then r.seq else r.seq + 1 }
      { s with ctl := c.count 4 (16 * out.len) }

/-- STREAM_RECORD_COPY (R449). -/
def execStreamRecordCopy (ok : Bool) (s : State) : Host.Outcome State Fault Refusal :=
  if s.cfg.streamEn && s.ctl.sec.st = .running then .next (streamCopy s ok) else .next s

/-! ### Hangs (R67, R450) -/

/-- The slot of the next dump (R451): an empty one, else the one with the oldest dump. -/
def Cof.dumpSlot (k : Cof) : Nat :=
  match (List.range 4).find? fun i => k.dumps.all (·.slot ≠ i) with
  | some i => i
  | none => ((k.dumps.foldl (fun (acc : Option Dump) d => match acc with
      | none => some d
      | some x => if d.order < x.order then some d else acc) none).map (·.slot)).getD 0

/-- Yards that have not reported done (R451). -/
def Ctl.pendingYards (c : Ctl) : Nat :=
  ((List.finRange 8).map fun k => if (c.yd k).reports.clusters.length < 250 && c.yardUp k then 2 ^ k.val else 0).sum

/-- The sections of a dump with their lengths, in the order of their types (R451). -/
def Ctl.dumpSections (c : Ctl) (stores : Bool) : List (Nat × Nat) :=
  let lists := Min.min (64 * 2 ^ 20) (Config.stallListLength ((c.fe.pipe.map fun m => m.stalls.length).sum))
  [(1, 16 * 2 ^ 20), (2, lists), (3, 133120)] ++ (if stores then [(4, 2600 * 2 ^ 20), (5, 1040 * 2 ^ 20)] else []) ++ [(6, 64 * 2 ^ 20)]

/-- The directory of a dump whose sections lie one behind another from byte 4,096 (R451). -/
def dumpDirectory (sections : List (Nat × Nat)) : List Byte :=
  (sections.foldl (fun (acc : Nat × List Byte) x =>
    (acc.1 + x.2, acc.2 ++ Bits.toLe x.1 4 ++ List.replicate 4 0#8 ++ Bits.toLe acc.1 8 ++ Bits.toLe x.2 8 ++ List.replicate 8 0#8))
    (4096, [])).2

/-- A dump's header of 4,096 bytes with its directory (R451). -/
def Ctl.dumpHeader (c : Ctl) (cfg : Cfg) (cause cycle : Nat) : List Byte :=
  let plan := ((c.plan?.map fun p => digestBytes (sha384 p.body)).getD (List.replicate 48 0#8))
  Bits.toLe 0x4F574450 4 ++ Bits.toLe 1 2 ++ [BitVec.ofNat 8 cause, if cfg.stores then 1#8 else 0#8] ++ Bits.toLe c.hub.tick 8 ++
    Bits.toLe cycle 8 ++ [BitVec.ofNat 8 c.pendingYards] ++ List.replicate 7 0#8 ++ digestBytes deviceId ++ plan ++
    Bits.toLe c.sec.svn 2 ++ Bits.toLe (c.dumpSections cfg.stores).length 2 ++ List.replicate 188 0#8 ++
    dumpDirectory (c.dumpSections cfg.stores) ++ List.replicate (4096 - 0x140 - 32 * (c.dumpSections cfg.stores).length) 0#8

/-- Starts a dump (R451). -/
def Ctl.startDump (c : Ctl) (cfg : Cfg) (cause cycle : Nat) : Ctl :=
  let slot := c.cof.dumpSlot
  let order := ((c.cof.dumps.map (·.order)).foldl Max.max 0) + 1
  let d : Dump := { slot := slot, cause := cause, order := order, header := c.dumpHeader cfg cause cycle, stores := cfg.stores, done := false }
  c.onCof fun k => { k with dumps := k.dumps.filter (·.slot ≠ slot) ++ [d], dumpLast := some slot, dumpHost := false }

/-- Declares a hang (R450): the device freezes, the tick closes to FAULT, the folio is sealed with HANG, a snapshot and the trigger,
HANG, and the dump begins. -/
def Ctl.hang (c : Ctl) (cfg : Cfg) (cause cycle : Nat) (m : Interval) : Ctl :=
  if c.hub.halted then c
  else
    let c := (c.onHub fun h => { h with halted := true }).onPwr fun p => { p with st := .halted }
    let c := if c.ldg.opening then (c.closeInterval cfg .hang m).seal cfg 16 else c
    let c := (c.snapDevice.trigger cfg 6).raise cfg .dbg 1#16
    (c.count 7 1).startDump cfg cause cycle

/-- The floor of both cases of R67: 20 ms. -/
def hangFloor : Nat := 20000

/-- HANG_LIMIT_EXPIRY (R67): the tick has run without a bell for HANG_LIMIT and for 20 ms. -/
def execHangLimitExpiry (elapsed us : Nat) (m : Interval) (s : State) : Host.Outcome State Fault Refusal :=
  if s.ctl.fe.ticking && s.cfg.hangLimit * s.ctl.tickLen ≤ elapsed && hangFloor ≤ us then
    .next { s with ctl := s.ctl.hang s.cfg 1 elapsed m }
  else .next s

/-- PROGRESS_STANDSTILL (R67): while the tick is long, a sequencer that has not reported done stands still for L cycles and for 20 ms. -/
def execProgressStandstill (yard : Yard) (cluster : Cluster) (p : Standstill) (us : Nat) (m : Interval) (s : State) :
    Host.Outcome State Fault Refusal :=
  if s.ctl.fe.ticking && s.ctl.yardUp (s.ctl.home yard) && !seqDone s yard cluster && s.ctl.tickLen < p.elapsed && s.ctl.tickLen ≤ p.still &&
      hangFloor ≤ us then
    .next { s with ctl := s.ctl.hang s.cfg 2 p.still m }
  else .next s

/-- Drops the last device-started job of a kind (R400): its handle ends when the next of the kind starts. -/
def Ctl.dropDeviceJob (c : Ctl) (typ : Nat) : Ctl :=
  let gone := c.objs.jobs.filter fun j => j.device && j.kind.typ = typ
  gone.foldl (fun c j => (c.onObjs fun o => { o with jobs := o.jobs.filter fun x => !(x.cmd.fn = j.cmd.fn && x.ix = j.ix) }).freeHandle
    j.cmd.fn j.ix) c

/-- Starts a device job of the management function (R400, R453): its handle where its table has room. -/
def Ctl.startDeviceJob (c : Ctl) (kind : JobKind) (limit : Nat) : Option (Nat × Ctl) :=
  let c := c.dropDeviceJob kind.typ
  match (c.fn? c.mgmt).bind fun f => f.issueSelf .job with
  | none => none
  | some (ix, g) =>
    let m : Cmd := ⟨g.num, 0, 0#16, false, 0⟩
    some (ix, (c.onFn g.num fun _ => g).onObjs fun o =>
      { o with jobs := o.jobs ++ [Job.fresh m ix 0 c.hub.tick 0#32 kind limit [] false true] })

/-- The sections of a dump go to host memory behind the header at `addr` (R451, R453). -/
def Ctl.dumpOut (c : Ctl) (addr : Nat) (b : DumpBody) : Ctl := c.onBus fun x => { x with dumps := (addr, b) :: x.dumps }

/-- A write of DBG_DUMP_CTRL: AUTO_RESET, STORES, SLOT and FETCH (R453). -/
def dumpWrite (s : State) (v : Word) : State :=
  let slot := Bits.field v 1 0
  let cfg := { s.cfg with autoReset := v.getLsbD 31, stores := v.getLsbD 30, dumpSlot := slot }
  let s := { s with cfg := cfg, ctl := s.ctl.touchCovered }
  if !(v.getLsbD 29) || s.ctl.hub.halted then s
  else
    let d := s.ctl.cof.dumps.find? fun x => x.slot = slot && x.done
    match s.ctl.startDeviceJob (.dump slot) ((d.map fun _ => 1).getD 0) with
    | none => s
    | some (ix, c) =>
      let c := c.onDbg fun x => { x with dumpJob := handleOf .job ix }
      match d, c.job? c.mgmt ix with
      | some d, some j =>
        if cfg.dumpEn then { s with ctl := (c.hostWrite c.mgmt none cfg.dumpAddr d.header).dumpOut cfg.dumpAddr d.body }
        else { s with ctl := c.finishJob j Status.badParameter 0#32 0 }
      | none, some j => { s with ctl := c.finishJob j Status.badParameter 0#32 0 }
      | _, none => { s with ctl := c }

/-- DUMP_FETCH: a write of DBG_DUMP_CTRL with FETCH (R453). -/
def execDumpFetch (fn : BitVec 8) (value : Word) (s : State) : Host.Outcome State Fault Refusal :=
  if s.ctl.mgmtAccess fn then .next (dumpWrite s value) else .next s

end Sys2Proof.Machine
end

