-- ==== Sys2Proof/Machine/Faults.lean ====
section
/-! DEFINITION. Faults, ageing and margins (14): retirement, sub-links, rows, channels, phases, ports, yards and relief sets, the
margin plan, SELFTEST and MARGIN_REPLAN. -/

namespace Sys2Proof.Machine

open Sys2Proof

/-! ### Master copies (R384, R386, R390, R397) -/

/-- The 64-byte units of a copy. -/
def Copy.units (x : Copy) : List Nat := unitsOf (if x.shed then shedKeyOf x.addr else fastKey x.addr) x.len

/-- Whether a copy of an epoch needs a master block that cannot be read, given by image and block: its own, or the base block of its delta
(R209). -/
def Ctl.unreadable (c : Ctl) (unread : List (Nat × Nat)) (e : Epoch) (x : Copy) : Bool :=
  unread.any fun u => x.block = some u.2 && (c.damagedBy u.1 (some u.2)).any (·.ix = e.image)

/-- The 64-byte units of the copies of an epoch whose masters can be read, the relief ones or the others. -/
def Ctl.copyUnitsOf (c : Ctl) (unread : List (Nat × Nat)) (e : Epoch) (relief : Bool) : List Nat :=
  ((c.copiesOf e relief).filter fun x => !c.unreadable unread e x).flatMap (·.units)

/-- The 64-byte units of the block lists of the epochs (R197). -/
def Ctl.listUnits (c : Ctl) : List Nat := c.listSpans.flatMap fun x => unitsOf (fastKey x.1) x.2

/-- Images become DAMAGED whose master blocks could not be read (R209). -/
def Ctl.damageAll (c : Ctl) (cfg : Cfg) (unread : List (Nat × Nat)) : Ctl := unread.foldl (fun c u => c.damageBlock cfg u.1 (some u.2)) c

/-- The yard whose stacks hold a 64-byte unit of the fast tier; none for any other unit. -/
def fastOwner (u : Nat) : Option Yard :=
  if 2 ^ 42 ≤ 64 * u && 64 * u < 2 ^ 42 + 2 ^ 41 then some (ownerOf (64 * u - 2 ^ 42)) else none

/-- Whether a relief copy's unit stands now: under relief placement, or in the relief yard of the set that runs. -/
def Ctl.reliefStands (c : Ctl) (u : Nat) : Bool :=
  (c.plan?.map (·.reliefOn)).getD false || (c.hub.reliefUp && (c.hub.relief.map reliefYard) = fastOwner u && (fastOwner u).isSome)

/-- What the coffer's masters give for every loaded unit, blocks moved into retirement pools and block lists among them: the engines with all
of it rewritten, and the units. -/
def masters (c : Ctl) (d : Dp) (unread : List (Nat × Nat)) : Dp × List Nat :=
  let d := c.objs.epochs.foldl (fun d e => loadRelief c (loadEpoch c d e) e) d
  let us := c.listUnits ++ c.objs.epochs.flatMap fun e => c.copyUnitsOf unread e false ++ (c.copyUnitsOf unread e true).filter c.reliefStands
  let moves := (List.finRange 8).flatMap fun k => (c.yd k).moved
  (moves.foldl (fun d m => d.write (fastKey m.2.1) (d.mem.readN (fastKey m.1) m.2.2) false) d,
    us ++ moves.flatMap fun m => unitsOf (fastKey m.2.1) m.2.2)

/-- Takes some units from another picture of the stores, with their poison; those of the shed are under a key of their own. -/
def Dp.takeUnits (d from0 : Dp) (sk : Nat) (us : List Nat) : Dp :=
  us.foldl (fun d u => (d.adoptAny sk u).write (64 * u) (from0.mem.readN (64 * u) 64) (from0.poison.contains u)) d

/-- The blocks that hold KV, once each. -/
def Ctl.kvBlocks (c : Ctl) : List MapEntry :=
  (c.allBlocks.filter fun e => e.node || !e.evicted).foldl (fun l e => if l.any (·.shadow = e.shadow) then l else l ++ [e]) []

/-- Rewrites the fast-tier units that satisfy a test: weights and tables from the coffer, KV from its shadow; a block without a good
copy is lost (R233), an image whose master cannot be read is DAMAGED (R209). -/
def rebuildUnits (s : State) (unread : List (Nat × Nat)) (sel : Nat → Bool) : State :=
  let m := masters s.ctl s.dp unread
  let s := { s with dp := s.dp.takeUnits m.1 s.ctl.sec.deviceKey (m.2.filter sel), ctl := s.ctl.damageAll s.cfg unread }
  s.ctl.kvBlocks.foldl (fun s e =>
    let n := ((s.ctl.plan?.map fun p => p.blockBytes e.yard)).getD 0
    let us := ((fastUnits e.fast n).zip (s.ctl.shedUnits e.shadow)).filter fun x => sel x.1
    if e.demoted || us.isEmpty then s
    else if goodShed s e.shadow then { s with dp := s.dp.copyUnits (s.ctl.shadowKey e.shadow) (us.map (·.2)) (us.map (·.1)) }
    else { s with ctl := s.ctl.kvLost s.cfg e }) s

/-! ### KV migration jobs (R400) -/

/-- Starts a KV migration job of some bytes. -/
def Ctl.startMigration (c : Ctl) (bytes : Nat) : Ctl :=
  match c.startDeviceJob .migration bytes with
  | none => c
  | some (ix, c) => c.onHub fun h => { h with rasJob := handleOf .job ix }

/-- The migration job ends with its last unit. -/
def Ctl.endMigration (c : Ctl) : Ctl :=
  match c.objs.jobs.find? fun j => j.device && j.kind.typ = 10 && j.st ≠ .ended with
  | some j => c.finishJob { j with progress := j.limit, moved := c.hub.tick } Status.success 0#32 0
  | none => c

/-! ### Yard faults and relief sets (R392-R399) -/

/-- HUB_RAS_EVENT and YRD_RAS_EVENT bits by number. -/
def evBit (i : Nat) : BitVec 16 := 1#16 <<< i

/-- The stalls of a microbatch in a yard up to the lost one are not committed any further (R394). -/
def Micro.failUpTo (m : Micro) (k : Yard) : Micro :=
  if m.yard ≤ k.val then
    { m with stalls := m.stalls.map fun st => { st with failedAt := st.failedAt.orElse fun _ => some m.yard } }
  else m

/-- Declares a yard fault (R392, R394, R399): a second one while a relief set runs or waits stops the device as a hang does. -/
def Ctl.loseYard (c : Ctl) (cfg : Cfg) (k : Yard) (cause : YardCause) : Ctl :=
  if c.hub.halted || (c.yd k).lost then c
  else if c.hub.relief.isSome || c.hub.reliefNext.isSome then c.hang cfg 4 0 noMeter
  else
    let c := (c.onYard k fun y => { y with lost := true }).raise cfg (.yras k) (evBit 12)
    let c := match cause with | .temperature => c.raise cfg .pwr 8#16 | _ => c
    let placed := (c.plan?.map (·.reliefOn)).getD false
    let c := c.onHub fun h =>
      { h with yardsUp := h.yardsUp &&& ~~~(1#8 <<< k.val), rasValid := true, rasPlaced := placed, rasYard := k, rasMs := 0
               reliefNext := if c.objs.selected.isSome then some k else none, reliefUp := false }
    c.onFe fun f => { f with pipe := f.pipe.map fun m => m.failUpTo k }

/-- YARD_LOST (R392, R394, R399). -/
def execYardLost (yard : Yard) (cause : YardCause) (s : State) : Host.Outcome State Fault Refusal :=
  .next { s with ctl := s.ctl.loseYard s.cfg yard cause }

/-- Whether a layer block of a yard lies where the yard's KV is now kept: on the relief yard's stacks under its relief set (R396). -/
def Ctl.inPlace (c : Ctl) (e : MapEntry) : Bool :=
  e.demoted || ownerOf e.fast = if c.hub.relief = some e.yard then reliefYard e.yard else e.yard

/-- Rebuilds from its shadow every layer block of a yard that does not lie where it should (R396, R398 step 3), as far as slots are
there. -/
def rebuildKv (s : State) (k : Yard) : State :=
  match s.ctl.plan? with
  | none => s
  | some p =>
    (s.ctl.kvBlocks.filter fun e => e.yard = k && !s.ctl.inPlace e).foldl (fun s e =>
      if !goodShed s e.shadow then { s with ctl := s.ctl.kvLost s.cfg e }
      else match s.ctl.fastAlloc p k e.layer e.block with
        | none => s
        | some a =>
          { s with dp := s.dp.copyUnits (s.ctl.shadowKey e.shadow) (s.ctl.shedUnits e.shadow) (fastUnits a (p.blockBytes k))
                   ctl := s.ctl.onBlock e.shadow fun y => { y with fast := a } }) s

/-- Gives the block lists of a yard their place and addresses anew: its layers now run elsewhere (R197, R394). -/
def relist (s : State) (k : Yard) : State :=
  let r := relistYard s.ctl s.dp k
  { s with dp := r.2, ctl := r.1 }

/-- The relief set of a lost yard takes effect at a bell (R394, R396). -/
def enterRelief (s : State) (k : Yard) : State :=
  let c := (s.ctl.onHub fun h => { h with relief := some k, reliefNext := none }).raise s.cfg .ras (evBit 0)
  let bytes := ((c.kvBlocks.filter fun e => e.yard = k && !c.inPlace e).map fun _ =>
    ((c.plan?.map fun p => p.blockBytes k)).getD 0).sum
  let c := if bytes = 0 then c else c.startMigration bytes
  let s := rebuildKv (relist { s with ctl := c } k) k
  { s with ctl := if bytes = 0 then s.ctl else s.ctl.endMigration }

/-- RELIEF_READY (R397): without relief placement the lost yard's epochs are loaded into the relief region first; an image whose master cannot be
read is DAMAGED (R209). -/
def reliefReady (s : State) (ms : Nat) (unread : List (Nat × Nat)) : State :=
  match s.ctl.hub.relief with
  | none => s
  | some k =>
    if s.ctl.hub.reliefUp || s.ctl.hub.halted then s
    else
      let eps := s.ctl.objs.epochs
      let scratch := eps.foldl (fun d e => loadRelief s.ctl d e) s.dp
      let us := (eps.flatMap fun e => s.ctl.copyUnitsOf unread e true).filter fun u => fastOwner u = some (reliefYard k)
      let placed := s.ctl.hub.rasPlaced
      let d := if placed then s.dp else s.dp.takeUnits scratch s.ctl.sec.deviceKey us
      let c := if placed then s.ctl else s.ctl.damageAll s.cfg unread
      let c := c.onHub fun h => { h with reliefUp := true, rasMs := Min.min ms (2 ^ 24 - 1) }
      { s with dp := d, ctl := c.raise s.cfg .ras (evBit 1) }

/-- RELIEF_READY (R397). -/
def execReliefReady (x : ReliefEnd) (s : State) : Host.Outcome State Fault Refusal :=
  .next (reliefReady s x.ms x.unread)

/-- A yard after its reset (R326, R98): sequencers, engines and arithmetic flags cleared, retirements and channels as the persistent store
has them; counters, event registers and the margin plan unchanged. -/
def Yd.cleared (y : Yd) (p : Prs) (k : Yard) : Yd :=
  let z := Yd.started p k (y.links, y.remapped)
  { y with lost := false, arith := {}, clu := 0#256, retired := z.retired, channels := z.channels, rotating := 0#10
           linksNext := none, raised := none, raisedAt := none, seqs := [], reports := {}
           uncorrectable := [], tableRewrite := [], volts := 0 }

/-- Whether a key lies in an on-die store or an accumulator of a yard. -/
def onDie (k : Yard) (key : Nat) : Bool :=
  let core : Nat := if key < 2 ^ 32 then key / coreBytes else if key < 2 ^ 33 then (key - 2 ^ 32) / clusterBytes * 40 else (key - 2 ^ 33) / 2048
  key < 2 ^ 42 && core / 40 / physClusters = k.val

/-- Engines, queues and on-die stores of a yard after its reset (R98, R326): cleared. The table stores hold the plan's image again (R114). -/
def Dp.yardReset (d : Dp) (k : Yard) (image : List Byte) : Dp :=
  let far (n x : Nat) : Bool := x / n / physClusters ≠ k.val
  { d with
    mem := d.mem.filter fun x => !onDie k x.1
    poison := d.poison.filter fun u => !onDie k (64 * u)
    flags := d.flags.filter fun x => far 40 x.1, clips := d.clips.filter fun x => far (65536 * 4096) x.1
    converted := d.converted.filter fun x => far 1 x.cluster, rowPoison := d.rowPoison.filter fun x => x / 65536 / 250 ≠ k.val
    queues := d.queues.filter fun x => far 160 x.1, waits := d.waits.filter fun x => far 120 x.1, waited := d.waited.filter fun x => far 2 x
    flights := d.flights.filter fun f => far 40 f.issuer, unfenced := d.unfenced.filter fun x => far 1 x.cluster
    badBlocks := d.badBlocks.filter fun x => far 1 x.1, units := d.units.filter fun x => x.1 / 13 / 65536 / 250 ≠ k.val, wparts := d.wparts.filter fun x => far 327680 x.1
    sparts := d.sparts.filter fun x => far 327680 x.1, progress := d.progress.filter fun x => x.1 / 250 ≠ k.val }.putTables
      ((List.range (physClusters * 40)).map (k.val * physClusters * 40 + ·)) image

/-- The lost yard returns (R398 steps 2 to 5), at the bell after the pipeline has drained: the yard comes out of its reset, its
epochs are reloaded and its KV rebuilt. -/
def restoreYard (s : State) (k : Yard) : State :=
  let c := s.ctl.onYard k fun y => y.cleared s.ctl.prs k
  let c := c.onHub fun h =>
    { h with relief := none, reliefEnds := false, reliefUp := false, yardsUp := h.yardsUp ||| (1#8 <<< k.val) }
  let d := s.dp.yardReset k ((c.plan?.map (·.table)).getD [])
  let s := rebuildUnits (relist { s with dp := d, ctl := c } k) [] fun u => fastOwner u = some k
  let bytes := ((s.ctl.kvBlocks.filter fun e => e.yard = k && !s.ctl.inPlace e).map fun _ =>
    ((s.ctl.plan?.map fun p => p.blockBytes k)).getD 0).sum
  let s := if bytes = 0 then s else { s with ctl := s.ctl.startMigration bytes }
  let s := rebuildKv s k
  let s := if bytes = 0 then s else { s with ctl := s.ctl.endMigration }
  let c := s.ctl.raise s.cfg .ras (evBit 2)
  { s with ctl := (c.objs.jobs.filter fun j => !j.over && match j.kind with
      | .replan _ left => left.contains k.val
      | _ => false).foldl (fun c j => c.finishJob j Status.success 0#32 0) c }

/-! ### Clusters (R378-R381) -/

/-- Changes a sequencer of a yard. -/
def Yd.onSeq (y : Yd) (l : Nat) (f : Seq → Seq) : Yd := { y with seqs := Sparse.upd {} y.seqs l f }

/-- Whether the spare column of a row is free: nothing retired into it and not faulted, rotation aside (R409). -/
def Yd.freeSpare (y : Yd) (row : Nat) : Bool := y.retired.getD row 31 = 31 || y.rotating.getLsbD row

/-- The retirement words of a yard (R380, R468): columns that rotation has out count as none. -/
def Yd.retiredWords (y : Yd) : Nat :=
  ((List.range 10).map fun r => (if y.rotating.getLsbD r then 31 else y.retired.getD r 31) * 2 ^ (5 * r)).sum

/-- Writes a yard's retirements durably (R380). -/
def Ctl.keepRetired (c : Ctl) (cfg : Cfg) (k : Yard) : Ctl :=
  let v := (c.yd k).retiredWords
  c.persistAll cfg (0x440 + 2 * k.val) [BitVec.ofNat 32 v, BitVec.ofNat 32 (v / 2 ^ 32)]

/-- Takes a new map of retired columns into use with its carried-area copy (R380): inbound areas and carried work ranges of every
logical cluster whose physical cluster changes. -/
def applyMap (s : State) (k : Yard) (new : List Nat) : State :=
  let old := (s.ctl.yd k).retired
  let areas := ((s.ctl.plan?.map (·.areas)).getD []).filter fun a => a.yard = k && (a.kind = 1 || a.carried)
  let d := areas.foldl (fun d a =>
    let l := a.cluster.val
    if physOf old l = physOf new l then d
    else
      let src := clusterKey (k.val * physClusters + physOf old l) a.base
      let dst := clusterKey (k.val * physClusters + physOf new l) a.base
      d.writeUnits dst (s.dp.mem.readN src a.size) ((unitsOf src a.size).map s.dp.poison.contains)) s.dp
  { s with dp := d, ctl := s.ctl.onYard k fun y => { y with retired := new } }

/-- A cluster has a hard fault (R378, R379, R381): fault mode at once, retirement at the next bell; a yard fault where its row has no
spare. -/
def Ctl.hardFault (c : Ctl) (cfg : Cfg) (k : Yard) (l : Cluster) : Ctl :=
  let y := c.yd k
  let row := l.val / 25
  let other := y.seqs.any fun x => x.2.faulty && x.1 ≠ l.val && x.1 / 25 = row
  if !y.freeSpare row || other then c.loseYard cfg k .other
  else c.onYard k fun y => y.onSeq l.val fun q => { q with faulty := true }

/-- Retires the clusters of a yard that are in fault mode (R380), at a bell. -/
def retireFaulty (s : State) (k : Yard) : State :=
  let y := s.ctl.yd k
  let bad := (y.seqs.filter fun x => x.2.faulty).map (·.1)
  if bad.isEmpty then s
  else
    let new := bad.foldl (fun m l => m.set (l / 25) (physOf y.retired l % 26)) y.retired
    let s := applyMap s k new
    let rot := bad.foldl (fun r l => r &&& ~~~(1#10 <<< (l / 25))) y.rotating
    let c := s.ctl.onYard k fun y => { y with rotating := rot, seqs := y.seqs.filter fun x => !x.2.faulty }
    { s with ctl := (c.keepRetired s.cfg k).raise s.cfg (.yras k) (evBit 0) }

/-- The key of a store byte of a cluster. -/
def faultKey (c : Ctl) (k : Yard) (l : Cluster) (core : Fin 40) (off : Nat) (cstore : Bool) : Nat :=
  if cstore then clusterKey (c.clu k l.val) off else coreKey (c.clu k l.val * 40 + core.val) off

/-- An uncorrectable error in a store (R168, R171, R378): the unit is poisoned, SRAM_UE raised and counted, and its address latched; a second one at
one of the last 64 addresses is a hard fault. -/
def sramFault (s : State) (k : Yard) (l : Cluster) (core : Fin 40) (off : Nat) (cstore : Bool) : State :=
  let key := faultKey s.ctl k l core off cstore
  let u := key / 64
  let again := (s.ctl.yd k).uncorrectable.contains u
  let c := s.ctl.onYard k fun y => { y with uncorrectable := (u :: y.uncorrectable.filter (· ≠ u)).take 64 }
  let addr := (s.ctl.clu k l.val % physClusters) * 2 ^ 48 + (if cstore then 0 else core.val * 2 ^ 42) + off
  let source := if cstore then 2 else if tableBase ≤ off then 4 else 3
  let c := ((c.raise s.cfg (.mem k) 16#16).countYard k 8 1).latchPoison k source addr
  { s with dp := { s.dp with poison := s.dp.poison.add u }, ctl := if again then c.hardFault s.cfg k l else c }

/-- CLUSTER_HARD_FAULT (R378-R381). -/
def execClusterHardFault (yard : Yard) (cluster : Cluster) (cause : FaultCause) (s : State) : Host.Outcome State Fault Refusal :=
  if s.ctl.hub.halted || !s.ctl.yardUp yard then .next s
  else match cause with
    | .sram core off cstore =>
      if (if cstore then clusterBytes else coreBytes) ≤ off then .fault .noSuchAddress
      else .next (sramFault s yard cluster core off cstore)
    | _ => .next { s with ctl := s.ctl.hardFault s.cfg yard cluster }

/-! ### Sub-links (R382, R383) -/

/-- The sub-links that a yard will have in service. -/
def Yd.linksDue (y : Yd) : BitVec 8 := y.linksNext.getD y.links

/-- Loses a sub-link (R382, R383). -/
def Ctl.loseLink (c : Ctl) (cfg : Cfg) (k : Yard) (i : Fin 8) : Ctl :=
  let due := (c.yd k).linksDue
  if c.hub.halted || !due.getLsbD i.val then c
  else
    let now := due &&& ~~~(1#8 <<< i.val)
    let n := linkCount now
    let c := (c.onYard k fun y => { y with linksNext := some now }).raise cfg (.yras k) (evBit 2)
    let c := if n ≤ 6 then c.raise cfg (.yras k) (evBit 3) else c
    if n < 5 then c.loseYard cfg k .other else c

/-- SUBLINK_LOST (R382, R383). -/
def execSublinkLost (yard : Yard) (link : Fin 8) (s : State) : Host.Outcome State Fault Refusal :=
  .next { s with ctl := s.ctl.loseLink s.cfg yard link }

/-! ### Rows and channels (R384-R387) -/

/-- Whether a 64-byte unit lies on a channel of a near stack. -/
def onChannel (k : Yard) (near : Fin 2) (ch : Nat) (u : Nat) : Bool :=
  let a := 64 * u - 2 ^ 42
  (fastOwner u).isSome && stackOf a = 2 * k.val + near.val && a / 4096 % 32 = ch

/-- Bytes of a stack's weight, retirement and KV regions (R385). -/
def planStackUse (p : Plan) (i : Nat) : Nat :=
  (p.weightUnits.getD i 0 + p.poolUnits.getD i 0) * unitBytes + p.kvSlots.getD i 0 * p.blockBytes (Fin.ofNat 8 (i / 2))

/-- Whether a stack's rebuild reserve has room for the units of `n` lost channels (R385, R387): its share of the regions, spread over
the channels that are left. -/
def planReserveHolds (p : Plan) (i n : Nat) : Bool := n < 32 && n * planStackUse p i ≤ p.reserve.getD i 0 * (32 - n)

/-- Lost channels of a near stack. -/
def Yd.lostOn (y : Yd) (near : Nat) : List Nat :=
  (List.range 32).filter fun i => (Sparse.get {} y.channels (32 * near + i)).lost

/-- Loses a channel (R385-R387): recorded durably, admission paused, its KV to be migrated; a yard fault where the reserve is used up. -/
def Ctl.loseChannel (c : Ctl) (cfg : Cfg) (k : Yard) (near : Fin 2) (ch : Nat) : Ctl :=
  let i := 32 * near.val + ch
  if c.hub.halted || (Sparse.get {} (c.yd k).channels i).lost then c
  else
    let c := c.onYard k fun y => { y with channels := Sparse.upd {} y.channels i fun x => { x with lost := true, rebuilt := false } }
    let w := 0x480 + 2 * k.val + near.val
    let c := (c.persist cfg w (c.prs.word w ||| (1#32 <<< ch))).2.raise cfg (.yras k) (evBit 5)
    let n := ((c.yd k).lostOn near.val).length
    if !((c.plan?.map fun p => planReserveHolds p (2 * k.val + near.val) n).getD true) then c.loseYard cfg k .other
    else
      let kv := ((c.kvBlocks.filter fun e => !e.demoted).map fun e =>
        ((fastUnits e.fast (((c.plan?.map fun p => p.blockBytes e.yard)).getD 0)).filter (onChannel k near ch)).length * 64).sum
      (c.onHub fun h => { h with paused := h.paused + 1 }).startMigration kv

/-- CHANNEL_LOST (R385-R387). -/
def execChannelLost (yard : Yard) (near : Fin 2) (channel : BitVec 5) (s : State) : Host.Outcome State Fault Refusal :=
  .next { s with ctl := s.ctl.loseChannel s.cfg yard near channel.toNat }

/-- CHANNEL_REBUILT (R386 steps 3 and 4): the lost channel's units stand in the reserve, where their addresses now lead; an image whose master
cannot be read is DAMAGED (R209). -/
def rebuildChannel (s : State) (k : Yard) (near : Fin 2) (ch : Nat) (unread : List (Nat × Nat)) : State :=
  let i := 32 * near.val + ch
  let x := Sparse.get {} (s.ctl.yd k).channels i
  if s.ctl.hub.halted || !x.lost || x.rebuilt then s
  else
    let s := rebuildUnits s unread (onChannel k near ch)
    let c := s.ctl.onYard k fun y => { y with channels := Sparse.upd {} y.channels i fun x => { x with rebuilt := true } }
    let c := (c.onHub fun h => { h with paused := h.paused - 1 }).endMigration
    { s with ctl := c.raise s.cfg (.yras k) (evBit 6) }

/-- CHANNEL_REBUILT (R386). -/
def execChannelRebuilt (yard : Yard) (near : Fin 2) (x : Rebuilt) (s : State) :
    Host.Outcome State Fault Refusal :=
  .next (rebuildChannel s yard near x.channel.toNat x.unread)

/-- ROW_REPAIR (R384): the row's poisoned units are rewritten; a bank without a spare row loses its channel. -/
def repairRow (s : State) (r : RowFault) : State :=
  if s.ctl.hub.halted then s
  else if !r.spare then { s with ctl := s.ctl.loseChannel s.cfg r.yard r.near r.channel.toNat }
  else
    let sel (u : Nat) : Bool := onChannel r.yard r.near r.channel.toNat u && s.dp.poison.contains u &&
      (64 * u - 2 ^ 42) % 2 ^ 37 / 2 ^ 17 = r.row
    let s := rebuildUnits s [] sel
    { s with ctl := s.ctl.raise s.cfg (.yras r.yard) (evBit 4) }

/-- ROW_REPAIR (R384). -/
def execRowRepair (r : RowFault) (s : State) : Host.Outcome State Fault Refusal := .next (repairRow s r)

/-! ### Phases and the coffer (R388, R389) -/

/-- Loses a regulator phase (R388): of a yard's rail, or of a hub or module rail. -/
def Ctl.losePhase (c : Ctl) (cfg : Cfg) (k : Option Yard) : Ctl :=
  if c.hub.halted then c
  else match k with
    | some k =>
      let c := (c.onYard k fun y => { y with phases := y.phases + 1 }).raise cfg (.yras k) (evBit 7)
      if 3 ≤ (c.yd k).phases then c.loseYard cfg k .other else c
    | none =>
      let c := (c.onHub fun h => { h with phases := h.phases + 1 }).raise cfg .ras (evBit 3)
      if 3 ≤ c.hub.phases then c.hang cfg 3 0 noMeter else c

/-- PHASE_LOST (R388). -/
def execPhaseLost (yard : Option Yard) (s : State) : Host.Outcome State Fault Refusal :=
  .next { s with ctl := s.ctl.losePhase s.cfg yard }

/-- Whether stripes programmed while some channels were lost have now lost two pages. -/
def spoiled (lost without : NatSet) : Bool := 2 ≤ (lost.filter fun i => !without.has i).length

/-- Images that a loss of stripes damages (R389, R209): those whose own stripes are unreadable, and variants with a delta block over
such a base. -/
def Ctl.spoiledImages (c : Ctl) : List Image :=
  let own (i : Image) : Bool := spoiled c.cof.lost i.without
  c.objs.images.filter fun i => own i || (c.objs.images.any (fun b => i.base = some b.ix && own b) && i.records.any isDelta)

/-- COFFER_CHANNEL_LOST (R389). -/
def Ctl.loseCofferChannel (c : Ctl) (cfg : Cfg) (ch : Nat) : Ctl :=
  if c.cof.lost.has ch then c
  else
    let first := c.cof.lost.isEmpty
    let c := c.onCof fun k => { k with lost := k.lost.add ch, free := if first then k.free * 30 / 31 else k.free }
    let c := c.onCof fun k => if spoiled k.lost k.fwWithout then { k with region := some none } else k
    c.spoiledImages.foldl (fun c i => c.damage cfg i) (c.raise cfg .ras (evBit 4))

/-- COFFER_CHANNEL_LOST (R389, R209). -/
def execCofferChannelLost (channel : BitVec 5) (s : State) : Host.Outcome State Fault Refusal :=
  .next { s with ctl := s.ctl.loseCofferChannel s.cfg channel.toNat }

/-! ### CXL ports (R390, R391) -/

/-- Whether the copy of a block at a shed address has a part on a port. -/
def Ctl.partOn (c : Ctl) (port addr : Nat) : Bool := (c.shedRuns addr).any fun r => r.1 / 2 ^ 44 = port

/-- Too little shed space is left (R391). -/
def Ctl.shadowShort (c : Ctl) (cfg : Cfg) : Ctl := (c.onHub fun h => { h with short := true }).raise cfg .ras (evBit 9)

/-- Moves an epoch's cold units off a port; none where the remaining ports lack the space. -/
def Ctl.moveCold (c : Ctl) (port : Nat) (e : Epoch) : Option Ctl :=
  let gone := e.cold.filter fun a => a / 2 ^ 44 = port
  if gone.isEmpty then some c
  else (c.allocCold gone.length).map fun r =>
    let at0 (a : Nat) : Nat := if a / 2 ^ 44 = port then r.1.getD (gone.idxOf a) a else a
    let block (b : Bool × Option Nat) : Bool × Option Nat := if b.1 then (true, b.2.map fun a => at0 (a - a % 65536) + a % 65536) else b
    let e := { e with cold := e.cold.map at0, placed := { e.placed with blocks := e.placed.blocks.map block } }
    r.2.setEpoch e

/-- Rewrites the cold units of a lost port from their masters (R390 step 2); the block lists name them where they now stand (R197). -/
def rehomeCold (s : State) (port : Nat) : State :=
  let old := s.ctl.objs.epochs.flatMap (·.cold)
  let s := s.ctl.objs.epochs.foldl (fun (s : State) e => match s.ctl.moveCold port e with
    | some c => { s with ctl := c }
    | none => { s with ctl := s.ctl.shadowShort s.cfg }) s
  let new := (s.ctl.objs.epochs.flatMap (·.cold)).filter fun a => !old.contains a
  let m := masters s.ctl s.dp []
  let inNew (u : Nat) : Bool := new.any fun a => shedKeyOf a ≤ 64 * u && 64 * u < shedKeyOf a + 65536
  let d := s.dp.takeUnits m.1 s.ctl.sec.deviceKey (m.2.filter inNew)
  { s with dp := if new.isEmpty then d else s.ctl.objs.epochs.foldl (fun d e => s.ctl.putLists d e) d }

/-- Makes the mirrors of a lost port anew from their shadows (R390 step 2). -/
def rehomeMirrors (s : State) (port : Nat) : State :=
  match s.ctl.plan? with
  | none => s
  | some p =>
    (s.ctl.kvBlocks.filter fun e => e.demoted && e.mirror ≠ 0 && s.ctl.partOn port e.mirror).foldl (fun (s : State) e =>
      let fn := ((s.ctl.fe.shed.find? fun g => (List.range g.count).any fun i => g.addr i = e.mirror).map (·.fn)).getD 0#8
      match s.ctl.mirrorAlloc fn (p.blockBytes e.yard) e.shadow with
      | none => { s with ctl := (s.ctl.onBlock e.shadow fun y => { y with mirror := 0 }).shadowShort s.cfg }
      | some (a, c) =>
        if !goodShed s e.shadow then { s with ctl := s.ctl.kvLost s.cfg e }
        else { s with dp := s.dp.copyUnits (s.ctl.shadowKey e.shadow) (c.shedUnits e.shadow) (c.shedUnits a)
                      ctl := c.onBlock e.shadow fun y => { y with mirror := a } }) s

/-- CXL_PORT_LOST (R390 steps 1, 2 and 5). -/
def losePort (s : State) (port : Nat) : State :=
  if s.ctl.hub.halted || !(s.ctl.port port).up || (s.ctl.port port).held then s
  else
    let c := { s.ctl with cxl := s.ctl.cxl.set port { s.ctl.port port with up := false, held := true, cause := 2 } }
    let c := (c.raise s.cfg .ras (evBit 7)).onHub fun h => { h with portPause := true }
    let size (e : MapEntry) (a : Nat) : Nat :=
      if a ≠ 0 && c.partOn port a then ((c.plan?.map fun p => p.blockBytes e.yard)).getD 0 else 0
    let mirrors := (c.kvBlocks.map fun e => if e.demoted then size e e.mirror else 0).sum
    let shadows := (c.kvBlocks.map fun e => size e e.shadow).sum
    let c := c.startMigration (mirrors + shadows)
    let s := rehomeMirrors (rehomeCold { s with ctl := c } port) port
    let c := (s.ctl.objs.nodes.filter (·.port = port)).foldl (fun c n => c.dropNode n) s.ctl
    { s with ctl := match c.objs.jobs.find? fun j => j.device && j.kind.typ = 10 && j.st ≠ .ended with
      | some j => c.setJob (j.moveTo c.hub.tick mirrors)
      | none => c }

/-- CXL_PORT_LOST (R390, R391). -/
def execCxlPortLost (port : Fin 4) (s : State) : Host.Outcome State Fault Refusal := .next (losePort s port.val)

/-- Gives a block whose shadow stands on a lost port a new one, from its fast copy or its mirror (R390 step 4). -/
def rehomeShadow (s : State) (p : Plan) (e : MapEntry) : State :=
  let n := p.blockBytes e.yard
  let fn := ((s.ctl.fe.shed.find? fun g => (List.range g.count).any fun i => g.addr i = e.shadow).map (·.fn)).getD 0#8
  let src : Option (List Nat) :=
    if !e.demoted && goodFast s e.fast n then some (fastUnits e.fast n)
    else if e.demoted && goodShed s e.mirror then some (s.ctl.shedUnits e.mirror) else none
  match src, s.ctl.shadowAlloc fn n with
  | none, _ => { s with ctl := s.ctl.kvLost s.cfg e }
  | some _, none => { s with ctl := s.ctl.shadowShort s.cfg }
  | some us, some (a, c) =>
    let source (m : List MapEntry) : List MapEntry :=
      m.map fun z => if z.copyOf = some e.shadow then { z with copyOf := some a } else z
    let c := c.onObjs fun o => { o with sessions := o.sessions.map fun x => { x with map := source x.map } }
    { s with dp := s.dp.copyUnits (c.fnKey fn) us (c.shedUnits a), ctl := c.onBlock e.shadow fun y => { y with shadow := a } }

/-- SHADOW_REHOMED (R390 step 4). -/
def rehomeShadows (s : State) (port : Nat) : State :=
  if s.ctl.hub.halted || !(s.ctl.port port).held || (s.ctl.port port).cause ≠ 2 then s
  else match s.ctl.plan? with
    | none => { s with ctl := s.ctl.endMigration.raise s.cfg .ras (evBit 8) }
    | some p =>
      let s := (s.ctl.kvBlocks.filter fun e => s.ctl.partOn port e.shadow).foldl (fun s e => rehomeShadow s p e) s
      { s with ctl := s.ctl.endMigration.raise s.cfg .ras (evBit 8) }

/-- SHADOW_REHOMED (R390). -/
def execShadowRehomed (port : Fin 4) (s : State) : Host.Outcome State Fault Refusal := .next (rehomeShadows s port.val)

/-! ### Ageing and the margin plan (R403-R408) -/

/-- The margin-plan word of a grade (R404, YRD_MARGINg). -/
def Yd.marginWord (y : Yd) (g : Nat) : Word :=
  BitVec.ofNat 32 ((if y.held.getD g false then 2 ^ 31 else 0) + (y.offsets.getD g 0 % 256).toNat)

/-- Writes a margin-plan entry durably (R404). -/
def Ctl.keepMargin (c : Ctl) (cfg : Cfg) (k : Yard) (g : Nat) : Ctl :=
  (c.persist cfg (0x400 + 3 * k.val + g) ((c.yd k).marginWord g)).2

/-- CPM_RAISE (R405): one step up, at most once in 10 µs; beyond +40 the grade is not held any more. -/
def Ctl.cpmRaise (c : Ctl) (cfg : Cfg) (k : Yard) (code : BitVec 16) (us : Nat) : Ctl :=
  let y := c.yd k
  let g := c.hub.grades.current
  let soon := match y.raisedAt with | some t => us < t + 10 | none => false
  if c.hub.halted || !c.yardUp k || Config.cpmLevels.1 ≤ code || soon then c
  else
    let next := (y.raised.getD (y.offsets.getD g 0)) + 1
    if 40 < next then (c.onYard k fun y => { y with held := y.held.set g false, raisedAt := some us }).keepMargin cfg k g
    else (c.onYard k fun y => { y with raised := some next, raisedAt := some us, volts := y.volts + 1 }).raise cfg (.yras k) (evBit 8)

/-- CPM_RAISE (R405). -/
def execCpmRaise (yard : Yard) (_cluster : Cluster) (code : BitVec 16) (us : Nat) (s : State) : Host.Outcome State Fault Refusal :=
  .next { s with ctl := s.ctl.cpmRaise s.cfg yard code us }

/-- The raises of a tick enter the margin plan at its bell (R405): the offset of the grade in force. -/
def Ctl.settleRaise (c : Ctl) (cfg : Cfg) (k : Yard) : Ctl :=
  match (c.yd k).raised with
  | none => c
  | some v =>
    let g := c.hub.grades.current
    (c.onYard k fun y => { y with offsets := y.offsets.set g v, raised := none }).keepMargin cfg k g

/-- CPM_CRITICAL (R405, R378): the cluster's rows of the tick are poisoned and it has a hard fault. -/
def cpmCritical (s : State) (k : Yard) (l : Cluster) (code : BitVec 16) : State :=
  if s.ctl.hub.halted || !s.ctl.yardUp k || Config.cpmLevels.2 ≤ code then s
  else
    let n := (s.ctl.yardStalls k).length
    let d := { s.dp with rowPoison := (List.range n).foldl (fun p i => p.add (rowMark k l i)) s.dp.rowPoison }
    { s with dp := d, ctl := (s.ctl.raise s.cfg (.yras k) (evBit 9)).hardFault s.cfg k l }

/-- CPM_CRITICAL (R405, R378). -/
def execCpmCritical (yard : Yard) (cluster : Cluster) (code : BitVec 16) (s : State) : Host.Outcome State Fault Refusal :=
  .next (cpmCritical s yard cluster code)

/-- Whether a run of proving ticks lets an offset be lowered (R407): at least 16, each with the slack codes of at least five clusters,
all above the warning level by more than two steps. -/
def provesOk (proofs : List (List (BitVec 16))) : Bool :=
  16 ≤ proofs.length && proofs.all fun t => 5 ≤ t.length &&
    t.all fun code => Config.cpmLevels.1.toNat + Config.cpmTwoSteps.toNat < code.toNat

/-- MARGIN_CHANGED (R407): the offset goes down by one step; a grade not held is held again at +40. -/
def Ctl.marginChanged (c : Ctl) (cfg : Cfg) (k : Yard) (g : Nat) (proofs : List (List (BitVec 16))) : Ctl :=
  let y := c.yd k
  let free := ((List.range 10).filter y.freeSpare).length
  let off := y.offsets.getD g 0
  if c.hub.halted || !c.yardUp k || free < 5 || !provesOk proofs || (y.held.getD g false && off ≤ -16) then c
  else
    let c := c.onYard k fun y =>
      if y.held.getD g false then { y with offsets := y.offsets.set g (off - 1) } else { y with held := y.held.set g true, offsets := y.offsets.set g 40 }
    (c.keepMargin cfg k g).raise cfg (.yras k) (evBit 10)

/-- MARGIN_CHANGED (R407). -/
def execMarginChanged (yard : Yard) (grade : Fin 3) (proofs : List (List (BitVec 16))) (s : State) : Host.Outcome State Fault Refusal :=
  .next { s with ctl := s.ctl.marginChanged s.cfg yard grade.val proofs }

/-! ### SELFTEST and MARGIN_REPLAN (R408-R412) -/

/-- SELFTEST (R409-R412). -/
def Ctl.selftest (c : Ctl) (p : Pkt) (mask : Byte) (kind : Nat) (report : RegionRef) (found : List TestFault) : Ctl :=
  c.packet p .health true (fun f =>
    [(f.regionLive report, Status.badHandle), (kind ≤ 2 && f.regionOk report none true, Status.badParameter)]) fun d _ m =>
    let rows := (List.finRange 8).flatMap fun k => (List.range 10).filter fun r => mask.getLsbD k.val && (d.yd k).freeSpare r
    (d.acceptJob m 0x60 0#32 (.selftest mask kind report found) (if kind = 0 then 26 * rows.length else 0) [report.handle] false).1

/-- SELFTEST (R409-R412). -/
def execSelftest (p : Pkt) (mask : Byte) (kind : Nat) (report : RegionRef) (found : List TestFault) (s : State) :
    Host.Outcome State Fault Refusal :=
  .next { s with ctl := s.ctl.selftest p mask kind report found }

/-- MARGIN_REPLAN (R408, R398). -/
def Ctl.marginReplan (c : Ctl) (p : Pkt) (mask : Byte) : Ctl :=
  c.packet p .health true (fun _ => []) fun d _ m =>
    let yards := (List.range 8).filter mask.getLsbD
    (d.acceptJob m 0x61 0#32 (.replan mask yards) yards.length [] false).1

/-- MARGIN_REPLAN (R408, R398). -/
def execMarginReplan (p : Pkt) (mask : Byte) (s : State) : Host.Outcome State Fault Refusal :=
  .next { s with ctl := s.ctl.marginReplan p mask }

/-- Rotation of one yard (R409): the rows with a free spare have a column out, or none; the map change carries its areas. -/
def rotate (s : State) (k : Yard) (col : Option Nat) : State :=
  let y := s.ctl.yd k
  let rows := (List.range 10).filter y.freeSpare
  let new := rows.foldl (fun m r => m.set r (col.getD 31)) y.retired
  let bits := if col.isSome then rows.foldl (fun b r => b ||| (1#10 <<< r)) 0#10 else 0#10
  let s := if new = y.retired then s else applyMap s k new
  { s with ctl := s.ctl.onYard k fun y => { y with rotating := bits } }

/-- A finding of KIND 0 (R378, R410): a faulted spare, or a cluster that stays retired. -/
def retireFound (s : State) (f : TestFault) : State :=
  if h : f.yard.toNat < 8 then
    let k : Yard := ⟨f.yard.toNat, h⟩
    let row := f.place.toNat
    let col := f.unit.toNat
    if 10 ≤ row || 25 < col || (s.ctl.yd k).retired.getD row 31 ≠ 31 then s
    else
      let s := applyMap s k ((s.ctl.yd k).retired.set row col)
      { s with ctl := (s.ctl.keepRetired s.cfg k).raise s.cfg (.yras k) (if col = 25 then evBit 1 else evBit 0) }
  else s

/-- A finding of KIND 1 whose row was repaired (R384, R411). -/
def Ctl.repairFound (c : Ctl) (cfg : Cfg) (f : TestFault) : Ctl :=
  if h : f.yard.toNat < 8 then if f.cause = 5#8 then c.raise cfg (.yras ⟨f.yard.toNat, h⟩) (evBit 4) else c else c

/-- The report of R412, as far as its region goes. -/
def testReport (kind : Nat) (mask : Byte) (tested : Nat) (found : List TestFault) (room : Nat) : List Byte :=
  let head := [BitVec.ofNat 8 kind, mask, 0#8, 0#8] ++ Bits.toLe tested 4 ++ Bits.toLe found.length 4 ++ List.replicate 52 0#8
  let entry (f : TestFault) : List Byte :=
    [f.yard, f.place] ++ Bits.toLe f.unit.toNat 2 ++ [f.cause, 0#8, 0#8, 0#8] ++ Bits.toLe f.tick 8
  (head ++ (found.take ((room - 64) / 16)).flatMap entry).take room

/-- The end of a self-test (R410-R412): its findings take effect, its report is written, and it ends or waits with NO_SPARE. -/
def endSelftest (s : State) (j : Job) (mask : Byte) (kind : Nat) (report : RegionRef) (found : List TestFault) : State :=
  let yards := (List.finRange 8).filter fun k => mask.getLsbD k.val
  let bare := kind = 0 && yards.any fun k => (List.range 10).any fun r => !(s.ctl.yd k).freeSpare r
  let s := if kind = 0 then found.foldl retireFound (yards.foldl (fun s k => rotate s k none) s)
    else if kind = 1 then { s with ctl := found.foldl (fun c f => c.repairFound s.cfg f) s.ctl } else s
  let c := match s.ctl.fn? j.cmd.fn with
    | some f =>
      let room := ((f.region report.handle).map fun (x : Region) => x.len - report.off).getD 0
      s.ctl.regionWrite f report (testReport kind mask j.progress found room)
    | none => s.ctl
  if bare then
    { s with ctl := (c.setJob { j with st := .waiting, wait := 4, status := Status.noSpare }).interim j.cmd Status.noSpare j.ix }
  else { s with ctl := c.finishJob j (if found.isEmpty then Status.success else Status.selftestFailed) 0#32 0 }

/-- The end of a re-plan (R398, R408): at once, or, where it brings back the lost yard that a relief set runs for, once the pipeline has
drained. A lost yard that no relief set runs for, as where no plan is selected, returns at once. -/
def endReplan (s : State) (j : Job) (mask : Byte) : State :=
  match s.ctl.hub.relief.orElse fun _ => s.ctl.hub.reliefNext with
  | some k =>
    if mask.getLsbD k.val then
      { s with ctl := (s.ctl.setJob { j with kind := .replan mask [k.val] }).onHub fun h => { h with reliefEnds := true } }
    else { s with ctl := s.ctl.finishJob j Status.success 0#32 0 }
  | none =>
    let back := (List.finRange 8).filter fun k => mask.getLsbD k.val && (s.ctl.yd k).lost
    if back.isEmpty then { s with ctl := s.ctl.finishJob j Status.success 0#32 0 } else back.foldl restoreYard s

/-- A step of a job that runs in time (R298), at a bell: a suspended or waiting job does not move. -/
def jobStep (s : State) (x : JobStep) : State :=
  match s.ctl.job? x.fn (ixOf x.job) with
  | none => s
  | some j =>
    if j.over || j.st ≠ .running || (j.device && j.kind.typ ≠ 11) then s
    else
      let j := j.moveTo s.ctl.hub.tick (if j.limit = 0 then x.progress else Min.min x.progress j.limit)
      let s := { s with ctl := s.ctl.setJob j }
      match j.kind with
      | .selftest mask kind report found =>
        if x.ended then endSelftest s j mask kind report found
        else if kind = 0 then
          let i := j.progress / Max.max 1 (j.limit / 26)
          (List.finRange 8).foldl (fun s k =>
            if mask.getLsbD k.val then rotate s k (if 1 ≤ i && i ≤ 25 then some (i - 1) else none) else s) s
        else s
      | .replan mask _ => if x.ended then endReplan s j mask else s
      | .dump _ => if x.ended then { s with ctl := s.ctl.finishJob j Status.success 0#32 0 } else s
      | _ => s

end Sys2Proof.Machine
end

