-- ==== Sys2Proof/Machine/Done.lean ====
section
/-! DEFINITION. Done reports (02): what a cluster's local sequencer brings to the hub at the end of its segment. -/

namespace Sys2Proof.Machine

open Sys2Proof

/-- The units that a cluster of a yard's range has counted (R339). -/
def Dp.unitsOf (d : Dp) (k : Yard) (l : Nat) : List (Nat × Nat) := d.units.filter fun x => x.1 / 13 / 65536 = 250 * k.val + l

/-- What a cluster's report adds to its yard's (R42, R96, R137, R138, R170, R339): the OR of its cores' flags, the stalls whose rows it
has poisoned, its clip counts and converted totals, its units and issue slots. A sequencer in fault mode names every stall (R379). The
clusters that prove or are under test are not among those in service and send no report (R98, R138, R407). -/
def Reports.add (r : Reports) (s : State) (d : DoneIn) : Reports :=
  let clu := s.ctl.clu d.yard d.cluster.val
  let q := s.ctl.seq d.yard d.cluster.val
  let fl := (List.range 40).foldl (fun b i => b ||| Sparse.get 0#8 s.dp.flags (clu * 40 + i)) 0#8
  let mine := if q.faulty then List.range (s.ctl.yardStalls d.yard).length
    else (s.dp.rowPoison.filter fun x => x / 65536 = 250 * d.yard.val + d.cluster.val).map (· % 65536)
  { clusters := r.clusters ++ [d.cluster.val]
    flags := if fl = 0#8 then r.flags else r.flags ++ [(d.cluster.val, fl)]
    units := r.units ++ s.dp.unitsOf d.yard d.cluster.val
    poisoned := (r.poisoned ++ mine).eraseDups
    clips := r.clips ++ s.dp.clips.filter fun x => x.1 / 65536 / 4096 = clu
    converted := r.converted ++ s.dp.converted.filter fun x => x.yard = d.yard && x.cluster = clu
    mxeUsed := r.mxeUsed + d.mxeUsed
    mxeOffered := r.mxeOffered + d.mxeOffered }

/-- The engines of a cluster after its report: flags and counts are cleared (R96, R137, R339). -/
def Dp.reported (d : Dp) (clu : Nat) (k : Yard) (l : Nat) : Dp :=
  { d with flags := d.flags.filter fun x => x.1 / 40 ≠ clu
           clips := d.clips.filter fun x => x.1 / 65536 / 4096 ≠ clu
           converted := d.converted.filter (·.cluster ≠ clu), badBlocks := d.badBlocks.filter (·.1 ≠ clu)
           units := d.units.filter fun x => x.1 / 13 / 65536 ≠ 250 * k.val + l }

/-- The memory and link events that a cluster reports with its tick (R168, R171, YRD_MEM_EVENT) and their counters. Waits count where a consumer of
the cluster did wait in the tick (R163). -/
def Ctl.reportMemory (c : Ctl) (cfg : Cfg) (waited : NatSet) (d : DoneIn) : Ctl :=
  let k := c.home d.yard
  let clu := c.clu d.yard d.cluster.val
  let c := (c.countYard k 3 (if waited.has (2 * clu) then d.waitFetch else 0)).countYard k 4 (if waited.has (2 * clu + 1) then d.waitMem else 0)
  let c := (c.countYard k 7 d.sramCe).countYard k 9 d.replays
  let bits := (if d.sramCe = 0 then 0#16 else 8#16) ||| (if d.replays = 0 then 0#16 else 32#16)
  let c := if bits = 0#16 then c else c.raise cfg (.mem k) bits
  (List.range d.portLate).foldl (fun c _ => c.breach cfg k 5 d.cycle false) c

/-- Whether a cluster's segment is complete (R42): no block that its cores fetch is on its way, and no consumer of its cores waits. Writes and
outbound transfers are accepted as they are made. -/
def Dp.quiet (d : Dp) (clu : Nat) : Bool := d.flights.all (fun f => f.issuer / 40 ≠ clu) && d.waits.all fun w => w.1 / 120 ≠ clu || w.2 = .none

/-- Whether a cluster may report done: ticks run, the device is not frozen, the yard answers or its relief set runs its range, it has not reported,
and its segment is complete. -/
def Ctl.mayReport (c : Ctl) (dp : Dp) (k : Yard) (l : Cluster) : Bool :=
  !c.hub.halted && c.fe.ticking && c.yardUp (c.home k) && !(c.yd k).reports.clusters.contains l.val && dp.quiet (c.clu k l.val)

/-- DONE_REPORT's effect: the blocks that reached the cluster as poison stand as damaged until they are restored (R206, R267). -/
def doneReport (s : State) (d : DoneIn) : State :=
  if !s.ctl.mayReport s.dp d.yard d.cluster then s
  else
    let clu := s.ctl.clu d.yard d.cluster.val
    let bad := (s.dp.badBlocks.filter (·.1 = clu)).map (·.2)
    let c := s.ctl.onYard d.yard fun y =>
      { y with reports := y.reports.add s d, damaged := y.damaged ++ bad.filter fun a => !y.damaged.contains a }
    { s with dp := s.dp.reported clu d.yard d.cluster.val, ctl := c.reportMemory s.cfg s.dp.waited d }

/-- DONE_REPORT (R42, R96, R137, R163, R170). -/
def execDoneReport (d : DoneIn) (s : State) : Host.Outcome State Fault Refusal := .next (doneReport s d)

end Sys2Proof.Machine
end

