-- ==== Sys2Proof/Machine/Plans.lean ====
section
/-! DEFINITION. Plans (02, 10): what PLAN_LOAD refuses, loading, replacing and selecting. -/

namespace Sys2Proof.Machine

open Sys2Proof

/-! ### What a plan must satisfy (R47 and the rules that refer to it) -/

/-- The contract level that the device reports in HUB_CONTRACT_LVL (R47). -/
def contractLevel : Nat := 1

/-- The slack reserve of a tick of some ACLK (R62). -/
def slackReserve (l : Nat) : Nat := Bits.ceilDiv l 50

/-- The tick length of a plan in ACLK (R36). -/
def planTick (p : Plan) : Nat := 4096 * p.tickUnits

/-- Every present bucket of a plan, those of its relief sets among them (R43, R393). -/
def allBuckets (p : Plan) : List Bucket := p.buckets ++ p.reliefBuckets.flatten

/-- R36, R47, R62: the tick length, the contract level, and C within the slack. -/
def tickOk (p : Plan) : Bool :=
  32 ≤ p.tickUnits && p.tickUnits ≤ 16384 && p.contract = contractLevel &&
    (allBuckets p).all fun b => b.c + slackReserve (planTick p) ≤ planTick p

/-- The token-count and KV-budget classes of a bucket (R43). -/
def bucketClasses (b : Bucket) : Nat × Nat := (b.index / 64, b.index % 64)

/-- R43: a table of 4,096 entries, one for each index; the classes increase strictly in T and in P. -/
def bucketsOk (bs : List Bucket) : Bool :=
  (bs.map (·.index)).Nodup && bs.all fun a => a.index < 4096 && bs.all fun b =>
    ((bucketClasses b).1 ≤ (bucketClasses a).1 || a.t < b.t) && ((bucketClasses b).2 ≤ (bucketClasses a).2 || a.p < b.p)

/-- R73: a code that may name an element format. -/
def elementCode (c : Nat) : Bool := c < 0xB

/-- Whether a word is a positive, finite FP32 value. -/
def positiveFinite (w : Word) : Bool := !w.getLsbD 31 && Bits.field w 30 23 ≠ 255 && Bits.field w 30 0 ≠ 0

/-- R107: the output formats of a special function, and their scale. -/
def sfnOutOk (format : Nat) (scale : Byte) : Bool := format ≤ 2 || ((format = 3 || format = 4) && scale ≠ 0xFF#8)

/-- R104, R107: a use of SFN calls a shipped function or a loaded slot, with an output format of R107. -/
def sfnUseOk (p : Plan) (u : SfnUse) : Bool :=
  (u.slot ≤ 13 || (16 ≤ u.slot && p.micro.any (·.slot = u.slot))) && sfnOutOk u.format u.scale

/-- R112, R113: a step word of a user micro-program. MODE 4 of RANGE is for the shipped range only. -/
def stepOk (w : Word) : Bool :=
  let mode := Bits.field w 27 24
  let rest := Bits.field w 19 0
  match Bits.field w 31 28 with
  | 1 => (mode = 0 || mode = 2 || mode = 3 || (mode = 1 && Bits.field w 23 20 ≤ 13)) && rest = 0
  | 2 => 1 ≤ mode && mode ≤ 4 &&
      16 * Bits.field w 8 0 + 4 * mode * 2 ^ Bits.field w 23 21 * (Bits.field w 12 9 + 1) ≤ 8192
  | 3 => mode ≤ 3 && Bits.field w 23 0 = 0
  | 4 => mode ≤ 4 && rest = 0
  | 5 => mode ≤ 4 && Bits.field w 23 0 = 0
  | _ => false

/-- R111: ROUND is the last step and no other. -/
def roundLast : List Word → Bool
  | [] => false
  | [w] => Bits.field w 31 28 = 5
  | w :: t => Bits.field w 31 28 ≠ 5 && roundLast t

/-- R111-R115: a micro-program of a plan. -/
def microOk (m : MicroProg) : Bool :=
  16 ≤ m.slot && m.slot ≤ 63 && m.steps.length ≤ 32 && m.consts.length ≤ 16 && roundLast m.steps && m.steps.all stepOk

/-- R73, R133: the formats that a plan names for an entry of a rescale table are integer ones, or there is none. -/
def entryKindOk (k : EntryKind) : Bool := k.out.all Fmt.integer && k.weight.all Fmt.integer

/-- R104, R107, R111-R114, R126, R489, R73: what a plan's instructions name. -/
def programsOk (p : Plan) : Bool :=
  p.formats.all elementCode && (p.images.all fun i => i.entries.all entryKindOk) && p.sfnUses.all (sfnUseOk p) && p.micro.all microOk && (p.micro.map (·.slot)).Nodup &&
    p.table.length ≤ 8192 &&
    p.cvts.all (fun c => 8 ≤ c.format && c.format ≤ 0xA && positiveNormal c.scale && match Fmt.ofCode c.format with
      | some f => f.codeRange.1 ≤ c.zero && c.zero ≤ f.codeRange.2
      | none => false) &&
    p.epsilons.all fun e => !e.getLsbD 31 && Bits.field e 30 23 ≠ 255

/-- R148: an area of a cluster store: multiples of 64 bytes, inside the store; a carried range lies in a work area. -/
def areaOk (p : Plan) (a : PlanArea) : Bool :=
  a.base % 64 = 0 && a.size % 64 = 0 && a.base + a.size ≤ clusterBytes &&
    (!a.carried || p.areas.any fun b => !b.carried && b.kind = 3 && b.yard = a.yard && b.cluster = a.cluster && b.base ≤ a.base &&
      a.base + a.size ≤ b.base + b.size)

/-- Whether two areas overlap (R148). -/
def areasMeet (a b : PlanArea) : Bool :=
  a.yard = b.yard && a.cluster = b.cluster && a.base < b.base + b.size && b.base < a.base + a.size

/-- Whether the areas of a list are apart from one another. -/
def areasApart : List PlanArea → Bool
  | [] => true
  | a :: t => t.all (fun b => !areasMeet a b) && areasApart t

/-- R148: a cluster that has areas has one of each kind, and its inbound area has two halves of whole units. -/
def areasWhole (p : Plan) (a : PlanArea) : Bool :=
  (List.finRange 4).all (fun k => (p.areas.filter fun b => !b.carried && b.yard = a.yard && b.cluster = a.cluster && b.kind = k).length = 1) &&
    (a.kind ≠ 1 || a.size % 128 = 0)

/-- R148: the store areas of a plan. -/
def areasOk (p : Plan) : Bool :=
  p.areas.all (areaOk p) && p.areas.all (areasWhole p) && areasApart (p.areas.filter fun a => !a.carried)

/-- R161: a segment header binds each queue of a cluster once, and the depths sum to no more than 64. -/
def queuesOk (p : Plan) : Bool :=
  p.queues.all fun a =>
    let mine := p.queues.filter fun b => b.yard = a.yard && b.cluster = a.cluster
    (mine.filter (·.queue = a.queue)).length = 1 && (mine.map (·.depth)).sum ≤ 64

/-- R146, R148, R158: the store area of an entry lies inside one area of a cluster of a yard. -/
def areaIn (p : Plan) (k : Yard) (e : BlockEntry) (l : Cluster) : Bool :=
  let lo := (entryArea e).off
  let hi := lo + entryBytes e
  match e.store with
  | .core => hi ≤ tableBase
  | .cluster => p.areas.any fun a => !a.carried && a.yard = k && a.cluster = l && a.base ≤ lo && hi ≤ a.base + a.size

/-- The clusters in which an entry's data land: its set's, or one. -/
def landsIn (p : Plan) (k : Yard) (e : BlockEntry) (l : Cluster) : List Cluster :=
  if e.mcast then ((p.msets.find? fun m => m.yard = k && m.index = e.mset).map (·.clusters)).getD [] else [l]

/-- R158: the store area of an entry lies inside one area of every cluster that it lands in. -/
def entryAreaOk (p : Plan) (e : PlanEntry) : Bool := (landsIn p e.yard e.entry e.cluster).all (areaIn p e.yard e.entry)

/-- R158: a COMP entry: absolute, in the fast tier, read by an FXE from a near stack. -/
def compOk (e : PlanEntry) : Bool :=
  !e.entry.comp || (!e.entry.rel && e.entry.tier = 0#2 && !e.sxe && stackOf e.entry.addr.toNat / 2 = e.yard.val)

/-- R158, R159: an entry's address: in range, aligned and on one stack or expander; or a stall reference. -/
def entryAddrOk (c : Ctl) (e : BlockEntry) : Bool :=
  if e.rel then e.addr.toNat % 64 = 0 && e.addr.toNat / 2 ^ 56 % 16 = 0 else c.entryFits e

/-- R158: an entry of a block list. -/
def listEntryOk (c : Ctl) (p : Plan) (e : PlanEntry) : Bool :=
  e.entry.tier ≠ 3#2 && !e.entry.rsvd && 1 ≤ e.entry.len && e.entry.len ≤ 1024 && entryAreaOk p e && compOk e &&
    (!e.entry.mcast || (!e.sxe && p.msets.any fun m => m.yard = e.yard && m.index = e.entry.mset)) && entryAddrOk c e.entry

/-- The clusters that hold slots of a layer (R252). -/
def slotClusters (r : Router) : List Cluster := (List.finRange 250).filter fun l => 40 * l.val < r.nslot * r.slotCores

/-- The clusters that an item of a block-list template may land in: those of its entry, or for an expert's list those of the layer's slots. -/
def itemClusters (p : Plan) (x : ListItem) : List Cluster :=
  match x.expert with
  | none => landsIn p x.yard x.entry x.cluster
  | some _ => (p.routers.filter fun r => r.layer = x.layer && r.yard = x.yard).flatMap slotClusters

/-- R158, R197, R268, R270: an item of a block-list template. Its ADDR is relocated to the block's place: in the shed for a cold block; one that
passes through the expander stands on a near stack of its yard. -/
def listItemOk (p : Plan) (pi : PlanImage) (x : ListItem) : Bool :=
  let h := blockHome p pi x.block
  !x.entry.rel && !x.entry.rsvd && 1 ≤ x.entry.len && x.entry.len ≤ 1024 && x.block < pi.blocks.length &&
    x.entry.tier = (if h.shed then 1#2 else 0#2) && (!x.entry.comp || (!h.shed && !h.wide && h.stack / 2 = x.yard.val)) &&
    (!x.entry.mcast || p.msets.any fun m => m.yard = x.yard && m.index = x.entry.mset) && (itemClusters p x).all (areaIn p x.yard x.entry)

/-- R134, R194, R197: what a plan says of an image: its block-list template, and table segments of at most 4,096 entries. -/
def planImageOk (p : Plan) (pi : PlanImage) : Bool :=
  pi.lists.all (listItemOk p pi) && (segments pi).all fun g => (entriesOf pi g).length ≤ 4096

/-- R213: a KV descriptor. -/
def kvDescOk (d : KvDesc) : Bool :=
  d.kind ≤ 1 && (d.format = 8 || d.format = 0xA || d.format = 1) && d.widthA % 32 = 0 && 32 ≤ d.widthA && d.widthA ≤ 4096 &&
    (if d.kind = 0 then d.widthB % 32 = 0 && d.widthB ≤ 512 && 1 ≤ d.heads && d.heads ≤ 128
      else 1 ≤ d.widthB && d.widthB ≤ 64 && 1 ≤ d.heads && d.heads ≤ 32) &&
    d.blockBytes = Bits.ceilDiv (64 * positionBytes d) 4096 * 4096 && positiveFinite d.tau

/-- R213, R217: the layers of one yard have one BLOCK_BYTES, NMA operations work on integer formats, and KV regions begin on a 4 KiB boundary. -/
def kvDescsOk (p : Plan) : Bool :=
  p.kvDescs.all kvDescOk && (p.kvDescs.all fun a => p.kvDescs.all fun b => a.yard ≠ b.yard || a.blockBytes = b.blockBytes) &&
    (p.nmaLayers.all fun x => p.kvDescs.any fun d => d.yard = x.1 && d.layer = x.2 && (d.format = 8 || d.format = 0xA)) &&
    (p.kvBase ++ p.reliefKvBase).all fun a => a % 4096 = 0

/-- R259: the slots that a bucket of some tokens needs. -/
def slotsFor (r : Router) (t : Nat) : Nat :=
  let c := r.k * t
  let a := Min.min r.nexp c
  a + (c - a) / r.tps

/-- R252, R255, R259: a router descriptor. -/
def routerOk (p : Plan) (r : Router) : Bool :=
  1 ≤ r.nexp && r.nexp ≤ 256 && 1 ≤ r.k && r.k ≤ 2 && r.k ≤ r.nexp && !r.rsvd && 1 ≤ r.nslot && r.nslot ≤ 10000 &&
    r.nslot * r.slotCores ≤ 10000 && [1, 2, 4, 5, 8, 10, 20, 40].contains r.slotCores && (r.rowFmt = 1 || r.rowFmt = 3) &&
    1 ≤ r.tps && r.tps ≤ 1024 && r.tableClu ≤ 249 && r.partner ≠ r.yard && (r.wideOn || r.wide = 0#256) &&
    r.cold &&& r.wide = 0#256 && (allBuckets p).all fun b => b.t ≤ 65536 && slotsFor r b.t ≤ r.nslot

/-- R385: each near stack's rebuild reserve. -/
def reserveOk (p : Plan) : Bool := (List.range 16).all fun i => planStackUse p i ≤ 31 * p.reserve.getD i 0

/-- R415: an adapter path. -/
def pathOk (x : AdapterPath) : Bool :=
  x.layer ≤ 4094 && x.matrix ≤ 255 && x.kind ≤ 1 && x.n % 32 = 0 && 32 ≤ x.n && x.n ≤ 65504 &&
    (if x.kind = 0 then x.m % 32 = 0 && 32 ≤ x.m && x.m ≤ 65504 && positiveFinite x.alpha else x.m = 0)

/-- R415, R423: paths and at least one tuning bucket for them. -/
def pathsOk (p : Plan) : Bool :=
  p.paths.length ≤ 1024 && p.paths.all pathOk && (p.paths.isEmpty || p.buckets.any fun b => 0 < b.bt)

/-- What PLAN_LOAD checks of a signed plan (R47). -/
def planOk (c : Ctl) (p : Plan) : Bool :=
  tickOk p && bucketsOk p.buckets && p.reliefBuckets.all bucketsOk && programsOk p && areasOk p && queuesOk p && p.entries.all (listEntryOk c p) &&
    kvDescsOk p && p.routers.all (routerOk p) && p.images.all (planImageOk p) && reserveOk p && p.reliefBuckets.length = 8 && pathsOk p

/-! ### PLAN_LOAD (R48, R369) -/

/-- Loaded plans that count toward the limit of four (R48). -/
def Ctl.planCount (c : Ctl) : Nat := (c.objs.plans.filter fun l => !l.replaced).length

/-- Whether a plan of a name may be loaded (R48): it replaces one, or there is room. -/
def Ctl.planRoom (c : Ctl) (name : BitVec 128) : Bool := c.planLoaded name || c.planCount < 4

/-- PLAN_LOAD (R48): only the name is read before the checks. -/
def Ctl.planLoad (c : Ctl) (p : Pkt) (region : RegionRef) (length : Nat) (name : HostRead (Option (BitVec 128))) : Ctl :=
  c.packet p .management true (fun f =>
    [(f.regionLive region, Status.badHandle),
      (length < 2 ^ 32 && f.regionOk region (some length) false, Status.badParameter)]) fun d _ m =>
    let n := readOr name none
    let r := d.acceptJob m 0x88 0#32 (.planLoad (n.getD 0#128) length) length [region.handle] false
    match r.2.bind fun ix => r.1.job? m.fn ix with
    | none => r.1
    | some j =>
      match name, n with
      | .xlat, _ => r.1.finishJob j Status.translation 0#32 0
      | .past, _ => r.1.finishJob j Status.badParameter 0#32 0
      | .ok _, none => r.1.finishJob j Status.permission 0#32 0
      | .ok _, some n => if r.1.planRoom n then r.1 else r.1.finishJob j Status.noSpace 0#32 0

/-- PLAN_LOAD (R47, R48, R369). -/
def execPlanLoad (p : Pkt) (region : RegionRef) (length : Nat) (name : HostRead (Option (BitVec 128))) (s : State) :
    Host.Outcome State Fault Refusal :=
  .next { s with ctl := s.ctl.planLoad p region length name }

/-- Whether a plan is selected or waits to be (R48). -/
def Ctl.planHeld (c : Ctl) (ix : Nat) : Bool :=
  c.objs.selected = some ix || match c.fe.switch with | some w => w.plan = some ix | none => false

/-- Replaces the loaded plan of a name (R48): its handle goes; one that is held stays loaded until another is in force. -/
def Ctl.replacePlan (c : Ctl) (name : BitVec 128) : Ctl :=
  match c.objs.plans.find? fun l => l.plan.name = name && !l.replaced with
  | none => c
  | some l =>
    let mark (x : Loaded) : Loaded := if x.ix = l.ix then { x with replaced := true } else x
    let c := c.freeHandle c.mgmt l.ix
    c.onObjs fun o =>
      { o with plans := if c.planHeld l.ix then o.plans.map mark else o.plans.filter (·.ix ≠ l.ix) }

/-- The end of a plan's load (R47, R48, R369): PERMISSION, BAD_PARAMETER or NO_SPACE, or the plan under its handle. -/
def Ctl.planLoaded? (c : Ctl) (data : HostRead (Option Plan)) : Plan ⊕ BitVec 16 :=
  match data with
  | .xlat => .inr Status.translation
  | .past => .inr Status.badParameter
  | .ok none => .inr Status.permission
  | .ok (some p) =>
    if !c.signed 1 p.body p.sig then .inr Status.permission
    else if !planOk c p then .inr Status.badParameter
    else if !c.planRoom p.name then .inr Status.noSpace
    else .inl p

/-- PLAN_LOAD_COMPLETE's effect on the job that it ends. -/
def Ctl.planLoadComplete (c : Ctl) (cfg : Cfg) (n : BitVec 8) (h : Handle) (data : HostRead (Option Plan)) : Ctl :=
  match c.job? n (ixOf h) with
  | none => c
  | some j =>
    match j.kind with
    | .planLoad _ length =>
      if j.over || j.st ≠ .running || j.wait = 8 then c
      else match c.planLoaded? data with
        | .inr st => c.finishJob j st 0#32 0
        | .inl p =>
          let c := c.replacePlan p.name
          match (c.fn? n).bind fun f => f.issueSelf .plan with
          | none => c.finishJob j Status.noSpace 0#32 0
          | some (ix, g) =>
            let order := ((c.objs.plans.map (·.order)).foldl Max.max 0) + 1
            let c := (c.onFn n fun _ => g).onObjs fun o => { o with plans := o.plans ++ [⟨ix, p, order, false⟩] }
            (c.program cfg length).finishJob { j with progress := length, moved := c.hub.tick } Status.success (handleOf .plan ix) 0
    | _ => c

/-- PLAN_LOAD_COMPLETE (R47, R48, R369). -/
def execPlanLoadComplete (fn : BitVec 8) (job : Handle) (data : HostRead (Option Plan)) (s : State) :
    Host.Outcome State Fault Refusal :=
  .next { s with ctl := s.ctl.planLoadComplete s.cfg fn job data }

/-! ### PLAN_SELECT (R52, R295, R353, R398) -/

/-- A loaded plan that a handle of the management function names. -/
def Ctl.planAt (c : Ctl) (f : Fn) (h : Handle) : Option Loaded :=
  (f.object .plan h).bind fun ix => c.objs.plans.find? fun l => l.ix = ix && !l.replaced

/-- Yards that are not in service. -/
def Ctl.yardsOut (c : Ctl) : List Yard := (List.finRange 8).filter fun k => !c.yardUp k

/-- PLAN_SELECT: the switch waits for the pipeline to drain (R52) and is made at a bell. -/
def Ctl.planSelect (c : Ctl) (p : Pkt) : Ctl :=
  c.packet p .management false (fun f =>
    [(p.subject = 0#32 || (c.planAt f p.subject).isSome, Status.badHandle),
      (c.fe.switch.isNone && c.ldg.ready && (p.subject = 0#32 || c.yardsOut.length ≤ 1), Status.badState)]) fun d f m =>
    let plan := if p.subject = 0#32 then none else (d.planAt f p.subject).map (·.ix)
    d.onFe fun x => { x with switch := some ⟨plan, m, false⟩ }

/-- PLAN_SELECT (R52, R295, R353). -/
def execPlanSelect (p : Pkt) (s : State) : Host.Outcome State Fault Refusal := .next { s with ctl := s.ctl.planSelect p }

end Sys2Proof.Machine
end

