-- ==== Sys2Proof/Machine/FrontEnd.lean ====
section
/-! DEFINITION. The global front end (02, 07, 08, 10, 11, 15): replays, candidates, shares, buckets, the long lane's planning, and the
admission cut-off. -/

namespace Sys2Proof.Machine

open Sys2Proof

/-! ### Stalls on their way -/

/-- Whether a stall's step is still on its way: neither struck nor failed. -/
def Stall.live (st : Stall) : Bool := !st.struck && st.failedAt.isNone

/-- Whether a stall is of the long lane. -/
def Stall.isLane (st : Stall) : Bool :=
  match st.work with
  | .lane _ => true
  | _ => false

/-- Whether a stall is of a tuning run. -/
def Stall.tunes (st : Stall) : Bool :=
  match st.work with
  | .forward _ | .backward _ => true
  | _ => false

/-- Whether a stall's failure is not yet answered by a replay. -/
def Stall.fresh (st : Stall) : Bool := !st.struck && st.failedAt.any (· < 8)

/-- Whether a decode step's token is still to be sampled by the step before it. -/
def Stall.unfilled (st : Stall) : Bool := st.work = .decode && st.tokens.isEmpty

/-- The chunk or step that a tuning stall is of. -/
def Stall.chunkKey (st : Stall) : BitVec 8 × Handle × Nat := (st.fn, st.session, st.position)

/-- Every stall whose step is still on its way: in flight, formed, or waiting to be replayed. -/
def Ctl.liveStalls (c : Ctl) : List Stall :=
  ((c.fe.pipe ++ c.fe.formed.toList).flatMap (·.stalls) ++ c.fe.replays.flatten).filter Stall.live

/-- Those of a session. -/
def Ctl.stallsOf (c : Ctl) (x : Session) : List Stall :=
  c.liveStalls.filter fun st => st.fn = x.fn && st.session = handleOf .session x.ix

/-- Counts anew which steps of sessions and requests are in flight. -/
def Ctl.recount (c : Ctl) : Ctl :=
  let live := c.liveStalls
  let carried (j : Job) : Nat :=
    match c.session? j.cmd.fn (ixOf j.subject) with
    | some x => if x.commands[1]? = some j.cmd.order then (live.filter fun st => st.fn = x.fn && st.session = j.subject && st.pendingToken).length else 0
    | none => 0
  let job (j : Job) : Job :=
    if !j.isRequest then j
    else
      let own := (live.filter fun st => st.fn = j.cmd.fn && st.request = j.cmd.order && !st.isLane).length
      { j with inflight := own + if j.kind.typ = 2 then carried j else 0 }
  let session (x : Session) : Session :=
    let own := (live.filter fun st => st.fn = x.fn && st.session = handleOf .session x.ix && !st.isLane).length
    { x with inflight := own + if x.lane.isSome then 1 else 0 }
  c.onObjs fun o => { o with jobs := o.jobs.map job, sessions := o.sessions.map session }

/-! ### Buckets (R43-R46, R220, R393, R416, R423) -/

/-- What a microbatch asks of a bucket: tokens, KV positions, stalls, backward tokens, per attention layer the near positions of each
stack and the demoted ones, and the distinct adapters. -/
structure Load where
  t : Nat := 0
  p : Nat := 0
  n : Nat := 0
  bt : Nat := 0
  near : List (Nat × Nat × Nat) := []
  adapters : List (BitVec 8 × Handle) := []
  deriving DecidableEq, Repr

/-- Two loads together. -/
def Load.add (a b : Load) : Load :=
  { t := a.t + b.t, p := a.p + b.p, n := a.n + b.n, bt := a.bt + b.bt
    near := if a.near.isEmpty then b.near else if b.near.isEmpty then a.near
      else a.near.zipWith (fun x y => (x.1 + y.1, x.2.1 + y.2.1, x.2.2 + y.2.2)) b.near
    adapters := (a.adapters ++ b.adapters).eraseDups }

/-- Whether a bucket covers a load (R45, R220, R416, R423). -/
def covers (p : Plan) (b : Bucket) (l : Load) : Bool :=
  l.t ≤ b.t && l.p ≤ b.p && l.n ≤ b.s && l.bt ≤ b.bt && (l.near.all fun x => x.1 ≤ b.pn && x.2.1 ≤ b.pn && x.2.2 ≤ b.ps) &&
    (p.paths.isEmpty || l.adapters.length ≤ b.d)

/-- The bucket table in force: the plan's, or that of the relief set that runs (R393, R394). -/
def Ctl.bucketTable (c : Ctl) (p : Plan) : List Bucket :=
  match c.hub.relief with
  | some k => p.reliefBuckets.getD k.val []
  | none => p.buckets

/-- The bucket of a load (R45): the smallest C, then the smaller index. -/
def chooseBucket (p : Plan) (table : List Bucket) (l : Load) : Option Bucket :=
  (table.filter fun b => covers p b l).foldl (fun acc b =>
    match acc with
    | none => some b
    | some a => if b.c < a.c || (b.c = a.c && b.index < a.index) then some b else some a) none

/-- S_max of a plan (R139). -/
def planSmax (p : Plan) : Nat := (p.buckets.map (·.s)).foldl Max.max 0

/-- The occupancy band of `n` stalls (R139). -/
def bandOf (n smax : Nat) : Nat := if 4 * n < smax then 0 else if 4 * n < 2 * smax then 1 else if 4 * n < 3 * smax then 2 else 3

/-- The positions that a stall of a session attends, per attention layer (R220). -/
def attendLoad (p : Plan) (x : Session) (pos : Nat) : List (Nat × Nat × Nat) := p.kvDescs.map fun d => layerUse x d.yard d.layer pos

/-- What a stall asks of a bucket (R44, R220, R248, R423). -/
def Ctl.loadOf (c : Ctl) (p : Plan) (st : Stall) : Load :=
  let near := match c.session? st.fn (ixOf st.session) with
    | some x => attendLoad p x st.position
    | none => []
  let ads := if st.adapter = 0#32 then [] else [(st.fn, st.adapter)]
  match st.work with
  | .decode => { t := 1, p := st.positions, n := 1, near := near, adapters := ads }
  | .prefill n => { t := n, p := st.positions, n := 1, near := near, adapters := ads }
  | .lane a => { t := 1, p := a, n := 1, near := near.map fun x => (a / 2, a / 2, Min.min p.maxPs x.2.2), adapters := ads }
  | .item => { t := st.count, p := st.positions, n := 1, adapters := ads }
  | .forward n => { t := n, p := st.positions, n := 1 }
  | .backward n => { n := 1, bt := n }

/-- The (image, epoch) pairs that a stall's layers run (R205). -/
def Ctl.keyOf (c : Ctl) (st : Stall) : List (Nat × Nat) :=
  match st.work, c.jobByOrder st.request with
  | .item, some j => (match j.kind with
    | .launch _ _ _ _ images _ _ => images
    | _ => [(st.image, st.epoch)])
  | _, _ => [(st.image, st.epoch)]

/-! ### Replays (R206, R207, R394, R424) -/

/-- Moves the extents of a KV view from the part offsets of one bucket to those of another (R219). -/
def rebaseExtent (bb pn ps qn qs : Nat) (e : Extent) : Extent :=
  let near (n : Nat) : Nat := Bits.ceilDiv n 64 * bb
  let stride (n s : Nat) : Nat := 2 * near n + near s
  let i := e.off / stride pn ps
  let r := e.off % stride pn ps
  let at0 := if r < near pn then r else if r < 2 * near pn then near qn + (r - near pn) else 2 * near qn + (r - 2 * near pn)
  { e with off := i * stride qn qs + at0 }

/-- The same for every KV view of a stall. -/
def rebaseViews (p : Plan) (pn ps qn qs : Nat) (vs : List ObjView) : List ObjView :=
  vs.map fun v => if v.slot = 1 then { v with extents := v.extents.map (rebaseExtent (p.blockBytes v.yard) pn ps qn qs) } else v

/-- The part limits that views of waiting replays are kept under. -/
def farPart : Nat := 2 ^ 40

/-- The bucket of a microbatch. -/
def Micro.bucketIn (m : Micro) (p : Plan) : Option Bucket :=
  let table := match m.relief with
    | some k => p.reliefBuckets.getD k.val []
    | none => p.buckets
  m.bucket.bind fun i => table.find? (·.index = i)

/-- A failed stall as its step is run again (R207): the same step, views and marks. A backward visit is run again with its chunk (R424). -/
def Stall.again (st : Stall) (c : Ctl) (m : Micro) : Stall :=
  let views := match c.plan?.bind fun p => (m.bucketIn p).map fun b => (p, b) with
    | some (p, b) => rebaseViews p b.pn b.ps farPart farPart st.views
    | none => st.views
  let x := { st with replay := true, firstRun := (st.firstRun ++ st.committed).eraseDups, committed := [], failedAt := none, gen := 0, views := views }
  match st.work with
  | .backward n => { x with work := .forward n, positions := n, bwdYard := none, firstRun := List.range 8 }
  | _ => x

/-- Marks the stalls that the done reports of their yard name as poisoned (R170, R206). -/
def Ctl.markPoisoned (c : Ctl) : Ctl :=
  let bad (m : Micro) : List Nat := match (List.finRange 8).find? (·.val = m.yard) with
    | some k => (c.yd k).reports.poisoned
    | none => []
  let mark (m : Micro) : Micro :=
    { m with stalls := m.stalls.mapIdx fun i st =>
        if (bad m).contains i && st.live && st.runsIn m.yard then { st with failedAt := some m.yard } else st }
  c.onFe fun f => { f with pipe := f.pipe.map mark }

/-- Later steps in flight of a session whose step failed fail with it; one whose token the failed step was to sample is struck. -/
def Ctl.failLater (c : Ctl) : Ctl :=
  let bad := (c.fe.pipe.flatMap (·.stalls)).filter fun st => st.fresh && !st.tunes && !st.isLane && st.session ≠ 0#32
  let later (st : Stall) : Bool := st.live && !st.tunes && bad.any fun x => x.fn = st.fn && x.session = st.session && x.position < st.position
  let fix (y : Nat) (st : Stall) : Stall :=
    if !later st then st else if st.unfilled then { st with struck := true } else { st with failedAt := some y }
  c.onFe fun f =>
    { f with pipe := f.pipe.map fun m => { m with stalls := m.stalls.map (fix m.yard) }
             formed := f.formed.map fun m => { m with stalls := m.stalls.map (fix 0) } }

/-- Failed stalls wait as replays, those of one microbatch together, the oldest microbatch first; a tuning chunk waits once and its
other visits in flight are struck. -/
def Ctl.queueReplays (c : Ctl) : Ctl :=
  let ms := (c.fe.pipe ++ c.fe.formed.toList).mergeSort fun a b => b.yard ≤ a.yard
  let held := (c.fe.replays.flatten.filter Stall.tunes).map Stall.chunkKey
  let r := ms.foldl (fun (acc : List (List Stall) × List (BitVec 8 × Handle × Nat)) m =>
    let xs := m.stalls.filter fun st => st.fresh && !st.isLane && !(st.tunes && acc.2.contains st.chunkKey)
    let xs := xs.foldl (fun (l : List Stall) st => if st.tunes && l.any fun y => y.tunes && y.chunkKey = st.chunkKey then l else l ++ [st]) []
    (if xs.isEmpty then acc.1 else acc.1 ++ [xs.map fun st => st.again c m], acc.2 ++ (xs.filter Stall.tunes).map Stall.chunkKey)) ([], held)
  let done (st : Stall) : Stall :=
    if st.fresh then { st with failedAt := st.failedAt.map (8 + ·) }
    else if st.tunes && st.live && r.2.contains st.chunkKey then { st with struck := true } else st
  let mark (m : Micro) : Micro := { m with stalls := m.stalls.map done }
  c.onFe fun f => { f with pipe := f.pipe.map mark, formed := f.formed.map mark, replays := f.replays ++ r.1 }

/-- Gathers the failures known now (R206). -/
def Ctl.collect (c : Ctl) : Ctl := c.markPoisoned.failLater.queueReplays

/-! ### Candidates (R323) -/

/-- A candidate for admission: a request by the order of its packet, or a tuning run's next chunk. -/
inductive Cand where
  | job (order : Nat)
  | chunk (fn : BitVec 8) (run : Nat)
  deriving DecidableEq, Repr

/-- A microbatch as it is formed: the controls so far, its stalls, their load, the epochs it runs, the candidates left by function. -/
structure Forming where
  c : Ctl
  stalls : List Stall
  load : Load
  key : Option (List (Nat × Nat))
  pools : List (BitVec 8 × List Cand)

/-- Whether a stall can join: the same epochs, no other stall of its session, and a bucket left that covers (R46, R205). -/
def Forming.fits (fm : Forming) (p : Plan) (st : Stall) : Bool :=
  (fm.key.all (· = fm.c.keyOf st)) && (chooseBucket p (fm.c.bucketTable p) (fm.load.add (fm.c.loadOf p st))).isSome &&
    (st.session = 0#32 || st.tunes || fm.stalls.all fun y => !(y.fn = st.fn && y.session = st.session))

/-- Adds a stall. -/
def Forming.put (fm : Forming) (p : Plan) (st : Stall) (c : Ctl) : Forming :=
  { fm with c := c, stalls := fm.stalls ++ [st], load := fm.load.add (fm.c.loadOf p st), key := some (fm.c.keyOf st) }

/-- A stall with nothing behind it yet. -/
def Stall.start (fn : BitVec 8) (session job : Handle) (request : Nat) (work : Work) (tokens : List Word) (position positions count : Nat)
    (epoch : Nat × Nat) (adapter : Handle) (samples : Bool) : Stall :=
  { fn := fn, session := session, job := job, request := request, work := work, tokens := tokens, position := position
    positions := positions, count := count, gen := 0, image := epoch.1, epoch := epoch.2, adapter := adapter, replay := false
    struck := false, failedAt := none, committed := [], firstRun := [], marks := [], views := [], pendingToken := samples, bwdYard := none }

/-- A stall of a session's job. -/
def Session.stall (x : Session) (j : Job) (work : Work) (tokens : List Word) (position positions count : Nat) (samples : Bool) : Stall :=
  Stall.start x.fn (handleOf .session x.ix) (handleOf .job j.ix) j.cmd.order work tokens position positions count (x.image, x.epoch) x.adapter
    samples

/-- What keeps a session's step from being admitted (R288, R396), as a wait cause. -/
def Ctl.sessionBlocked (c : Ctl) (x : Session) : Option Nat :=
  let steps := ((c.stallsOf x).filter fun st => !st.isLane).length
  if x.stopped.isSome || x.entries < x.tail - x.head + steps + 1 then some 2
  else if !(x.map.all fun e => e.evicted || c.inPlace e) || (c.fe.replays.flatten.any fun st => st.fn = x.fn && st.session = handleOf .session x.ix)
  then some 1 else none

/-- A pass over for want of KV space (R244, R240): KV_SPACE_WAIT once in a window; where the shed gives a shadow no place, the cached node least
recently matched goes. -/
def Ctl.spaceWait (c : Ctl) (cfg : Cfg) (k : Yard) (shadow : Bool) : Ctl :=
  let c := match shadow, c.cachedNodes with
    | true, n :: _ => c.dropNode n
    | _, _ => c
  match (c.yd k).spaceWaitAt with
  | some t => if c.hub.tick < t + cfg.window then c else (c.onYard k fun y => { y with spaceWaitAt := some c.hub.tick }).raise cfg (.kv k) 4#16
  | none => (c.onYard k fun y => { y with spaceWaitAt := some c.hub.tick }).raise cfg (.kv k) 4#16

/-- Whether a step exceeds, in some layer, the P of every present bucket (R248). -/
def tooLong (p : Plan) (table : List Bucket) (x : Session) (pos count : Nat) : Bool :=
  let most := ((attendLoad p x pos).map fun u => u.1 + u.2.1 + u.2.2).foldl Max.max 0
  !p.kvDescs.isEmpty && table.all fun b => b.p < most + count

/-- Offers a session's stall: it is passed over where no bucket covers it (cause 1) or KV space is lacking (cause 7), and admitted
otherwise with its blocks reserved (R230, R244). `accept` is what the admission does to the controls. -/
def Forming.offer (fm : Forming) (cfg : Cfg) (p : Plan) (x : Session) (st : Stall) (width : Nat) (accept : Ctl → Ctl) : Forming × Option Nat :=
  match fm.c.sessionBlocked x with
  | some w => (fm, some w)
  | none =>
    if !fm.fits p st then (fm, some 1)
    else match fm.c.reserve p x st.position (st.position + width) with
      | .error k => ({ fm with c := fm.c.spaceWait cfg k.1 k.2 }, some 7)
      | .ok (_, c) => (fm.put p st (accept c), none)

/-- The lowest record place that no session's long lane holds. -/
def Ctl.laneSlot (c : Ctl) : Nat :=
  let used := c.objs.sessions.filterMap fun x => x.lane.map (·.slot)
  ((List.range (used.length + 1)).find? fun i => !used.contains i).getD used.length

/-- Width of a session's long lane (R248). -/
def Session.laneWidth (x : Session) (p : Plan) : Nat := Max.max 1 (if x.width = 0 then p.laneW else x.width)

/-- The number of the microbatch that a cut-off forms (R29). -/
def Ctl.microNumber (c : Ctl) : Nat := (c.hub.tick + 1) % 8

/-- The pending token of a session has entered one of its steps (R289). -/
def Ctl.leadTaken (c : Ctl) (x : Session) : Ctl :=
  match c.session? x.fn x.ix with
  | some y => c.setSession { y with pendingToken := none }
  | none => c

/-- A stall of the long lane (R248): in microbatches 8 / w apart; the first one begins the step and its record. `lead` says that its token is the
session's pending one, under an APPEND. -/
def Forming.tryLane (fm : Forming) (cfg : Cfg) (p : Plan) (j : Job) (x : Session) (token : Word) (samples lead : Bool) :
    Forming × Option Nat :=
  if fm.c.microNumber % (8 / x.laneWidth p) ≠ 0 || x.lane.any fun l => 8 ≤ l.yard then (fm, some 0)
  else
    let pos := x.tokens.length
    let st := x.stall j (.lane p.laneA) [token] pos p.laneA 1 samples
    fm.offer cfg p x st 1 fun c =>
      let c := if lead then c.leadTaken x else c
      match x.lane, c.session? x.fn x.ix with
      | none, some y => c.setSession { y with lane := some ⟨pos, 0, 0, 0, none, none, none, none, c.laneSlot⟩ }
      | _, _ => c

/-- Whether a GENERATE that has not ended stands directly behind a session's running command (R289). -/
def Ctl.generateBehind (c : Ctl) (x : Session) : Bool :=
  match x.commands[1]?.bind c.jobByOrder with
  | some j => j.kind.typ = 2 && !j.over
  | none => false

/-- The first cut-off of an APPEND (R237, R289): a pending token of the session comes first, and prefixes are matched. The session keeps that token
until a step takes it. -/
def Ctl.startAppend (c : Ctl) (j : Job) (x : Session) : Job × Session × Ctl :=
  match j.kind with
  | .append toks 0 0 none noPrefix false _ =>
    let all := x.pendingToken.toList ++ toks
    let r := if noPrefix || !x.mayMatch then (x, c) else c.matchBlocks x all (all.length / 64 + 1)
    let n := r.1.tokens.length - x.tokens.length
    let k := { (j.moveTo c.hub.tick (Min.min j.limit n)) with kind := .append all n n (x.pendingToken.map fun _ => x.pendingHost) noPrefix true false }
    let y := if n = 0 then r.1 else { r.1 with pendingToken := none }
    (k, y, (r.2.setSession y).setJob k)
  | _ => (j, x, c)

/-- The next chunk of an APPEND (R289): all but its final token, or with it where a GENERATE stands behind. -/
def Forming.tryAppend (fm : Forming) (cfg : Cfg) (p : Plan) (j : Job) (x : Session) : Forming × Option Nat :=
  let r := fm.c.startAppend j x
  let fm := { fm with c := r.2.2 }
  let j := r.1
  let x := r.2.1
  match j.kind with
  | .append toks next done lead np m closed =>
    let gen := fm.c.generateBehind x
    let rest := toks.length - next
    let take := if closed then 0 else Min.min p.chunk (if gen then rest else rest - 1)
    let pos := x.tokens.length - done + next
    let job (n : Nat) : Job := { j with kind := .append toks (next + n) done lead np m (closed || (!gen && rest - n ≤ 1)), wait := 0 }
    if take = 0 then ({ fm with c := fm.c.setJob (job 0) }, some 0)
    else if x.lane.isSome || tooLong p (fm.c.bucketTable p) x pos take then
      if next = done then fm.tryLane cfg p j x (toks.getD next 0#32) (gen && rest = 1) (lead.isSome && next = 0) else (fm, some 0)
    else
      let st := x.stall j (.prefill take) ((toks.drop next).take take) pos (pos + take) take (gen && take = rest)
      fm.offer cfg p x st take fun c => (if lead.isSome && next = 0 then c.leadTaken x else c).setJob (job take)
  | _ => (fm, some 0)

/-- Whether a stall is in yard 7 now. -/
def Ctl.inLastYard (c : Ctl) (st : Stall) : Bool := c.fe.pipe.any fun m => m.yard = 7 && m.stalls.contains st

/-- Positions that a stall appends. -/
def Stall.width (st : Stall) : Nat :=
  match st.work with
  | .prefill n => n
  | _ => 1

/-- The next decode step of a GENERATE (R31, R32, R290): from the pending token, or after the step that is in yard 7 now. -/
def Forming.tryGenerate (fm : Forming) (cfg : Cfg) (p : Plan) (j : Job) (x : Session) (max written : Nat) : Forming × Option Nat :=
  let mine := (fm.c.stallsOf x).filter fun st => st.pendingToken && !st.isLane
  let go (tokens : List Word) (pos : Nat) : Forming × Option Nat :=
    if tooLong p (fm.c.bucketTable p) x pos 1 then
      match tokens with
      | t :: _ => fm.tryLane cfg p j x t true false
      | [] => (fm, some 0)
    else fm.offer cfg p x (x.stall j .decode tokens pos (pos + 1) 1 true) 1 fun c => c.setJob { j with wait := 0 }
  match mine, x.pendingToken with
  | [], some t =>
    if max ≤ written || !(fm.c.stallsOf x).all Stall.isLane then (fm, some 0)
    else if x.lane.isSome then fm.tryLane cfg p j x t true false else go [t] x.tokens.length
  | [], none => if (fm.c.stallsOf x).isEmpty then ({ fm with c := fm.c.endRequest j Status.badState }, some 0) else (fm, some 0)
  | [st], _ => if max ≤ written + 1 || !fm.c.inLastYard st then (fm, some 0) else go [] (st.position + st.width)
  | _, _ => (fm, some 0)

/-- The body of a graph's version. -/
def Ctl.bodyOf (c : Ctl) (n : BitVec 8) (graph version : Nat) : Option GraphBody :=
  (c.objs.graphs.find? fun g => g.fn = n && g.ix = graph).bind fun g => (g.versions.find? (·.version = version)).map (·.body)

/-- The next item of a GRAPH_LAUNCH (R296, R298), which binds the launch where it is the first: one that can no longer be bound ends. -/
def Forming.tryLaunch (fm : Forming) (p : Plan) (j : Job) : Forming × Option Nat :=
  match fm.c.bindLaunch j with
  | none => ({ fm with c := fm.c.endRequest j Status.badState }, some 0)
  | some (k, c) =>
    match k.kind with
    | .launch g v items admitted images adapter output =>
      match c.bodyOf k.cmd.fn g v with
      | none => (fm, some 1)
      | some b =>
        let st := Stall.start k.cmd.fn 0#32 (handleOf .job k.ix) k.cmd.order .item [] admitted b.positions b.tokens (images.headD (0, 0)) adapter false
        let bound := { fm with c := c }
        if items ≤ admitted then (fm, some 0)
        else if !bound.fits p st then (fm, some 1)
        else (bound.put p st (c.setJob { k with kind := .launch g v items (admitted + 1) images adapter output, wait := 0 }), none)
    | _ => (fm, some 0)

/-! ### Tuning chunks (R422, R423) -/

/-- A backward visit that is due: the run, its step, the chunk with its index, and the yard. -/
structure Visit where
  run : Run
  step : TuneStep
  chunk : Nat
  tokens : Nat
  visited : List Nat
  yard : Nat

/-- The backward visits of the microbatch that enters yard 0 in a tick (R422); a chunk that waits to be run again has none. -/
def Ctl.visitsDue (c : Ctl) (entry : Nat) : List Visit :=
  let waiting := (c.fe.replays.flatten.filter Stall.tunes).map Stall.chunkKey
  c.objs.runs.flatMap fun r =>
    match r.steps with
    | [] => []
    | t :: _ =>
      (t.chunks.mapIdx fun i k => (i, k)).flatMap fun x =>
        match x.2.entered with
        | none => []
        | some e =>
          if waiting.contains (r.fn, handleOf .job r.ix, x.1) || t.status.isSome then []
          else (List.range 8).filterMap fun j => if e + 1 + 2 * j = entry then some ⟨r, t, x.1, x.2.tokens, x.2.visited, 7 - j⟩ else none

/-- A tuning run's stall. -/
def Run.stall (r : Run) (t : TuneStep) (work : Work) (chunk positions n : Nat) : Stall :=
  Stall.start r.fn (handleOf .job r.ix) (handleOf .job r.ix) t.cmd.order work [] chunk positions n (r.image, r.epoch) 0#32 false

/-- Sets the tick in which a chunk of a run's first step enters yard 0. -/
def Ctl.enterChunk (c : Ctl) (n : BitVec 8) (run chunk tick : Nat) : Ctl :=
  match c.run? n (handleOf .job run) with
  | some r => match r.steps with
    | t :: rest => c.setRun { r with steps := { t with chunks := t.chunks.mapIdx fun i k => if i = chunk then { k with entered := some tick } else k } :: rest }
    | [] => c
  | none => c

/-- Admits the backward stalls due (R423): directly after replays, charged to their function's deficit. One that no bucket covers makes
its chunk wait to be run again. -/
def Forming.backward (fm : Forming) (p : Plan) : Forming :=
  (fm.c.visitsDue (fm.c.hub.tick + 1)).foldl (fun fm v =>
    let st := { (v.run.stall v.step (.backward v.tokens) v.chunk 0 v.tokens) with
      bwdYard := some v.yard, replay := v.visited.contains v.yard, firstRun := v.visited }
    if fm.fits p st then fm.put p st (fm.c.onFn v.run.fn fun f => { f with deficit := f.deficit - 1024 })
    else
      let again := { (v.run.stall v.step (.forward v.tokens) v.chunk v.tokens v.tokens) with replay := true, firstRun := List.range 8 }
      { fm with c := fm.c.onFe fun f => { f with replays := f.replays ++ [[again]] } }) fm

/-- Whether a tuning bucket can cover each microbatch that will carry a chunk's backward stalls, with those already due there (R423). -/
def Ctl.backwardRoom (c : Ctl) (p : Plan) (r : Run) (tokens : Nat) : Bool :=
  (List.range 8).all fun j =>
    let due := c.visitsDue (c.hub.tick + 2 + 2 * j)
    (due.all fun v => v.run.image = r.image && v.run.epoch = r.epoch) && (c.bucketTable p).any fun b =>
      (due.map (·.tokens)).sum + tokens ≤ b.bt && due.length + 1 ≤ b.s

/-- The next chunk of a run's running step (R422, R423, R429): a suspended run begins no step. -/
def Forming.tryChunk (fm : Forming) (p : Plan) (n : BitVec 8) (ix : Nat) : Forming × Option Nat :=
  match fm.c.run? n (handleOf .job ix), fm.c.job? n ix with
  | some r, some j =>
    match r.steps with
    | [] => (fm, some 0)
    | t :: _ =>
      match (t.chunks.mapIdx fun i k => (i, k)).find? fun x => x.2.entered.isNone with
      | none => (fm, some 0)
      | some (i, k) =>
        let st := r.stall t (.forward k.tokens) i k.tokens k.tokens
        if !t.begun && (j.st = .suspended || r.closing.isSome) then (fm, some 0)
        else if !fm.fits p st || !fm.c.backwardRoom p r k.tokens then (fm, some 1)
        else (fm.put p st (fm.c.enterChunk n ix i (fm.c.hub.tick + 1)), none)
  | _, _ => (fm, some 0)

/-! ### Shares (R322-R325) -/

/-- Tries one candidate: the forming microbatch, and the wait cause where it is passed over. -/
def Forming.trial (fm : Forming) (cfg : Cfg) (p : Plan) : Cand → Forming × Option Nat
  | .chunk n ix => fm.tryChunk p n ix
  | .job order =>
    match fm.c.jobByOrder order with
    | none => (fm, some 0)
    | some j =>
      match j.kind, fm.c.session? j.cmd.fn (ixOf j.subject) with
      | .append .., some x => fm.tryAppend cfg p j x
      | .generate max _ _ _ _ _ written, some x => fm.tryGenerate cfg p j x max written
      | .launch .., _ => fm.tryLaunch p j
      | _, _ => (fm, some 0)

/-- A passed-over candidate's job waits with its cause (R299). -/
def Ctl.waits (c : Ctl) (cause : Nat) : Cand → Ctl
  | .chunk _ _ => c
  | .job order =>
    match c.jobByOrder order with
    | some j => if j.over then c else c.setJob { j with wait := cause }
    | none => c

/-- Whether a candidate may be admitted more than once into a microbatch: a launch's items. -/
def Ctl.repeats (c : Ctl) : Cand → Bool
  | .job order => match c.jobByOrder order with
    | some j => j.kind.typ = 3
    | none => false
  | .chunk _ _ => true

/-- Tries a function's first candidate; a passed-over one leaves the pool. `mark` counts an admission. -/
def Forming.attempt (fm : Forming) (cfg : Cfg) (p : Plan) (n : BitVec 8) (mark : Ctl → Ctl) : Forming :=
  match fm.pools.find? (·.1 = n) with
  | some (_, x :: rest) =>
    let r := fm.trial cfg p x
    let keep := r.2.isNone && r.1.c.repeats x
    let next := if keep then x :: rest else rest
    let pools := r.1.pools.map fun q => if q.1 = n then (n, next) else q
    match r.2 with
    | none => { r.1 with c := mark r.1.c, pools := pools }
    | some w => { r.1 with c := r.1.c.waits w x, pools := pools }
  | _ => fm

/-- The function that phase 1 serves next (R323): the largest deficit of at least 1,024, the lowest number on a tie. -/
def Forming.richest (fm : Forming) : Option (BitVec 8) :=
  ((fm.c.fns.filter fun f => 1024 ≤ f.deficit && fm.pools.any fun q => q.1 = f.num && !q.2.isEmpty).foldl (fun (acc : Option Fn) f =>
    match acc with
    | none => some f
    | some g => if g.deficit < f.deficit || (g.deficit = f.deficit && f.num.toNat < g.num.toNat) then some f else some g) none).map (·.num)

/-- Phase 1 of R323. -/
def Forming.ownShare (fm : Forming) (cfg : Cfg) (p : Plan) : Nat → Forming
  | 0 => fm
  | n + 1 =>
    match fm.richest with
    | none => fm
    | some k => (fm.attempt cfg p k fun c => c.onFn k fun f => { f with deficit := f.deficit - 1024, stalls := sat64 f.stalls 1 }).ownShare cfg p n

/-- The first function with a candidate after the one that was lent to last, in the order of numbers (R323). -/
def Forming.borrower (fm : Forming) : Option (BitVec 8) :=
  let ks := ((fm.pools.filter fun q => !q.2.isEmpty).map (·.1.toNat)).mergeSort (· ≤ ·)
  ((ks.find? fun k => fm.c.fe.lastLent < k).orElse fun _ => ks.head?).map (BitVec.ofNat 8)

/-- Phase 2 of R323. -/
def Forming.lend (fm : Forming) (cfg : Cfg) (p : Plan) : Nat → Forming
  | 0 => fm
  | n + 1 =>
    match fm.borrower with
    | none => fm
    | some k =>
      (fm.attempt cfg p k fun c => (c.onFn k fun f => { f with lent := sat64 f.lent 1 }).onFe fun x => { x with lastLent := k.toNat }).lend cfg p n

/-- Whether a request is its session's turn (R275, R289): the running one, or a GENERATE behind an APPEND whose last chunk is in yard 7. -/
def Ctl.turn (c : Ctl) (j : Job) : Bool :=
  match j.kind with
  | .launch .. => true
  | .append .. | .generate .. =>
    match c.session? j.cmd.fn (ixOf j.subject) with
    | none => false
    | some x => x.ended.isNone && x.closing.isNone && (x.commands.head? = some j.cmd.order ||
        (j.kind.typ = 2 && x.commands[1]? = some j.cmd.order && (c.stallsOf x).any fun st => st.pendingToken && c.inLastYard st))
  | _ => false

/-- A function's candidates, by queue priority and then by acceptance (R323). -/
def Ctl.candidates (c : Ctl) (n : BitVec 8) : List Cand :=
  let jobs := (c.objs.jobs.filter fun j => j.cmd.fn = n && j.isRequest && !j.over && j.st ≠ .suspended && c.turn j).map fun j =>
    ((j.cmd.q.val, j.cmd.order), Cand.job j.cmd.order)
  let runs := (c.objs.runs.filter (·.fn = n)).filterMap fun r => r.steps.head?.map fun t => ((t.cmd.q.val, t.cmd.order), Cand.chunk n r.ix)
  ((jobs ++ runs).mergeSort fun a b => a.1.1 < b.1.1 || (a.1.1 = b.1.1 && a.1.2 ≤ b.1.2)).map (·.2)

/-- A function's caps at a cut-off (R325). -/
def Fn.capped (f : Fn) : Fn :=
  { f with seenTokens := f.periodTokens, seenEnergy := f.periodEnergy
           tokenCapped := f.tokenCap ≠ 0 && f.tokenCap ≤ f.periodTokens, energyCapped := f.energyCap ≠ 0 && f.energyCap ≤ f.periodEnergy }

/-- The link buffer of a site (R330). -/
def linkBuffer : Nat := 1000000000

/-- Whether a function's work may be admitted (R323): none of a disabled function, nor in link hold with a full buffer. -/
def Ctl.fnOpen (c : Ctl) (f : Fn) : Bool :=
  f.disable.isNone && (f.st = .active ||
    (f.st = .linkHold && ((c.fns.filter fun g => g.site = f.site).map (·.linkBuf)).sum < linkBuffer))

/-! ### Replays enter first -/

/-- Whether a waiting replay is still to be made (R207): its session or run is there and its request has not ended. -/
def Ctl.replayDue (c : Ctl) (st : Stall) : Bool :=
  if st.tunes then (c.run? st.fn st.session).isSome
  else
    let job := match c.jobByOrder st.request with
      | some j => !j.over
      | none => false
    job && (st.session = 0#32 || (c.session? st.fn (ixOf st.session)).any fun x => x.ended.isNone && x.closing.isNone)

/-- Whether the KV of a replay stands where its yards read it (R394, R396). -/
def Ctl.replayReady (c : Ctl) (st : Stall) : Bool :=
  match c.session? st.fn (ixOf st.session) with
  | some x => x.map.all fun e => e.evicted || c.inPlace e
  | none => true

/-- Admits the replays that wait, group by group, as far as a bucket covers them (R206, R323). -/
def Forming.replays (fm : Forming) (p : Plan) : List (List Stall) → Forming
  | [] => { fm with c := fm.c.onFe fun f => { f with replays := [] } }
  | g :: rest =>
    let r := g.foldl (fun (acc : Forming × List Stall) st =>
      if acc.2.isEmpty && acc.1.fits p st && acc.1.c.replayReady st then
        let c := match st.work with
          | .forward _ => acc.1.c.enterChunk st.fn (ixOf st.session) st.position (acc.1.c.hub.tick + 1)
          | _ => acc.1.c
        (acc.1.put p st c, acc.2)
      else (acc.1, acc.2 ++ [st])) (fm, [])
    if r.2.isEmpty then r.1.replays p rest else { r.1 with c := r.1.c.onFe fun f => { f with replays := r.2 :: rest } }

/-- Drops replays that are not to be made. -/
def Ctl.dropReplays (c : Ctl) : Ctl :=
  c.onFe fun f => { f with replays := (f.replays.map fun g => g.filter c.replayDue).filter fun g => !g.isEmpty }

/-! ### The long lane's planning (R249, R250) -/

/-- The slices of one visit from a cursor: layer, first block index, and the block index after its last. -/
def visitSlices (x : Session) (p : Plan) (k : Yard) (pos ps : Nat) (layers : List Nat) (layer block : Nat) : Nat → List (Nat × Nat × Nat)
  | 0 => []
  | n + 1 =>
    match layers[layer]? with
    | none => []
    | some l =>
      let r := sliceEnd x k l pos block (p.laneA / 2) ps
      (l, block, r.1) :: if r.2 then visitSlices x p k pos ps layers (layer + 1) 0 n else []

/-- The views of a long-lane visit: slot 1 holds its slices alone. -/
def laneViews (c : Ctl) (p : Plan) (x : Session) (k : Yard) (layer block pn ps : Nat) : List ObjView :=
  let layers := (p.descs k).map (·.layer)
  let pos := x.tokens.length
  let sl := visitSlices x p k pos p.maxPs layers layer block (layers.length + 1)
  let part := { x with map := x.map.filter fun e => sl.any fun y => y.1 = e.layer && y.2.1 ≤ e.block && e.block < y.2.2 }
  (viewsIn c p part k pos 1 pn ps).filter (·.slot = 1) ++ (viewsIn c p x k pos 1 pn ps).filter (·.slot ≠ 1)

/-- The cursor that a session's record will show after the visit of this tick, if one is made: as that visit's slices were planned. -/
def Ctl.laneExpect (c : Ctl) (x : Session) (l : Lane) : Nat × Nat × Nat :=
  let visiting := l.plan = some (l.yard, l.layer, l.block) && c.fe.pipe.any fun m =>
    m.yard = l.yard && m.stalls.any fun st => st.isLane && st.live && st.fn = x.fn && st.session = handleOf .session x.ix
  if visiting then l.planTo.getD (l.yard, l.layer, l.block) else (l.yard, l.layer, l.block)

/-- Plans the next visit of every long lane: the cursor expected, and the views of the stall that will make it. -/
def Ctl.planLanes (c : Ctl) (p : Plan) : Ctl :=
  c.objs.sessions.foldl (fun c x =>
    match x.lane with
    | none => c
    | some l =>
      let v := c.laneExpect x l
      match (List.finRange 8).find? (·.val = v.1) with
      | none => c.setSession { x with lane := some { l with expect := some v, expectTo := none } }
      | some k =>
        let c := c.setSession { x with lane := some { l with expect := some v, expectTo := some (planVisit p x k v.2.1 v.2.2) } }
        let set (m : Micro) : Micro :=
          let b := (m.bucketIn p).map fun b => (b.pn, b.ps)
          let view (st : Stall) : Stall :=
            if st.isLane && st.fn = x.fn && st.session = handleOf .session x.ix then
              { st with views := laneViews c p x k v.2.1 v.2.2 (b.getD (0, 0)).1 (b.getD (0, 0)).2 } else st
          { m with stalls := m.stalls.map view }
        c.onFe fun f =>
          { f with pipe := f.pipe.map fun m => if m.yard + 1 = v.1 then set m else m
                   formed := if v.1 = 0 then f.formed.map set else f.formed }) c

/-! ### The admission cut-off -/

/-- HEADs that the front end reads (R288): where fewer than 64 entries appear free. -/
def Ctl.readHeads (c : Ctl) (heads : List HeadRead) : Ctl :=
  heads.foldl (fun c h =>
    match c.session? h.fn (ixOf h.session), c.fn? h.fn with
    | some x, some f =>
      if (c.site f.site).link = .active && x.entries < x.tail - x.head + 64 then c.setSession { x with head := Min.min h.head x.tail } else c
    | _, _ => c) c

/-- A change of SHARE and caps takes effect (R322, R51 row 5). -/
def Fn.takeShare (f : Fn) : Fn :=
  match f.shareNext with
  | some (s, t, e) => { f with share := s, tokenCap := t, energyCap := e, shareNext := none }
  | none => f

/-- Whether the front end forms empty microbatches now (R52, R353, R386, R390, R397, R398, R458). -/
def Ctl.admitsNothing (c : Ctl) : Bool :=
  !c.ldg.ready || c.hub.fenced || c.hub.paused ≠ 0 || c.hub.portPause || c.fe.switch.isSome || c.hub.reliefEnds ||
    ((c.hub.relief.isSome || c.hub.reliefNext.isSome) && !c.hub.reliefUp && !c.hub.rasPlaced)

/-- The generation after one. -/
def nextGen (g : Nat) : Nat := if g + 1 = 2 ^ 20 then 1 else g + 1

/-- Marks that wait for a session's next step, at most four, behind those that earlier steps of the microbatch carry (R442). -/
def Ctl.marksFor (c : Ctl) (before : List Stall) (st : Stall) : List Mk :=
  let taken := (before.filter fun x => !x.replay && x.fn = st.fn && x.session = st.session).map (·.marks.length)
  ((c.objs.waiting.filterMap fun w => match w.what with
    | .mark ident ends (some h) => if w.cmd.fn = st.fn && h = st.session then some ⟨ident, ends, w.cmd.fn, h⟩ else none
    | _ => none) : List Mk).drop taken.sum |>.take 4

/-- Yards whose views of a replayed stall are made anew: the lost yard's under its relief set (R394), and any whose KV view names stacks
that are not the yard's any more. -/
def Ctl.remade (c : Ctl) (st : Stall) : List Yard :=
  (List.finRange 8).filter fun k => c.hub.relief = some k ||
    st.views.any fun v => v.yard = k && v.slot = 1 && v.extents.any fun e => !e.shed && ownerOf e.addr ≠ k

/-- A stall as it is relocated (R49, R219, R256): its generation, its views and its marks. -/
def Ctl.relocate (c : Ctl) (p : Plan) (b : Bucket) (gen : Nat) (before : List Stall) (st : Stall) : Stall :=
  let fresh : List ObjView := match c.session? st.fn (ixOf st.session) with
    | some x => if st.tunes || st.isLane then [] else viewsOf c p x st.position st.width b.pn b.ps
    | none => []
  if st.replay && !st.views.isEmpty then
    let ks := c.remade st
    let views := rebaseViews p farPart farPart b.pn b.ps (st.views.filter fun v => !ks.contains v.yard)
    { st with gen := gen, views := views ++ fresh.filter fun v => ks.contains v.yard }
  else { st with gen := gen, views := fresh, marks := if st.replay then st.marks else if st.session = 0#32 || st.tunes then [] else c.marksFor before st }

/-- Where the block lists of some epochs stand in each yard (R197). -/
def Ctl.listsFor (c : Ctl) (key : List (Nat × Nat)) : List (List Nat) :=
  (List.range 8).map fun k => key.map fun e => ((c.epoch? e.1 e.2).map fun x => x.lists.getD k 0).getD 0

/-- The microbatch that a cut-off forms (R45, R139, R197, R205). -/
def Forming.close (fm : Forming) (p : Plan) : Ctl :=
  let b := if fm.stalls.isEmpty then none else chooseBucket p (fm.c.bucketTable p) fm.load
  let r := fm.stalls.foldl (fun (acc : List Stall × Nat) st =>
    let g := nextGen acc.2
    (acc.1 ++ [match b with | some b => fm.c.relocate p b g acc.1 st | none => { st with gen := g }], g)) ([], fm.c.fe.gen)
  let m : Micro :=
    { mb := fm.c.microNumber, yard := 0, bucket := b.map (·.index), band := bandOf r.1.length (planSmax p), stalls := r.1, relief := fm.c.hub.relief
      lists := fm.c.listsFor (fm.key.getD []) }
  (fm.c.onFe fun f => { f with formed := some m, gen := r.2 }).planLanes p

/-- Forms a microbatch (R323): replays, due backward stalls, each function's own share, lending. -/
def Ctl.form (c : Ctl) (cfg : Cfg) (p : Plan) : Ctl :=
  let c := { c.dropReplays with fns := c.fns.map fun f => { f.capped with deficit := Min.min f.deficit 1023 + f.share * planSmax p } }
  let bare : Forming := ⟨c, [], {}, none, []⟩
  if c.admitsNothing then bare.close p
  else
    let fm := (bare.replays p c.fe.replays).backward p
    let news := !c.hub.halving || c.microNumber % 2 = 0
    let free0 : List Fn := c.fns.filter fun f => c.fnOpen f
    let caps : List Fn := free0.filter fun f => f.tokenCapped || f.energyCapped
    let fm := { fm with c := caps.foldl (fun (d : Ctl) (f : Fn) => (d.candidates f.num).foldl (fun (d : Ctl) x => d.waits 5 x) d) fm.c }
    let free : List Fn := free0.filter fun f => !(f.tokenCapped || f.energyCapped)
    let pools := if news then free.map fun (f : Fn) => (f.num, fm.c.candidates f.num) else []
    let fuel := (pools.map (·.2.length)).sum + ((fm.c.bucketTable p).map fun (b : Bucket) => b.s).foldl Max.max 0 + 1
    (({ fm with pools := pools }.ownShare cfg p fuel).lend cfg p fuel).close p

/-- ADMISSION_CUTOFF's effect (R49 step 2): what is known of failures is gathered, changes that wait for a cut-off are made, and the
microbatch of the next tick is formed. -/
def cutoff (s : State) (heads : List HeadRead) : State :=
  match s.ctl.plan? with
  | none => s
  | some p =>
    if !s.ctl.fe.ticking || s.ctl.fe.cut || s.ctl.hub.halted then s
    else
      let c := ((s.ctl.readHeads heads).collect).onFe fun f => { f with switch := f.switch.map fun w => { w with accepted := true } }
      let c := c.onFe fun f =>
        { f with ready := (c.objs.jobs.filter fun j => !j.over && match j.kind with
                   | .activate _ _ _ _ _ _ loaded _ => loaded
                   | _ => false).map fun j => (j.cmd.fn, j.ix) }
      let c := { c with fns := c.fns.map Fn.takeShare }
      let c := c.objs.sessions.foldl (fun c x => c.insertBlocks p x.fn x.ix (x.tokens.length / 64 + 2)) c
      let s := (List.finRange 8).foldl (fun s k => houseKeep s p k) (moveAllKept { s with ctl := c } p)
      let c := (s.ctl.form s.cfg p).onFe fun f => { f with cut := true }
      { s with ctl := (c.onHub fun h => { h with portPause := false }).recount }

/-- ADMISSION_CUTOFF (R49, R51, R206, R231, R240, R288, R322-R325). -/
def execAdmissionCutoff (heads : List HeadRead) (s : State) : Host.Outcome State Fault Refusal := .next (cutoff s heads)

end Sys2Proof.Machine
end

