-- ==== Sys2Proof/Machine/Power.lean ====
section
/-! DEFINITION. Power, clocks and temperature (18): power states and trips, pins, thermal limits, the power cap. -/

namespace Sys2Proof.Machine

open Sys2Proof

/-! ### Rails (R474, R476, R477, R479, R488) -/

/-- Whether the main rails are up. -/
def PwrSt.mains : PwrSt → Bool
  | .off => false
  | .standby => false
  | .boot => true
  | .idle => true
  | .serving => true
  | .halted => true

/-- A latched trip (R476): the main rails go off and every volatile state with them; TRIP and STATUS_INPUT keep the cause. -/
def tripOff (s : State) (code : Nat) (input : BitVec 8) : State :=
  if !s.ctl.pwr.st.mains then s
  else
    let s := restart s false
    let off (p : Pwr) : Pwr :=
      { p with st := .standby, trip := code, pg := false, offBit := true, statusInput := p.statusInput ||| input }
    { s with ctl := s.ctl.onPwr off }

/-- TRIP and the STATUS_INPUT bit of a cause (R476, R481; the bit places are PMBus's). -/
def tripCode : TripCause → Nat × BitVec 8
  | .overPower => (1, 0x01#8)
  | .overCurrent => (2, 0x04#8)
  | .underVoltage => (3, 0x10#8)
  | .overVoltage => (4, 0x80#8)

/-- INPUT_TRIP (R476). -/
def execInputTrip (cause : TripCause) (s : State) : Host.Outcome State Fault Refusal :=
  .next (tripOff s (tripCode cause).1 (tripCode cause).2)

/-- MOD_EN high (R474, R484 steps 1 to 4): STANDBY, then the main rails and MOD_PG. -/
def execModEnHigh (s : State) : Host.Outcome State Fault Refusal :=
  if s.ctl.pwr.modEn then .next s
  else .next { s with ctl := s.ctl.onPwr fun p => { p with modEn := true, st := .standby, pg := true } }

/-- MOD_EN low (R479): every rail goes off and a latched trip is cleared. -/
def execModEnLow (s : State) : Host.Outcome State Fault Refusal :=
  let s := restart s false
  let off (p : Pwr) : Pwr :=
    { p with st := .off, modEn := false, trip := 0, pg := false, offBit := false, statusInput := 0#8, statusTemp := 0#8, cml := false
             i3cAddr := 0x4A#7 }
  .next { s with ctl := s.ctl.onPwr off }

/-- MOD_RST_N low (R479): the whole device is reset with the rails kept up. -/
def execModRstNLow (s : State) : Host.Outcome State Fault Refusal :=
  let s := if s.ctl.pwr.st.mains then restart s false else s
  .next { s with ctl := s.ctl.onPwr fun p => { p with rstN := false } }

/-- MOD_RST_N released (R484 step 5): BOOT, with MOD_PG high, no latched trip and REFCLK stable. -/
def execModRstNRelease (meter : Interval) (s : State) : Host.Outcome State Fault Refusal :=
  let p := s.ctl.pwr
  if p.modEn && p.pg && p.trip = 0 && p.refclk && (!p.rstN || p.st = .standby) then
    .next { s with ctl := (s.ctl.meterEarly meter).onPwr fun p => { p with st := .boot, rstN := true } }
  else .next s

/-- REFCLK is lost (R477): with the main rails up the device is reset as by MOD_RST_N, and REFCLK_LOST is raised. -/
def execRefclkLost (s : State) : Host.Outcome State Fault Refusal :=
  if !s.ctl.pwr.refclk then .next s
  else if !s.ctl.pwr.st.mains then .next { s with ctl := s.ctl.onPwr fun p => { p with refclk := false } }
  else
    let s := restart s false
    .next { s with ctl := (s.ctl.onPwr fun p => { p with refclk := false }).raise s.cfg .pwr 128#16 }

/-- REFCLK is there again (R477). -/
def execRefclkReturn (s : State) : Host.Outcome State Fault Refusal :=
  .next { s with ctl := s.ctl.onPwr fun p => { p with refclk := true } }

/-- VIN_RANGE (PWR_EVENT): VIN as it now stands; leaving 44-56 V is an event. -/
def execVinRange (centivolts : Nat) (s : State) : Host.Outcome State Fault Refusal :=
  let bad : Bool := centivolts < 4400 || 5600 < centivolts
  let c := s.ctl.onPwr fun p => { p with vin := centivolts, vinBad := bad }
  .next { s with ctl := if bad && !s.ctl.pwr.vinBad then c.raise s.cfg .pwr 32#16 else c }

/-- LEAK (R488): LEAK_N falls. -/
def execLeak (s : State) : Host.Outcome State Fault Refusal :=
  if !s.ctl.pwr.leakN then .next s
  else .next { s with ctl := (s.ctl.onPwr fun p => { p with leakN := false }).raise s.cfg .pwr 64#16 }

/-- LEAK_N is high again (R488). -/
def execLeakNHigh (s : State) : Host.Outcome State Fault Refusal :=
  .next { s with ctl := s.ctl.onPwr fun p => { p with leakN := true } }

/-- LEAK_OFF_EXPIRY (R488): 1 s after LEAK_N fell, under LEAK_OFF. -/
def execLeakOffExpiry (s : State) : Host.Outcome State Fault Refusal :=
  if !s.ctl.pwr.leakN && s.cfg.leakOff then .next (tripOff s 7 0#8) else .next s

/-! ### Temperature (R486, R487) -/

/-- A sensor with its levels (R486): whether it is a coolant one, its 1 ms average, its warning and critical level. -/
structure Level where
  coolant : Bool
  avg : Nat
  warn : Nat
  crit : Nat

/-- The sensors in order, outlet minus inlet last. -/
def Temps.levels (t : Temps) : List Level :=
  (t.die.map fun x => ⟨false, x.avg, 95, 102⟩) ++ ((t.stackA ++ t.stackB).map fun x => ⟨false, x.avg, 90, 95⟩) ++
    [⟨false, t.hub.avg, 95, 102⟩, ⟨true, t.inlet.avg, 45, 50⟩, ⟨true, t.outlet.avg - t.inlet.avg, 15, 20⟩]

/-- Whether a sensor rose above one of its levels since the last sample. -/
def crossed (old new : Nat) (level : Nat) : Bool := old ≤ level && level < new

/-- Raises THERM_CRIT and COOLANT for the levels that sensors rose above (R487). -/
def Ctl.thermEvents (c : Ctl) (cfg : Cfg) (old : List Nat) (new : List Level) : Ctl :=
  ((new.mapIdx fun i x => (old.getD i 0, x)).foldl (fun c p =>
    let x := p.2
    let crit := crossed p.1 x.avg x.crit
    let cool := x.coolant && (crit || crossed p.1 x.avg x.warn)
    let bits := (if crit then 4#16 else 0#16) ||| (if cool then 16#16 else 0#16)
    if bits = 0#16 then c else c.raise cfg .pwr bits) c)

/-- The grade that temperature allows falls to a number at least `g` (R487): GRADE_THERMAL where that lowers it. -/
def Ctl.thermGrade (c : Ctl) (cfg : Cfg) (g : Nat) : Ctl :=
  let g := Min.min 2 g
  if g ≤ c.hub.grades.temp then c
  else (c.onHub fun h => { h with grades := { h.grades with temp := g } }).raise cfg .pwr 2#16

/-- What a sample makes of PWR: the readings, the standing levels and STATUS_TEMPERATURE. -/
def Pwr.sampled (p : Pwr) (t : Temps) : Pwr :=
  let ls := Temps.levels t
  let warned := ls.any fun x => x.warn < x.avg
  let critical := ls.any fun x => x.crit < x.avg
  { p with temps := some t, warned := warned, critical := critical, cool := ls.all fun x => x.avg + 5 ≤ x.warn
           thermN := !critical
           statusTemp := p.statusTemp ||| (if warned then 0x40#8 else 0#8) ||| (if critical then 0x80#8 else 0#8) }

/-- The yards whose own sensors pass the shutdown level in a single sample (R486). -/
def Temps.shut (t : Temps) (k : Yard) : Bool :=
  let past (l : List Temp) (n : Nat) : Bool := (l[k.val]?).any fun x => n < x.now
  past t.die 110 || past t.stackA 105 || past t.stackB 105

/-- A sample of every sensor (R486, R487). -/
def thermalSample (s : State) (t : Temps) : State :=
  let was := s.ctl.pwr.warned
  let old := ((s.ctl.pwr.temps.map Temps.levels).getD []).map (·.avg)
  let c := (s.ctl.onPwr fun p => p.sampled t).thermEvents s.cfg old (Temps.levels t)
  let c := if c.pwr.critical then c.thermGrade s.cfg 2
    else if c.pwr.warned && !was then c.thermGrade s.cfg (c.hub.grades.current + 1) else c
  let c := ((List.finRange 8).filter (Temps.shut t)).foldl (fun c k => c.loseYard s.cfg k .temperature) c
  let s := { s with ctl := c }
  if 110 < t.hub.now then tripOff s 5 0#8 else if 55 < t.inlet.now then tripOff s 6 0#8 else s

/-- THERMAL_SAMPLE (R486, R487). -/
def execThermalSample (t : Temps) (s : State) : Host.Outcome State Fault Refusal :=
  if s.ctl.pwr.st.mains then .next (thermalSample s t) else .next s

/-- THERMAL_STEP_DOWN (R487): a warning that stands 100 ms after the grade took effect. -/
def execThermalStepDown (s : State) : Host.Outcome State Fault Refusal :=
  if s.ctl.pwr.warned && s.ctl.hub.grades.temp ≤ s.ctl.hub.grades.current then
    .next { s with ctl := s.ctl.thermGrade s.cfg (s.ctl.hub.grades.current + 1) }
  else .next s

/-- THERMAL_STEP_UP (R487): every sensor has stayed 5 °C below its warning level for 1 s. -/
def execThermalStepUp (s : State) : Host.Outcome State Fault Refusal :=
  if s.ctl.pwr.cool then
    .next { s with ctl := s.ctl.onHub fun h => { h with grades := { h.grades with temp := h.grades.temp - 1 } } }
  else .next s

/-- CRITICAL_HALVING (R487): a critical level that stands for 1 s at G2. -/
def execCriticalHalving (s : State) : Host.Outcome State Fault Refusal :=
  if s.ctl.pwr.critical && s.ctl.hub.grades.current = 2 then
    .next { s with ctl := s.ctl.onHub fun h => { h with halving := true } }
  else .next s

/-! ### The power cap (R475) -/

/-- The power cap in mW. -/
def Cfg.cap (c : Cfg) : Nat := 1000 * Min.min c.powerCap c.bmcCap

/-- The average is above the cap: the grade that the cap allows goes one step below the grade in force; at G2, halving. -/
def Ctl.limitPower (c : Ctl) (cfg : Cfg) : Ctl :=
  if c.hub.grades.current < 2 then
    let g := c.hub.grades.current + 1
    if g ≤ c.hub.grades.power then c
    else (c.onHub fun h => { h with grades := { h.grades with power := g } }).raise cfg .pwr 1#16
  else if c.hub.halving then c
  else (c.onHub fun h => { h with halving := true }).raise cfg .pwr 1#16

/-- The first step of R475, at a bell or hub timer period. -/
def Ctl.checkPower (c : Ctl) (cfg : Cfg) : Ctl :=
  if cfg.cap < c.pwr.pavg && c.hub.grades.power = 0 then c.limitPower cfg else c

/-- POWER_CAP_STEP_DOWN (R475): the average still exceeds the cap 1 s after the grade took effect. -/
def execPowerCapStepDown (s : State) : Host.Outcome State Fault Refusal :=
  if s.cfg.cap < s.ctl.pwr.pavg then .next { s with ctl := s.ctl.limitPower s.cfg } else .next s

/-- POWER_CAP_STEP_UP (R475): the average stays below 95 % of the cap; halving ends first, then the grade rises by a step. -/
def execPowerCapStepUp (s : State) : Host.Outcome State Fault Refusal :=
  if 100 * s.ctl.pwr.pavg < 95 * s.cfg.cap then
    if s.ctl.hub.halving then
      if s.ctl.pwr.critical then .next s else .next { s with ctl := s.ctl.onHub fun h => { h with halving := false } }
    else .next { s with ctl := s.ctl.onHub fun h => { h with grades := { h.grades with power := h.grades.power - 1 } } }
  else .next s

end Sys2Proof.Machine
end

