-- ==== Sys2Proof/Machine/Settle.lean ====
section
/-! DEFINITION. What a bell settles of the tick that it ends: the commits of every yard, and the tokens, positions and items of the
microbatch that leaves yard 7 (02, 06, 10). -/

namespace Sys2Proof.Machine

open Sys2Proof

/-! ### Commits (R166, R170, R206, R424) -/

/-- Whether a stall is a backward visit. -/
def Stall.isBackward (st : Stall) : Bool :=
  match st.work with
  | .backward _ => true
  | _ => false

/-- A stall at the bell that ends its tick in yard `k`: committed where the yard's mask has it, else failed. A visit of the long lane that
is not committed is made again by a later stall (R250), and not by a replay. -/
def Stall.settle (k : Nat) (hit : Bool) (st : Stall) : Stall :=
  if !st.runsIn k || !st.live then st
  else if hit then (if st.committed.contains k then st else { st with committed := st.committed ++ [k] })
  else { st with failedAt := some k }

/-- A committed backward visit: its chunk has visited the yard (R424). -/
def Ctl.visitDone (c : Ctl) (k : Yard) (st : Stall) : Ctl :=
  match c.run? st.fn st.session with
  | none => c
  | some r =>
    match r.steps with
    | [] => c
    | t :: rest =>
      let mark (i : Nat) (x : Chunk) : Chunk :=
        if i = st.position && !x.visited.contains k.val then { x with visited := x.visited ++ [k.val] } else x
      if t.cmd.order = st.request then c.setRun { r with steps := { t with chunks := t.chunks.mapIdx mark } :: rest } else c

/-- Settles the commits of a yard: by the mask of its barrier, or, where no barrier was met, by what the engines hold. -/
def settleYard (d : Dp) (c : Ctl) (k : Yard) : Ctl :=
  let mask := match d.commit.find? fun x => x.1 = k with
    | some x => x.2
    | none => commitMask c d k
  let settle (m : Micro) : Micro := { m with stalls := m.stalls.mapIdx fun i st => st.settle k.val (mask.contains i) }
  let c := c.onFe fun f => { f with pipe := f.pipe.map fun m => if m.yard = k.val then settle m else m }
  ((c.yardStalls k).filter fun st => st.isBackward && st.live && st.committed.contains k.val).foldl (fun c st => c.visitDone k st) c

/-- Settles every yard and gathers the failures (R206, R207). -/
def settleAll (d : Dp) (c : Ctl) : Ctl := ((List.finRange 8).foldl (settleYard d) c).collect

/-! ### Sampling (R290) -/

/-- Logits with their tokens, the highest first, the lowest token first among equals. -/
def ranked (vs : List Word) : List (Nat × Word) :=
  (vs.mapIdx fun i v => (i, v)).mergeSort fun a b =>
    FNum.lt (num32 b.2) (num32 a.2) || (!FNum.lt (num32 a.2) (num32 b.2) && a.1 ≤ b.1)

/-- The token of highest logit, the lowest among equals. -/
def greedy (vs : List Word) : Nat :=
  (((vs.mapIdx fun i v => (i, v)).foldl (fun (acc : Option (Nat × Word)) x =>
    match acc with
    | none => some x
    | some y => if FNum.lt (num32 y.2) (num32 x.2) then some x else acc) none).map (·.1)).getD 0

/-- The end points of two intervals of numbers that are not negative, added. -/
def addEncl (a b : Encl.Ival) : Encl.Ival := ⟨a.lo.add b.lo, a.hi.add b.hi⟩

/-- How many candidates the cut keeps, behind `n` that it keeps of weight `pre` (R290): the first count that holds the share `top` of the whole
weight. `ws` are the weights left, `tails` their sums from each on; none where the enclosures do not tell. -/
def cutScan (top : FNum) (pre : Encl.Ival) : List Encl.Ival → List Encl.Ival → Nat → Option Nat
  | w :: ws, _ :: tails, n =>
    let pre := addEncl pre w
    let rest := FNum.add (.ofInt 1) top.neg
    match tails with
    | [] => some (n + 1)
    | t :: _ =>
      if !FNum.lt (rest.mul pre.lo) (top.mul t.hi) then some (n + 1)
      else if FNum.lt (rest.mul pre.hi) (top.mul t.lo) then cutScan top pre ws tails (n + 1)
      else none
  | _, _, n => some n

/-- The cut of R290 at a precision: the weight of a candidate is e^((l − l_0) / T). DESIGN CHOICE (log entry 96): the probability is that among the
TOP_K candidates. -/
def cutAt (temperature topP : Word) (ls : List Word) (p : Nat) : Option Nat :=
  let weight (l : Word) : Encl.Ival := expEncl p (((num32 l).add (num32 (ls.headD 0#32)).neg).div (num32 temperature))
  let ws := ls.map weight
  let tails := ws.foldr (fun w acc => match acc with
    | [] => [w]
    | t :: _ => addEncl w t :: acc) []
  cutScan (num32 topP) (Encl.near (.zero false)) ws tails 0

/-- How many of the TOP_K candidates the cut at TOP_P keeps; free where a logit is not finite. -/
def topPCut (temperature topP : Word) (ls : List Word) : Nat :=
  if ls.all fun l => (num32 l).isFin then
    (Sfn.precisions.findSome? (cutAt temperature topP ls)).getD (Config.topPKeep ls temperature topP)
  else Config.topPKeep ls temperature topP

/-- Sampling from the candidates of R290: TOP_K highest, cut at TOP_P, one drawn by SEED and position. -/
def sampled (temperature topP : Word) (topK : Nat) (seed : Word) (pos : Nat) (cands : List (Nat × Word)) : Nat :=
  let cands := cands.take (if topK = 0 then cands.length else topK)
  let keep := Max.max 1 (Min.min cands.length (topPCut temperature topP (cands.map (·.2))))
  let kept := cands.take keep
  ((kept[Config.sampleRank seed pos (kept.map (·.2)) temperature % Max.max 1 kept.length]?).map (·.1)).getD 0

/-- The token that yard 7 samples (R290). -/
def sampleToken (temperature topP : Word) (topK : Nat) (seed : Word) (pos : Nat) (vs : List Word) : Nat :=
  let bad := vs.any fun v => (num32 v).isNan
  if (num32 temperature).isZero then (if bad then Config.nanToken vs % Max.max 1 vs.length else greedy vs)
  else sampled temperature topP topK seed pos (if bad then vs.mapIdx fun i v => (i, v) else ranked vs)

/-- The logits that the outside gives for a stall of yard 7. -/
def logitsOf (b : BellIn) (i : Nat) : List Word := ((b.logits.find? (·.stall = i)).map (·.values)).getD []

/-- Whether yard 7 samples a token from a stall in this tick: a step of the long lane only where its last visit is made (R250). -/
def Ctl.samplesNow (c : Ctl) (st : Stall) : Bool :=
  st.live && st.pendingToken &&
    (!st.isLane || (c.session? st.fn (ixOf st.session)).any fun x => x.lane.any (8 ≤ ·.yard))

/-- Whether a bell brings the logits of every token that yard 7 samples in its tick. -/
def Ctl.logitsGiven (c : Ctl) (b : BellIn) : Bool :=
  ((c.yardStalls 7).mapIdx fun i st => (i, st)).all fun x => !c.samplesNow x.2 || !(logitsOf b x.1).isEmpty

/-! ### Tokens, positions and items that leave yard 7 (R32, R287-R290, R325) -/

/-- The GENERATE that a sampling step serves: its own, or the one behind its APPEND (R289). -/
def Ctl.samplesFor (c : Ctl) (x : Session) (j : Job) : Option Job :=
  if j.kind.typ = 2 then some j
  else (x.commands[1]?.bind c.jobByOrder).bind fun g => if g.kind.typ = 2 then some g else none

/-- The decode step formed to follow a sampled token takes it, or is struck where its GENERATE is done. -/
def Ctl.fillNext (c : Ctl) (x : Session) (token : Word) (done : Bool) : Ctl :=
  let fix (st : Stall) : Stall :=
    if st.unfilled && st.live && st.fn = x.fn && st.session = handleOf .session x.ix then
      (if done then { st with struck := true } else { st with tokens := [token] })
    else st
  c.onFe fun f => { f with formed := f.formed.map fun m => { m with stalls := m.stalls.map fix } }

/-- A sampled token (R287, R290): written into the ring, or kept where a write has failed (R288); the session's next pending token. -/
def Ctl.emit (c : Ctl) (x : Session) (j : Job) (vs : List Word) : Ctl :=
  match j.kind with
  | .generate max temperature topP topK stops seed written =>
    let token := BitVec.ofNat 32 (sampleToken temperature topP topK seed x.tokens.length vs)
    let stop := stops.contains token
    let full := max ≤ written + 1
    let last := stop || full || (j.over && ((c.stallsOf x).filter (·.pendingToken)).length ≤ 1)
    let e : OutEntry := ⟨token, x.tokens.length, last, stop, Config.logProb vs temperature topP topK token.toNat, j.cmd.tag⟩
    let x := { x with pendingToken := some token, pendingHost := false, genQueue := j.cmd.q }
    let c := if x.stopped.isSome then c.setSession { x with kept := x.kept ++ [e] } else (c.setSession x).ringWrite x [e]
    let k := { (j.moveTo c.hub.tick (written + 1)) with
      kind := .generate max temperature topP topK stops seed (written + 1), tokensOut := j.tokensOut + 1 }
    let c := (c.setJob k).onFn x.fn fun f => { f with periodTokens := f.periodTokens + 1 }
    let c := if stop then c.endRequest k Status.genStop else if full then c.endRequest k Status.genLimit else c
    c.fillNext x token (stop || full || j.over)
  | _ => c

/-- Positions of a committed step that came from the host: all but a sampled token that the step takes as input (R343). -/
def hostPositions (x : Session) (j : Job) (n : Nat) : Nat :=
  match j.kind with
  | .append _ _ done lead _ _ _ => n - if done = 0 && lead = some false then 1 else 0
  | _ => if x.pendingHost then n else 0

/-- A committed step's positions enter its session and its request (R289, R290, R298). -/
def Ctl.absorb (c : Ctl) (x : Session) (j : Job) (st : Stall) : Ctl :=
  let n := st.tokens.length
  let host := hostPositions x j n
  let y := { x with tokens := x.tokens ++ st.tokens, pendingToken := none, pendingHost := false
                    lane := if st.isLane then none else x.lane }
  let k := match j.kind with
    | .append toks next done lead np m closed =>
      { (j.moveTo c.hub.tick (Min.min j.limit (done + n))) with
        kind := JobKind.append toks (if st.isLane then next + n else next) (done + n) lead np m closed }
    | _ => j
  ((c.setSession y).setJob { k with tokensIn := j.tokensIn + host }).onFn x.fn fun f => { f with periodTokens := f.periodTokens + host }

/-- The export graph writes the record of the adapter that its launch names to the output region (R432, R433). -/
def Ctl.exportAdapter (c : Ctl) (j : Job) : Ctl :=
  match j.kind with
  | .launch g v _ _ _ adapter output =>
    match c.bodyOf j.cmd.fn g v, c.plan?, c.fn? j.cmd.fn,
      c.objs.adapters.find? fun a => a.fn = j.cmd.fn && handleOf .adapter a.ix = adapter with
    | some b, some p, some f, some a => if b.exports then c.regionWrite f output (adapterRecord p.paths a) else c
    | _, _, _, _ => c
  | _ => c

/-- A committed item of a launch (R298). -/
def Ctl.itemDone (c : Ctl) (j : Job) : Ctl :=
  match j.kind with
  | .launch _ _ items .. =>
    let k := { (j.moveTo c.hub.tick (j.progress + 1)) with tokensIn := j.tokensIn + 1 }
    let c := (c.exportAdapter j).setJob k
    if items ≤ k.progress then c.endRequest k Status.success else c
  | _ => c

/-- A committed stall leaves yard 7: what a closing or ended session still had in flight is discarded (R293). -/
def Ctl.leave (c : Ctl) (b : BellIn) (i : Nat) (st : Stall) : Ctl :=
  if !st.live || !st.committed.contains 7 then c
  else match st.work, c.jobByOrder st.request, c.session? st.fn (ixOf st.session) with
    | .item, some j, _ => c.itemDone j
    | .decode, some j, some x | .prefill _, some j, some x | .lane _, some j, some x =>
      if x.ended.isSome || x.closing.isSome || (st.isLane && !x.lane.any (8 ≤ ·.yard)) then c
      else
        let d := c.absorb x j st
        match d.session? x.fn x.ix, (d.jobByOrder st.request).bind fun k => d.samplesFor x k with
        | some y, some g => if st.pendingToken then d.emit y g (logitsOf b i) else d
        | _, _ => d
    | _, _, _ => c

/-- An APPEND that has nothing left to commit ends (R289): its final token pends where no GENERATE has taken it. -/
def Ctl.endAppend (c : Ctl) (j : Job) : Ctl :=
  match j.kind, c.session? j.cmd.fn (ixOf j.subject) with
  | .append toks next done _ _ true closed, some x =>
    if j.over || next ≠ done || x.commands.head? ≠ some j.cmd.order then c
    else if done = toks.length then c.endRequest j Status.success
    else if closed && done + 1 = toks.length then
      (c.setSession { x with pendingToken := toks.getLast?, pendingHost := true, lane := none }).endRequest j Status.success
    else c
  | _, _ => c

/-- Everything that leaves yard 7 at a bell. -/
def Ctl.leaveAll (c : Ctl) (b : BellIn) : Ctl :=
  let c := ((c.yardStalls 7).mapIdx fun i st => (i, st)).foldl (fun c x => c.leave b x.1 x.2) c
  let c := c.objs.jobs.foldl (fun c j => c.endAppend j) c
  c.onFe fun f => { f with pipe := f.pipe.filter fun m => m.yard < 7 }

end Sys2Proof.Machine
end

