-- ==== Sys2Proof/Machine/Deliver.lean ====
section
/-! DEFINITION. What travels up to the hub at a bell (03, 05, 09, 14, 16): arithmetic flags, counters, saturation records, calibration
statistics and their windows, the measures of the last completed tick. -/

namespace Sys2Proof.Machine

open Sys2Proof

/-! ### Arithmetic flags (R96, R99) -/

/-- The flags that each cluster of a yard has sent in the tick, less those that the yard suppresses. -/
def Ctl.flagsFor (c : Ctl) (cfg : Cfg) (r : Yard) : List (Nat × BitVec 8) :=
  let all := (c.rangesOf r).flatMap fun k => (c.yd k).reports.flags
  let of (l : Nat) : BitVec 8 := (all.filter (·.1 = l)).foldl (fun b x => b ||| x.2) 0#8
  (((all.map (·.1)).eraseDups.map fun l => (l, of l &&& ~~~(cfg.arithMask.getD r.val 0#8)))).filter fun x => x.2 ≠ 0#8

/-- Delivers the flags that count in a yard's registers: OR and cluster bits, one advance, one ARITH record for each cluster. -/
def Ctl.deliverFlags (c : Ctl) (cfg : Cfg) (cycle : Nat) (r : Yard) : Ctl :=
  let fl := c.flagsFor cfg r
  if fl.isEmpty then c
  else
    let bits := fl.foldl (fun b x => b ||| x.2) 0#8
    let c := c.onYard r fun y => { y with clu := fl.foldl (fun b x => b ||| (1#256 <<< x.1)) y.clu }
    fl.foldl (fun c x => c.journal cfg 6 (r.val * 4096 + x.1) cycle x.2.toNat []) (c.raise cfg (.arith r) (bits.setWidth 16))

/-! ### Saturation records (R137, R444) -/

/-- The clipped groups of a layer over a yard's clusters, ascending, with 16-bit counts. -/
def clippedGroups (clips : List (Nat × Nat)) (layer : Nat) : List (Nat × Nat) :=
  let mine := clips.filter fun x => x.1 / 65536 % 4096 = layer
  let groups := (mine.map (·.1 % 65536)).eraseDups.mergeSort (· ≤ ·)
  groups.map fun g => (g, Min.min ((mine.filter fun x => x.1 % 65536 = g).map (·.2)).sum 65535)

/-- Writes a yard's SATURATION records. A record has room for 1,012 groups. -/
def Ctl.saturationRecords (c : Ctl) (cfg : Cfg) (cycle : Nat) (k : Yard) : Ctl :=
  match c.microIn k with
  | none => c
  | some m =>
    let clips := (c.yd k).reports.clips
    let layers := (clips.map fun x => x.1 / 65536 % 4096).eraseDups.mergeSort (· ≤ ·)
    let done := m.stalls.all fun st => !st.runsIn k.val || st.committed.contains k.val
    layers.foldl (fun c l =>
      let gs := (clippedGroups clips l).take 1012
      c.journal cfg 7 (k.val * 4096 + 0xFFF) cycle l
        ([BitVec.ofNat 8 m.mb, if done then 1#8 else 0#8] ++ Bits.toLe gs.length 2 ++ List.replicate 12 0#8 ++
          gs.flatMap fun g => Bits.toLe g.1 2 ++ Bits.toLe g.2 2)) c

/-! ### Statistics (R138-R142) -/

/-- A list of four with one member changed. -/
def addAt (l : List Nat) (i n : Nat) : List Nat := l.mapIdx fun j v => if j = i then sat64 v n else v

/-- Changes the statistics slot of an epoch, where it has one. -/
def Ctl.onSlot (c : Ctl) (image epoch : Nat) (f : QntSlot → QntSlot) : Ctl :=
  match (c.epoch? image epoch).bind (·.slot) with
  | none => c
  | some i => c.onHub fun h => { h with qnt := h.qnt.map fun q => if q.1 = i then (i, f q.2) else q }

/-- Whether what a stall converted in a yard counts (R138): its step is committed there and was not before. -/
def Stall.counts (st : Stall) (k : Nat) : Bool :=
  st.runsIn k && !st.struck && st.committed.contains k && !(st.replay && st.firstRun.contains k)

/-- Adds the conversions of activation traffic of a yard's stalls. -/
def Ctl.countConverted (c : Ctl) (k : Yard) : Ctl :=
  let band := ((c.microIn k).map (·.band)).getD 0
  (c.yd k).reports.converted.foldl (fun c x =>
    match c.stallIn k x.stall with
    | none => c
    | some st =>
      if !st.counts k.val then c
      else
        let c := c.onSlot st.image st.epoch fun q => { q with clip := addAt q.clip band x.clipped, conv := addAt q.conv band x.elements }
        c.onFn st.fn fun f => { f with qntClip := sat64 f.qntClip x.clipped, qntConv := sat64 f.qntConv x.elements }) c

/-- Adds a KV error sum to a slot's layer and band: FP32 pairs under R94. -/
def QntSlot.addErr (q : QntSlot) (band : Nat) (e : KvErr) : QntSlot :=
  let old := (q.err.find? fun x => x.1 = e.layer && x.2.1 = band).getD (e.layer, band, 0#32, 0#32, 0)
  let p := (pairAdd (old.2.2.1, old.2.2.2.1) ((num32 e.hi).add (num32 e.lo))).1
  { q with err := (q.err.filter fun x => !(x.1 = e.layer && x.2.1 = band)) ++ [(e.layer, band, p.1, p.2, sat64 old.2.2.2.2 e.count)] }

/-- Adds the KV conversion errors of a yard's stalls. -/
def countKvErrs (d : Dp) (c : Ctl) (k : Yard) : Ctl :=
  let band := ((c.microIn k).map (·.band)).getD 0
  (d.kvErrs.filter fun x => x.yard = k).foldl (fun c e =>
    match c.stallIn k e.stall with
    | none => c
    | some st => if st.counts k.val then c.onSlot st.image st.epoch fun q => q.addErr band e else c) c

/-- One tick of every open window. -/
def Ctl.tickWindows (c : Ctl) : Ctl := c.onHub fun h => { h with qnt := h.qnt.map fun q => (q.1, { q.2 with left := q.2.left - 1 }) }

/-! ### The last completed tick (YRD_CNTi, YRD_MONITOR, YRD_MOE_LAST) -/

/-- A yard's counters and measures of a tick, over the ranges that it runs (R395). -/
def Ctl.measureYard (d : Dp) (m : Interval) (c : Ctl) (k : Yard) : Ctl :=
  let ks := c.rangesOf k
  let busy := (ks.filter fun j => !(c.yardStalls j).isEmpty).map fun j => (c.yd j).reports
  let c := if busy.isEmpty then c
    else (((c.countYard k 0 1).countYard k 1 (busy.map (·.mxeUsed)).sum).countYard k 2 (busy.map (·.mxeOffered)).sum)
  let tables := (d.routes.filter fun x => ks.contains x.yard).filterMap (·.table)
  let seen := m.monitors.getD k.val (0#8, 0#16)
  c.onYard k fun y =>
    { y with activity := seen.1, minSlack := seen.2, maxSlots := (tables.flatMap (·.n)).foldl Max.max 0
             maxDistinct := (tables.map fun t => (t.n.filter (0 < ·)).length).foldl Max.max 0 }

/-- Everything of a tick that reaches the hub at its bell. -/
def deliverAll (s : State) (b : BellIn) : Ctl :=
  let ks := List.finRange 8
  let c := ks.foldl (fun c k => c.deliverFlags s.cfg b.cycle k) s.ctl
  let c := ks.foldl (fun c k => c.saturationRecords s.cfg b.cycle k) c
  let c := ks.foldl (fun c k => countKvErrs s.dp (c.countConverted k) k) c
  let c := ks.foldl (Ctl.measureYard s.dp b.meter) c.tickWindows
  ks.foldl (fun c k => c.settleRaise s.cfg k) c

/-! ### The end of a statistics window (R142) -/

/-- Elements below which a band is SPARSE. -/
def sparseLimit : Nat := 65536

/-- F × a reference, F in eighths (R142): exact. -/
def eighths (factor : Nat) (ref : FNum) : FNum := ((FNum.ofInt factor).mulPow2 (-3)).mul ref

/-- Whether a band's clipped share drifts (R142): clipped / converted > F × max(ACT_REF, 2^−20). -/
def actDrifts (factor : Nat) (ref : Word) (clip conv : Nat) : Bool :=
  let least := (FNum.ofInt 1).mulPow2 (-20)
  let r := if FNum.lt (num32 ref) least then least else num32 ref
  FNum.lt ((eighths factor r).mul (FNum.ofInt conv)) (FNum.ofInt clip)

/-- The KV error sum and element count of a layer and band. -/
def QntSlot.errOf (q : QntSlot) (layer band : Nat) : FNum × Nat :=
  match q.err.find? fun x => x.1 = layer && x.2.1 = band with
  | some x => ((num32 x.2.2.1).add (num32 x.2.2.2.1), x.2.2.2.2)
  | none => (FNum.ofInt 0, 0)

/-- Whether a layer's mean squared error drifts in a band (R142): Σ / n > F × KV_REF. A sum that is no number any more, or infinite,
exceeds every reference. -/
def QntSlot.kvDrifts (q : QntSlot) (factor band layer : Nat) : Bool :=
  let e := q.errOf layer band
  let ref := num32 ((q.kvRef.getD layer []).getD band 0#32)
  e.2 ≠ 0 && (!e.1.isFin || FNum.lt ((eighths factor ref).mul (FNum.ofInt e.2)) e.1)

/-- KV elements converted in a band, all layers. -/
def QntSlot.kvCount (q : QntSlot) (band : Nat) : Nat := ((q.err.filter fun x => x.2.1 = band).map fun x => x.2.2.2.2).sum

/-- A band's activation status: 1 WITHIN, 2 DRIFT, 3 UNREFERENCED, 4 SPARSE. -/
def QntSlot.judgeAct (q : QntSlot) (factor band : Nat) : Nat :=
  if q.conv.getD band 0 < sparseLimit then 4
  else if !q.actBands.getLsbD band then 3
  else if actDrifts factor (q.actRef.getD band 0#32) (q.clip.getD band 0) (q.conv.getD band 0) then 2
  else 1

/-- A band's KV status. -/
def QntSlot.judgeKv (q : QntSlot) (factor band : Nat) : Nat :=
  if q.kvCount band < sparseLimit then 4
  else if !q.kvBands.getLsbD band then 3
  else if (List.range q.layers).any fun l => q.kvDrifts factor band l then 2
  else 1

/-- The DRIFT outcomes of a window in the order of R142. -/
def QntSlot.drifts (q : QntSlot) (cfg : Cfg) (slot : Nat) (act kv : List Nat) : List Drift :=
  ((List.range 4).filter fun b => act.getD b 0 = 2).map (fun b => ⟨false, b, slot, 0⟩) ++
    (List.range 4).flatMap fun b =>
      if kv.getD b 0 = 2 then ((List.range q.layers).filter fun l => q.kvDrifts cfg.factorKv b l).map fun l => ⟨true, b, slot, l⟩ else []

/-- A layer's four mean squared errors of a window, in FP32 (R445). -/
def QntSlot.mseBytes (q : QntSlot) (layer : Nat) : List Byte :=
  wordBytes ((List.range 4).map fun b =>
    let e := q.errOf layer b
    if e.2 = 0 then 0#32 else (rne32 (e.1.div (FNum.ofInt e.2))).1)

/-- The QNT_WINDOW records of a closed window (R142, R445). -/
def Ctl.windowRecords (c : Ctl) (cfg : Cfg) (slot : Nat) (q : QntSlot) (act kv : List Nat) : Ctl :=
  let parts := Bits.ceilDiv q.layers 249
  let st := (act.mapIdx fun i v => v * 16 ^ i).sum + (kv.mapIdx fun i v => v * 16 ^ (4 + i)).sum
  (List.range parts).foldl (fun c i =>
    let n := Min.min 249 (q.layers - 249 * i)
    c.journal cfg 8 0x8FFF 0 slot
      (Bits.toLe st 4 ++ Bits.toLe (249 * i) 2 ++ Bits.toLe n 2 ++ [BitVec.ofNat 8 i, BitVec.ofNat 8 parts] ++ List.replicate 6 0#8 ++
        (List.range 4).flatMap (fun b => Bits.toLe (q.clip.getD b 0) 8) ++ (List.range 4).flatMap (fun b => Bits.toLe (q.conv.getD b 0) 8) ++
        (List.range n).flatMap fun l => q.mseBytes (249 * i + l))) c

/-- Closes a slot's window (R142): its bands are judged, its record is written, and the next window starts from zero with the W of
now (R140). -/
def Ctl.closeWindow (c : Ctl) (cfg : Cfg) (slot : Nat) (q : QntSlot) : Ctl :=
  let act := (List.range 4).map fun b => q.judgeAct cfg.factorAct b
  let kv := (List.range 4).map fun b => q.judgeKv cfg.factorKv b
  let ds := q.drifts cfg slot act kv
  let c := c.windowRecords cfg slot q act kv
  let next : QntSlot :=
    { q with left := cfg.window, clip := [0, 0, 0, 0], conv := [0, 0, 0, 0], err := []
             actStatus := act, kvStatus := kv, lastClip := q.clip, lastConv := q.conv }
  let c := c.onHub fun h => { h with qnt := h.qnt.map fun x => if x.1 = slot then (slot, next) else x }
  match ds with
  | [] => c
  | d :: _ => (c.raise cfg .hub 8#16).onHub fun h => { h with drift := h.drift.orElse fun _ => some d }

/-- QNT_WINDOW_CLOSE (R142): at the bell that ends a slot's window. -/
def execQntWindowClose (slot : Fin 64) (s : State) : Host.Outcome State Fault Refusal :=
  match s.ctl.hub.qnt.find? fun x => x.1 = slot.val with
  | some (_, q) => if q.left = 0 then .next { s with ctl := s.ctl.closeWindow s.cfg slot.val q } else .next s
  | none => .next s

end Sys2Proof.Machine
end

