-- ==== Sys2Proof/Machine/Rows.lean ====
section
/-! DEFINITION. The changes that a bell applies, in the order of R51: grade, maps and relief sets, the plan switch, removals, suspension
and cancellation, epochs and shares. -/

namespace Sys2Proof.Machine

open Sys2Proof

/-! ### Row 1: the frequency grade (R68, R404) -/

/-- The lowest of the grades that the ceiling, the margin plan, the temperature and the power cap allow (R68, R475). -/
def Ctl.gradeDue (c : Ctl) (cfg : Cfg) : Nat :=
  Max.max (Max.max cfg.ceiling c.marginGrade) (Max.max c.hub.grades.temp c.hub.grades.power)

/-- The grade of the next tick; a change raises GRADE_CHANGED (R68). -/
def Ctl.takeGrade (c : Ctl) (cfg : Cfg) : Ctl :=
  let g := c.gradeDue cfg
  if g = c.hub.grades.current then c
  else (c.onHub fun h => { h with grades := { h.grades with current := g, previous := h.grades.current } }).raise cfg .hub 4#16

/-- A yard that can hold none of the grades is a yard fault (R404, R392). -/
def Ctl.loseUnheld (c : Ctl) (cfg : Cfg) : Ctl :=
  ((List.finRange 8).filter fun k => c.yardUp k && !(c.yd k).held.any id).foldl (fun c k => c.loseYard cfg k .other) c

/-! ### Row 2: maps, sub-links, relief frame programs (R380, R383, R394, R398) -/

/-- Whether no stall is in flight or formed. -/
def Ctl.drained (c : Ctl) : Bool := (c.fe.pipe ++ c.fe.formed.toList).all (·.stalls.isEmpty)

/-- The yard's sub-links as they were last found, its block lists patched, and its faulty clusters retired. -/
def rowTwoYard (s : State) (k : Yard) : State :=
  retireFaulty (patchMoved { s with ctl := s.ctl.onYard k fun y => { y with links := y.linksDue, linksNext := none } } k) k

/-- The return of a lost yard once the pipeline has drained (R398). -/
def endRelief (s : State) : State :=
  match s.ctl.hub.relief with
  | some k => if s.ctl.hub.reliefEnds && s.ctl.drained then restoreYard s k else s
  | none => s

/-- Row 2 of R51. -/
def rowTwo (s : State) : State :=
  let s := (List.finRange 8).foldl rowTwoYard s
  let s := match s.ctl.hub.reliefNext with
    | some k => enterRelief s k
    | none => s
  endRelief s

/-! ### Ends of requests and runs -/

/-- Whether a stall of the microbatch formed but not yet in yard 0 is struck by a suspension or a cancellation of its request (R298): no
replay is. -/
def Job.withdraws (j : Job) (st : Stall) : Bool := st.live && !st.replay && !st.tunes && st.request = j.cmd.order && st.fn = j.cmd.fn

/-- Strikes a request's formed stalls, and takes back what their admission had counted; a pending token that they had taken pends again. -/
def Ctl.withdraw (c : Ctl) (j : Job) : Ctl :=
  let mine := (c.fe.formed.toList.flatMap (·.stalls)).filter j.withdraws
  let strike (st : Stall) : Stall := if j.withdraws st then { st with struck := true } else st
  let c := c.onFe fun f => { f with formed := f.formed.map fun m => { m with stalls := m.stalls.map strike } }
  if mine.isEmpty then c
  else
    let taken := ((mine.filter fun st => !st.isLane).map fun st => st.tokens.length).sum
    match j.kind with
    | .append toks next done lead np m _ =>
      let c := c.setJob { j with kind := .append toks (next - taken) done lead np m false }
      match lead, c.session? j.cmd.fn (ixOf j.subject) with
      | some host, some x => if next - taken = 0 then c.setSession { x with pendingToken := toks.head?, pendingHost := host } else c
      | _, _ => c
    | .launch g v items admitted images ad out => c.setJob { j with kind := .launch g v items (admitted - mine.length) images ad out }
    | _ => c

/-- A request ends with a status: formed stalls are struck and a long-lane step that is not complete is discarded (R298). -/
def Ctl.cancelRequest (c : Ctl) (j : Job) (status : BitVec 16) : Ctl :=
  let c := c.withdraw j
  let c := match c.session? j.cmd.fn (ixOf j.subject) with
    | some x => if x.commands.head? = some j.cmd.order && j.kind.typ ≠ 3 then c.setSession { x with lane := none } else c
    | none => c
  match c.jobByOrder j.cmd.order with
  | some k => c.endRequest k status
  | none => c

/-- A tuning run ends of itself or is cancelled (R298, R431): its stalls that have not entered yard 0 are struck, its steps end with the status. -/
def Ctl.endRun (c : Ctl) (r : Run) (status : BitVec 16) : Ctl :=
  let mine (st : Stall) : Bool := st.tunes && st.fn = r.fn && st.session = handleOf .job r.ix
  let c := c.onFe fun f =>
    { f with formed := f.formed.map fun m => { m with stalls := m.stalls.map fun st => if mine st then { st with struck := true } else st }
             replays := f.replays.map fun g => g.filter fun st => !mine st }
  let c := c.setRun { r with steps := r.steps.map fun t => { t with status := t.status.orElse fun _ => some status } }
  match c.job? r.fn r.ix with
  | some j => if j.over then c else c.setJob { j with ending := some status }
  | none => c

/-- Ends the sessions, launches and runs that use some of the epochs, with a status (R203, R209, R431). -/
def Ctl.endUsers (c : Ctl) (test : Nat → Nat → Bool) (status : BitVec 16) : Ctl :=
  let c := (c.objs.sessions.filter fun x => test x.image x.epoch).foldl (fun c x => c.endSession x status) c
  let launch (j : Job) : Bool := match j.kind with
    | .launch _ _ _ _ images _ _ => !j.over && images.any fun e => test e.1 e.2
    | _ => false
  let stop (c : Ctl) (j : Job) : Ctl :=
    let c := c.strikeAll fun st => st.fn = j.cmd.fn && st.request = j.cmd.order && !st.tunes
    match c.jobByOrder j.cmd.order with
    | some k => c.endRequest k status
    | none => c
  let c := (c.objs.jobs.filter launch).foldl stop c
  (c.objs.runs.filter fun r => test r.image r.epoch).foldl (fun c r => c.endRun r status) c

/-! ### Row 3: the plan switch (R48, R52, R247, R295, R431) -/

/-- Whether a new plan carries the KV of an old one (R247). -/
def carries (old new : Plan) : Bool := old.kvDescs = new.kvDescs

/-- Whether a plan names an image. -/
def planHas (p : Plan) (i : Option Image) : Bool := i.any fun k => p.images.any (·.digest = k.digest)

/-- Ends what the switch from one plan to another does not keep (R295, R296, R431). -/
def Ctl.endForSwitch (c : Ctl) (old new : Option Plan) : Ctl :=
  let keepsSession (x : Session) : Bool := match old, new with
    | some a, some b => carries a b && planHas b (c.image? x.image)
    | _, _ => false
  let keepsRun (r : Run) : Bool := match old, new with
    | some a, some b => a.paths = b.paths && planHas b (c.image? r.image)
    | _, _ => false
  let c := (c.objs.sessions.filter fun x => !keepsSession x).foldl (fun c x => c.endSession x Status.planSwitch) c
  let c := (c.objs.jobs.filter fun j => j.kind.typ = 3 && !j.over).foldl (fun c j => c.cancelRequest j Status.planSwitch) c
  (c.objs.runs.filter fun r => !keepsRun r).foldl (fun c r => c.endRun r Status.planSwitch) c

/-- The front end under the new plan: replays of kept sessions are relocated anew, long-lane steps begin again. -/
def Ctl.feForSwitch (c : Ctl) (w : Switch) : Ctl :=
  let anew (st : Stall) : Stall := { st with views := [] }
  let c := c.onFe fun f =>
    { f with switch := none, ticking := w.plan.isSome, replays := if w.plan.isSome then f.replays.map (·.map anew) else []
             pipe := if w.plan.isSome then f.pipe else [], formed := if w.plan.isSome then f.formed else none }
  c.onObjs fun o => { o with sessions := o.sessions.map fun x => { x with lane := none } }

/-- A plan selected while a yard is lost runs under that yard's relief set (R392, R394). -/
def Ctl.reliefForSwitch (c : Ctl) (cfg : Cfg) (w : Switch) : Ctl :=
  match w.plan, c.hub.relief, (List.finRange 8).find? fun k => (c.yd k).lost with
  | some _, none, some k => (c.onHub fun h => { h with relief := some k, reliefNext := none, reliefUp := true }).raise cfg .ras (evBit 0)
  | none, _, _ => c.onHub fun h => { h with relief := none, reliefNext := none, reliefUp := false }
  | _, _, _ => c

/-- Cached nodes go with the KV that a switch does not carry (R247). -/
def Ctl.nodesForSwitch (c : Ctl) (old new : Option Plan) : Ctl :=
  match old, new with
  | some a, some b => if carries a b then c else c.objs.nodes.foldl (fun c n => c.dropNode n) c
  | _, _ => c.objs.nodes.foldl (fun c n => c.dropNode n) c

/-- Makes a plan switch (R52, R295): PLAN_SELECT completes; replaced plans that nothing holds any more are freed (R48). -/
def Ctl.switchPlan (c : Ctl) (cfg : Cfg) (w : Switch) : Ctl :=
  let old := c.plan?
  let c := c.onObjs fun o => { o with selected := w.plan, plans := o.plans.filter fun l => !l.replaced || w.plan = some l.ix }
  let c := (((c.endForSwitch old c.plan?).nodesForSwitch old c.plan?).feForSwitch w).reliefForSwitch cfg w
  let c := c.onPwr fun p => { p with st := if w.plan.isSome then .serving else .idle }
  c.finish w.cmd Status.success 0#32 0

/-- The parts of the plan in force that lie in stores: its block lists in the fast tier (R48, R197) and its table image in every core (R114). -/
def placePlan (s : State) : State :=
  match s.ctl.plan? with
  | none => s
  | some p =>
    let r := relistAll s.ctl (s.dp.loadTables p.table)
    { s with dp := r.2, ctl := r.1 }

/-- Row 3 of R51: the switch that a cut-off has accepted is made once the pipeline has drained (R52), or at once where no tick runs. -/
def rowThree (s : State) : State :=
  match s.ctl.fe.switch with
  | some w =>
    if (w.accepted && s.ctl.drained) || !s.ctl.fe.ticking then placePlan { s with ctl := s.ctl.switchPlan s.cfg w } else s
  | none => s

/-! ### Row 4: removals, suspension, cancellation (R51, R203, R209, R297, R298, R305) -/

/-- Whether an epoch is one of the name that an image is a version of, an older one than a given one. -/
def Ctl.olderOfName (c : Ctl) (i : Image) (num : Option Nat) (image epoch : Nat) : Bool :=
  (c.image? image).any (fun k => k.name = i.name && k.owner = i.owner) && !(image = i.ix && num = some epoch)

/-- Activations that a bell brings into effect: loaded before the cut-off, or at once where no tick runs (R51 row 5, R201 step 4). -/
def Ctl.effective (c : Ctl) (j : Job) : Bool :=
  match j.kind with
  | .activate _ _ _ _ _ _ loaded _ =>
    loaded && !j.over && j.st ≠ .suspended && (!c.fe.ticking || c.fe.ready.contains (j.cmd.fn, j.ix))
  | _ => false

/-- CUTOVER of an activation (R203): at the bell at which its epoch takes effect, or, while it lacks space and older epochs of the name are in
service, at the next bell. -/
def Ctl.cutover (c : Ctl) (j : Job) : Ctl :=
  match j.kind with
  | .activate image true tablesOnly num base tables loaded ended =>
    match c.image? image with
    | none => c
    | some i =>
      let waits := !j.over && j.wait = 3 && !ended
      if !waits && !c.effective j then c
      else
        let c := c.endUsers (c.olderOfName i num) Status.epochReplaced
        if !waits then c
        else
          let stop (e : Epoch) : Epoch := if c.olderOfName i num e.image e.num then { e with current := false } else e
          if !c.objs.epochs.any fun e => e.effect && c.olderOfName i num e.image e.num then c
          else
            (c.onObjs fun o => { o with epochs := o.epochs.map stop }).setJob
              { j with kind := .activate image true tablesOnly num base tables loaded true }
  | _ => c

/-- What a cancelled self-test has tested (R298, R410): the findings of the rotation steps that are complete. -/
def testedSoFar (j : Job) (kind : Nat) (found : List TestFault) : List TestFault :=
  let done := j.progress / Max.max 1 (j.limit / 26)
  if kind = 0 then found.filter fun f => (if f.unit.toNat = 25 then 0 else f.unit.toNat + 1) < done else found

/-- JOB_CANCEL's effect on a job that is not over (R298). -/
def cancelJob (s : State) (j : Job) (status : BitVec 16) : State :=
  let c := s.ctl
  match j.kind with
  | .append .. | .generate .. | .launch .. => { s with ctl := c.cancelRequest j status }
  | .install .. | .activate .. => { s with ctl := (c.undoJob j).finishJob j status 0#32 0 }
  | .tuning => { s with ctl := match c.run? j.cmd.fn (handleOf .job j.ix) with
      | some r => c.endRun r status
      | none => c.finishJob j status 0#32 0 }
  | .selftest mask kind report found =>
    let yards := (List.finRange 8).filter fun k => mask.getLsbD k.val
    let seen := testedSoFar j kind found
    let s := if kind = 0 then seen.foldl retireFound (yards.foldl (fun s k => rotate s k none) s) else s
    let c := match s.ctl.fn? j.cmd.fn with
      | some f =>
        let room := ((f.region report.handle).map fun (x : Region) => x.len - report.off).getD 0
        s.ctl.regionWrite f report (testReport kind mask j.progress seen room)
      | none => s.ctl
    { s with ctl := c.finishJob j status 0#32 0 }
  | .replan .. | .planLoad .. | .migration | .dump _ => { s with ctl := c.finishJob j status 0#32 0 }

/-- JOB_SUSPEND's effect (R298). A cluster under self-test returns to service. -/
def suspendJob (s : State) (j : Job) : State :=
  let c := s.ctl.withdraw j
  let c := match c.job? j.cmd.fn j.ix with
    | some k => c.setJob { k with st := .suspended }
    | none => c
  match j.kind with
  | .selftest mask 0 _ _ => ((List.finRange 8).filter fun k => mask.getLsbD k.val).foldl (fun s k => rotate s k none) { s with ctl := c }
  | _ => { s with ctl := c }

/-- One JOB_SUSPEND or JOB_CANCEL that waits for the bell (R297): it completes now. -/
def jobOpNow (s : State) (n : BitVec 8) (ix : Nat) (op : Bool × Cmd) : State :=
  match s.ctl.job? n ix with
  | none => { s with ctl := s.ctl.finish op.2 Status.noEffect 0#32 0 }
  | some j =>
    if j.over || (op.1 && j.st = .suspended) then { s with ctl := s.ctl.finish op.2 Status.noEffect 0#32 0 }
    else
      let s := if op.1 then suspendJob s j else cancelJob s j Status.cancelled
      { s with ctl := s.ctl.finish op.2 Status.success 0#32 0 }

/-- Every suspension and cancellation that waits, in the order of fetching. -/
def jobOpsNow (s : State) : State :=
  let ops := (s.ctl.objs.jobs.flatMap fun j => j.ops.map fun o => (j.cmd.fn, j.ix, o)).mergeSort fun a b => a.2.2.2.order ≤ b.2.2.2.order
  let clear (o : Objs) : Objs := { o with jobs := o.jobs.map fun j => { j with ops := [] } }
  ops.foldl (fun s x => jobOpNow s x.1 x.2.1 x.2.2) { s with ctl := s.ctl.onObjs clear }

/-- A queue that is being reset (R305): the jobs submitted through it are cancelled, its steps that have not begun end, and it is left
disabled. -/
def resetQueueNow (s : State) (n : BitVec 8) (q : Fin 4) : State :=
  let mine (m : Cmd) : Bool := m.fn = n && m.q = q
  let s := (s.ctl.objs.jobs.filter fun j => mine j.cmd && !j.device && !j.over).foldl (fun (s : State) j =>
    match s.ctl.job? j.cmd.fn j.ix with
    | some k => cancelJob s k (if k.isRequest then Status.queueReset else Status.cancelled)
    | none => s) s
  let stop (t : TuneStep) : TuneStep := if mine t.cmd && !t.begun && t.status.isNone then { t with status := some Status.queueReset } else t
  let c := s.ctl.onObjs fun o => { o with runs := o.runs.map fun r => { r with steps := r.steps.map stop } }
  { s with ctl := c.onQueue n q fun y => { y with resetting := false } }

/-- Every queue that is being reset. -/
def resetQueuesNow (s : State) : State :=
  let qs := s.ctl.fns.flatMap fun f => ((List.finRange 4).filter fun q => (f.queue q).resetting).map fun q => (f.num, q)
  qs.foldl (fun s x => resetQueueNow s x.1 x.2) s

/-- Row 4 of R51: disable sequences; suspensions, cancellations and queue resets, so that an activation that they stop ends no session; CUTOVER;
damaged images. -/
def rowFour (s : State) : State :=
  let c := (s.ctl.fns.map (·.num)).foldl (fun c n => c.disableBell n) s.ctl
  let s := resetQueuesNow (jobOpsNow { s with ctl := c })
  let c := s.ctl.objs.jobs.foldl (fun (c : Ctl) j => match c.job? j.cmd.fn j.ix with | some k => c.cutover k | none => c) s.ctl
  { s with ctl := c.endUsers (fun image _ => (c.image? image).any (·.st = .damaged)) Status.imageDamaged }

/-! ### Row 5: epochs (R140, R181, R201, R202, R418) -/

/-- A statistics slot for a set that takes effect (R140, R141): the reference values of its calibration record. -/
def qntSlotOf (cfg : Cfg) (e : Epoch) : QntSlot :=
  let cal := ((splitScales e.tables).map (·.2)).getD []
  let n := Bits.leNat cal 2 2
  let word (o : Nat) : Word := BitVec.ofNat 32 (Bits.leNat cal o 4)
  { image := e.image, epoch := e.num, layers := n, actBands := (cal.getD 4 0#8).setWidth 4, kvBands := (cal.getD 5 0#8).setWidth 4
    actRef := (List.range 4).map fun b => word (8 + 4 * b)
    kvRef := (List.range n).map fun l => (List.range 4).map fun b => word (64 + 16 * l + 4 * b)
    left := cfg.window, clip := [0, 0, 0, 0], conv := [0, 0, 0, 0], err := [], actStatus := [0, 0, 0, 0], kvStatus := [0, 0, 0, 0]
    lastClip := [0, 0, 0, 0], lastConv := [0, 0, 0, 0] }

/-- Gives an epoch the lowest free statistics slot, or none (R140). -/
def Ctl.giveSlot (c : Ctl) (cfg : Cfg) (e : Epoch) : Nat × Ctl :=
  match (List.range 64).find? fun i => !(c.hub.qnt.any fun q => q.1 = i) with
  | some i => (i, c.onHub fun h => { h with qnt := (h.qnt ++ [(i, qntSlotOf cfg e)]).mergeSort fun a b => a.1 ≤ b.1 })
  | none => (64, c)

/-- An epoch takes effect (R201 step 4, R174): it becomes its name's current epoch, and its job ends with the number. -/
def Ctl.takeEffect (c : Ctl) (cfg : Cfg) (j : Job) : Ctl :=
  match j.kind with
  | .activate image _ _ (some num) _ _ _ _ =>
    match c.image? image, c.epoch? image num with
    | some i, some e =>
      let r := c.giveSlot cfg e
      let mark (x : Epoch) : Epoch :=
        if x.image = image && x.num = num then { x with effect := true, current := true, slot := some r.1 }
        else if c.olderOfName i (some num) x.image x.num then { x with current := false } else x
      let c := r.2.onObjs fun o => { o with epochs := o.epochs.map mark }
      (c.onImage image fun k => { k with lastEpoch := num }).finishJob j Status.success (BitVec.ofNat 32 num) 0
    | _, _ => c
  | _ => c

/-- Whether a session, launch, run, activation, variant's epoch or tables-only epoch keeps an epoch (R144, R200, R202). -/
def Ctl.epochPinned (c : Ctl) (e : Epoch) : Bool :=
  c.objs.sessions.any (fun x => x.image = e.image && x.epoch = e.num && !x.swept) ||
    c.objs.runs.any (fun r => r.image = e.image && r.epoch = e.num) ||
    c.objs.jobs.any (fun j => j.st ≠ .ended && match j.kind with
      | .launch _ _ _ _ images _ _ => images.contains (e.image, e.num)
      | .activate _ _ _ _ base _ _ _ => base = some (e.image, e.num)
      | _ => false) ||
    c.objs.epochs.any fun x => x.base = some (e.image, e.num) || (x.image = e.image && x.shares = some e.num)

/-- Frees an epoch (R202): its nodes, its statistics slot, its space. -/
def Ctl.freeEpoch (c : Ctl) (e : Epoch) : Ctl :=
  let c := (c.objs.nodes.filter fun n => n.image = e.image && n.epoch = e.num).foldl (fun c n => c.dropNode n) c
  let c := c.onHub fun h => { h with qnt := h.qnt.filter fun q => !(q.2.image = e.image && q.2.epoch = e.num) }
  c.onObjs fun o => { o with epochs := o.epochs.filter fun x => !(x.image = e.image && x.num = e.num) }

/-- Epochs that the last bell found without a user are freed; epochs of retired images cease to be current (R181, R202). -/
def Ctl.freeEpochs (c : Ctl) : Ctl :=
  let retired (e : Epoch) : Bool := (c.image? e.image).any (·.st = .retiring)
  let c := c.onObjs fun o => { o with epochs := o.epochs.map fun e => if retired e then { e with current := false } else e }
  (c.objs.epochs.filter fun e => e.due && !e.current && !c.epochPinned e).foldl (fun c e => c.freeEpoch e) c

/-- What no use keeps any more at the end of a bell: epochs are marked, sets without sessions lose their statistics slot, a window of theirs that has
ended being judged first (R140), retired
images without epochs are freed (R181), adapters of images that are gone are freed with their last session (R418). -/
def Ctl.markUnused (c : Ctl) (cfg : Cfg) : Ctl :=
  let idle (e : Epoch) : Bool := !e.current && !(c.objs.sessions.any fun x => x.image = e.image && x.epoch = e.num && !x.swept)
  let lost := c.objs.epochs.filter fun e => e.effect && idle e
  let out (q : Nat × QntSlot) : Bool := lost.any fun e => e.image = q.2.image && e.num = q.2.epoch
  let c := (c.hub.qnt.filter fun q => out q && q.2.left = 0).foldl (fun c q => c.closeWindow cfg q.1 q.2) c
  let c := c.onHub fun h => { h with qnt := h.qnt.filter fun q => !out q }
  let mark (e : Epoch) : Epoch :=
    { e with due := e.effect && !e.current && !c.epochPinned e, slot := if e.effect && idle e && e.slot ≠ some 64 then none else e.slot }
  let c := c.onObjs fun o => { o with epochs := o.epochs.map mark }
  let c := c.onHub fun h => { h with unmeasured := (c.objs.epochs.filter fun e => e.effect && e.slot = some 64).length }
  let c := (c.objs.images.filter fun i => i.st = .retiring && !(c.objs.epochs.any fun e => e.image = i.ix)).foldl (fun c i => c.freeImage i) c
  let gone (a : Adapter) : Bool := !(c.objs.images.any fun i => i.digest = a.image)
  (c.onObjs fun o => { o with adapters := o.adapters.map fun a => if gone a then { a with replaced := true } else a }).sweepAdapters

/-- Row 5 of R51: epochs. -/
def Ctl.rowFive (c : Ctl) (cfg : Cfg) : Ctl :=
  ((c.objs.jobs.filter c.effective).foldl (fun c j => c.takeEffect cfg j) c).freeEpochs

end Sys2Proof.Machine
end

