-- ==== Sys2Proof/Machine/Bell.lean ====
section
/-! DEFINITION. The bell and the hub timer period (02, 10, 12, 16): whether a bell rings, what it ends, and the tick that begins. -/

namespace Sys2Proof.Machine

open Sys2Proof

/-! ### Whether a bell rings (R37, R42, R49) -/

/-- Whether a yard holds the bell no longer: 250 clusters have reported, it has nothing to run, or nothing runs its range. -/
def Ctl.yardDone (c : Ctl) (k : Yard) : Bool :=
  let all := 250 ≤ (c.yd k).reports.clusters.length || (c.yardStalls k).isEmpty
  if c.yardUp k then all
  else if c.hub.relief = some k && (c.microIn k).any (·.relief = some k) then all else true

/-- The conditions of the bell while ticks run: L has passed, every yard is done, the stall list is ready (R50), and every token that yard 7
samples has its logits. -/
def Ctl.rings (c : Ctl) (b : BellIn) : Bool :=
  c.fe.cut && c.tickLen ≤ b.cycle && b.listAt ≤ b.cycle && ((List.finRange 8).all c.yardDone) && c.logitsGiven b

/-! ### Long ticks (R39, R50, R65, R69) -/

/-- The longest grade-change gap: 2 µs at 2.4 GHz. -/
def maxGap : Nat := 4800

/-- FRONT_END_LATE (R50): the stall list was ready neither when L had passed nor when the last report had come. Counted in every yard in
service. -/
def Ctl.judgeList (c : Ctl) (cfg : Cfg) (b : BellIn) : Ctl :=
  if Max.max c.tickLen b.doneAt < b.listAt then
    (List.finRange 8).foldl (fun c k => if c.yardUp k then c.breach cfg k 6 b.listAt false else c) c
  else c

/-- The grade that a bell will take: yards that this bell finds unable to hold any grade are left out (R404, R392). -/
def Ctl.gradeNext (c : Ctl) (cfg : Cfg) : Nat := (((List.finRange 8).foldl (fun c k => c.settleRaise cfg k) c).loseUnheld cfg).gradeDue cfg

/-- The gap that a bell is delayed by (R69): none unless it changes the grade. -/
def Ctl.gapOf (c : Ctl) (cfg : Cfg) (b : BellIn) : Nat := if c.gradeNext cfg = c.hub.grades.current then 0 else Min.min b.gap maxGap

/-- A long tick (R39, R65): TICK_LONG, the count, the TICK_LONG record and the trigger. -/
def Ctl.judgeTick (c : Ctl) (cfg : Cfg) (b : BellIn) : Ctl :=
  let due := c.tickLen + c.gapOf cfg b
  let c := c.judgeList cfg b
  if b.cycle ≤ due then c
  else
    let c := (c.onHub fun h => { h with long := sat64 h.long 1 }).raise cfg .hub 1#16
    let c := c.journal cfg 3 0x8FFF b.cycle (b.lastYard.val * 2 ^ 29 + Min.min (b.cycle - due) (2 ^ 29 - 1)) []
    if cfg.trigSource = 2 then c.trigger cfg 2 else c

/-! ### Ends of requests (R292, R293, R342, R429) -/

/-- What a session that the device has ended still held is released, and its jobs end with its status (R292). -/
def Ctl.sweepSession (c : Ctl) (x : Session) : Ctl :=
  match x.ended, x.swept with
  | some status, false =>
    let c := c.strikeAll fun st => st.fn = x.fn && st.session = handleOf .session x.ix && !st.tunes
    let c := ((c.releaseSession x).endCommands x status).raiseFn x.fn 8#16
    match c.session? x.fn x.ix with
    | some y => c.setSession { y with swept := true }
    | none => c
  | _, _ => c

/-- Every session that has ended. -/
def Ctl.sweepSessions (c : Ctl) : Ctl := c.objs.sessions.foldl (fun c x => c.sweepSession x) c

/-- A closing session keeps no long-lane record (R293). -/
def Ctl.dropLanes (c : Ctl) : Ctl :=
  c.onObjs fun o => { o with sessions := o.sessions.map fun x => if x.closing.isSome then { x with lane := none } else x }

/-- Steps that a TUNE_CLOSE keeps from their update: those not begun, and one in flight once its visits are done (R430). -/
def Ctl.closeRuns (c : Ctl) : Ctl :=
  let stop (t : TuneStep) : TuneStep :=
    if t.status.isNone && (!t.begun || t.visited) then { t with status := some Status.cancelled } else t
  c.onObjs fun o => { o with runs := o.runs.map fun r => if r.closing.isSome then { r with steps := r.steps.map stop } else r }

/-- Whether the end of a request whose status is decided is written at this bell: none of its steps is in flight, or its session ends or
closes (R292, R293). -/
def Ctl.mayEnd (c : Ctl) (j : Job) : Bool :=
  j.isRequest && j.st ≠ .ended && j.ending.isSome &&
    (j.inflight = 0 || (j.kind.typ ≠ 3 && match c.session? j.cmd.fn (ixOf j.subject) with
      | some x => x.ended.isSome || x.closing.isSome
      | none => true))

/-- A pending token that an APPEND took and did not commit pends again. -/
def Job.giveBack (j : Job) (x : Session) : Session :=
  match j.kind with
  | .append toks _ 0 (some host) _ _ _ => if x.pendingToken.isNone then { x with pendingToken := toks.head?, pendingHost := host } else x
  | _ => x

/-- A request leaves its session's queue, and the next one has its turn (R293). -/
def Ctl.leaveSession (c : Ctl) (j : Job) : Ctl :=
  match c.session? j.cmd.fn (ixOf j.subject) with
  | none => c
  | some x =>
    let y := j.giveBack x
    let rest := y.commands.filter (· ≠ j.cmd.order)
    let c := c.setSession { y with commands := rest }
    match rest.head?.bind c.jobByOrder with
    | some k => c.setJob { k with wait := if k.wait = 6 then 0 else k.wait }
    | none => c

/-- Writes a request's tally and its final record (R342, R279). -/
def Ctl.endJob (c : Ctl) (cfg : Cfg) (j : Job) : Ctl :=
  let status := j.ending.getD Status.success
  let r := c.writeTally cfg (j.tally status c.hub.tick)
  let c := if j.kind.typ = 3 then r.2 else r.2.leaveSession j
  let c := c.setJob { j with st := .ended, wait := 0, status := status, ops := [] }
  let c := match j.kind with
    | .launch g v .. => (c.onLaunches j.cmd.fn g v (· - 1)).sweepGraphs
    | _ => c
  ((c.decide j.cmd status 0#32 0 r.1 (some j.ix)).settle j.cmd.fn).dropOps j

/-- Writes a tuning step's tally and its record (R429, R343); a step whose queue has been reset says so (R305). -/
def Ctl.endStep (c : Ctl) (cfg : Cfg) (r : Run) (t : TuneStep) : Ctl :=
  let given := t.status.getD Status.success
  let status := if t.cmd.order < (c.queueOf t.cmd.fn t.cmd.q).since then Status.queueReset else given
  let w := c.writeTally cfg (t.tally status (if given = Status.success then t.count else 0) c.hub.tick)
  let c := w.2.setRun { r with steps := r.steps.filter fun x => x.cmd.order ≠ t.cmd.order }
  (c.decide t.cmd status 0#32 0 w.1 none).settle t.cmd.fn

/-- The requests that end at this bell, abandoned ones among them, by function and then in the order of fetching (R345). -/
def Ctl.endings (c : Ctl) : List (Nat × Nat) :=
  let jobs := (c.objs.jobs.filter c.mayEnd).map fun j => (j.cmd.fn.toNat, j.cmd.order)
  let steps := (c.objs.runs.flatMap (·.steps)).filter fun t => t.status.isSome
  leafOrder (jobs ++ steps.map (fun t => (t.cmd.fn.toNat, t.cmd.order)) ++ c.abandonedNow)

/-- One of them. -/
def Ctl.endOne (c : Ctl) (cfg : Cfg) (order : Nat) : Ctl :=
  match c.jobByOrder order with
  | some j => if c.mayEnd j then c.endJob cfg j else c
  | none =>
    match c.objs.runs.find? fun r => r.steps.any (·.cmd.order = order) with
    | none => c.writeAbandoned cfg order
    | some r => match r.steps.find? fun t => t.cmd.order = order with
      | some t => c.endStep cfg r t
      | none => c

/-- A tuning run whose end is decided, or that TUNE_CLOSE ends and that has no step left (R430, R431). -/
def Ctl.finishRun (c : Ctl) (r : Run) : Ctl :=
  match c.job? r.fn r.ix with
  | none => c
  | some j =>
    match j.ending.orElse fun _ => if r.closing.isSome && r.steps.isEmpty then some Status.success else none with
    | none => c
    | some status =>
      let c := c.onObjs fun o => { o with runs := o.runs.filter fun x => !(x.fn = r.fn && x.ix = r.ix) }
      let c := c.finishJob j status 0#32 0
      match r.closing with
      | some m => c.finish m status 0#32 0
      | none => c

/-- A closing session whose last step has left yard 7 (R293): its storage is freed and its close completes. -/
def Ctl.finishClose (c : Ctl) (x : Session) : Ctl :=
  match x.closing with
  | some m => if x.inflight = 0 then ((c.releaseSession x).removeSession x).finish m Status.success 0#32 0 else c
  | none => c

/-- The tallies and records of a bell: requests, saved adapters, runs, closes (R342, R429, R430, R293). -/
def Ctl.endAll (c : Ctl) (cfg : Cfg) : Ctl :=
  let c := c.closeRuns
  let c := c.endings.foldl (fun c x => c.endOne cfg x.2) c
  let c := c.objs.waiting.foldl (fun c w => c.trySave cfg w) c
  let c := c.objs.runs.foldl (fun c r => c.finishRun r) c
  c.objs.sessions.foldl (fun c x => c.finishClose x) c

/-! ### Commands that wait for a bell (R286, R291, R442) -/

/-- A mark that a bell completes: one without a session is written by the hub; one whose session is going ends. -/
def Ctl.endMark (c : Ctl) (cfg : Cfg) (cycle : Nat) (w : Waiting) : Ctl :=
  let close (c : Ctl) (status : BitVec 16) : Ctl := (c.dropWaiting w.cmd.order).finish w.cmd status 0#32 0
  match w.what with
  | .mark ident ends none => close (c.markRecord cfg 0x8FFF cycle ident w.cmd.fn (if ends then 3 else 2) 0 0#32) Status.success
  | .mark _ _ (some h) =>
    match c.session? w.cmd.fn (ixOf h) with
    | none => close c Status.cancelled
    | some x =>
      match x.ended with
      | some status => close c status
      | none => if x.closing.isSome then close c Status.cancelled else c
  | _ => c

/-- A mark that an admitted step carries: its command completes. -/
def Ctl.attachMark (c : Ctl) (k : Mk) : Ctl :=
  let mine (w : Waiting) : Bool := w.cmd.fn = k.fn && match w.what with
    | .mark ident ends (some h) => ident = k.ident && ends = k.ends && h = k.session
    | _ => false
  match c.objs.waiting.find? mine with
  | some w => (c.dropWaiting w.cmd.order).finish w.cmd Status.success 0#32 0
  | none => c

/-- Everything that waits for the bell. -/
def Ctl.endWaiting (c : Ctl) (cfg : Cfg) (cycle : Nat) : Ctl :=
  let c := c.objs.waiting.foldl (fun c w => (c.bindOpen w).tryFork w) c
  let ks := (c.fe.formed.toList.flatMap (·.stalls)).flatMap fun st => if st.live && !st.replay then st.marks else []
  let c := ks.foldl (fun c k => c.attachMark k) c
  c.objs.waiting.foldl (fun c w => c.endMark cfg cycle w) c

/-! ### Interrupt messages (R320) -/

/-- One message for each vector that is pending and not masked; none while the site's link is not active. -/
def Ctl.sendMessages (c : Ctl) : Ctl :=
  c.fns.foldl (fun c f =>
    if (c.site f.site).link ≠ .active then c
    else
      let out := f.irqPending.filter fun v => !f.irqMasked.has v
      let c := c.onFn f.num fun g => { g with irqPending := g.irqPending.filter g.irqMasked.has }
      c.onBus fun b => { b with msgs := (out.map fun v => (f.num, v)).reverse ++ b.msgs }) c

/-! ### The last part of a bell -/

/-- HOLDs of blocks whose sessions have no replay under way fall (R220, R207). -/
def Ctl.dropHolds (c : Ctl) : Ctl :=
  let busy (x : Session) : Bool := (c.stallsOf x).any (·.replay)
  c.onObjs fun o =>
    { o with sessions := o.sessions.map fun x => if busy x then x else { x with map := x.map.map fun e => { e with hold := false } } }

/-- What a bell or hub timer period does once every change is made: ends, waiting commands, what is unused, freed storage, measurements
and messages. -/
def Ctl.lastly (c : Ctl) (cfg : Cfg) (cycle : Nat) : Ctl :=
  let c := c.recount.sweepSessions.dropLanes.recount
  let c := ((c.endAll cfg).endWaiting cfg cycle).markUnused cfg
  let c := (c.freeDue.dropHolds.recount).measure
  let c := c.sendMessages
  { c with fns := c.fns.map fun f => { f with fetched := 0 } }

/-- The changes of R51 in their order. -/
def rows (s : State) (jobs : List JobStep) : State :=
  let s := rowTwo { s with ctl := s.ctl.takeGrade s.cfg }
  let s := jobs.foldl jobStep s
  let s := rowFour (rowThree s)
  { s with ctl := s.ctl.rowFive s.cfg }

/-! ### The tick that begins -/

/-- Every microbatch moves one yard; the one formed enters yard 0 (R29, R65). -/
def Ctl.advance (c : Ctl) : Ctl :=
  let move (m : Micro) : Micro := { m with yard := m.yard + 1 }
  let c := c.onFe fun f =>
    { f with pipe := f.pipe.map move ++ f.formed.toList, cut := false, formed := none, ready := [] }
  c.onObjs fun o =>
    { o with sessions := o.sessions.map fun x => { x with lane := x.lane.map fun l => { l with plan := l.expect, expect := none, planTo := l.expectTo, expectTo := none } } }

/-- The generations that the yards hold in a tick (R256): none for a vacant or struck stall; they stand for the eight ticks of a pass. -/
def Ctl.gensNow (c : Ctl) : List GenEntry :=
  (List.finRange 8).flatMap fun k =>
    ((c.yardStalls k).mapIdx fun i st => (i, st)).filterMap fun x =>
      if !x.2.struck && x.2.runsIn k.val then some ⟨k, x.1, x.2.gen⟩ else none

/-- MARK records of marked steps: cluster 0 of each yard at the first cycle of the tick (R442). -/
def Ctl.stepMarks (c : Ctl) (cfg : Cfg) : Ctl :=
  (List.finRange 8).foldl (fun c k =>
    ((c.yardStalls k).mapIdx fun i st => (i, st)).foldl (fun c x =>
      if x.2.struck || !x.2.runsIn k.val then c
      else x.2.marks.foldl (fun c m =>
        let flags := (if m.ends then 3 else 2) + if x.2.replay then 4 else 0
        c.markRecord cfg (k.val * 4096) 0 m.ident m.fn flags x.1 m.session) c) c) c

/-- The engines at the start of a tick: what a tick gathers is empty, damaged table stores are written anew from the plan's image (R115), and what
came in for the next tick is this tick's (R166). -/
def Dp.nextTick (d : Dp) (image : List Byte) (rewritten : List Nat) (gens : List GenEntry) : Dp :=
  let d := rewritten.foldl (fun d core => d.writeTable core image) d
  { d with unfenced := [], commit := [], routes := [], rowPoison := [], progress := [], kvErrs := [], clips := [], converted := [], gens := gens
           waits := [], waited := [], badBlocks := [], units := [], inbound := d.inboundNext, inboundNext := [] }

/-- A yard at the start of a tick: no reports yet, but of every cluster where its microbatch is empty (R45); its channels' last refreshes are
counted from the new bell. -/
def Yd.nextTick (y : Yd) (empty : Bool) (cycle : Int) : Yd :=
  { y with reports := { clusters := if empty then List.range 250 else [] }, tableRewrite := []
           channels := (List.range 64).foldl (fun l i => Sparse.upd {} l i fun x => { x with refreshed := x.refreshed - cycle }) y.channels }

/-- The tick that a bell begins: the number advances (R38), and everything of it starts afresh. -/
def nextTick (s : State) (cycle : Nat) : State :=
  let c := s.ctl.advance.onHub fun h => if h.first then { h with first := false } else { h with tick := h.tick + 1 }
  let rewritten := (List.finRange 8).flatMap fun k => (c.yd k).tableRewrite
  let c := (List.finRange 8).foldl (fun c k => c.onYard k fun y => y.nextTick ((c.microIn k).all (·.stalls.isEmpty)) cycle) c
  { s with dp := s.dp.nextTick ((c.plan?.map (·.table)).getD []) rewritten c.gensNow, ctl := c.stepMarks s.cfg }

/-! ### BELL and HUB_TIMER_PERIOD -/

/-- The interval's energy, the period and the cap where no tick runs. -/
def Ctl.closeIdle (c : Ctl) (cfg : Cfg) (m : Interval) : Ctl :=
  if c.ldg.opening then (c.closeInterval cfg .idle m).turnPeriod cfg else c.meterEarly m

/-- A bell while ticks run; the tick number rises also where it is the last one (R38). -/
def bellTick (s : State) (b : BellIn) : State :=
  let c := settleAll s.dp (s.ctl.judgeTick s.cfg b).strikeDisabled
  let c := (c.closeInterval s.cfg .tick b.meter).turnPeriod s.cfg
  let s := { s with ctl := c }
  let c := ((deliverAll s b).leaveAll b).loseUnheld s.cfg
  if c.hub.halted then { s with ctl := c }
  else
    let s := rows { s with ctl := c } b.meter.jobs
    if s.ctl.hub.halted then s
    else
      let s := { s with ctl := (s.ctl.lastly s.cfg b.cycle).checkPower s.cfg }
      if s.ctl.fe.ticking then nextTick s b.cycle else { s with ctl := s.ctl.onHub fun h => { h with tick := h.tick + 1 } }

/-- The first bell after a plan is selected while no tick runs (R37, R52). -/
def bellFirst (s : State) (b : BellIn) : State :=
  let s := rows { s with ctl := s.ctl.closeIdle s.cfg b.meter } b.meter.jobs
  let c := (s.ctl.lastly s.cfg b.cycle).checkPower s.cfg
  nextTick { s with ctl := c.onYards fun y => { y with channels := y.channels.map fun x => (x.1, { x.2 with refreshed := 0 }) } } 0

/-- BELL (R37-R39, R49-R52, R65, R69, R166, R206, R338, R342). -/
def execBell (b : BellIn) (s : State) : Host.Outcome State Fault Refusal :=
  if s.ctl.hub.halted then .next s
  else if s.ctl.fe.ticking then (if s.ctl.rings b then .next (bellTick s b) else .next s)
  else match s.ctl.fe.switch with
    | some w => if w.plan.isSome then .next (bellFirst s b) else .next s
    | none => .next s

/-- A hub timer period while no tick runs: changes and ends are made as at a bell (R37, R338); before the ledger opens and after a hang only
the meter and the messages go on. -/
def timerPeriod (s : State) (m : Interval) : State :=
  let c := s.ctl.closeIdle s.cfg m
  if s.ctl.hub.halted || !s.ctl.ldg.opening then { s with ctl := c.measure.sendMessages }
  else
    let s := { s with ctl := { c with fns := c.fns.map Fn.takeShare } }
    let held := s.ctl.fe.switch.filter fun w => w.plan.isSome
    let s := { s with ctl := s.ctl.onFe fun f => { f with switch := f.switch.filter fun w => w.plan.isNone } }
    let s := rows s m.jobs
    let s := { s with ctl := s.ctl.onFe fun f => { f with switch := held.orElse fun _ => f.switch } }
    { s with ctl := (s.ctl.lastly s.cfg 0).checkPower s.cfg }

/-- HUB_TIMER_PERIOD (R37, R51, R338, R475): it stands for the bell while no tick runs. -/
def execHubTimerPeriod (m : Interval) (s : State) : Host.Outcome State Fault Refusal :=
  if s.ctl.fe.ticking && !s.ctl.hub.halted then .next s else .next (timerPeriod s m)

end Sys2Proof.Machine
end

