-- ==== Sys2Proof/Machine/Security.lean ====
section
/-! DEFINITION. The security mailbox (13) and the answers on SPDM and DOE (11, 13). -/

namespace Sys2Proof.Machine

open Sys2Proof

/-- What a mailbox command comes to: its status, the buffer bytes it went through, its event bits beside MBX_DONE, and the state. -/
structure MbxEnd where
  status : BitVec 16
  bytes : Nat
  bits : BitVec 16
  state : State

/-- A mailbox command that changes nothing but its RESULT. -/
def mbxFail (s : State) (st : BitVec 16) : MbxEnd := ⟨st, 0, 0#16, s⟩

/-- Runs a mailbox command (R374, R375): ignored while another runs; BAD_STATE in a state the table does not allow, BAD_PARAMETER for a
buffer that is too short; RESULT and MBX_DONE at the end. -/
def mailbox (s : State) (op : Byte) (allowed : Option SecSt) (need : Nat) (f : State → MbxEnd) : State :=
  if s.ctl.sec.busy || s.ctl.sec.st = .boot then s
  else
    let s := { s with cfg := { s.cfg with mbxOpcode := op } }
    let e := match allowed with
      | some st => if s.ctl.sec.st ≠ st then mbxFail s Status.badState
          else if s.cfg.mbxLen < need then mbxFail s Status.badParameter else f s
      | none => if s.cfg.mbxLen < need then mbxFail s Status.badParameter else f s
    let c := e.state.ctl.onSec fun x => { x with result := e.status, progress := e.bytes }
    { e.state with ctl := c.raise e.state.cfg .sec (1#16 ||| e.bits) }

/-! ### Firmware (R362, R363) -/

/-- The status of a cause (R362). -/
def causeStatus (cause : Nat) : BitVec 16 :=
  if cause = 2 ∨ cause = 6 then Status.badParameter else if cause = 8 then Status.noSpace else Status.permission

/-- The check of a supplied image (R362): its cause, 0 where it passes. -/
def Ctl.supplyCause (c : Ctl) (i : Option FwImage) : Nat :=
  match i with
  | none => 2
  | some i =>
    let counter := (c.prs.word rollbackWord).toNat
    let cause := fwCause i counter
    if cause ≠ 0 then cause else if counter < fwSvn i && !c.prs.canRaise then 8 else 0

/-- A firmware image as a mailbox buffer of some bytes gives it (R375): its header says how far it goes, and a buffer that ends before is too short. -/
def suppliedImage (len : Nat) : HostRead (Option FwImage) → HostRead (Option FwImage)
  | .ok (some i) =>
    if fwHeaderOk i.header && len < 4096 + fwLength i then .past else .ok (some { i with body := i.body.take (fwLength i) })
  | x => x

/-- FW_SUPPLY (R362): the checked image is programmed and the device warm reset. -/
def execFwSupply (image : HostRead (Option FwImage)) (s : State) : Host.Outcome State Fault Refusal :=
  let image := suppliedImage s.cfg.mbxLen image
  let good : Bool := match image with
    | .ok i => s.ctl.supplyCause i = 0 && !s.ctl.sec.busy && s.ctl.sec.st = .recoveryWait && 4096 ≤ s.cfg.mbxLen
    | _ => false
  if good then
    let img := match image with | .ok i => i | _ => none
    .next (warmReset { s with ctl := s.ctl.onCof fun k => { k with region := some img, fwWithout := k.lost } } noMeter)
  else
    .next (mailbox s 1#8 (some .recoveryWait) 4096 fun s =>
      match image with
      | .xlat => mbxFail s Status.translation
      | .past => mbxFail s Status.badParameter
      | .ok i =>
        let cause := s.ctl.supplyCause i
        ⟨causeStatus cause, 4096, 4#16, { s with ctl := s.ctl.onSec fun x => { x with cause := cause } }⟩)

/-- FW_STAGE (R363): checked, then programmed and read back; `programmed` says that steps 3 and 4 succeed. -/
def execFwStage (image : HostRead (Option FwImage)) (programmed : Bool) (s : State) : Host.Outcome State Fault Refusal :=
  .next (mailbox s 2#8 (some .running) 4096 fun s =>
    match suppliedImage s.cfg.mbxLen image with
    | .xlat => mbxFail s Status.translation
    | .past => mbxFail s Status.badParameter
    | .ok i =>
      let cause := s.ctl.supplyCause i
      if cause ≠ 0 then ⟨causeStatus cause, 4096, 4#16, s⟩
      else if programmed then
        ⟨Status.success, s.cfg.mbxLen, 2#16, { s with ctl := s.ctl.onCof fun k => { k with region := some i, fwWithout := k.lost } }⟩
      else ⟨Config.stageStatus, s.cfg.mbxLen, 0#16, { s with ctl := s.ctl.onCof fun k => { k with region := some none } }⟩)

/-! ### Keys (R368, R375) -/

/-- Writes the table's digest into its persistent words (R368). -/
def Ctl.keepKeys (c : Ctl) (cfg : Cfg) (ks : List (Option KeySlot)) : Ctl :=
  let d := digestBytes (sha384 (tableBytes ks))
  (c.onSec fun x => { x with keys := ks, tableBytes := none }).persistAll cfg 0x110
    ((List.range 12).map fun i => BitVec.ofNat 32 (Bits.leNat d (4 * i) 4))

/-- KEY_REGISTER (R375). -/
def execKeyRegister (keys : HostRead (List Byte)) (s : State) : Host.Outcome State Fault Refusal :=
  .next (mailbox s 0x10#8 (some .running) 157 fun s =>
    match keys with
    | .xlat => mbxFail s Status.translation
    | .past => mbxFail s Status.badParameter
    | .ok bs =>
      let bs := bs.take 157
      let slot := Bits.field s.cfg.mbxArg 3 0
      let id := sha384 bs
      if bs.length < 157 || !keysWellFormed bs then mbxFail s Status.badParameter
      else if (s.ctl.sec.keys.getD slot none).isSome || (s.ctl.sec.keys.filterMap fun k => k).any (·.keyId = id) then
        mbxFail s Status.badState
      else
        let k : KeySlot := ⟨id, bs.take 97, bs.drop 97, Bits.field s.cfg.mbxArg 9 8⟩
        ⟨Status.success, 157, 8#16, { s with ctl := s.ctl.keepKeys s.cfg (s.ctl.sec.keys.set slot (some k)) }⟩)

/-- KEY_REVOKE (R375). -/
def execKeyRevoke (s : State) : Host.Outcome State Fault Refusal :=
  .next (mailbox s 0x11#8 (some .running) 0 fun s =>
    ⟨Status.success, 0, 8#16,
      { s with ctl := s.ctl.keepKeys s.cfg (s.ctl.sec.keys.set (Bits.field s.cfg.mbxArg 3 0) none) }⟩)

/-- A mailbox command that writes a buffer. -/
def mbxWrite (s : State) (bs : List Byte) (write : HostRead Unit) : MbxEnd :=
  match write with
  | .xlat => mbxFail s Status.translation
  | .past => mbxFail s Status.badParameter
  | .ok _ => ⟨Status.success, bs.length, 0#16, { s with ctl := s.ctl.hostWrite s.ctl.mgmt none s.cfg.mbxAddr bs }⟩

/-- KEY_READ (R368, R375). -/
def execKeyRead (write : HostRead Unit) (s : State) : Host.Outcome State Fault Refusal :=
  .next (mailbox s 0x12#8 (some .running) 3328 fun s => mbxWrite s (tableBytes s.ctl.sec.keys) write)

/-- CHAIN_READ (R367, R375). -/
def execChainRead (write : HostRead Unit) (s : State) : Host.Outcome State Fault Refusal :=
  .next (mailbox s 0x20#8 none 8192 fun s => mbxWrite s (identityCertificate ++ ledgerCertificate) write)

/-! ### DOE and SPDM (R333, R372, R373) -/

/-- Whether a function answers on DOE (R333): a physical one, once the ROM has run. -/
def Ctl.doe (c : Ctl) (n : BitVec 8) : Bool := (c.fn? n).any (·.physical) && c.sec.st ≠ .boot

/-- An answer on DOE. -/
def Ctl.answer (c : Ctl) (bs : List Byte) : Ctl := c.onBus fun b => { b with answers := bs :: b.answers, nack := false }

/-- Answers a request where the function has DOE. -/
def doeAnswer (s : State) (n : BitVec 8) (bs : List Byte) : Host.Outcome State Fault Refusal :=
  if s.ctl.doe n then .next { s with ctl := s.ctl.answer bs } else .next s

/-- SPDM's ERROR response. -/
def spdmError : List Byte := Config.spdmBody 0x7F []

/-- DOE_DISCOVERY (R333): index 0 DOE Discovery, index 1 CMA/SPDM; the vendor 0x0001 of PCI-SIG, the protocol and the next index. -/
def execDoeDiscovery (fn : BitVec 8) (index : Byte) (s : State) : Host.Outcome State Fault Refusal :=
  doeAnswer s fn (if index = 0#8 then [1#8, 0#8, 0#8, 1#8] else if index = 1#8 then [1#8, 0#8, 1#8, 0#8]
    else [0xFF#8, 0xFF#8, 0#8, 0#8])

/-- GET_VERSION (R333). -/
def execGetVersion (fn : BitVec 8) (s : State) : Host.Outcome State Fault Refusal := doeAnswer s fn (Config.spdmBody 0x04 [])

/-- GET_CAPABILITIES (R333). -/
def execGetCapabilities (fn : BitVec 8) (body : List Byte) (s : State) : Host.Outcome State Fault Refusal :=
  doeAnswer s fn (Config.spdmBody 0x61 body)

/-- NEGOTIATE_ALGORITHMS (R333): ECDSA P-384 and SHA-384 are the base algorithms; a request without them gets an error. -/
def execNegotiateAlgorithms (fn : BitVec 8) (ecdsaP384 sha384 : Bool) (body : List Byte) (s : State) :
    Host.Outcome State Fault Refusal :=
  doeAnswer s fn (if ecdsaP384 && sha384 then Config.spdmBody 0x63 body else spdmError)

/-- GET_DIGESTS (R372): the digest of the chain of slot 0. -/
def execGetDigests (fn : BitVec 8) (s : State) : Host.Outcome State Fault Refusal :=
  doeAnswer s fn (Config.spdmBody 0x01 (digestBytes (sha384 Config.x509Chain)))

/-- GET_CERTIFICATE (R372): a part of the chain of slot 0; no other slot holds one. -/
def execGetCertificate (fn : BitVec 8) (slot : Nat) (off length : Nat) (s : State) : Host.Outcome State Fault Refusal :=
  doeAnswer s fn (if slot = 0 && off < Config.x509Chain.length then
    Config.spdmBody 0x02 ((Config.x509Chain.drop off).take length) else spdmError)

/-- CHALLENGE (R372): signed with the identity ECDSA key alone. -/
def execChallenge (fn : BitVec 8) (slot : Nat) (nonce : List Byte) (s : State) : Host.Outcome State Fault Refusal :=
  let body := digestBytes (sha384 Config.x509Chain) ++ nonce
  doeAnswer s fn (if slot = 0 then Config.spdmBody 0x03 (body ++ Config.identityEcdsaSign body) else spdmError)

/-- The measurement blocks of an index (R372): 0 asks for their number, 0xFF for all. -/
def Ctl.measurements (c : Ctl) (index : Nat) : Option (List Byte) :=
  if index = 0 then some [8#8]
  else if index = 0xFF then some ((c.sec.measured.mapIdx fun i m => BitVec.ofNat 8 (i + 1) :: m).flatten)
  else (c.sec.measured[index - 1]?).map fun m => BitVec.ofNat 8 index :: m

/-- GET_MEASUREMENTS (R372, R373): the state at the last bell. -/
def execGetMeasurements (fn : BitVec 8) (index : Byte) (signed : Bool) (nonce : List Byte) (s : State) :
    Host.Outcome State Fault Refusal :=
  doeAnswer s fn (match s.ctl.measurements index.toNat with
    | none => spdmError
    | some bs => Config.spdmBody 0x60 (if signed then bs ++ nonce ++ Config.identityEcdsaSign (bs ++ nonce) else bs))

end Sys2Proof.Machine
end

