-- ==== Sys2Proof/Machine/Regs.lean ====
section
/-! DEFINITION. Register accesses (17, and the register tables of every chapter): what each offset reads, what a write does, event
write-backs, and the configuration CRC. -/

namespace Sys2Proof.Machine

open Sys2Proof

/-! ### Reads -/

/-- One 32-bit half of a 64-bit register that begins at an offset (R11). -/
def halfAt (v base off : Nat) : Word := BitVec.ofNat 32 (if off = base then v else v / 2 ^ 32)

/-- Whether an offset is one of the two words of a 64-bit register. -/
def inPair (base off : Nat) : Bool := off = base || off = base + 4

/-- Codes of link states (HUB_SITE_STATUS). -/
def Link.code : Link → Nat
  | .absent => 0
  | .training => 1
  | .active => 2
  | .hold => 3
  | .reset => 4

/-- Codes of function states (FN_TAB_STATE). -/
def FnSt.code : FnSt → Nat
  | .free => 0
  | .active => 1
  | .disabling => 2
  | .linkHold => 3
  | .resetting => 4

/-- Codes of power states (PWR_STATUS). -/
def PwrSt.code : PwrSt → Nat
  | .off => 0
  | .standby => 1
  | .boot => 2
  | .idle => 3
  | .serving => 4
  | .halted => 5

/-- Codes of SEC_STATE. -/
def SecSt.code : SecSt → Nat
  | .boot => 0
  | .recoveryWait => 1
  | .running => 2

/-- The selected statistics slot. -/
def State.qntSlot (s : State) : Option QntSlot := (s.ctl.hub.qnt.find? (·.1 = s.cfg.qntSel)).map (·.2)

/-- Four codes of four bits, band 0 lowest. -/
def nibbles (l : List Nat) : Nat := ((List.range 4).map fun b => l.getD b 0 * 2 ^ (4 * b)).sum

/-- The HUB block. -/
def hubReg (s : State) (off : Nat) : Word :=
  let h := s.ctl.hub
  let g := h.grades
  if off = 0 then bitsAt [(0x8016, 16), (Config.hubRevision.toNat, 0)]
  else if off = 4 then
    bitsAt [(flagBit (s.ctl.fe.ticking && !h.halted), 31), (flagBit h.halted, 30), (flagBit h.relief.isSome, 29), (((h.relief.map (·.val)).getD 0), 26),
      (flagBit h.fenced, 25), (h.yardsUp.toNat, 0)]
  else if off = 8 then h.event.word
  else if off = 0xC then h.eventPlan
  else if off = 0x14 then (match s.ctl.objs.selected with | some ix => handleOf .plan ix | none => 0#32)
  else if off = 0x20 then BitVec.ofNat 32 ((s.ctl.plan?.map (·.tickUnits)).getD 0)
  else if inPair 0x28 off then halfAt h.tick 0x28 off
  else if inPair 0x30 off then halfAt h.long 0x30 off
  else if off = 0x38 then 1#32
  else if off = 0x40 then
    bitsAt [(s.cfg.ceiling, 30), (g.current, 28), (g.previous, 26), (s.ctl.marginGrade, 24), (Max.max g.temp g.power, 22)]
  else if off = 0x100 then
    bitsAt [(flagBit s.cfg.checkEn, 31), (flagBit s.cfg.fenceOnDrift, 30), (flagBit h.uncommitted, 29), (flagBit h.mismatch, 28)]
  else if off = 0x104 then h.crc
  else if off = 0x108 then h.crcRef
  else if off = 0x804 then bitsAt [(h.unmeasured, 16), (s.cfg.qntSel, 0)]
  else if off = 0x808 then (match s.qntSlot with | some q => bitsAt [(1, 31), (q.image, 8), (q.epoch % 256, 0)] | none => 0#32)
  else if off = 0x80C then
    (match s.qntSlot with | some q => bitsAt [(nibbles q.kvStatus, 16), (nibbles q.actStatus, 0)] | none => 0#32)
  else if off = 0x810 then
    (match h.drift with
      | some d => bitsAt [(flagBit d.kv, 31), (d.band, 29), (1, 28), (d.slot, 12), (d.layer, 0)]
      | none => 0#32)
  else if 0x820 ≤ off && off < 0x860 then
    (match s.qntSlot with
      | some q =>
        let l := if off < 0x840 then q.lastClip else q.lastConv
        halfAt (l.getD (off % 32 / 8) 0) (off / 8 * 8) off
      | none => 0#32)
  else if off = 0x904 then BitVec.ofNat 32 s.ctl.objs.nodes.length
  else if off = 0xA00 then
    bitsAt [(flagBit h.dual, 31), (h.mgmtSite, 30), (h.siteB.link.code, 13), (h.siteB.repaired.toNat, 8), (h.siteA.link.code, 5),
      (flagBit h.siteA.degraded, 4), (h.siteA.repaired.toNat, 0)]
  else if off = 0xA04 then h.siteEvent.word
  else if off = 0xB00 then h.ras.word
  else if off = 0xB04 then bitsAt [(flagBit h.rasValid, 31), (flagBit h.rasPlaced, 30), (h.rasYard.val, 27), (h.rasMs, 0)]
  else if off = 0xB08 then h.rasJob
  else 0#32

/-- The function-table block, by offset within it. -/
def fnTabReg (c : Ctl) (off : Nat) : Word :=
  if off = 0x2000 then
    bitsAt [((c.fns.filter fun f => !f.physical).length, 8), ((c.fns.filter (·.physical)).length, 0)]
  else if off = 0x2004 then BitVec.ofNat 32 (c.fns.map (·.quota)).sum
  else if 0x2000 ≤ off then 0#32
  else match c.fn? (BitVec.ofNat 8 (off / 32)) with
    | none => 0#32
    | some f =>
      match off % 32 with
      | 0x00 => bitsAt [(f.st.code, 29), (flagBit f.physical, 28), (f.site, 27), (flagBit (c.isMgmt f.num), 26), (flagBit f.health, 25),
          (flagBit f.atsEn, 24), (flagBit f.pasidCap, 23),
          (((List.finRange 4).map fun q => if (f.queue q).enabled then 2 ^ q.val else 0).sum, 0)]
      | 0x04 => BitVec.ofNat 32 f.quota
      | 0x08 => BitVec.ofNat 32 f.handles.length
      | 0x0C => bitsAt [(flagBit f.tokenCapped, 31), (flagBit f.energyCapped, 30), (f.share, 0)]
      | 0x10 => bitsAt [(Min.min (f.linkBuf / 2 ^ 20) (2 ^ 21 - 1), 11), (Min.min 1024 f.heldCount, 0)]
      | _ => 0#32

/-- The LDG block. -/
def ldgReg (s : State) (off : Nat) : Word :=
  let l := s.ctl.ldg
  if off = 0 then bitsAt [(flagBit l.ready, 31), (flagBit l.meterFault, 30), (l.folio.tallies.length, 0)]
  else if off = 4 then l.event.word
  else if off = 8 then BitVec.ofNat 32 l.newest
  else if off = 0xC then BitVec.ofNat 32 l.oldest
  else if off = 0x10 then BitVec.ofNat 32 s.cfg.fetched
  else if off = 0x14 then bitsAt [(l.nextPeriod, 16), (l.period, 0)]
  else if inPair 0x18 off then halfAt l.metered 0x18 off
  else if inPair 0x20 off then halfAt l.attributed 0x20 off
  else if inPair 0x28 off then halfAt l.carry 0x28 off
  else if inPair 0x30 off then halfAt ((s.ctl.prs.word ledgerWord).toNat % 2 ^ 20 * 2 ^ 32 + l.folio.number) 0x30 off
  else if 0x100 ≤ off && off < 0x134 then s.ctl.prs.word (0x300 + (off - 0x100) / 4)
  else 0#32

/-- The SEC block. -/
def secReg (s : State) (off : Nat) : Word :=
  let x := s.ctl.sec
  if off = 0 then s.cfg.mbxOpcode.zeroExtend 32
  else if off = 4 then bitsAt [(flagBit x.busy, 31), (x.result.toNat, 0)]
  else if inPair 8 off then halfAt s.cfg.mbxAddr 8 off
  else if off = 0x10 then BitVec.ofNat 32 s.cfg.mbxLen
  else if off = 0x14 then s.cfg.mbxArg
  else if off = 0x18 then BitVec.ofNat 32 x.progress
  else if off = 0x20 then bitsAt [(x.st.code, 30), (x.cause, 24), (x.svn, 0)]
  else if off = 0x24 then BitVec.ofNat 32 ((s.ctl.prs.word rollbackWord).toNat % 65536)
  else if off = 0x28 then x.event.word
  else if 0x40 ≤ off && off < 0x70 then BitVec.ofNat 32 (Bits.leNat (digestBytes deviceId) (off - 0x40) 4)
  else 0#32

/-- The COF block. -/
def cofReg (c : Ctl) (off : Nat) : Word :=
  let jobs := (c.objs.jobs.filter fun j => !j.over && (j.kind.typ = 4 || j.kind.typ = 5)).length
  if off = 0 then
    bitsAt [(flagBit c.cof.ready, 31), (flagBit (!c.cof.lost.isEmpty), 30), ((c.objs.images.filter (·.st ≠ .free)).length, 12), (jobs, 0)]
  else if off = 4 then c.cof.event.word
  else if inPair 8 off then
    halfAt (match c.cof.restore with | some r => 2 ^ 63 + r.1 * 2 ^ 41 + r.2 | none => 0) 8 off
  else if inPair 0x10 off then halfAt c.cof.free 0x10 off
  else if off = 0x18 then bitsAt [(Min.min 65535 (c.cof.wearMax.toNat + c.cof.worn), 16), (Min.min 65535 c.cof.mean, 0)]
  else 0#32

/-- The CXL block. -/
def cxlReg (c : Ctl) (off : Nat) : Word :=
  let n := off / 0x100
  let p := c.port n
  if 4 ≤ n then 0#32
  else if off % 0x100 = 0 then
    let used := (((c.fe.shed.flatMap (·.units)) ++ c.objs.epochs.flatMap (·.cold)).filter fun a => a / 2 ^ 44 = n).length
    bitsAt [(flagBit p.up, 31), (flagBit p.held, 30), (if p.held then p.cause else 0, 28),
      (Min.min 255 (used * 256 / Max.max 1 (p.bytes / 65536)), 0)]
  else if inPair 8 (off % 0x100) then halfAt (if p.up then p.bytes else 0) 8 (off % 0x100)
  else 0#32

/-- One of a list of sensors, as a byte. -/
def tempOf (l : List Temp) (k : Nat) : Nat := ((l[k]?.map (·.avg)).getD 0) % 256

/-- The PWR block. -/
def pwrReg (s : State) (off : Nat) : Word :=
  let p := s.ctl.pwr
  if off = 0 then bitsAt [(p.st.code, 29), (flagBit s.ctl.hub.halving, 28), (p.trip, 24), (Min.min p.pin 65535, 0)]
  else if off = 4 then p.event.word
  else if off = 8 then BitVec.ofNat 32 s.cfg.powerCap
  else if off = 0xC then BitVec.ofNat 32 s.cfg.bmcCap
  else if off = 0x10 then bitsAt [(flagBit s.cfg.leakOff, 31)]
  else if inPair 0x18 off then halfAt (p.vin % 65536 * 2 ^ 48 + p.iin % 65536 * 2 ^ 32 + p.pavg % 2 ^ 32) 0x18 off
  else match p.temps with
    | none => 0#32
    | some t =>
      if 0x20 ≤ off && off < 0x40 then
        let k := (off - 0x20) / 4
        bitsAt [(tempOf t.die k, 24), (tempOf t.stackA k, 16), (tempOf t.stackB k, 8)]
      else if off = 0x40 then bitsAt [(t.hub.avg % 256, 24), (t.inlet.avg % 256, 16), (t.outlet.avg % 256, 8)]
      else 0#32

/-- Bytes of the record area in use. -/
def Dbg.used (d : Dbg) : Nat := (d.recs.map fun r => 16 * r.len).sum

/-- The DBG block. -/
def dbgReg (s : State) (off : Nat) : Word :=
  let d := s.ctl.dbg
  let k := s.ctl.cof
  if off = 0 then d.event.word
  else if off = 8 then BitVec.ofNat 32 d.snapSeq
  else if off = 0x28 then s.cfg.trigArg
  else if off = 0x30 then bitsAt [(d.state, 30), (flagBit d.stall, 29), (Bits.ceilDiv d.used 1024, 0)]
  else if inPair 0x40 off then halfAt (s.cfg.streamAddr + s.cfg.streamSize) 0x40 off
  else if off = 0x48 then BitVec.ofNat 32 s.cfg.streamHead
  else if off = 0x4C then BitVec.ofNat 32 d.tail
  else if inPair 0x58 off then halfAt (s.cfg.dumpAddr + flagBit s.cfg.dumpEn) 0x58 off
  else if off = 0x60 then
    let last := (k.dumpLast.bind fun i => (k.dumps.find? (·.slot = i)).map fun x => (i, x.cause)).getD (0, 0)
    bitsAt [((List.range 4).map (fun i => if k.dumps.any (·.slot = i) then 2 ^ i else 0) |>.sum, 28), (last.1, 26), (flagBit k.dumpHost, 25),
      (last.2, 0)]
  else if off = 0x64 then (if s.cfg.stores then 3785#32 else 145#32)
  else if off = 0x68 then d.dumpJob
  else if 0x1000 ≤ off && off < 0x1200 then halfAt (Sparse.get 0 d.counts ((off - 0x1000) / 8)) (off / 8 * 8) off
  else 0#32

/-- The block of a yard. -/
def yardReg (s : State) (k : Yard) (off : Nat) : Word :=
  let y := s.ctl.yd k
  if off = 0x400 then y.arith.word
  else if 0x410 ≤ off && off < 0x430 then BitVec.ofNat 32 (y.clu.toNat / 2 ^ (8 * (off - 0x410)))
  else if off = 0x600 then y.mem.word
  else if inPair 0x608 off then
    halfAt (match y.poisonAddr with | some a => 2 ^ 63 + a.1 * 2 ^ 60 + a.2 % 2 ^ 60 | none => 0) 0x608 off
  else if off = 0x800 then y.checkA.word
  else if off = 0x840 then y.checkB.word
  else if inPair 0xA00 off then
    let used := (s.ctl.fastUsed k).length
    halfAt (used * 2 ^ 32 + (s.ctl.kvSlots k - used)) 0xA00 off
  else if off = 0xA08 then y.kvEvent.word
  else if inPair 0xA10 off then
    halfAt (match y.kvAddr with
      | some (c, a) => 2 ^ 63 + (match c with | .fast => 0 | .shadow => 1 | .mirror => 2) * 2 ^ 61 + a
      | none => 0) 0xA10 off
  else if inPair 0xA18 off then halfAt (y.promoted * 2 ^ 32 + y.demoted) 0xA18 off
  else if inPair 0xC00 off then halfAt y.stale 0xC00 off
  else if off = 0xC08 then bitsAt [(y.maxSlots, 18), (y.maxDistinct, 0)]
  else if off = 0xE00 then y.ras.word
  else if inPair 0xE08 off then
    halfAt (y.rotating.toNat * 2 ^ 50 + y.retiredWords) 0xE08 off
  else if off = 0xE10 then bitsAt [(y.remapped.toNat, 8), (y.links.toNat, 0)]
  else if off = 0xE18 then BitVec.ofNat 32 ((y.lostOn 0).map (2 ^ ·)).sum
  else if off = 0xE1C then BitVec.ofNat 32 ((y.lostOn 1).map (2 ^ ·)).sum
  else if 0xE20 ≤ off && off < 0xE2C then y.marginWord ((off - 0xE20) / 4)
  else if off = 0xE30 then bitsAt [(y.activity.toNat, 24), (y.minSlack.toNat, 0)]
  else if off = 0xF00 then bitsAt [(y.probed.state, 29), (y.probe, 20), (y.probed.pc % 2 ^ 20, 0)]
  else if off = 0xF04 then BitVec.ofNat 32 y.probed.progress
  else if 0x1000 ≤ off && off < 0x1200 then halfAt (Sparse.get 0 y.counts ((off - 0x1000) / 8)) (off / 8 * 8) off
  else 0#32

/-- The persistent window and its control registers. -/
def prsReg (s : State) (off : Nat) : Word :=
  let p := s.ctl.prs
  if off < 0xFF00 then p.word (off / 4)
  else if off = 0x10000 then bitsAt [(flagBit p.refused, 30), (p.spares, 16), (16 - p.hostUsed, 8)]
  else if off = 0x10004 then p.event.word
  else if off = 0x10008 then (match p.last with | some (r, w) => bitsAt [(1, 31), (flagBit r, 30), (w, 0)] | none => 0#32)
  else if off = 0x1000C then BitVec.ofNat 32 s.cfg.wearSel
  else if off = 0x10010 then bitsAt [(flagBit (p.onSpare.has s.cfg.wearSel), 31), (Sparse.get 0 p.wear s.cfg.wearSel, 0)]
  else 0#32

/-- The word of a counter, or of a holding copy, in a list by offset; R456: 0 before the first snapshot. -/
def heldWord (l : List (Nat × Nat)) (off : Nat) : Word := halfAt (((l.find? (·.1 = off / 8 * 8)).map (·.2)).getD 0) (off / 8 * 8) off

/-- The registers of a queue with so many records in the holding area, by offset from 0x1_0000 + 0x100 × q. -/
def queueReg (y : Queue) (held off : Nat) : Word :=
  if inPair 0 off then halfAt (y.sqBase + y.sqLog) 0 off
  else if inPair 8 off then halfAt (y.cqBase + y.cqLog) 8 off
  else if off = 0x10 then bitsAt [(flagBit y.enabled, 31), (flagBit y.pasidEn, 29), (y.vector, 20), (y.pasid.toNat, 0)]
  else if off = 0x14 then BitVec.ofNat 32 y.head
  else if off = 0x1C then
    let st := if y.resetting then 3 else if !y.enabled then 0 else if y.sqFault || y.holdFull then 2 else 1
    bitsAt [(st, 30), (flagBit y.stopped, 29), (flagBit y.sqFault, 28), (flagBit y.holdFull, 27), (held, 16), (y.fetch, 0)]
  else if inPair 0x20 off then
    halfAt (match y.faultAddr with | some (a, r) => a / 64 * 64 + 2 + flagBit r | none => 0) 0x20 off
  else 0#32

/-- A function window (R472). -/
def fnReg (c : Ctl) (f : Fn) (off : Nat) : Word :=
  let q : Fin 4 := Fin.ofNat 4 (off / 0x100)
  if f.counters.any fun p => inPair p.1 off then heldWord f.counters off
  else if 0x80000 ≤ off then heldWord (if c.isMgmt f.num then c.dbg.hold.map fun p => (p.1 - 0x2000000, p.2) else f.holding) (off - 0x80000)
  else if 0x10000 ≤ off && off < 0x10400 then queueReg (f.queue q) (Min.min 1024 (f.heldOf q)) (off % 0x100)
  else if off = 0x20000 then f.event.word
  else if inPair 0x20100 off then halfAt f.regionAddr 0x20100 off
  else if inPair 0x20108 off then halfAt f.regionLen 0x20108 off
  else if off = 0x20110 then f.regionHandle
  else if off = 0x20114 then
    bitsAt [(flagBit f.regionWritable, 29), (flagBit f.regionPasidEn, 28), (f.regionStatus, 24), (f.regionPasid.toNat, 0)]
  else if off = 0x20200 then bitsAt [(flagBit f.eventEn, 31), (flagBit f.deviceEn, 30), (f.eventVector, 0)]
  else if off = 0x20210 then
    bitsAt [(flagBit f.tokenCapped, 31), (flagBit f.energyCapped, 30), (flagBit f.disable.isSome, 29),
      (flagBit ((c.site f.site).link = .hold), 28), (f.share, 0)]
  else if off = 0x20214 then BitVec.ofNat 32 f.tokenCap
  else if inPair 0x20218 off then halfAt f.energyCap 0x20218 off
  else if off = 0x20220 then BitVec.ofNat 32 (Min.min f.seenTokens (2 ^ 32 - 1))
  else if inPair 0x20228 off then halfAt f.seenEnergy 0x20228 off
  else if off = 0x30400 then BitVec.ofNat 32 f.snapSeq
  else if 0x40000 ≤ off && off < 0x40000 + 16 * f.vectors then
    if off % 16 = 12 then (if f.irqMasked.has ((off - 0x40000) / 16) then 1#32 else 0#32)
    else Sparse.get 0#32 f.msix ((off - 0x40000) / 4)
  else if inPair 0x48000 off then halfAt ((f.irqPending.map (2 ^ ·)).sum) 0x48000 off
  else 0#32

/-- The management function's BAR0 below its function window (R470). A yard that is lost reads all ones (R463). -/
def barReg (s : State) (off : Nat) : Word :=
  let b := off / 0x100000
  let r := off % 0x100000
  match s.cfg.covered.find? (·.1 = off) with
  | some x => if off = 0x40 || off = 0x100 then hubReg s off
      else if 8 ≤ b && (s.ctl.yd (Fin.ofNat 8 b)).lost then 0xFFFFFFFF#32 else x.2
  | none =>
    if b < 16 && 8 ≤ b && (s.ctl.yd (Fin.ofNat 8 b)).lost then 0xFFFFFFFF#32
    else if b < 16 && 0x80000 ≤ r then heldWord s.ctl.dbg.hold (off - 0x80000)
    else match b with
      | 0 => hubReg s r
      | 1 => fnTabReg s.ctl r
      | 2 => ldgReg s r
      | 3 => secReg s r
      | 4 => cofReg s.ctl r
      | 5 => cxlReg s.ctl r
      | 6 => pwrReg s r
      | 7 => dbgReg s r
      | 16 => prsReg s r
      | _ => if b < 16 then yardReg s (Fin.ofNat 8 b) r else 0#32

/-- What a function reads at an offset of its BAR0 (R464, R470-R472). -/
def regRead (s : State) (fn : BitVec 8) (off : Nat) : Word :=
  match s.ctl.fn? fn with
  | none => 0#32
  | some f =>
    if s.ctl.sec.st ≠ .running then
      if s.ctl.isMgmt fn && (off = 0 || off = 0xA00 || off / 0x100000 = 3) then barReg s off else 0#32
    else if !f.physical then fnReg s.ctl f off
    else if off / 0x100000 = 0x20 then fnReg s.ctl f (off % 0x100000)
    else if s.ctl.isMgmt fn then barReg s off
    else 0#32

/-- What a read of `width` bytes gives (R11): the word, the addressed bytes of it, or for a 64-bit read two words, the lower address first, with no
update between them. -/
def regReadBytes (s : State) (fn : BitVec 8) (off width : Nat) : List Byte :=
  let at0 := off / 4 * 4
  ((Bits.toLe (regRead s fn at0).toNat 4 ++ (if 4 < width then Bits.toLe (regRead s fn (at0 + 4)).toNat 4 else [])).drop (off % 4)).take width

/-! ### Event write-backs (R13, R455) -/

/-- The event register at an offset of the management function's BAR0. -/
def evRegAt (off : Nat) : Option EvReg :=
  ([EvReg.hub, .site, .ras, .ldg, .sec, .cof, .pwr, .dbg, .prs] ++
    (List.finRange 8).flatMap fun k => [EvReg.arith k, .mem k, .kv k, .yras k]).find? fun r => r.off = off

/-- What else a write-back that clears an event register clears (R455). -/
def Ctl.clearBeside (c : Ctl) : EvReg → Ctl
  | .hub => c.onHub fun h => { h with eventPlan := 0#32, drift := none }
  | .cof => c.onCof fun k => { k with restore := none }
  | .prs => c.onPrs fun p => { p with last := none }
  | .arith k => c.onYard k fun y => { y with clu := 0#256 }
  | .mem k => c.onYard k fun y => { y with poisonAddr := none }
  | .kv k => c.onYard k fun y => { y with kvAddr := none }
  | .site => c
  | .ras => c
  | .ldg => c
  | .sec => c
  | .pwr => c
  | .dbg => c
  | .yras _ => c

/-- A write-back of an event register of the device (R455). -/
def Ctl.evBack (c : Ctl) (r : EvReg) (v : Word) : Ctl :=
  if (c.ev r).current v then (c.setEv r ((c.ev r).writeBack v)).clearBeside r else c

/-- A write-back of NMX_EXP_CHECK (07). -/
def ExpCheck.back (x : ExpCheck) (v : Word) : ExpCheck := if v.extractLsb' 16 16 = x.seq then { x with flag := false } else x

/-- A write-back at an offset of the management function's BAR0. -/
def Ctl.backAt (c : Ctl) (off : Nat) (v : Word) : Ctl :=
  let k : Yard := Fin.ofNat 8 (off / 0x100000)
  let lost := 0x800000 ≤ off && off < 0x1000000 && (c.yd k).lost
  if lost then c
  else match evRegAt off with
    | some r => c.evBack r v
    | none =>
      if 0x800000 ≤ off && off < 0x1000000 then
        if off % 0x100000 = 0x800 then c.onYard k fun y => { y with checkA := y.checkA.back v }
        else if off % 0x100000 = 0x840 then c.onYard k fun y => { y with checkB := y.checkB.back v }
        else c
      else c

/-- A write-back of FN_EVENT (R455, R303). -/
def Ctl.fnBack (c : Ctl) (n : BitVec 8) (v : Word) : Ctl :=
  c.onFn n fun f =>
    if f.event.current v then
      { f with event := f.event.writeBack v, queues := f.queues.map fun y => { y with faultAddr := none } }
    else f

/-- EVENT_WRITE_BACK (R13, R455): at an offset of the function's own BAR0. -/
def execEventWriteBack (fn : BitVec 8) (off : Nat) (value : Word) (s : State) : Host.Outcome State Fault Refusal :=
  match s.ctl.fn? fn with
  | none => .next s
  | some f =>
    let sec : Bool := s.ctl.sec.st ≠ .running && off = 0x300028 && s.ctl.isMgmt fn
    if s.ctl.sec.st ≠ .running && !sec then .next s
    else if off = (if f.physical then 0x2020000 else 0x20000) then .next { s with ctl := s.ctl.fnBack fn value }
    else if s.ctl.isMgmt fn then .next { s with ctl := s.ctl.backAt off value }
    else .next s

/-! ### The configuration CRC (R457-R460) -/

/-- CFG_COMMIT's effect (R460). -/
def cfgCommit (s : State) : State :=
  { s with ctl := s.ctl.onHub fun h => { h with crcRef := s.cfg.crc, uncommitted := false, mismatch := false, fenced := false } }

/-- CFG_COMMIT (R460). -/
def execCfgCommit (fn : BitVec 8) (value : Word) (s : State) : Host.Outcome State Fault Refusal :=
  if s.ctl.mgmtAccess fn && value.getLsbD 0 then .next (cfgCommit s) else .next s

/-- CFG_CRC_CHECK (R458, R459). -/
def execCfgCrcCheck (s : State) : Host.Outcome State Fault Refusal :=
  let crc := s.cfg.crc
  let c := s.ctl.onHub fun h => { h with crc := crc }
  let h := c.hub
  if s.ctl.sec.st = .running && s.cfg.checkEn && !h.uncommitted && crc ≠ h.crcRef && !h.mismatch then
    .next { s with ctl := (c.onHub fun h => { h with mismatch := true, fenced := h.fenced || s.cfg.fenceOnDrift }).raise s.cfg .hub 16#16 }
  else if s.ctl.sec.st = .running then .next { s with ctl := c }
  else .next s

/-! ### Writes -/

/-- A value where it is allowed, what stood there otherwise (R12). -/
def keepUnless (ok : Bool) (new old : Nat) : Nat := if ok then new else old

/-- Replaces one half of a 64-bit value. -/
def setHalf (old : Nat) (high : Bool) (v : Word) : Nat :=
  if high then v.toNat * 2 ^ 32 + old % 2 ^ 32 else old / 2 ^ 32 * 2 ^ 32 + v.toNat

/-- The covered registers without further actions: the RW fields after a write (R12); none for any other offset. -/
def Cfg.writeCovered (c : Cfg) (off : Nat) (v : Word) : Option Cfg :=
  let f := Bits.field v
  if off = 0x3C then some { c with hangLimit := keepUnless (4 ≤ f 10 0 && f 10 0 ≤ 1024) (f 10 0) c.hangLimit }
  else if off = 0x40 then some { c with ceiling := keepUnless (f 31 30 ≠ 3) (f 31 30) c.ceiling }
  else if off = 0x100 then some { c with checkEn := v.getLsbD 31, fenceOnDrift := v.getLsbD 30 }
  else if off = 0x800 then
    some { c with factorKv := keepUnless (9 ≤ f 31 24) (f 31 24) c.factorKv
                  factorAct := keepUnless (9 ≤ f 23 16) (f 23 16) c.factorAct, window := keepUnless (64 ≤ f 15 0) (f 15 0) c.window }
  else if off = 0x900 then
    let ok := f 23 16 < f 31 24
    some { c with high := keepUnless ok (f 31 24) c.high, low := keepUnless ok (f 23 16) c.low
                  decay := keepUnless (128 ≤ f 15 8) (f 15 8) c.decay, demoteEn := v.getLsbD 7, promote := f 3 0 }
  else if off = 0x600008 then some { c with powerCap := keepUnless (1500 ≤ f 15 0 && f 15 0 ≤ 4400) (f 15 0) c.powerCap }
  else if off = 0x600010 then some { c with leakOff := v.getLsbD 31 }
  else if off = 0x700010 then
    some { c with sampleEn := v.getLsbD 31, log2i := keepUnless (12 ≤ f 28 24 && f 28 24 ≤ 24) (f 28 24) c.log2i
                  sampleYards := v.extractLsb' 0 8 }
  else if 0x800000 ≤ off && off < 0x1000000 && off % 0x100000 = 0x430 then
    some { c with arithMask := c.arithMask.set (off / 0x100000 - 8) (v.extractLsb' 0 8) }
  else none

/-- The RW registers that are not covered and have no further action. -/
def Cfg.writePlain (c : Cfg) (off : Nat) (v : Word) : Cfg :=
  let f := Bits.field v
  if off = 0x804 then { c with qntSel := f 5 0 }
  else if off = 0x200010 then { c with fetched := v.toNat }
  else if inPair 0x300008 off then { c with mbxAddr := setHalf c.mbxAddr (off ≠ 0x300008) v / 4096 * 4096 }
  else if off = 0x300010 then { c with mbxLen := v.toNat }
  else if off = 0x300014 then { c with mbxArg := v }
  else if off = 0x700028 then { c with trigArg := v }
  else if inPair 0x700040 off then
    if c.streamEn then c
    else { c with streamAddr := setHalf c.streamAddr (off ≠ 0x700040) v / 4096 * 4096
                  streamSize := if off = 0x700040 then keepUnless (f 4 0 ≤ 20) (f 4 0) c.streamSize else c.streamSize }
  else if off = 0x700048 then { c with streamHead := v.toNat }
  else if inPair 0x700058 off then
    { c with dumpAddr := setHalf c.dumpAddr (off ≠ 0x700058) v / 4096 * 4096
             dumpEn := if off = 0x700058 then v.getLsbD 0 else c.dumpEn }
  else if off = 0x101000C then { c with wearSel := keepUnless (f 13 0 ≤ 16319) (f 13 0) c.wearSel }
  else c

/-- HUB_SITE_CTRL: the hold time, and the site resets that the write starts (R326). -/
def siteCtrl (s : State) (fn : BitVec 8) (v : Word) : State :=
  let s := { s with cfg := { s.cfg with holdTime := Bits.field v 15 8 }, ctl := s.ctl.touchCovered }
  let site := ((s.ctl.fn? fn).map (·.site)).getD 0
  let c := if v.getLsbD 0 && site ≠ 0 then s.ctl.siteReset s.cfg 0 else s.ctl
  { s with ctl := if v.getLsbD 1 && site ≠ 1 then c.siteReset s.cfg 1 else c }

/-- SEC_MBX_CMD: OPCODE is taken; GO with an opcode that R375 does not name completes with BAD_OPCODE. A named one runs by the row of
its command. -/
def mbxCmd (s : State) (v : Word) : State :=
  let op := v.extractLsb' 0 8
  if s.ctl.sec.busy then s
  else if v.getLsbD 31 && !([1#8, 2#8, 0x10#8, 0x11#8, 0x12#8, 0x20#8].contains op) then
    mailbox s op none 0 fun s => mbxFail s Status.badOpcode
  else { s with cfg := { s.cfg with mbxOpcode := op } }

/-- A write of YRD_SEQ_PROBE by its own row's meaning. -/
def probeWrite (s : State) (fn : BitVec 8) (k : Yard) (v : Word) : State :=
  match execSeqProbe fn k v s with
  | .next t => t
  | .fault _ => s
  | .refused _ => s

/-- A write to the management function's BAR0 outside its function window. -/
def barWrite (s : State) (fn : BitVec 8) (off : Nat) (v : Word) : State :=
  let k : Yard := Fin.ofNat 8 (off / 0x100000)
  let yard := 0x800000 ≤ off && off < 0x1000000
  if yard && (s.ctl.yd k).lost then s
  else if off = 0x10 then
    if Bits.field v 31 16 = 0x5752 && v.getLsbD 0 then warmReset s noMeter else s
  else if off = 0x10C then (if v.getLsbD 0 then cfgCommit s else s)
  else if off = 0xA08 then siteCtrl s fn v
  else if off = 0x300000 then mbxCmd s v
  else if off = 0x700004 then (if v.getLsbD 0 then { s with ctl := s.ctl.snapDevice } else s)
  else if off = 0x700020 then jnlWrite s v
  else if off = 0x700024 then trigWrite s v
  else if off = 0x700050 then dumpWrite s v
  else if yard && off % 0x100000 = 0xF00 then probeWrite s fn k v
  else if 0x1000000 ≤ off && off < 0x1010000 then { s with ctl := s.ctl.persistHost s.cfg (off - 0x1000000) v }
  else match s.cfg.writeCovered off v with
    | some cfg => { s with cfg := cfg, ctl := s.ctl.touchCovered }
    | none => { s with cfg := s.cfg.writePlain off v, ctl := s.ctl.backAt off v }

/-- Q_CTRL: the RW fields, then RESET or the change of ENABLE (R274, R305, R490; R319 for the vector of a virtual function). -/
def Ctl.queueCtrl (c : Ctl) (f : Fn) (q : Fin 4) (v : Word) : Ctl :=
  let vec := Bits.field v 25 20
  let c := c.onQueue f.num q fun y =>
    { y with pasidEn := v.getLsbD 29, pasid := v.extractLsb' 0 20, vector := keepUnless (f.physical || vec < 16) vec y.vector }
  if v.getLsbD 30 then c.resetQueue f.num q
  else if v.getLsbD 31 then c.enableQueue f.num q else c.disableQueue f.num q

/-- A ring base (Q_SQ_BASE, Q_CQ_BASE): address and LOG2SIZE after a write of one half. -/
def ringWritten (base log : Nat) (high : Bool) (v : Word) : Nat × Nat :=
  (setHalf base high v / 4096 * 4096,
    if high then log else keepUnless (4 ≤ Bits.field v 4 0 && Bits.field v 4 0 ≤ 16) (Bits.field v 4 0) log)

/-- The registers of a queue, by offset from 0x1_0000 + 0x100 × q; a ring base takes a write only while ENABLE is clear. -/
def Ctl.queueWrite (c : Ctl) (f : Fn) (q : Fin 4) (off : Nat) (v : Word) : Ctl :=
  let y := f.queue q
  if inPair 0 off then
    let r := ringWritten y.sqBase y.sqLog (off ≠ 0) v
    if y.enabled then c else c.onQueue f.num q fun y => { y with sqBase := r.1, sqLog := r.2 }
  else if inPair 8 off then
    let r := ringWritten y.cqBase y.cqLog (off ≠ 8) v
    if y.enabled then c else c.onQueue f.num q fun y => { y with cqBase := r.1, cqLog := r.2 }
  else if off = 0x10 then c.queueCtrl f q v
  else if off = 0x14 then c.cqHead f.num q (Bits.field v 15 0)
  else if off = 0x18 then (if v.getLsbD 0 then c.resumeQueue f.num q else c)
  else c

/-- FN_REGION_CTRL: its RW fields and its action (R284). -/
def Ctl.regionCtrl (c : Ctl) (n : BitVec 8) (v : Word) : Ctl :=
  let c := c.onFn n fun f => { f with regionWritable := v.getLsbD 29, regionPasidEn := v.getLsbD 28, regionPasid := v.extractLsb' 0 20 }
  if Bits.field v 31 30 = 1 then c.createRegion n else if Bits.field v 31 30 = 2 then c.destroyRegion n else c

/-- A write to a function window (R472). -/
def Ctl.windowWrite (c : Ctl) (f : Fn) (off : Nat) (v : Word) : Ctl :=
  let n := f.num
  if off < 0x4000 then (if off % 0x1000 = 0 then c.doorbell n (Fin.ofNat 4 (off / 0x1000)) (Bits.field v 15 0) else c)
  else if 0x10000 ≤ off && off < 0x10400 then c.queueWrite f (Fin.ofNat 4 (off / 0x100)) (off % 0x100) v
  else if off = 0x20000 then c.fnBack n v
  else if inPair 0x20100 off then c.onFn n fun f => { f with regionAddr := setHalf f.regionAddr (off ≠ 0x20100) v }
  else if inPair 0x20108 off then c.onFn n fun f => { f with regionLen := setHalf f.regionLen (off ≠ 0x20108) v }
  else if off = 0x20110 then c.onFn n fun f => { f with regionHandle := v }
  else if off = 0x20114 then c.regionCtrl n v
  else if off = 0x20200 then
    let vec := Bits.field v 5 0
    c.onFn n fun f => { f with eventEn := v.getLsbD 31, deviceEn := c.isMgmt n && v.getLsbD 30
                               eventVector := keepUnless (f.physical || vec < 16) vec f.eventVector }
  else if 0x40000 ≤ off && off < 0x40000 + 16 * f.vectors then
    let i := (off - 0x40000) / 16
    if off % 16 = 12 then c.onFn n fun f => { f with irqMasked := if v.getLsbD 0 then f.irqMasked.add i else f.irqMasked.del i }
    else c.onFn n fun f => { f with msix := Sparse.set 0#32 f.msix ((off - 0x40000) / 4) v }
  else c

/-- Where offsets stand for a function's PCIe configuration space: SR-IOV control and NumVFs of its physical function, ATS and PASID
enables. -/
def pciBase : Nat := 2 ^ 28

/-- A configuration-space write (R311, R315, R316). -/
def Ctl.pciWrite (c : Ctl) (f : Fn) (off : Nat) (v : Word) : Ctl :=
  if off = 0x08 && f.physical then
    if v.getLsbD 0 then c.onSite f.site fun x => { x with vfEnable := true }
    else if (c.site f.site).vfEnable then c.vfEnableClear f.num else c
  else if off = 0x10 && f.physical && !(c.site f.site).vfEnable then c.onSite f.site fun x => { x with numVfs := Bits.field v 15 0 }
  else if off = 0x100 then
    (if v.getLsbD 31 then c else c.dropXlats f.num).onFn f.num fun f => { f with atsEn := v.getLsbD 31 }
  else if off = 0x200 then (c.onFn f.num fun f => { f with pasidCap := v.getLsbD 0 }).drainAll f.num
  else c

/-- A 32-bit register write (R12, R13, R464, R470-R472); configuration requests are not taken before the start is complete (R485). -/
def regWord (s : State) (fn : BitVec 8) (off : Nat) (v : Word) : State :=
  match s.ctl.fn? fn with
  | none => s
  | some f =>
    if pciBase ≤ off then (if s.ctl.sec.st = .boot then s else { s with ctl := s.ctl.pciWrite f (off - pciBase) v })
    else if s.ctl.sec.st ≠ .running then
      if s.ctl.isMgmt fn && off / 0x100000 = 3 then barWrite s fn off v else s
    else if !f.physical then { s with ctl := s.ctl.windowWrite f off v }
    else if off / 0x100000 = 0x20 then { s with ctl := s.ctl.windowWrite f (off % 0x100000) v }
    else if s.ctl.isMgmt fn then barWrite s fn off v
    else s

/-- A register write (R11): one narrower than 32 bits or unaligned has no effect; one of 64 bits is two of 32, the lower address first. -/
def regWrite (s : State) (a : RegAccess) : State :=
  let lo : Word := a.value.extractLsb' 0 32
  if a.off % 4 ≠ 0 then s
  else if a.width = 4 then regWord s a.fn a.off lo
  else if a.width = 8 then regWord (regWord s a.fn a.off lo) a.fn (a.off + 4) (a.value.extractLsb' 32 32)
  else s

/-- What section 3 of a dump holds (R451): the 260 physical clusters of a yard. -/
def dumpSeqs (s : State) (k : Yard) : List DumpSeq :=
  (List.range physClusters).map fun p =>
    match (List.finRange 250).find? fun l : Cluster => physOf (s.ctl.yd k).retired l.val = p with
    | some l => ⟨k.val * physClusters + p, some l.val, seqPc s k l, seqState s k l, seqProgress s k l,
        (s.ctl.yd k).reports.clusters.contains l.val, ((s.ctl.yd k).seqs.find? (·.1 = l.val)).any (·.2.faulty)⟩
    | none => ⟨k.val * physClusters + p, none, 0, 6, 0, false, false⟩

/-- The sections of a dump as the frozen device gives them (R451). -/
def dumpBody (s : State) (stores : Bool) : DumpBody :=
  { regs := (List.range 0x400000).filterMap fun i => if barReg s (4 * i) = 0#32 then none else some (4 * i, barReg s (4 * i))
    lists := s.ctl.fe.pipe
    seqs := (List.finRange 8).flatMap fun k => dumpSeqs s k
    stores := if stores then s.dp.mem.filter fun x => x.1 < accKey 0 0 else []
    slot := s.ctl.dbg.slot
    journal := s.ctl.dbg.recs }

/-- The copy of a complete dump that goes to the host beside the coffer's (R451). -/
def dumpToHost (s : State) (d : Dump) (b : DumpBody) (host : Bool) : State :=
  if host && s.cfg.dumpEn then
    { s with ctl := (s.ctl.hostWrite s.ctl.mgmt none s.cfg.dumpAddr d.header).dumpOut s.cfg.dumpAddr b }
  else s

/-- DUMP_DONE (R451, R452): the dump is complete, in the coffer and, where the host copy was not ended, in host memory; with AUTO_RESET the
device resets. -/
def execDumpDone (hostCopied : Bool) (s : State) : Host.Outcome State Fault Refusal :=
  match s.ctl.cof.dumps.find? fun d => !d.done with
  | none => .next s
  | some d =>
    let s := dumpToHost s d (dumpBody s d.stores) hostCopied
    let c := s.ctl.onCof fun k => { k with
      dumps := k.dumps.map (fun x => if x.done then x else { x with done := true, body := dumpBody s x.stores }), dumpHost := hostCopied && s.cfg.dumpEn }
    let s := { s with ctl := c.raise s.cfg .dbg 2#16 }
    if s.cfg.autoReset then .next (warmReset s noMeter) else .next s

/-- REGISTER_WRITE (R11-R13, R454-R472). -/
def execRegisterWrite (a : RegAccess) (s : State) : Host.Outcome State Fault Refusal := .next (regWrite s a)

end Sys2Proof.Machine
end

