-- ==== Sys2Proof/Machine/Buses.lean ====
section
/-! DEFINITION. The I3C target and the PMBus target (18). -/

namespace Sys2Proof.Machine

open Sys2Proof

/-! ### I3C (R480) -/

/-- Offsets that the board management controller may read; in STANDBY the PWR block alone. -/
def i3cReadable (st : PwrSt) (off : Nat) : Bool :=
  off / 0x100000 = 6 || (st ≠ .standby && [0, 4, 0x40, 0xB00, 0x300020].contains off)

/-- A private write is not acknowledged: another address, or no power. -/
def Ctl.nack (c : Ctl) : Ctl := c.onBus fun b => { b with nack := true }

/-- A write over I3C of one register: HUB_RESET, PWR_EVENT and PWR_BMC_CAP; any other is ignored. -/
def i3cWrite (s : State) (off : Nat) (v : Word) : State :=
  if off = 0x10 && s.ctl.pwr.st ≠ .standby then
    if Bits.field v 31 16 = 0x5752 && v.getLsbD 0 then warmReset s noMeter else s
  else if off = 0x600004 then { s with ctl := s.ctl.evBack .pwr v }
  else if off = 0x60000C then
    let w := Bits.field v 15 0
    { s with cfg := { s.cfg with bmcCap := keepUnless (1500 ≤ w && w ≤ 4400) w s.cfg.bmcCap } }
  else s

/-- I3C_PRIVATE_WRITE (R480): an offset, and with four more bytes a write of that register. -/
def execI3cPrivateWrite (address : BitVec 7) (off : Word) (value : Option Word) (s : State) : Host.Outcome State Fault Refusal :=
  if address ≠ s.ctl.pwr.i3cAddr || s.ctl.pwr.st = .off then .next { s with ctl := s.ctl.nack }
  else
    let c := (s.ctl.onPwr fun p => { p with i3cOff := off.toNat }).onBus fun b => { b with nack := false }
    match value with
    | none => .next { s with ctl := c }
    | some v => .next (i3cWrite { s with ctl := c } off.toNat v)

/-- I3C_PRIVATE_READ (R480): the four bytes of the register that the last write named. -/
def execI3cPrivateRead (address : BitVec 7) (s : State) : Host.Outcome State Fault Refusal :=
  let p := s.ctl.pwr
  if address ≠ p.i3cAddr || p.st = .off then .next { s with ctl := s.ctl.nack }
  else
    let v := if i3cReadable p.st p.i3cOff then barReg s p.i3cOff else 0#32
    .next { s with ctl := s.ctl.answer (Bits.toLe v.toNat 4) }

/-- The static address (R480). -/
def i3cStatic : BitVec 7 := 0x4A#7

/-- SETDASA (R480): the target at the static address takes a dynamic one, unless it has one. -/
def execSetdasa (static dynamic : BitVec 7) (s : State) : Host.Outcome State Fault Refusal :=
  if s.ctl.pwr.st ≠ .off && static = i3cStatic && s.ctl.pwr.i3cAddr = i3cStatic then
    .next { s with ctl := (s.ctl.onPwr fun p => { p with i3cAddr := dynamic }).onBus fun b => { b with nack := false } }
  else .next { s with ctl := s.ctl.nack }

/-- ENTDAA (R480): a target without a dynamic address takes the one assigned. -/
def execEntdaa (dynamic : BitVec 7) (s : State) : Host.Outcome State Fault Refusal :=
  if s.ctl.pwr.st ≠ .off && s.ctl.pwr.i3cAddr = i3cStatic then
    .next { s with ctl := (s.ctl.onPwr fun p => { p with i3cAddr := dynamic }).onBus fun b => { b with nack := false } }
  else .next { s with ctl := s.ctl.nack }

/-! ### PMBus (R481) -/

/-- STATUS_WORD (the bit places are PMBus's): INPUT 13, OFF 6, TEMPERATURE 2, CML 1. -/
def Pwr.statusWord (p : Pwr) : BitVec 16 :=
  (if p.statusInput ≠ 0#8 then 0x2000#16 else 0#16) ||| (if p.offBit then 0x40#16 else 0#16) |||
    (if p.statusTemp ≠ 0#8 then 4#16 else 0#16) ||| (if p.cml then 2#16 else 0#16)

/-- MOD_ALERT_N (R476, R481, R488): high unless a status bit, a latched trip or a leak stands. -/
def Pwr.alertN (p : Pwr) : Bool := p.statusWord = 0#16 && p.trip = 0 && p.leakN

/-- LINEAR11 of a reading given as a fraction (PMBus 1.4): the exponent is the implementation's, the mantissa is cut off. -/
def linear11 (code num den : Nat) : BitVec 16 :=
  let e := Config.linear11Exp code
  let m := if e.getLsbD 4 then num * 2 ^ (32 - e.toNat) / den else num / (den * 2 ^ e.toNat)
  e ++ BitVec.ofNat 11 m

/-- Answers a PMBus read; without power there is none. -/
def pmbus (s : State) (bs : List Byte) : Host.Outcome State Fault Refusal :=
  if s.ctl.pwr.st = .off then .next { s with ctl := s.ctl.nack } else .next { s with ctl := s.ctl.answer bs }

/-- CLEAR_FAULTS (R481): every bit whose cause has ended is cleared. -/
def execClearFaults (s : State) : Host.Outcome State Fault Refusal :=
  if s.ctl.pwr.st = .off then .next { s with ctl := s.ctl.nack }
  else
    let clear (p : Pwr) : Pwr :=
      { p with statusInput := (if p.vin < 4200 then p.statusInput &&& 0x10#8 else 0#8) ||| (if 5800 < p.vin then p.statusInput &&& 0x80#8 else 0#8)
               statusTemp := (if p.warned then p.statusTemp &&& 0x40#8 else 0#8) ||| (if p.critical then p.statusTemp &&& 0x80#8 else 0#8)
               cml := false, offBit := p.offBit && p.trip ≠ 0 }
    .next { s with ctl := (s.ctl.onPwr clear).onBus fun b => { b with nack := false } }

/-- STATUS_WORD (R481). -/
def execStatusWord (s : State) : Host.Outcome State Fault Refusal := pmbus s (Bits.toLe s.ctl.pwr.statusWord.toNat 2)

/-- STATUS_INPUT (R481). -/
def execStatusInput (s : State) : Host.Outcome State Fault Refusal := pmbus s [s.ctl.pwr.statusInput]

/-- STATUS_TEMPERATURE (R481). -/
def execStatusTemperature (s : State) : Host.Outcome State Fault Refusal := pmbus s [s.ctl.pwr.statusTemp]

/-- READ_VIN (R481): the input voltage. -/
def execReadVin (s : State) : Host.Outcome State Fault Refusal := pmbus s (Bits.toLe (linear11 0x88 s.ctl.pwr.vin 100).toNat 2)

/-- READ_IIN (R481): the input current. -/
def execReadIin (s : State) : Host.Outcome State Fault Refusal := pmbus s (Bits.toLe (linear11 0x89 s.ctl.pwr.iin 100).toNat 2)

/-- The hottest die or stack sensor. -/
def Temps.hottest (t : Temps) : Nat := ((t.die ++ t.stackA ++ t.stackB).map (·.avg)).foldl Max.max 0

/-- READ_TEMPERATURE_1 (R481): coolant inlet. -/
def execReadTemperature1 (s : State) : Host.Outcome State Fault Refusal :=
  pmbus s (Bits.toLe (linear11 0x8D ((s.ctl.pwr.temps.map (·.inlet.avg)).getD 0) 1).toNat 2)

/-- READ_TEMPERATURE_2 (R481): the hottest die or stack sensor. -/
def execReadTemperature2 (s : State) : Host.Outcome State Fault Refusal :=
  pmbus s (Bits.toLe (linear11 0x8E ((s.ctl.pwr.temps.map Temps.hottest).getD 0) 1).toNat 2)

/-- READ_PIN (R481): input power, 1 ms average. -/
def execReadPin (s : State) : Host.Outcome State Fault Refusal := pmbus s (Bits.toLe (linear11 0x97 s.ctl.pwr.pin 1).toNat 2)

/-- PMBUS_REVISION (R481). -/
def execPmbusRevision (s : State) : Host.Outcome State Fault Refusal := pmbus s [0x44#8]

/-- MFR_ID (R481): a block of six bytes, "OROSET". -/
def execMfrId (s : State) : Host.Outcome State Fault Refusal := pmbus s [6#8, 0x4F#8, 0x52#8, 0x4F#8, 0x53#8, 0x45#8, 0x54#8]

end Sys2Proof.Machine
end

