-- ==== Sys2Proof/Machine/Routing.lean ====
section
/-! DEFINITION. Expert routing (09): top-k selection and gates, slot tables, send and return records, expert streams. -/

namespace Sys2Proof.Machine

open Sys2Proof

/-- The router of a layer of a yard (R252). -/
def Ctl.router (c : Ctl) (k : Yard) (layer : Nat) : Option Router :=
  ((c.plan?.map (·.routers)).getD []).find? fun x => x.yard = k && x.layer = layer

/-- The generation-table entry of a stall (R256); 0 where it is vacant or struck. -/
def Dp.genOf (d : Dp) (k : Yard) (stall : Nat) : Nat :=
  ((d.gens.find? fun g => g.yard = k && g.stall = stall).map (·.gen)).getD 0

/-- The routing of a layer in this tick. -/
def Dp.route (d : Dp) (k : Yard) (layer : Nat) : RouteLayer :=
  (d.routes.find? fun r => r.yard = k && r.layer = layer).getD
    { yard := k, layer := layer, assigns := [], counts := [], table := none, shared := false, bases := [], sends := []
      streams := [], kept := [] }

/-- Replaces the routing of a layer. -/
def Dp.setRoute (d : Dp) (r : RouteLayer) : Dp :=
  { d with routes := (d.routes.filter fun x => !(x.yard = r.yard && x.layer = r.layer)) ++ [r] }

/-! ### Selection and gates (R253, R254) -/

/-- Whether score `b` ranks above score `a`: NaN below every number; equal scores keep the lower index. -/
def outranks (b a : FNum) : Bool :=
  if b.isNan then false else if a.isNan then true else a.lt b

/-- The index of the largest score among indices not taken. -/
def bestScore (xs : List FNum) (taken : List Nat) : Option Nat :=
  (List.range xs.length).foldl (fun best i =>
    if taken.contains i then best
    else match best with
      | none => some i
      | some j => if outranks (xs.getD i (.nan false)) (xs.getD j (.nan false)) then some i else some j) none

/-- The K chosen experts, k-rank 0 first (R253). -/
def topK (k : Nat) (scores : List Word) : List Nat :=
  (List.range k).foldl (fun acc _ => match bestScore (scores.map num32) acc with | some i => acc ++ [i] | none => acc) []

/-- The gates of the chosen experts (R254), with their flags. -/
def gatesOf (r : Router) (scores : List Word) (chosen : List Nat) : List Word × ArithFlags :=
  let pick (i : Nat) : Word := scores.getD i 0#32
  let g : List Word × ArithFlags :=
    if r.sigmoid then
      let x := chosen.map fun e => sigmoidF32 (pick e)
      (x.map (·.1), ArithFlags.orAll (x.map (·.2)))
    else
      let m := reduceAll maxF32 maxId scores
      let ds := scores.map fun s => subF32 s m.1
      let es := ds.map fun d => expF32 d.1
      let z := reduceAll addF32 sumId (es.map (·.1))
      let qs := chosen.map fun e => divF32 ((es.map (·.1)).getD e 0#32) z.1
      (qs.map (·.1), ArithFlags.orAll ([m.2, z.2] ++ ds.map (·.2) ++ es.map (·.2) ++ qs.map (·.2)))
  if r.norm then
    match g.1 with
    | [a, b] =>
      let t := addF32 a b
      let x := divF32 a t.1
      let y := divF32 b t.1
      ([x.1, y.1], ArithFlags.orAll [g.2, t.2, x.2, y.2])
    | [_] => ([0x3F800000#32], g.2)
    | _ => g
  else g

/-- ROUTE_TOPK (R253-R257): a token's assignments, which take the place of any it had; a token whose stall has generation 0 is not routed, and
its combined output row, of `width` FP32 values, is +0. -/
def execRouteTopk (o : EngOp) (token : BitVec 16) (x : RouteRow) (s : State) : Host.Outcome State Fault Refusal :=
  if s.ctl.hub.halted then .next s else
  match s.ctl.router o.core.yard o.tag.layer.toNat with
  | none => .fault .noRouter
  | some r =>
    runEngine s o [⟨⟨x.scores, none, false⟩, .vxe, [(0, 4 * r.nexp)]⟩] true (locWritable ⟨.core, x.dest⟩ (4 * x.width)) []
        [(.vxeOp, r.nexp)] fun core _ mark d =>
      let rl := d.route o.core.yard o.tag.layer.toNat
      let others := rl.assigns.filter fun a => !(a.home = o.core.cluster && a.token = token.toNat)
      let gen := d.genOf o.core.yard o.tag.stall.toNat
      if gen = 0 then
        (d.setRoute { rl with assigns := others }).write (coreKey core x.dest) (wordBytes (List.replicate x.width 0#32)) false
      else
        let ws := d.words (coreKey core x.scores) r.nexp
        let chosen := topK r.k ws
        let g := gatesOf r ws chosen
        let as := chosen.mapIdx fun kr e =>
          ({ home := o.core.cluster, stall := o.tag.stall.toNat, token := token.toNat, kr := kr, expert := e
             gate := g.1.getD kr 0#32, gen := gen, poison := mark } : Assign)
        let fl := g.2.or (.invIf (ws.any fun w => (num32 w).isNan))
        ((d.setRoute { rl with assigns := others ++ as }).raiseFlags core .vxe fl).poisonRow o mark

/-! ### Counting and slot tables (R257-R260) -/

/-- Assignments of a home cluster per expert. -/
def RouteLayer.countsOf (r : RouteLayer) (nexp : Nat) (l : Cluster) : List Nat :=
  (List.range nexp).map fun e => (r.assigns.filter fun a => a.home = l && a.expert = e).length

/-- The home clusters of a layer's assignments, in cluster order. -/
def RouteLayer.homes (r : RouteLayer) : List Cluster :=
  (List.finRange 250).filter fun l => r.assigns.any fun a => a.home = l

/-- A change to the routing of a layer by TABLE_CLU (R252), in its segment and at or after its scheduled cycle (R40). -/
def routeStep (s : State) (k : Yard) (layer : Nat) (at0 : When) (f : Router → RouteLayer → RouteLayer) :
    Host.Outcome State Fault Refusal :=
  if s.ctl.hub.halted then .next s else
  match s.ctl.router k layer with
  | none => .fault .noRouter
  | some r =>
    if !s.ctl.issues k r.tableClu at0 then .next s
    else .next { s with dp := s.dp.setRoute (f r (s.dp.route k layer)) }

/-- COUNT_REDUCE: every cluster's counts reach TABLE_CLU. -/
def execCountReduce (y : YardAt) (layer : BitVec 12) (s : State) : Host.Outcome State Fault Refusal :=
  routeStep s y.yard layer.toNat y.at0 fun r x => { x with counts := x.homes.map fun l => (l, x.countsOf r.nexp l) }

/-- The total of each expert. -/
def totals (nexp : Nat) (cs : List (Cluster × List Nat)) : List Nat :=
  (List.range nexp).map fun e => (cs.map fun c => c.2.getD e 0).sum

/-- The eligible expert of the largest load, the lowest on a tie (R260). -/
def heaviest (c n : List Nat) : Option Nat :=
  (List.range c.length).foldl (fun best e =>
    if n.getD e 0 < c.getD e 0 then
      match best with
      | none => some e
      | some f => if c.getD f 0 * n.getD e 0 < c.getD e 0 * n.getD f 0 then some e else some f
    else best) none

/-- The loop of R260 that hands out spare slots. -/
def spread (c : List Nat) : Nat → List Nat → List Nat
  | 0, n => n
  | spare + 1, n =>
    match heaviest c n with
    | none => n
    | some e => spread c spare (n.mapIdx fun i v => if i = e then v + 1 else v)

/-- SLOT_BUILD's table from the experts' counts (R260). -/
def slotTable (c : List Nat) (nslot tps : Nat) : SlotTable :=
  let n0 := c.map fun x => Bits.ceilDiv x tps
  let n := spread c (nslot - n0.sum) n0
  let first := (n.foldl (fun (acc : Nat × List Nat) v => (acc.1 + v, acc.2 ++ [acc.1])) (0, [])).2
  let run := (List.range n.length).flatMap fun e => List.replicate (n.getD e 0) (some e)
  { n := n, first := first, expertOf := run ++ List.replicate (nslot - run.length) none }

/-- SLOT_BUILD (R260): once the counts have arrived. -/
def execSlotBuild (y : YardAt) (layer : BitVec 12) (s : State) : Host.Outcome State Fault Refusal :=
  routeStep s y.yard layer.toNat y.at0 fun r x => { x with table := some (slotTable (totals r.nexp x.counts) r.nslot r.tps) }

/-- The slot table reaches every cluster of the yard. -/
def execSlotTableMulticast (y : YardAt) (layer : BitVec 12) (s : State) : Host.Outcome State Fault Refusal :=
  routeStep s y.yard layer.toNat y.at0 fun _ x => { x with shared := x.table.isSome }

/-- Base offsets of a home cluster: assignments of each expert in lower-numbered clusters. -/
def baseOf (nexp : Nat) (cs : List (Cluster × List Nat)) (l : Cluster) : List Nat :=
  (List.range nexp).map fun e => ((cs.filter fun c => c.1 < l).map fun c => c.2.getD e 0).sum

/-- TABLE_CLU returns each home cluster its base offsets. -/
def execBaseOffsetReturn (y : YardAt) (layer : BitVec 12) (s : State) : Host.Outcome State Fault Refusal :=
  routeStep s y.yard layer.toNat y.at0 fun r x => { x with bases := x.counts.map fun c => (c.1, baseOf r.nexp x.counts c.1) }

/-! ### Records (R255, R258) -/

/-- The tag of an assignment (R255). -/
def tagOf (a : Assign) (mb : Nat) : BitVec 64 :=
  BitVec.ofNat 64 (a.gen * 2 ^ 44 + mb * 2 ^ 41 + a.kr * 2 ^ 40 + a.token * 2 ^ 24 + a.home.val * 2 ^ 16)

/-- A send or return record (R258), padded to a multiple of 64 bytes. -/
def recordBytes (tag : BitVec 64) (expert slot pos : Nat) (gate : Word) (row : List Byte) : List Byte :=
  Bits.toLe tag.toNat 8 ++ Bits.toLe expert 2 ++ Bits.toLe slot 2 ++ Bits.toLe pos 2 ++ [0#8, 0#8] ++
    wordBytes [gate] ++ List.replicate 44 0#8 ++ row ++ List.replicate (64 * Bits.ceilDiv row.length 64 - row.length) 0#8

/-- The rank of an assignment: its expert's base offset plus its place among its cluster's assignments to that expert, by
TOKEN and then KR. -/
def RouteLayer.rank (r : RouteLayer) (a : Assign) : Nat :=
  let base := (((r.bases.find? (·.1 = a.home)).map (·.2)).getD []).getD a.expert 0
  base + (r.assigns.filter fun b => b.home = a.home && b.expert = a.expert &&
    (b.token < a.token || (b.token = a.token && b.kr < a.kr))).length

/-- The logical cluster of a slot (R252). -/
def slotCluster (r : Router) (slot : Nat) : Cluster := Fin.ofNat 250 (slot * r.slotCores / 40)

/-- The cores of a slot within its cluster (R252). -/
def slotCores (r : Router) (slot : Nat) : List Nat :=
  let base := slot % (40 / r.slotCores) * r.slotCores
  (List.range r.slotCores).map (base + ·)

/-- ROW_FMT of a router (R252). -/
def rowFmtOf (r : Router) : Fmt := if r.rowFmt = 3 then .e4m3 else .bf16

/-- Bytes of a row of `n` elements in a format as a record holds it: block groups under R149 for E4M3 (R258). -/
def rowBytesOf (f : Fmt) (n : Nat) : Nat := if f.blockScaled then rowSpan f 0 n else codeBytes f n

/-- Bytes of a send record of a row of `n` elements (R258). -/
def sendBytes (r : Router) (n : Nat) : Nat := 64 + 64 * Bits.ceilDiv (rowBytesOf (rowFmtOf r) n) 64

/-- Where the record of an assignment goes: the slot and the position that its rank gives (R260); none where its table or its base offsets
have not arrived. -/
def RouteLayer.slotPos (r : RouteLayer) (a : Assign) : Option (Nat × Nat) :=
  match r.table with
  | some t =>
    let n := t.n.getD a.expert 0
    if !r.shared || r.bases.isEmpty || n = 0 then none
    else some (t.first.getD a.expert 0 + r.rank a % n, r.rank a / n)
  | none => none

/-- SEND_RECORD (R258, R260): the record of one assignment, with the token's row in ROW_FMT, goes to the position that its rank gives in the
receiving area of its slot's cluster store. A row that stands in FP32 is converted on its way (R81, R127). -/
def execSendRecord (o : EngOp) (token : BitVec 16) (kr : Fin 2) (row : Nat) (len : RowLen) (area : Nat) (s : State) :
    Host.Outcome State Fault Refusal :=
  if s.ctl.hub.halted then .next s else
  match s.ctl.router o.core.yard o.tag.layer.toNat with
  | none => .fault .noRouter
  | some r =>
    let rl := s.dp.route o.core.yard o.tag.layer.toNat
    let f := rowFmtOf r
    match rl.assigns.find? fun a => a.home = o.core.cluster && a.token = token.toNat && a.kr = kr.val with
    | none => .next s
    | some a =>
      match rl.slotPos a with
      | none => .next s
      | some (slot, pos) =>
        let size := sendBytes r len.width
        let length := if len.fp32 then 4 * len.width else rowBytesOf f len.width
        let at0 := area + pos * size
        let dest := clusterKey (s.ctl.clu o.core.yard (slotCluster r slot).val) at0
        runEngine s o [⟨⟨row, none, false⟩, .vxe, [(0, length)]⟩] true (at0 + size ≤ clusterBytes) [(dest, size)]
            [(.spineByte, size)] fun core _ m d =>
          let src := d.mem.readN (coreKey core row) length
          let tag := tagOf a (((s.ctl.microIn o.core.yard).map (·.mb)).getD 0)
          let rec0 := recordBytes tag a.expert slot pos a.gate (if len.fp32 then sxeBytes (some f) src else src)
          let d := d.writeUnits dest rec0 (List.replicate (size / 64) (a.poison || m))
          let d := if len.fp32 then d.countConv core o.core.yard o.tag f ((sxeConvert f src).clipped.take len.width) else d
          d.setRoute { rl with sends := rl.sends ++ [(token.toNat, kr.val, slot)] }

/-- y of R266 for one element: g_0 × r_0, and the second result by a fused multiply-add. -/
def putBackElem (g0 r0 : Word) (second : Option (Word × Word)) : Word × ArithFlags :=
  let a := mulF32 g0 r0
  match second with
  | none => a
  | some (g1, r1) =>
    let b := fmaF32 g1 r1 a.1
    (b.1, a.2.or b.2)

/-- A return record: its TAG, EXPERT, SLOT, POS and GATE, its row in BF16, and its poison (R258). -/
structure ReturnRec where
  tag : Nat
  expert : Nat
  slot : Nat
  pos : Nat
  gate : Word
  row : List Byte
  poison : Bool
  deriving DecidableEq, Repr

/-- The FP32 values of a return record's row (R258). -/
def ReturnRec.words (x : ReturnRec) : List Word :=
  (List.range (x.row.length / 2)).map fun i => BitVec.ofNat 32 (Bits.leNat x.row (2 * i) 2 * 2 ^ 16)

/-- TOKEN of a record's tag (R255). -/
def ReturnRec.token (x : ReturnRec) : Nat := x.tag / 2 ^ 24 % 2 ^ 16

/-- KR of a record's tag (R255). -/
def ReturnRec.kr (x : ReturnRec) : Nat := x.tag / 2 ^ 40 % 2

/-- Whether a record's generation is its stall's at HOME, and its fields lie in the ranges of its layer (R255, R258, R265). -/
def Dp.recordFresh (d : Dp) (k : Yard) (r : Router) (x : ReturnRec) (stall : Nat) : Bool :=
  x.tag / 2 ^ 44 ≠ 0 && d.genOf k stall = x.tag / 2 ^ 44 && x.expert < r.nexp && x.slot < r.nslot && x.pos < r.tps

/-- HOME of a tag (R255). -/
def homeOf (tag : Nat) : Cluster := Fin.ofNat 250 (tag / 2 ^ 16 % 2 ^ 8)

/-- The stall of a tag's token. -/
def RouteLayer.stallOf (r : RouteLayer) (tag : Nat) : Nat :=
  ((r.assigns.find? fun a => a.home = homeOf tag && a.token = tag / 2 ^ 24 % 2 ^ 16).map (·.stall)).getD 65536

/-- The put-back of a record that HOME keeps (R265, R266): once all K results of its token have landed they are combined into core store. -/
def putBack (s : State) (r : Router) (o : EngOp) (x : ReturnRec) (core : Fin 40) (dest : Nat) : Host.Outcome State Fault Refusal :=
  let k := o.core.yard
  let rl := s.dp.route k o.tag.layer.toNat
  let kept := (rl.kept.filter fun y => !(y.1 = x.token && y.2.1 = x.kr)) ++ [(x.token, x.kr, x.words, x.gate, x.poison)]
  let d := s.dp.setRoute { rl with kept := kept }
  let mine (i : Nat) := kept.find? fun y => y.1 = x.token && y.2.1 = i
  let home : CoreRef := ⟨k, homeOf x.tag, core⟩
  let c := s.ctl.core home
  match mine 0, (if r.k = 2 then mine 1 else none) with
  | some (_, _, r0, g0, p0), second =>
    if r.k = 2 && second.isNone then .next { s with dp := d }
    else if !locWritable ⟨.core, dest⟩ (4 * r0.length) then .fault .noSuchAddress
    else
      let ys := r0.mapIdx fun i y => putBackElem g0 y (second.map fun z => (z.2.2.2.1, z.2.2.1.getD i 0#32))
      let mark := p0 || (second.map (·.2.2.2.2)).getD false
      let d := d.write (coreKey c dest) (wordBytes (ys.map (·.1))) mark
      let at1 : EngOp := ⟨home, ⟨BitVec.ofNat 16 (rl.stallOf x.tag), o.tag.layer, 0⟩, o.at0⟩
      let d := (d.raiseFlags c .vxe (ArithFlags.orAll (ys.map (·.2)))).poisonRow at1 mark
      .next { s with dp := d.countUnits k home.cluster.val at1.tag.stall.toNat [(.vxeOp, r.k * r0.length)] }
  | none, _ => .next { s with dp := d }

/-- Bytes of a return record of a row of `n` elements (R258). -/
def returnBytes (n : Nat) : Nat := 64 + 64 * Bits.ceilDiv (2 * n) 64

/-- The return record that a core forms for the send record at a position of its cluster's receiving area, with its row as it was converted: the
header is the send record's, the row stands in FP32 in core store and is rounded to BF16 (R127, R258), and it carries the poison of both (R267). -/
def returnRec (s : State) (o : EngOp) (r : Router) (area pos row width : Nat) : ReturnRec × Written :=
  let k := o.core.yard
  let c := s.ctl.core o.core
  let key := clusterKey (s.ctl.clu k o.core.cluster.val) (area + pos * sendBytes r width)
  let hd := s.dp.mem.readN key 64
  let w := convertOut .bf16 0#32 0 (s.dp.words (coreKey c row) width)
  ({ tag := Bits.leNat hd 0 8, expert := Bits.leNat hd 8 2, slot := Bits.leNat hd 10 2, pos := Bits.leNat hd 12 2
     gate := BitVec.ofNat 32 (Bits.leNat hd 16 4), row := w.codes
     poison := s.dp.poisoned key (sendBytes r width) || s.dp.poisoned (coreKey c row) (4 * width) ||
       (s.ctl.seq k o.core.cluster.val).faulty }, w)

/-- RETURN_RECORD (R258, R263, R265-R267): a core of a slot returns its expert's output row for the send record at a position of the receiving
area: the row, in FP32 in core store, is rounded to BF16 and carries the poison of the record and of the row. At HOME a record of the present
generation is kept, any other is counted and discarded. -/
def execReturnRecord (yard : Yard) (cluster : Cluster) (core : Fin 40) (layer : BitVec 12) (chan : Nat) (at0 : When) (area pos row width : Nat)
    (homeCore : Fin 40) (dest : Nat) (s : State) : Host.Outcome State Fault Refusal :=
  if s.ctl.hub.halted then .next s else
  let o : EngOp := ⟨⟨yard, cluster, core⟩, ⟨0#16, layer, chan⟩, at0⟩
  match s.ctl.router o.core.yard o.tag.layer.toNat with
  | none => .fault .noRouter
  | some r =>
    let k := o.core.yard
    let start := area + pos * sendBytes r width
    if !s.ctl.issues k o.core.cluster.val o.at0 then .next s
    else if !(start + sendBytes r width ≤ clusterBytes) || !locReadable ⟨.core, row⟩ (4 * width) then .fault .noSuchAddress
    else
      let c := s.ctl.core o.core
      let z := returnRec s o r area pos row width
      let x := z.1
      let w := z.2
      let rl := s.dp.route k o.tag.layer.toNat
      let tag : RowTag := { o.tag with stall := BitVec.ofNat 16 (rl.stallOf x.tag) }
      let d := ((s.dp.raiseFlags c .vxe w.fl).countConv c k tag .bf16 w.clipped).countUnits k o.core.cluster.val tag.stall.toNat
        [(.spineByte, returnBytes width)]
      let d := d.retireInstr k o.core.cluster
      if d.recordFresh k r x (rl.stallOf x.tag) then putBack { s with dp := d } r o x homeCore dest
      else .next { s with dp := d, ctl := s.ctl.onYard (s.ctl.home k) fun y => { y with stale := sat64 y.stale 1 } }

/-- Issues entries in order while each one's queues and areas are free; how many have issued. -/
def Ctl.issueAll (c : Ctl) (r : CoreRef) (rs : List (Cluster × List (Fin 40))) : List BlockEntry → Dp → Nat → Dp × Nat
  | [], d, n => (d, n)
  | e :: es, d, n => if c.issueReady d r.yard rs e then issueAll c r rs es (c.issueTo d r e rs) (n + 1) else (d, n)

/-- The clusters of a run of slots with the cores of its member slots in each (R252, R261). -/
def runReceivers (r : Router) (slots : List Nat) : List (Cluster × List (Fin 40)) :=
  ((slots.map (slotCluster r)).dedup).map fun l =>
    (l, (slots.filter fun x => slotCluster r x = l).flatMap fun x => (slotCores r x).map (Fin.ofNat 40))

/-- The block list of an expert of a layer in the microbatch's epoch (R197, R261). -/
def Ctl.expertList (c : Ctl) (d : Dp) (k : Yard) (layer e which : Nat) : List BlockEntry :=
  c.subList d k which fun x => x.layer = layer && x.expert = some e

/-- EXPERT_STREAM (R261): the lead slot of a run walks the block list of its expert as far as its queues and areas let it; every cluster of the
run receives each block, and the cores of its member slots get tokens. An entry issues once: a later EXPERT_STREAM goes on behind it. -/
def execExpertStream (yard : Yard) (layer : BitVec 12) (lead which : Nat) (at0 : When) (s : State) : Host.Outcome State Fault Refusal :=
  if s.ctl.hub.halted then .next s else
  match s.ctl.router yard layer.toNat with
  | none => .fault .noRouter
  | some r =>
    let rl := s.dp.route yard layer.toNat
    match rl.table.bind fun t => (t.expertOf.getD lead none).map fun e => (t, e) with
    | none => .next s
    | some (t, e) =>
      if !s.ctl.issues yard (slotCluster r lead).val at0 || !rl.shared || t.first.getD e 0 ≠ lead then .next s
      else
        let entries := s.ctl.expertList s.dp yard layer.toNat e which
        let sent := ((rl.streams.find? (·.1 = e)).map (·.2)).getD 0
        if entries.any fun x => !s.ctl.entryFits x then .fault .noSuchAddress
        else
          let rs := runReceivers r ((List.range (t.n.getD e 0)).map (lead + ·))
          let z := s.ctl.issueAll ⟨yard, slotCluster r lead, 0⟩ rs (entries.drop sent) s.dp 0
          .next { s with dp := z.1.setRoute { rl with streams := rl.streams.filter (·.1 ≠ e) ++ [(e, sent + z.2)] } }

end Sys2Proof.Machine
end

