-- ==== Sys2Proof/Machine/Dispatch.lean ====
section
/-! DEFINITION. One arm for each command: the meaning it calls. -/

namespace Sys2Proof.Machine

open Sys2Proof

/-- What a command does to everything but the queue. -/
def exec (i : Instr) (s : State) : Host.Outcome State Fault Refusal :=
  match i with
  | .sessionOpen p name adapter ring entries budget width => Sys2Proof.Machine.execSessionOpen p name adapter ring entries budget width s
  | .sessionAppend p tokens count noPrefix data => Sys2Proof.Machine.execSessionAppend p tokens count noPrefix data s
  | .sessionGenerate p maxTokens temperature topP topK nstop stops seed => Sys2Proof.Machine.execSessionGenerate p maxTokens temperature topP topK nstop stops seed s
  | .sessionFork p ring entries => Sys2Proof.Machine.execSessionFork p ring entries s
  | .sessionClose p => Sys2Proof.Machine.execSessionClose p s
  | .prefixPin p tokens count data => Sys2Proof.Machine.execPrefixPin p tokens count data s
  | .prefixUnpin p tokens count data => Sys2Proof.Machine.execPrefixUnpin p tokens count data s
  | .graphStore p region length data => Sys2Proof.Machine.execGraphStore p region length data s
  | .graphPatch p region length data => Sys2Proof.Machine.execGraphPatch p region length data s
  | .graphLaunch p input output adapter items => Sys2Proof.Machine.execGraphLaunch p input output adapter items s
  | .graphDrop p => Sys2Proof.Machine.execGraphDrop p s
  | .jobSuspend p => Sys2Proof.Machine.execJobSuspend p s
  | .jobResume p => Sys2Proof.Machine.execJobResume p s
  | .jobCancel p => Sys2Proof.Machine.execJobCancel p s
  | .jobQuery p result write => Sys2Proof.Machine.execJobQuery p result write s
  | .imageInstall p manifest records scales scaleLen data => Sys2Proof.Machine.execImageInstall p manifest records scales scaleLen data s
  | .imageActivate p cutover tablesOnly scales scaleLen data => Sys2Proof.Machine.execImageActivate p cutover tablesOnly scales scaleLen data s
  | .imageRetire p => Sys2Proof.Machine.execImageRetire p s
  | .tuneOpen p name adapter source rank b2 e1 e2 d data => Sys2Proof.Machine.execTuneOpen p name adapter source rank b2 e1 e2 d data s
  | .tuneStep p region count rho data => Sys2Proof.Machine.execTuneStep p region count rho data s
  | .tuneSave p name => Sys2Proof.Machine.execTuneSave p name s
  | .tuneClose p => Sys2Proof.Machine.execTuneClose p s
  | .selftest p mask kind report found => Sys2Proof.Machine.execSelftest p mask kind report found s
  | .marginReplan p mask => Sys2Proof.Machine.execMarginReplan p mask s
  | .markBegin p ident => Sys2Proof.Machine.execMarkBegin p ident s
  | .markEnd p ident => Sys2Proof.Machine.execMarkEnd p ident s
  | .counterSnapshot p => Sys2Proof.Machine.execCounterSnapshot p s
  | .fence p mask jobs => Sys2Proof.Machine.execFence p mask jobs s
  | .fnCreate p site health quota => Sys2Proof.Machine.execFnCreate p site health quota s
  | .fnDestroy p number result => Sys2Proof.Machine.execFnDestroy p number result s
  | .fnSetShare p number share tokenCap energyCap => Sys2Proof.Machine.execFnSetShare p number share tokenCap energyCap s
  | .planLoad p region length name => Sys2Proof.Machine.execPlanLoad p region length name s
  | .planSelect p => Sys2Proof.Machine.execPlanSelect p s
  | .folioGet p folio result length write => Sys2Proof.Machine.execFolioGet p folio result length write s
  | .ledgerConfig p period => Sys2Proof.Machine.execLedgerConfig p period s
  | .fwSupply image => Sys2Proof.Machine.execFwSupply image s
  | .fwStage image programmed => Sys2Proof.Machine.execFwStage image programmed s
  | .keyRegister keys => Sys2Proof.Machine.execKeyRegister keys s
  | .keyRevoke => Sys2Proof.Machine.execKeyRevoke s
  | .keyRead write => Sys2Proof.Machine.execKeyRead write s
  | .chainRead write => Sys2Proof.Machine.execChainRead write s
  | .doeDiscovery fn index => Sys2Proof.Machine.execDoeDiscovery fn index s
  | .getVersion fn => Sys2Proof.Machine.execGetVersion fn s
  | .getCapabilities fn body => Sys2Proof.Machine.execGetCapabilities fn body s
  | .negotiateAlgorithms fn ecdsaP384 sha384 body => Sys2Proof.Machine.execNegotiateAlgorithms fn ecdsaP384 sha384 body s
  | .getDigests fn => Sys2Proof.Machine.execGetDigests fn s
  | .getCertificate fn slot off length => Sys2Proof.Machine.execGetCertificate fn slot off length s
  | .challenge fn slot nonce => Sys2Proof.Machine.execChallenge fn slot nonce s
  | .getMeasurements fn index signed nonce => Sys2Proof.Machine.execGetMeasurements fn index signed nonce s
  | .i3cPrivateWrite address off value => Sys2Proof.Machine.execI3cPrivateWrite address off value s
  | .i3cPrivateRead address => Sys2Proof.Machine.execI3cPrivateRead address s
  | .setdasa static dynamic => Sys2Proof.Machine.execSetdasa static dynamic s
  | .entdaa dynamic => Sys2Proof.Machine.execEntdaa dynamic s
  | .clearFaults => Sys2Proof.Machine.execClearFaults s
  | .statusWord => Sys2Proof.Machine.execStatusWord s
  | .statusInput => Sys2Proof.Machine.execStatusInput s
  | .statusTemperature => Sys2Proof.Machine.execStatusTemperature s
  | .readVin => Sys2Proof.Machine.execReadVin s
  | .readIin => Sys2Proof.Machine.execReadIin s
  | .readTemperature1 => Sys2Proof.Machine.execReadTemperature1 s
  | .readTemperature2 => Sys2Proof.Machine.execReadTemperature2 s
  | .readPin => Sys2Proof.Machine.execReadPin s
  | .pmbusRevision => Sys2Proof.Machine.execPmbusRevision s
  | .mfrId => Sys2Proof.Machine.execMfrId s
  | .qDoorbell fn q tail fetched => Sys2Proof.Machine.execQDoorbell fn q tail fetched s
  | .queueEnable fn q => Sys2Proof.Machine.execQueueEnable fn q s
  | .queueDisable fn q => Sys2Proof.Machine.execQueueDisable fn q s
  | .queueReset fn q => Sys2Proof.Machine.execQueueReset fn q s
  | .qCqHead fn q head => Sys2Proof.Machine.execQCqHead fn q head s
  | .qResume fn q => Sys2Proof.Machine.execQResume fn q s
  | .regionCreate fn writable pasidEn pasid => Sys2Proof.Machine.execRegionCreate fn writable pasidEn pasid s
  | .regionDestroy fn => Sys2Proof.Machine.execRegionDestroy fn s
  | .eventWriteBack fn off value => Sys2Proof.Machine.execEventWriteBack fn off value s
  | .deviceWarmReset fn value meter => Sys2Proof.Machine.execDeviceWarmReset fn value meter s
  | .siteReset site fn => Sys2Proof.Machine.execSiteReset site fn s
  | .cfgCommit fn value => Sys2Proof.Machine.execCfgCommit fn value s
  | .dbgSnapGo fn value => Sys2Proof.Machine.execDbgSnapGo fn value s
  | .journalArm fn value => Sys2Proof.Machine.execJournalArm fn value s
  | .streamEnable fn value => Sys2Proof.Machine.execStreamEnable fn value s
  | .trig fn value => Sys2Proof.Machine.execTrig fn value s
  | .dumpFetch fn value => Sys2Proof.Machine.execDumpFetch fn value s
  | .seqProbe fn yard value => Sys2Proof.Machine.execSeqProbe fn yard value s
  | .persistentWrite fn off value => Sys2Proof.Machine.execPersistentWrite fn off value s
  | .registerWrite a => Sys2Proof.Machine.execRegisterWrite a s
  | .functionLevelReset fn => Sys2Proof.Machine.execFunctionLevelReset fn s
  | .vfEnableClear fn => Sys2Proof.Machine.execVfEnableClear fn s
  | .atsInvalidation fn pasid addr pages => Sys2Proof.Machine.execAtsInvalidation fn pasid addr pages s
  | .modEnHigh => Sys2Proof.Machine.execModEnHigh s
  | .modEnLow => Sys2Proof.Machine.execModEnLow s
  | .modRstNLow => Sys2Proof.Machine.execModRstNLow s
  | .modRstNRelease meter => Sys2Proof.Machine.execModRstNRelease meter s
  | .firmwareCheck image start => Sys2Proof.Machine.execFirmwareCheck image start s
  | .inputTrip cause => Sys2Proof.Machine.execInputTrip cause s
  | .refclkLost => Sys2Proof.Machine.execRefclkLost s
  | .leak => Sys2Proof.Machine.execLeak s
  | .leakOffExpiry => Sys2Proof.Machine.execLeakOffExpiry s
  | .thermalSample t => Sys2Proof.Machine.execThermalSample t s
  | .thermalStepDown => Sys2Proof.Machine.execThermalStepDown s
  | .thermalStepUp => Sys2Proof.Machine.execThermalStepUp s
  | .criticalHalving => Sys2Proof.Machine.execCriticalHalving s
  | .powerCapStepDown => Sys2Proof.Machine.execPowerCapStepDown s
  | .powerCapStepUp => Sys2Proof.Machine.execPowerCapStepUp s
  | .bell b => Sys2Proof.Machine.execBell b s
  | .admissionCutoff heads => Sys2Proof.Machine.execAdmissionCutoff heads s
  | .doneReport d => Sys2Proof.Machine.execDoneReport d s
  | .weightRestore yard u image read => Sys2Proof.Machine.execWeightRestore yard u image read s
  | .kvRestore yard copy addr => Sys2Proof.Machine.execKvRestore yard copy addr s
  | .storageRelease => Sys2Proof.Machine.execStorageRelease s
  | .hubTimerPeriod m => Sys2Proof.Machine.execHubTimerPeriod m s
  | .folioSealed folio => Sys2Proof.Machine.execFolioSealed folio s
  | .qntWindowClose slot => Sys2Proof.Machine.execQntWindowClose slot s
  | .cfgCrcCheck => Sys2Proof.Machine.execCfgCrcCheck s
  | .pcSample yard cluster cycle queued => Sys2Proof.Machine.execPcSample yard cluster cycle queued s
  | .streamRecordCopy ok => Sys2Proof.Machine.execStreamRecordCopy ok s
  | .hangLimitExpiry elapsed us m => Sys2Proof.Machine.execHangLimitExpiry elapsed us m s
  | .progressStandstill yard cluster p us m => Sys2Proof.Machine.execProgressStandstill yard cluster p us m s
  | .dumpDone hostCopied => Sys2Proof.Machine.execDumpDone hostCopied s
  | .cqWriteFault fn q failed => Sys2Proof.Machine.execCqWriteFault fn q failed s
  | .sqFetchFault fn q => Sys2Proof.Machine.execSqFetchFault fn q s
  | .outputWriteFault fn session failed => Sys2Proof.Machine.execOutputWriteFault fn session failed s
  | .flrTimeout fn => Sys2Proof.Machine.execFlrTimeout fn s
  | .siteLinkDown site => Sys2Proof.Machine.execSiteLinkDown site s
  | .siteLinkUp site => Sys2Proof.Machine.execSiteLinkUp site s
  | .linkHoldExpiry site => Sys2Proof.Machine.execLinkHoldExpiry site s
  | .siteDegraded => Sys2Proof.Machine.execSiteDegraded s
  | .awaitSpaceResume fn job => Sys2Proof.Machine.execAwaitSpaceResume fn job s
  | .epochLoaded fn l => Sys2Proof.Machine.execEpochLoaded fn l s
  | .fxeEntryIssue x => Sys2Proof.Machine.execFxeEntryIssue x s
  | .fxeBlockArrival yard flight => Sys2Proof.Machine.execFxeBlockArrival yard flight s
  | .fastRead yard flight part result late => Sys2Proof.Machine.execFastRead yard flight part result late s
  | .shedRead yard flight part poisoned late => Sys2Proof.Machine.execShedRead yard flight part poisoned late s
  | .sxeWrite o entry conv target replayed late => Sys2Proof.Machine.execSxeWrite o entry conv target replayed late s
  | .appendScatterStep yard writes => Sys2Proof.Machine.execAppendScatterStep yard writes s
  | .refresh yard channel cycle => Sys2Proof.Machine.execRefresh yard channel cycle s
  | .idleRefresh yard channel cycle => Sys2Proof.Machine.execIdleRefresh yard channel cycle s
  | .forcedRefresh yard channel cycle => Sys2Proof.Machine.execForcedRefresh yard channel cycle s
  | .expanderBlock yard x late => Sys2Proof.Machine.execExpanderBlock yard x late s
  | .nmaLatent o => Sys2Proof.Machine.execNmaLatent o s
  | .nmaGqa o => Sys2Proof.Machine.execNmaGqa o s
  | .mxeDotProduct o acc pair start a b n => Sys2Proof.Machine.execMxeDotProduct o acc pair start a b n s
  | .pairMerge o acc second => Sys2Proof.Machine.execPairMerge o acc second s
  | .accReadout o acc count pair hiOnly dest => Sys2Proof.Machine.execAccReadout o acc count pair hiOnly dest s
  | .add o a b d => Sys2Proof.Machine.execAdd o a b d s
  | .sub o a b d => Sys2Proof.Machine.execSub o a b d s
  | .mul o a b d => Sys2Proof.Machine.execMul o a b d s
  | .fma o a b c d => Sys2Proof.Machine.execFma o a b c d s
  | .abs o a d => Sys2Proof.Machine.execAbs o a d s
  | .neg o a d => Sys2Proof.Machine.execNeg o a d s
  | .min o a b d => Sys2Proof.Machine.execMin o a b d s
  | .max o a b d => Sys2Proof.Machine.execMax o a b d s
  | .cmp o r a b dest => Sys2Proof.Machine.execCmp o r a b dest s
  | .sel o c a b dest => Sys2Proof.Machine.execSel o c a b dest s
  | .cvt o a d => Sys2Proof.Machine.execCvt o a d s
  | .rsum o a d => Sys2Proof.Machine.execRsum o a d s
  | .rmax o a d => Sys2Proof.Machine.execRmax o a d s
  | .rmin o a d => Sys2Proof.Machine.execRmin o a d s
  | .sfn o slot out mode a dest at1 tableError => Sys2Proof.Machine.execSfn o slot out mode a dest at1 tableError s
  | .welfordAcc o slot a => Sys2Proof.Machine.execWelfordAcc o slot a s
  | .welfordMerge o a b dest => Sys2Proof.Machine.execWelfordMerge o a b dest s
  | .varFinish o a d => Sys2Proof.Machine.execVarFinish o a d s
  | .ssqAcc o slot a => Sys2Proof.Machine.execSsqAcc o slot a s
  | .ssqMerge o a b dest => Sys2Proof.Machine.execSsqMerge o a b dest s
  | .rmsFinish o a epsilon d => Sys2Proof.Machine.execRmsFinish o a epsilon d s
  | .smxTile o scores values n d operand triple fresh => Sys2Proof.Machine.execSmxTile o scores values n d operand triple fresh s
  | .smxMerge o a b d => Sys2Proof.Machine.execSmxMerge o a b d s
  | .smxFinish o a d => Sys2Proof.Machine.execSmxFinish o a d s
  | .rescale o acc count pair table rowPair d => Sys2Proof.Machine.execRescale o acc count pair table rowPair d s
  | .rowq o row fmt store codes pair => Sys2Proof.Machine.execRowq o row fmt store codes pair s
  | .kvConversion o src n fmt table dest => Sys2Proof.Machine.execKvConversion o src n fmt table dest s
  | .routeTopk o token x => Sys2Proof.Machine.execRouteTopk o token x s
  | .countReduce y layer => Sys2Proof.Machine.execCountReduce y layer s
  | .slotBuild y layer => Sys2Proof.Machine.execSlotBuild y layer s
  | .slotTableMulticast y layer => Sys2Proof.Machine.execSlotTableMulticast y layer s
  | .baseOffsetReturn y layer => Sys2Proof.Machine.execBaseOffsetReturn y layer s
  | .sendRecord o token kr row len area => Sys2Proof.Machine.execSendRecord o token kr row len area s
  | .returnRecord yard cluster core layer chan at0 area pos row width homeCore dest => Sys2Proof.Machine.execReturnRecord yard cluster core layer chan at0 area pos row width homeCore dest s
  | .expertStream yard layer lead which at0 => Sys2Proof.Machine.execExpertStream yard layer lead which at0 s
  | .wfence y cluster => Sys2Proof.Machine.execWfence y cluster s
  | .mark yard cluster ident at0 => Sys2Proof.Machine.execMark yard cluster ident at0 s
  | .clusterBarrier y => Sys2Proof.Machine.execClusterBarrier y s
  | .gradientPartial yard fn run tensor stall partials => Sys2Proof.Machine.execGradientPartial yard fn run tensor stall partials s
  | .tuneUpdate fn run => Sys2Proof.Machine.execTuneUpdate fn run s
  | .clusterHardFault yard cluster cause => Sys2Proof.Machine.execClusterHardFault yard cluster cause s
  | .sublinkLost yard link => Sys2Proof.Machine.execSublinkLost yard link s
  | .rowRepair r => Sys2Proof.Machine.execRowRepair r s
  | .channelLost yard near channel => Sys2Proof.Machine.execChannelLost yard near channel s
  | .channelRebuilt yard near x => Sys2Proof.Machine.execChannelRebuilt yard near x s
  | .phaseLost yard => Sys2Proof.Machine.execPhaseLost yard s
  | .cofferChannelLost channel => Sys2Proof.Machine.execCofferChannelLost channel s
  | .cxlPortLost port => Sys2Proof.Machine.execCxlPortLost port s
  | .shadowRehomed port => Sys2Proof.Machine.execShadowRehomed port s
  | .yardLost yard cause => Sys2Proof.Machine.execYardLost yard cause s
  | .reliefReady x => Sys2Proof.Machine.execReliefReady x s
  | .cpmRaise yard cluster code us => Sys2Proof.Machine.execCpmRaise yard cluster code us s
  | .cpmCritical yard cluster code => Sys2Proof.Machine.execCpmCritical yard cluster code s
  | .marginChanged yard grade proofs => Sys2Proof.Machine.execMarginChanged yard grade proofs s
  | .imageReady fn job data => Sys2Proof.Machine.execImageReady fn job data s
  | .planLoadComplete fn job data => Sys2Proof.Machine.execPlanLoadComplete fn job data s
  | .siteLinkTrained site repaired up => Sys2Proof.Machine.execSiteLinkTrained site repaired up s
  | .refclkReturn => Sys2Proof.Machine.execRefclkReturn s
  | .vinRange centivolts => Sys2Proof.Machine.execVinRange centivolts s
  | .meterFault now => Sys2Proof.Machine.execMeterFault now s
  | .leakNHigh => Sys2Proof.Machine.execLeakNHigh s

end Sys2Proof.Machine
end

