-- ==== Sys2Proof/Safety.lean ====
section
/-! DEFINITION. What a good state is and what the statements speak of: the RAM in its canonical form, no register field at an encoding
that the spec reserves, the packet of a command, the commands that touch one part of the state alone, and when an engine
instruction is ready. -/

namespace Sys2Proof.Machine

open Sys2Proof

/-- No RW field holds a reserved encoding (R12): HANG_LIMIT (R67), CEILING, the factors and the window of R142, the thresholds of R240, the
power caps (R475), LOG2I, MODE, SOURCE, SIZE and the wear index (16, 17). -/
def Cfg.ok (c : Cfg) : Bool :=
  decide (4 ≤ c.hangLimit) && decide (c.hangLimit ≤ 1024) && decide (c.ceiling ≤ 2) && decide (9 ≤ c.factorKv) && decide (9 ≤ c.factorAct) &&
    decide (64 ≤ c.window) && decide (c.low < c.high) && decide (128 ≤ c.decay) && decide (1500 ≤ c.powerCap) && decide (c.powerCap ≤ 4400) &&
    decide (1500 ≤ c.bmcCap) && decide (c.bmcCap ≤ 4400) && decide (12 ≤ c.log2i) && decide (c.log2i ≤ 24) && decide (c.mode ≤ 2) &&
    decide (c.trigSource ≤ 5) && decide (c.trigSource ≠ 1) && decide (c.streamSize ≤ 20) && decide (c.wearSel ≤ 16319)

/-- A good state. -/
def State.good (s : State) : Prop := s.dp.mem.wf = true ∧ s.cfg.ok = true

/-! ### Packets (R277, R278) -/

/-- The packet that a command of a queue comes in, and the right that its opcode asks for (R278 check 2, R285). -/
def packetOf : Instr → Option (Pkt × Right)
  | .sessionOpen p .. | .sessionAppend p .. | .sessionGenerate p .. | .sessionFork p .. | .sessionClose p | .prefixPin p ..
  | .prefixUnpin p .. | .graphStore p .. | .graphPatch p .. | .graphLaunch p .. | .graphDrop p | .jobSuspend p | .jobResume p
  | .jobCancel p | .jobQuery p .. | .imageInstall p .. | .imageRetire p | .tuneOpen p .. | .tuneStep p ..
  | .tuneSave p .. | .tuneClose p | .markBegin p .. | .markEnd p .. | .counterSnapshot p | .fence p .. => some (p, .any)
  | .imageActivate p _ tablesOnly scales scaleLen _ => some (activatePkt p tablesOnly scales scaleLen, .any)
  | .selftest p .. | .marginReplan p .. => some (p, .health)
  | .fnCreate p .. | .fnDestroy p .. | .fnSetShare p .. | .planLoad p .. | .planSelect p | .folioGet p .. | .ledgerConfig p .. =>
    some (p, .management)
  | _ => none

/-- A packet as it is fetched next, with its place in the order of fetching. -/
def cmdOf (s : State) (p : Pkt) : Cmd := ⟨p.fn, p.q, p.tag, p.irq, s.ctl.objs.orders⟩

/-- The device fetches the packet next: its function, as it stands before (`f`) and after (`g`) the fetch, the controls after it
(`d`), and no reserved bit of it set (R273, R278). -/
def Takes (s : State) (p : Pkt) (f : Fn) (d : Ctl) (g : Fn) : Prop :=
  s.ctl.fn? p.fn = some f ∧ s.ctl.fetchable f p.q = true ∧ p.rsvd = false ∧ d = s.ctl.fetch p.fn p.q ∧ d.fn? p.fn = some g

/-- The device fetches the packet next, it has no reserved bit set, and SUBJECT is the session `x`, which has not ended and does not
close. -/
def TakesFor (s : State) (p : Pkt) (f : Fn) (d : Ctl) (g : Fn) (x : Session) : Prop :=
  Takes s p f d g ∧ s.ctl.sessionAt f p.subject = some x ∧ x.ended = none ∧ x.closing = none

/-- The state with its controls changed and nothing else. -/
def State.withCtl (s : State) (c : Ctl) : State := { s with ctl := c }

/-- The state with its engines changed and nothing else. -/
def State.withDp (s : State) (d : Dp) : State := { s with dp := d }

/-- What a reset of the whole device leaves: the registers that hosts write at their reset values, memory and streams empty, and no
session, job, graph, plan or run. -/
def Cleared (t : State) : Prop :=
  t.cfg = {} ∧ t.dp.mem = [] ∧ t.dp.flights = [] ∧ t.ctl.objs.sessions = [] ∧ t.ctl.objs.jobs = [] ∧ t.ctl.objs.graphs = [] ∧
    t.ctl.objs.plans = [] ∧ t.ctl.objs.runs = []

/-- Two control sides that differ in the observation block and the functions' pending vectors alone: what the raising of an event may touch
beside its register (R320, R446, R454). -/
def SameBut (a b : Ctl) : Prop :=
  ∃ (d : Dbg) (p : Fn → NatSet), b = { a with dbg := d, fns := a.fns.map fun x => { x with irqPending := p x } }

/-- What a mailbox command leaves that completes (R374): its opcode, RESULT, PROGRESS and MBX_DONE with the further bits of its event, on the
controls `c`; the engines and every other register that hosts write stand. -/
def MbxDone (s t : State) (op : Byte) (status : BitVec 16) (bytes : Nat) (bits : BitVec 16) (c : Ctl) : Prop :=
  t.dp = s.dp ∧ t.cfg = { s.cfg with mbxOpcode := op } ∧
    SameBut (c.onSec fun x => { x with result := status, progress := bytes, event := x.event.raise (1#16 ||| bits) }) t.ctl

/-! ### Which part of the state a command may change -/

/-- The commands that the engines and streams carry out on their own stores and tables alone: they change neither a control nor a
register that hosts write. -/
def enginesOnly : Instr → Bool
  | .mxeDotProduct .. | .pairMerge .. | .accReadout .. | .add .. | .sub .. | .mul .. | .fma .. | .abs .. | .neg .. | .min ..
  | .max .. | .cmp .. | .sel .. | .cvt .. | .rsum .. | .rmax .. | .rmin .. | .welfordAcc .. | .welfordMerge .. | .varFinish ..
  | .ssqAcc .. | .ssqMerge .. | .rmsFinish .. | .smxTile .. | .smxMerge .. | .smxFinish .. | .rescale .. | .rowq ..
  | .kvConversion .. | .routeTopk .. | .countReduce .. | .slotBuild .. | .slotTableMulticast .. | .baseOffsetReturn ..
  | .sendRecord .. | .expertStream .. | .wfence .. | .clusterBarrier .. | .fxeEntryIssue .. | .fxeBlockArrival .. => true
  | _ => false

/-- The commands that change the engines or their stores. -/
def touchesEngines : Instr → Bool
  | .fwSupply .. | .i3cPrivateWrite .. | .deviceWarmReset .. | .registerWrite .. | .modEnLow | .modRstNLow | .inputTrip ..
  | .refclkLost | .leakOffExpiry | .thermalSample .. | .bell .. | .doneReport .. | .weightRestore .. | .kvRestore .. | .hubTimerPeriod ..
  | .admissionCutoff .. | .dumpDone .. | .flrTimeout .. | .epochLoaded .. | .fastRead .. | .shedRead .. | .sxeWrite ..
  | .appendScatterStep .. | .expanderBlock .. | .nmaLatent .. | .nmaGqa .. | .sfn .. | .returnRecord .. | .mark ..
  | .clusterHardFault .. | .rowRepair .. | .channelRebuilt .. | .cxlPortLost .. | .shadowRehomed .. | .reliefReady ..
  | .cpmCritical .. => true
  | i => enginesOnly i

/-- The commands that change a register which hosts write: the register writes themselves, the mailbox commands (MBX_CMD), a stopped host
stream (R445), and whatever brings a reset. -/
def touchesCfg : Instr → Bool
  | .fwSupply .. | .fwStage .. | .keyRegister .. | .keyRevoke | .keyRead .. | .chainRead .. | .i3cPrivateWrite ..
  | .deviceWarmReset .. | .journalArm .. | .streamEnable .. | .trig .. | .dumpFetch .. | .registerWrite .. | .modEnLow
  | .modRstNLow | .inputTrip .. | .refclkLost | .leakOffExpiry | .thermalSample .. | .streamRecordCopy .. | .dumpDone .. => true
  | _ => false

/-- The commands that a sequencer, the front end or the tick carries out: none of them happens on a frozen device (R450). -/
def frozenOut : Instr → Bool
  | .sfn .. | .sxeWrite .. | .appendScatterStep .. | .nmaLatent .. | .nmaGqa .. | .returnRecord .. | .mark .. | .gradientPartial ..
  | .tuneUpdate .. | .bell .. | .admissionCutoff .. | .doneReport .. | .weightRestore .. | .kvRestore .. => true
  | .fxeBlockArrival .. => false
  | i => enginesOnly i

/-! ### Engine instructions -/

/-- An engine instruction is ready: it issues (R19, R40), its cluster is not in fault mode (R379), and each of its needs has its data (R163) at
a place inside its store. `ls` are the places. -/
def Ready (s : State) (o : EngOp) (needs : List Need) (ls : List Loc) : Prop :=
  s.ctl.issues o.core.yard o.core.cluster.val o.at0 = true ∧ (s.ctl.seq o.core.yard o.core.cluster.val).faulty = false ∧
    List.Forall₂ (fun a l => (∃ mark, a.2 = SrcAt.place l mark) ∧ a.1.fits l = true) (needs.zip (s.dp.needsAt s.ctl o needs)) ls

/-- The first need of an instruction whose data are not there, by its consumer, and what it waits for (R163). -/
def State.waitOf (s : State) (o : EngOp) (needs : List Need) : Option (Consumer × Wait) :=
  (needs.zip (s.dp.needsAt s.ctl o needs)).findSome? fun a => (a.2.wait?).map fun w => (a.1.who, w)

/-- Whether an operand of an instruction carries poison (R170). -/
def State.marked (s : State) (o : EngOp) (needs : List Need) : Bool :=
  (needs.zip (s.dp.needsAt s.ctl o needs)).any fun a => s.dp.needPoison (s.ctl.core o.core) a.1 a.2

/-- The 32-bit word at an offset of the core store of an instruction's core. -/
def State.coreWord (s : State) (o : EngOp) (off : Nat) : Word := s.dp.word (coreKey (s.ctl.core o.core) off)

/-- An instruction changed the engines of its core alone: every control and register that hosts write is as it was. -/
def EnginesAlone (s t : State) : Prop := t.ctl = s.ctl ∧ t.cfg = s.cfg

/-- An instruction left every stream, statistics partial, routing table and generation as it was. -/
def StreamsStand (s t : State) : Prop :=
  t.dp.flights = s.dp.flights ∧ t.dp.wparts = s.dp.wparts ∧ t.dp.sparts = s.dp.sparts ∧ t.dp.routes = s.dp.routes ∧
    t.dp.unfenced = s.dp.unfenced ∧ t.dp.gens = s.dp.gens ∧ t.dp.commit = s.dp.commit ∧ t.dp.shedKeys = s.dp.shedKeys

/-- Memory after runs of bytes are written to a core's store. -/
def Mem.afterRuns (m : Mem) (core : Nat) (rs : List (Nat × List Byte)) : Mem :=
  rs.foldl (fun m r => m.writeN (coreKey core r.1) r.2) m

/-- What an instruction leaves that writes a converted run of `n` values to a destination (R82, R149): its bytes and no others, and every
control and stream as it was. -/
def RunWritten (s t : State) (o : EngOp) (d : Dst) (n : Nat) (w : Written) : Prop :=
  EnginesAlone s t ∧ StreamsStand s t ∧ t.dp.mem = s.dp.mem.afterRuns (s.ctl.core o.core) (dstRuns d n w)

/-- What an instruction of the lanes leaves: the results `r` written to a destination in its format (R82, R489), and the flags of the results
and of the write. -/
def LanesWritten (s t : State) (o : EngOp) (d : Dst) (r : List Word × ArithFlags) : Prop :=
  RunWritten s t o d r.1.length (convertOut d.fmt d.scale d.zero r.1) ∧
    t.dp.flags = ((s.dp.raiseFlags (s.ctl.core o.core) .vxe r.2).raiseFlags (s.ctl.core o.core) .vxe
      (convertOut d.fmt d.scale d.zero r.1).fl).flags

/-- The 32 lanes of an operand, from its place and its zero point's (R100). -/
def State.lanesAt (s : State) (o : EngOp) (x : Src) (l z : Loc) : List Word := s.dp.lanes (s.ctl.core o.core) l z x 32

/-- The elements of an operand, from its place and its zero point's (R86). -/
def State.elemsAt (s : State) (o : EngOp) (x : Src) (l z : Loc) (n : Nat) : List FNum := s.dp.elems (s.ctl.core o.core) l z x n

/-- Every byte of memory outside the given runs of keys reads as before. -/
def Dp.sameOutside (d e : Dp) (runs : List (Nat × Nat)) : Prop :=
  ∀ k, (∀ r ∈ runs, k < r.1 ∨ r.1 + r.2 ≤ k) → e.mem.read k = d.mem.read k

end Sys2Proof.Machine
end

