-- ==== Sys2Proof/Certificates/Slice0/Obligations.lean ====
section
/-! DEFINITION. The statements. -/

open Sys2Proof Sys2Proof.Machine

/-! ### The queue, the frame, the invariants, reset -/

/-- A step runs the command at the front of the queue on the state with the queue's rest; with no command waiting the block idles (the
model's choice, log entry 1). -/
def Obligations.StepRunsFront : Prop :=
  (∀ (c : Instr) (rest : List Instr) (s : State), step { s with pending := c :: rest } = exec c { s with pending := rest }) ∧
  ∀ s : State, s.pending = [] → step s = .next s

/-- No command changes the queue of waiting commands, whatever else it does.
The frame by parts of the state: what the engines and streams carry out on their own stores and tables leaves every control and every
register that hosts write; a command outside the list `touchesEngines` leaves every byte of memory and all engine state; and a
register that hosts write changes only by the commands of the list `touchesCfg`. -/
def Obligations.FrameOfParts : Prop :=
  (∀ (c : Instr) (s t : State), exec c s = .next t → t.pending = s.pending) ∧
  ((∀ (c : Instr) (s t : State), enginesOnly c = true → exec c s = .next t → t.ctl = s.ctl ∧ t.cfg = s.cfg) ∧
  (∀ (c : Instr) (s t : State), touchesEngines c = false → exec c s = .next t → t.dp = s.dp) ∧
  ∀ (c : Instr) (s t : State), touchesCfg c = false → exec c s = .next t → t.cfg = s.cfg)

/-- Every step keeps the RAM in its canonical form: addresses rise and no entry equals what an unlisted address reads as. -/
def Obligations.StepKeepsMemoryCanonical : Prop :=
  ∀ s t : State, s.dp.mem.wf = true → step s = .next t → t.dp.mem.wf = true

/-- Every step keeps every RW field of the registers at an encoding that the spec does not reserve. -/
def Obligations.StepKeepsLegalRegisters : Prop :=
  ∀ s t : State, s.cfg.ok = true → step s = .next t → t.cfg.ok = true

/-- The state after reset is good: memory canonical, no RW field at a reserved encoding, nothing waiting. -/
def Obligations.ResetIsGood : Prop := State.reset.good ∧ State.reset.pending = []

/-- After reset the hub registers hold the reset values of their tables (17): HUB_STATUS 0, HUB_EVENT 0, HUB_PLAN 0, HUB_TICK_LEN 0,
HUB_TICK_NUM 0, HUB_CONTRACT_LVL 1, HUB_HANG_LIMIT 64, HUB_GRADE 0, HUB_CFG_CTRL with CHECK_EN alone, and no event register holds
an event. -/
def Obligations.ResetReadsItsTables : Prop :=
  (∀ p ∈ [(0x4, 0#32), (0x8, 0#32), (0xC, 0#32), (0x14, 0#32), (0x20, 0#32), (0x28, 0#32), (0x2C, 0#32), (0x30, 0#32),
      (0x38, 1#32), (0x3C, 64#32), (0x40, 0#32), (0x100, 0x80000000#32)], barReg State.reset p.1 = p.2) ∧
  ∀ r : EvReg, (State.reset.ctl.ev r).word = 0#32

/-- A device that a hang has frozen runs nothing: every command of an engine, a sequencer, the front end and the tick leaves the whole
state as it is (R450). -/
def Obligations.FrozenDeviceRunsNothing : Prop :=
  ∀ (c : Instr) (s : State), frozenOut c = true → s.ctl.hub.halted = true → exec c s = .next s

/-! ### Packets and records (10) -/

/-- The first checks of every packet (R278): one that the device does not fetch next changes nothing; one whose opcode its function has no
right to completes with PERMISSION; one with a reserved bit set completes with BAD_PARAMETER. Beyond the fetch and that record
neither has any effect.
The 64 bytes of a packet (R277, R285) spell a command exactly where their opcode is defined; its function and queue are those it was fetched
from, its tag, SUBJECT and IRQ stand at bytes 2, 4 and 1, and a byte that its opcode gives no meaning counts as a set reserved bit. -/
def Obligations.PacketsPassTheFirstChecks : Prop :=
  (∀ (fn : BitVec 8) (q : Fin 4) (bs : List Byte) (h : HostData),
    (packetCommand fn q bs h = none ↔ pktLayout (Bits.leNat bs 0 1) false = none) ∧
    ∀ c, packetCommand fn q bs h = some c → ∃ p r l, packetOf c = some (p, r) ∧
      pktLayout (Bits.leNat bs 0 1) ((bs.getD 8 0#8).getLsbD 1) = some l ∧ p.fn = fn ∧ p.q = q ∧ p.tag.toNat = Bits.leNat bs 2 2 ∧
      p.subject.toNat = Bits.leNat bs 4 4 ∧ p.irq = (bs.getD 1 0#8).getLsbD 0 ∧
      ∀ i < 64, l.defined i = 0 → bs.getD i 0#8 ≠ 0#8 → p.rsvd = true) ∧
  ∀ (c : Instr) (p : Pkt) (r : Right) (s : State), packetOf c = some (p, r) →
    ((∀ f, s.ctl.fn? p.fn = some f → s.ctl.fetchable f p.q = false) → exec c s = .next s) ∧
    ∀ f, s.ctl.fn? p.fn = some f → s.ctl.fetchable f p.q = true →
      (s.ctl.holds f r = false →
        exec c s = .next (s.withCtl ((s.ctl.fetch p.fn p.q).finish (cmdOf s p) Status.permission 0#32 0))) ∧
      (s.ctl.holds f r = true → p.rsvd = true →
        exec c s = .next (s.withCtl ((s.ctl.fetch p.fn p.q).finish (cmdOf s p) Status.badParameter 0#32 0)))

/-- A completion record (R279) is 32 bytes with its fields at the offsets of the table; one whose queue's writer may write is written
into the next completion slot, the slot index advances around the ring and PHASE inverts at its end (R274); any other goes to
the holding area behind those held (R302). -/
def Obligations.RecordsAreWrittenOrHeld : Prop :=
  (∀ (r : Rec) (phase held : Bool), (recordOut r phase held).length = 32 ∧
    Bits.leNat (recordOut r phase held) 0 2 = r.tag.toNat ∧ Bits.leNat (recordOut r phase held) 2 2 = r.status.toNat ∧
    Bits.leNat (recordOut r phase held) 4 4 = r.handle.toNat ∧ Bits.leNat (recordOut r phase held) 8 5 = r.tick % 2 ^ 40 ∧
    Bits.leNat (recordOut r phase held) 13 1 =
      (if phase then 1 else 0) + (if held then 2 else 0) + (if r.tally.isNone then 4 else 0) ∧
    Bits.leNat (recordOut r phase held) 30 2 = r.result % 2 ^ 16) ∧
  ∀ (c : Ctl) (f : Fn) (q : Fin 4) (r : Rec), c.fn? f.num = some f → f.queues.length = 4 → r.job = none →
    ((c.writerOpen f q = true ∧ (f.queue q).held = []) →
      (c.post f.num q r).bus.writes = ⟨f.num, if (f.queue q).pasidEn then some (f.queue q).pasid else none,
        (f.queue q).cqBase + 32 * (f.queue q).cqTail, recordOut r (f.queue q).phase false⟩ :: c.bus.writes ∧
      ((c.post f.num q r).queueOf f.num q).cqTail = ((f.queue q).cqTail + 1) % ringSize (f.queue q).cqLog ∧
      ((c.post f.num q r).queueOf f.num q).phase =
        (if (f.queue q).cqTail + 1 = ringSize (f.queue q).cqLog then !(f.queue q).phase else (f.queue q).phase)) ∧
    ((c.writerOpen f q = false ∨ (f.queue q).held ≠ []) →
      (c.post f.num q r).bus = c.bus ∧ ((c.post f.num q r).queueOf f.num q).held = (f.queue q).held ++ [r])

/-- SESSION_OPEN whose parameters pass and whose name has a healthy current epoch that the selected plan names gets a handle and waits
for the bell (R286); bound there, it becomes a session of that epoch and completes with SUCCESS and its handle. -/
def Obligations.SessionOpenWaitsAndBinds : Prop :=
  (∀ (s : State) (p : Pkt) (name : BitVec 128) (adapter : Handle) (ring : RegionRef) (entries budget : Nat) (width : Byte)
      (f g h : Fn) (d : Ctl) (e : Epoch) (i : Image) (ix : Nat),
    Takes s p f d g → p.subject = 0#32 → (adapter = 0#32 ∨ (f.object .adapter adapter).isSome = true) → f.regionLive ring = true →
    ringEntriesOk entries = true → budgetOk budget = true → width.toNat ∈ [0, 1, 2, 4, 8] → f.ringOk ring entries = true →
    s.ctl.currentEpoch (s.ctl.versions p.fn name) = some e → s.ctl.image? e.image = some i →
    s.ctl.adapterSuits f adapter (some i) = true → i.st ≠ .damaged → s.ctl.planNames i = true → g.issueSelf .session = some (ix, h) →
    exec (.sessionOpen p name adapter ring entries budget width) s = .next (s.withCtl ((d.onFn p.fn fun _ => h).onObjs fun o =>
      { o with waiting := o.waiting ++ [⟨cmdOf s p, .open name adapter ring entries budget width.toNat ix⟩] }))) ∧
  ∀ (c : Ctl) (m : Cmd) (name : BitVec 128) (adapter : Handle) (ring : RegionRef) (entries budget width ix : Nat) (e : Epoch) (i : Image),
    c.currentEpoch (c.versions m.fn name) = some e → c.image? e.image = some i → i.st ≠ .damaged → c.planNames i = true →
    c.bindOpen ⟨m, .open name adapter ring entries budget width ix⟩ =
      (((c.dropWaiting m.order).onObjs fun o =>
          { o with sessions := o.sessions ++ [Session.fresh m ix e adapter ring entries budget width] }).useAdapter m.fn adapter
        (· + 1)).finish m Status.success (handleOf .session ix) 0

/-- A job is accepted with a handle of type 0x04 and stands in the job table with status JOB_ACCEPTED (R280); SESSION_APPEND and
SESSION_GENERATE whose parameters pass are accepted with their limits and join their session's commands in fetch order (R285,
R293). -/
def Obligations.SessionWorkIsAccepted : Prop :=
  (∀ (c : Ctl) (m : Cmd) (opcode : Nat) (subject : Handle) (kind : JobKind) (limit : Nat) (regions : List Handle) (req : Bool)
      (f g : Fn) (ix : Nat), c.fn? m.fn = some f → f.issueSelf .job = some (ix, g) →
    (c.acceptJob m opcode subject kind limit regions req).2 = some ix ∧
    (c.acceptJob m opcode subject kind limit regions req).1.objs.jobs =
      c.objs.jobs ++ [Job.fresh m ix opcode c.hub.tick subject kind limit regions req false]) ∧
  (∀ (s : State) (p : Pkt) (tokens : RegionRef) (count : Nat) (noPrefix : Bool) (ts : List Word) (f g h : Fn) (d : Ctl) (x : Session)
      (ix : Nat), TakesFor s p f d g x → f.regionLive tokens = true → 1 ≤ count → count < 2 ^ 32 → tokens.off % 4 = 0 →
    f.regionOk tokens (some (4 * count)) false = true → x.commands.length < 17 → g.issueSelf .job = some (ix, h) →
    exec (.sessionAppend p tokens count noPrefix (.ok ts)) s = .next (s.withCtl ((d.acceptJob (cmdOf s p) 0x11 p.subject
      (.append (ts.take count) 0 0 none noPrefix false false) count [tokens.handle] true).1.enqueue (cmdOf s p) ix p.subject))) ∧
  ∀ (s : State) (p : Pkt) (maxTokens : Nat) (temperature topP : Word) (topK nstop : Nat) (stops : List Word) (seed : Word)
      (f g h : Fn) (d : Ctl) (x : Session) (ix : Nat), TakesFor s p f d g x → 1 ≤ maxTokens → samplingOk temperature topP = true →
    topK ≤ 1024 → nstop ≤ 8 → s.ctl.hasToken x = true → x.commands.length < 17 → g.issueSelf .job = some (ix, h) →
    exec (.sessionGenerate p maxTokens temperature topP topK nstop stops seed) s = .next (s.withCtl ((d.acceptJob (cmdOf s p) 0x12
      p.subject (.generate maxTokens temperature topP topK (stops.take nstop) seed 0) maxTokens [] true).1.enqueue (cmdOf s p) ix
      p.subject))

/-- SESSION_FORK of a session whose jobs all rest takes a handle and its turn among the parent's commands, and makes the child as soon as no step of the parent is in flight (R291);
SESSION_CLOSE of an ended session with nothing left removes it and completes, and of any other marks it closing and ends its commands (R292). PREFIX_PIN and PREFIX_UNPIN count the blocks of the matching chain whose pins they change (R285). -/
def Obligations.SessionsForkCloseAndPin : Prop :=
  (∀ (s : State) (p : Pkt) (ring : RegionRef) (entries : Nat) (f g h : Fn) (d : Ctl) (x : Session) (ix : Nat),
    TakesFor s p f d g x → s.ctl.session? p.fn (ixOf p.subject) = some x → f.regionLive ring = true → ringEntriesOk entries = true →
    f.ringOk ring entries = true → s.ctl.sessionRuns x = false → x.commands.length < 17 → g.issueSelf .session = some (ix, h) →
    exec (.sessionFork p ring entries) s = .next (s.withCtl ((((d.onFn p.fn fun _ => h).setSession
        { x with commands := x.commands ++ [s.ctl.objs.orders] }).onObjs fun o =>
          { o with waiting := o.waiting ++ [⟨cmdOf s p, .fork p.subject ring entries ix⟩] }).tryFork
        ⟨cmdOf s p, .fork p.subject ring entries ix⟩))) ∧
  (∀ (s : State) (p : Pkt) (f g : Fn) (d : Ctl) (x : Session),
    Takes s p f d g → s.ctl.sessionAt f p.subject = some x → x.closing = none →
    exec (.sessionClose p) s = .next (s.withCtl (if x.ended.isSome = true ∧ x.map = [] ∧ x.inflight = 0
      then (d.removeSession x).finish (cmdOf s p) Status.success 0#32 0
      else (d.setSession { x with closing := some (cmdOf s p) }).endCommands x (x.ended.getD Status.cancelled)))) ∧
  ∀ (s : State) (p : Pkt) (tokens : RegionRef) (count : Nat) (ts : List Word) (f g : Fn) (d : Ctl) (x : Session),
    TakesFor s p f d g x → f.regionLive tokens = true → f.regionOk tokens (some (4 * count)) false = true →
    exec (.prefixPin p tokens count (.ok ts)) s =
      .next (s.withCtl ((d.pinChain (d.chain x none (ts.take count) (count / 64 + 1)) true).2.finish (cmdOf s p) Status.success
        (BitVec.ofNat 32 (d.pinChain (d.chain x none (ts.take count) (count / 64 + 1)) true).1) 0)) ∧
    exec (.prefixUnpin p tokens count (.ok ts)) s =
      .next (s.withCtl ((d.pinChain (d.chain x none (ts.take count) (count / 64 + 1)) false).2.finish (cmdOf s p) Status.success
        (BitVec.ofNat 32 (d.pinChain (d.chain x none (ts.take count) (count / 64 + 1)) false).1) 0))

/-- GRAPH_STORE and GRAPH_PATCH of a readable body complete with PERMISSION where its signatures fail, with BAD_PARAMETER where its plan
is not loaded, and else store version 1 under a new handle or, from the latest version and the patch, the next one (R296, R369); GRAPH_LAUNCH of
a launchable graph is accepted with its item count as limit, and bound where its first item is admitted, to the latest version then and the
names' current epochs, which counts as a launch of that version; GRAPH_DROP marks the graph dropped and completes. -/
def Obligations.GraphsAreStoredAndLaunched : Prop :=
  (∀ (s : State) (p : Pkt) (region : RegionRef) (length : Nat) (b : GraphBody) (f g h : Fn) (d : Ctl) (ix : Nat),
    Takes s p f d g → p.subject = 0#32 → f.regionLive region = true → f.graphRegionOk region length = true →
    g.issueSelf .graph = some (ix, h) →
    exec (.graphStore p region length (.ok (some b))) s = .next (s.withCtl (
      if d.signed 1 b.body b.sig = false then d.finish (cmdOf s p) Status.permission 0#32 0
      else if d.planLoaded b.plan = false then d.finish (cmdOf s p) Status.badParameter 0#32 0
      else ((d.onFn p.fn fun _ => h).onObjs fun o => { o with graphs := o.graphs ++ [⟨p.fn, ix, [⟨1, b, 0⟩], false⟩] }).finish
        (cmdOf s p) Status.success (handleOf .graph ix) 0))) ∧
  (∀ (s : State) (p : Pkt) (region : RegionRef) (length : Nat) (x : GraphPatch) (b : GraphBody) (f g : Fn) (d : Ctl) (gr : Graph) (v : GraphVer),
    Takes s p f d g → s.ctl.graphAt f p.subject = some gr → gr.latest = some v → f.regionLive region = true →
    f.graphRegionOk region length = true → b = patchedBody v.body x →
    exec (.graphPatch p region length (.ok (some x))) s = .next (s.withCtl (
      if d.signed 1 b.body b.sig = false then d.finish (cmdOf s p) Status.permission 0#32 0
      else if d.planLoaded b.plan = false then d.finish (cmdOf s p) Status.badParameter 0#32 0
      else ((d.setGraph { gr with versions := gr.versions ++ [⟨v.version + 1, b, 0⟩] }).sweepGraphs).finish (cmdOf s p)
        Status.success (BitVec.ofNat 32 (v.version + 1)) 0))) ∧
  (∀ (s : State) (p : Pkt) (input output : RegionRef) (adapter : Handle) (items : Nat) (f g h : Fn) (d : Ctl) (gr : Graph)
      (v : GraphVer) (ix : Nat),
    Takes s p f d g → s.ctl.graphAt f p.subject = some gr → gr.latest = some v → f.regionLive input = true →
    f.regionLive output = true → (adapter = 0#32 ∨ (f.object .adapter adapter).isSome = true) → 1 ≤ items →
    f.regionOk input none false = true → f.regionOk output none true = true → s.ctl.launchable f p.subject = true →
    g.issueSelf .job = some (ix, h) →
    exec (.graphLaunch p input output adapter items) s = .next (s.withCtl (d.acceptJob (cmdOf s p) 0x22 p.subject
      (.launch (ixOf p.subject) 0 items 0 [] adapter output) items [input.handle, output.handle] true).1)) ∧
  (∀ (c : Ctl) (j k : Job) (ix items n : Nat) (old eps : List (Nat × Nat)) (adapter : Handle) (output : RegionRef) (gr : Graph) (v : GraphVer),
    j.kind = .launch ix 0 items n old adapter output → c.objs.graphs.find? (fun x => x.fn = j.cmd.fn && x.ix = ix) = some gr →
    gr.latest = some v → c.bindNames j.cmd.fn v.body.images = some eps →
    k = { j with kind := .launch ix v.version items n eps adapter output } →
    c.bindLaunch j = some (k, (c.setJob k).onLaunches j.cmd.fn ix v.version (· + 1))) ∧
  ∀ (s : State) (p : Pkt) (f g : Fn) (d : Ctl) (gr : Graph), Takes s p f d g → s.ctl.graphAt f p.subject = some gr →
    exec (.graphDrop p) s =
      .next (s.withCtl (((d.setGraph { gr with dropped := true }).sweepGraphs).finish (cmdOf s p) Status.success 0#32 0))

/-- Commands on a host's job (R297): JOB_SUSPEND and JOB_CANCEL wait with the job for the bell, JOB_RESUME makes a suspended job eligible
and completes, and each completes with NO_EFFECT where the job's final status is decided or, suspending or resuming, its state is
already the one asked for. JOB_QUERY writes the record of the object it names into the result region and completes with its
length in 64-byte units (R299); of a session that has ended it completes with the status that ended it (R292). -/
def Obligations.JobCommandsComplete : Prop :=
  (∀ (s : State) (p : Pkt) (f g : Fn) (d : Ctl) (j : Job),
    Takes s p f d g → (f.object .job p.subject).isSome = true → s.ctl.job? p.fn (ixOf p.subject) = some j → j.device = false →
    exec (.jobSuspend p) s = .next (s.withCtl (if j.over = true ∨ j.st = .suspended
      then d.finish (cmdOf s p) Status.noEffect 0#32 0 else d.setJob { j with ops := j.ops ++ [(true, cmdOf s p)] })) ∧
    exec (.jobCancel p) s = .next (s.withCtl (if j.over = true
      then d.finish (cmdOf s p) Status.noEffect 0#32 0 else d.setJob { j with ops := j.ops ++ [(false, cmdOf s p)] })) ∧
    exec (.jobResume p) s = .next (s.withCtl (if j.over = true ∨ j.st ≠ .suspended
      then d.finish (cmdOf s p) Status.noEffect 0#32 0 else (d.setJob j.resume).finish (cmdOf s p) Status.success 0#32 0))) ∧
  ∀ (s : State) (p : Pkt) (result : RegionRef) (f g : Fn) (d : Ctl) (bs : List Byte) (r : Region),
    Takes s p f d g → s.ctl.queryOf f p.subject = some bs → f.region result.handle = some r → f.regionOk result none true = true →
    ((∀ ix x, f.object .session p.subject = some ix → s.ctl.session? f.num ix = some x → x.ended = none) →
      result.off + bs.length ≤ r.len → exec (.jobQuery p result (.ok ())) s =
        .next (s.withCtl ((d.hostWrite p.fn r.pasid (r.addr + result.off) bs).finish (cmdOf s p) Status.success 0#32
          (Bits.ceilDiv bs.length 64)))) ∧
    ∀ (ix : Nat) (x : Session) (st : BitVec 16) (write : HostRead Unit), f.object .session p.subject = some ix →
      s.ctl.session? f.num ix = some x → x.ended = some st →
      exec (.jobQuery p result write) s = .next (s.withCtl (d.finish (cmdOf s p) st 0#32 0))

/-- IMAGE_INSTALL whose regions pass is accepted and ends with PERMISSION where its manifest is no signed manifest, with the status of
R178 where the coffer or the tables have no room for it, and else holds the image table's entry and its handle (R178);
IMAGE_ACTIVATE of a READY image is accepted, ends with the status of its first step where that fails, and else takes its space or
waits for it (R199, R201); IMAGE_RETIRE of an image that no variant names leaves it RETIRING, ends its activations and completes
(R181). -/
def Obligations.ImageCommandsAreAccepted : Prop :=
  (∀ (s : State) (p : Pkt) (manifest records scales : RegionRef) (scaleLen : Nat) (bs : List Byte) (f g h : Fn) (d a : Ctl) (ix : Nat)
      (j : Job), Takes s p f d g → p.subject = 0#32 → f.regionLive manifest = true → f.regionLive records = true →
    f.regionLive scales = true → f.regionOk manifest none false = true → f.regionOk records none false = true →
    f.regionOk scales (some scaleLen) false = true → g.issueSelf .job = some (ix, h) →
    a = (d.acceptJob (cmdOf s p) 0x40 0#32 (.install 0 0 bs) 0 [manifest.handle, records.handle, scales.handle] false).1 →
    a.job? p.fn ix = some j →
    exec (.imageInstall p manifest records scales scaleLen (.ok bs)) s = .next (s.withCtl (
      match a.manifestOk bs with
      | none => a.finishJob j Status.permission 0#32 0
      | some mf => match a.reserveImage p.fn mf (sha384 (bs.take mf.cover)) scaleLen with
        | .inr st => a.finishJob j st 0#32 0
        | .inl x => x.2.2.setJob { j with kind := .install x.1 x.2.1 bs, limit := mf.stored }))) ∧
  (∀ (s : State) (p : Pkt) (cutover tablesOnly : Bool) (scales : RegionRef) (scaleLen : Nat) (data : HostRead (List Byte))
      (f g h : Fn) (d a : Ctl) (k ix : Nat) (i : Image) (j : Job),
    Takes s p f d g → f.object .image p.subject = some k → s.ctl.image? k = some i → i.st = .ready → s.ctl.activating i = false →
    (if tablesOnly = true then f.regionLive scales = true ∧ f.regionOk scales (some scaleLen) false = true
      else scales.handle = 0#32 ∧ scales.off = 0 ∧ scaleLen = 0) →
    g.issueSelf .job = some (ix, h) →
    a = (d.acceptJob (cmdOf s p) 0x41 p.subject (.activate i.ix cutover tablesOnly none none [] false false)
      (if tablesOnly then scaleLen else i.stored) (if tablesOnly then [scales.handle] else []) false).1 → a.job? p.fn ix = some j →
    exec (.imageActivate p cutover tablesOnly scales scaleLen data) s = .next (s.withCtl (
      match a.activateStart i tablesOnly data with
      | .inr st => a.finishJob j st 0#32 0
      | .inl x => (a.setJob { j with kind := JobKind.activate i.ix cutover tablesOnly none x.1 x.2 false false }).allocActivate
          { j with kind := JobKind.activate i.ix cutover tablesOnly none x.1 x.2 false false } true))) ∧
  ∀ (s : State) (p : Pkt) (f g : Fn) (d : Ctl) (k : Nat) (i : Image),
    Takes s p f d g → f.object .image p.subject = some k → s.ctl.image? k = some i →
    (∀ x ∈ s.ctl.objs.images, x.base ≠ some i.ix) → (i.st = .ready ∨ i.st = .damaged) →
    exec (.imageRetire p) s = .next (s.withCtl (((d.onImage i.ix fun x => { x with st := .retiring }).stopActivations i.ix
      Status.badState).finish (cmdOf s p) Status.success 0#32 0))

/-- TUNE_OPEN whose parameters pass on a name whose epoch the plan tunes is accepted, and with room in every yard's tuning region begins a
run at B_t = 1 and t = 0 from its start: an adapter, an imported record, or the initial values of R420 (R419); TUNE_STEP packs its examples
into chunks and joins the run's steps (R422, R429); TUNE_SAVE and TUNE_CLOSE wait with the run (R430, R432). -/
def Obligations.TuningCommandsAreAccepted : Prop :=
  (∀ (s : State) (p : Pkt) (name : BitVec 128) (adapter : Handle) (source : RegionRef) (rank : Nat) (b2 e1 e2 dd : Word)
      (data : HostRead (List Byte)) (f g h : Fn) (d a : Ctl) (pl : Plan) (e : Epoch) (i : Image) (ix : Nat) (j : Job)
      (v : List (List Word)),
    Takes s p f d g → p.subject = 0#32 → (adapter = 0#32 ∨ (f.object .adapter adapter).isSome = true) →
    1 ≤ rank → rank ≤ 256 → tuneParamsOk b2 e1 e2 dd = true → s.ctl.plan? = some pl → rankFits pl.paths rank = true →
    s.ctl.startSuits f adapter rank name = true → s.ctl.tuneEpoch p.fn name = some (e, i) → pl.paths ≠ [] → i.st ≠ .damaged →
    s.ctl.planNames i = true → g.issueSelf .job = some (ix, h) →
    a = (d.acceptJob (cmdOf s p) 0x50 0#32 .tuning 0 (if source.handle ≠ 0#32 then [source.handle] else []) false).1 →
    a.job? p.fn ix = some j →
    ((source.handle = 0#32 ∧ v = (match s.ctl.adapter? f adapter with
        | some x => x.tensors.map (·.x)
        | none => initialValues name pl.paths rank)) ∨
      (source.handle ≠ 0#32 ∧ adapter = 0#32 ∧ f.regionLive source = true ∧ f.regionOk source none false = true ∧
        ∃ bs, data = .ok bs ∧ importRecord pl.paths rank i.digest bs = some v)) →
    exec (.tuneOpen p name adapter source rank b2 e1 e2 dd data) s = .next (s.withCtl (
      if a.tuneRoom pl (allShapes pl.paths rank) = false then a.finishJob j Status.noSpace 0#32 0
      else a.onObjs fun o => { o with runs := o.runs ++
        [{ fn := p.fn, ix := j.ix, name := name, image := e.image, epoch := e.num, rank := rank, b2 := b2, e1 := e1, e2 := e2, d := dd
           bt := 0x3F800000#32, t := 0, tensors := (allShapes pl.paths rank).zipWith Tensor.fresh v, steps := [], closing := none }] }))) ∧
  (∀ (s : State) (p : Pkt) (region : RegionRef) (count : Nat) (rho : Word) (es : List Example) (f g : Fn) (d : Ctl) (r : Run) (pl : Plan),
    Takes s p f d g → (f.object .job p.subject).isSome = true → s.ctl.run? p.fn p.subject = some r → f.regionLive region = true →
    1 ≤ count → f.regionOk region (some (8 * count)) false = true → finite32 rho = true → FNum.le (FNum.ofInt 0) (num32 rho) = true →
    r.closing = none → r.steps.length < 17 → s.ctl.plan? = some pl → es.length = count → examplesOk es pl.tuneChunk = true →
    exec (.tuneStep p region count rho (.ok es)) s = .next (s.withCtl (d.setRun { r with steps := r.steps ++
      [{ cmd := cmdOf s p, subject := p.subject, count := count, rho := rho
         chunks := (packChunks pl.tuneChunk (exampleLengths es)).map fun n => ⟨n, none, []⟩, energy := 0, firstTick := none
         lastTick := none, status := none }] }))) ∧
  ∀ (s : State) (p : Pkt) (name : BitVec 128) (f g : Fn) (d : Ctl) (r : Run),
    Takes s p f d g → (f.object .job p.subject).isSome = true → s.ctl.run? p.fn p.subject = some r → r.closing = none →
    exec (.tuneSave p name) s = .next (s.withCtl (d.onObjs fun o =>
      { o with waiting := o.waiting ++ [⟨cmdOf s p, .tuneSave p.subject name⟩] })) ∧
    exec (.tuneClose p) s = .next (s.withCtl (d.setRun { r with closing := some (cmdOf s p) }))

/-- SELFTEST and MARGIN_REPLAN from a function with the HEALTH right are accepted as jobs, counting the cluster places of the rotation and
the yards of the mask (R285, R408, R409); MARK_BEGIN and MARK_END wait for the bell (R442); COUNTER_SNAPSHOT takes the device set for the management
function, its own set for any other, and completes (R436); FENCE holds its queue and waits for the packets before it (R301). -/
def Obligations.ServiceCommandsComplete : Prop :=
  (∀ (s : State) (p : Pkt) (mask : Byte) (kind : Nat) (report : RegionRef) (found : List TestFault) (f g : Fn) (d : Ctl),
    Takes s p f d g → s.ctl.holds f .health = true → p.subject = 0#32 → f.regionLive report = true → kind ≤ 2 →
    f.regionOk report none true = true →
    exec (.selftest p mask kind report found) s = .next (s.withCtl (d.acceptJob (cmdOf s p) 0x60 0#32 (.selftest mask kind report found)
      (if kind = 0 then 26 * ((List.finRange 8).flatMap fun k =>
        (List.range 10).filter fun r => mask.getLsbD k.val && (d.yd k).freeSpare r).length else 0) [report.handle] false).1)) ∧
  (∀ (s : State) (p : Pkt) (mask : Byte) (f g : Fn) (d : Ctl),
    Takes s p f d g → s.ctl.holds f .health = true → p.subject = 0#32 →
    exec (.marginReplan p mask) s = .next (s.withCtl (d.acceptJob (cmdOf s p) 0x61 0#32
      (.replan mask ((List.range 8).filter mask.getLsbD)) ((List.range 8).filter mask.getLsbD).length [] false).1)) ∧
  (∀ (s : State) (p : Pkt) (ident : Word) (f g : Fn) (d : Ctl), Takes s p f d g →
    (p.subject = 0#32 ∨ ∃ x, s.ctl.sessionAt f p.subject = some x ∧ x.ended = none ∧ x.closing = none) →
    exec (.markBegin p ident) s = .next (s.withCtl (d.onObjs fun o => { o with waiting := o.waiting ++
      [⟨cmdOf s p, .mark ident false (if p.subject = 0#32 then none else some p.subject)⟩] })) ∧
    exec (.markEnd p ident) s = .next (s.withCtl (d.onObjs fun o => { o with waiting := o.waiting ++
      [⟨cmdOf s p, .mark ident true (if p.subject = 0#32 then none else some p.subject)⟩] }))) ∧
  (∀ (s : State) (p : Pkt) (f g : Fn) (d : Ctl), Takes s p f d g → p.subject = 0#32 →
    exec (.counterSnapshot p) s = .next (s.withCtl ((if s.ctl.isMgmt p.fn = true then d.snapDevice else d.snapFn p.fn).finish
      (cmdOf s p) Status.success 0#32 0))) ∧
  ∀ (s : State) (p : Pkt) (mask : BitVec 4) (jobs : Bool) (f g : Fn) (d : Ctl), Takes s p f d g → p.subject = 0#32 →
    exec (.fence p mask jobs) s = .next (s.withCtl (((d.onQueue p.fn p.q fun y =>
        { y with fences := y.fences ++ [s.ctl.objs.orders] }).onObjs fun o =>
          { o with waiting := o.waiting ++ [⟨cmdOf s p, .fence mask jobs⟩] }).settle p.fn))

/-- The management function's commands: FN_CREATE with room binds the lowest free function number of the site with its quota, its HEALTH
right and a fresh shed key (R312, R313, R371); FN_DESTROY starts the disable sequence of a virtual function (R327); FN_SET_SHARE keeps the share and
caps for the next cut-off (R322); PLAN_LOAD is accepted and ends with PERMISSION or NO_SPACE where the body is no plan or no place is
left (R48); PLAN_SELECT leaves a switch waiting for the pipeline to drain (R52); FOLIO_GET writes a retrievable folio (R354) and
LEDGER_CONFIG takes a period for the next folio (R346). -/
def Obligations.ManagementCommandsComplete : Prop :=
  (∀ (s : State) (p : Pkt) (site : Nat) (health : Bool) (quota : Nat) (f g : Fn) (d : Ctl) (n : BitVec 8),
    Takes s p f d g → s.ctl.isMgmt p.fn = true → p.subject = 0#32 → site < 2 → 4096 ≤ quota → quota ≤ 2 ^ 24 →
    s.ctl.siteResetting site = false → (s.ctl.site site).link = .active → (s.ctl.site site).vfEnable = true →
    s.ctl.freeNumber site = some n → (s.ctl.fns.map (·.quota)).sum + quota ≤ 2 ^ 28 →
    exec (.fnCreate p site health quota) s = .next (s.withCtl ((Ctl.mk d.yards d.free d.hub d.fe
        (d.fns ++ [Fn.created n false site health quota s.ctl.sec.keyNext]) d.objs d.ldg
        { d.sec with keyNext := s.ctl.sec.keyNext + 1 } d.cof d.cxl d.pwr d.dbg d.prs d.bus d.xlats).finish (cmdOf s p) Status.success
        (n.zeroExtend 32) 0))) ∧
  (∀ (s : State) (p : Pkt) (number : Nat) (result : RegionRef) (f g v : Fn) (d : Ctl),
    Takes s p f d g → s.ctl.isMgmt p.fn = true → p.subject = 0#32 →
    (result.handle ≠ 0#32 → f.regionLive result = true ∧ f.regionOk result none true = true) → number < 256 →
    s.ctl.fn? (BitVec.ofNat 8 number) = some v → v.physical = false → v.disable = none → s.ctl.siteResetting v.site = false →
    exec (.fnDestroy p number result) s = .next (s.withCtl (d.startDisable (BitVec.ofNat 8 number) true (some (cmdOf s p))
      (if result.handle ≠ 0#32 then some result else none)))) ∧
  (∀ (s : State) (p : Pkt) (number share tokenCap energyCap : Nat) (f g v : Fn) (d : Ctl),
    Takes s p f d g → s.ctl.isMgmt p.fn = true → p.subject = 0#32 → number < 256 → s.ctl.fn? (BitVec.ofNat 8 number) = some v →
    ((s.ctl.fns.filter (·.num ≠ BitVec.ofNat 8 number)).map Fn.shareDue).sum + share ≤ 1024 → v.disable = none →
    s.ctl.siteResetting v.site = false →
    exec (.fnSetShare p number share tokenCap energyCap) s = .next (s.withCtl ((d.onFn (BitVec.ofNat 8 number) fun x =>
      { x with shareNext := some (share, tokenCap, energyCap) }).finish (cmdOf s p) Status.success 0#32 0))) ∧
  (∀ (s : State) (p : Pkt) (region : RegionRef) (length : Nat) (name : Option (BitVec 128)) (f g h : Fn) (d a : Ctl) (ix : Nat) (j : Job),
    Takes s p f d g → s.ctl.isMgmt p.fn = true → p.subject = 0#32 → f.regionLive region = true → length < 2 ^ 32 →
    f.regionOk region (some length) false = true → g.issueSelf .job = some (ix, h) →
    a = (d.acceptJob (cmdOf s p) 0x88 0#32 (.planLoad (name.getD 0#128) length) length [region.handle] false).1 →
    a.job? p.fn ix = some j →
    exec (.planLoad p region length (.ok name)) s = .next (s.withCtl (match name with
      | none => a.finishJob j Status.permission 0#32 0
      | some n => if a.planRoom n = true then a else a.finishJob j Status.noSpace 0#32 0))) ∧
  (∀ (s : State) (p : Pkt) (f g : Fn) (d : Ctl) (l : Option Loaded),
    Takes s p f d g → s.ctl.isMgmt p.fn = true → (p.subject = 0#32 ∧ l = none ∨
      p.subject ≠ 0#32 ∧ s.ctl.planAt f p.subject = l ∧ l.isSome = true ∧ s.ctl.yardsOut.length ≤ 1) →
    s.ctl.fe.switch = none → s.ctl.ldg.ready = true →
    exec (.planSelect p) s = .next (s.withCtl (d.onFe fun x => { x with switch := some ⟨l.map (·.ix), cmdOf s p, false⟩ }))) ∧
  (∀ (s : State) (p : Pkt) (folio : Nat) (result : RegionRef) (length : Nat) (f g : Fn) (d : Ctl) (bs : List Byte) (r : Region),
    Takes s p f d g → s.ctl.isMgmt p.fn = true → p.subject = 0#32 → f.region result.handle = some r →
    f.regionOk result none true = true → s.ctl.folioBytes folio length = some bs → result.off + bs.length ≤ r.len →
    exec (.folioGet p folio result length (.ok ())) s = .next (s.withCtl ((d.hostWrite p.fn r.pasid (r.addr + result.off) bs).finish
      (cmdOf s p) Status.success 0#32 (Bits.ceilDiv bs.length 64)))) ∧
  ∀ (s : State) (p : Pkt) (period : Nat) (f g : Fn) (d : Ctl),
    Takes s p f d g → s.ctl.isMgmt p.fn = true → p.subject = 0#32 → 250 ≤ period → period ≤ 60000 →
    exec (.ledgerConfig p period) s = .next (s.withCtl ((d.onLdg fun l => { l with nextPeriod := period }).finish (cmdOf s p)
      Status.success 0#32 0))

/-! ### The security mailbox, DOE, I3C and PMBus (11, 13, 18) -/

/-- The mailbox (R374): while it is busy or the ROM runs, every one of its commands leaves the whole state as it is; in a state that the table of R375
does not allow a command completes with BAD_STATE, with a buffer shorter than it needs with BAD_PARAMETER, and with a buffer that fails
translation with TRANSLATION. Each completion leaves RESULT and raises MBX_DONE.
The mailbox commands in the state that allows them with a buffer that is long enough (R362, R363, R367, R368, R375): KEY_REVOKE frees the
slot ARG names, KEY_REGISTER fills an empty one with a new key pair where the keys are well formed, completes with BAD_PARAMETER where they are
not, and with BAD_STATE where the slot is occupied or a slot holds the same keys; KEY_READ and CHAIN_READ write the key table and the certificates
into the buffer, FW_STAGE programs the firmware region with an image that passes its check, and FW_SUPPLY does so and warm resets the device, or
keeps the cause of the failed check; a buffer that ends before the image that its header announces is too short. -/
def Obligations.MailboxFollowsItsRules : Prop :=
  ∀ s : State,
  (∀ (image : HostRead (Option FwImage)) (programmed : Bool) (keys : HostRead (List Byte)) (write : HostRead Unit),
    ((s.ctl.sec.busy = true ∨ s.ctl.sec.st = .boot) → ∀ c ∈ [Instr.fwSupply image, .fwStage image programmed, .keyRegister keys, .keyRevoke,
      .keyRead write, .chainRead write], exec c s = .next s) ∧
    (s.ctl.sec.busy = false → s.ctl.sec.st ≠ .boot →
      (∀ x ∈ [(Instr.fwSupply image, 0x01#8, SecSt.recoveryWait, 4096), (.fwStage image programmed, 0x02#8, .running, 4096),
          (.keyRegister keys, 0x10#8, .running, 157), (.keyRevoke, 0x11#8, .running, 0), (.keyRead write, 0x12#8, .running, 3328)],
        (s.ctl.sec.st ≠ x.2.2.1 → ∃ t, exec x.1 s = .next t ∧ MbxDone s t x.2.1 Status.badState 0 0#16 s.ctl) ∧
        (s.ctl.sec.st = x.2.2.1 → s.cfg.mbxLen < x.2.2.2 →
          ∃ t, exec x.1 s = .next t ∧ MbxDone s t x.2.1 Status.badParameter 0 0#16 s.ctl)) ∧
      (s.cfg.mbxLen < 8192 → ∃ t, exec (.chainRead write) s = .next t ∧ MbxDone s t 0x20#8 Status.badParameter 0 0#16 s.ctl) ∧
      ∀ x ∈ [(Instr.fwSupply .xlat, 0x01#8, some SecSt.recoveryWait, 4096), (.fwStage .xlat programmed, 0x02#8, some .running, 4096),
          (.keyRegister .xlat, 0x10#8, some .running, 157), (.keyRead .xlat, 0x12#8, some .running, 3328), (.chainRead .xlat, 0x20#8, none, 8192)],
        (∀ st, x.2.2.1 = some st → s.ctl.sec.st = st) → x.2.2.2 ≤ s.cfg.mbxLen →
        ∃ t, exec x.1 s = .next t ∧ MbxDone s t x.2.1 Status.translation 0 0#16 s.ctl)) ∧
  (s.ctl.sec.busy = false → s.ctl.sec.st = .running →
    (∃ t, exec .keyRevoke s = .next t ∧ MbxDone s t 0x11#8 Status.success 0 8#16
      (s.ctl.keepKeys { s.cfg with mbxOpcode := 0x11#8 } (s.ctl.sec.keys.set (Bits.field s.cfg.mbxArg 3 0) none)) ∧
      t.ctl.sec.keys = s.ctl.sec.keys.set (Bits.field s.cfg.mbxArg 3 0) none) ∧
    (∀ bs : List Byte, 157 ≤ s.cfg.mbxLen → 157 ≤ bs.length →
      (keysWellFormed (bs.take 157) = false →
        ∃ t, exec (.keyRegister (.ok bs)) s = .next t ∧ MbxDone s t 0x10#8 Status.badParameter 0 0#16 s.ctl) ∧
      (keysWellFormed (bs.take 157) = true →
        (s.ctl.sec.keys.getD (Bits.field s.cfg.mbxArg 3 0) none ≠ none ∨ ∃ k ∈ s.ctl.sec.keys.filterMap id, k.keyId = sha384 (bs.take 157)) →
        ∃ t, exec (.keyRegister (.ok bs)) s = .next t ∧ MbxDone s t 0x10#8 Status.badState 0 0#16 s.ctl) ∧
      ∀ ks, keysWellFormed (bs.take 157) = true → s.ctl.sec.keys.getD (Bits.field s.cfg.mbxArg 3 0) none = none →
        (∀ k ∈ s.ctl.sec.keys.filterMap id, k.keyId ≠ sha384 (bs.take 157)) →
        ks = s.ctl.sec.keys.set (Bits.field s.cfg.mbxArg 3 0)
          (some ⟨sha384 (bs.take 157), bs.take 97, (bs.take 157).drop 97, Bits.field s.cfg.mbxArg 9 8⟩) →
        ∃ t, exec (.keyRegister (.ok bs)) s = .next t ∧
          MbxDone s t 0x10#8 Status.success 157 8#16 (s.ctl.keepKeys { s.cfg with mbxOpcode := 0x10#8 } ks) ∧ t.ctl.sec.keys = ks) ∧
    (3328 ≤ s.cfg.mbxLen → ∃ t, exec (.keyRead (.ok ())) s = .next t ∧ MbxDone s t 0x12#8 Status.success
      (tableBytes s.ctl.sec.keys).length 0#16 (s.ctl.hostWrite s.ctl.mgmt none s.cfg.mbxAddr (tableBytes s.ctl.sec.keys))) ∧
    ∀ (given : Option FwImage) (programmed : Bool), 4096 ≤ s.cfg.mbxLen →
      (suppliedImage s.cfg.mbxLen (.ok given) = .past →
        ∃ t, exec (.fwStage (.ok given) programmed) s = .next t ∧ MbxDone s t 0x02#8 Status.badParameter 0 0#16 s.ctl) ∧
      ∀ i, suppliedImage s.cfg.mbxLen (.ok given) = .ok i → ∃ t, exec (.fwStage (.ok given) programmed) s = .next t ∧
      (if s.ctl.supplyCause i ≠ 0 then MbxDone s t 0x02#8 (causeStatus (s.ctl.supplyCause i)) 4096 4#16 s.ctl
       else if programmed = true then MbxDone s t 0x02#8 Status.success s.cfg.mbxLen 2#16
         (s.ctl.onCof fun k => { k with region := some i, fwWithout := k.lost })
       else MbxDone s t 0x02#8 Config.stageStatus s.cfg.mbxLen 0#16 (s.ctl.onCof fun k => { k with region := some none }))) ∧
  (s.ctl.sec.busy = false → s.ctl.sec.st ≠ .boot → 8192 ≤ s.cfg.mbxLen → ∃ t n, exec (.chainRead (.ok ())) s = .next t ∧
    MbxDone s t 0x20#8 Status.success n 0#16
      (s.ctl.hostWrite s.ctl.mgmt none s.cfg.mbxAddr (identityCertificate ++ ledgerCertificate))) ∧
  (s.ctl.sec.busy = false → s.ctl.sec.st = .recoveryWait → 4096 ≤ s.cfg.mbxLen → ∀ given : Option FwImage,
    (suppliedImage s.cfg.mbxLen (.ok given) = .past →
      ∃ t, exec (.fwSupply (.ok given)) s = .next t ∧ MbxDone s t 0x01#8 Status.badParameter 0 0#16 s.ctl) ∧
    ∀ i, suppliedImage s.cfg.mbxLen (.ok given) = .ok i → ∃ t, exec (.fwSupply (.ok given)) s = .next t ∧
      (if s.ctl.supplyCause i = 0
        then t = warmReset (s.withCtl (s.ctl.onCof fun k => { k with region := some i, fwWithout := k.lost })) noMeter
        else MbxDone s t 0x01#8 (causeStatus (s.ctl.supplyCause i)) 4096 4#16 (s.ctl.onSec fun x => { x with cause := s.ctl.supplyCause i })))

/-- DOE and SPDM (R333, R372, R373): a physical function answers once the ROM has run, each request with the bytes given, and nothing else
of the device changes; any other function does not answer. The encodings of SPDM's bodies are the model's free values (log entry
3). -/
def Obligations.DoeAnswersAndChangesNothingElse : Prop :=
  ∀ (s : State) (fn : BitVec 8),
    (s.ctl.doe fn = true →
      (∀ index, exec (.doeDiscovery fn index) s = .next (s.withCtl (s.ctl.answer (if index = 0#8 then [1#8, 0#8, 0#8, 1#8]
        else if index = 1#8 then [1#8, 0#8, 1#8, 0#8] else [0xFF#8, 0xFF#8, 0#8, 0#8])))) ∧
      exec (.getVersion fn) s = .next (s.withCtl (s.ctl.answer (Config.spdmBody 0x04 []))) ∧
      (∀ body, exec (.getCapabilities fn body) s = .next (s.withCtl (s.ctl.answer (Config.spdmBody 0x61 body)))) ∧
      (∀ ecdsa sha body, exec (.negotiateAlgorithms fn ecdsa sha body) s = .next (s.withCtl (s.ctl.answer
        (if ecdsa = true ∧ sha = true then Config.spdmBody 0x63 body else spdmError)))) ∧
      exec (.getDigests fn) s = .next (s.withCtl (s.ctl.answer (Config.spdmBody 0x01 (digestBytes (sha384 Config.x509Chain))))) ∧
      (∀ off length, exec (.getCertificate fn 0 off length) s = .next (s.withCtl (s.ctl.answer
        (if off < Config.x509Chain.length then Config.spdmBody 0x02 ((Config.x509Chain.drop off).take length) else spdmError)))) ∧
      (∀ slot off length, slot ≠ 0 → exec (.getCertificate fn slot off length) s = .next (s.withCtl (s.ctl.answer spdmError))) ∧
      (∀ slot nonce, exec (.challenge fn slot nonce) s = .next (s.withCtl (s.ctl.answer (if slot = 0
        then Config.spdmBody 0x03 (digestBytes (sha384 Config.x509Chain) ++ nonce ++
          Config.identityEcdsaSign (digestBytes (sha384 Config.x509Chain) ++ nonce)) else spdmError)))) ∧
      ∀ (i : Byte) (nonce : List Byte),
        (∀ bs, s.ctl.measurements i.toNat = some bs →
          exec (.getMeasurements fn i false nonce) s = .next (s.withCtl (s.ctl.answer (Config.spdmBody 0x60 bs))) ∧
          exec (.getMeasurements fn i true nonce) s = .next (s.withCtl (s.ctl.answer (Config.spdmBody 0x60
            (bs ++ nonce ++ Config.identityEcdsaSign (bs ++ nonce)))))) ∧
        (s.ctl.measurements i.toNat = none → ∀ b, exec (.getMeasurements fn i b nonce) s = .next (s.withCtl (s.ctl.answer spdmError)))) ∧
    (s.ctl.doe fn = false → ∀ (index i : Byte) (body nonce : List Byte) (x y : Bool) (slot off length : Nat),
      ∀ c ∈ [Instr.doeDiscovery fn index, .getVersion fn, .getCapabilities fn body, .negotiateAlgorithms fn x y body, .getDigests fn,
        .getCertificate fn slot off length, .challenge fn slot nonce, .getMeasurements fn i x nonce], exec c s = .next s)

/-- The I3C target (R480): with power and at its address a private write takes the offset, a following read answers the four bytes of a
readable register there and zero elsewhere, and a write of PWR_BMC_CAP in range takes effect; at another address, or without power, a
transfer is not acknowledged and changes nothing. SETDASA and ENTDAA give a dynamic address to a target that has none.
The PMBus target (R481): with power each read command answers its register and nothing else changes, and CLEAR_FAULTS clears CML and every
status bit whose cause has ended; without power no command is acknowledged. The places of the status bits and the exponents of
LINEAR11 are the model's own (log entries 5 and 6). -/
def Obligations.BusTargetsAnswer : Prop :=
  ((∀ (s : State) (off v : Word), s.ctl.pwr.st ≠ .off →
    (∃ t, exec (.i3cPrivateWrite s.ctl.pwr.i3cAddr off none) s = .next t ∧ t.ctl.pwr = { s.ctl.pwr with i3cOff := off.toNat } ∧
      t.ctl.bus = { s.ctl.bus with nack := false } ∧ t.cfg = s.cfg ∧ t.dp = s.dp) ∧
    (∃ t, exec (.i3cPrivateWrite s.ctl.pwr.i3cAddr 0x60000C#32 (some v)) s = .next t ∧ t.cfg.bmcCap =
      (if 1500 ≤ Bits.field v 15 0 ∧ Bits.field v 15 0 ≤ 4400 then Bits.field v 15 0 else s.cfg.bmcCap) ∧ t.dp = s.dp) ∧
    exec (.i3cPrivateRead s.ctl.pwr.i3cAddr) s = .next (s.withCtl (s.ctl.answer (Bits.toLe
      (if i3cReadable s.ctl.pwr.st s.ctl.pwr.i3cOff = true then barReg s s.ctl.pwr.i3cOff else 0#32).toNat 4)))) ∧
  (∀ (s : State) (a : BitVec 7) (off : Word) (v : Option Word), (a ≠ s.ctl.pwr.i3cAddr ∨ s.ctl.pwr.st = .off) →
    exec (.i3cPrivateWrite a off v) s = .next (s.withCtl (s.ctl.onBus fun b => { b with nack := true })) ∧
    exec (.i3cPrivateRead a) s = .next (s.withCtl (s.ctl.onBus fun b => { b with nack := true }))) ∧
  ∀ (s : State) (a : BitVec 7), s.ctl.pwr.st ≠ .off → s.ctl.pwr.i3cAddr = 0x4A#7 →
    (∃ t, exec (.setdasa 0x4A#7 a) s = .next t ∧ t.ctl.pwr = { s.ctl.pwr with i3cAddr := a } ∧ t.dp = s.dp ∧ t.cfg = s.cfg) ∧
    ∃ t, exec (.entdaa a) s = .next t ∧ t.ctl.pwr = { s.ctl.pwr with i3cAddr := a } ∧ t.dp = s.dp ∧ t.cfg = s.cfg) ∧
  (∀ s : State, (s.ctl.pwr.st ≠ .off →
      exec .statusWord s = .next (s.withCtl (s.ctl.answer (Bits.toLe s.ctl.pwr.statusWord.toNat 2))) ∧
      exec .statusInput s = .next (s.withCtl (s.ctl.answer [s.ctl.pwr.statusInput])) ∧
      exec .statusTemperature s = .next (s.withCtl (s.ctl.answer [s.ctl.pwr.statusTemp])) ∧
      exec .readVin s = .next (s.withCtl (s.ctl.answer (Bits.toLe (linear11 0x88 s.ctl.pwr.vin 100).toNat 2))) ∧
      exec .readIin s = .next (s.withCtl (s.ctl.answer (Bits.toLe (linear11 0x89 s.ctl.pwr.iin 100).toNat 2))) ∧
      exec .readPin s = .next (s.withCtl (s.ctl.answer (Bits.toLe (linear11 0x97 s.ctl.pwr.pin 1).toNat 2))) ∧
      exec .readTemperature1 s = .next (s.withCtl (s.ctl.answer (Bits.toLe
        (linear11 0x8D ((s.ctl.pwr.temps.map (·.inlet.avg)).getD 0) 1).toNat 2))) ∧
      exec .readTemperature2 s = .next (s.withCtl (s.ctl.answer (Bits.toLe
        (linear11 0x8E ((s.ctl.pwr.temps.map Temps.hottest).getD 0) 1).toNat 2))) ∧
      exec .pmbusRevision s = .next (s.withCtl (s.ctl.answer [0x44#8])) ∧
      exec .mfrId s = .next (s.withCtl (s.ctl.answer [6#8, 0x4F#8, 0x52#8, 0x4F#8, 0x53#8, 0x45#8, 0x54#8])) ∧
      ∃ t, exec .clearFaults s = .next t ∧ t.dp = s.dp ∧ t.cfg = s.cfg ∧ t.ctl.pwr.cml = false ∧
        (4200 ≤ s.ctl.pwr.vin → s.ctl.pwr.vin ≤ 5800 → t.ctl.pwr.statusInput = 0#8) ∧
        (s.ctl.pwr.warned = false → s.ctl.pwr.critical = false → t.ctl.pwr.statusTemp = 0#8) ∧
        (s.ctl.pwr.trip = 0 → t.ctl.pwr.offBit = false) ∧ t.ctl.pwr.trip = s.ctl.pwr.trip ∧ t.ctl.pwr.st = s.ctl.pwr.st) ∧
    (s.ctl.pwr.st = .off → ∀ c ∈ [Instr.statusWord, .statusInput, .statusTemperature, .readVin, .readIin, .readPin, .readTemperature1,
      .readTemperature2, .pmbusRevision, .mfrId, .clearFaults], exec c s = .next (s.withCtl (s.ctl.onBus fun b => { b with nack := true }))))

/-! ### Register writes of the host: queues, regions, events, the configuration, observation (10, 16, 17) -/

/-- The register actions of a queue of a served function: a doorbell below the ring size of an enabled queue becomes the tail and any other
changes nothing (R273), and a packet of an undefined opcode that the doorbell's fetch meets completes with BAD_OPCODE (R278); a rising ENABLE starts the
indices and PHASE afresh and lets held records out (R274, R490); ENABLE falls alone (R490); RESET clears the queue and leaves it disabled, its jobs to end at the
bell (R305); a completion head below the ring size is taken and lets held records out (R274, R302); Q_RESUME restarts the writer and
the fetching and writes what is held (R303, R288). -/
def Obligations.QueueRegistersAct : Prop :=
  ∀ (s : State) (fn : BitVec 8) (q : Fin 4), s.ctl.served fn = true →
    (∀ (tail : BitVec 16) (fetched : List (List Byte)), (∀ bs ∈ fetched, pktLayout (Bits.leNat bs 0 1) false ≠ none) →
      ∃ t, exec (.qDoorbell fn q tail fetched) s = .next t ∧ t.dp = s.dp ∧ t.cfg = s.cfg ∧ t.ctl.objs = s.ctl.objs ∧
      ∀ f, s.ctl.fn? fn = some f → f.queues.length = 4 → t.ctl.queueOf fn q =
        if (f.queue q).enabled = true ∧ tail.toNat < 2 ^ (f.queue q).sqLog then { f.queue q with tail := tail.toNat } else f.queue q) ∧
    (∀ (tail : BitVec 16) (bs : List Byte) (f : Fn), (s.ctl.doorbell fn q tail.toNat).fn? fn = some f →
      (s.ctl.doorbell fn q tail.toNat).fetchable f q = true → pktLayout (Bits.leNat bs 0 1) false = none →
      exec (.qDoorbell fn q tail [bs]) s = .next (s.withCtl (((s.ctl.doorbell fn q tail.toNat).fetch fn q).finish
        ⟨fn, q, BitVec.ofNat 16 (Bits.leNat bs 2 2), (bs.getD 1 0#8).getLsbD 0, s.ctl.objs.orders⟩ Status.badOpcode 0#32 0))) ∧
    (∀ (tail : BitVec 16) (fetched : List (List Byte)), exec (.qDoorbell fn q tail fetched) s =
      .next (s.withCtl ((undefOf fetched).foldl (fun c u => c.undefPacket fn q u) (s.ctl.doorbell fn q tail.toNat)))) ∧
    ((s.ctl.queueOf fn q).enabled = false → (s.ctl.queueOf fn q).resetting = false →
      exec (.queueEnable fn q) s = .next (s.withCtl ((s.ctl.onQueue fn q fun y => { y with
        enabled := true, tail := 0, fetch := 0, cqTail := 0, head := 0, phase := true, stopped := false, sqFault := false
        recent := [] }).drain fn q))) ∧
    exec (.queueDisable fn q) s = .next (s.withCtl (s.ctl.onQueue fn q fun y => { y with enabled := false })) ∧
    (∃ t, exec (.queueReset fn q) s = .next t ∧ t.dp = s.dp ∧ t.cfg = s.cfg ∧ ∀ f, s.ctl.fn? fn = some f → f.queues.length = 4 →
      (t.ctl.queueOf fn q).enabled = false ∧ (t.ctl.queueOf fn q).sqBase = 0 ∧ (t.ctl.queueOf fn q).cqBase = 0 ∧
      (t.ctl.queueOf fn q).tail = 0 ∧ (t.ctl.queueOf fn q).fetch = 0 ∧ (t.ctl.queueOf fn q).cqTail = 0 ∧
      (t.ctl.queueOf fn q).head = 0 ∧ (t.ctl.queueOf fn q).held = [] ∧ (t.ctl.queueOf fn q).fences = [] ∧
      (t.ctl.queueOf fn q).resetting = true ∧ (t.ctl.queueOf fn q).since = s.ctl.objs.orders) ∧
    (∀ head : BitVec 16, exec (.qCqHead fn q head) s = .next (s.withCtl ((s.ctl.onQueue fn q fun y =>
      if head.toNat < 2 ^ y.cqLog then { y with head := head.toNat } else y).drain fn q))) ∧
    exec (.qResume fn q) s = .next (s.withCtl
      ((((s.ctl.onQueue fn q fun y => { y with stopped := false, sqFault := false }).drain fn q).objs.sessions.filter fun x =>
        x.fn = fn && x.stopped = some q).foldl (fun c x => c.ringWrite x x.kept)
        ((s.ctl.onQueue fn q fun y => { y with stopped := false, sqFault := false }).drain fn q)))

/-- FN_REGION_CTRL (R284): creating from an aligned range of 4 KiB to 16 TB with room in the table records the region under a fresh handle of
type 0x02 with STATUS 0, and from any other range gives STATUS 1 and no region; destroying frees an unused one with STATUS 0, and leaves
one in use with STATUS 3. -/
def Obligations.RegionsAreMadeAndFreed : Prop :=
  ∀ (s : State) (fn : BitVec 8) (f : Fn), s.ctl.served fn = true → s.ctl.fn? fn = some f →
    (∀ (writable pasidEn : Bool) (pasid : BitVec 20) (ix : Nat) (g : Fn),
      f.regionAddr % 4096 = 0 → f.regionLen % 4096 = 0 → 4096 ≤ f.regionLen → f.regionLen ≤ 16000000000000 → f.regionAddr + f.regionLen ≤ 2 ^ 64 →
      f.issue .region f.nextIx = some (ix, g) →
      ∃ t h, exec (.regionCreate fn writable pasidEn pasid) s = .next t ∧ t.dp = s.dp ∧ t.cfg = s.cfg ∧ t.ctl.objs = s.ctl.objs ∧
        t.ctl.fn? fn = some h ∧ h.regionStatus = 0 ∧ h.regionHandle = handleOf .region ix ∧
        (ix, (⟨f.regionAddr, f.regionLen, writable, if pasidEn = true then some pasid else none⟩ : Region)) ∈ h.regions ∧
        h.queues = f.queues) ∧
    (∀ (writable pasidEn : Bool) (pasid : BitVec 20),
      (f.regionAddr % 4096 ≠ 0 ∨ f.regionLen % 4096 ≠ 0 ∨ f.regionLen < 4096 ∨ 16000000000000 < f.regionLen ∨ 2 ^ 64 < f.regionAddr + f.regionLen) →
      ∃ t h, exec (.regionCreate fn writable pasidEn pasid) s = .next t ∧ t.ctl.fn? fn = some h ∧ h.regionStatus = 1 ∧
        h.regions = f.regions ∧ h.handles = f.handles) ∧
    ∀ ix, f.object .region f.regionHandle = some ix →
      ∃ t h, exec (.regionDestroy fn) s = .next t ∧ t.dp = s.dp ∧ t.cfg = s.cfg ∧ t.ctl.fn? fn = some h ∧
        (s.ctl.regionUsed fn f.regionHandle = false → h.regionStatus = 0 ∧ ∀ r ∈ h.regions, r.1 ≠ ix) ∧
        (s.ctl.regionUsed fn f.regionHandle = true → h.regionStatus = 3 ∧ h.regions = f.regions ∧ h.handles = f.handles)

/-- A write-back of an event register (R13, R455) by the management function of a running device: one that names the present sequence number
clears every bit and keeps the number, any other value changes nothing at all, and bits [15:0] do not matter. The same holds of a function's own
FN_EVENT, which also clears its queues' fault addresses. -/
def Obligations.WriteBacksClearOnlyWhenCurrent : Prop :=
  ∀ (s : State) (fn : BitVec 8) (f : Fn) (v : Word), s.ctl.sec.st = .running → s.ctl.fn? fn = some f →
    (∀ r : EvReg, s.ctl.isMgmt fn = true → f.physical = true → (∀ k : Yard, (s.ctl.yd k).lost = false) →
      (v.extractLsb' 16 16 = (s.ctl.ev r).seq → ∃ t, exec (.eventWriteBack fn r.off v) s = .next t ∧
        t.ctl.ev r = ⟨(s.ctl.ev r).seq, 0#16⟩ ∧ t.dp = s.dp ∧ t.cfg = s.cfg ∧ t.ctl.fns = s.ctl.fns ∧ t.ctl.objs = s.ctl.objs ∧
        t.ctl.fe = s.ctl.fe ∧ t.ctl.bus = s.ctl.bus) ∧
      (v.extractLsb' 16 16 ≠ (s.ctl.ev r).seq → exec (.eventWriteBack fn r.off v) s = .next s)) ∧
    ∃ t g, exec (.eventWriteBack fn (if f.physical = true then 0x2020000 else 0x20000) v) s = .next t ∧ t.ctl.fn? fn = some g ∧
      t.dp = s.dp ∧ t.cfg = s.cfg ∧
      g.event = (if v.extractLsb' 16 16 = f.event.seq then ⟨f.event.seq, 0#16⟩ else f.event) ∧
      (v.extractLsb' 16 16 = f.event.seq → ∀ y ∈ g.queues, y.faultAddr = none)

/-- Raising an event (R454): the sequence number of its register goes from 0xFFFF to 0x0001 and else up by one, so it is never 0 again; the
bits are set, whether or not they were, and no bit is cleared; every other event register keeps its value, but for DBG_EVENT, in which a
trigger or a full journal that the event sets off may raise further bits. -/
def Obligations.RaisingAdvancesOneRegister : Prop :=
  ∀ (c : Ctl) (cfg : Cfg) (r : EvReg) (bits : BitVec 16), r ≠ .dbg →
    ((c.raise cfg r bits).ev r).seq = (if (c.ev r).seq = 0xFFFF#16 then 1#16 else (c.ev r).seq + 1#16) ∧
    ((c.raise cfg r bits).ev r).seq ≠ 0#16 ∧ ((c.raise cfg r bits).ev r).bits = (c.ev r).bits ||| bits ∧
    ∀ x : EvReg, x ≠ r → x ≠ .dbg → (c.raise cfg r bits).ev x = c.ev x

/-- A register write that places a reserved encoding in a field leaves that field (R12) and the other fields of the write take effect: HANG_LIMIT outside 4
to 1,024, CEILING 3, a drift factor below 9, a window below 64, LOW not below HIGH, DECAY below 128, a power cap outside 1,500 to
4,400, LOG2I outside 12 to 24, MODE 3, SOURCE 1 or above 5.
The widths (R11): a write that is unaligned or of neither 32 nor 64 bits has no effect, one of 64 bits is the two writes of its halves, the lower
address first, and a narrow read gives the addressed bytes of its word. -/
def Obligations.ReservedFieldsKeepTheirValue : Prop :=
  (∀ (s : State) (a : RegAccess),
    ((a.off % 4 ≠ 0 ∨ (a.width ≠ 4 ∧ a.width ≠ 8)) → exec (.registerWrite a) s = .next s) ∧
    (a.off % 4 = 0 → a.width = 8 → ∃ t u, exec (.registerWrite ⟨a.fn, a.off, 4, a.value⟩) s = .next t ∧
      exec (.registerWrite ⟨a.fn, a.off + 4, 4, a.value >>> 32⟩) t = .next u ∧ exec (.registerWrite a) s = .next u) ∧
    (a.off % 4 + a.width ≤ 4 → regReadBytes s a.fn a.off a.width =
      ((Bits.toLe (regRead s a.fn (a.off / 4 * 4)).toNat 4).drop (a.off % 4)).take a.width)) ∧
  ∀ (s : State) (fn : BitVec 8) (f : Fn) (v : Word), s.ctl.fn? fn = some f → f.physical = true → s.ctl.isMgmt fn = true →
    s.ctl.sec.st = .running →
    (∃ t, exec (.registerWrite ⟨fn, 0x3C, 4, v.zeroExtend 64⟩) s = .next t ∧ t.cfg = { s.cfg with
      hangLimit := if 4 ≤ Bits.field v 10 0 ∧ Bits.field v 10 0 ≤ 1024 then Bits.field v 10 0 else s.cfg.hangLimit }) ∧
    (∃ t, exec (.registerWrite ⟨fn, 0x40, 4, v.zeroExtend 64⟩) s = .next t ∧ t.cfg = { s.cfg with
      ceiling := if Bits.field v 31 30 ≠ 3 then Bits.field v 31 30 else s.cfg.ceiling }) ∧
    (∃ t, exec (.registerWrite ⟨fn, 0x800, 4, v.zeroExtend 64⟩) s = .next t ∧ t.cfg = { s.cfg with
      factorKv := if 9 ≤ Bits.field v 31 24 then Bits.field v 31 24 else s.cfg.factorKv
      factorAct := if 9 ≤ Bits.field v 23 16 then Bits.field v 23 16 else s.cfg.factorAct
      window := if 64 ≤ Bits.field v 15 0 then Bits.field v 15 0 else s.cfg.window }) ∧
    (∃ t, exec (.registerWrite ⟨fn, 0x900, 4, v.zeroExtend 64⟩) s = .next t ∧ t.cfg = { s.cfg with
      high := if Bits.field v 23 16 < Bits.field v 31 24 then Bits.field v 31 24 else s.cfg.high
      low := if Bits.field v 23 16 < Bits.field v 31 24 then Bits.field v 23 16 else s.cfg.low
      decay := if 128 ≤ Bits.field v 15 8 then Bits.field v 15 8 else s.cfg.decay
      demoteEn := v.getLsbD 7, promote := Bits.field v 3 0 }) ∧
    (∃ t, exec (.registerWrite ⟨fn, 0x600008, 4, v.zeroExtend 64⟩) s = .next t ∧ t.cfg = { s.cfg with
      powerCap := if 1500 ≤ Bits.field v 15 0 ∧ Bits.field v 15 0 ≤ 4400 then Bits.field v 15 0 else s.cfg.powerCap }) ∧
    (∃ t, exec (.registerWrite ⟨fn, 0x700010, 4, v.zeroExtend 64⟩) s = .next t ∧ t.cfg = { s.cfg with
      sampleEn := v.getLsbD 31
      log2i := if 12 ≤ Bits.field v 28 24 ∧ Bits.field v 28 24 ≤ 24 then Bits.field v 28 24 else s.cfg.log2i
      sampleYards := v.extractLsb' 0 8 }) ∧
    (∃ t, exec (.registerWrite ⟨fn, 0x700020, 4, v.zeroExtend 64⟩) s = .next t ∧ t.cfg = { s.cfg with
      streamEn := v.getLsbD 30, mode := if Bits.field v 29 28 = 3 then s.cfg.mode else Bits.field v 29 28
      pre := Bits.field v 19 16, cat := v.extractLsb' 0 7 }) ∧
    ∃ t, exec (.registerWrite ⟨fn, 0x700024, 4, v.zeroExtend 64⟩) s = .next t ∧ t.cfg = { s.cfg with
      trigSource := if Bits.field v 31 28 = 0 ∨ (2 ≤ Bits.field v 31 28 ∧ Bits.field v 31 28 ≤ 5) then Bits.field v 31 28 else s.cfg.trigSource
      trigClass := Bits.field v 27 24 }

/-- While SEC_STATE.STATE is BOOT or RECOVERY_WAIT, BAR0 of the management function serves only HUB_ID, HUB_SITE_STATUS and the SEC block: every
other register reads 0 and ignores writes, and no function window is served (R464). -/
def Obligations.BootServesTheSecBlockAlone : Prop :=
  ∀ (s : State) (fn : BitVec 8) (off : Nat) (v : Word), s.ctl.sec.st ≠ .running →
    (s.ctl.isMgmt fn = true → (s.ctl.fn? fn).isSome = true → (off = 0 ∨ off = 0xA00 ∨ off / 0x100000 = 3) → regRead s fn off = barReg s off) ∧
    ((s.ctl.isMgmt fn = false ∨ (off ≠ 0 ∧ off ≠ 0xA00 ∧ off / 0x100000 ≠ 3)) → regRead s fn off = 0#32) ∧
    ((s.ctl.isMgmt fn = false ∨ off / 0x100000 ≠ 3) → off < 2 ^ 28 → exec (.registerWrite ⟨fn, off, 4, v.zeroExtend 64⟩) s = .next s) ∧
    ∀ q : Fin 4, exec (.qDoorbell fn q (v.extractLsb' 0 16) []) s = .next s ∧ exec (.queueEnable fn q) s = .next s ∧
      exec (.regionDestroy fn) s = .next s

/-- Register actions of the management function on a running device: CFG_COMMIT takes the CRC of the values in force as reference and clears
UNCOMMITTED, MISMATCH and FENCED (R460); SNAP.GO copies the device set (R437); arming empties the record area (R446) and the stream
enable takes its bit (R445); TRIG.GO fires an armed trigger (R447); DBG_DUMP_CTRL takes its fields (R452); YRD_SEQ_PROBE captures the sequencer that it names
(R440); and a persistent word that hosts may write takes its value and counts its wear (R466, R469). -/
def Obligations.DeviceRegistersAct : Prop :=
  ∀ (s : State) (fn : BitVec 8) (v : Word), s.ctl.mgmtAccess fn = true →
    (v.getLsbD 0 = true → exec (.cfgCommit fn v) s = .next (s.withCtl (s.ctl.onHub fun h =>
      { h with crcRef := s.cfg.crc, uncommitted := false, mismatch := false, fenced := false }))) ∧
    (v.getLsbD 0 = true → exec (.dbgSnapGo fn v) s = .next (s.withCtl (s.ctl.onDbg fun d =>
      { d with hold := s.ctl.deviceCounters, snapSeq := (d.snapSeq + 1) % 2 ^ 32 }))) ∧
    (v.getLsbD 31 = true → ∃ t, exec (.journalArm fn v) s = .next t ∧ t.dp = s.dp ∧ t.ctl.dbg.armed = true ∧ t.ctl.dbg.fired = false ∧
      t.ctl.dbg.recs = [] ∧ t.ctl.dbg.seq = 0 ∧ t.ctl.hub.uncommitted = true ∧ t.cfg.streamEn = v.getLsbD 30) ∧
    (v.getLsbD 31 = false → ∃ t, exec (.streamEnable fn v) s = .next t ∧ t.dp = s.dp ∧ t.ctl.dbg = s.ctl.dbg ∧
      t.cfg.streamEn = v.getLsbD 30 ∧ t.cfg.cat = v.extractLsb' 0 7 ∧ t.ctl.hub.uncommitted = true) ∧
    (v.getLsbD 0 = true → s.ctl.dbg.armed = true → s.ctl.dbg.fired = false → ∃ t, exec (.trig fn v) s = .next t ∧ t.dp = s.dp ∧
      t.ctl.dbg.fired = true ∧ t.ctl.dbg.snapSeq = (s.ctl.dbg.snapSeq + 1) % 2 ^ 32 ∧ t.ctl.dbg.event = s.ctl.dbg.event.raise 4#16) ∧
    (v.getLsbD 29 = false → exec (.dumpFetch fn v) s = .next ({ s with cfg := { s.cfg with
      autoReset := v.getLsbD 31, stores := v.getLsbD 30, dumpSlot := Bits.field v 1 0 } }.withCtl (s.ctl.onHub fun h =>
        { h with uncommitted := true }))) ∧
    (∀ (ix : Nat) (c : Ctl) (j : Job) (d : Dump), v.getLsbD 29 = true → s.ctl.hub.halted = false → s.cfg.dumpEn = true →
      s.ctl.cof.dumps.find? (fun x => x.slot = Bits.field v 1 0 && x.done) = some d →
      (s.ctl.onHub fun h => { h with uncommitted := true }).startDeviceJob (.dump (Bits.field v 1 0)) 1 = some (ix, c) →
      c.job? c.mgmt ix = some j → ∃ t, exec (.dumpFetch fn v) s = .next t ∧ t.ctl.dbg.dumpJob = handleOf .job ix ∧
        t.ctl.objs = c.objs ∧ t.ctl.bus.writes.head? = some ⟨c.mgmt, none, s.cfg.dumpAddr, d.header⟩) ∧
    (∀ (k : Yard) (l : Cluster), s.ctl.yardUp k = true → Bits.field v 27 20 = l.val →
      exec (.seqProbe fn k v) s = .next (s.withCtl (s.ctl.onYard k fun y =>
        { y with probe := l.val, probed := ⟨seqPc s k l, seqState s k l, seqProgress s k l⟩ }))) ∧
    ∀ (off : Nat) (w : Word), off % 4 = 0 → hostWritable off v = some w → s.ctl.prs.word (off / 4) ≠ w →
      Sparse.get 0 s.ctl.prs.wear (off / 4) < prsRating →
      exec (.persistentWrite fn off v) s = .next (s.withCtl (s.ctl.onPrs fun p =>
        { p with words := Sparse.set 0#32 p.words (off / 4) w, wear := Sparse.set 0 p.wear (off / 4) (Sparse.get 0 p.wear (off / 4) + 1)
                 refused := false }))

/-! ### Functions, sites and their links (11) -/

/-- A function-level reset (R326, R327): at its moment a virtual function is resetting, its 16 vectors masked, its share to fall to 0, its sequence
begun; a sequence under way is not begun again. A physical function's FLR, and its VF Enable cleared (R314), begin the sequence of each
virtual function of its site. An ATS invalidation takes every matching translation, and nothing else, from the cache (R317).
FLR_TIMEOUT (R328): the work of the function is struck at once, with no byte of memory changed; where the bell has swept the function, a
function-level reset ends with the function in its created state (in a link hold where its link is held) with four queues disabled and no
region, and an FN_DESTROY ends with the function gone. -/
def Obligations.FunctionsAreDisabled : Prop :=
  (∀ (s : State) (fn : BitVec 8) (f : Fn), s.ctl.fn? fn = some f →
    (f.physical = false → f.disable = none → ∃ t h, exec (.functionLevelReset fn) s = .next t ∧ t.dp = s.dp ∧ t.cfg = s.cfg ∧
      t.ctl.objs = s.ctl.objs ∧ t.ctl.fn? fn = some h ∧ h.st = .resetting ∧ h.irqMasked = List.range 16 ∧
      h.shareNext = some (0, 0, 0) ∧ h.disable = some ⟨0, false, none, none, false⟩ ∧ h.queues = f.queues) ∧
    (f.physical = false → f.disable ≠ none → ∃ t, exec (.functionLevelReset fn) s = .next t ∧ t.ctl.fn? fn = some f) ∧
    (f.physical = true → ∃ t, exec (.functionLevelReset fn) s = .next t ∧ t.dp = s.dp ∧ t.cfg = s.cfg ∧
      ∀ (m : BitVec 8) (g : Fn), t.ctl.fn? m = some g → (m = fn ∨ g.vfOf f.site = true) → g.disable ≠ none) ∧
    (f.physical = true → ∃ t, exec (.vfEnableClear fn) s = .next t ∧ t.dp = s.dp ∧ t.cfg = s.cfg ∧
      (t.ctl.site f.site).vfEnable = false ∧
      ∀ (m : BitVec 8) (g : Fn), t.ctl.fn? m = some g → g.vfOf f.site = true → g.disable ≠ none) ∧
    ∀ (pasid : Option (BitVec 20)) (addr pages : Nat), ∃ t, exec (.atsInvalidation fn pasid addr pages) s = .next t ∧ t.dp = s.dp ∧
      t.cfg = s.cfg ∧ t.ctl = { s.ctl with xlats := t.ctl.xlats } ∧ ∀ x : Xlat, x ∈ t.ctl.xlats ↔
        x ∈ s.ctl.xlats ∧ ¬(x.fn = fn ∧ x.pasid = pasid ∧ addr / 4096 ≤ x.page ∧ x.page < addr / 4096 + pages)) ∧
  (∀ (s : State) (fn : BitVec 8) (f : Fn) (d : Disable), s.ctl.fn? fn = some f → f.disable = some d →
    ∃ t, exec (.flrTimeout fn) s = .next t ∧ t.cfg = s.cfg ∧ t.dp = { s.dp with gens := t.dp.gens } ∧
      (d.swept = true → d.destroy = false → ∃ h, t.ctl.fn? fn = some h ∧ h.disable = none ∧ h.regions = [] ∧
        h.st = (if (s.ctl.site f.site).link = .hold then .linkHold else .active) ∧ h.queues.length = 4 ∧
        ∀ y ∈ h.queues, y.enabled = false) ∧
      (d.swept = true → d.destroy = true → t.ctl.fn? fn = none))

/-- Sites (R306, R308, R326, R330, R331): a reset of a populated site, by its host or by the management function of the other site, begins the sequence of each of its functions,
empties its link buffer, retrains its link and raises SITE_EVENT; a lost link is held, with the plan loads and installations of its site waiting, or reset where HOLD_TIME is 0; a hold that
expires is such a reset; a degraded SINGLE link keeps running; and a link that trains is in service. -/
def Obligations.SitesResetHoldAndTrain : Prop :=
  ∀ (s : State) (i : Fin 2),
    ((s.ctl.site i.val).link ≠ .absent → ∃ t, exec (.siteReset i none) s = .next t ∧ t.dp = s.dp ∧ t.cfg = s.cfg ∧
      (t.ctl.site i.val).link = .reset ∧ (t.ctl.site i.val).degraded = false ∧ t.ctl.ev .site = (s.ctl.ev .site).raise (siteBit 4 i.val) ∧
      (∀ w ∈ t.ctl.bus.buffered, w.1 ≠ i.val) ∧
      ∀ (m : BitVec 8) (g : Fn), t.ctl.fn? m = some g → g.site = i.val → g.disable ≠ none) ∧
    (∀ (n : BitVec 8) (f : Fn), s.ctl.isMgmt n = true → s.ctl.served n = true → s.ctl.fn? n = some f → f.site ≠ i.val →
      exec (.siteReset i (some n)) s = exec (.siteReset i none) s) ∧
    ((s.ctl.site i.val).link = .active → s.cfg.holdTime ≠ 0 → ∃ t, exec (.siteLinkDown i) s = .next t ∧ t.dp = s.dp ∧ t.cfg = s.cfg ∧
      (t.ctl.site i.val).link = .hold ∧ t.ctl.ev .site = (s.ctl.ev .site).raise (siteBit 0 i.val) ∧
      t.ctl.objs = (s.ctl.hostReads i.val true).objs ∧
      ∀ (m : BitVec 8) (g : Fn), t.ctl.fn? m = some g → g.site = i.val → g.st ≠ .active) ∧
    ((s.ctl.site i.val).link = .active → s.cfg.holdTime = 0 → ∃ t, exec (.siteLinkDown i) s = .next t ∧ t.dp = s.dp ∧ t.cfg = s.cfg ∧
      (t.ctl.site i.val).link = .reset) ∧
    ((s.ctl.site i.val).link = .hold → ∃ t, exec (.siteLinkUp i) s = .next t ∧ t.dp = s.dp ∧ t.cfg = s.cfg ∧
      (t.ctl.site i.val).link = .active ∧ (t.ctl.ev .site).bits.getLsbD (2 + i.val) = true ∧
      ∀ (m : BitVec 8) (g : Fn), t.ctl.fn? m = some g → g.site = i.val → g.st ≠ .linkHold) ∧
    ((s.ctl.site i.val).link = .hold → exec (.linkHoldExpiry i) s = exec (.siteReset i none) s) ∧
    (s.ctl.hub.dual = false → s.ctl.hub.siteA.link = .active → s.ctl.hub.siteA.degraded = false →
      ∃ t, exec .siteDegraded s = .next t ∧ t.dp = s.dp ∧ t.cfg = s.cfg ∧ t.ctl.hub.siteA = { s.ctl.hub.siteA with degraded := true } ∧
        t.ctl.ev .site = (s.ctl.ev .site).raise 64#16 ∧ t.ctl.objs = s.ctl.objs) ∧
    ∀ (repaired : BitVec 4) (up : Bool), ((s.ctl.site i.val).link = .training ∨ (s.ctl.site i.val).link = .reset) →
      ∃ t, exec (.siteLinkTrained i repaired up) s = .next t ∧ t.dp = s.dp ∧ t.cfg = s.cfg ∧ t.ctl.site i.val =
        { s.ctl.site i.val with link := if up = true then .active else .training, repaired := repaired }

/-! ### Power, resets and temperature (13, 18) -/

/-- Every reset of the whole device (R14, R326, R476, R479, R488, R491) clears the registers that hosts write, the stores, the streams, and every session, job,
graph, plan and run; the persistent store and the key slots keep their contents through a loss of power. HUB_RESET without its key has no effect. The trips latch
their cause. -/
def Obligations.ResetsClearVolatileState : Prop :=
  ∀ s : State,
    (∃ t, exec .modEnLow s = .next t ∧ Cleared t ∧ t.ctl.prs.words = s.ctl.prs.words ∧ t.ctl.sec.keys = s.ctl.sec.keys ∧
      t.ctl.pwr.st = .off ∧ t.ctl.pwr.modEn = false ∧ t.ctl.pwr.trip = 0 ∧ t.ctl.pwr.pg = false) ∧
    (s.ctl.pwr.st.mains = true → ∃ t, exec .modRstNLow s = .next t ∧ Cleared t ∧ t.ctl.prs.words = s.ctl.prs.words ∧
      t.ctl.sec.keys = s.ctl.sec.keys ∧ t.ctl.pwr.rstN = false ∧ t.ctl.sec.st = .boot) ∧
    (∀ cause : TripCause, s.ctl.pwr.st.mains = true → ∃ t, exec (.inputTrip cause) s = .next t ∧ Cleared t ∧
      t.ctl.prs.words = s.ctl.prs.words ∧ t.ctl.sec.keys = s.ctl.sec.keys ∧ t.ctl.pwr.st = .standby ∧ t.ctl.pwr.pg = false ∧
      t.ctl.pwr.trip = (match cause with | .overPower => 1 | .overCurrent => 2 | .underVoltage => 3 | .overVoltage => 4)) ∧
    (s.ctl.pwr.st.mains = true → s.ctl.pwr.leakN = false → s.cfg.leakOff = true → ∃ t, exec .leakOffExpiry s = .next t ∧ Cleared t ∧
      t.ctl.prs.words = s.ctl.prs.words ∧ t.ctl.sec.keys = s.ctl.sec.keys ∧ t.ctl.pwr.st = .standby ∧ t.ctl.pwr.trip = 7) ∧
    (s.ctl.pwr.st.mains = true → s.ctl.pwr.refclk = true → ∃ t, exec .refclkLost s = .next t ∧ Cleared t ∧
      t.ctl.prs.words = s.ctl.prs.words ∧ t.ctl.sec.keys = s.ctl.sec.keys ∧ t.ctl.pwr.refclk = false ∧
      (t.ctl.ev .pwr).bits.getLsbD 7 = true) ∧
    ∀ (fn : BitVec 8) (v : Word) (m : Interval),
      (s.ctl.mgmtAccess fn = true → Bits.field v 31 16 = 0x5752 → v.getLsbD 0 = true →
        ∃ t, exec (.deviceWarmReset fn v m) s = .next t ∧ Cleared t ∧ t.ctl.sec.st = .boot) ∧
      (Bits.field v 31 16 ≠ 0x5752 → exec (.deviceWarmReset fn v m) s = .next s)

/-- The pins (R474, R477, R484, R488) and the supply: MOD_EN brings STANDBY and MOD_PG, and a release of MOD_RST_N with power good, no latched trip and the clock
there begins BOOT; the clock's return and a dry detector set their levels and nothing else; a falling LEAK_N, VIN leaving 44 to 56 V and a failing meter raise
their events, once. -/
def Obligations.PinsActAndRaiseTheirEvents : Prop :=
  ∀ s : State,
    (s.ctl.pwr.modEn = false → exec .modEnHigh s = .next (s.withCtl (s.ctl.onPwr fun p =>
      { p with modEn := true, st := .standby, pg := true }))) ∧
    (∀ m : Interval, s.ctl.pwr.modEn = true → s.ctl.pwr.pg = true → s.ctl.pwr.trip = 0 → s.ctl.pwr.refclk = true →
      (s.ctl.pwr.rstN = false ∨ s.ctl.pwr.st = .standby) → s.ctl.ldg.warm = false →
      exec (.modRstNRelease m) s = .next (s.withCtl (s.ctl.onPwr fun p => { p with st := .boot, rstN := true }))) ∧
    (∀ m : Interval, (s.ctl.pwr.pg = false ∨ s.ctl.pwr.trip ≠ 0 ∨ s.ctl.pwr.refclk = false) →
      exec (.modRstNRelease m) s = .next s) ∧
    exec .refclkReturn s = .next (s.withCtl (s.ctl.onPwr fun p => { p with refclk := true })) ∧
    exec .leakNHigh s = .next (s.withCtl (s.ctl.onPwr fun p => { p with leakN := true })) ∧
    (s.ctl.pwr.leakN = true → ∃ t, exec .leak s = .next t ∧ t.dp = s.dp ∧ t.cfg = s.cfg ∧
      t.ctl.pwr = { s.ctl.pwr with leakN := false, event := s.ctl.pwr.event.raise 64#16 } ∧ t.ctl.hub = s.ctl.hub) ∧
    (s.ctl.pwr.leakN = false → exec .leak s = .next s) ∧
    (∀ v : Nat, ∃ t, exec (.vinRange v) s = .next t ∧ t.dp = s.dp ∧ t.cfg = s.cfg ∧ t.ctl.hub = s.ctl.hub ∧
      t.ctl.pwr.vin = v ∧ (t.ctl.pwr.vinBad = true ↔ v < 4400 ∨ 5600 < v) ∧
      t.ctl.ev .pwr = if (v < 4400 ∨ 5600 < v) ∧ s.ctl.pwr.vinBad = false then (s.ctl.ev .pwr).raise 32#16 else s.ctl.ev .pwr) ∧
    ∀ now : Bool, ∃ t, exec (.meterFault now) s = .next t ∧ t.dp = s.dp ∧ t.cfg = s.cfg ∧ t.ctl.pwr = s.ctl.pwr ∧
      t.ctl.ldg.meterFault = now ∧
      t.ctl.ev .ldg = if now = true ∧ s.ctl.ldg.meterFault = false then (s.ctl.ev .ldg).raise 8#16 else s.ctl.ev .ldg

/-- The grades that temperature and power allow (R475, R486, R487): a sample in which no sensor passes a shutdown level keeps the readings and the standing levels,
a critical one allows G2 alone and a new warning one step less than the grade in force; a hub above 110 °C or an inlet above 55 °C trips the
supply; a standing warning, a standing critical level at G2 and an average above the cap each go one step further, and recovery goes one
step back, the halving first. -/
def Obligations.GradesFollowTemperatureAndPower : Prop :=
  ∀ s : State,
    (∀ x : Temps, s.ctl.pwr.st.mains = true → (∀ k : Yard, Temps.shut x k = false) → x.hub.now ≤ 110 → x.inlet.now ≤ 55 →
      ∃ t, exec (.thermalSample x) s = .next t ∧ t.dp = s.dp ∧ t.cfg = s.cfg ∧ t.ctl.objs = s.ctl.objs ∧ t.ctl.pwr.temps = some x ∧
        (t.ctl.pwr.warned = true ↔ ∃ y ∈ Temps.levels x, y.warn < y.avg) ∧ (t.ctl.pwr.critical = true ↔ ∃ y ∈ Temps.levels x, y.crit < y.avg) ∧
        (t.ctl.pwr.cool = true ↔ ∀ y ∈ Temps.levels x, y.avg + 5 ≤ y.warn) ∧ t.ctl.pwr.thermN = !t.ctl.pwr.critical ∧
        t.ctl.hub.grades.temp = max s.ctl.hub.grades.temp (if t.ctl.pwr.critical = true then 2
          else if t.ctl.pwr.warned = true ∧ s.ctl.pwr.warned = false then min 2 (s.ctl.hub.grades.current + 1) else 0)) ∧
    (∀ x : Temps, s.ctl.pwr.st.mains = true → (∀ k : Yard, Temps.shut x k = false) → (110 < x.hub.now ∨ 55 < x.inlet.now) →
      ∃ t, exec (.thermalSample x) s = .next t ∧ Cleared t ∧ t.ctl.pwr.st = .standby ∧
        t.ctl.pwr.trip = if 110 < x.hub.now then 5 else 6) ∧
    (s.ctl.pwr.warned = true → s.ctl.hub.grades.temp ≤ s.ctl.hub.grades.current → s.ctl.hub.grades.current < 2 →
      ∃ t, exec .thermalStepDown s = .next t ∧ t.dp = s.dp ∧ t.cfg = s.cfg ∧ t.ctl.hub.grades =
        { s.ctl.hub.grades with temp := s.ctl.hub.grades.current + 1 } ∧ t.ctl.ev .pwr = (s.ctl.ev .pwr).raise 2#16) ∧
    (s.ctl.pwr.cool = true → exec .thermalStepUp s = .next (s.withCtl (s.ctl.onHub fun h =>
      { h with grades := { h.grades with temp := h.grades.temp - 1 } }))) ∧
    (s.ctl.pwr.critical = true → s.ctl.hub.grades.current = 2 →
      exec .criticalHalving s = .next (s.withCtl (s.ctl.onHub fun h => { h with halving := true }))) ∧
    (s.cfg.cap < s.ctl.pwr.pavg → s.ctl.hub.grades.current < 2 → s.ctl.hub.grades.power ≤ s.ctl.hub.grades.current →
      ∃ t, exec .powerCapStepDown s = .next t ∧ t.dp = s.dp ∧ t.cfg = s.cfg ∧ t.ctl.hub.grades =
        { s.ctl.hub.grades with power := s.ctl.hub.grades.current + 1 } ∧ t.ctl.ev .pwr = (s.ctl.ev .pwr).raise 1#16) ∧
    (s.cfg.cap < s.ctl.pwr.pavg → 2 ≤ s.ctl.hub.grades.current → s.ctl.hub.halving = false →
      ∃ t, exec .powerCapStepDown s = .next t ∧ t.dp = s.dp ∧ t.cfg = s.cfg ∧ t.ctl.hub.halving = true ∧
        t.ctl.hub.grades = s.ctl.hub.grades ∧ t.ctl.ev .pwr = (s.ctl.ev .pwr).raise 1#16) ∧
    (100 * s.ctl.pwr.pavg < 95 * s.cfg.cap → s.ctl.hub.halving = false → exec .powerCapStepUp s = .next (s.withCtl
      (s.ctl.onHub fun h => { h with grades := { h.grades with power := h.grades.power - 1 } }))) ∧
    (100 * s.ctl.pwr.pavg < 95 * s.cfg.cap → s.ctl.hub.halving = true → s.ctl.pwr.critical = false →
      exec .powerCapStepUp s = .next (s.withCtl (s.ctl.onHub fun h => { h with halving := false })))

/-- The firmware check (R359, R361, R484) of a device in BOOT with its rails up, its reset released and its clock there: no image gives RECOVERY_WAIT with cause 1; an
image gives RECOVERY_WAIT with the cause of the first check that fails, with cause 8 where the anti-rollback counter must rise and
cannot, and RUNNING with that image where every check passes. -/
def Obligations.FirmwareCheckRunsOrRecovers : Prop :=
  ∀ (s : State) (found : Option FwImage) (st : StartIn), s.ctl.sec.st = .boot → s.ctl.pwr.st = .boot → s.ctl.pwr.pg = true →
    s.ctl.pwr.rstN = true → s.ctl.pwr.refclk = true →
    ∃ t, exec (.firmwareCheck found st) s = .next t ∧ t.dp = s.dp ∧ t.cfg = s.cfg ∧
      (s.ctl.cof.firmware found = none → t.ctl.sec.st = .recoveryWait ∧ t.ctl.sec.cause = 1) ∧
      ∀ i : FwImage, s.ctl.cof.firmware found = some i →
        (t.ctl.sec.cause, t.ctl.sec.st) =
          (if fwCause i (s.ctl.prs.word rollbackWord).toNat ≠ 0 then (fwCause i (s.ctl.prs.word rollbackWord).toNat, .recoveryWait)
           else if fwSvn i ≤ (s.ctl.prs.word rollbackWord).toNat then (0, .running)
           else if (s.ctl.persist s.cfg rollbackWord (BitVec.ofNat 32 (fwSvn i))).1 = true then (0, .running) else (8, .recoveryWait))

/-! ### The tick, the ledger, the hub's checks (02, 08, 12, 16, 17) -/

/-- A bell rings when the cut-off has been made, L has passed, the stall list is ready, every yard is done and every token that yard 7 samples has
its logits (R37, R42, R49, R50); before, it changes nothing. With the bell, unless its changes end in a hang or in no more ticks, the next tick stands
at its start: no report but of every cluster of a yard that has nothing to run (R45), the cut-off to come, no commit, no unfenced write and no routing
work left. The first bell after a plan is selected begins so as well.
At a bell every microbatch in flight moves one yard and the one that was formed enters yard 0 (R29, R65); the first bell leaves the tick number and every later one
advances it (R38); memory stands but for table stores to be written anew (R115). A tick that ends after its length and the gap of its grade change is long: it is counted and TICK_LONG is raised,
and one that does not leaves both (R65). -/
def Obligations.BellsRingAndBeginATick : Prop :=
  (∀ (s : State) (b : BellIn), s.ctl.hub.halted = false →
    (s.ctl.fe.ticking = true → s.ctl.fe.cut = true → s.ctl.tickLen ≤ b.cycle → b.listAt ≤ b.cycle → (∀ k : Yard, s.ctl.yardDone k = true) →
      s.ctl.logitsGiven b = true → ∃ t, exec (.bell b) s = .next t ∧ (t.ctl.hub.halted = false → t.ctl.fe.ticking = true →
        t.ctl.fe.cut = false ∧ t.ctl.fe.formed = none ∧ (∀ k : Yard, (t.ctl.yd k).reports =
          { clusters := if (t.ctl.yardStalls k).isEmpty = true then List.range 250 else [] }) ∧ t.dp.commit = [] ∧
        t.dp.unfenced = [] ∧ t.dp.routes = [])) ∧
    (s.ctl.fe.ticking = true → (s.ctl.fe.cut = false ∨ b.cycle < s.ctl.tickLen ∨ b.cycle < b.listAt ∨ (∃ k : Yard, s.ctl.yardDone k = false) ∨
      s.ctl.logitsGiven b = false) → exec (.bell b) s = .next s) ∧
    ∀ w : Switch, s.ctl.fe.ticking = false → s.ctl.fe.switch = some w → w.plan.isSome = true →
      ∃ t, exec (.bell b) s = .next t ∧ t.ctl.fe.cut = false ∧ t.ctl.fe.formed = none ∧ (∀ k : Yard, (t.ctl.yd k).reports =
          { clusters := if (t.ctl.yardStalls k).isEmpty = true then List.range 250 else [] }) ∧
        t.dp.commit = [] ∧ t.dp.unfenced = []) ∧
  ((∀ (s : State) (cycle : Nat),
    (nextTick s cycle).ctl.fe.pipe = (s.ctl.fe.pipe.map fun m => { m with yard := m.yard + 1 }) ++ s.ctl.fe.formed.toList ∧
    (nextTick s cycle).ctl.hub.tick = (if s.ctl.hub.first = true then s.ctl.hub.tick else s.ctl.hub.tick + 1) ∧
    (nextTick s cycle).ctl.hub.first = false ∧
    ((∀ k : Yard, (s.ctl.yd k).tableRewrite = []) → (nextTick s cycle).dp.mem = s.dp.mem) ∧ (nextTick s cycle).ctl.objs.jobs = s.ctl.objs.jobs) ∧
  ∀ (c : Ctl) (cfg : Cfg) (b : BellIn), b.listAt ≤ max c.tickLen b.doneAt →
    (b.cycle ≤ c.tickLen + c.gapOf cfg b → c.judgeTick cfg b = c) ∧
    (c.tickLen + c.gapOf cfg b < b.cycle → (c.judgeTick cfg b).hub.long = sat64 c.hub.long 1 ∧
      (c.judgeTick cfg b).ev .hub = (c.ev .hub).raise 1#16 ∧ (c.judgeTick cfg b).fe = c.fe ∧ (c.judgeTick cfg b).objs = c.objs))

/-- The cut-off forms the next tick's microbatch, once in a tick and only while ticks run (R49); a cluster whose segment is complete, with no block of
its on its way and no consumer waiting, reports done once in a tick, which clears its flags, and before it changes nothing (R42, R96); a timer period stands for the bell while no tick runs and opens every function's fetching again (R37); and storage whose release is due is free (R243). -/
def Obligations.CutoffsReportsAndPeriodsComplete : Prop :=
  ∀ s : State,
    (∀ (hs : List HeadRead) (p : Plan), s.ctl.plan? = some p → s.ctl.fe.ticking = true → s.ctl.fe.cut = false →
      s.ctl.hub.halted = false → ∃ t, exec (.admissionCutoff hs) s = .next t ∧ t.cfg = s.cfg ∧ t.ctl.fe.cut = true ∧
        t.ctl.fe.formed.isSome = true ∧ t.ctl.hub.portPause = false) ∧
    (∀ hs : List HeadRead, (s.ctl.plan? = none ∨ s.ctl.fe.ticking = false ∨ s.ctl.fe.cut = true ∨ s.ctl.hub.halted = true) →
      exec (.admissionCutoff hs) s = .next s) ∧
    (∀ (d : DoneIn) (clu : Nat), clu = s.ctl.clu d.yard d.cluster.val →
      (s.ctl.hub.halted = false → s.ctl.fe.ticking = true → s.ctl.yardUp (s.ctl.home d.yard) = true →
        (s.ctl.yd d.yard).reports.clusters.contains d.cluster.val = false → (∀ f ∈ s.dp.flights, f.issuer / 40 ≠ clu) →
        (∀ w ∈ s.dp.waits, w.1 / 120 = clu → w.2 = .none) → ∃ t, exec (.doneReport d) s = .next t ∧ t.cfg = s.cfg ∧
        (t.ctl.yd d.yard).reports.clusters = (s.ctl.yd d.yard).reports.clusters ++ [d.cluster.val] ∧ t.dp.mem = s.dp.mem ∧
        (t.ctl.yd d.yard).reports.units = (s.ctl.yd d.yard).reports.units ++ s.dp.unitsOf d.yard d.cluster.val ∧
        t.dp.unitsOf d.yard d.cluster.val = [] ∧
        (∀ x ∈ t.dp.flags, x.1 / 40 ≠ clu) ∧ ∀ x ∈ s.dp.flags, x.1 / 40 ≠ clu → x ∈ t.dp.flags) ∧
      ((s.ctl.hub.halted = true ∨ s.ctl.fe.ticking = false ∨ s.ctl.yardUp (s.ctl.home d.yard) = false ∨
        (s.ctl.yd d.yard).reports.clusters.contains d.cluster.val = true ∨ (∃ f ∈ s.dp.flights, f.issuer / 40 = clu) ∨
        ∃ w ∈ s.dp.waits, w.1 / 120 = clu ∧ w.2 ≠ .none) → exec (.doneReport d) s = .next s)) ∧
    (∀ m : Interval, s.ctl.fe.ticking = true → s.ctl.hub.halted = false → exec (.hubTimerPeriod m) s = .next s) ∧
    (∀ m : Interval, s.ctl.fe.ticking = false → s.ctl.hub.halted = false → s.ctl.ldg.opening = true →
      ∃ t, exec (.hubTimerPeriod m) s = .next t ∧ t.cfg = s.cfg ∧ ∀ f ∈ t.ctl.fns, f.fetched = 0) ∧
    (∀ m : Interval, (s.ctl.hub.halted = true ∨ (s.ctl.fe.ticking = false ∧ s.ctl.ldg.opening = false)) →
      exec (.hubTimerPeriod m) s = .next (s.withCtl (s.ctl.closeIdle s.cfg m).measure.sendMessages)) ∧
    ∃ t, exec .storageRelease s = .next t ∧ t.dp = s.dp ∧ t.cfg = s.cfg ∧ t.ctl.objs = s.ctl.objs ∧
      t.ctl.fe.released = s.ctl.fe.released.filter fun r => s.ctl.hub.tick < r.due

/-- An uncorrectable weight unit is latched with its image and raised, and the record that holds it is written anew from the image's records; one that
fails again at an address among the last 256 is moved to the retirement pool or, where that is full, raises SPARE_LOW; where the master copy cannot be
read, the image that holds it is no longer READY, and memory stands (R206, R208, R209). An uncorrectable KV unit is latched and restored from the copy
that is good: a fast block from its shadow, a shadow from the fast copy or, demoted, from its mirror, a mirror from its shadow; where none is, its
block is lost (R232, R233). An address that no block holds changes nothing more. -/
def Obligations.RestoresUseTheGoodCopy : Prop :=
  ∀ (s : State) (k : Yard), s.ctl.hub.halted = false →
    (∀ (shed : Bool) (addr image : Nat), ∃ t, exec (.weightRestore k ⟨shed, addr⟩ image .ok) s = .next t ∧ t.cfg = s.cfg ∧
      t.ctl.cof.restore = (s.ctl.cof.restore.orElse fun _ => some (image, addr % 2 ^ 41)) ∧ (t.ctl.ev .cof).bits.getLsbD 0 = true ∧
      (s.ctl.weightAt image shed addr = none → t.dp = s.dp) ∧
      ∀ x, s.ctl.weightAt image shed addr = some x →
        ((s.ctl.yd k).restored.contains addr = false →
          t.dp = s.dp.putRecord s.ctl.sec.deviceKey x.2.shed x.2.addr x.2.bytes x.2.len) ∧
        ((s.ctl.yd k).restored.contains addr = true → x.2.shed = false → (∀ m ∈ (s.ctl.yd k).moved, m.1 ≠ x.2.addr) →
          (t.ctl.ev .cof).bits.getLsbD 1 = true ∨ (t.ctl.ev .cof).bits.getLsbD 3 = true)) ∧
    (∀ (shed : Bool) (addr image : Nat), ∃ t, exec (.weightRestore k ⟨shed, addr⟩ image .unreadable) s = .next t ∧ t.cfg = s.cfg ∧ t.dp = s.dp ∧
      t.ctl = (s.ctl.latchRestore s.cfg image addr).damageBlock s.cfg image ((s.ctl.weightAt image shed addr).bind fun x => x.2.block) ∧
      ∀ i ∈ t.ctl.objs.images, i.ix = image → i.st ≠ .ready ∧ i.st ≠ .retiring) ∧
    (∀ (copy : KvCopy) (addr : Nat), (s.ctl.plan? = none ∨ ∃ p, s.ctl.plan? = some p ∧ s.ctl.blockAt p copy addr = none) →
      exec (.kvRestore k copy addr) s = .next s) ∧
    ∀ (p : Plan) (copy : KvCopy) (addr : Nat) (e : MapEntry) (src : Option (List Nat)), s.ctl.plan? = some p →
      s.ctl.blockAt p copy addr = some e →
      src = (match copy, e.demoted with
        | .shadow, true => if goodShed s e.mirror = true then some (s.ctl.shedUnits e.mirror) else none
        | .shadow, false => if goodFast s e.fast (p.blockBytes e.yard) = true then some (fastUnits e.fast (p.blockBytes e.yard)) else none
        | _, _ => if goodShed s e.shadow = true then some (s.ctl.shedUnits e.shadow) else none) →
      (src = none → exec (.kvRestore k copy addr) s = .next (s.withCtl ((s.ctl.kvLatch s.cfg k copy addr).kvLost s.cfg e))) ∧
      ∀ us, src = some us → ∃ t, exec (.kvRestore k copy addr) s = .next t ∧ t.cfg = s.cfg ∧ (t.ctl.ev (.kv k)).bits.getLsbD 0 = true ∧
        t.dp = s.dp.copyUnits (s.ctl.shadowKey e.shadow) us (match copy with
          | .fast => fastUnits e.fast (p.blockBytes e.yard)
          | .shadow => s.ctl.shedUnits e.shadow
          | .mirror => s.ctl.shedUnits e.mirror) ∧
        t.ctl.objs = (s.ctl.onBlock e.shadow fun y => { y with hold := true }).objs ∧
        (copy = .fast → addr ∈ (t.ctl.yd k).kvRestored)

/-- Energy is shared without loss (R338, R339): the shares of an amount over any sinks sum to it, and equal weights without a remainder share equally. A closed interval
counts its energy as metered and carries what is below 1 µJ.
A sealed folio is signed over its header by both keys and then ready, with FOLIO_READY raised (R345, R347); the number of no sealed folio changes nothing. -/
def Obligations.EnergyIsSharedAndFoliosSigned : Prop :=
  ((∀ (w : Nat) (ws : List Nat), ws ≠ [] → (apportion w ws).sum = w ∧ (apportion w ws).length = ws.length) ∧
  (∀ (w n : Nat), 0 < n → apportion (w * n) (List.replicate n 0) = List.replicate n w) ∧
  ∀ (c : Ctl) (cfg : Cfg) (kind : CloseKind) (m : Interval), ∃ e, e = (m.samples.map fun x =>
      Config.sampleEnergy (c.prs.range 0x200 256) x.volt x.amp).sum + c.ldg.early ∧
    (c.closeInterval cfg kind m).ldg.residue = (e + c.ldg.residue) % 1000 ∧ (c.closeInterval cfg kind m).ldg.early = 0 ∧
    (c.closeInterval cfg kind m).ldg.metered = sat64 c.ldg.metered e ∧
    (c.closeInterval cfg kind m).ldg.time = c.ldg.time + m.samples.length) ∧
  (∀ (s : State) (n : Nat),
    (∀ f : Sealed, s.ctl.ldg.sealedFolios.find? (fun x => x.number = n && !x.ready) = some f →
      (s.ctl.ldg.sealedFolios.map Sealed.size).sum ≤ folioStore → ∃ t, exec (.folioSealed n) s = .next t ∧ t.dp = s.dp ∧ t.cfg = s.cfg ∧
        (∃ g ∈ t.ctl.ldg.sealedFolios, g.number = n ∧ g.ready = true ∧ g.header = f.header ∧ g.tallies = f.tallies ∧
          g.ecdsa = Config.ledgerEcdsaSign (sha384 f.header) ∧ g.hss = Config.ledgerHssSign n f.header) ∧
        t.ctl.ldg.anySealed = true ∧ (t.ctl.ev .ldg).bits.getLsbD 0 = true ∧ t.ctl.objs = s.ctl.objs) ∧
    (s.ctl.ldg.sealedFolios.find? (fun x => x.number = n && !x.ready) = none → exec (.folioSealed n) s = .next s))

/-- A statistics window with nothing left is judged and begins anew, its counts kept as the last window's, and a drift in any band is raised and latched (R141, R143,
R144). The check of the configuration (R457, R458) stores the CRC; a difference under CHECK_EN is latched and raised, and fences where FENCE_ON_DRIFT says so; an equal
CRC, one not yet committed, or a difference already latched changes nothing else, and nothing is checked before RUNNING. -/
def Obligations.WindowsCloseAndConfigurationIsChecked : Prop :=
  ∀ s : State,
    (∀ (slot : Fin 64) (x : Nat × QntSlot), s.ctl.hub.qnt.find? (fun x => x.1 = slot.val) = some x → x.2.left = 0 →
      ∃ t, exec (.qntWindowClose slot) s = .next t ∧ t.dp = s.dp ∧ t.cfg = s.cfg ∧
        (∀ y ∈ t.ctl.hub.qnt, y.1 = slot.val → y.2.left = s.cfg.window ∧ y.2.clip = [0, 0, 0, 0] ∧ y.2.conv = [0, 0, 0, 0] ∧
          y.2.lastClip = x.2.clip ∧ y.2.lastConv = x.2.conv ∧ y.2.actStatus = (List.range 4).map (x.2.judgeAct s.cfg.factorAct)) ∧
        (∀ b < 4, x.2.judgeAct s.cfg.factorAct b = 2 → (t.ctl.ev .hub).bits.getLsbD 3 = true ∧ t.ctl.hub.drift.isSome = true)) ∧
    (∀ slot : Fin 64, (∀ x, s.ctl.hub.qnt.find? (fun x => x.1 = slot.val) = some x → x.2.left ≠ 0) → exec (.qntWindowClose slot) s = .next s) ∧
    (s.ctl.sec.st = .running → s.cfg.checkEn = true → s.ctl.hub.uncommitted = false → s.cfg.crc ≠ s.ctl.hub.crcRef →
      s.ctl.hub.mismatch = false → ∃ t, exec .cfgCrcCheck s = .next t ∧ t.dp = s.dp ∧ t.cfg = s.cfg ∧ t.ctl.hub.crc = s.cfg.crc ∧
        t.ctl.hub.mismatch = true ∧ t.ctl.hub.fenced = (s.ctl.hub.fenced || s.cfg.fenceOnDrift) ∧
        t.ctl.ev .hub = (s.ctl.ev .hub).raise 16#16) ∧
    (s.ctl.sec.st = .running → (s.cfg.checkEn = false ∨ s.ctl.hub.uncommitted = true ∨ s.cfg.crc = s.ctl.hub.crcRef ∨
      s.ctl.hub.mismatch = true) → exec .cfgCrcCheck s = .next (s.withCtl (s.ctl.onHub fun h => { h with crc := s.cfg.crc }))) ∧
    (s.ctl.sec.st ≠ .running → exec .cfgCrcCheck s = .next s)

/-- A tick that lasts HANG_LIMIT times its length, and, in a tick longer than its length, a sequencer with work left that stands still for that length,
both beyond the floor of 20 ms, hang the device (R67, R68, R450): it is frozen with nothing of the engines changed, PWR_STATE
says HALTED, HANG is raised and a dump with the cause begins; short of that, or where no tick runs or the device is frozen, nothing happens. A dump that
completes is marked, and AUTO_RESET brings a warm reset (R451, R452); without a dump under way nothing happens. -/
def Obligations.HangsFreezeTheDevice : Prop :=
  ∀ (s : State) (m : Interval), 
    (∀ elapsed us : Nat, s.ctl.hub.halted = false → s.ctl.fe.ticking = true →
      (s.cfg.hangLimit * s.ctl.tickLen ≤ elapsed → 20000 ≤ us → ∃ t, exec (.hangLimitExpiry elapsed us m) s = .next t ∧ t.dp = s.dp ∧
        t.cfg = s.cfg ∧ t.ctl.hub.halted = true ∧ t.ctl.pwr.st = .halted ∧ (t.ctl.ev .dbg).bits.getLsbD 0 = true ∧
        t.ctl.objs = s.ctl.objs ∧ ∃ d ∈ t.ctl.cof.dumps, d.cause = 1 ∧ d.done = false) ∧
      ((elapsed < s.cfg.hangLimit * s.ctl.tickLen ∨ us < 20000) → exec (.hangLimitExpiry elapsed us m) s = .next s)) ∧
    (∀ elapsed us : Nat, (s.ctl.hub.halted = true ∨ s.ctl.fe.ticking = false) → exec (.hangLimitExpiry elapsed us m) s = .next s) ∧
    (∀ (k : Yard) (l : Cluster) (elapsed still us : Nat), (s.ctl.hub.halted = true ∨ s.ctl.fe.ticking = false ∨
      s.ctl.yardUp (s.ctl.home k) = false ∨ seqDone s k l = true) → exec (.progressStandstill k l ⟨elapsed, still⟩ us m) s = .next s) ∧
    (∀ (k : Yard) (l : Cluster) (elapsed still us : Nat), s.ctl.hub.halted = false → s.ctl.fe.ticking = true →
      s.ctl.yardUp (s.ctl.home k) = true → (s.ctl.yd k).reports.clusters.contains l.val = false → (s.ctl.yardStalls k).isEmpty = false →
      (s.ctl.tickLen < elapsed → s.ctl.tickLen ≤ still → 20000 ≤ us → ∃ t, exec (.progressStandstill k l ⟨elapsed, still⟩ us m) s = .next t ∧
        t.dp = s.dp ∧ t.cfg = s.cfg ∧ t.ctl.hub.halted = true ∧ (t.ctl.ev .dbg).bits.getLsbD 0 = true ∧ t.ctl.objs = s.ctl.objs ∧
        ∃ d ∈ t.ctl.cof.dumps, d.cause = 2 ∧ d.done = false) ∧
      ((elapsed ≤ s.ctl.tickLen ∨ still < s.ctl.tickLen ∨ us < 20000) → exec (.progressStandstill k l ⟨elapsed, still⟩ us m) s = .next s)) ∧
    (∀ host : Bool, (∀ d ∈ s.ctl.cof.dumps, d.done = true) → exec (.dumpDone host) s = .next s) ∧
    ∀ host : Bool, (∃ d ∈ s.ctl.cof.dumps, d.done = false) →
      (s.cfg.autoReset = false → ∃ t, exec (.dumpDone host) s = .next t ∧ t.dp = s.dp ∧ t.cfg = s.cfg ∧
        (∀ d ∈ t.ctl.cof.dumps, d.done = true) ∧ t.ctl.cof.dumpHost = (host && s.cfg.dumpEn) ∧ (t.ctl.ev .dbg).bits.getLsbD 1 = true) ∧
      (s.cfg.autoReset = true → ∃ t, exec (.dumpDone host) s = .next t ∧ Cleared t ∧ t.ctl.sec.st = .boot ∧
        ∀ d ∈ t.ctl.cof.dumps, d.done = true)

/-- A program-counter sample of an enabled yard at its cycle becomes a record of type 1, or, with more than 3,072 waiting, a counted loss (R441), and any other leaves the state; a stream that cannot be written stops and says so, and a record
that has room in the host's ring, or the GAP that stands for records overwritten before they were copied, is copied there and the tail moves past it;
a full ring stalls the stream, and without a record or a stream nothing happens (R445, R449). -/
def Obligations.SamplesAndStreamRecords : Prop :=
  ∀ s : State,
    (∀ (k : Yard) (l : Cluster) (cycle queued : Nat), s.cfg.sampleEn = true → s.cfg.sampleYards.getLsbD k.val = true →
      s.ctl.yardUp k = true → s.ctl.fe.ticking = true → s.ctl.hub.halted = false → sampleCycle k l s.cfg.log2i cycle = true →
      s.cfg.cat.getLsbD 0 = true →
      (queued ≤ 3072 → exec (.pcSample k l cycle queued) s = .next (s.withCtl (s.ctl.journal s.cfg 1 (k.val * 4096 + l.val) cycle
        (seqState s k l * 2 ^ 29 + seqPc s k l % 2 ^ 24) []))) ∧
      (3072 < queued → exec (.pcSample k l cycle queued) s = .next (s.withCtl (s.ctl.count 2 1)))) ∧
    (∀ (k : Yard) (l : Cluster) (cycle queued : Nat), (s.cfg.sampleEn = false ∨ s.cfg.sampleYards.getLsbD k.val = false ∨
      s.ctl.yardUp k = false ∨ s.ctl.fe.ticking = false ∨ s.ctl.hub.halted = true ∨ sampleCycle k l s.cfg.log2i cycle = false ∨
      s.cfg.cat.getLsbD 0 = false) → exec (.pcSample k l cycle queued) s = .next s) ∧
    (∀ ok : Bool, (s.cfg.streamEn = false ∨ s.ctl.sec.st ≠ .running ∨
      s.ctl.dbg.recs.find? (fun x => s.ctl.dbg.copyNext ≤ x.seq && x.typ ≠ 0) = none) → exec (.streamRecordCopy ok) s = .next s) ∧
    ∀ r : JRec, s.cfg.streamEn = true → s.ctl.sec.st = .running →
      s.ctl.dbg.recs.find? (fun x => s.ctl.dbg.copyNext ≤ x.seq && x.typ ≠ 0) = some r →
      (∃ t, exec (.streamRecordCopy false) s = .next t ∧ t.dp = s.dp ∧ t.cfg = { s.cfg with streamEn := false } ∧
        (t.ctl.ev .dbg).bits.getLsbD 4 = true ∧ t.ctl.dbg.tail = s.ctl.dbg.tail) ∧
      ∀ (gap : Bool) (out : JRec) (used : Nat), gap = s.ctl.dbg.recs.all (fun x => s.ctl.dbg.copyNext < x.seq) →
        out = (if gap = true then s.ctl.dbg.lostGap s.ctl.hub.tick (r.seq - s.ctl.dbg.copyNext) else r) →
        used = (s.ctl.dbg.tail + s.cfg.streamUnits - s.cfg.streamHead % s.cfg.streamUnits) % s.cfg.streamUnits →
        (used + out.len < s.cfg.streamUnits → ∃ t, exec (.streamRecordCopy true) s = .next t ∧ t.dp = s.dp ∧ t.cfg = s.cfg ∧
          t.ctl.objs = s.ctl.objs ∧ t.ctl.dbg.tail = (s.ctl.dbg.tail + out.len) % s.cfg.streamUnits ∧
          t.ctl.dbg.copyNext = (if gap = true then r.seq else r.seq + 1) ∧ t.ctl.dbg.stall = false ∧
          t.ctl.bus.writes.length = s.ctl.bus.writes.length + out.len) ∧
        (s.cfg.streamUnits ≤ used + out.len →
          exec (.streamRecordCopy true) s = .next (s.withCtl (s.ctl.onDbg fun x => { x with stall := true })))

/-- Faults of the host's memory (R288, R303): posted completion records that fail are taken back and held in order, and their queue's writer stops; a
fetch that fails stops its queue; output entries that fail are kept for the session's ring, and the session stops with its GENERATE's queue. Each
raises its bit of FN_EVENT; a fault that takes back nothing changes nothing. -/
def Obligations.HostFaultsTakeBackWrites : Prop :=
  ∀ (s : State) (fn : BitVec 8) (f : Fn), s.ctl.fn? fn = some f → f.queues.length = 4 →
    (∀ (q : Fin 4) (n : Nat), 0 < min n (f.queue q).recent.length → ∃ t g, exec (.cqWriteFault fn q n) s = .next t ∧ t.dp = s.dp ∧
      t.cfg = s.cfg ∧ t.ctl.objs = { s.ctl.objs with jobs := t.ctl.objs.jobs, delivered := t.ctl.objs.delivered } ∧
      t.ctl.fn? fn = some g ∧ (g.queue q).stopped = true ∧ g.event = f.event.raise 1#16 ∧
      (g.queue q).held = ((f.queue q).recent.take (min n (f.queue q).recent.length)).reverse ++ (f.queue q).held) ∧
    (∀ (q : Fin 4) (n : Nat), (n = 0 ∨ (f.queue q).recent = []) → exec (.cqWriteFault fn q n) s = .next s) ∧
    (∀ q : Fin 4, s.ctl.mayFetch f q = true → ∃ t g, exec (.sqFetchFault fn q) s = .next t ∧ t.dp = s.dp ∧ t.cfg = s.cfg ∧
      t.ctl.objs = s.ctl.objs ∧ t.ctl.fn? fn = some g ∧ (g.queue q).sqFault = true ∧ g.event = f.event.raise 2#16 ∧
      ((f.queue q).faultAddr = none → (g.queue q).faultAddr = some (((f.queue q).sqBase + 64 * (f.queue q).fetch) / 64 * 64, true))) ∧
    (∀ q : Fin 4, s.ctl.mayFetch f q = false → exec (.sqFetchFault fn q) s = .next s) ∧
    (∀ (h : Handle) (n : Nat), (∀ x, s.ctl.objs.sessions.find? (fun x => x.fn = fn && handleOf .session x.ix = h) = some x →
      min n x.written.length = 0) → exec (.outputWriteFault fn h n) s = .next s) ∧
    ∀ (h : Handle) (n : Nat) (x : Session), s.ctl.objs.sessions.find? (fun x => x.fn = fn && handleOf .session x.ix = h) = some x →
      0 < min n x.written.length → ∃ t g y, exec (.outputWriteFault fn h n) s = .next t ∧ t.dp = s.dp ∧ t.cfg = s.cfg ∧
        t.ctl.fn? fn = some g ∧ g.event = f.event.raise 4#16 ∧ y ∈ t.ctl.objs.sessions ∧ y.ix = x.ix ∧ y.fn = fn ∧
        y.kept = (x.written.take (min n x.written.length)).reverse ++ x.kept ∧ y.tail = x.tail - min n x.written.length ∧
        y.stopped = some x.genQueue

/-- Steps of jobs that time brings (R178, R201, R48): an activation that waits for space is tried again; one whose epoch is placed has it loaded, or,
where a block's master copy cannot be read, damages the images that need it (R209); an installation whose records and digests are in is judged, READY
where every check passes; a plan that has been read is judged, and takes its place where every check passes. A job that is suspended, over, of
another kind or gone changes nothing, nor does one that waits for its site's link (R330). -/
def Obligations.JobsAdvanceInTheirSteps : Prop :=
  (∀ (s : State) (fn : BitVec 8) (h : Handle) (unread : Option Nat) (data : InstallData) (plan : HostRead (Option Plan)),
    (s.ctl.job? fn (ixOf h) = none ∨ ∃ j, s.ctl.job? fn (ixOf h) = some j ∧ (j.over = true ∨ j.st = .suspended)) →
    exec (.awaitSpaceResume fn h) s = .next s ∧ exec (.epochLoaded fn ⟨h, unread⟩) s = .next s ∧ exec (.imageReady fn h data) s = .next s ∧
      exec (.planLoadComplete fn h plan) s = .next s) ∧
  (∀ (s : State) (fn : BitVec 8) (h : Handle) (j : Job) (data : InstallData) (plan : HostRead (Option Plan)),
    s.ctl.job? fn (ixOf h) = some j → j.wait = 8 → exec (.imageReady fn h data) s = .next s ∧ exec (.planLoadComplete fn h plan) s = .next s) ∧
  ∀ (s : State) (fn : BitVec 8) (h : Handle) (j : Job), s.ctl.job? fn (ixOf h) = some j →
    (j.over = false → j.st = .waiting → j.wait = 3 → exec (.awaitSpaceResume fn h) s = .next (s.withCtl (s.ctl.allocActivate j false))) ∧
    ((j.st ≠ .waiting ∨ j.wait ≠ 3) → exec (.awaitSpaceResume fn h) s = .next s) ∧
    (∀ (image num : Nat) (cutover tablesOnly ended : Bool) (base : Option (Nat × Nat)) (tables : List Byte) (e : Epoch),
      j.kind = .activate image cutover tablesOnly (some num) base tables false ended → j.over = false → j.st ≠ .suspended →
      s.ctl.epoch? image num = some e →
      (∃ t k, exec (.epochLoaded fn ⟨h, none⟩) s = .next t ∧ t.cfg = s.cfg ∧ t.dp = loadEpoch s.ctl s.dp e ∧
        t.ctl.job? fn (ixOf h) = some k ∧ k.kind = .activate image cutover tablesOnly (some num) base tables true ended ∧
        k.progress = j.limit ∧ t.ctl.objs.epochs = s.ctl.objs.epochs) ∧
      ∀ b : Nat, exec (.epochLoaded fn ⟨h, some b⟩) s = .next (s.withCtl (s.ctl.damageBlock s.cfg image (some b)))) ∧
    (∀ (image : Nat) (handle : Nat) (manifest : List Byte) (mf : Manifest) (data : InstallData),
      j.kind = .install image handle manifest → j.over = false → j.st ≠ .suspended → j.wait ≠ 8 → (s.ctl.image? image).isSome = true →
      manifestOf manifest = some mf → ∃ t, exec (.imageReady fn h data) s = .next t ∧ t.dp = s.dp ∧ t.cfg = s.cfg ∧
        (s.ctl.installFails mf manifest data = none → ∃ i, t.ctl.image? image = some i ∧ i.st = .ready ∧ i.without = s.ctl.cof.lost) ∧
        ∀ status, s.ctl.installFails mf manifest data = some status → t.ctl = (s.ctl.dropInstall image).finishJob j status 0#32 0) ∧
    ∀ (name : BitVec 128) (length : Nat) (data : HostRead (Option Plan)), j.kind = .planLoad name length → j.over = false → j.st = .running → j.wait ≠ 8 →
      (∀ status, s.ctl.planLoaded? data = .inr status →
        exec (.planLoadComplete fn h data) s = .next (s.withCtl (s.ctl.finishJob j status 0#32 0))) ∧
      ∀ (p : Plan) (r : Ctl), s.ctl.planLoaded? data = .inl p → r = s.ctl.replacePlan p.name →
        (∀ (ix : Nat) (g : Fn), (r.fn? fn).bind (fun f => f.issueSelf .plan) = some (ix, g) →
          exec (.planLoadComplete fn h data) s = .next (s.withCtl (((((r.onFn fn fun _ => g).onObjs fun o =>
            { o with plans := o.plans ++ [⟨ix, p, ((r.objs.plans.map (·.order)).foldl max 0) + 1, false⟩] }).program s.cfg length).finishJob
              { j with progress := length, moved := s.ctl.hub.tick } Status.success (handleOf .plan ix) 0)))) ∧
        ((r.fn? fn).bind (fun f => f.issueSelf .plan) = none →
          exec (.planLoadComplete fn h data) s = .next (s.withCtl (r.finishJob j Status.noSpace 0#32 0)))

/-! ### Streams (06) -/

/-- A core's FXE takes the next entry of the frame program's list or of its cluster's list of its microbatch's epoch (R157, R197). One that issues inside
its segment at or after its scheduled cycle, fits, and finds its queue and area free issues (R19, R40, R161, R162): a new flight stands behind the
others with the entry, its receivers and its parts, and no byte of memory changes; outside its segment, before its cycle, without an entry or without
room it changes nothing, and one that names bytes that do not exist faults. When every part of a block has been read, the block stands at its
destination in every receiving store, byte for byte, and its flight is gone (R163, R164). -/
def Obligations.EntriesIssueAndBlocksLand : Prop :=
  ∀ s : State,
    (∀ i : FxeIssue, (s.ctl.issues i.core.yard i.core.cluster.val i.at0 = false ∨ s.ctl.entryOf s.dp i.core i.entry = none) →
      exec (.fxeEntryIssue i) s = .next s) ∧
    (∀ (i : FxeIssue) (e : BlockEntry), s.ctl.issues i.core.yard i.core.cluster.val i.at0 = true →
      s.ctl.entryOf s.dp i.core i.entry = some e →
      (s.ctl.entryFits e = true → s.ctl.issueReady s.dp i.core.yard (s.ctl.receivers i.core e) e = true →
        ∃ t f, exec (.fxeEntryIssue i) s = .next t ∧ t.ctl = s.ctl ∧ t.cfg = s.cfg ∧ t.dp.mem = s.dp.mem ∧ t.dp.poison = s.dp.poison ∧
          t.dp.flights = s.dp.flights ++ [f] ∧ f.id = s.dp.nextFlight ∧ t.dp.nextFlight = s.dp.nextFlight + 1 ∧ f.entry = e ∧
          f.yard = i.core.yard ∧ f.clusters = s.ctl.landClusters i.core.yard (s.ctl.receivers i.core e) ∧
          f.cores = s.ctl.landCores i.core.yard (s.ctl.receivers i.core e) ∧ f.parts = s.ctl.entryParts s.dp i.core e ∧
          (e.noToken = true → t.dp.queues = s.dp.queues)) ∧
      (s.ctl.entryFits e = true → s.ctl.issueReady s.dp i.core.yard (s.ctl.receivers i.core e) e = false →
        exec (.fxeEntryIssue i) s = .next s) ∧
      (s.ctl.entryFits e = false → exec (.fxeEntryIssue i) s = .fault .noSuchAddress)) ∧
    (∀ (k : Yard) (id : Nat), (∀ f, s.dp.flight? k id = some f → f.whole = none) → exec (.fxeBlockArrival k id) s = .next s) ∧
    ∀ (k : Yard) (id : Nat) (f : Flight) (bs : List Byte) (marks : List Bool), s.dp.flight? k id = some f → f.whole = some (bs, marks) →
      ∃ t, exec (.fxeBlockArrival k id) s = .next t ∧ t.ctl = s.ctl ∧ t.cfg = s.cfg ∧ t.dp.flights = s.dp.flights.filter (·.id ≠ id) ∧
        (s.dp.mem.wf = true → f.entry.store = .core → (entryArea f.entry).off + bs.length ≤ coreBytes →
          (∀ core ∈ f.cores, t.dp.mem.readN (coreKey core (entryArea f.entry).off) bs.length = bs) ∧
          s.dp.sameOutside t.dp (f.cores.map fun core => (coreKey core (entryArea f.entry).off, bs.length))) ∧
        (s.dp.mem.wf = true → f.entry.store = .cluster → (entryArea f.entry).off + bs.length ≤ clusterBytes →
          (∀ clu ∈ f.clusters, t.dp.mem.readN (clusterKey clu (entryArea f.entry).off) bs.length = bs) ∧
          s.dp.sameOutside t.dp (f.clusters.map fun clu => (clusterKey clu (entryArea f.entry).off, bs.length)))

/-- A part of a block is read from its tier once (R151, R168, R169, R170, R171, R390): memory stands, the part is done, and it holds the tier's bytes
without poison where no unit is poisoned, lost or under an unfenced write, those of the shed as its reader's key gives them (R172); an uncorrectable
read, and one through a port that is down or held, is poison; a corrected read, a poisoned one and a late one raise their events; a range that does
not exist faults, and a part that there is not, of another tier or already read changes nothing.
The expander's block (R149, R182, R193): a record that passes its checks gives its expanded bytes without poison and leaves every control, and
one that fails is poison and latches its check; memory stands either way, and a flight without a record to expand changes nothing. -/
def Obligations.TierReadsDeliverDataOrPoison : Prop :=
  (∀ (s : State) (k : Yard) (id i : Nat) (r : FastResult) (bad late : Bool),
    ((∀ f p, s.dp.flight? k id = some f → f.parts[i]? = some p → p.tier ≠ .fast ∨ p.done = true) →
      exec (.fastRead k id i r late) s = .next s) ∧
    ((∀ f p, s.dp.flight? k id = some f → f.parts[i]? = some p → p.tier ≠ .shed ∨ p.done = true) →
      exec (.shedRead k id i bad late) s = .next s)) ∧
  (∀ (s : State) (k : Yard) (id i : Nat) (f : Flight) (p : Part), s.dp.flight? k id = some f → f.parts[i]? = some p → p.done = false →
    (∀ (r : FastResult) (late : Bool), p.tier = .fast → fastIn p.addr p.bytes = true →
      ∃ t g q, exec (.fastRead k id i r late) s = .next t ∧ t.cfg = s.cfg ∧ t.dp.mem = s.dp.mem ∧ t.ctl.objs = s.ctl.objs ∧
        t.dp.flight? k id = some g ∧ g.parts[i]? = some q ∧ q.done = true ∧ q.poison.length = p.bytes / 64 ∧
        (r ≠ .uncorrectable → p.bytes % 64 = 0 → s.dp.unfenced = [] →
          (∀ n < p.bytes / 64, s.dp.poison.contains (fastKey p.addr / 64 + n) = false ∧ s.ctl.addrLost (p.addr + 64 * n) = false) →
          p.addr % 64 = 0 → q.data = s.dp.mem.readN (fastKey p.addr) p.bytes ∧ q.poison.any id = false) ∧
        (r = .uncorrectable → q.poison.all id = true ∧ (64 ≤ p.bytes → (t.ctl.ev (.mem (ownerOf p.addr))).bits.getLsbD 2 = true)) ∧
        ((r = .retriedClean ∨ r = .corrected) → (t.ctl.ev (.mem (ownerOf p.addr))).bits.getLsbD 1 = true) ∧
        (late = true → (t.ctl.ev (.yras (s.ctl.home k))).bits.getLsbD 14 = true)) ∧
    (∀ (r : FastResult) (late : Bool), p.tier = .fast → fastIn p.addr p.bytes = false →
      exec (.fastRead k id i r late) s = .fault .noSuchAddress) ∧
    (∀ (bad late : Bool), p.tier = .shed → s.ctl.shedIn p.addr p.bytes = true →
      ∃ t g q, exec (.shedRead k id i bad late) s = .next t ∧ t.cfg = s.cfg ∧ t.dp.mem = s.dp.mem ∧ t.ctl.objs = s.ctl.objs ∧
        t.dp.flight? k id = some g ∧ g.parts[i]? = some q ∧ q.done = true ∧ q.poison.length = p.bytes / 64 ∧
        (bad = false → (s.ctl.port (p.addr / 2 ^ 44)).up = true → (s.ctl.port (p.addr / 2 ^ 44)).held = false → p.bytes % 64 = 0 →
          s.dp.unfenced = [] → (∀ n < p.bytes / 64, s.dp.poison.contains (shedKeyOf p.addr / 64 + n) = false) → p.addr % 64 = 0 →
          q.data = (List.range (p.bytes / 64)).flatMap (fun n => s.dp.shedUnit (s.ctl.blockKey k f.stall) (p.addr / 64 + n)) ∧
            q.poison.any id = false) ∧
        ((bad = true ∨ (s.ctl.port (p.addr / 2 ^ 44)).up = false ∨ (s.ctl.port (p.addr / 2 ^ 44)).held = true) →
          q.poison.all id = true ∧ (64 ≤ p.bytes → (t.ctl.ev (.mem (s.ctl.home k))).bits.getLsbD 6 = true)) ∧
        (late = true → (t.ctl.ev (.yras (s.ctl.home k))).bits.getLsbD 14 = true)) ∧
    ∀ (bad late : Bool), p.tier = .shed → s.ctl.shedIn p.addr p.bytes = false → exec (.shedRead k id i bad late) s = .fault .noSuchAddress) ∧
  (∀ (s : State) (k : Yard) (id : Nat) (bad : List Nat) (late : Bool),
    (∀ f, s.dp.flight? k id = some f → f.entry.comp = false ∨ f.expanded ≠ none) → exec (.expanderBlock k ⟨id, bad⟩ late) s = .next s) ∧
  ∀ (s : State) (k : Yard) (id : Nat) (f : Flight) (bad : List Nat) (late : Bool), s.dp.flight? k id = some f → f.entry.comp = true →
    f.expanded = none →
    ∃ t g out, exec (.expanderBlock k ⟨id, bad⟩ late) s = .next t ∧ t.cfg = s.cfg ∧ t.dp.mem = s.dp.mem ∧
      t.dp.poison = (s.dp.badUnits s.ctl f.entry.addr.toNat bad).poison ∧ (bad = [] → t.dp.poison = s.dp.poison) ∧
      t.dp.flight? k id = some g ∧ g.expanded = some out ∧
      (∀ bs, expand s.ctl (s.dp.badUnits s.ctl f.entry.addr.toNat bad) f.entry.addr.toNat f.entry.len = .inl bs →
        out = (bs, false) ∧ (late = false → t.ctl = s.ctl)) ∧
      (late = true → (t.ctl.ev (.yras (s.ctl.home k))).bits.getLsbD 14 = true) ∧
      ∀ x, expand s.ctl (s.dp.badUnits s.ctl f.entry.addr.toNat bad) f.entry.addr.toNat f.entry.len = .inr x → out.2 = true ∧
        ((t.ctl.yd (ownerOf f.entry.addr.toNat)).check (f.entry.addr.toNat / 2 ^ 37 % 2)).flag = true

/-- The scatter engine (R19, R40, R165, R166, R167, R171): a write that issues and whose stall is outside the commit mask leaves memory, and one that
is made lands in the runs of its target; one of unconverted bytes to a single aligned run, with no earlier unfenced write, lands there byte for byte
and nowhere else, with the old contents kept until the fence; a fence holds every write of its cluster and keeps the others' writes of other units; a
barrier forms its yard's mask; a mark is recorded; an append scatter step commits the masked stalls of its yard (R229). A conversion to a format that
is none of its own and a range that does not exist fault; what does not issue changes nothing. -/
def Obligations.ScatterWritesAreGatedAndFenced : Prop :=
  ∀ s : State,
    (∀ (core : CoreRef) (at0 : When) (tag : RowTag) (e : BlockEntry) (conv : Option Fmt) (target : SxeTarget) (replayed late : Bool)
        (bs : List Byte), bs = sxeBytes conv (s.dp.mem.readN (locKey (s.ctl.core core) (entryArea e)) (entryBytes e)) →
      (s.ctl.issues core.yard core.cluster.val at0 = false → exec (.sxeWrite ⟨core, tag, at0⟩ e conv target replayed late) s = .next s) ∧
      (s.ctl.issues core.yard core.cluster.val at0 = true →
        (∀ f, conv = some f → (f.integer = true ∨ isElement f = false ∨ f = .fp32) →
          exec (.sxeWrite ⟨core, tag, at0⟩ e conv target replayed late) s = .fault .badFormat) ∧
        ((∀ f, conv = some f → f.integer = false ∧ isElement f = true ∧ f ≠ .fp32) → s.ctl.sxeFits e target bs.length = false →
          exec (.sxeWrite ⟨core, tag, at0⟩ e conv target replayed late) s = .fault .noSuchAddress) ∧
        ((∀ f, conv = some f → f.integer = false ∧ isElement f = true ∧ f ≠ .fp32) → s.ctl.sxeFits e target bs.length = true →
          ∃ t marks, exec (.sxeWrite ⟨core, tag, at0⟩ e conv target replayed late) s = .next t ∧ t.cfg = s.cfg ∧
            (replayed = true → (t.ctl.ev (.mem (s.ctl.home core.yard))).bits.getLsbD 5 = true) ∧
            (late = true → (t.ctl.ev (.yras (s.ctl.home core.yard))).bits.getLsbD 14 = true) ∧
            (replayed = false → late = false → t.ctl = if target = .entry ∧ e.rel = true ∧ e.addr.toNat >>> 60 = 4 ∧
              s.dp.gateOpen core.yard e = true then s.ctl.writeScores core.yard e.addr bs else s.ctl) ∧
            (s.dp.gateOpen core.yard e = false → t.dp.mem = s.dp.mem ∧ t.dp.unfenced = s.dp.unfenced ∧ t.dp.poison = s.dp.poison) ∧
            (s.dp.gateOpen core.yard e = true → t.dp.mem = (s.ctl.sxeLand s.dp core tag e target bs marks).mem ∧
              t.dp.unfenced = (s.ctl.sxeLand s.dp core tag e target bs marks).unfenced) ∧
            ∀ key : Nat, conv = none → s.dp.gateOpen core.yard e = true → s.ctl.sxeTargets core e target (64 * e.len) = [(key, 0, 64 * e.len)] →
              key % 64 = 0 → key + 64 * e.len ≤ shedKeyOf 0 → s.dp.unfenced = [] → s.dp.mem.wf = true →
              t.dp.mem.readN key (64 * e.len) = s.dp.mem.readN (locKey (s.ctl.core core) (entryArea e)) (64 * e.len) ∧
              s.dp.sameOutside t.dp [(key, 64 * e.len)] ∧
              ∀ n < e.len, ∃ w ∈ t.dp.unfenced, w.unit = key / 64 + n ∧ w.old = s.dp.mem.readN (key + 64 * n) 64 ∧
                w.cluster = s.ctl.clu core.yard core.cluster.val))) ∧
    (∀ (k : Yard) (l : Cluster) (ident : Word) (at0 : When), s.ctl.issues k l.val at0 = false →
      exec (.wfence ⟨k, at0⟩ l) s = .next s ∧ exec (.mark k l ident at0) s = .next s) ∧
    (∀ (k : Yard) (l : Cluster) (at0 : When), s.ctl.issues k l.val at0 = true → ∃ t, exec (.wfence ⟨k, at0⟩ l) s = .next t ∧ t.ctl = s.ctl ∧
      t.cfg = s.cfg ∧ t.dp.mem = s.dp.mem ∧ t.dp.unfenced = fenceWrites (s.ctl.clu k l.val) s.dp.unfenced [] ∧
      (∀ w ∈ t.dp.unfenced, w ∈ s.dp.unfenced ∧ w.cluster ≠ s.ctl.clu k l.val) ∧
      ∀ w ∈ s.dp.unfenced, (∀ v ∈ s.dp.unfenced, v.cluster = s.ctl.clu k l.val → v.unit ≠ w.unit) → w.cluster ≠ s.ctl.clu k l.val →
        w ∈ t.dp.unfenced) ∧
    (∀ (k : Yard) (at0 : When), ((at0.sched ≤ at0.cycle ∧ ∃ l : Cluster, s.ctl.segment k l.val = true) →
        ∃ t, exec (.clusterBarrier ⟨k, at0⟩) s = .next t ∧ t.ctl = s.ctl ∧ t.cfg = s.cfg ∧ t.dp.mem = s.dp.mem ∧
          t.dp.commit.find? (fun x => x.1 = k) = some (k, commitMask s.ctl s.dp k) ∧
          ∀ x : Yard × List Nat, x.1 ≠ k → (x ∈ t.dp.commit ↔ x ∈ s.dp.commit)) ∧
      ((at0.cycle < at0.sched ∨ ∀ l : Cluster, s.ctl.segment k l.val = false) → exec (.clusterBarrier ⟨k, at0⟩) s = .next s)) ∧
    (∀ (k : Yard) (l : Cluster) (ident : Word) (at0 : When), s.ctl.issues k l.val at0 = true → exec (.mark k l ident at0) s =
      .next ({ s with dp := s.dp.retireInstr k l }.withCtl
        (s.ctl.markRecord s.cfg (k.val * 4096 + l.val) at0.cycle ident 0#8 0 0 0#32))) ∧
    (∀ (k : Yard) (ws : List KvWrite), (s.ctl.hub.halted = true ∨ s.ctl.plan? = none ∨ s.ctl.microIn k = none) →
      exec (.appendScatterStep k ws) s = .next s) ∧
    ∀ (k : Yard) (ws : List KvWrite) (p : Plan) (m : Micro), s.ctl.hub.halted = false → s.ctl.plan? = some p → s.ctl.microIn k = some m →
      ∃ t, exec (.appendScatterStep k ws) s = .next t ∧ t.cfg = s.cfg ∧ ∀ x ∈ t.ctl.fe.pipe, x.yard = k.val →
        ∀ (i : Nat) (st : Stall), x.stalls[i]? = some st → i ∈ ((s.dp.commit.find? (·.1 = k)).map (·.2)).getD [] → k.val ∈ st.committed

/-- Refreshes (R58, R60, R61, R63, R64): a scheduled one is recorded; an idle channel's is made 3,840 ACLK after the last and not on a busy yard; a busy channel's is forced beyond 6,912 ACLK after the last ended, a breach of its class,
and before the tick's length has passed a breach by the plan as well. Memory and engines stand. -/
def Obligations.RefreshesAreKeptAndForced : Prop :=
  ∀ (s : State) (k : Yard) (i : Fin 64) (cycle : Nat),
    exec (.refresh k i cycle) s = .next (s.withCtl (s.ctl.refreshAt k i cycle)) ∧
    (s.ctl.yardBusy k = false → 3840 ≤ (cycle : Int) - (s.ctl.channel k i.val).refreshed →
      exec (.idleRefresh k i cycle) s = .next (s.withCtl (s.ctl.refreshAt k i cycle))) ∧
    ((s.ctl.yardBusy k = true ∨ (cycle : Int) - (s.ctl.channel k i.val).refreshed < 3840) → exec (.idleRefresh k i cycle) s = .next s) ∧
    (s.ctl.yardBusy k = true → 7680 < (cycle : Int) - (s.ctl.channel k i.val).refreshed →
      ∃ t, exec (.forcedRefresh k i cycle) s = .next t ∧ t.dp = s.dp ∧ t.cfg = s.cfg ∧ t.ctl.objs = s.ctl.objs ∧
        (t.ctl.yd k).channels = ((s.ctl.refreshAt k i cycle).yd k).channels ∧
        t.ctl.ev (.yras k) = (s.ctl.ev (.yras k)).raise 0x4000#16 ∧
        t.ctl.ev .hub = if cycle < s.ctl.tickLen then (s.ctl.ev .hub).raise 2#16 else s.ctl.ev .hub) ∧
    ((s.ctl.yardBusy k = false ∨ (cycle : Int) - (s.ctl.channel k i.val).refreshed ≤ 7680) → exec (.forcedRefresh k i cycle) s = .next s)

/-- The near-memory engines (R221, R222, R223, R224): an operation that issues, of the layer's kind in an integer format, whose operands fit, completes;
it writes the triples of its heads and its mass record and no other byte, and where no attended block is poisoned or lost and it is not late it leaves
every control. An operation of a layer without a KV descriptor in an integer format, or of the other kind, faults, as one does whose operands do not
exist; one that does not issue changes nothing. -/
def Obligations.NearMemoryEnginesComplete : Prop :=
  ∀ (s : State) (o : NmaOp),
    (s.ctl.issues o.core.yard o.core.cluster.val o.at0 = false → exec (.nmaLatent o) s = .next s ∧ exec (.nmaGqa o) s = .next s) ∧
    (s.ctl.issues o.core.yard o.core.cluster.val o.at0 = true →
      (∀ (x : KvDesc) (f : Fmt), s.ctl.kvDesc o.core.yard o.layer.toNat = some x → (x.format = 8 ∧ f = .int8 ∨ x.format = 10 ∧ f = .uint8) →
        ∀ c ∈ [(0, Instr.nmaLatent o), (1, Instr.nmaGqa o)],
        (x.kind = c.1 → s.ctl.nmaFits o x = true → ∃ t core sh heads mass, exec c.2 s = .next t ∧ t.cfg = s.cfg ∧ core = s.ctl.core o.core ∧
          sh = kvShape x o.kvHead ∧
          heads = (List.range sh.heads).map (s.dp.nmaHeadOf core o x f sh (s.ctl.nmaEntries s.dp o x sh).1
            ((s.ctl.nmaBlocks o).map fun e => (fun i => s.dp.mem.read (fastKey (e.addr + i)), e.count))) ∧
          mass = ((List.range (s.ctl.nmaBlocks o).length).flatMap fun b => heads.map fun h => h.2.getD b 0#32) ∧
          t.dp.mem = (s.dp.mem.writeN (coreKey core o.triples) (heads.flatMap fun h => h.1.bytes)).writeN (coreKey core o.mass)
            (wordBytes mass ++ List.replicate (massBytes sh.heads (s.ctl.nmaBlocks o).length - 4 * mass.length) 0#8) ∧
          (s.ctl.nmaBad s.dp o x = [] → o.late = false → t.ctl = s.ctl) ∧
          (o.late = true → (t.ctl.ev (.yras (s.ctl.home o.core.yard))).bits.getLsbD 14 = true)) ∧
        (x.kind = c.1 → s.ctl.nmaFits o x = false → exec c.2 s = .fault .noSuchAddress) ∧
        (x.kind ≠ c.1 → exec c.2 s = .fault .badFormat)) ∧
      ((∀ x : KvDesc, s.ctl.kvDesc o.core.yard o.layer.toNat = some x → x.format ≠ 8 ∧ x.format ≠ 10) →
        exec (.nmaLatent o) s = .fault .badFormat ∧ exec (.nmaGqa o) s = .fault .badFormat))

/-! ### Engines, statistics, row functions (03, 04, 05) -/

/-- The instructions of the lanes (R100, R101, R102, R127, R489): on operands that are there, each writes its 32 results to its destination in
the destination's format, raises the flags of the results and of the write, and changes nothing else but its counts. An operand whose data have
not arrived makes its consumer wait, and nothing else of the device changes (R163); outside its segment or before its cycle no instruction issues
(R19, R40); a destination or operand that no store has faults; in a faulty cluster none raises a flag (R379). -/
def Obligations.LaneInstructionsWriteTheirResults : Prop :=
  ∀ (s : State) (o : EngOp) (d : Dst) (dest : Nat) (rel : Rel) (a b c : Src),
    isElement a.fmt = true → isElement b.fmt = true → isElement c.fmt = true → isElement d.fmt = true →
    (dstFits d 32 = true → ∀ ls, Ready s o (laneNeeds [a] 32) ls →
      ∀ p ∈ [(Instr.abs o a d, absLane), (.neg o a d, negLane), (.cvt o a d, cvtLane d.fmt)],
        ∃ t, exec p.1 s = .next t ∧ LanesWritten s t o d (mapLanes p.2 (s.lanesAt o a (locOf ls 0) (locOf ls 1)))) ∧
    (∀ ls, Ready s o (laneNeeds [a, b] 32) ls →
      (dstFits d 32 = true →
        ∀ p ∈ [(Instr.add o a b d, addF32), (.sub o a b d, subF32), (.mul o a b d, mulF32), (.min o a b d, minF32), (.max o a b d, maxF32)],
          ∃ t, exec p.1 s = .next t ∧ LanesWritten s t o d
            (zipLanes p.2 (s.lanesAt o a (locOf ls 0) (locOf ls 1)) (s.lanesAt o b (locOf ls 2) (locOf ls 3)))) ∧
      (dstFits (rawDst dest) 32 = true → ∃ t, exec (.cmp o rel a b dest) s = .next t ∧ LanesWritten s t o (rawDst dest)
        (zipLanes (cmpLane rel) (s.lanesAt o a (locOf ls 0) (locOf ls 1)) (s.lanesAt o b (locOf ls 2) (locOf ls 3))))) ∧
    (∀ ls x y z, Ready s o (laneNeeds [a, b, c] 32) ls → x = s.lanesAt o a (locOf ls 0) (locOf ls 1) →
      y = s.lanesAt o b (locOf ls 2) (locOf ls 3) → z = s.lanesAt o c (locOf ls 4) (locOf ls 5) →
      (dstFits d 32 = true → ∃ t, exec (.fma o a b c d) s = .next t ∧ LanesWritten s t o d
        (((x.zip y).zipWith (fun p w => fmaF32 p.1 p.2 w) z).map (·.1), ArithFlags.orAll (((x.zip y).zipWith (fun p w => fmaF32 p.1 p.2 w) z).map (·.2)))) ∧
      (dstFits (rawDst dest) 32 = true → ∃ t, exec (.sel o a b c dest) s = .next t ∧ LanesWritten s t o (rawDst dest)
        ((x.zip y).zipWith (fun p w => selLane p.1 p.2 w) z, {}))) ∧
    ∀ q ∈ [([Instr.abs o a d, .neg o a d, .cvt o a d], [a], d), ([.add o a b d, .sub o a b d, .mul o a b d, .min o a b d, .max o a b d], [a, b], d),
        ([.cmp o rel a b dest], [a, b], rawDst dest), ([.fma o a b c d], [a, b, c], d), ([.sel o a b c dest], [a, b, c], rawDst dest)], ∀ i ∈ q.1,
      (s.ctl.issues o.core.yard o.core.cluster.val o.at0 = false → exec i s = .next s) ∧
      (s.ctl.issues o.core.yard o.core.cluster.val o.at0 = true →
        (∀ w, s.waitOf o (laneNeeds q.2.1 32) = some w → exec i s = .next (s.withDp (s.dp.setWait (s.ctl.core o.core) w.1 w.2))) ∧
        (s.waitOf o (laneNeeds q.2.1 32) = none →
          (dstFits q.2.2 32 = false → exec i s = .fault .noSuchAddress) ∧
          ((s.ctl.seq o.core.yard o.core.cluster.val).faulty = true → ∀ t, exec i s = .next t → EnginesAlone s t ∧ t.dp.flags = s.dp.flags)))

/-- Reductions and row statistics (R100, R103, R122, R123, R125, R126): a reduction writes the tree's one result, in FP32 or converted; an
accumulation enters each lane into its own partial and a merge writes the combination to its partial, and neither touches memory; VAR_FINISH writes
μ and M2 / n, and RMS_FINISH its pair. Outside its segment or before its cycle none of them issues (R19, R40). -/
def Obligations.ReductionsAndStatistics : Prop :=
  ∀ (s : State) (o : EngOp) (a : Src) (d : Dst) (slot : Byte) (x y z : PartRef) (eps : Word), isElement a.fmt = true → isElement d.fmt = true →
    (∀ ls, Ready s o (laneNeeds [a] 32) ls →
      (dstFits d 1 = true → ∀ p ∈ [(Instr.rsum o a d, addF32, sumId), (.rmax o a d, maxF32, maxId), (.rmin o a d, minF32, minId)],
        ∃ t, exec p.1 s = .next t ∧ LanesWritten s t o d ([(reduceChunk p.2.1 p.2.2 (s.lanesAt o a (locOf ls 0) (locOf ls 1))).1],
          (reduceChunk p.2.1 p.2.2 (s.lanesAt o a (locOf ls 0) (locOf ls 1))).2)) ∧
      (Sparse.wf {} s.dp.wparts = true →
        ∃ t, exec (.welfordAcc o slot a) s = .next t ∧ EnginesAlone s t ∧ t.dp.mem = s.dp.mem ∧ t.dp.sparts = s.dp.sparts ∧
          (∀ i < 32, t.dp.wpart (partKey (s.ctl.core o.core) slot.toNat i) =
            (welfordStep (s.dp.wpart (partKey (s.ctl.core o.core) slot.toNat i)) ((s.lanesAt o a (locOf ls 0) (locOf ls 1)).getD i 0#32)
              (s.marked o (laneNeeds [a] 32))).1) ∧
          ∀ k, (∀ i < 32, k ≠ partKey (s.ctl.core o.core) slot.toNat i) → t.dp.wpart k = s.dp.wpart k) ∧
      (Sparse.wf {} s.dp.sparts = true →
        ∃ t, exec (.ssqAcc o slot a) s = .next t ∧ EnginesAlone s t ∧ t.dp.mem = s.dp.mem ∧ t.dp.wparts = s.dp.wparts ∧
          (∀ i < 32, t.dp.spart (partKey (s.ctl.core o.core) slot.toNat i) =
            (ssqStep (s.dp.spart (partKey (s.ctl.core o.core) slot.toNat i)) ((s.lanesAt o a (locOf ls 0) (locOf ls 1)).getD i 0#32)
              (s.marked o (laneNeeds [a] 32))).1) ∧
          ∀ k, (∀ i < 32, k ≠ partKey (s.ctl.core o.core) slot.toNat i) → t.dp.spart k = s.dp.spart k)) ∧
    (Ready s o [] [] →
      (∃ t, exec (.welfordMerge o x y z) s = .next t ∧ EnginesAlone s t ∧ t.dp.mem = s.dp.mem ∧ t.dp.sparts = s.dp.sparts ∧
        t.dp.wparts = (s.dp.setWpart (s.ctl.partAt o.core.yard z)
          (welfordPair (s.dp.wpart (s.ctl.partAt o.core.yard x)) (s.dp.wpart (s.ctl.partAt o.core.yard y))).1).wparts) ∧
      (∃ t, exec (.ssqMerge o x y z) s = .next t ∧ EnginesAlone s t ∧ t.dp.mem = s.dp.mem ∧ t.dp.wparts = s.dp.wparts ∧
        t.dp.sparts = (s.dp.setSpart (s.ctl.partAt o.core.yard z)
          (ssqPair (s.dp.spart (s.ctl.partAt o.core.yard x)) (s.dp.spart (s.ctl.partAt o.core.yard y))).1).sparts) ∧
      (dstFits d 2 = true →
        (∃ t, exec (.varFinish o x d) s = .next t ∧ LanesWritten s t o d
          ([(s.dp.wpart (s.ctl.partAt o.core.yard x)).mu,
            (divF32 (s.dp.wpart (s.ctl.partAt o.core.yard x)).m2 (countF32 (s.dp.wpart (s.ctl.partAt o.core.yard x)).n)).1],
            (divF32 (s.dp.wpart (s.ctl.partAt o.core.yard x)).m2 (countF32 (s.dp.wpart (s.ctl.partAt o.core.yard x)).n)).2)) ∧
        ∃ t, exec (.rmsFinish o x eps d) s = .next t ∧ LanesWritten s t o d
          ([(rmsPair (s.dp.spart (s.ctl.partAt o.core.yard x)) eps).1.1, (rmsPair (s.dp.spart (s.ctl.partAt o.core.yard x)) eps).1.2],
            (rmsPair (s.dp.spart (s.ctl.partAt o.core.yard x)) eps).2))) ∧
    (s.ctl.issues o.core.yard o.core.cluster.val o.at0 = false → ∀ i ∈ [Instr.rsum o a d, .rmax o a d, .rmin o a d, .welfordAcc o slot a,
      .ssqAcc o slot a, .welfordMerge o x y z, .ssqMerge o x y z, .varFinish o x d, .rmsFinish o x eps d], exec i s = .next s)

/-- The matrix engine (R85, R87, R88, R90, R92, R93, R94, R130): a dot product adds its group's sum to the accumulator with one rounding, or to the
pair of accumulators in pair mode, raises the flags of both, and counts its multiply-accumulates for its stall in the class of the slower operand
(R84); a merge adds another pair to a pair; a read-out writes accumulators to the core
store. No other byte changes. Outside its segment or before its cycle none of them issues (R19, R40). -/
def Obligations.DotProductsAccumulate : Prop :=
  ∀ (s : State) (o : EngOp) (core : Nat) (acc : BitVec 9), core = s.ctl.core o.core →
    (∀ (start : AccStart) (a b : Src) (n : Nat) (ls : List Loc) (g : FNum × ArithFlags), Ready s o (dotNeeds a b n) ls →
      isElement a.fmt = true → isElement b.fmt = true → n ≤ 32 →
      g = dotGroup (s.elemsAt o a (locOf ls 0) (locOf ls 1) n) (s.elemsAt o b (locOf ls 2) (locOf ls 3) n) →
      (startFits start 4 = true → ∃ t r, exec (.mxeDotProduct o acc false start a b n) s = .next t ∧ EnginesAlone s t ∧
        r = accAdd (s.dp.startAcc core acc.toNat start 0).1 g.1 ∧
        t.dp.mem = s.dp.mem.writeN (accKey core acc.toNat) (Bits.toLe r.1.toNat 4) ∧
        t.dp.flags = (s.dp.raiseFlags core .mxe (g.2.or r.2)).flags ∧
        t.dp.units = (s.dp.countUnits o.core.yard o.core.cluster.val o.tag.stall.toNat [(macClass a.fmt b.fmt, n)]).units) ∧
      (startFits start 8 = true → ∃ t r, exec (.mxeDotProduct o acc true start a b n) s = .next t ∧ EnginesAlone s t ∧
        r = pairAdd ((s.dp.startAcc core (pairBase acc) start 0).1, (s.dp.startAcc core (pairBase acc + 1) start 4).1) g.1 ∧
        t.dp.mem = (s.dp.mem.writeN (accKey core (pairBase acc)) (Bits.toLe r.1.1.toNat 4)).writeN
          (accKey core (pairBase acc + 1)) (Bits.toLe r.1.2.toNat 4) ∧
        t.dp.flags = (s.dp.raiseFlags core .mxe (g.2.or r.2)).flags ∧
        t.dp.units = (s.dp.countUnits o.core.yard o.core.cluster.val o.tag.stall.toNat [(macClass a.fmt b.fmt, n)]).units)) ∧
    (∀ second : Nat, Ready s o [] [] → locReadable ⟨.core, second⟩ 8 = true →
      ∃ t h l r, exec (.pairMerge o acc second) s = .next t ∧ EnginesAlone s t ∧ h = num32 (s.coreWord o second) ∧ l = num32 (s.coreWord o (second + 4)) ∧
        r = pairAdd (s.dp.acc core (pairBase acc), s.dp.acc core (pairBase acc + 1)) (h.add l) ∧
        t.dp.mem = (s.dp.mem.writeN (accKey core (pairBase acc)) (Bits.toLe r.1.1.toNat 4)).writeN
          (accKey core (pairBase acc + 1)) (Bits.toLe r.1.2.toNat 4) ∧
        t.dp.flags = (s.dp.raiseFlags core .mxe (r.2.or (snanFlags [h, l]))).flags) ∧
    (∀ (count : Nat) (pair hiOnly : Bool) (dest : Nat), Ready s o [] [] → locWritable ⟨.core, dest⟩ (count * readoutBytes pair hiOnly) = true →
      ∃ t, exec (.accReadout o acc count pair hiOnly dest) s = .next t ∧ EnginesAlone s t ∧ t.dp.flags = s.dp.flags ∧
        t.dp.mem = s.dp.mem.writeN (coreKey core dest) (wordBytes (s.dp.readout core acc count pair hiOnly))) ∧
    (s.ctl.issues o.core.yard o.core.cluster.val o.at0 = false → ∀ (start : AccStart) (a b : Src) (n : Nat) (pair hiOnly : Bool),
      ∀ i ∈ [Instr.mxeDotProduct o acc pair start a b n, .pairMerge o acc n, .accReadout o acc n pair hiOnly n], exec i s = .next s)

/-- The row functions (R104, R106, R114, R115, R118, R119, R120, R131, R132, R216): a tile of the softmax and a merge leave the triple that their rules
give, the finish writes the quotients; a special function writes the codes and the scale of its results, and faults on an empty slot; a rescale
writes each accumulator's value in the destination's format, a row quantization its codes and its pair, a KV conversion its codes, and the last two
fault on a format that they do not have. An operand that has not arrived makes its consumer wait (R163). -/
def Obligations.RowFunctionsWriteTheirRules : Prop :=
  ∀ (s : State) (o : EngOp) (core : Nat), core = s.ctl.core o.core →
    (∀ (x v : Src) (n d : Nat) (f : Fmt) (triple : Nat) (fresh : Bool) (ls : List Loc), Ready s o (smxNeeds x v n d) ls → isElement f = true →
      isElement x.fmt = true → isElement v.fmt = true → locWritable ⟨.core, triple⟩ (tripleBytes d) = true →
      ∃ t xs r, exec (.smxTile o x v n d f triple fresh) s = .next t ∧ EnginesAlone s t ∧ xs = s.dp.lanes core (locOf ls 0) (locOf ls 1) x n ∧
        r = smxTileOf (if fresh = true then Triple.fresh d else s.dp.triple (coreKey core triple) d) xs f (fun j => valueCol s.dp core ls v n d j) ∧
        t.dp.mem = (if allMasked xs = true then s.dp.mem.writeN (coreKey core triple) r.1.bytes
          else (r.1.o.mapIdx fun j y => (j, y)).foldl (fun m p => m.writeN (accKey core (p.1 % 512)) (Bits.toLe p.2.toNat 4))
            (s.dp.mem.writeN (coreKey core triple) r.1.bytes)) ∧
        t.dp.flags = ((s.dp.raiseFlags core .vxe r.2.1).raiseFlags core .mxe r.2.2).flags) ∧
    (∀ (a b : Place) (w dest : Nat) (ls : List Loc), Ready s o [⟨a, .vxe, [(0, tripleBytes w)]⟩, ⟨b, .vxe, [(0, tripleBytes w)]⟩] ls →
      locWritable ⟨.core, dest⟩ (tripleBytes w) = true → ∃ t r, exec (.smxMerge o a b ⟨dest, w⟩) s = .next t ∧ EnginesAlone s t ∧
        r = smxPair (s.dp.triple (locKey core (locOf ls 0)) w) (s.dp.triple (locKey core (locOf ls 1)) w) ∧
        t.dp.mem = s.dp.mem.writeN (coreKey core dest) r.1.bytes ∧ t.dp.flags = (s.dp.raiseFlags core .vxe r.2).flags) ∧
    (∀ (a w : Nat) (d : Dst) (ls : List Loc), Ready s o [⟨⟨a, none, false⟩, .vxe, [(0, 64 + 4 * w)]⟩] ls → isElement d.fmt = true →
      dstFits d w = true → ∃ t, exec (.smxFinish o ⟨a, w⟩ d) s = .next t ∧ LanesWritten s t o d (smxQuotients (s.dp.triple (coreKey core a) w))) ∧
    (∀ (acc : BitVec 9) (count : Nat) (pair : Bool) (table : Place) (rp : Option Nat) (d : Dst) (ls : List Loc),
      Ready s o (⟨table, .vxe, [(0, 16 * count)]⟩ :: rp.toList.map fun p => ⟨⟨p, none, false⟩, .vxe, [(0, 8)]⟩) ls →
      isElement d.fmt = true → dstFits d count = true → ∃ t es ys, exec (.rescale o acc count pair table rp d) s = .next t ∧
        es = ((List.range count).map fun j => s.dp.rescaleEntry (locKey core (locOf ls 0) + 16 * j)) ∧
        ys = (es.mapIdx fun j e => rescaleLane (s.dp.accValue core acc j pair).1 (s.dp.accValue core acc j pair).2 e
          ((rp.map (s.coreWord o)).getD 0x3F800000#32)) ∧
        RunWritten s t o d count (writtenPer d.fmt es (ys.map (·.1))) ∧
        t.dp.flags = ((s.dp.raiseFlags core .vxe (ArithFlags.orAll (ys.map (·.2)))).raiseFlags core .vxe
          (writtenPer d.fmt es (ys.map (·.1))).fl).flags) ∧
    (∀ (row : List (Place × Nat)) (f : Fmt) (codes : Loc) (pair : Nat),
      (∀ ls, Ready s o (rowNeeds row) ls → f.integer = true → locWritable codes (codeBytes f (row.map (·.2)).sum) = true →
        locWritable ⟨.core, pair⟩ 8 = true → ∃ t ws p, exec (.rowq o row f codes.store codes.off pair) s = .next t ∧ EnginesAlone s t ∧
          ws = s.dp.rowWords core ls row ∧ p = rowPairOf f (ws.map num32) ∧
          t.dp.mem = (s.dp.mem.writeN (locKey core codes) (codesToBytes f ((rowCodes f p.1 p.2 ws).map fun r => f.wrap r.code))).writeN
            (coreKey core pair) (pairRecord p.1 p.2) ∧
          t.dp.flags = (s.dp.raiseFlags core .vxe (ArithFlags.orAll ((rowCodes f p.1 p.2 ws).map (·.fl)))).flags) ∧
      (s.ctl.issues o.core.yard o.core.cluster.val o.at0 = true →
        (∀ w, s.waitOf o (rowNeeds row) = some w → exec (.rowq o row f codes.store codes.off pair) s = .next (s.withDp (s.dp.setWait core w.1 w.2))) ∧
        (s.waitOf o (rowNeeds row) = none → f.integer = false → exec (.rowq o row f codes.store codes.off pair) s = .fault .badFormat))) ∧
    (∀ (src n dest : Nat) (f : Fmt) (table : Place) (needs : List Need),
      needs = [⟨⟨src, none, false⟩, .vxe, [(0, 4 * n)]⟩, ⟨table, .vxe, if f = .bf16 then [] else [(0, 16 * n)]⟩] →
      (∀ ls, Ready s o needs ls → (f = .int8 ∨ f = .uint8 ∨ f = .bf16) → locWritable ⟨.core, dest⟩ (codeBytes f n) = true →
        ∃ t w, exec (.kvConversion o src n f table dest) s = .next t ∧ EnginesAlone s t ∧
          w = writtenPer f ((List.range n).map fun j => s.dp.rescaleEntry (locKey core (locOf ls 1) + 16 * j)) (s.dp.words (coreKey core src) n) ∧
          t.dp.mem = s.dp.mem.writeN (coreKey core dest) w.codes ∧ t.dp.flags = (s.dp.raiseFlags core .vxe w.fl).flags) ∧
      (s.ctl.issues o.core.yard o.core.cluster.val o.at0 = true → s.waitOf o needs = none → f ≠ .int8 → f ≠ .uint8 → f ≠ .bf16 →
        exec (.kvConversion o src n f table dest) s = .fault .badFormat)) ∧
    ∀ (slot : Fin 64) (out : SfnOut) (mode : SfnMode) (a : Src) (dest block : Nat) (ends : Bool) (err : Option (Fin 128)),
      (∀ ls, Ready s o (laneNeeds [a] 32) ls → isElement a.fmt = true → dstFits (sfnDst out dest block ends) 32 = true →
        s.ctl.slotHeld slot.val = true → (err = none ∨ s.ctl.slotReads slot.val = false) →
        ∃ t rs, exec (.sfn o slot out mode a dest ⟨block, ends⟩ err) s = .next t ∧ RunWritten s t o (sfnDst out dest block ends) 32 (sfnWritten out rs) ∧
          rs = ((s.lanesAt o a (locOf ls 0) (locOf ls 1)).map fun x =>
            (sfnLane s.ctl (s.dp.tableWord core) slot.val out mode x).getD ⟨0, {}, false⟩) ∧
          t.dp.flags = (s.dp.raiseFlags core .vxe (ArithFlags.orAll (rs.map (·.fl)))).flags) ∧
      (∀ ls (u : Fin 128), Ready s o (laneNeeds [a] 32) ls → isElement a.fmt = true → dstFits (sfnDst out dest block ends) 32 = true →
        s.ctl.slotHeld slot.val = true → s.ctl.slotReads slot.val = true → ∃ t, exec (.sfn o slot out mode a dest ⟨block, ends⟩ (some u)) s = .next t ∧
          t.cfg = s.cfg ∧ t.ctl = s.ctl.tableFault s.cfg o.core u.val) ∧
      (s.ctl.issues o.core.yard o.core.cluster.val o.at0 = true →
        (s.ctl.slotHeld slot.val = false → exec (.sfn o slot out mode a dest ⟨block, ends⟩ err) s = .fault .emptySlot) ∧
        (s.ctl.slotHeld slot.val = true → ∀ w, s.waitOf o (laneNeeds [a] 32) = some w →
          exec (.sfn o slot out mode a dest ⟨block, ends⟩ err) s = .next (s.withDp (s.dp.setWait core w.1 w.2))))

/-! ### Expert routing and adapter tuning (09, 15) -/

/-- Expert routing (R40, R253, R254, R255, R256, R257, R258, R260, R261, R265, R266): a token's choice is kept with its gates, or its output row is
+0 where its stall has no generation; counts, the slot table, its multicast and the bases follow in their order from what the layer holds, from the
cluster that builds the table alone; a record goes to the position that its rank gives; a return record of a token that the home no longer holds is
counted as stale and dropped, one that it holds waits for the other of its token, and the last one writes the gated sum; an expert's stream issues
from its block list, each entry once. Every step on a layer without a router faults, and none happens on a halted device. -/
def Obligations.RoutingStepsFollowTheirRules : Prop :=
  ∀ (s : State) (o : EngOp) (y : Yard) (l : BitVec 12) (rl : RouteLayer) (core : Nat), o.core.yard = y → o.tag.layer = l →
    rl = s.dp.route y l.toNat → core = s.ctl.core o.core →
    (∀ (token : BitVec 16) (kr : Fin 2) (scores dest width area pos row lead which : Nat) (fp32 : Bool) (c : Fin 40) (at0 : When),
      ∀ i ∈ [Instr.routeTopk o token ⟨scores, dest, width⟩, .countReduce ⟨y, at0⟩ l, .slotBuild ⟨y, at0⟩ l, .slotTableMulticast ⟨y, at0⟩ l,
        .baseOffsetReturn ⟨y, at0⟩ l, .sendRecord o token kr row ⟨width, fp32⟩ area, .returnRecord y o.core.cluster o.core.core l o.tag.chan o.at0 area pos row width c dest,
        .expertStream y l lead which at0],
        (s.ctl.hub.halted = true → exec i s = .next s) ∧
        (s.ctl.hub.halted = false → s.ctl.router y l.toNat = none → exec i s = .fault .noRouter)) ∧
    ∀ r : Router, s.ctl.hub.halted = false → s.ctl.router y l.toNat = some r →
    (∀ (token : BitVec 16) (scores dest width : Nat) (ls : List Loc) (needs : List Need) (others : List Assign),
      needs = [⟨⟨scores, none, false⟩, .vxe, [(0, 4 * r.nexp)]⟩] → Ready s o needs ls → locWritable ⟨.core, dest⟩ (4 * width) = true →
      others = (rl.assigns.filter fun a => !(a.home = o.core.cluster && a.token = token.toNat)) →
      ∃ t ws g, exec (.routeTopk o token ⟨scores, dest, width⟩) s = .next t ∧ EnginesAlone s t ∧ ws = s.dp.words (coreKey core scores) r.nexp ∧
        g = gatesOf r ws (topK r.k ws) ∧
        (s.dp.genOf y o.tag.stall.toNat = 0 → (t.dp.route y l.toNat).assigns = others ∧ t.dp.flags = s.dp.flags ∧
          t.dp.mem = s.dp.mem.writeN (coreKey core dest) (wordBytes (List.replicate width 0#32))) ∧
        (s.dp.genOf y o.tag.stall.toNat ≠ 0 → t.dp.mem = s.dp.mem ∧ (t.dp.route y l.toNat).assigns = others ++ (topK r.k ws).mapIdx fun kr e =>
          ({ home := o.core.cluster, stall := o.tag.stall.toNat, token := token.toNat, kr := kr, expert := e, gate := g.1.getD kr 0#32
             gen := s.dp.genOf y o.tag.stall.toNat, poison := s.marked o needs } : Assign))) ∧
    (∀ at0 : When, (s.ctl.issues y r.tableClu at0 = false → ∀ i ∈ [Instr.countReduce ⟨y, at0⟩ l, .slotBuild ⟨y, at0⟩ l, .slotTableMulticast ⟨y, at0⟩ l,
        .baseOffsetReturn ⟨y, at0⟩ l], exec i s = .next s) ∧
      (s.ctl.issues y r.tableClu at0 = true →
        exec (.countReduce ⟨y, at0⟩ l) s = .next (s.withDp (s.dp.setRoute { rl with counts := rl.homes.map fun h => (h, rl.countsOf r.nexp h) })) ∧
        exec (.slotBuild ⟨y, at0⟩ l) s = .next (s.withDp (s.dp.setRoute { rl with table := some (slotTable (totals r.nexp rl.counts) r.nslot r.tps) })) ∧
        exec (.slotTableMulticast ⟨y, at0⟩ l) s = .next (s.withDp (s.dp.setRoute { rl with shared := rl.table.isSome })) ∧
        exec (.baseOffsetReturn ⟨y, at0⟩ l) s = .next (s.withDp (s.dp.setRoute { rl with
          bases := rl.counts.map fun c => (c.1, baseOf r.nexp rl.counts c.1) })))) ∧
    (∀ (token : BitVec 16) (kr : Fin 2) (row width area : Nat) (fp32 : Bool) (found : Option Assign),
      found = rl.assigns.find? (fun a => a.home = o.core.cluster && a.token = token.toNat && a.kr = kr.val) →
      ((∀ a, found = some a → rl.slotPos a = none) → exec (.sendRecord o token kr row ⟨width, fp32⟩ area) s = .next s) ∧
      ∀ (a : Assign) (slot pos length at0 : Nat) (ls : List Loc), found = some a → rl.slotPos a = some (slot, pos) →
        length = (if fp32 = true then 4 * width else rowBytesOf (rowFmtOf r) width) → at0 = area + pos * sendBytes r width →
        Ready s o [⟨⟨row, none, false⟩, .vxe, [(0, length)]⟩] ls → at0 + sendBytes r width ≤ clusterBytes →
        ∃ t src, exec (.sendRecord o token kr row ⟨width, fp32⟩ area) s = .next t ∧ EnginesAlone s t ∧ src = s.dp.mem.readN (coreKey core row) length ∧
          t.dp.mem = s.dp.mem.writeN (clusterKey (s.ctl.clu y (slotCluster r slot).val) at0)
            (recordBytes (tagOf a (((s.ctl.microIn y).map (·.mb)).getD 0)) a.expert slot pos a.gate
              (if fp32 = true then sxeBytes (some (rowFmtOf r)) src else src)) ∧
          (t.dp.route y l.toNat).sends = rl.sends ++ [(token.toNat, kr.val, slot)]) ∧
    (∀ (area pos row width : Nat) (c : Fin 40) (dest home : Nat) (x : ReturnRec), x = (returnRec s o r area pos row width).1 →
      home = coreKey (s.ctl.core ⟨y, homeOf x.tag, c⟩) dest →
      (s.ctl.issues y o.core.cluster.val o.at0 = false → exec (.returnRecord y o.core.cluster o.core.core l o.tag.chan o.at0 area pos row width c dest) s = .next s) ∧
      (s.ctl.issues y o.core.cluster.val o.at0 = true → area + pos * sendBytes r width + sendBytes r width ≤ clusterBytes →
        locReadable ⟨.core, row⟩ (4 * width) = true →
        (s.dp.recordFresh y r x (rl.stallOf x.tag) = false → ∃ t, exec (.returnRecord y o.core.cluster o.core.core l o.tag.chan o.at0 area pos row width c dest) s = .next t ∧
          t.cfg = s.cfg ∧ t.dp.mem = s.dp.mem ∧ t.dp.routes = s.dp.routes ∧
          t.ctl = s.ctl.onYard (s.ctl.home y) fun z => { z with stale := sat64 z.stale 1 }) ∧
        (s.dp.recordFresh y r x (rl.stallOf x.tag) = true →
          (r.k = 1 → x.kr = 0 → locWritable ⟨.core, dest⟩ (4 * x.words.length) = true →
            ∃ t, exec (.returnRecord y o.core.cluster o.core.core l o.tag.chan o.at0 area pos row width c dest) s = .next t ∧ EnginesAlone s t ∧
              t.dp.mem = s.dp.mem.writeN home (wordBytes (x.words.map fun v => (mulF32 x.gate v).1))) ∧
          (r.k = 2 → rl.kept.find? (fun z => z.1 = x.token && z.2.1 = 1 - x.kr) = none →
            ∃ t, exec (.returnRecord y o.core.cluster o.core.core l o.tag.chan o.at0 area pos row width c dest) s = .next t ∧ EnginesAlone s t ∧ t.dp.mem = s.dp.mem ∧
              (x.token, x.kr, x.words, x.gate, x.poison) ∈ (t.dp.route y l.toNat).kept) ∧
          (r.k = 2 → ∀ (ws : List Word) (g : Word) (bad : Bool), rl.kept.find? (fun z => z.1 = x.token && z.2.1 = 1 - x.kr) =
              some (x.token, 1 - x.kr, ws, g, bad) →
            (x.kr = 1 → locWritable ⟨.core, dest⟩ (4 * ws.length) = true → ∃ t, exec (.returnRecord y o.core.cluster o.core.core l o.tag.chan o.at0 area pos row width c dest) s = .next t ∧
              EnginesAlone s t ∧ t.dp.mem = s.dp.mem.writeN home
                (wordBytes (ws.mapIdx fun i v => (putBackElem g v (some (x.gate, x.words.getD i 0#32))).1))) ∧
            (x.kr = 0 → locWritable ⟨.core, dest⟩ (4 * x.words.length) = true → ∃ t, exec (.returnRecord y o.core.cluster o.core.core l o.tag.chan o.at0 area pos row width c dest) s = .next t ∧
              EnginesAlone s t ∧ t.dp.mem = s.dp.mem.writeN home
                (wordBytes (x.words.mapIdx fun i v => (putBackElem x.gate v (some (g, ws.getD i 0#32))).1))))))) ∧
    (∀ (lead which : Nat) (at0 : When), (rl.table.bind fun x => x.expertOf.getD lead none) = none →
      exec (.expertStream y l lead which at0) s = .next s) ∧
    ∀ (lead which e sent : Nat) (at0 : When) (t0 : SlotTable) (es : List BlockEntry) (rs : List (Cluster × List (Fin 40))),
      rl.table = some t0 → t0.expertOf.getD lead none = some e → es = s.ctl.expertList s.dp y l.toNat e which →
      rs = runReceivers r ((List.range (t0.n.getD e 0)).map (lead + ·)) → sent = ((rl.streams.find? (·.1 = e)).map (·.2)).getD 0 →
      (s.ctl.issues y (slotCluster r lead).val at0 = false ∨ rl.shared = false ∨ t0.first.getD e 0 ≠ lead →
        exec (.expertStream y l lead which at0) s = .next s) ∧
      (s.ctl.issues y (slotCluster r lead).val at0 = true → rl.shared = true → t0.first.getD e 0 = lead →
        ((∃ x ∈ es, s.ctl.entryFits x = false) → exec (.expertStream y l lead which at0) s = .fault .noSuchAddress) ∧
        ((∀ x ∈ es, s.ctl.entryFits x = true) → exec (.expertStream y l lead which at0) s =
          .next (s.withDp ((s.ctl.issueAll ⟨y, slotCluster r lead, 0⟩ rs (es.drop sent) s.dp 0).1.setRoute { rl with
            streams := rl.streams.filter (·.1 ≠ e) ++
              [(e, sent + (s.ctl.issueAll ⟨y, slotCluster r lead, 0⟩ rs (es.drop sent) s.dp 0).2)] }))))

/-- Adapter tuning (R425, R426, R427, R429): the partial sums of a committed backward visit enter the accumulator of their tensor, once for a chunk
and yard, and nothing else does; an update that follows the visits of a step counts the step and clears the accumulators where every value is
finite, and else keeps every tensor and counts a skipped step. Without a run, or with no step whose visits are over, an update changes nothing. -/
def Obligations.GradientsReduceAndUpdate : Prop :=
  ∀ (s : State) (fn : BitVec 8) (h : Handle),
    (∀ (k : Yard) (tensor : Nat) (stall : BitVec 16) (ps : List Word),
      (s.ctl.hub.halted = true ∨ s.ctl.run? fn h = none ∨ s.ctl.stallIn k stall.toNat = none ∨
          stall.toNat ∉ ((s.dp.commit.find? (·.1 = k)).map (·.2)).getD [] →
        exec (.gradientPartial k fn h tensor stall ps) s = .next s) ∧
      ∀ (r : Run) (st : Stall), s.ctl.hub.halted = false → s.ctl.run? fn h = some r → s.ctl.stallIn k stall.toNat = some st →
        ((∀ i, st.work ≠ .backward i) ∨ st.fn ≠ fn ∨ st.session ≠ h ∨ st.bwdYard ≠ some k.val ∨
            k.val ∈ ((r.steps.head?.bind fun x => x.chunks[st.position]?).map (·.visited)).getD [] →
          exec (.gradientPartial k fn h tensor stall ps) s = .next s) ∧
        (∀ i, st.work = .backward i → st.fn = fn → st.session = h → st.bwdYard = some k.val →
          stall.toNat ∈ ((s.dp.commit.find? (·.1 = k)).map (·.2)).getD [] →
          k.val ∉ ((r.steps.head?.bind fun x => x.chunks[st.position]?).map (·.visited)).getD [] →
          exec (.gradientPartial k fn h tensor stall ps) s = .next (s.withCtl (s.ctl.setRun { r with tensors := r.tensors.mapIdx fun i t =>
            if i = tensor ∧ t.yard = k then { t with acc := addPartials t.acc ps } else t })))) ∧
    (s.ctl.hub.halted = true ∨ s.ctl.run? fn h = none → exec (.tuneUpdate fn h) s = .next s) ∧
    ∀ r : Run, s.ctl.hub.halted = false → s.ctl.run? fn h = some r →
      ((r.steps = [] ∨ r.closing ≠ none ∨ ∃ st ∈ r.steps.head?, st.visited = false ∨ st.status ≠ none) → exec (.tuneUpdate fn h) s = .next s) ∧
      ∀ (st : TuneStep) (rest : List TuneStep), r.steps = st :: rest → st.visited = true → st.status = none → r.closing = none →
        ∃ t q, exec (.tuneUpdate fn h) s = .next t ∧ t.dp = s.dp ∧ t.cfg = s.cfg ∧ t.ctl.run? fn h = some q ∧
          q.steps = { st with status := some Status.success } :: rest ∧
          (if r.tensors.all (fun x => (updateOf r st.rho (tMul r.bt r.b2) x).finite) = true then
            q.t = r.t + 1 ∧ q.bt = tMul r.bt r.b2 ∧ (q.tensors.map fun x => x.x) = r.tensors.map (fun x => (updateOf r st.rho (tMul r.bt r.b2) x).x) ∧
            (∀ x ∈ q.tensors, ∀ p ∈ x.acc, p = (0#32, 0#32)) ∧
            (t.ctl.fn? fn).map (·.tuneSteps) = (s.ctl.fn? fn).map fun f => sat64 f.tuneSteps 1
          else q.t = r.t ∧ q.bt = r.bt ∧ q.tensors = r.tensors ∧
            (t.ctl.fn? fn).map (·.tuneSkipped) = (s.ctl.fn? fn).map fun f => sat64 f.tuneSkipped 1)

/-! ### Faults and ageing (14) -/

/-- A second yard fault while a relief set runs, or waits for its bell, stops the device as a hang does (R399): it is frozen, HALTED, HANG is raised,
its dump begins, and the engines stand. -/
def Obligations.SecondYardFaultStopsTheDevice : Prop :=
  ∀ (s : State) (k : Yard) (cause : YardCause), s.ctl.hub.halted = false → (s.ctl.hub.relief ≠ none ∨ s.ctl.hub.reliefNext ≠ none) →
    (s.ctl.yd k).lost = false →
    ∃ t, exec (.yardLost k cause) s = .next t ∧ t.dp = s.dp ∧ t.cfg = s.cfg ∧ t.ctl.hub.halted = true ∧ t.ctl.pwr.st = .halted ∧
      (t.ctl.ev .dbg).bits.getLsbD 0 = true ∧ t.ctl.objs = s.ctl.objs ∧ ∃ d ∈ t.ctl.cof.dumps, d.done = false

/-- A hard fault in a row whose spare is not free, because a retired cluster uses it or it is lost, is a yard fault (R381, R378): whatever showed it, the
device goes the way of YARD_LOST. -/
def Obligations.HardFaultWithoutSpareIsAYardFault : Prop :=
  ∀ (s : State) (k : Yard) (l : Cluster) (cause : FaultCause), s.ctl.hub.halted = false → s.ctl.yardUp k = true →
    (s.ctl.yd k).freeSpare (l.val / 25) = false →
    (cause = .checker ∨ cause = .monitor ∨ cause = .selftest →
      exec (.clusterHardFault k l cause) s = exec (.yardLost k .other) s) ∧
    ∀ (core : Fin 40) (off : Nat) (cstore : Bool), off < (if cstore = true then clusterBytes else coreBytes) →
      (s.ctl.yd k).uncorrectable.contains (faultKey s.ctl k l core off cstore / 64) = true → s.ctl.hub.relief = none → s.ctl.hub.reliefNext = none →
      ∃ t, exec (.clusterHardFault k l (.sram core off cstore)) s = .next t ∧ (t.ctl.yd k).lost = true ∧
        (t.ctl.ev (.yras k)).bits.getLsbD 12 = true

/-- A yard fault with no relief set and none waiting (R392, R394): the yard is lost and out of service, YARD_LOST is raised, the hub names it, its
relief set waits where a plan is selected, and stalls up to it have failed; a lost yard is not lost again. A relief set whose copies are loaded, where
they did not stand already, is ready: it is in service with its time, and its event raised (R397); no other RELIEF_READY changes anything. -/
def Obligations.LostYardsBringReliefSets : Prop :=
  ∀ (s : State) (k : Yard),
    (∀ cause : YardCause, s.ctl.hub.halted = false → (s.ctl.yd k).lost = false → s.ctl.hub.relief = none → s.ctl.hub.reliefNext = none →
      ∃ t, exec (.yardLost k cause) s = .next t ∧ t.dp = s.dp ∧ t.cfg = s.cfg ∧ (t.ctl.yd k).lost = true ∧ t.ctl.yardUp k = false ∧
        (t.ctl.ev (.yras k)).bits.getLsbD 12 = true ∧ (cause = .temperature → (t.ctl.ev .pwr).bits.getLsbD 3 = true) ∧
        t.ctl.hub.rasYard = k ∧ t.ctl.hub.rasValid = true ∧
        t.ctl.hub.reliefNext = (if s.ctl.objs.selected.isSome = true then some k else none) ∧
        ∀ m ∈ t.ctl.fe.pipe, m.yard ≤ k.val → ∀ st ∈ m.stalls, st.failedAt ≠ none) ∧
    (∀ cause : YardCause, s.ctl.hub.halted = true ∨ (s.ctl.yd k).lost = true → exec (.yardLost k cause) s = .next s) ∧
    ∀ (ms : Nat) (unread : List (Nat × Nat)),
      (s.ctl.hub.halted = true ∨ s.ctl.hub.relief = none ∨ s.ctl.hub.reliefUp = true → exec (.reliefReady ⟨ms, unread⟩) s = .next s) ∧
      (s.ctl.hub.halted = false → s.ctl.hub.relief = some k → s.ctl.hub.reliefUp = false →
        ∃ t, exec (.reliefReady ⟨ms, unread⟩) s = .next t ∧ t.cfg = s.cfg ∧ t.ctl.hub.reliefUp = true ∧ t.ctl.hub.rasMs = min ms (2 ^ 24 - 1) ∧
          t.ctl.ev .ras = (s.ctl.ev .ras).raise 2#16 ∧
          t.dp = (if s.ctl.hub.rasPlaced = true then s.dp
            else s.dp.takeUnits (s.ctl.objs.epochs.foldl (fun d e => loadRelief s.ctl d e) s.dp) s.ctl.sec.deviceKey
              ((s.ctl.objs.epochs.flatMap fun e => s.ctl.copyUnitsOf unread e true).filter fun u => fastOwner u = some (reliefYard k))))

/-- A cluster with a hard fault and a free spare, no other cluster of its row at fault, is in fault mode at once and its yard stands (R378, R379); an
uncorrectable error poisons its unit, raises SRAM_UE and latches where it was, is a hard fault only where its address is remembered, and at an address
that no store has it faults; a critical alarm poisons the tick's rows too (R405). On a halted device or a yard out of service neither command acts. -/
def Obligations.HardFaultsEnterFaultMode : Prop :=
  ∀ (s : State) (k : Yard) (l : Cluster),
    (s.ctl.hub.halted = true ∨ s.ctl.yardUp k = false → (∀ cause : FaultCause, exec (.clusterHardFault k l cause) s = .next s) ∧
      ∀ code : BitVec 16, exec (.cpmCritical k l code) s = .next s) ∧
    (s.ctl.hub.halted = false → s.ctl.yardUp k = true →
      (s.ctl.yd k).freeSpare (l.val / 25) = true → (∀ x ∈ (s.ctl.yd k).seqs, x.2.faulty = true → x.1 / 25 = l.val / 25 → x.1 = l.val) →
      (∀ cause : FaultCause, cause = .checker ∨ cause = .monitor ∨ cause = .selftest → exec (.clusterHardFault k l cause) s =
        .next (s.withCtl (s.ctl.onYard k fun y => y.onSeq l.val fun q => { q with faulty := true }))) ∧
      (∀ (core : Fin 40) (off : Nat) (cstore : Bool), off < (if cstore = true then clusterBytes else coreBytes) →
        (s.ctl.yd k).uncorrectable.contains (faultKey s.ctl k l core off cstore / 64) = true →
        ∃ t, exec (.clusterHardFault k l (.sram core off cstore)) s = .next t ∧ (t.ctl.yd k).lost = false ∧
          (t.ctl.yd k).seqs = ((s.ctl.yd k).onSeq l.val fun q => { q with faulty := true }).seqs) ∧
      ∀ code : BitVec 16, ∃ t, exec (.cpmCritical k l code) s = .next t ∧ t.cfg = s.cfg ∧ t.dp.mem = s.dp.mem ∧
        (if Config.cpmLevels.2 ≤ code then t = s else (t.ctl.ev (.yras k)).bits.getLsbD 9 = true ∧ (t.ctl.yd k).lost = false ∧
          (t.ctl.yd k).seqs = ((s.ctl.yd k).onSeq l.val fun q => { q with faulty := true }).seqs ∧
          ∀ i < (s.ctl.yardStalls k).length, rowMark k l i ∈ t.dp.rowPoison)) ∧
    (s.ctl.hub.halted = false → s.ctl.yardUp k = true → ∀ (core : Fin 40) (off : Nat) (cstore : Bool),
      (off < (if cstore = true then clusterBytes else coreBytes) →
        (s.ctl.yd k).uncorrectable.contains (faultKey s.ctl k l core off cstore / 64) = false →
        ∃ t, exec (.clusterHardFault k l (.sram core off cstore)) s = .next t ∧ t.cfg = s.cfg ∧
          t.dp = { s.dp with poison := s.dp.poison.add (faultKey s.ctl k l core off cstore / 64) } ∧ (t.ctl.yd k).seqs = (s.ctl.yd k).seqs ∧
          (t.ctl.ev (.mem k)).bits.getLsbD 4 = true ∧ (t.ctl.yd k).poisonAddr ≠ none ∧
          (t.ctl.yd k).uncorrectable = ((faultKey s.ctl k l core off cstore / 64) :: (s.ctl.yd k).uncorrectable.filter
            (· ≠ faultKey s.ctl k l core off cstore / 64)).take 64) ∧
      ((if cstore = true then clusterBytes else coreBytes) ≤ off →
        exec (.clusterHardFault k l (.sram core off cstore)) s = .fault .noSuchAddress))

/-- Losses that a yard survives (R382, R384, R385, R386, R387, R388): a lost sub-link is out of service from the next bell and raises its event, and
with fewer than five left the yard is lost; a row with a spare is repaired, one without loses its channel; a lost channel is recorded durably and, where
the stack's reserve has room, pauses admission until it is rebuilt, else its yard is lost; a third lost phase loses the yard, or hangs the device where
it is the hub's. What is lost or rebuilt already changes nothing, nor does any of them on a halted device. -/
def Obligations.LinksRowsChannelsAndPhases : Prop :=
  ∀ (s : State) (k : Yard) (i : Fin 8) (r : RowFault) (near : Fin 2) (ch : BitVec 5) (unread : List (Nat × Nat)),
    (s.ctl.hub.halted = true → ∀ x ∈ [Instr.sublinkLost k i, .rowRepair r, .channelLost k near ch, .channelRebuilt k near ⟨ch, unread⟩,
      .phaseLost (some k), .phaseLost none], exec x s = .next s) ∧
    (s.ctl.hub.halted = false →
    ((s.ctl.yd k).linksDue.getLsbD i.val = true → ∃ t, exec (.sublinkLost k i) s = .next t ∧ t.dp = s.dp ∧ t.cfg = s.cfg ∧
      (t.ctl.ev (.yras k)).bits.getLsbD 2 = true ∧
      (5 ≤ linkCount ((s.ctl.yd k).linksDue &&& ~~~(1#8 <<< i.val)) → (t.ctl.yd k).lost = (s.ctl.yd k).lost ∧
        (t.ctl.yd k).linksNext = some ((s.ctl.yd k).linksDue &&& ~~~(1#8 <<< i.val))) ∧
      (linkCount ((s.ctl.yd k).linksDue &&& ~~~(1#8 <<< i.val)) < 5 → s.ctl.hub.relief = none → s.ctl.hub.reliefNext = none →
        (t.ctl.yd k).lost = true)) ∧
    ((s.ctl.yd k).linksDue.getLsbD i.val = false → exec (.sublinkLost k i) s = .next s) ∧
    (r.spare = true → ∃ t, exec (.rowRepair r) s = .next t ∧ t.cfg = s.cfg ∧ (t.ctl.ev (.yras r.yard)).bits.getLsbD 4 = true) ∧
    (r.spare = false → exec (.rowRepair r) s = exec (.channelLost r.yard r.near r.channel) s) ∧
    ((Sparse.get {} (s.ctl.yd k).channels (32 * near.val + ch.toNat)).lost = true → exec (.channelLost k near ch) s = .next s) ∧
    ((Sparse.get {} (s.ctl.yd k).channels (32 * near.val + ch.toNat)).lost = false → Sparse.wf {} (s.ctl.yd k).channels = true →
      ∃ t, exec (.channelLost k near ch) s = .next t ∧ t.dp = s.dp ∧ t.cfg = s.cfg ∧ (t.ctl.ev (.yras k)).bits.getLsbD 5 = true ∧
        (Sparse.get 0 s.ctl.prs.wear (0x480 + 2 * k.val + near.val) < prsRating → Sparse.wf 0#32 s.ctl.prs.words = true →
          (t.ctl.prs.word (0x480 + 2 * k.val + near.val)).getLsbD ch.toNat = true) ∧
        (if (s.ctl.plan?.map fun p => planReserveHolds p (2 * k.val + near.val) (((s.ctl.yd k).lostOn near.val).length + 1)).getD true = true then
          t.ctl.hub.paused = s.ctl.hub.paused + 1 ∧ (t.ctl.yd k).lost = (s.ctl.yd k).lost
        else s.ctl.hub.relief = none → s.ctl.hub.reliefNext = none → (t.ctl.yd k).lost = true)) ∧
    ((Sparse.get {} (s.ctl.yd k).channels (32 * near.val + ch.toNat)).lost = false ∨
        (Sparse.get {} (s.ctl.yd k).channels (32 * near.val + ch.toNat)).rebuilt = true →
      exec (.channelRebuilt k near ⟨ch, unread⟩) s = .next s) ∧
    ((Sparse.get {} (s.ctl.yd k).channels (32 * near.val + ch.toNat)).lost = true →
      (Sparse.get {} (s.ctl.yd k).channels (32 * near.val + ch.toNat)).rebuilt = false → ∃ t, exec (.channelRebuilt k near ⟨ch, unread⟩) s = .next t ∧
        t.cfg = s.cfg ∧ t.ctl.hub.paused = s.ctl.hub.paused - 1 ∧ (t.ctl.ev (.yras k)).bits.getLsbD 6 = true) ∧
    (∃ t, exec (.phaseLost (some k)) s = .next t ∧ t.dp = s.dp ∧ t.cfg = s.cfg ∧ (t.ctl.ev (.yras k)).bits.getLsbD 7 = true ∧
      ((s.ctl.yd k).phases < 2 → (t.ctl.yd k).phases = (s.ctl.yd k).phases + 1 ∧ (t.ctl.yd k).lost = (s.ctl.yd k).lost) ∧
      (2 ≤ (s.ctl.yd k).phases → s.ctl.hub.relief = none → s.ctl.hub.reliefNext = none → (t.ctl.yd k).lost = true)) ∧
    ∃ t, exec (.phaseLost none) s = .next t ∧ t.dp = s.dp ∧ t.cfg = s.cfg ∧ (t.ctl.ev .ras).bits.getLsbD 3 = true ∧
      t.ctl.hub.phases = s.ctl.hub.phases + 1 ∧ (t.ctl.hub.halted = true ↔ 2 ≤ s.ctl.hub.phases))

/-- The coffer, the shed's ports and ageing (R389, R390, R391, R404, R405, R407): a lost coffer channel is remembered and raised, once; a lost port is
out of service and held, with its event, and the re-homing of its shadows raises the last of them; an alarm of a path monitor raises the yard's voltage
one step, at most once in 10 µs, and beyond +40 the grade is held no longer; a proof lowers a held grade's offset by one step and lets one that is not
held be held at +40. The levels of the monitors are free values. -/
def Obligations.CofferPortsAndMargins : Prop :=
  ∀ (s : State) (k : Yard) (ch : BitVec 5) (p : Fin 4) (l : Cluster) (code : BitVec 16) (us : Nat) (g : Fin 3) (proofs : List (List (BitVec 16))),
    (s.ctl.cof.lost.has ch.toNat = false → ∃ t, exec (.cofferChannelLost ch) s = .next t ∧ t.dp = s.dp ∧ t.cfg = s.cfg ∧
      t.ctl.cof.lost = s.ctl.cof.lost.add ch.toNat ∧ (t.ctl.ev .ras).bits.getLsbD 4 = true) ∧
    (s.ctl.cof.lost.has ch.toNat = true → exec (.cofferChannelLost ch) s = .next s) ∧
    (s.ctl.hub.halted = true ∨ (s.ctl.port p.val).up = false ∨ (s.ctl.port p.val).held = true → exec (.cxlPortLost p) s = .next s) ∧
    (s.ctl.hub.halted = false → s.ctl.cxl.length = 4 → (s.ctl.port p.val).up = true → (s.ctl.port p.val).held = false →
      ∃ t, exec (.cxlPortLost p) s = .next t ∧ t.cfg = s.cfg ∧ (t.ctl.port p.val).up = false ∧ (t.ctl.port p.val).held = true ∧
        (t.ctl.port p.val).cause = 2 ∧ t.ctl.hub.portPause = true ∧ (t.ctl.ev .ras).bits.getLsbD 7 = true) ∧
    (s.ctl.hub.halted = true ∨ (s.ctl.port p.val).held = false ∨ (s.ctl.port p.val).cause ≠ 2 → exec (.shadowRehomed p) s = .next s) ∧
    (s.ctl.hub.halted = false → (s.ctl.port p.val).held = true → (s.ctl.port p.val).cause = 2 → ∃ t, exec (.shadowRehomed p) s = .next t ∧
      t.cfg = s.cfg ∧ (t.ctl.ev .ras).bits.getLsbD 8 = true) ∧
    (s.ctl.hub.halted = true ∨ s.ctl.yardUp k = false → exec (.cpmRaise k l code us) s = .next s ∧ exec (.marginChanged k g proofs) s = .next s) ∧
    (s.ctl.hub.halted = false → s.ctl.yardUp k = true → (∃ t, exec (.cpmRaise k l code us) s = .next t ∧ t.dp = s.dp ∧ t.cfg = s.cfg ∧
      (if Config.cpmLevels.1 ≤ code ∨ (s.ctl.yd k).raisedAt.any (fun u => us < u + 10) = true then t = s
       else if ((s.ctl.yd k).raised.getD ((s.ctl.yd k).offsets.getD s.ctl.hub.grades.current 0)) < 40 then
        (t.ctl.yd k).raised = some ((s.ctl.yd k).raised.getD ((s.ctl.yd k).offsets.getD s.ctl.hub.grades.current 0) + 1) ∧
        (t.ctl.yd k).volts = (s.ctl.yd k).volts + 1 ∧ (t.ctl.ev (.yras k)).bits.getLsbD 8 = true
       else (t.ctl.yd k).held = (s.ctl.yd k).held.set s.ctl.hub.grades.current false)) ∧
      ∃ t, exec (.marginChanged k g proofs) s = .next t ∧ t.dp = s.dp ∧ t.cfg = s.cfg ∧
        (if ((List.range 10).filter (s.ctl.yd k).freeSpare).length < 5 ∨ provesOk proofs = false ∨
            ((s.ctl.yd k).held.getD g.val false = true ∧ (s.ctl.yd k).offsets.getD g.val 0 ≤ -16) then t = s
         else (t.ctl.ev (.yras k)).bits.getLsbD 10 = true ∧
          if (s.ctl.yd k).held.getD g.val false = true then
            (t.ctl.yd k).offsets = (s.ctl.yd k).offsets.set g.val ((s.ctl.yd k).offsets.getD g.val 0 - 1) ∧ (t.ctl.yd k).held = (s.ctl.yd k).held
          else (t.ctl.yd k).offsets = (s.ctl.yd k).offsets.set g.val 40 ∧ (t.ctl.yd k).held = (s.ctl.yd k).held.set g.val true))
end

