-- ==== Sys2Proof/Laws/State.lean ====
section
/-! SUPPORT. What each update of the state leaves and makes of each field: one lemma per field and update. -/

namespace Sys2Proof.Machine

open Sys2Proof

@[simp] theorem State.onCtl_dp (s : State) (f : Ctl → Ctl) : (s.onCtl f).dp = s.dp := rfl
@[simp] theorem State.onCtl_cfg (s : State) (f : Ctl → Ctl) : (s.onCtl f).cfg = s.cfg := rfl
@[simp] theorem State.onCtl_ctl (s : State) (f : Ctl → Ctl) : (s.onCtl f).ctl = f s.ctl := rfl
@[simp] theorem State.onCtl_pending (s : State) (f : Ctl → Ctl) : (s.onCtl f).pending = s.pending := rfl
@[simp] theorem Ctl.onYard_free (c : Ctl) (k : Yard) (f : Yd → Yd) : (c.onYard k f).free = c.free := rfl
@[simp] theorem Ctl.onYard_hub (c : Ctl) (k : Yard) (f : Yd → Yd) : (c.onYard k f).hub = c.hub := rfl
@[simp] theorem Ctl.onYard_fe (c : Ctl) (k : Yard) (f : Yd → Yd) : (c.onYard k f).fe = c.fe := rfl
@[simp] theorem Ctl.onYard_fns (c : Ctl) (k : Yard) (f : Yd → Yd) : (c.onYard k f).fns = c.fns := rfl
@[simp] theorem Ctl.onYard_objs (c : Ctl) (k : Yard) (f : Yd → Yd) : (c.onYard k f).objs = c.objs := rfl
@[simp] theorem Ctl.onYard_ldg (c : Ctl) (k : Yard) (f : Yd → Yd) : (c.onYard k f).ldg = c.ldg := rfl
@[simp] theorem Ctl.onYard_sec (c : Ctl) (k : Yard) (f : Yd → Yd) : (c.onYard k f).sec = c.sec := rfl
@[simp] theorem Ctl.onYard_cof (c : Ctl) (k : Yard) (f : Yd → Yd) : (c.onYard k f).cof = c.cof := rfl
@[simp] theorem Ctl.onYard_cxl (c : Ctl) (k : Yard) (f : Yd → Yd) : (c.onYard k f).cxl = c.cxl := rfl
@[simp] theorem Ctl.onYard_pwr (c : Ctl) (k : Yard) (f : Yd → Yd) : (c.onYard k f).pwr = c.pwr := rfl
@[simp] theorem Ctl.onYard_dbg (c : Ctl) (k : Yard) (f : Yd → Yd) : (c.onYard k f).dbg = c.dbg := rfl
@[simp] theorem Ctl.onYard_prs (c : Ctl) (k : Yard) (f : Yd → Yd) : (c.onYard k f).prs = c.prs := rfl
@[simp] theorem Ctl.onYard_bus (c : Ctl) (k : Yard) (f : Yd → Yd) : (c.onYard k f).bus = c.bus := rfl
@[simp] theorem Ctl.onYard_xlats (c : Ctl) (k : Yard) (f : Yd → Yd) : (c.onYard k f).xlats = c.xlats := rfl
@[simp] theorem Ctl.onYards_free (c : Ctl) (f : Yd → Yd) : (c.onYards f).free = c.free := rfl
@[simp] theorem Ctl.onYards_hub (c : Ctl) (f : Yd → Yd) : (c.onYards f).hub = c.hub := rfl
@[simp] theorem Ctl.onYards_fe (c : Ctl) (f : Yd → Yd) : (c.onYards f).fe = c.fe := rfl
@[simp] theorem Ctl.onYards_fns (c : Ctl) (f : Yd → Yd) : (c.onYards f).fns = c.fns := rfl
@[simp] theorem Ctl.onYards_objs (c : Ctl) (f : Yd → Yd) : (c.onYards f).objs = c.objs := rfl
@[simp] theorem Ctl.onYards_ldg (c : Ctl) (f : Yd → Yd) : (c.onYards f).ldg = c.ldg := rfl
@[simp] theorem Ctl.onYards_sec (c : Ctl) (f : Yd → Yd) : (c.onYards f).sec = c.sec := rfl
@[simp] theorem Ctl.onYards_cof (c : Ctl) (f : Yd → Yd) : (c.onYards f).cof = c.cof := rfl
@[simp] theorem Ctl.onYards_cxl (c : Ctl) (f : Yd → Yd) : (c.onYards f).cxl = c.cxl := rfl
@[simp] theorem Ctl.onYards_pwr (c : Ctl) (f : Yd → Yd) : (c.onYards f).pwr = c.pwr := rfl
@[simp] theorem Ctl.onYards_dbg (c : Ctl) (f : Yd → Yd) : (c.onYards f).dbg = c.dbg := rfl
@[simp] theorem Ctl.onYards_prs (c : Ctl) (f : Yd → Yd) : (c.onYards f).prs = c.prs := rfl
@[simp] theorem Ctl.onYards_bus (c : Ctl) (f : Yd → Yd) : (c.onYards f).bus = c.bus := rfl
@[simp] theorem Ctl.onYards_xlats (c : Ctl) (f : Yd → Yd) : (c.onYards f).xlats = c.xlats := rfl
@[simp] theorem Ctl.onHub_yards (c : Ctl) (f : Hub → Hub) : (c.onHub f).yards = c.yards := rfl
@[simp] theorem Ctl.onHub_free (c : Ctl) (f : Hub → Hub) : (c.onHub f).free = c.free := rfl
@[simp] theorem Ctl.onHub_hub (c : Ctl) (f : Hub → Hub) : (c.onHub f).hub = f c.hub := rfl
@[simp] theorem Ctl.onHub_fe (c : Ctl) (f : Hub → Hub) : (c.onHub f).fe = c.fe := rfl
@[simp] theorem Ctl.onHub_fns (c : Ctl) (f : Hub → Hub) : (c.onHub f).fns = c.fns := rfl
@[simp] theorem Ctl.onHub_objs (c : Ctl) (f : Hub → Hub) : (c.onHub f).objs = c.objs := rfl
@[simp] theorem Ctl.onHub_ldg (c : Ctl) (f : Hub → Hub) : (c.onHub f).ldg = c.ldg := rfl
@[simp] theorem Ctl.onHub_sec (c : Ctl) (f : Hub → Hub) : (c.onHub f).sec = c.sec := rfl
@[simp] theorem Ctl.onHub_cof (c : Ctl) (f : Hub → Hub) : (c.onHub f).cof = c.cof := rfl
@[simp] theorem Ctl.onHub_cxl (c : Ctl) (f : Hub → Hub) : (c.onHub f).cxl = c.cxl := rfl
@[simp] theorem Ctl.onHub_pwr (c : Ctl) (f : Hub → Hub) : (c.onHub f).pwr = c.pwr := rfl
@[simp] theorem Ctl.onHub_dbg (c : Ctl) (f : Hub → Hub) : (c.onHub f).dbg = c.dbg := rfl
@[simp] theorem Ctl.onHub_prs (c : Ctl) (f : Hub → Hub) : (c.onHub f).prs = c.prs := rfl
@[simp] theorem Ctl.onHub_bus (c : Ctl) (f : Hub → Hub) : (c.onHub f).bus = c.bus := rfl
@[simp] theorem Ctl.onHub_xlats (c : Ctl) (f : Hub → Hub) : (c.onHub f).xlats = c.xlats := rfl
@[simp] theorem Ctl.onFe_yards (c : Ctl) (f : Fe → Fe) : (c.onFe f).yards = c.yards := rfl
@[simp] theorem Ctl.onFe_free (c : Ctl) (f : Fe → Fe) : (c.onFe f).free = c.free := rfl
@[simp] theorem Ctl.onFe_hub (c : Ctl) (f : Fe → Fe) : (c.onFe f).hub = c.hub := rfl
@[simp] theorem Ctl.onFe_fe (c : Ctl) (f : Fe → Fe) : (c.onFe f).fe = f c.fe := rfl
@[simp] theorem Ctl.onFe_fns (c : Ctl) (f : Fe → Fe) : (c.onFe f).fns = c.fns := rfl
@[simp] theorem Ctl.onFe_objs (c : Ctl) (f : Fe → Fe) : (c.onFe f).objs = c.objs := rfl
@[simp] theorem Ctl.onFe_ldg (c : Ctl) (f : Fe → Fe) : (c.onFe f).ldg = c.ldg := rfl
@[simp] theorem Ctl.onFe_sec (c : Ctl) (f : Fe → Fe) : (c.onFe f).sec = c.sec := rfl
@[simp] theorem Ctl.onFe_cof (c : Ctl) (f : Fe → Fe) : (c.onFe f).cof = c.cof := rfl
@[simp] theorem Ctl.onFe_cxl (c : Ctl) (f : Fe → Fe) : (c.onFe f).cxl = c.cxl := rfl
@[simp] theorem Ctl.onFe_pwr (c : Ctl) (f : Fe → Fe) : (c.onFe f).pwr = c.pwr := rfl
@[simp] theorem Ctl.onFe_dbg (c : Ctl) (f : Fe → Fe) : (c.onFe f).dbg = c.dbg := rfl
@[simp] theorem Ctl.onFe_prs (c : Ctl) (f : Fe → Fe) : (c.onFe f).prs = c.prs := rfl
@[simp] theorem Ctl.onFe_bus (c : Ctl) (f : Fe → Fe) : (c.onFe f).bus = c.bus := rfl
@[simp] theorem Ctl.onFe_xlats (c : Ctl) (f : Fe → Fe) : (c.onFe f).xlats = c.xlats := rfl
@[simp] theorem Ctl.onObjs_yards (c : Ctl) (f : Objs → Objs) : (c.onObjs f).yards = c.yards := rfl
@[simp] theorem Ctl.onObjs_free (c : Ctl) (f : Objs → Objs) : (c.onObjs f).free = c.free := rfl
@[simp] theorem Ctl.onObjs_hub (c : Ctl) (f : Objs → Objs) : (c.onObjs f).hub = c.hub := rfl
@[simp] theorem Ctl.onObjs_fe (c : Ctl) (f : Objs → Objs) : (c.onObjs f).fe = c.fe := rfl
@[simp] theorem Ctl.onObjs_fns (c : Ctl) (f : Objs → Objs) : (c.onObjs f).fns = c.fns := rfl
@[simp] theorem Ctl.onObjs_objs (c : Ctl) (f : Objs → Objs) : (c.onObjs f).objs = f c.objs := rfl
@[simp] theorem Ctl.onObjs_ldg (c : Ctl) (f : Objs → Objs) : (c.onObjs f).ldg = c.ldg := rfl
@[simp] theorem Ctl.onObjs_sec (c : Ctl) (f : Objs → Objs) : (c.onObjs f).sec = c.sec := rfl
@[simp] theorem Ctl.onObjs_cof (c : Ctl) (f : Objs → Objs) : (c.onObjs f).cof = c.cof := rfl
@[simp] theorem Ctl.onObjs_cxl (c : Ctl) (f : Objs → Objs) : (c.onObjs f).cxl = c.cxl := rfl
@[simp] theorem Ctl.onObjs_pwr (c : Ctl) (f : Objs → Objs) : (c.onObjs f).pwr = c.pwr := rfl
@[simp] theorem Ctl.onObjs_dbg (c : Ctl) (f : Objs → Objs) : (c.onObjs f).dbg = c.dbg := rfl
@[simp] theorem Ctl.onObjs_prs (c : Ctl) (f : Objs → Objs) : (c.onObjs f).prs = c.prs := rfl
@[simp] theorem Ctl.onObjs_bus (c : Ctl) (f : Objs → Objs) : (c.onObjs f).bus = c.bus := rfl
@[simp] theorem Ctl.onObjs_xlats (c : Ctl) (f : Objs → Objs) : (c.onObjs f).xlats = c.xlats := rfl
@[simp] theorem Ctl.onLdg_yards (c : Ctl) (f : Ldg → Ldg) : (c.onLdg f).yards = c.yards := rfl
@[simp] theorem Ctl.onLdg_free (c : Ctl) (f : Ldg → Ldg) : (c.onLdg f).free = c.free := rfl
@[simp] theorem Ctl.onLdg_hub (c : Ctl) (f : Ldg → Ldg) : (c.onLdg f).hub = c.hub := rfl
@[simp] theorem Ctl.onLdg_fe (c : Ctl) (f : Ldg → Ldg) : (c.onLdg f).fe = c.fe := rfl
@[simp] theorem Ctl.onLdg_fns (c : Ctl) (f : Ldg → Ldg) : (c.onLdg f).fns = c.fns := rfl
@[simp] theorem Ctl.onLdg_objs (c : Ctl) (f : Ldg → Ldg) : (c.onLdg f).objs = c.objs := rfl
@[simp] theorem Ctl.onLdg_ldg (c : Ctl) (f : Ldg → Ldg) : (c.onLdg f).ldg = f c.ldg := rfl
@[simp] theorem Ctl.onLdg_sec (c : Ctl) (f : Ldg → Ldg) : (c.onLdg f).sec = c.sec := rfl
@[simp] theorem Ctl.onLdg_cof (c : Ctl) (f : Ldg → Ldg) : (c.onLdg f).cof = c.cof := rfl
@[simp] theorem Ctl.onLdg_cxl (c : Ctl) (f : Ldg → Ldg) : (c.onLdg f).cxl = c.cxl := rfl
@[simp] theorem Ctl.onLdg_pwr (c : Ctl) (f : Ldg → Ldg) : (c.onLdg f).pwr = c.pwr := rfl
@[simp] theorem Ctl.onLdg_dbg (c : Ctl) (f : Ldg → Ldg) : (c.onLdg f).dbg = c.dbg := rfl
@[simp] theorem Ctl.onLdg_prs (c : Ctl) (f : Ldg → Ldg) : (c.onLdg f).prs = c.prs := rfl
@[simp] theorem Ctl.onLdg_bus (c : Ctl) (f : Ldg → Ldg) : (c.onLdg f).bus = c.bus := rfl
@[simp] theorem Ctl.onLdg_xlats (c : Ctl) (f : Ldg → Ldg) : (c.onLdg f).xlats = c.xlats := rfl
@[simp] theorem Ctl.onSec_yards (c : Ctl) (f : Sec → Sec) : (c.onSec f).yards = c.yards := rfl
@[simp] theorem Ctl.onSec_free (c : Ctl) (f : Sec → Sec) : (c.onSec f).free = c.free := rfl
@[simp] theorem Ctl.onSec_hub (c : Ctl) (f : Sec → Sec) : (c.onSec f).hub = c.hub := rfl
@[simp] theorem Ctl.onSec_fe (c : Ctl) (f : Sec → Sec) : (c.onSec f).fe = c.fe := rfl
@[simp] theorem Ctl.onSec_fns (c : Ctl) (f : Sec → Sec) : (c.onSec f).fns = c.fns := rfl
@[simp] theorem Ctl.onSec_objs (c : Ctl) (f : Sec → Sec) : (c.onSec f).objs = c.objs := rfl
@[simp] theorem Ctl.onSec_ldg (c : Ctl) (f : Sec → Sec) : (c.onSec f).ldg = c.ldg := rfl
@[simp] theorem Ctl.onSec_sec (c : Ctl) (f : Sec → Sec) : (c.onSec f).sec = f c.sec := rfl
@[simp] theorem Ctl.onSec_cof (c : Ctl) (f : Sec → Sec) : (c.onSec f).cof = c.cof := rfl
@[simp] theorem Ctl.onSec_cxl (c : Ctl) (f : Sec → Sec) : (c.onSec f).cxl = c.cxl := rfl
@[simp] theorem Ctl.onSec_pwr (c : Ctl) (f : Sec → Sec) : (c.onSec f).pwr = c.pwr := rfl
@[simp] theorem Ctl.onSec_dbg (c : Ctl) (f : Sec → Sec) : (c.onSec f).dbg = c.dbg := rfl
@[simp] theorem Ctl.onSec_prs (c : Ctl) (f : Sec → Sec) : (c.onSec f).prs = c.prs := rfl
@[simp] theorem Ctl.onSec_bus (c : Ctl) (f : Sec → Sec) : (c.onSec f).bus = c.bus := rfl
@[simp] theorem Ctl.onSec_xlats (c : Ctl) (f : Sec → Sec) : (c.onSec f).xlats = c.xlats := rfl
@[simp] theorem Ctl.onCof_yards (c : Ctl) (f : Cof → Cof) : (c.onCof f).yards = c.yards := rfl
@[simp] theorem Ctl.onCof_free (c : Ctl) (f : Cof → Cof) : (c.onCof f).free = c.free := rfl
@[simp] theorem Ctl.onCof_hub (c : Ctl) (f : Cof → Cof) : (c.onCof f).hub = c.hub := rfl
@[simp] theorem Ctl.onCof_fe (c : Ctl) (f : Cof → Cof) : (c.onCof f).fe = c.fe := rfl
@[simp] theorem Ctl.onCof_fns (c : Ctl) (f : Cof → Cof) : (c.onCof f).fns = c.fns := rfl
@[simp] theorem Ctl.onCof_objs (c : Ctl) (f : Cof → Cof) : (c.onCof f).objs = c.objs := rfl
@[simp] theorem Ctl.onCof_ldg (c : Ctl) (f : Cof → Cof) : (c.onCof f).ldg = c.ldg := rfl
@[simp] theorem Ctl.onCof_sec (c : Ctl) (f : Cof → Cof) : (c.onCof f).sec = c.sec := rfl
@[simp] theorem Ctl.onCof_cof (c : Ctl) (f : Cof → Cof) : (c.onCof f).cof = f c.cof := rfl
@[simp] theorem Ctl.onCof_cxl (c : Ctl) (f : Cof → Cof) : (c.onCof f).cxl = c.cxl := rfl
@[simp] theorem Ctl.onCof_pwr (c : Ctl) (f : Cof → Cof) : (c.onCof f).pwr = c.pwr := rfl
@[simp] theorem Ctl.onCof_dbg (c : Ctl) (f : Cof → Cof) : (c.onCof f).dbg = c.dbg := rfl
@[simp] theorem Ctl.onCof_prs (c : Ctl) (f : Cof → Cof) : (c.onCof f).prs = c.prs := rfl
@[simp] theorem Ctl.onCof_bus (c : Ctl) (f : Cof → Cof) : (c.onCof f).bus = c.bus := rfl
@[simp] theorem Ctl.onCof_xlats (c : Ctl) (f : Cof → Cof) : (c.onCof f).xlats = c.xlats := rfl
@[simp] theorem Ctl.onPwr_yards (c : Ctl) (f : Pwr → Pwr) : (c.onPwr f).yards = c.yards := rfl
@[simp] theorem Ctl.onPwr_free (c : Ctl) (f : Pwr → Pwr) : (c.onPwr f).free = c.free := rfl
@[simp] theorem Ctl.onPwr_hub (c : Ctl) (f : Pwr → Pwr) : (c.onPwr f).hub = c.hub := rfl
@[simp] theorem Ctl.onPwr_fe (c : Ctl) (f : Pwr → Pwr) : (c.onPwr f).fe = c.fe := rfl
@[simp] theorem Ctl.onPwr_fns (c : Ctl) (f : Pwr → Pwr) : (c.onPwr f).fns = c.fns := rfl
@[simp] theorem Ctl.onPwr_objs (c : Ctl) (f : Pwr → Pwr) : (c.onPwr f).objs = c.objs := rfl
@[simp] theorem Ctl.onPwr_ldg (c : Ctl) (f : Pwr → Pwr) : (c.onPwr f).ldg = c.ldg := rfl
@[simp] theorem Ctl.onPwr_sec (c : Ctl) (f : Pwr → Pwr) : (c.onPwr f).sec = c.sec := rfl
@[simp] theorem Ctl.onPwr_cof (c : Ctl) (f : Pwr → Pwr) : (c.onPwr f).cof = c.cof := rfl
@[simp] theorem Ctl.onPwr_cxl (c : Ctl) (f : Pwr → Pwr) : (c.onPwr f).cxl = c.cxl := rfl
@[simp] theorem Ctl.onPwr_pwr (c : Ctl) (f : Pwr → Pwr) : (c.onPwr f).pwr = f c.pwr := rfl
@[simp] theorem Ctl.onPwr_dbg (c : Ctl) (f : Pwr → Pwr) : (c.onPwr f).dbg = c.dbg := rfl
@[simp] theorem Ctl.onPwr_prs (c : Ctl) (f : Pwr → Pwr) : (c.onPwr f).prs = c.prs := rfl
@[simp] theorem Ctl.onPwr_bus (c : Ctl) (f : Pwr → Pwr) : (c.onPwr f).bus = c.bus := rfl
@[simp] theorem Ctl.onPwr_xlats (c : Ctl) (f : Pwr → Pwr) : (c.onPwr f).xlats = c.xlats := rfl
@[simp] theorem Ctl.onDbg_yards (c : Ctl) (f : Dbg → Dbg) : (c.onDbg f).yards = c.yards := rfl
@[simp] theorem Ctl.onDbg_free (c : Ctl) (f : Dbg → Dbg) : (c.onDbg f).free = c.free := rfl
@[simp] theorem Ctl.onDbg_hub (c : Ctl) (f : Dbg → Dbg) : (c.onDbg f).hub = c.hub := rfl
@[simp] theorem Ctl.onDbg_fe (c : Ctl) (f : Dbg → Dbg) : (c.onDbg f).fe = c.fe := rfl
@[simp] theorem Ctl.onDbg_fns (c : Ctl) (f : Dbg → Dbg) : (c.onDbg f).fns = c.fns := rfl
@[simp] theorem Ctl.onDbg_objs (c : Ctl) (f : Dbg → Dbg) : (c.onDbg f).objs = c.objs := rfl
@[simp] theorem Ctl.onDbg_ldg (c : Ctl) (f : Dbg → Dbg) : (c.onDbg f).ldg = c.ldg := rfl
@[simp] theorem Ctl.onDbg_sec (c : Ctl) (f : Dbg → Dbg) : (c.onDbg f).sec = c.sec := rfl
@[simp] theorem Ctl.onDbg_cof (c : Ctl) (f : Dbg → Dbg) : (c.onDbg f).cof = c.cof := rfl
@[simp] theorem Ctl.onDbg_cxl (c : Ctl) (f : Dbg → Dbg) : (c.onDbg f).cxl = c.cxl := rfl
@[simp] theorem Ctl.onDbg_pwr (c : Ctl) (f : Dbg → Dbg) : (c.onDbg f).pwr = c.pwr := rfl
@[simp] theorem Ctl.onDbg_dbg (c : Ctl) (f : Dbg → Dbg) : (c.onDbg f).dbg = f c.dbg := rfl
@[simp] theorem Ctl.onDbg_prs (c : Ctl) (f : Dbg → Dbg) : (c.onDbg f).prs = c.prs := rfl
@[simp] theorem Ctl.onDbg_bus (c : Ctl) (f : Dbg → Dbg) : (c.onDbg f).bus = c.bus := rfl
@[simp] theorem Ctl.onDbg_xlats (c : Ctl) (f : Dbg → Dbg) : (c.onDbg f).xlats = c.xlats := rfl
@[simp] theorem Ctl.onPrs_yards (c : Ctl) (f : Prs → Prs) : (c.onPrs f).yards = c.yards := rfl
@[simp] theorem Ctl.onPrs_free (c : Ctl) (f : Prs → Prs) : (c.onPrs f).free = c.free := rfl
@[simp] theorem Ctl.onPrs_hub (c : Ctl) (f : Prs → Prs) : (c.onPrs f).hub = c.hub := rfl
@[simp] theorem Ctl.onPrs_fe (c : Ctl) (f : Prs → Prs) : (c.onPrs f).fe = c.fe := rfl
@[simp] theorem Ctl.onPrs_fns (c : Ctl) (f : Prs → Prs) : (c.onPrs f).fns = c.fns := rfl
@[simp] theorem Ctl.onPrs_objs (c : Ctl) (f : Prs → Prs) : (c.onPrs f).objs = c.objs := rfl
@[simp] theorem Ctl.onPrs_ldg (c : Ctl) (f : Prs → Prs) : (c.onPrs f).ldg = c.ldg := rfl
@[simp] theorem Ctl.onPrs_sec (c : Ctl) (f : Prs → Prs) : (c.onPrs f).sec = c.sec := rfl
@[simp] theorem Ctl.onPrs_cof (c : Ctl) (f : Prs → Prs) : (c.onPrs f).cof = c.cof := rfl
@[simp] theorem Ctl.onPrs_cxl (c : Ctl) (f : Prs → Prs) : (c.onPrs f).cxl = c.cxl := rfl
@[simp] theorem Ctl.onPrs_pwr (c : Ctl) (f : Prs → Prs) : (c.onPrs f).pwr = c.pwr := rfl
@[simp] theorem Ctl.onPrs_dbg (c : Ctl) (f : Prs → Prs) : (c.onPrs f).dbg = c.dbg := rfl
@[simp] theorem Ctl.onPrs_prs (c : Ctl) (f : Prs → Prs) : (c.onPrs f).prs = f c.prs := rfl
@[simp] theorem Ctl.onPrs_bus (c : Ctl) (f : Prs → Prs) : (c.onPrs f).bus = c.bus := rfl
@[simp] theorem Ctl.onPrs_xlats (c : Ctl) (f : Prs → Prs) : (c.onPrs f).xlats = c.xlats := rfl
@[simp] theorem Ctl.onBus_yards (c : Ctl) (f : Bus → Bus) : (c.onBus f).yards = c.yards := rfl
@[simp] theorem Ctl.onBus_free (c : Ctl) (f : Bus → Bus) : (c.onBus f).free = c.free := rfl
@[simp] theorem Ctl.onBus_hub (c : Ctl) (f : Bus → Bus) : (c.onBus f).hub = c.hub := rfl
@[simp] theorem Ctl.onBus_fe (c : Ctl) (f : Bus → Bus) : (c.onBus f).fe = c.fe := rfl
@[simp] theorem Ctl.onBus_fns (c : Ctl) (f : Bus → Bus) : (c.onBus f).fns = c.fns := rfl
@[simp] theorem Ctl.onBus_objs (c : Ctl) (f : Bus → Bus) : (c.onBus f).objs = c.objs := rfl
@[simp] theorem Ctl.onBus_ldg (c : Ctl) (f : Bus → Bus) : (c.onBus f).ldg = c.ldg := rfl
@[simp] theorem Ctl.onBus_sec (c : Ctl) (f : Bus → Bus) : (c.onBus f).sec = c.sec := rfl
@[simp] theorem Ctl.onBus_cof (c : Ctl) (f : Bus → Bus) : (c.onBus f).cof = c.cof := rfl
@[simp] theorem Ctl.onBus_cxl (c : Ctl) (f : Bus → Bus) : (c.onBus f).cxl = c.cxl := rfl
@[simp] theorem Ctl.onBus_pwr (c : Ctl) (f : Bus → Bus) : (c.onBus f).pwr = c.pwr := rfl
@[simp] theorem Ctl.onBus_dbg (c : Ctl) (f : Bus → Bus) : (c.onBus f).dbg = c.dbg := rfl
@[simp] theorem Ctl.onBus_prs (c : Ctl) (f : Bus → Bus) : (c.onBus f).prs = c.prs := rfl
@[simp] theorem Ctl.onBus_bus (c : Ctl) (f : Bus → Bus) : (c.onBus f).bus = f c.bus := rfl
@[simp] theorem Ctl.onBus_xlats (c : Ctl) (f : Bus → Bus) : (c.onBus f).xlats = c.xlats := rfl
@[simp] theorem Ctl.onFn_yards (c : Ctl) (n : BitVec 8) (f : Fn → Fn) : (c.onFn n f).yards = c.yards := rfl
@[simp] theorem Ctl.onFn_free (c : Ctl) (n : BitVec 8) (f : Fn → Fn) : (c.onFn n f).free = c.free := rfl
@[simp] theorem Ctl.onFn_hub (c : Ctl) (n : BitVec 8) (f : Fn → Fn) : (c.onFn n f).hub = c.hub := rfl
@[simp] theorem Ctl.onFn_fe (c : Ctl) (n : BitVec 8) (f : Fn → Fn) : (c.onFn n f).fe = c.fe := rfl
@[simp] theorem Ctl.onFn_objs (c : Ctl) (n : BitVec 8) (f : Fn → Fn) : (c.onFn n f).objs = c.objs := rfl
@[simp] theorem Ctl.onFn_ldg (c : Ctl) (n : BitVec 8) (f : Fn → Fn) : (c.onFn n f).ldg = c.ldg := rfl
@[simp] theorem Ctl.onFn_sec (c : Ctl) (n : BitVec 8) (f : Fn → Fn) : (c.onFn n f).sec = c.sec := rfl
@[simp] theorem Ctl.onFn_cof (c : Ctl) (n : BitVec 8) (f : Fn → Fn) : (c.onFn n f).cof = c.cof := rfl
@[simp] theorem Ctl.onFn_cxl (c : Ctl) (n : BitVec 8) (f : Fn → Fn) : (c.onFn n f).cxl = c.cxl := rfl
@[simp] theorem Ctl.onFn_pwr (c : Ctl) (n : BitVec 8) (f : Fn → Fn) : (c.onFn n f).pwr = c.pwr := rfl
@[simp] theorem Ctl.onFn_dbg (c : Ctl) (n : BitVec 8) (f : Fn → Fn) : (c.onFn n f).dbg = c.dbg := rfl
@[simp] theorem Ctl.onFn_prs (c : Ctl) (n : BitVec 8) (f : Fn → Fn) : (c.onFn n f).prs = c.prs := rfl
@[simp] theorem Ctl.onFn_bus (c : Ctl) (n : BitVec 8) (f : Fn → Fn) : (c.onFn n f).bus = c.bus := rfl
@[simp] theorem Ctl.onFn_xlats (c : Ctl) (n : BitVec 8) (f : Fn → Fn) : (c.onFn n f).xlats = c.xlats := rfl
@[simp] theorem Ctl.onQueue_yards (c : Ctl) (n : BitVec 8) (q : Fin 4) (f : Queue → Queue) : (c.onQueue n q f).yards = c.yards := rfl
@[simp] theorem Ctl.onQueue_free (c : Ctl) (n : BitVec 8) (q : Fin 4) (f : Queue → Queue) : (c.onQueue n q f).free = c.free := rfl
@[simp] theorem Ctl.onQueue_hub (c : Ctl) (n : BitVec 8) (q : Fin 4) (f : Queue → Queue) : (c.onQueue n q f).hub = c.hub := rfl
@[simp] theorem Ctl.onQueue_fe (c : Ctl) (n : BitVec 8) (q : Fin 4) (f : Queue → Queue) : (c.onQueue n q f).fe = c.fe := rfl
@[simp] theorem Ctl.onQueue_objs (c : Ctl) (n : BitVec 8) (q : Fin 4) (f : Queue → Queue) : (c.onQueue n q f).objs = c.objs := rfl
@[simp] theorem Ctl.onQueue_ldg (c : Ctl) (n : BitVec 8) (q : Fin 4) (f : Queue → Queue) : (c.onQueue n q f).ldg = c.ldg := rfl
@[simp] theorem Ctl.onQueue_sec (c : Ctl) (n : BitVec 8) (q : Fin 4) (f : Queue → Queue) : (c.onQueue n q f).sec = c.sec := rfl
@[simp] theorem Ctl.onQueue_cof (c : Ctl) (n : BitVec 8) (q : Fin 4) (f : Queue → Queue) : (c.onQueue n q f).cof = c.cof := rfl
@[simp] theorem Ctl.onQueue_cxl (c : Ctl) (n : BitVec 8) (q : Fin 4) (f : Queue → Queue) : (c.onQueue n q f).cxl = c.cxl := rfl
@[simp] theorem Ctl.onQueue_pwr (c : Ctl) (n : BitVec 8) (q : Fin 4) (f : Queue → Queue) : (c.onQueue n q f).pwr = c.pwr := rfl
@[simp] theorem Ctl.onQueue_dbg (c : Ctl) (n : BitVec 8) (q : Fin 4) (f : Queue → Queue) : (c.onQueue n q f).dbg = c.dbg := rfl
@[simp] theorem Ctl.onQueue_prs (c : Ctl) (n : BitVec 8) (q : Fin 4) (f : Queue → Queue) : (c.onQueue n q f).prs = c.prs := rfl
@[simp] theorem Ctl.onQueue_bus (c : Ctl) (n : BitVec 8) (q : Fin 4) (f : Queue → Queue) : (c.onQueue n q f).bus = c.bus := rfl
@[simp] theorem Ctl.onQueue_xlats (c : Ctl) (n : BitVec 8) (q : Fin 4) (f : Queue → Queue) : (c.onQueue n q f).xlats = c.xlats := rfl

/-! The parts of the engines that the shared updates touch. -/

@[simp] theorem Dp.write_shedKeys (d : Dp) (key : Nat) (bs : List Byte) (mark : Bool) : (d.write key bs mark).shedKeys = d.shedKeys := rfl
@[simp] theorem Dp.write_flags (d : Dp) (key : Nat) (bs : List Byte) (mark : Bool) : (d.write key bs mark).flags = d.flags := rfl
@[simp] theorem Dp.write_clips (d : Dp) (key : Nat) (bs : List Byte) (mark : Bool) : (d.write key bs mark).clips = d.clips := rfl
@[simp] theorem Dp.write_converted (d : Dp) (key : Nat) (bs : List Byte) (mark : Bool) : (d.write key bs mark).converted = d.converted := rfl
@[simp] theorem Dp.write_kvErrs (d : Dp) (key : Nat) (bs : List Byte) (mark : Bool) : (d.write key bs mark).kvErrs = d.kvErrs := rfl
@[simp] theorem Dp.write_rowPoison (d : Dp) (key : Nat) (bs : List Byte) (mark : Bool) : (d.write key bs mark).rowPoison = d.rowPoison := rfl
@[simp] theorem Dp.write_queues (d : Dp) (key : Nat) (bs : List Byte) (mark : Bool) : (d.write key bs mark).queues = d.queues := rfl
@[simp] theorem Dp.write_waits (d : Dp) (key : Nat) (bs : List Byte) (mark : Bool) : (d.write key bs mark).waits = d.waits := rfl
@[simp] theorem Dp.write_waited (d : Dp) (key : Nat) (bs : List Byte) (mark : Bool) : (d.write key bs mark).waited = d.waited := rfl
@[simp] theorem Dp.write_flights (d : Dp) (key : Nat) (bs : List Byte) (mark : Bool) : (d.write key bs mark).flights = d.flights := rfl
@[simp] theorem Dp.write_nextFlight (d : Dp) (key : Nat) (bs : List Byte) (mark : Bool) : (d.write key bs mark).nextFlight = d.nextFlight := rfl
@[simp] theorem Dp.write_unfenced (d : Dp) (key : Nat) (bs : List Byte) (mark : Bool) : (d.write key bs mark).unfenced = d.unfenced := rfl
@[simp] theorem Dp.write_inbound (d : Dp) (key : Nat) (bs : List Byte) (mark : Bool) : (d.write key bs mark).inbound = d.inbound := rfl
@[simp] theorem Dp.write_inboundNext (d : Dp) (key : Nat) (bs : List Byte) (mark : Bool) : (d.write key bs mark).inboundNext = d.inboundNext := rfl
@[simp] theorem Dp.write_badBlocks (d : Dp) (key : Nat) (bs : List Byte) (mark : Bool) : (d.write key bs mark).badBlocks = d.badBlocks := rfl
@[simp] theorem Dp.write_units (d : Dp) (key : Nat) (bs : List Byte) (mark : Bool) : (d.write key bs mark).units = d.units := rfl
@[simp] theorem Dp.write_commit (d : Dp) (key : Nat) (bs : List Byte) (mark : Bool) : (d.write key bs mark).commit = d.commit := rfl
@[simp] theorem Dp.write_wparts (d : Dp) (key : Nat) (bs : List Byte) (mark : Bool) : (d.write key bs mark).wparts = d.wparts := rfl
@[simp] theorem Dp.write_sparts (d : Dp) (key : Nat) (bs : List Byte) (mark : Bool) : (d.write key bs mark).sparts = d.sparts := rfl
@[simp] theorem Dp.write_routes (d : Dp) (key : Nat) (bs : List Byte) (mark : Bool) : (d.write key bs mark).routes = d.routes := rfl
@[simp] theorem Dp.write_gens (d : Dp) (key : Nat) (bs : List Byte) (mark : Bool) : (d.write key bs mark).gens = d.gens := rfl
@[simp] theorem Dp.write_progress (d : Dp) (key : Nat) (bs : List Byte) (mark : Bool) : (d.write key bs mark).progress = d.progress := rfl
@[simp] theorem Dp.write_drawn (d : Dp) (key : Nat) (bs : List Byte) (mark : Bool) : (d.write key bs mark).drawn = d.drawn := rfl
@[simp] theorem Dp.raiseFlags_mem (d : Dp) (core : Nat) (e : Engine) (f : ArithFlags) : (d.raiseFlags core e f).mem = d.mem := rfl
@[simp] theorem Dp.raiseFlags_poison (d : Dp) (core : Nat) (e : Engine) (f : ArithFlags) : (d.raiseFlags core e f).poison = d.poison := rfl
@[simp] theorem Dp.raiseFlags_shedKeys (d : Dp) (core : Nat) (e : Engine) (f : ArithFlags) : (d.raiseFlags core e f).shedKeys = d.shedKeys := rfl
@[simp] theorem Dp.raiseFlags_clips (d : Dp) (core : Nat) (e : Engine) (f : ArithFlags) : (d.raiseFlags core e f).clips = d.clips := rfl
@[simp] theorem Dp.raiseFlags_converted (d : Dp) (core : Nat) (e : Engine) (f : ArithFlags) : (d.raiseFlags core e f).converted = d.converted := rfl
@[simp] theorem Dp.raiseFlags_kvErrs (d : Dp) (core : Nat) (e : Engine) (f : ArithFlags) : (d.raiseFlags core e f).kvErrs = d.kvErrs := rfl
@[simp] theorem Dp.raiseFlags_rowPoison (d : Dp) (core : Nat) (e : Engine) (f : ArithFlags) : (d.raiseFlags core e f).rowPoison = d.rowPoison := rfl
@[simp] theorem Dp.raiseFlags_queues (d : Dp) (core : Nat) (e : Engine) (f : ArithFlags) : (d.raiseFlags core e f).queues = d.queues := rfl
@[simp] theorem Dp.raiseFlags_waits (d : Dp) (core : Nat) (e : Engine) (f : ArithFlags) : (d.raiseFlags core e f).waits = d.waits := rfl
@[simp] theorem Dp.raiseFlags_waited (d : Dp) (core : Nat) (e : Engine) (f : ArithFlags) : (d.raiseFlags core e f).waited = d.waited := rfl
@[simp] theorem Dp.raiseFlags_flights (d : Dp) (core : Nat) (e : Engine) (f : ArithFlags) : (d.raiseFlags core e f).flights = d.flights := rfl
@[simp] theorem Dp.raiseFlags_nextFlight (d : Dp) (core : Nat) (e : Engine) (f : ArithFlags) : (d.raiseFlags core e f).nextFlight = d.nextFlight := rfl
@[simp] theorem Dp.raiseFlags_unfenced (d : Dp) (core : Nat) (e : Engine) (f : ArithFlags) : (d.raiseFlags core e f).unfenced = d.unfenced := rfl
@[simp] theorem Dp.raiseFlags_inbound (d : Dp) (core : Nat) (e : Engine) (f : ArithFlags) : (d.raiseFlags core e f).inbound = d.inbound := rfl
@[simp] theorem Dp.raiseFlags_inboundNext (d : Dp) (core : Nat) (e : Engine) (f : ArithFlags) : (d.raiseFlags core e f).inboundNext = d.inboundNext := rfl
@[simp] theorem Dp.raiseFlags_badBlocks (d : Dp) (core : Nat) (e : Engine) (f : ArithFlags) : (d.raiseFlags core e f).badBlocks = d.badBlocks := rfl
@[simp] theorem Dp.raiseFlags_units (d : Dp) (core : Nat) (e : Engine) (f : ArithFlags) : (d.raiseFlags core e f).units = d.units := rfl
@[simp] theorem Dp.raiseFlags_commit (d : Dp) (core : Nat) (e : Engine) (f : ArithFlags) : (d.raiseFlags core e f).commit = d.commit := rfl
@[simp] theorem Dp.raiseFlags_wparts (d : Dp) (core : Nat) (e : Engine) (f : ArithFlags) : (d.raiseFlags core e f).wparts = d.wparts := rfl
@[simp] theorem Dp.raiseFlags_sparts (d : Dp) (core : Nat) (e : Engine) (f : ArithFlags) : (d.raiseFlags core e f).sparts = d.sparts := rfl
@[simp] theorem Dp.raiseFlags_routes (d : Dp) (core : Nat) (e : Engine) (f : ArithFlags) : (d.raiseFlags core e f).routes = d.routes := rfl
@[simp] theorem Dp.raiseFlags_gens (d : Dp) (core : Nat) (e : Engine) (f : ArithFlags) : (d.raiseFlags core e f).gens = d.gens := rfl
@[simp] theorem Dp.raiseFlags_progress (d : Dp) (core : Nat) (e : Engine) (f : ArithFlags) : (d.raiseFlags core e f).progress = d.progress := rfl
@[simp] theorem Dp.raiseFlags_drawn (d : Dp) (core : Nat) (e : Engine) (f : ArithFlags) : (d.raiseFlags core e f).drawn = d.drawn := rfl
@[simp] theorem Dp.retireInstr_mem (d : Dp) (k : Yard) (l : Cluster) : (d.retireInstr k l).mem = d.mem := rfl
@[simp] theorem Dp.retireInstr_poison (d : Dp) (k : Yard) (l : Cluster) : (d.retireInstr k l).poison = d.poison := rfl
@[simp] theorem Dp.retireInstr_shedKeys (d : Dp) (k : Yard) (l : Cluster) : (d.retireInstr k l).shedKeys = d.shedKeys := rfl
@[simp] theorem Dp.retireInstr_flags (d : Dp) (k : Yard) (l : Cluster) : (d.retireInstr k l).flags = d.flags := rfl
@[simp] theorem Dp.retireInstr_clips (d : Dp) (k : Yard) (l : Cluster) : (d.retireInstr k l).clips = d.clips := rfl
@[simp] theorem Dp.retireInstr_converted (d : Dp) (k : Yard) (l : Cluster) : (d.retireInstr k l).converted = d.converted := rfl
@[simp] theorem Dp.retireInstr_kvErrs (d : Dp) (k : Yard) (l : Cluster) : (d.retireInstr k l).kvErrs = d.kvErrs := rfl
@[simp] theorem Dp.retireInstr_rowPoison (d : Dp) (k : Yard) (l : Cluster) : (d.retireInstr k l).rowPoison = d.rowPoison := rfl
@[simp] theorem Dp.retireInstr_queues (d : Dp) (k : Yard) (l : Cluster) : (d.retireInstr k l).queues = d.queues := rfl
@[simp] theorem Dp.retireInstr_waits (d : Dp) (k : Yard) (l : Cluster) : (d.retireInstr k l).waits = d.waits := rfl
@[simp] theorem Dp.retireInstr_waited (d : Dp) (k : Yard) (l : Cluster) : (d.retireInstr k l).waited = d.waited := rfl
@[simp] theorem Dp.retireInstr_flights (d : Dp) (k : Yard) (l : Cluster) : (d.retireInstr k l).flights = d.flights := rfl
@[simp] theorem Dp.retireInstr_nextFlight (d : Dp) (k : Yard) (l : Cluster) : (d.retireInstr k l).nextFlight = d.nextFlight := rfl
@[simp] theorem Dp.retireInstr_unfenced (d : Dp) (k : Yard) (l : Cluster) : (d.retireInstr k l).unfenced = d.unfenced := rfl
@[simp] theorem Dp.retireInstr_inbound (d : Dp) (k : Yard) (l : Cluster) : (d.retireInstr k l).inbound = d.inbound := rfl
@[simp] theorem Dp.retireInstr_inboundNext (d : Dp) (k : Yard) (l : Cluster) : (d.retireInstr k l).inboundNext = d.inboundNext := rfl
@[simp] theorem Dp.retireInstr_badBlocks (d : Dp) (k : Yard) (l : Cluster) : (d.retireInstr k l).badBlocks = d.badBlocks := rfl
@[simp] theorem Dp.retireInstr_units (d : Dp) (k : Yard) (l : Cluster) : (d.retireInstr k l).units = d.units := rfl
@[simp] theorem Dp.retireInstr_commit (d : Dp) (k : Yard) (l : Cluster) : (d.retireInstr k l).commit = d.commit := rfl
@[simp] theorem Dp.retireInstr_wparts (d : Dp) (k : Yard) (l : Cluster) : (d.retireInstr k l).wparts = d.wparts := rfl
@[simp] theorem Dp.retireInstr_sparts (d : Dp) (k : Yard) (l : Cluster) : (d.retireInstr k l).sparts = d.sparts := rfl
@[simp] theorem Dp.retireInstr_routes (d : Dp) (k : Yard) (l : Cluster) : (d.retireInstr k l).routes = d.routes := rfl
@[simp] theorem Dp.retireInstr_gens (d : Dp) (k : Yard) (l : Cluster) : (d.retireInstr k l).gens = d.gens := rfl
@[simp] theorem Dp.retireInstr_drawn (d : Dp) (k : Yard) (l : Cluster) : (d.retireInstr k l).drawn = d.drawn := rfl
@[simp] theorem Dp.countUnits_mem (d : Dp) (k : Yard) (l stall : Nat) (w : List (EnergyClass × Nat)) : (d.countUnits k l stall w).mem = d.mem := rfl
@[simp] theorem Dp.countUnits_poison (d : Dp) (k : Yard) (l stall : Nat) (w : List (EnergyClass × Nat)) : (d.countUnits k l stall w).poison = d.poison := rfl
@[simp] theorem Dp.countUnits_shedKeys (d : Dp) (k : Yard) (l stall : Nat) (w : List (EnergyClass × Nat)) : (d.countUnits k l stall w).shedKeys = d.shedKeys := rfl
@[simp] theorem Dp.countUnits_flags (d : Dp) (k : Yard) (l stall : Nat) (w : List (EnergyClass × Nat)) : (d.countUnits k l stall w).flags = d.flags := rfl
@[simp] theorem Dp.countUnits_clips (d : Dp) (k : Yard) (l stall : Nat) (w : List (EnergyClass × Nat)) : (d.countUnits k l stall w).clips = d.clips := rfl
@[simp] theorem Dp.countUnits_converted (d : Dp) (k : Yard) (l stall : Nat) (w : List (EnergyClass × Nat)) : (d.countUnits k l stall w).converted = d.converted := rfl
@[simp] theorem Dp.countUnits_kvErrs (d : Dp) (k : Yard) (l stall : Nat) (w : List (EnergyClass × Nat)) : (d.countUnits k l stall w).kvErrs = d.kvErrs := rfl
@[simp] theorem Dp.countUnits_rowPoison (d : Dp) (k : Yard) (l stall : Nat) (w : List (EnergyClass × Nat)) : (d.countUnits k l stall w).rowPoison = d.rowPoison := rfl
@[simp] theorem Dp.countUnits_queues (d : Dp) (k : Yard) (l stall : Nat) (w : List (EnergyClass × Nat)) : (d.countUnits k l stall w).queues = d.queues := rfl
@[simp] theorem Dp.countUnits_waits (d : Dp) (k : Yard) (l stall : Nat) (w : List (EnergyClass × Nat)) : (d.countUnits k l stall w).waits = d.waits := rfl
@[simp] theorem Dp.countUnits_waited (d : Dp) (k : Yard) (l stall : Nat) (w : List (EnergyClass × Nat)) : (d.countUnits k l stall w).waited = d.waited := rfl
@[simp] theorem Dp.countUnits_flights (d : Dp) (k : Yard) (l stall : Nat) (w : List (EnergyClass × Nat)) : (d.countUnits k l stall w).flights = d.flights := rfl
@[simp] theorem Dp.countUnits_nextFlight (d : Dp) (k : Yard) (l stall : Nat) (w : List (EnergyClass × Nat)) : (d.countUnits k l stall w).nextFlight = d.nextFlight := rfl
@[simp] theorem Dp.countUnits_unfenced (d : Dp) (k : Yard) (l stall : Nat) (w : List (EnergyClass × Nat)) : (d.countUnits k l stall w).unfenced = d.unfenced := rfl
@[simp] theorem Dp.countUnits_inbound (d : Dp) (k : Yard) (l stall : Nat) (w : List (EnergyClass × Nat)) : (d.countUnits k l stall w).inbound = d.inbound := rfl
@[simp] theorem Dp.countUnits_inboundNext (d : Dp) (k : Yard) (l stall : Nat) (w : List (EnergyClass × Nat)) : (d.countUnits k l stall w).inboundNext = d.inboundNext := rfl
@[simp] theorem Dp.countUnits_badBlocks (d : Dp) (k : Yard) (l stall : Nat) (w : List (EnergyClass × Nat)) : (d.countUnits k l stall w).badBlocks = d.badBlocks := rfl
@[simp] theorem Dp.countUnits_commit (d : Dp) (k : Yard) (l stall : Nat) (w : List (EnergyClass × Nat)) : (d.countUnits k l stall w).commit = d.commit := rfl
@[simp] theorem Dp.countUnits_wparts (d : Dp) (k : Yard) (l stall : Nat) (w : List (EnergyClass × Nat)) : (d.countUnits k l stall w).wparts = d.wparts := rfl
@[simp] theorem Dp.countUnits_sparts (d : Dp) (k : Yard) (l stall : Nat) (w : List (EnergyClass × Nat)) : (d.countUnits k l stall w).sparts = d.sparts := rfl
@[simp] theorem Dp.countUnits_routes (d : Dp) (k : Yard) (l stall : Nat) (w : List (EnergyClass × Nat)) : (d.countUnits k l stall w).routes = d.routes := rfl
@[simp] theorem Dp.countUnits_gens (d : Dp) (k : Yard) (l stall : Nat) (w : List (EnergyClass × Nat)) : (d.countUnits k l stall w).gens = d.gens := rfl
@[simp] theorem Dp.countUnits_drawn (d : Dp) (k : Yard) (l stall : Nat) (w : List (EnergyClass × Nat)) : (d.countUnits k l stall w).drawn = d.drawn := rfl
@[simp] theorem Dp.countUnits_progress (d : Dp) (k : Yard) (l stall : Nat) (w : List (EnergyClass × Nat)) : (d.countUnits k l stall w).progress = d.progress := rfl
@[simp] theorem Dp.clip_mem (d : Dp) (cluster layer chan n : Nat) : (d.clip cluster layer chan n).mem = d.mem := rfl
@[simp] theorem Dp.clip_poison (d : Dp) (cluster layer chan n : Nat) : (d.clip cluster layer chan n).poison = d.poison := rfl
@[simp] theorem Dp.clip_shedKeys (d : Dp) (cluster layer chan n : Nat) : (d.clip cluster layer chan n).shedKeys = d.shedKeys := rfl
@[simp] theorem Dp.clip_flags (d : Dp) (cluster layer chan n : Nat) : (d.clip cluster layer chan n).flags = d.flags := rfl
@[simp] theorem Dp.clip_converted (d : Dp) (cluster layer chan n : Nat) : (d.clip cluster layer chan n).converted = d.converted := rfl
@[simp] theorem Dp.clip_kvErrs (d : Dp) (cluster layer chan n : Nat) : (d.clip cluster layer chan n).kvErrs = d.kvErrs := rfl
@[simp] theorem Dp.clip_rowPoison (d : Dp) (cluster layer chan n : Nat) : (d.clip cluster layer chan n).rowPoison = d.rowPoison := rfl
@[simp] theorem Dp.clip_queues (d : Dp) (cluster layer chan n : Nat) : (d.clip cluster layer chan n).queues = d.queues := rfl
@[simp] theorem Dp.clip_waits (d : Dp) (cluster layer chan n : Nat) : (d.clip cluster layer chan n).waits = d.waits := rfl
@[simp] theorem Dp.clip_waited (d : Dp) (cluster layer chan n : Nat) : (d.clip cluster layer chan n).waited = d.waited := rfl
@[simp] theorem Dp.clip_flights (d : Dp) (cluster layer chan n : Nat) : (d.clip cluster layer chan n).flights = d.flights := rfl
@[simp] theorem Dp.clip_nextFlight (d : Dp) (cluster layer chan n : Nat) : (d.clip cluster layer chan n).nextFlight = d.nextFlight := rfl
@[simp] theorem Dp.clip_unfenced (d : Dp) (cluster layer chan n : Nat) : (d.clip cluster layer chan n).unfenced = d.unfenced := rfl
@[simp] theorem Dp.clip_inbound (d : Dp) (cluster layer chan n : Nat) : (d.clip cluster layer chan n).inbound = d.inbound := rfl
@[simp] theorem Dp.clip_inboundNext (d : Dp) (cluster layer chan n : Nat) : (d.clip cluster layer chan n).inboundNext = d.inboundNext := rfl
@[simp] theorem Dp.clip_badBlocks (d : Dp) (cluster layer chan n : Nat) : (d.clip cluster layer chan n).badBlocks = d.badBlocks := rfl
@[simp] theorem Dp.clip_units (d : Dp) (cluster layer chan n : Nat) : (d.clip cluster layer chan n).units = d.units := rfl
@[simp] theorem Dp.clip_commit (d : Dp) (cluster layer chan n : Nat) : (d.clip cluster layer chan n).commit = d.commit := rfl
@[simp] theorem Dp.clip_wparts (d : Dp) (cluster layer chan n : Nat) : (d.clip cluster layer chan n).wparts = d.wparts := rfl
@[simp] theorem Dp.clip_sparts (d : Dp) (cluster layer chan n : Nat) : (d.clip cluster layer chan n).sparts = d.sparts := rfl
@[simp] theorem Dp.clip_routes (d : Dp) (cluster layer chan n : Nat) : (d.clip cluster layer chan n).routes = d.routes := rfl
@[simp] theorem Dp.clip_gens (d : Dp) (cluster layer chan n : Nat) : (d.clip cluster layer chan n).gens = d.gens := rfl
@[simp] theorem Dp.clip_progress (d : Dp) (cluster layer chan n : Nat) : (d.clip cluster layer chan n).progress = d.progress := rfl
@[simp] theorem Dp.clip_drawn (d : Dp) (cluster layer chan n : Nat) : (d.clip cluster layer chan n).drawn = d.drawn := rfl
@[simp] theorem Dp.setWait_mem (d : Dp) (core : Nat) (who : Consumer) (w : Wait) : (d.setWait core who w).mem = d.mem := rfl
@[simp] theorem Dp.setWait_poison (d : Dp) (core : Nat) (who : Consumer) (w : Wait) : (d.setWait core who w).poison = d.poison := rfl
@[simp] theorem Dp.setWait_shedKeys (d : Dp) (core : Nat) (who : Consumer) (w : Wait) : (d.setWait core who w).shedKeys = d.shedKeys := rfl
@[simp] theorem Dp.setWait_flags (d : Dp) (core : Nat) (who : Consumer) (w : Wait) : (d.setWait core who w).flags = d.flags := rfl
@[simp] theorem Dp.setWait_clips (d : Dp) (core : Nat) (who : Consumer) (w : Wait) : (d.setWait core who w).clips = d.clips := rfl
@[simp] theorem Dp.setWait_converted (d : Dp) (core : Nat) (who : Consumer) (w : Wait) : (d.setWait core who w).converted = d.converted := rfl
@[simp] theorem Dp.setWait_kvErrs (d : Dp) (core : Nat) (who : Consumer) (w : Wait) : (d.setWait core who w).kvErrs = d.kvErrs := rfl
@[simp] theorem Dp.setWait_rowPoison (d : Dp) (core : Nat) (who : Consumer) (w : Wait) : (d.setWait core who w).rowPoison = d.rowPoison := rfl
@[simp] theorem Dp.setWait_queues (d : Dp) (core : Nat) (who : Consumer) (w : Wait) : (d.setWait core who w).queues = d.queues := rfl
@[simp] theorem Dp.setWait_flights (d : Dp) (core : Nat) (who : Consumer) (w : Wait) : (d.setWait core who w).flights = d.flights := rfl
@[simp] theorem Dp.setWait_nextFlight (d : Dp) (core : Nat) (who : Consumer) (w : Wait) : (d.setWait core who w).nextFlight = d.nextFlight := rfl
@[simp] theorem Dp.setWait_unfenced (d : Dp) (core : Nat) (who : Consumer) (w : Wait) : (d.setWait core who w).unfenced = d.unfenced := rfl
@[simp] theorem Dp.setWait_inbound (d : Dp) (core : Nat) (who : Consumer) (w : Wait) : (d.setWait core who w).inbound = d.inbound := rfl
@[simp] theorem Dp.setWait_inboundNext (d : Dp) (core : Nat) (who : Consumer) (w : Wait) : (d.setWait core who w).inboundNext = d.inboundNext := rfl
@[simp] theorem Dp.setWait_badBlocks (d : Dp) (core : Nat) (who : Consumer) (w : Wait) : (d.setWait core who w).badBlocks = d.badBlocks := rfl
@[simp] theorem Dp.setWait_units (d : Dp) (core : Nat) (who : Consumer) (w : Wait) : (d.setWait core who w).units = d.units := rfl
@[simp] theorem Dp.setWait_commit (d : Dp) (core : Nat) (who : Consumer) (w : Wait) : (d.setWait core who w).commit = d.commit := rfl
@[simp] theorem Dp.setWait_wparts (d : Dp) (core : Nat) (who : Consumer) (w : Wait) : (d.setWait core who w).wparts = d.wparts := rfl
@[simp] theorem Dp.setWait_sparts (d : Dp) (core : Nat) (who : Consumer) (w : Wait) : (d.setWait core who w).sparts = d.sparts := rfl
@[simp] theorem Dp.setWait_routes (d : Dp) (core : Nat) (who : Consumer) (w : Wait) : (d.setWait core who w).routes = d.routes := rfl
@[simp] theorem Dp.setWait_gens (d : Dp) (core : Nat) (who : Consumer) (w : Wait) : (d.setWait core who w).gens = d.gens := rfl
@[simp] theorem Dp.setWait_progress (d : Dp) (core : Nat) (who : Consumer) (w : Wait) : (d.setWait core who w).progress = d.progress := rfl
@[simp] theorem Dp.setWait_drawn (d : Dp) (core : Nat) (who : Consumer) (w : Wait) : (d.setWait core who w).drawn = d.drawn := rfl
@[simp] theorem Dp.setRoute_mem (d : Dp) (r : RouteLayer) : (d.setRoute r).mem = d.mem := rfl
@[simp] theorem Dp.setRoute_poison (d : Dp) (r : RouteLayer) : (d.setRoute r).poison = d.poison := rfl
@[simp] theorem Dp.setRoute_shedKeys (d : Dp) (r : RouteLayer) : (d.setRoute r).shedKeys = d.shedKeys := rfl
@[simp] theorem Dp.setRoute_flags (d : Dp) (r : RouteLayer) : (d.setRoute r).flags = d.flags := rfl
@[simp] theorem Dp.setRoute_clips (d : Dp) (r : RouteLayer) : (d.setRoute r).clips = d.clips := rfl
@[simp] theorem Dp.setRoute_converted (d : Dp) (r : RouteLayer) : (d.setRoute r).converted = d.converted := rfl
@[simp] theorem Dp.setRoute_kvErrs (d : Dp) (r : RouteLayer) : (d.setRoute r).kvErrs = d.kvErrs := rfl
@[simp] theorem Dp.setRoute_rowPoison (d : Dp) (r : RouteLayer) : (d.setRoute r).rowPoison = d.rowPoison := rfl
@[simp] theorem Dp.setRoute_queues (d : Dp) (r : RouteLayer) : (d.setRoute r).queues = d.queues := rfl
@[simp] theorem Dp.setRoute_waits (d : Dp) (r : RouteLayer) : (d.setRoute r).waits = d.waits := rfl
@[simp] theorem Dp.setRoute_waited (d : Dp) (r : RouteLayer) : (d.setRoute r).waited = d.waited := rfl
@[simp] theorem Dp.setRoute_flights (d : Dp) (r : RouteLayer) : (d.setRoute r).flights = d.flights := rfl
@[simp] theorem Dp.setRoute_nextFlight (d : Dp) (r : RouteLayer) : (d.setRoute r).nextFlight = d.nextFlight := rfl
@[simp] theorem Dp.setRoute_unfenced (d : Dp) (r : RouteLayer) : (d.setRoute r).unfenced = d.unfenced := rfl
@[simp] theorem Dp.setRoute_inbound (d : Dp) (r : RouteLayer) : (d.setRoute r).inbound = d.inbound := rfl
@[simp] theorem Dp.setRoute_inboundNext (d : Dp) (r : RouteLayer) : (d.setRoute r).inboundNext = d.inboundNext := rfl
@[simp] theorem Dp.setRoute_badBlocks (d : Dp) (r : RouteLayer) : (d.setRoute r).badBlocks = d.badBlocks := rfl
@[simp] theorem Dp.setRoute_units (d : Dp) (r : RouteLayer) : (d.setRoute r).units = d.units := rfl
@[simp] theorem Dp.setRoute_commit (d : Dp) (r : RouteLayer) : (d.setRoute r).commit = d.commit := rfl
@[simp] theorem Dp.setRoute_wparts (d : Dp) (r : RouteLayer) : (d.setRoute r).wparts = d.wparts := rfl
@[simp] theorem Dp.setRoute_sparts (d : Dp) (r : RouteLayer) : (d.setRoute r).sparts = d.sparts := rfl
@[simp] theorem Dp.setRoute_gens (d : Dp) (r : RouteLayer) : (d.setRoute r).gens = d.gens := rfl
@[simp] theorem Dp.setRoute_progress (d : Dp) (r : RouteLayer) : (d.setRoute r).progress = d.progress := rfl
@[simp] theorem Dp.setRoute_drawn (d : Dp) (r : RouteLayer) : (d.setRoute r).drawn = d.drawn := rfl
@[simp] theorem Dp.setWpart_mem (d : Dp) (k : Nat) (p : WPart) : (d.setWpart k p).mem = d.mem := rfl
@[simp] theorem Dp.setWpart_poison (d : Dp) (k : Nat) (p : WPart) : (d.setWpart k p).poison = d.poison := rfl
@[simp] theorem Dp.setWpart_shedKeys (d : Dp) (k : Nat) (p : WPart) : (d.setWpart k p).shedKeys = d.shedKeys := rfl
@[simp] theorem Dp.setWpart_flags (d : Dp) (k : Nat) (p : WPart) : (d.setWpart k p).flags = d.flags := rfl
@[simp] theorem Dp.setWpart_clips (d : Dp) (k : Nat) (p : WPart) : (d.setWpart k p).clips = d.clips := rfl
@[simp] theorem Dp.setWpart_converted (d : Dp) (k : Nat) (p : WPart) : (d.setWpart k p).converted = d.converted := rfl
@[simp] theorem Dp.setWpart_kvErrs (d : Dp) (k : Nat) (p : WPart) : (d.setWpart k p).kvErrs = d.kvErrs := rfl
@[simp] theorem Dp.setWpart_rowPoison (d : Dp) (k : Nat) (p : WPart) : (d.setWpart k p).rowPoison = d.rowPoison := rfl
@[simp] theorem Dp.setWpart_queues (d : Dp) (k : Nat) (p : WPart) : (d.setWpart k p).queues = d.queues := rfl
@[simp] theorem Dp.setWpart_waits (d : Dp) (k : Nat) (p : WPart) : (d.setWpart k p).waits = d.waits := rfl
@[simp] theorem Dp.setWpart_waited (d : Dp) (k : Nat) (p : WPart) : (d.setWpart k p).waited = d.waited := rfl
@[simp] theorem Dp.setWpart_flights (d : Dp) (k : Nat) (p : WPart) : (d.setWpart k p).flights = d.flights := rfl
@[simp] theorem Dp.setWpart_nextFlight (d : Dp) (k : Nat) (p : WPart) : (d.setWpart k p).nextFlight = d.nextFlight := rfl
@[simp] theorem Dp.setWpart_unfenced (d : Dp) (k : Nat) (p : WPart) : (d.setWpart k p).unfenced = d.unfenced := rfl
@[simp] theorem Dp.setWpart_inbound (d : Dp) (k : Nat) (p : WPart) : (d.setWpart k p).inbound = d.inbound := rfl
@[simp] theorem Dp.setWpart_inboundNext (d : Dp) (k : Nat) (p : WPart) : (d.setWpart k p).inboundNext = d.inboundNext := rfl
@[simp] theorem Dp.setWpart_badBlocks (d : Dp) (k : Nat) (p : WPart) : (d.setWpart k p).badBlocks = d.badBlocks := rfl
@[simp] theorem Dp.setWpart_units (d : Dp) (k : Nat) (p : WPart) : (d.setWpart k p).units = d.units := rfl
@[simp] theorem Dp.setWpart_commit (d : Dp) (k : Nat) (p : WPart) : (d.setWpart k p).commit = d.commit := rfl
@[simp] theorem Dp.setWpart_sparts (d : Dp) (k : Nat) (p : WPart) : (d.setWpart k p).sparts = d.sparts := rfl
@[simp] theorem Dp.setWpart_routes (d : Dp) (k : Nat) (p : WPart) : (d.setWpart k p).routes = d.routes := rfl
@[simp] theorem Dp.setWpart_gens (d : Dp) (k : Nat) (p : WPart) : (d.setWpart k p).gens = d.gens := rfl
@[simp] theorem Dp.setWpart_progress (d : Dp) (k : Nat) (p : WPart) : (d.setWpart k p).progress = d.progress := rfl
@[simp] theorem Dp.setWpart_drawn (d : Dp) (k : Nat) (p : WPart) : (d.setWpart k p).drawn = d.drawn := rfl
@[simp] theorem Dp.setSpart_mem (d : Dp) (k : Nat) (p : SPart) : (d.setSpart k p).mem = d.mem := rfl
@[simp] theorem Dp.setSpart_poison (d : Dp) (k : Nat) (p : SPart) : (d.setSpart k p).poison = d.poison := rfl
@[simp] theorem Dp.setSpart_shedKeys (d : Dp) (k : Nat) (p : SPart) : (d.setSpart k p).shedKeys = d.shedKeys := rfl
@[simp] theorem Dp.setSpart_flags (d : Dp) (k : Nat) (p : SPart) : (d.setSpart k p).flags = d.flags := rfl
@[simp] theorem Dp.setSpart_clips (d : Dp) (k : Nat) (p : SPart) : (d.setSpart k p).clips = d.clips := rfl
@[simp] theorem Dp.setSpart_converted (d : Dp) (k : Nat) (p : SPart) : (d.setSpart k p).converted = d.converted := rfl
@[simp] theorem Dp.setSpart_kvErrs (d : Dp) (k : Nat) (p : SPart) : (d.setSpart k p).kvErrs = d.kvErrs := rfl
@[simp] theorem Dp.setSpart_rowPoison (d : Dp) (k : Nat) (p : SPart) : (d.setSpart k p).rowPoison = d.rowPoison := rfl
@[simp] theorem Dp.setSpart_queues (d : Dp) (k : Nat) (p : SPart) : (d.setSpart k p).queues = d.queues := rfl
@[simp] theorem Dp.setSpart_waits (d : Dp) (k : Nat) (p : SPart) : (d.setSpart k p).waits = d.waits := rfl
@[simp] theorem Dp.setSpart_waited (d : Dp) (k : Nat) (p : SPart) : (d.setSpart k p).waited = d.waited := rfl
@[simp] theorem Dp.setSpart_flights (d : Dp) (k : Nat) (p : SPart) : (d.setSpart k p).flights = d.flights := rfl
@[simp] theorem Dp.setSpart_nextFlight (d : Dp) (k : Nat) (p : SPart) : (d.setSpart k p).nextFlight = d.nextFlight := rfl
@[simp] theorem Dp.setSpart_unfenced (d : Dp) (k : Nat) (p : SPart) : (d.setSpart k p).unfenced = d.unfenced := rfl
@[simp] theorem Dp.setSpart_inbound (d : Dp) (k : Nat) (p : SPart) : (d.setSpart k p).inbound = d.inbound := rfl
@[simp] theorem Dp.setSpart_inboundNext (d : Dp) (k : Nat) (p : SPart) : (d.setSpart k p).inboundNext = d.inboundNext := rfl
@[simp] theorem Dp.setSpart_badBlocks (d : Dp) (k : Nat) (p : SPart) : (d.setSpart k p).badBlocks = d.badBlocks := rfl
@[simp] theorem Dp.setSpart_units (d : Dp) (k : Nat) (p : SPart) : (d.setSpart k p).units = d.units := rfl
@[simp] theorem Dp.setSpart_commit (d : Dp) (k : Nat) (p : SPart) : (d.setSpart k p).commit = d.commit := rfl
@[simp] theorem Dp.setSpart_wparts (d : Dp) (k : Nat) (p : SPart) : (d.setSpart k p).wparts = d.wparts := rfl
@[simp] theorem Dp.setSpart_routes (d : Dp) (k : Nat) (p : SPart) : (d.setSpart k p).routes = d.routes := rfl
@[simp] theorem Dp.setSpart_gens (d : Dp) (k : Nat) (p : SPart) : (d.setSpart k p).gens = d.gens := rfl
@[simp] theorem Dp.setSpart_progress (d : Dp) (k : Nat) (p : SPart) : (d.setSpart k p).progress = d.progress := rfl
@[simp] theorem Dp.setSpart_drawn (d : Dp) (k : Nat) (p : SPart) : (d.setSpart k p).drawn = d.drawn := rfl
@[simp] theorem Dp.setFlight_mem (d : Dp) (f : Flight) : (d.setFlight f).mem = d.mem := rfl
@[simp] theorem Dp.setFlight_poison (d : Dp) (f : Flight) : (d.setFlight f).poison = d.poison := rfl
@[simp] theorem Dp.setFlight_shedKeys (d : Dp) (f : Flight) : (d.setFlight f).shedKeys = d.shedKeys := rfl
@[simp] theorem Dp.setFlight_flags (d : Dp) (f : Flight) : (d.setFlight f).flags = d.flags := rfl
@[simp] theorem Dp.setFlight_clips (d : Dp) (f : Flight) : (d.setFlight f).clips = d.clips := rfl
@[simp] theorem Dp.setFlight_converted (d : Dp) (f : Flight) : (d.setFlight f).converted = d.converted := rfl
@[simp] theorem Dp.setFlight_kvErrs (d : Dp) (f : Flight) : (d.setFlight f).kvErrs = d.kvErrs := rfl
@[simp] theorem Dp.setFlight_rowPoison (d : Dp) (f : Flight) : (d.setFlight f).rowPoison = d.rowPoison := rfl
@[simp] theorem Dp.setFlight_queues (d : Dp) (f : Flight) : (d.setFlight f).queues = d.queues := rfl
@[simp] theorem Dp.setFlight_waits (d : Dp) (f : Flight) : (d.setFlight f).waits = d.waits := rfl
@[simp] theorem Dp.setFlight_waited (d : Dp) (f : Flight) : (d.setFlight f).waited = d.waited := rfl
@[simp] theorem Dp.setFlight_nextFlight (d : Dp) (f : Flight) : (d.setFlight f).nextFlight = d.nextFlight := rfl
@[simp] theorem Dp.setFlight_unfenced (d : Dp) (f : Flight) : (d.setFlight f).unfenced = d.unfenced := rfl
@[simp] theorem Dp.setFlight_inbound (d : Dp) (f : Flight) : (d.setFlight f).inbound = d.inbound := rfl
@[simp] theorem Dp.setFlight_inboundNext (d : Dp) (f : Flight) : (d.setFlight f).inboundNext = d.inboundNext := rfl
@[simp] theorem Dp.setFlight_badBlocks (d : Dp) (f : Flight) : (d.setFlight f).badBlocks = d.badBlocks := rfl
@[simp] theorem Dp.setFlight_units (d : Dp) (f : Flight) : (d.setFlight f).units = d.units := rfl
@[simp] theorem Dp.setFlight_commit (d : Dp) (f : Flight) : (d.setFlight f).commit = d.commit := rfl
@[simp] theorem Dp.setFlight_wparts (d : Dp) (f : Flight) : (d.setFlight f).wparts = d.wparts := rfl
@[simp] theorem Dp.setFlight_sparts (d : Dp) (f : Flight) : (d.setFlight f).sparts = d.sparts := rfl
@[simp] theorem Dp.setFlight_routes (d : Dp) (f : Flight) : (d.setFlight f).routes = d.routes := rfl
@[simp] theorem Dp.setFlight_gens (d : Dp) (f : Flight) : (d.setFlight f).gens = d.gens := rfl
@[simp] theorem Dp.setFlight_progress (d : Dp) (f : Flight) : (d.setFlight f).progress = d.progress := rfl
@[simp] theorem Dp.setFlight_drawn (d : Dp) (f : Flight) : (d.setFlight f).drawn = d.drawn := rfl
@[simp] theorem Dp.setAcc_shedKeys (d : Dp) (core i : Nat) (v : Word) (mark : Bool) : (d.setAcc core i v mark).shedKeys = d.shedKeys := rfl
@[simp] theorem Dp.setAcc_flags (d : Dp) (core i : Nat) (v : Word) (mark : Bool) : (d.setAcc core i v mark).flags = d.flags := rfl
@[simp] theorem Dp.setAcc_clips (d : Dp) (core i : Nat) (v : Word) (mark : Bool) : (d.setAcc core i v mark).clips = d.clips := rfl
@[simp] theorem Dp.setAcc_converted (d : Dp) (core i : Nat) (v : Word) (mark : Bool) : (d.setAcc core i v mark).converted = d.converted := rfl
@[simp] theorem Dp.setAcc_kvErrs (d : Dp) (core i : Nat) (v : Word) (mark : Bool) : (d.setAcc core i v mark).kvErrs = d.kvErrs := rfl
@[simp] theorem Dp.setAcc_rowPoison (d : Dp) (core i : Nat) (v : Word) (mark : Bool) : (d.setAcc core i v mark).rowPoison = d.rowPoison := rfl
@[simp] theorem Dp.setAcc_queues (d : Dp) (core i : Nat) (v : Word) (mark : Bool) : (d.setAcc core i v mark).queues = d.queues := rfl
@[simp] theorem Dp.setAcc_waits (d : Dp) (core i : Nat) (v : Word) (mark : Bool) : (d.setAcc core i v mark).waits = d.waits := rfl
@[simp] theorem Dp.setAcc_waited (d : Dp) (core i : Nat) (v : Word) (mark : Bool) : (d.setAcc core i v mark).waited = d.waited := rfl
@[simp] theorem Dp.setAcc_flights (d : Dp) (core i : Nat) (v : Word) (mark : Bool) : (d.setAcc core i v mark).flights = d.flights := rfl
@[simp] theorem Dp.setAcc_nextFlight (d : Dp) (core i : Nat) (v : Word) (mark : Bool) : (d.setAcc core i v mark).nextFlight = d.nextFlight := rfl
@[simp] theorem Dp.setAcc_unfenced (d : Dp) (core i : Nat) (v : Word) (mark : Bool) : (d.setAcc core i v mark).unfenced = d.unfenced := rfl
@[simp] theorem Dp.setAcc_inbound (d : Dp) (core i : Nat) (v : Word) (mark : Bool) : (d.setAcc core i v mark).inbound = d.inbound := rfl
@[simp] theorem Dp.setAcc_inboundNext (d : Dp) (core i : Nat) (v : Word) (mark : Bool) : (d.setAcc core i v mark).inboundNext = d.inboundNext := rfl
@[simp] theorem Dp.setAcc_badBlocks (d : Dp) (core i : Nat) (v : Word) (mark : Bool) : (d.setAcc core i v mark).badBlocks = d.badBlocks := rfl
@[simp] theorem Dp.setAcc_units (d : Dp) (core i : Nat) (v : Word) (mark : Bool) : (d.setAcc core i v mark).units = d.units := rfl
@[simp] theorem Dp.setAcc_commit (d : Dp) (core i : Nat) (v : Word) (mark : Bool) : (d.setAcc core i v mark).commit = d.commit := rfl
@[simp] theorem Dp.setAcc_wparts (d : Dp) (core i : Nat) (v : Word) (mark : Bool) : (d.setAcc core i v mark).wparts = d.wparts := rfl
@[simp] theorem Dp.setAcc_sparts (d : Dp) (core i : Nat) (v : Word) (mark : Bool) : (d.setAcc core i v mark).sparts = d.sparts := rfl
@[simp] theorem Dp.setAcc_routes (d : Dp) (core i : Nat) (v : Word) (mark : Bool) : (d.setAcc core i v mark).routes = d.routes := rfl
@[simp] theorem Dp.setAcc_gens (d : Dp) (core i : Nat) (v : Word) (mark : Bool) : (d.setAcc core i v mark).gens = d.gens := rfl
@[simp] theorem Dp.setAcc_progress (d : Dp) (core i : Nat) (v : Word) (mark : Bool) : (d.setAcc core i v mark).progress = d.progress := rfl
@[simp] theorem Dp.setAcc_drawn (d : Dp) (core i : Nat) (v : Word) (mark : Bool) : (d.setAcc core i v mark).drawn = d.drawn := rfl
@[simp] theorem Dp.draw_mem (d : Dp) (n : Nat) : (d.draw n).mem = d.mem := rfl
@[simp] theorem Dp.draw_poison (d : Dp) (n : Nat) : (d.draw n).poison = d.poison := rfl
@[simp] theorem Dp.draw_shedKeys (d : Dp) (n : Nat) : (d.draw n).shedKeys = d.shedKeys := rfl
@[simp] theorem Dp.draw_flags (d : Dp) (n : Nat) : (d.draw n).flags = d.flags := rfl
@[simp] theorem Dp.draw_clips (d : Dp) (n : Nat) : (d.draw n).clips = d.clips := rfl
@[simp] theorem Dp.draw_converted (d : Dp) (n : Nat) : (d.draw n).converted = d.converted := rfl
@[simp] theorem Dp.draw_kvErrs (d : Dp) (n : Nat) : (d.draw n).kvErrs = d.kvErrs := rfl
@[simp] theorem Dp.draw_rowPoison (d : Dp) (n : Nat) : (d.draw n).rowPoison = d.rowPoison := rfl
@[simp] theorem Dp.draw_queues (d : Dp) (n : Nat) : (d.draw n).queues = d.queues := rfl
@[simp] theorem Dp.draw_waits (d : Dp) (n : Nat) : (d.draw n).waits = d.waits := rfl
@[simp] theorem Dp.draw_waited (d : Dp) (n : Nat) : (d.draw n).waited = d.waited := rfl
@[simp] theorem Dp.draw_flights (d : Dp) (n : Nat) : (d.draw n).flights = d.flights := rfl
@[simp] theorem Dp.draw_nextFlight (d : Dp) (n : Nat) : (d.draw n).nextFlight = d.nextFlight := rfl
@[simp] theorem Dp.draw_unfenced (d : Dp) (n : Nat) : (d.draw n).unfenced = d.unfenced := rfl
@[simp] theorem Dp.draw_inbound (d : Dp) (n : Nat) : (d.draw n).inbound = d.inbound := rfl
@[simp] theorem Dp.draw_inboundNext (d : Dp) (n : Nat) : (d.draw n).inboundNext = d.inboundNext := rfl
@[simp] theorem Dp.draw_badBlocks (d : Dp) (n : Nat) : (d.draw n).badBlocks = d.badBlocks := rfl
@[simp] theorem Dp.draw_units (d : Dp) (n : Nat) : (d.draw n).units = d.units := rfl
@[simp] theorem Dp.draw_commit (d : Dp) (n : Nat) : (d.draw n).commit = d.commit := rfl
@[simp] theorem Dp.draw_wparts (d : Dp) (n : Nat) : (d.draw n).wparts = d.wparts := rfl
@[simp] theorem Dp.draw_sparts (d : Dp) (n : Nat) : (d.draw n).sparts = d.sparts := rfl
@[simp] theorem Dp.draw_routes (d : Dp) (n : Nat) : (d.draw n).routes = d.routes := rfl
@[simp] theorem Dp.draw_gens (d : Dp) (n : Nat) : (d.draw n).gens = d.gens := rfl
@[simp] theorem Dp.draw_progress (d : Dp) (n : Nat) : (d.draw n).progress = d.progress := rfl

@[simp] theorem State.onCtl_onCtl (s : State) (f g : Ctl → Ctl) : (s.onCtl f).onCtl g = s.onCtl fun c => g (f c) := rfl

end Sys2Proof.Machine
end

