-- ==== Sys2Proof/Laws/Engines.lean ====
section
/-! SUPPORT. What the shared operation of the engine instructions can do. -/

namespace Sys2Proof.Machine

open Sys2Proof

/-- An engine instruction that answers a next state has changed the engines alone. -/
theorem runEngine_next {s t : State} {o : EngOp} {needs : List Need} {formats inside : Bool} {dests : List (Nat × Nat)}
    {work : List (EnergyClass × Nat)} {f : Nat → List Loc → Bool → Dp → Dp} (h : runEngine s o needs formats inside dests work f = .next t) : ∃ d, t = { s with dp := d } := by
  unfold runEngine at h
  split at h
  · cases h; exact ⟨s.dp, rfl⟩
  · dsimp only at h
    split at h
    · cases h; exact ⟨_, rfl⟩
    · split at h
      · cases h
      · split at h
        · cases h
        · cases h; exact ⟨_, rfl⟩

/-- An engine instruction outside its cluster's segment, or before its scheduled cycle, changes nothing (R19, R40). -/
theorem runEngine_held {s : State} {o : EngOp} {needs : List Need} {formats inside : Bool} {dests : List (Nat × Nat)}
    {work : List (EnergyClass × Nat)} {f : Nat → List Loc → Bool → Dp → Dp} (h : s.ctl.issues o.core.yard o.core.cluster.val o.at0 = false) :
    runEngine s o needs formats inside dests work f = .next s := by
  simp [runEngine, h]

/-- No cluster's segment runs on a frozen device (R450). -/
theorem issues_halted {c : Ctl} (h : c.hub.halted = true) (k : Yard) (l : Nat) (w : When) : c.issues k l w = false := by
  simp [Ctl.issues, Ctl.segment, h]

/-- The engines as an instruction finds them once its operands are there. -/
def Dp.started (d : Dp) (core : Nat) (needs : List Need) : Dp := needs.foldl (fun d x => d.setWait core x.who Wait.none) d

/-- Clearing the waits of an instruction's consumers changes the waits alone. -/
theorem started_eq (needs : List Need) (d : Dp) (core : Nat) : ∃ w, d.started core needs = { d with waits := w } := by
  induction needs generalizing d with
  | nil => exact ⟨d.waits, rfl⟩
  | cons a t ih =>
    obtain ⟨w, h⟩ := ih (d.setWait core a.who Wait.none)
    exact ⟨w, h⟩

/-- What an instruction leaves once its operands' tokens are freed and it is counted. -/
def Dp.ended (d : Dp) (core : Nat) (needs : List Need) (k : Yard) (l : Cluster) : Dp :=
  (needs.foldl (fun d x => d.releaseToken core x.place) d).retireInstr k l

/-- Freeing a token changes the hardware queues alone. -/
theorem releaseToken_eq (d : Dp) (core : Nat) (x : Place) : ∃ q, d.releaseToken core x = { d with queues := q } := by
  unfold Dp.releaseToken
  split
  · split
    · exact ⟨_, rfl⟩
    · exact ⟨d.queues, rfl⟩
  · exact ⟨d.queues, rfl⟩

/-- Freeing the tokens of all operands changes the hardware queues alone. -/
theorem releaseAll_eq (needs : List Need) (d : Dp) (core : Nat) :
    ∃ q, needs.foldl (fun d x => d.releaseToken core x.place) d = { d with queues := q } := by
  induction needs generalizing d with
  | nil => exact ⟨d.queues, rfl⟩
  | cons a t ih =>
    obtain ⟨q, hq⟩ := releaseToken_eq d core a.place
    obtain ⟨q2, h2⟩ := ih (d.releaseToken core a.place)
    refine ⟨q2, ?_⟩
    simp only [List.foldl_cons]
    rw [h2, hq]

/-- The end of an instruction changes the hardware queues and the progress counter alone. -/
theorem ended_eq (d : Dp) (core : Nat) (needs : List Need) (k : Yard) (l : Cluster) :
    ∃ q p, d.ended core needs k l = { d with queues := q, progress := p } := by
  obtain ⟨q, hq⟩ := releaseAll_eq needs d core
  refine ⟨q, (d.ended core needs k l).progress, ?_⟩
  unfold Dp.ended
  rw [hq]
  rfl

/-- The operands of a ready instruction, place by place. -/
theorem ready_places {xs : List (Need × SrcAt)} {ls : List Loc}
    (h : List.Forall₂ (fun a l => (∃ mark, a.2 = SrcAt.place l mark) ∧ a.1.fits l = true) xs ls) :
    (xs.findSome? fun a => (a.2.wait?).map fun w => (a.1.who, w)) = none ∧ (xs.any fun a => !a.1.fits a.2.loc) = false ∧
      xs.map (fun a => a.2.loc) = ls := by
  induction h with
  | nil => simp
  | cons hx _ ih =>
    obtain ⟨⟨mark, hm⟩, hf⟩ := hx
    obtain ⟨i1, i2, i3⟩ := ih
    simp only [List.findSome?_cons, List.any_cons, List.map_cons, hm, SrcAt.wait?, SrcAt.loc, hf, Option.map_none, Bool.not_true,
      Bool.false_or]
    exact ⟨i1, i2, congrArg (List.cons _) i3⟩

/-- An instruction's needs and their places stand one for one. -/
theorem needsAt_length (d : Dp) (c : Ctl) (o : EngOp) (ns : List Need) : (d.needsAt c o ns).length = ns.length := by
  simp [Dp.needsAt]

/-- A poison mark does not depend on what a consumer waited for. -/
theorem started_needPoison (d : Dp) (core : Nat) (ns : List Need) (x : Need) (a : SrcAt) :
    (d.started core ns).needPoison core x a = d.needPoison core x a := by
  obtain ⟨w, h⟩ := started_eq ns d core
  rw [h]; rfl

/-- A ready engine instruction of good formats whose further operands lie inside their stores completes: `f` runs on the places of its
operands with their poison, its units are counted for its stall, their tokens are freed, and it is counted. -/
theorem runEngine_ready {s : State} {o : EngOp} {needs : List Need} {ls : List Loc} (dests : List (Nat × Nat))
    (work : List (EnergyClass × Nat)) (f : Nat → List Loc → Bool → Dp → Dp) (h : Ready s o needs ls) :
    runEngine s o needs true true dests work f =
      .next (s.withDp (((f (s.ctl.core o.core) ls (s.marked o needs) (s.dp.started (s.ctl.core o.core) needs)).countUnits
        o.core.yard o.core.cluster.val o.tag.stall.toNat work).ended (s.ctl.core o.core) needs o.core.yard o.core.cluster)) := by
  obtain ⟨hi, hs, hp⟩ := h
  obtain ⟨p1, p2, p3⟩ := ready_places hp
  have hz : (needs.zip (s.dp.needsAt s.ctl o needs)).map (fun a => a.2.loc) = (s.dp.needsAt s.ctl o needs).map (·.loc) := by
    have := List.map_snd_zip (l₁ := needs) (l₂ := s.dp.needsAt s.ctl o needs) (by rw [needsAt_length])
    conv_rhs => rw [← this]
    simp [Function.comp_def]
  rw [hz] at p3
  unfold runEngine
  simp only [hi, Bool.not_true, Bool.false_eq_true, ↓reduceIte, p1, p2, hs, Bool.or_self, p3]
  have hm : (fun a : Need × SrcAt => (s.dp.started (s.ctl.core o.core) needs).needPoison (s.ctl.core o.core) a.1 a.2) =
      fun a => s.dp.needPoison (s.ctl.core o.core) a.1 a.2 := by
    funext a; exact started_needPoison _ _ _ _ _
  show Host.Outcome.next _ = _
  simp only [State.withDp, State.marked, Dp.ended]
  rw [← hm]
  rfl

/-- With no operand stream, an instruction that issues on a sound cluster is ready. -/
theorem ready_nil {s : State} {o : EngOp} (hi : s.ctl.issues o.core.yard o.core.cluster.val o.at0 = true)
    (hs : (s.ctl.seq o.core.yard o.core.cluster.val).faulty = false) : Ready s o [] [] := ⟨hi, hs, .nil⟩

/-- An operand that stands in core store is at its place. -/
@[simp] theorem needAt_core (d : Dp) (c : Ctl) (o : EngOp) (skip off : Nat) (rel : Bool) (who : Consumer) (runs : List (Nat × Nat)) :
    d.needAt c o skip ⟨⟨off, none, rel⟩, who, runs⟩ = .place ⟨.core, off⟩ false := rfl

end Sys2Proof.Machine
end

