-- ==== Sys2Proof/Laws/Events.lean ====
section
/-! SUPPORT. What raising an event can change: its own register, the observation block, a pending vector, and for PWR_EVENT the in-band
interrupts. -/

namespace Sys2Proof.Machine

open Sys2Proof

theorem sameBut_dbg (a : Ctl) (d : Dbg) : SameBut a { a with dbg := d } :=
  ⟨d, fun x => x.irqPending, by simp⟩
theorem SameBut.refl (a : Ctl) : SameBut a a := sameBut_dbg a a.dbg
theorem SameBut.trans {a b c : Ctl} (h : SameBut a b) (k : SameBut b c) : SameBut a c := by
  obtain ⟨d, f, rfl⟩ := h; obtain ⟨d2, f2, rfl⟩ := k
  exact ⟨d2, fun x => f2 { x with irqPending := f x }, by simp [Function.comp_def]⟩

theorem sameBut_count (c : Ctl) (i n : Nat) : SameBut c (c.count i n) := sameBut_dbg c _
theorem sameBut_onDbg (c : Ctl) (g : Dbg → Dbg) : SameBut c (c.onDbg g) := sameBut_dbg c _
theorem sameBut_pend (c : Ctl) (n : BitVec 8) (v : Nat) : SameBut c (c.pendVector n v) :=
  ⟨c.dbg, fun x => if x.num = n then x.irqPending.add v else x.irqPending, by
    simp only [Ctl.pendVector, Ctl.onFn]
    congr 1
    apply List.map_congr_left
    intro x _
    split <;> rfl⟩
theorem sameBut_snap (c : Ctl) : SameBut c c.snapDevice := sameBut_dbg c _

theorem sameBut_journal (c : Ctl) (cfg : Cfg) (typ source cycle data0 : Nat) (body : List Byte) :
    SameBut c (c.journal cfg typ source cycle data0 body) := by
  unfold Ctl.journal
  split
  · exact .refl c
  · split
    · exact .refl c
    · dsimp only
      repeat' split
      all_goals exact sameBut_dbg c _

theorem sameBut_trigger (c : Ctl) (cfg : Cfg) (cause : Nat) : SameBut c (c.trigger cfg cause) := by
  unfold Ctl.trigger
  split
  · exact .refl c
  · split
    · exact sameBut_count c 6 1
    · exact sameBut_dbg c _

theorem sameBut_announce (c : Ctl) (cfg : Cfg) (off : Nat) (e : Word) (was bits : BitVec 16) :
    SameBut c (c.announce cfg off e was bits) := by
  unfold Ctl.announce
  have h1 := sameBut_count c 0 1
  have h2 : SameBut (c.count 0 1) (match (c.count 0 1).fn? (c.count 0 1).mgmt with
      | some f => if f.deviceEn then (c.count 0 1).pendVector f.num f.eventVector else c.count 0 1
      | none => c.count 0 1) := by
    split
    · split
      · exact sameBut_pend _ _ _
      · exact .refl _
    · exact .refl _
  have h3 := fun x : Ctl => sameBut_journal x cfg 5 0x8FFF 0 off (Bits.toLe e.toNat 4 ++ List.replicate 12 0#8)
  dsimp only
  split
  · exact ((h1.trans h2).trans (h3 _)).trans (sameBut_trigger _ cfg 4)
  · exact (h1.trans h2).trans (h3 _)

/-- Raising an event outside PWR_EVENT sets its register and changes else only what `SameBut` leaves out. -/
theorem raise_sameBut (c : Ctl) (cfg : Cfg) (r : EvReg) (bits : BitVec 16) (h : r ≠ .pwr) :
    SameBut (c.setEv r ((c.ev r).raise bits)) (c.raise cfg r bits) := by
  unfold Ctl.raise
  simp only [h, ↓reduceIte]
  exact sameBut_announce _ _ _ _ _ _

/-- Raising PWR_EVENT also queues the in-band interrupt. -/
theorem raise_pwr (c : Ctl) (cfg : Cfg) (bits : BitVec 16) :
    ∃ x, SameBut (c.setEv .pwr ((c.ev .pwr).raise bits)) x ∧
      c.raise cfg .pwr bits = x.onBus fun b => { b with ibis := BitVec.ofNat 8 ((c.ev .pwr).raise bits).bits.toNat :: b.ibis } :=
  ⟨_, sameBut_announce _ cfg EvReg.pwr.off _ _ bits, rfl⟩

theorem SameBut.sec {a b : Ctl} (h : SameBut a b) : b.sec = a.sec := by obtain ⟨d, f, rfl⟩ := h; rfl
theorem SameBut.bus {a b : Ctl} (h : SameBut a b) : b.bus = a.bus := by obtain ⟨d, f, rfl⟩ := h; rfl
theorem SameBut.cof {a b : Ctl} (h : SameBut a b) : b.cof = a.cof := by obtain ⟨d, f, rfl⟩ := h; rfl
theorem SameBut.hub {a b : Ctl} (h : SameBut a b) : b.hub = a.hub := by obtain ⟨d, f, rfl⟩ := h; rfl
theorem SameBut.fe {a b : Ctl} (h : SameBut a b) : b.fe = a.fe := by obtain ⟨d, f, rfl⟩ := h; rfl
theorem SameBut.objs {a b : Ctl} (h : SameBut a b) : b.objs = a.objs := by obtain ⟨d, f, rfl⟩ := h; rfl
theorem SameBut.ldg {a b : Ctl} (h : SameBut a b) : b.ldg = a.ldg := by obtain ⟨d, f, rfl⟩ := h; rfl
theorem SameBut.pwr {a b : Ctl} (h : SameBut a b) : b.pwr = a.pwr := by obtain ⟨d, f, rfl⟩ := h; rfl
theorem SameBut.prs {a b : Ctl} (h : SameBut a b) : b.prs = a.prs := by obtain ⟨d, f, rfl⟩ := h; rfl
theorem SameBut.cxl {a b : Ctl} (h : SameBut a b) : b.cxl = a.cxl := by obtain ⟨d, f, rfl⟩ := h; rfl
/-- The functions keep everything but their pending vectors. -/
theorem SameBut.fns {a b : Ctl} (h : SameBut a b) : ∃ p : Fn → NatSet, b.fns = a.fns.map fun x => { x with irqPending := p x } := by
  obtain ⟨d, f, rfl⟩ := h; exact ⟨f, rfl⟩
theorem SameBut.yards {a b : Ctl} (h : SameBut a b) : b.yards = a.yards := by obtain ⟨d, f, rfl⟩ := h; rfl

end Sys2Proof.Machine
end

