-- ==== Sys2Proof/Laws/Packets.lean ====
section
/-! SUPPORT. What fetching a packet, running one and finishing one can do. -/

namespace Sys2Proof.Machine

open Sys2Proof

/-- A function found under a number has it. -/
theorem Ctl.fn?_num {c : Ctl} {n : BitVec 8} {f : Fn} (h : c.fn? n = some f) : f.num = n := by
  have := List.find?_some h
  simpa using this

/-- Finding in a list after a change to the members of one number that keeps the number. -/
theorem find_num_map (l : List Fn) (n : BitVec 8) (g : Fn → Fn) (hg : ∀ x, (g x).num = x.num) :
    (l.map fun x => if x.num = n then g x else x).find? (fun x => decide (x.num = n)) = (l.find? fun x => decide (x.num = n)).map g := by
  induction l with
  | nil => rfl
  | cons a t ih =>
    by_cases ha : a.num = n
    · simp [ha, hg]
    · simp [ha, ih]

/-- Finding a function after a change to the functions of its number that keeps the number. -/
theorem Ctl.fn?_onFn {c : Ctl} {n : BitVec 8} {f : Fn} (h : c.fn? n = some f) (g : Fn → Fn) (hg : ∀ x, (g x).num = x.num) :
    (c.onFn n g).fn? n = some (g f) := by
  simp only [Ctl.fn?, Ctl.onFn] at *
  rw [find_num_map _ _ _ hg, h]; rfl

/-- A function after one of its packets is fetched. -/
def Fn.fetchedOne (f : Fn) (order : Nat) (q : Fin 4) : Fn :=
  { f with fetched := f.fetched + 1, opens := f.opens ++ [(order, q, false)]
           queues := f.queues.mapIdx fun i y => if i = q.val then { y with fetch := (y.fetch + 1) % ringSize y.sqLog } else y }

/-- Fetching changes the translations, the order of fetching and the function's own fetch state, and nothing else. -/
theorem Ctl.fetch_eq (c : Ctl) (n : BitVec 8) (q : Fin 4) :
    c.fetch n q = { c with
      fns := c.fns.map fun x => if x.num = n then x.fetchedOne c.objs.orders q else x
      objs := { c.objs with orders := c.objs.orders + 1 }
      xlats := (c.fetch n q).xlats } := by
  have ht : ∀ (c : Ctl) (p : Option (BitVec 20)) (a l : Nat), c.translate n p a l = { c with xlats := (c.translate n p a l).xlats } := by
    intro c p a l
    unfold Ctl.translate
    split <;> [split <;> rfl; rfl]
  simp only [Ctl.fetch]
  rw [ht]
  simp only [Ctl.onObjs, Ctl.onFn, Ctl.onQueue, List.map_map]
  congr 1
  apply List.map_congr_left
  intro x _
  by_cases h : x.num = n <;> simp [h, Fn.fetchedOne]

/-- The function after the fetch. -/
theorem Ctl.fetch_fn? {c : Ctl} {n : BitVec 8} {f : Fn} (q : Fin 4) (h : c.fn? n = some f) :
    (c.fetch n q).fn? n = some (f.fetchedOne c.objs.orders q) := by
  rw [Ctl.fetch_eq]
  exact Ctl.fn?_onFn h (fun x => x.fetchedOne c.objs.orders q) (fun _ => rfl)

@[simp] theorem Ctl.fetch_hub (c : Ctl) (n : BitVec 8) (q : Fin 4) : (c.fetch n q).hub = c.hub := by rw [Ctl.fetch_eq]
@[simp] theorem Ctl.fetch_fe (c : Ctl) (n : BitVec 8) (q : Fin 4) : (c.fetch n q).fe = c.fe := by rw [Ctl.fetch_eq]
@[simp] theorem Ctl.fetch_ldg (c : Ctl) (n : BitVec 8) (q : Fin 4) : (c.fetch n q).ldg = c.ldg := by rw [Ctl.fetch_eq]
@[simp] theorem Ctl.fetch_sec (c : Ctl) (n : BitVec 8) (q : Fin 4) : (c.fetch n q).sec = c.sec := by rw [Ctl.fetch_eq]
@[simp] theorem Ctl.fetch_cof (c : Ctl) (n : BitVec 8) (q : Fin 4) : (c.fetch n q).cof = c.cof := by rw [Ctl.fetch_eq]
@[simp] theorem Ctl.fetch_bus (c : Ctl) (n : BitVec 8) (q : Fin 4) : (c.fetch n q).bus = c.bus := by rw [Ctl.fetch_eq]
@[simp] theorem Ctl.fetch_prs (c : Ctl) (n : BitVec 8) (q : Fin 4) : (c.fetch n q).prs = c.prs := by rw [Ctl.fetch_eq]
@[simp] theorem Ctl.fetch_yards (c : Ctl) (n : BitVec 8) (q : Fin 4) : (c.fetch n q).yards = c.yards := by rw [Ctl.fetch_eq]
@[simp] theorem Ctl.fetch_objs (c : Ctl) (n : BitVec 8) (q : Fin 4) :
    (c.fetch n q).objs = { c.objs with orders := c.objs.orders + 1 } := by rw [Ctl.fetch_eq]

@[simp] theorem Fn.fetchedOne_num (f : Fn) (o : Nat) (q : Fin 4) : (f.fetchedOne o q).num = f.num := rfl
@[simp] theorem Fn.fetchedOne_handles (f : Fn) (o : Nat) (q : Fin 4) : (f.fetchedOne o q).handles = f.handles := rfl
@[simp] theorem Fn.fetchedOne_regions (f : Fn) (o : Nat) (q : Fin 4) : (f.fetchedOne o q).regions = f.regions := rfl
@[simp] theorem Fn.fetchedOne_object (f : Fn) (o : Nat) (q : Fin 4) (k : ObjKind) (h : Handle) :
    (f.fetchedOne o q).object k h = f.object k h := rfl
@[simp] theorem Fn.fetchedOne_region (f : Fn) (o : Nat) (q : Fin 4) (h : Handle) : (f.fetchedOne o q).region h = f.region h := rfl

/-- A packet that the device fetches and whose checks pass has its effect. -/
theorem Ctl.packet_runs {c : Ctl} {p : Pkt} {right : Right} {ns : Bool} {checks : Fn → List (Bool × BitVec 16)}
    {effect : Ctl → Fn → Cmd → Ctl} {f g : Fn} (hf : c.fn? p.fn = some f) (hq : c.fetchable f p.q = true) (hr : p.rsvd = false)
    (hh : c.holds f right = true) (hs : ns = true → p.subject = 0#32) (hg : (c.fetch p.fn p.q).fn? p.fn = some g)
    (hc : firstFail (checks f) = none) :
    c.packet p right ns checks effect = effect (c.fetch p.fn p.q) g ⟨p.fn, p.q, p.tag, p.irq, c.objs.orders⟩ := by
  have hsub : (!p.rsvd && (!ns || Decidable.decide (p.subject = 0#32))) = true := by
    cases ns <;> simp_all
  simp only [firstFail, Option.map_eq_none_iff] at hc
  simp [Ctl.packet, hf, hq, firstFail, hh, hsub, hc, hg, List.find?]

/-- A packet whose right the function does not hold completes with PERMISSION. -/
theorem Ctl.packet_permission {c : Ctl} {p : Pkt} {right : Right} {ns : Bool} {checks : Fn → List (Bool × BitVec 16)}
    {effect : Ctl → Fn → Cmd → Ctl} {f : Fn} (hf : c.fn? p.fn = some f) (hq : c.fetchable f p.q = true)
    (hh : c.holds f right = false) :
    c.packet p right ns checks effect = (c.fetch p.fn p.q).finish ⟨p.fn, p.q, p.tag, p.irq, c.objs.orders⟩ Status.permission 0#32 0 := by
  simp [Ctl.packet, hf, hq, firstFail, hh]

/-- A packet with a reserved bit set completes with BAD_PARAMETER. -/
theorem Ctl.packet_reserved {c : Ctl} {p : Pkt} {right : Right} {ns : Bool} {checks : Fn → List (Bool × BitVec 16)}
    {effect : Ctl → Fn → Cmd → Ctl} {f : Fn} (hf : c.fn? p.fn = some f) (hq : c.fetchable f p.q = true)
    (hh : c.holds f right = true) (hr : p.rsvd = true) :
    c.packet p right ns checks effect = (c.fetch p.fn p.q).finish ⟨p.fn, p.q, p.tag, p.irq, c.objs.orders⟩ Status.badParameter 0#32 0 := by
  simp [Ctl.packet, hf, hq, firstFail, hh, hr, List.find?]

/-- A packet that the device may not fetch now changes nothing. -/
theorem Ctl.packet_unfetched {c : Ctl} {p : Pkt} {right : Right} {ns : Bool} {checks : Fn → List (Bool × BitVec 16)}
    {effect : Ctl → Fn → Cmd → Ctl} (h : ∀ f, c.fn? p.fn = some f → c.fetchable f p.q = false) :
    c.packet p right ns checks effect = c := by
  unfold Ctl.packet
  split
  · rfl
  · next f hf => simp [h f hf]

set_option maxHeartbeats 2000000 in
/-- Every command of a queue runs its packet: with the checks and the effect of its opcode. -/
theorem exec_packet {c : Instr} {p : Pkt} {r : Right} (s : State) (h : packetOf c = some (p, r)) :
    ∃ ns checks effect, exec c s = .next (s.withCtl (s.ctl.packet p r ns checks effect)) := by
  cases c <;> cases h <;>
    simp only [exec, State.withCtl, execSessionOpen, Ctl.sessionOpen, execSessionAppend, Ctl.sessionAppend, execSessionGenerate,
      Ctl.sessionGenerate, execSessionFork, Ctl.sessionFork, execSessionClose, Ctl.sessionClose, execPrefixPin, execPrefixUnpin,
      Ctl.prefixPins, execGraphStore, Ctl.graphStore, execGraphPatch, Ctl.graphPatch, execGraphLaunch, Ctl.graphLaunch,
      execGraphDrop, Ctl.graphDrop, execJobSuspend, execJobCancel, Ctl.jobOp, execJobResume, Ctl.jobResume, execJobQuery, Ctl.jobQuery,
      execImageInstall, Ctl.imageInstall, execImageActivate, Ctl.imageActivate, execImageRetire, Ctl.imageRetire, execTuneOpen,
      Ctl.tuneOpen, execTuneStep, Ctl.tuneStep, execTuneSave, Ctl.tuneSave, execTuneClose, Ctl.tuneClose, execSelftest, Ctl.selftest,
      execMarginReplan, Ctl.marginReplan, execMarkBegin, execMarkEnd, Ctl.markCmd, execCounterSnapshot, Ctl.counterSnapshot, execFence,
      Ctl.fenceCmd, execFnCreate, Ctl.fnCreate, execFnDestroy, Ctl.fnDestroy, execFnSetShare, Ctl.fnSetShare, execPlanLoad,
      Ctl.planLoad, execPlanSelect, Ctl.planSelect, execFolioGet, Ctl.folioGet, execLedgerConfig, Ctl.ledgerConfig] <;>
    exact ⟨_, _, _, rfl⟩

end Sys2Proof.Machine
end

