-- ==== Sys2Proof/Laws/Signing.lean ====
section
/-! SUPPORT. Lengths of hashes and roots, and an HSS key under which a message's signature verifies (R15). -/

namespace Sys2Proof.Machine

open Sys2Proof

theorem toLe_length (x n : Nat) : (Bits.toLe x n).length = n := by
  induction n generalizing x with
  | zero => rfl
  | succ n ih => simp [Bits.toLe, ih]

theorem toBe_length (x n : Nat) : (Bits.toBe x n).length = n := by simp [Bits.toBe, toLe_length]

theorem sha256_length (m : List Byte) : (sha256 m).length = 32 := toBe_length _ _

theorem lmsClimb_length (ident sig : List Byte) : ∀ (n node : Nat) (t : List Byte), t.length = 32 → (lmsClimb ident sig n node t).length = 32
  | 0, _, _, h => h
  | n + 1, _, _, _ => lmsClimb_length ident sig n _ _ (sha256_length _)

theorem lmsCandidate_length (ident msg sig : List Byte) : (lmsCandidate ident msg sig).length = 32 :=
  lmsClimb_length _ _ _ _ _ (sha256_length _)

/-- A part of a record stands where the parts before it end. -/
theorem slice_mid (a b c : List Byte) : slice (a ++ (b ++ c)) a.length b.length = b := by simp [slice]

/-! A signature whose chain values and siblings are zeros, and the keys of the trees that it is one under. -/

/-- An LMS signature with leaf 0, zeros for its chain values and for the siblings of its leaf. -/
def zeroLms : List Byte := Bits.toBe 0 4 ++ Bits.toBe otsType 4 ++ List.replicate 1120 0#8 ++ Bits.toBe lmsType 4 ++ List.replicate 640 0#8

/-- What stands before the root in the key of a tree whose identifier is zeros. -/
def zeroHead : List Byte := Bits.toBe lmsType 4 ++ Bits.toBe otsType 4 ++ List.replicate 16 0#8

/-- The LMS key under which that signature of a message verifies. -/
def zeroLmsKey (msg : List Byte) : List Byte := zeroHead ++ (lmsCandidate (List.replicate 16 0#8) msg zeroLms ++ [])

/-- An HSS signature of a message, and the key under which it verifies. -/
def zeroHss (msg : List Byte) : List Byte := Bits.toBe 1 4 ++ (zeroLms ++ (zeroLmsKey msg ++ zeroLms))

/-- See `zeroHss`. -/
def zeroHssKey (msg : List Byte) : List Byte := Bits.toBe 2 4 ++ zeroLmsKey (zeroLmsKey msg)

theorem zeroLms_length : zeroLms.length = 1772 := by decide +kernel

theorem zeroHead_length : zeroHead.length = 24 := by decide +kernel

theorem zeroLmsKey_length (msg : List Byte) : (zeroLmsKey msg).length = 56 := by simp [zeroLmsKey, lmsCandidate_length, zeroHead_length]

theorem zeroLmsKey_ok (msg : List Byte) : lmsKeyOk (zeroLmsKey msg) = true := by
  have a : beAt (zeroLmsKey msg) 0 4 = lmsType := rfl
  have b : beAt (zeroLmsKey msg) 4 4 = otsType := rfl
  simp [lmsKeyOk, zeroLmsKey_length, a, b]

theorem zeroLms_verifies (msg : List Byte) : lmsVerifies (zeroLmsKey msg) msg zeroLms = true := by
  have a : slice (zeroLmsKey msg) 8 16 = List.replicate 16 0#8 := rfl
  have b : slice (zeroLmsKey msg) 24 32 = lmsCandidate (List.replicate 16 0#8) msg zeroLms := by
    have := slice_mid zeroHead (lmsCandidate (List.replicate 16 0#8) msg zeroLms) []
    rwa [lmsCandidate_length, zeroHead_length] at this
  have c : (zeroLms.length = 1772 && beAt zeroLms 4 4 = otsType && beAt zeroLms 1128 4 = lmsType && beAt zeroLms 0 4 < 2 ^ lmsHeight) = true := by
    decide +kernel
  simp only [Bool.and_eq_true, decide_eq_true_eq] at c
  simp [lmsVerifies, zeroLmsKey_ok, a, b, c]

/-- Every message has an HSS key and a signature that verifies under it. -/
theorem zeroHss_verifies (msg : List Byte) : hssVerifies (zeroHssKey msg) msg (zeroHss msg) = true := by
  have k : (zeroHssKey msg).drop 4 = zeroLmsKey (zeroLmsKey msg) := rfl
  have a : slice (zeroHss msg) 4 1772 = zeroLms := by
    have := slice_mid (Bits.toBe 1 4) zeroLms (zeroLmsKey msg ++ zeroLms)
    rwa [toBe_length, zeroLms_length] at this
  have b : slice (zeroHss msg) 1776 56 = zeroLmsKey msg := by
    have := slice_mid (Bits.toBe 1 4 ++ zeroLms) (zeroLmsKey msg) zeroLms
    rwa [List.length_append, toBe_length, zeroLms_length, zeroLmsKey_length, List.append_assoc] at this
  have c : (zeroHss msg).drop 1832 = zeroLms := by
    have e : zeroHss msg = (Bits.toBe 1 4 ++ (zeroLms ++ zeroLmsKey msg)) ++ zeroLms := by simp [zeroHss]
    rw [e]
    exact List.drop_left' (by simp [toBe_length, zeroLms_length, zeroLmsKey_length])
  have d : hssKeyOk (zeroHssKey msg) = true := by
    have e : beAt (zeroHssKey msg) 0 4 = 2 := rfl
    have l : (zeroHssKey msg).length = 60 := by simp [zeroHssKey, toBe_length, zeroLmsKey_length]
    simp [hssKeyOk, k, e, l, zeroLmsKey_ok]
  have f : beAt (zeroHss msg) 0 4 = 1 := rfl
  have g : (zeroHss msg).length = 3604 := by simp [zeroHss, toBe_length, zeroLms_length, zeroLmsKey_length]
  simp [hssVerifies, d, k, a, b, c, f, g, zeroLms_verifies]

end Sys2Proof.Machine
end

