-- ==== Sys2Proof/Laws/Sparse.lean ====
section
/-! SUPPORT. The laws of sparse tables and of memory: reading after writing, and the canonical form kept by every write. -/

namespace Sys2Proof.Machine

namespace Sparse

variable {α : Type} [DecidableEq α]

/-- Reading the key just written. -/
@[simp] theorem get_set_same (d : α) (l : List (Nat × α)) (k : Nat) (v : α) (h : wf d l = true) : get d (set d l k v) k = v := by
  suffices H : ∀ lo, wfFrom d lo l = true → get d (set d l k v) k = v from H none h
  clear h
  induction l with
  | nil => intro lo _; by_cases hv : v = d <;> simp [set, get, hv]
  | cons p t ih =>
    obtain ⟨j, w⟩ := p
    intro lo h
    simp only [wfFrom, Bool.and_eq_true] at h
    by_cases h1 : j < k
    · simp [set, get, h1, ih (some j) h.2]
    · by_cases h2 : j = k
      · subst h2
        by_cases hv : v = d
        · subst hv
          have : get v t j = v := by
            cases t with
            | nil => rfl
            | cons q u =>
              obtain ⟨i, x⟩ := q
              have hi : j < i := by
                have := h.2
                simp only [wfFrom, Bool.and_eq_true, decide_eq_true_eq] at this
                exact this.1.1
              have e1 : ¬ i < j := by omega
              have e2 : ¬ i = j := by omega
              simp [get, e1, e2]
          simp [set, this]
        · simp [set, get, hv]
      · by_cases hv : v = d
        · simp [set, get, h1, h2, hv]
        · simp [set, get, h1, h2, hv]

/-- Reading another key than the one written. -/
theorem get_set_other (d : α) (l : List (Nat × α)) (k i : Nat) (v : α) (h : wf d l = true) (hi : i ≠ k) :
    get d (set d l k v) i = get d l i := by
  suffices H : ∀ lo, wfFrom d lo l = true → get d (set d l k v) i = get d l i from H none h
  clear h
  induction l with
  | nil =>
    intro lo _
    by_cases hv : v = d
    · simp [set, hv]
    · by_cases h1 : k < i
      · simp [set, get, hv, h1]
      · have : ¬ k = i := fun e => hi e.symm
        simp [set, get, hv, h1, this]
  | cons p t ih =>
    obtain ⟨j, w⟩ := p
    intro lo h
    simp only [wfFrom, Bool.and_eq_true] at h
    by_cases h1 : j < k
    · by_cases h3 : j < i
      · simp [set, get, h1, h3, ih (some j) h.2]
      · simp [set, get, h1, h3]
    · by_cases h2 : j = k
      · subst h2
        have hji : ¬ j = i := fun e => hi e.symm
        by_cases hv : v = d
        · by_cases h3 : j < i
          · simp [set, get, hv, h3]
          · have : get d t i = d := by
              cases t with
              | nil => rfl
              | cons q u =>
                obtain ⟨a, x⟩ := q
                have ha : j < a := by
                  have := h.2
                  simp only [wfFrom, Bool.and_eq_true, decide_eq_true_eq] at this
                  exact this.1.1
                have e1 : ¬ a < i := by omega
                have e2 : ¬ a = i := by omega
                simp [get, e1, e2]
            simp [set, get, hv, h3, hji, this]
        · simp [set, get, hv, hji]
      · have hk : k < j := by omega
        by_cases hv : v = d
        · simp [set, h1, h2, hv]
        · by_cases h3 : k < i
          · simp [set, get, h1, h2, hv, h3]
          · have e1 : ¬ k = i := fun e => hi e.symm
            have e2 : ¬ j < i := by omega
            have e3 : ¬ j = i := by omega
            simp [set, get, h1, h2, hv, h3, e1, e2, e3]

/-- A write keeps the canonical form above a bound. -/
theorem wfFrom_set (d : α) (l : List (Nat × α)) (k : Nat) (v : α) (lo : Option Nat) (h : wfFrom d lo l = true)
    (hk : ∀ b, lo = some b → b < k) : wfFrom d lo (set d l k v) = true := by
  induction l generalizing lo with
  | nil =>
    by_cases hv : v = d
    · simp [set, hv, wfFrom]
    · cases lo with
      | none => simp [set, hv, wfFrom]
      | some b => simp [set, hv, wfFrom, hk b rfl]
  | cons p t ih =>
    obtain ⟨j, w⟩ := p
    simp only [wfFrom, Bool.and_eq_true] at h
    by_cases h1 : j < k
    · simp only [set, h1, if_true, wfFrom, Bool.and_eq_true]
      exact ⟨h.1, ih (some j) h.2 (fun b e => by cases e; exact h1)⟩
    · by_cases h2 : j = k
      · subst h2
        by_cases hv : v = d
        · simp only [set, hv, Nat.lt_irrefl, if_true, if_false]
          cases t with
          | nil => rfl
          | cons q u =>
            obtain ⟨a, x⟩ := q
            have h2 := h.2
            simp only [wfFrom, Bool.and_eq_true, decide_eq_true_eq] at h2 ⊢
            refine ⟨⟨?_, h2.1.2⟩, h2.2⟩
            cases lo with
            | none => rfl
            | some b => have := hk b rfl; have := h2.1.1; simp only [decide_eq_true_eq]; omega
        · simp only [set, hv, Nat.lt_irrefl, if_true, if_false, wfFrom, Bool.and_eq_true]
          refine ⟨⟨h.1.1, by simp [hv]⟩, h.2⟩
      · have hkj : k < j := by omega
        by_cases hv : v = d
        · simp only [set, h1, h2, hv, if_true, if_false, wfFrom, Bool.and_eq_true]
          exact h
        · simp only [set, h1, h2, hv, if_false, wfFrom, Bool.and_eq_true]
          refine ⟨⟨?_, by simp [hv]⟩, ⟨by simp [hkj], h.1.2⟩, h.2⟩
          cases lo with
          | none => rfl
          | some b => simp [hk b rfl]

/-- A write keeps the canonical form. -/
theorem wf_set (d : α) (l : List (Nat × α)) (k : Nat) (v : α) (h : wf d l = true) : wf d (set d l k v) = true :=
  wfFrom_set d l k v none h (fun _ e => by cases e)

/-- The entries of a canonical table above a bound lie above it. -/
theorem wfFrom_above {d : α} {l : List (Nat × α)} {b : Nat} (h : wfFrom d (some b) l = true) : ∀ p ∈ l, b < p.1 := by
  induction l generalizing b with
  | nil => simp
  | cons a t ih =>
    simp only [wfFrom, Bool.and_eq_true, decide_eq_true_eq] at h
    intro p hp
    rcases List.mem_cons.1 hp with rfl | hp
    · exact h.1.1
    · exact Nat.lt_trans h.1.1 (ih h.2 p hp)

/-- A canonical table above a bound is canonical above every lower one, and above none. -/
theorem wfFrom_lower {d : α} {l : List (Nat × α)} {b : Nat} {lo : Option Nat} (h : wfFrom d (some b) l = true)
    (hl : ∀ a, lo = some a → a ≤ b) : wfFrom d lo l = true := by
  cases l with
  | nil => rfl
  | cons a t =>
    simp only [wfFrom, Bool.and_eq_true, decide_eq_true_eq] at h ⊢
    refine ⟨⟨?_, h.1.2⟩, h.2⟩
    cases lo with
    | none => rfl
    | some x => have := hl x rfl; simp only [decide_eq_true_eq]; omega

/-- Leaving entries out keeps the canonical form. -/
theorem wf_filter (d : α) (l : List (Nat × α)) (q : Nat × α → Bool) (h : wf d l = true) : wf d (l.filter q) = true := by
  suffices H : ∀ lo, wfFrom d lo l = true → wfFrom d lo (l.filter q) = true from H none h
  clear h
  induction l with
  | nil => intro lo _; rfl
  | cons a t ih =>
    intro lo h
    simp only [wfFrom, Bool.and_eq_true] at h
    by_cases hq : q a
    · simp only [List.filter_cons, hq, if_true, wfFrom, Bool.and_eq_true]
      exact ⟨h.1, ih _ h.2⟩
    · simp only [List.filter_cons, hq]
      refine wfFrom_lower (ih _ h.2) ?_
      intro b e
      subst e
      have := h.1.1
      simp only [decide_eq_true_eq] at this
      omega

end Sparse

/-- Leaving bytes out keeps the canonical form. -/
theorem Mem.wf_filter (m : Mem) (q : Nat × Byte → Bool) (h : m.wf = true) : Mem.wf (List.filter q m) = true := Sparse.wf_filter _ _ _ h

/-- A byte just written is read back. -/
theorem Mem.read_write_same (m : Mem) (k : Nat) (b : Byte) (h : m.wf = true) : (m.write k b).read k = b :=
  Sparse.get_set_same _ _ _ _ h

/-- A write leaves every other byte. -/
theorem Mem.read_write_other (m : Mem) (k i : Nat) (b : Byte) (h : m.wf = true) (hi : i ≠ k) : (m.write k b).read i = m.read i :=
  Sparse.get_set_other _ _ _ _ _ h hi

/-- A write keeps the canonical form. -/
theorem Mem.wf_write (m : Mem) (k : Nat) (b : Byte) (h : m.wf = true) : (m.write k b).wf = true := Sparse.wf_set _ _ _ _ h

/-- A write of several bytes keeps the canonical form. -/
theorem Mem.wf_writeN (m : Mem) (k : Nat) (bs : List Byte) (h : m.wf = true) : (m.writeN k bs).wf = true := by
  induction bs generalizing m k with
  | nil => exact h
  | cons b t ih => exact ih _ _ (Mem.wf_write m k b h)

/-- A write of several bytes leaves every byte outside them. -/
theorem Mem.read_writeN_outside (m : Mem) (k i : Nat) (bs : List Byte) (h : m.wf = true) (hi : i < k ∨ k + bs.length ≤ i) :
    (m.writeN k bs).read i = m.read i := by
  induction bs generalizing m k with
  | nil => rfl
  | cons b t ih =>
    simp only [Mem.writeN, List.length_cons] at *
    rw [ih (m.write k b) (k + 1) (Mem.wf_write m k b h) (by omega), Mem.read_write_other m k i b h (by omega)]

/-- A write of several bytes puts each of them where it belongs. -/
theorem Mem.read_writeN_inside (m : Mem) (k j : Nat) (bs : List Byte) (h : m.wf = true) (hj : j < bs.length) :
    (m.writeN k bs).read (k + j) = bs[j] := by
  induction bs generalizing m k j with
  | nil => simp at hj
  | cons b t ih =>
    simp only [Mem.writeN]
    cases j with
    | zero =>
      show (Mem.writeN (m.write k b) (k + 1) t).read k = b
      rw [Mem.read_writeN_outside _ _ _ _ (Mem.wf_write m k b h) (Or.inl (by omega)),
        Mem.read_write_same m k b h]
    | succ n =>
      have e : k + (n + 1) = k + 1 + n := by omega
      rw [e, ih (m.write k b) (k + 1) n (Mem.wf_write m k b h) (by simpa using hj)]
      rfl

/-- The length of a read. -/
@[simp] theorem Mem.readN_length (m : Mem) (k n : Nat) : (m.readN k n).length = n := by
  induction n generalizing k with
  | zero => rfl
  | succ n ih => simp [Mem.readN, ih]

end Sys2Proof.Machine
end

