-- ==== Sys2Proof/Machine/Audit.lean ====
section
/-! DEFINITION. What a verifier of a tally and an auditor of a run of folios do (R349, R356): procedures over the bytes that the device writes. -/

namespace Sys2Proof.Machine

open Sys2Proof

/-! ### verify_tally -/

/-- The way from a node at place `i` of a level of `n` nodes to the root (R356): the root's digest and what is left of the sibling hashes, none where
one is missing. The first argument bounds the levels. -/
def tallyClimb : Nat → Nat → Nat → Digest → List Digest → Option (Digest × List Digest)
  | 0, _, _, h, path => some (h, path)
  | fuel + 1, i, n, h, path =>
    if n ≤ 1 then some (h, path)
    else if i % 2 = 1 then
      match path with
      | [] => none
      | p :: ps => tallyClimb fuel (i / 2) ((n + 1) / 2) (sha384 (1#8 :: (digestBytes p ++ digestBytes h))) ps
    else if i + 1 < n then
      match path with
      | [] => none
      | p :: ps => tallyClimb fuel (i / 2) ((n + 1) / 2) (sha384 (1#8 :: (digestBytes h ++ digestBytes p))) ps
    else tallyClimb fuel (i / 2) ((n + 1) / 2) h path

/-- hss_index of a two-level HSS signature (R15, R350): the leaf of the upper tree, then that of the lower one. -/
def hssIndex (sig : List Byte) : Nat := beAt sig 4 4 * 2 ^ lmsHeight + beAt sig 1832 4

/-- verify_tally of R356: a tally's 48 bytes, its folio's header block, the sibling hashes, the ledger's public keys, and what `certified` answers for
them and a device. -/
def verifyTally (certify : List Byte × List Byte → Digest → Bool) (t header : List Byte) (path : List Digest) (keys : List Byte × List Byte) : Bool :=
  let m := header.take 0x140
  let folio := Bits.leNat header 8 4
  let index := Bits.leNat t 0 6
  let n := Bits.leNat header 0x14 4
  Bits.leNat header 0 4 = 0x4F57464F && Bits.leNat header 4 2 = 1 && sha384 (keys.1 ++ keys.2) = digestAt header 0xC0 &&
    certify keys (digestAt header 0x90) && ecdsaVerifies keys.1 (sha384 m) (slice header 0x140 96) &&
    hssVerifies keys.2 m (slice header 0x1A0 3604) && hssIndex (slice header 0x1A0 3604) = folio && index / 65536 = folio &&
    index % 65536 < n &&
    match tallyClimb 17 (index % 65536) n (sha384 (0#8 :: t)) path with
    | some (h, []) => h = digestAt header 0x60
    | _ => false

/-! ### check_run -/

/-- Closure of one folio over the bytes of its header and tallies (R349, R356). -/
def folioCloses (f : List Byte × List (List Byte)) : Bool :=
  let attributed := Bits.leNat f.1 0x58 8
  (f.2.map fun t => Bits.leNat t 16 8).sum = attributed &&
    1000 * attributed + Bits.leNat f.1 0x50 8 = Bits.leNat f.1 0x40 8 + Bits.leNat f.1 0x48 8

/-- Whether a folio continues another's carry and time. -/
def folioFollows (f g : List Byte × List (List Byte)) : Bool :=
  Bits.leNat g.1 0x48 8 = Bits.leNat f.1 0x50 8 && Bits.leNat g.1 0x30 8 = Bits.leNat f.1 0x38 8

/-- check_run of R356 over folios of one start with consecutive numbers. -/
def checkRun (fs : List (List Byte × List (List Byte))) : Bool := fs.all folioCloses && (fs.zip fs.tail).all fun x => folioFollows x.1 x.2

end Sys2Proof.Machine
end

