-- ==== Sys2Proof/WellFormed.lean ====
section
/-! DEFINITION. Which commands are well formed: every operand fits the field that carries it. The meanings do not rest on it: an operand
outside its field is one that no sender can give. -/

namespace Sys2Proof

/-- A number that fits a field of `n` bytes. -/
def wide (n x : Nat) : Bool := decide (x < 2 ^ (8 * n))

/-- An offset in a core store (R146). -/
def inCore (off : Nat) : Bool := decide (off < 0x8000)

/-- A region parameter: a 64-bit offset (R285). -/
def RegionRef.wf (r : RegionRef) : Bool := wide 8 r.off

/-- A place in a core store or a cluster store (R146, R147). -/
def Loc.wf (l : Loc) : Bool :=
  match l.store with
  | .core => inCore l.off
  | .cluster => decide (l.off < 0x80000)

/-- A place that an engine reads: in core store, or in an area of at most 32 KiB behind a queue's head token (R157, R161). -/
def Place.wf (p : Place) : Bool := inCore p.off && (p.queue.isSome || !p.release)

/-- A zero point's place (R130). -/
def ZeroAt.wf (z : ZeroAt) : Bool :=
  match z with
  | .scalar _ => true
  | .entry table => table.wf
  | .row pair => inCore pair

/-- An operand stream: its row's place and its zero point's. -/
def Src.wf (a : Src) : Bool := a.place.wf && a.zero.wf

/-- A destination in core store (R100). -/
def Dst.wf (d : Dst) : Bool := inCore d.off

/-- A block-list entry (R157): LEN has 16 bits. -/
def BlockEntry.wf (e : BlockEntry) : Bool := wide 2 e.len

/-- An entry of a frame program's list; one of an epoch's list stands in memory in its 16 bytes (R197). -/
def EntrySrc.wf (e : EntrySrc) : Bool :=
  match e with
  | .plan b => b.wf
  | .list _ _ _ => true

/-- An NMA operation: every place of it lies in core store (R222). -/
def NmaOp.wf (o : NmaOp) : Bool := inCore o.query && inCore o.pairs && inCore o.triples && inCore o.mass

/-- A long row: 1 to 65,536 elements in its pieces (R131). -/
def rowPiecesOk (row : List (Place × Nat)) : Bool :=
  row.all (fun x => x.1.wf) && decide (1 ≤ (row.map (·.2)).sum) && decide ((row.map (·.2)).sum ≤ 65536)

/-- Whether every operand of a command fits its field. -/
def Instr.wf (i : Instr) : Bool :=
  match i with
  | .sessionOpen _ _ _ ring entries budget _ => ring.wf && wide 4 entries && wide 4 budget
  | .sessionAppend _ tokens count _ _ => tokens.wf && wide 4 count
  | .sessionGenerate _ maxTokens _ _ topK nstop stops _ => wide 4 maxTokens && wide 2 topK && wide 1 nstop && stops.length == 8
  | .sessionFork _ ring entries => ring.wf && wide 4 entries
  | .prefixPin _ tokens count _ => tokens.wf && wide 4 count
  | .prefixUnpin _ tokens count _ => tokens.wf && wide 4 count
  | .graphStore _ region length _ => region.wf && wide 4 length
  | .graphPatch _ region length _ => region.wf && wide 4 length
  | .graphLaunch _ input output _ items => input.wf && output.wf && wide 4 items
  | .jobQuery _ result _ => result.wf
  | .imageInstall _ manifest records scales scaleLen _ => manifest.wf && records.wf && scales.wf && wide 4 scaleLen
  | .imageActivate _ _ _ scales scaleLen _ => scales.wf && wide 4 scaleLen
  | .tuneOpen _ _ _ source rank _ _ _ _ _ => source.wf && wide 2 rank
  | .tuneStep _ region count _ _ => region.wf && wide 4 count
  | .selftest _ _ kind report _ => wide 1 kind && report.wf
  | .fnCreate _ site _ quota => wide 1 site && wide 4 quota
  | .fnDestroy _ number result => wide 1 number && result.wf
  | .fnSetShare _ number share tokenCap energyCap => wide 1 number && wide 2 share && wide 4 tokenCap && wide 8 energyCap
  | .planLoad _ region length _ => region.wf && wide 4 length
  | .folioGet _ folio result length _ => wide 4 folio && result.wf && wide 4 length
  | .ledgerConfig _ period => wide 4 period
  | .eventWriteBack _ off _ => wide 4 off && off % 4 == 0
  | .persistentWrite _ off _ => wide 4 off && off % 4 == 0
  | .registerWrite a => wide 4 a.off && wide 1 a.width
  | .fxeEntryIssue i => i.entry.wf
  | .sxeWrite _ entry _ _ _ _ => entry.wf
  | .nmaLatent o => o.wf
  | .nmaGqa o => o.wf
  | .mxeDotProduct _ _ _ _ a b _ => a.wf && b.wf
  | .accReadout _ _ _ _ _ dest => inCore dest
  | .add _ a b d => a.wf && b.wf && d.wf
  | .sub _ a b d => a.wf && b.wf && d.wf
  | .mul _ a b d => a.wf && b.wf && d.wf
  | .fma _ a b c d => a.wf && b.wf && c.wf && d.wf
  | .abs _ a d => a.wf && d.wf
  | .neg _ a d => a.wf && d.wf
  | .min _ a b d => a.wf && b.wf && d.wf
  | .max _ a b d => a.wf && b.wf && d.wf
  | .cmp _ _ a b dest => a.wf && b.wf && inCore dest
  | .sel _ c a b dest => c.wf && a.wf && b.wf && inCore dest
  | .cvt _ a d => a.wf && d.wf
  | .rsum _ a d => a.wf && d.wf
  | .rmax _ a d => a.wf && d.wf
  | .rmin _ a d => a.wf && d.wf
  | .sfn _ _ _ _ a dest _ _ => a.wf && inCore dest
  | .welfordAcc _ _ a => a.wf
  | .varFinish _ _ d => d.wf
  | .ssqAcc _ _ a => a.wf
  | .rmsFinish _ _ _ d => d.wf
  | .smxTile _ scores values _ _ _ triple _ => scores.wf && values.wf && inCore triple
  | .smxMerge _ a b d => a.wf && b.wf && inCore d.off
  | .smxFinish _ a d => inCore a.off && d.wf
  | .rescale _ _ _ _ table pair d => table.wf && (pair.map inCore).getD true && d.wf
  | .rowq _ row _ store codes pair => rowPiecesOk row && (Loc.mk store codes).wf && inCore pair
  | .kvConversion _ src _ _ table dest => inCore src && table.wf && inCore dest
  | .routeTopk _ _ x => inCore x.scores && inCore x.dest
  | .sendRecord _ _ _ row _ _ => inCore row
  | .returnRecord _ _ _ _ _ _ area _ row _ _ dest => decide (area < 0x80000) && inCore row && inCore dest
  | .sessionClose .. | .graphDrop .. | .jobSuspend .. | .jobResume .. | .jobCancel .. | .imageRetire .. | .tuneSave ..
  | .tuneClose .. | .marginReplan .. | .markBegin .. | .markEnd .. | .counterSnapshot .. | .fence .. | .planSelect ..
  | .fwSupply .. | .fwStage .. | .keyRegister .. | .keyRevoke .. | .keyRead .. | .chainRead .. | .doeDiscovery ..
  | .getVersion .. | .getCapabilities .. | .negotiateAlgorithms .. | .getDigests .. | .getCertificate .. | .challenge ..
  | .getMeasurements .. | .i3cPrivateWrite .. | .i3cPrivateRead .. | .setdasa .. | .entdaa .. | .clearFaults ..
  | .statusWord .. | .statusInput .. | .statusTemperature .. | .readVin .. | .readIin .. | .readTemperature1 ..
  | .readTemperature2 .. | .readPin .. | .pmbusRevision .. | .mfrId .. | .qDoorbell .. | .queueEnable .. | .queueDisable ..
  | .queueReset .. | .qCqHead .. | .qResume .. | .regionCreate .. | .regionDestroy .. | .deviceWarmReset .. | .siteReset ..
  | .cfgCommit .. | .dbgSnapGo .. | .journalArm .. | .streamEnable .. | .trig .. | .dumpFetch .. | .seqProbe ..
  | .functionLevelReset .. | .vfEnableClear .. | .atsInvalidation .. | .modEnHigh .. | .modEnLow .. | .modRstNLow ..
  | .modRstNRelease .. | .firmwareCheck .. | .inputTrip .. | .refclkLost .. | .leak .. | .leakOffExpiry .. | .thermalSample ..
  | .thermalStepDown .. | .thermalStepUp .. | .criticalHalving .. | .powerCapStepDown .. | .powerCapStepUp .. | .bell ..
  | .admissionCutoff .. | .doneReport .. | .weightRestore .. | .kvRestore .. | .storageRelease .. | .hubTimerPeriod ..
  | .folioSealed .. | .qntWindowClose .. | .cfgCrcCheck .. | .pcSample .. | .streamRecordCopy .. | .hangLimitExpiry ..
  | .progressStandstill .. | .dumpDone .. | .cqWriteFault .. | .sqFetchFault .. | .outputWriteFault .. | .flrTimeout ..
  | .siteLinkDown .. | .siteLinkUp .. | .linkHoldExpiry .. | .siteDegraded .. | .awaitSpaceResume .. | .epochLoaded ..
  | .fxeBlockArrival .. | .fastRead .. | .shedRead .. | .appendScatterStep .. | .refresh .. | .idleRefresh ..
  | .forcedRefresh .. | .expanderBlock .. | .pairMerge .. | .welfordMerge .. | .ssqMerge .. | .countReduce .. | .slotBuild ..
  | .slotTableMulticast .. | .baseOffsetReturn .. | .expertStream .. | .wfence .. | .mark .. | .clusterBarrier ..
  | .gradientPartial .. | .tuneUpdate .. | .clusterHardFault .. | .sublinkLost .. | .rowRepair .. | .channelLost ..
  | .channelRebuilt .. | .phaseLost .. | .cofferChannelLost .. | .cxlPortLost .. | .shadowRehomed .. | .yardLost ..
  | .reliefReady .. | .cpmRaise .. | .cpmCritical .. | .marginChanged .. | .imageReady .. | .planLoadComplete ..
  | .siteLinkTrained .. | .refclkReturn .. | .vinRange .. | .meterFault .. | .leakNHigh .. => true

end Sys2Proof
end

