-- ==== Sys2Proof/Tests/Slice0.lean ====
section
/-! SUPPORT. The model's own tests: ill-formed commands that the check refuses, small results taken from the spec, and for each statement
with hypotheses a state that meets them. -/

open Sys2Proof Sys2Proof.Machine

namespace Sys2Proof.Tests

set_option Elab.async false

/-! ### A device in service -/

/-- A plan of one layer in yard 0 with a KV descriptor, a router and an adapter path; two buckets. -/
def tPlan : Plan :=
  { name := 1#128, ident := 0x1234#32, body := [5#8], sig := ⟨0, [], []⟩, length := 1000, tickUnits := 32, contract := 1
    layers := [[0], [1], [2], [3], [4], [5], [6], [7]]
    buckets := [⟨0, 64, 4096, 32, 1000, 4096, 4096, 0, 4⟩, ⟨4, 4096, 65536, 64, 2000, 65536, 65536, 0, 4⟩]
    reliefBuckets := List.replicate 8 [], reliefOn := false
    images := [{ digest := 99, atLoad := false, blocks := [], units := List.replicate 16 0, wideUnits := List.replicate 16 0, entries := [], lists := [] }]
    weightBase := List.replicate 16 0, weightUnits := List.replicate 16 1000, wideBase := List.replicate 16 0
    wideRegion := List.replicate 16 0, listBase := List.replicate 8 0, listBytes := List.replicate 8 0, poolBase := List.replicate 16 (2 ^ 32)
    poolUnits := List.replicate 16 100, reliefUnits := List.replicate 16 0, kvBase := List.replicate 16 (2 ^ 33)
    kvSlots := List.replicate 16 10000, reliefBase := List.replicate 16 0, reliefKvBase := List.replicate 16 0
    reliefKvSlots := List.replicate 16 0, reserve := List.replicate 16 (2 ^ 34)
    kvDescs := [{ layer := 0, yard := 0, kind := 0, format := 8, widthA := 64, widthB := 32, heads := 4, blockBytes := 8192
                  scaleOff := 0, tau := 0x3F800000#32 },
      { layer := 1, yard := 0, kind := 1, format := 10, widthA := 64, widthB := 64, heads := 4, blockBytes := 8192
        scaleOff := 0, tau := 0x3F800000#32 }]
    nmaLayers := [(0, 0), (0, 1)]
    routers := [{ layer := 0, yard := 0, nexp := 8, k := 1, sigmoid := false, norm := false, rsvd := false, nslot := 8
                  slotCores := 5, rowFmt := 5, tps := 4, tableClu := 0, wideOn := false, partner := 0, cold := 0#256, wide := 0#256 }]
    paths := [{ layer := 0, yard := 0, matrix := 0, kind := 1, m := 2, n := 2, alpha := 0x3F800000#32 }]
    micro := [], table := [], entries := [], areas := []
    queues := [⟨0, 0, 0, .vxe, 8⟩, ⟨0, 0, 1, .mxeB, 8⟩], msets := [], formats := [], sfnUses := [], cvts := [], epsilons := []
    chunk := 64, tuneChunk := 64, tuneRegion := 2 :: List.replicate 15 0, hkBlocks := 10, laneA := 100000, laneW := 1
    laneBase := List.replicate 8 0, laneBytes := 0 }

/-- A READY image of name 77 whose epoch is current. -/
def tImage : Image :=
  { ix := 0, st := .ready, variant := false, base := none, lastEpoch := 1, name := 77#128, digest := 99, stored := 0, scaleLen := 0
    owner := 0#8, newest := 0, records := [], scales := [], without := [] }

def tEpoch : Epoch := ⟨0, 1, none, [], [], [], [], {}, [], true, true, [], none, none, false⟩

/-- The packet that a command came in by. -/
def tCmd (order : Nat) : Cmd := ⟨0#8, 0, 7#16, false, order⟩

/-- A session with one committed token. -/
def tSession : Session := { Session.fresh (tCmd 0) 4 tEpoch 0#32 ⟨0x02000001#32, 0⟩ 64 0 0 with tokens := [5#32] }

/-- A graph of one version. -/
def tBody : GraphBody := ⟨1#128, [77#128], 4, 64, false, [3#8], ⟨0, [], []⟩⟩
def tGraph : Graph := ⟨0#8, 5, [⟨1, tBody, 0⟩], false⟩

/-- A tuning run without a step. -/
def tTensor : Tensor := Tensor.fresh (0, 0, 2, 1) [0#32, 0#32]
def tRun : Run :=
  { fn := 0#8, ix := 7, name := 77#128, image := 0, epoch := 1, rank := 1, b2 := 0x3F000000#32, e1 := 0x3F800000#32
    e2 := 0#32, d := 0x3F800000#32, bt := 0x3F800000#32, t := 0, tensors := [tTensor], steps := [], closing := none }

def tJob (ix : Nat) (kind : JobKind) : Job := Job.fresh (tCmd 1) ix 0x12 1 0x04000000#32 kind 4 [] false false

/-- The management function: queue 0 enabled with packets to fetch, one region, one object of each kind. -/
def tFn : Fn :=
  { Fn.physicalA with
    nextIx := 9, handles := [(1, .region, 1), (2, .image, 0), (3, .plan, 3), (4, .session, 4), (5, .graph, 5), (6, .job, 6), (7, .job, 7)]
    queues := [{ enabled := true, tail := 10, head := 15 }, {}, {}, {}]
    regions := [(1, ⟨2 ^ 20, 2 ^ 20, true, none⟩)], quota := 2 ^ 20 }

/-- A virtual function of site A. -/
def tVf : Fn := { Fn.created 1#8 false 0 false 4096 1 with st := .active }

/-- A device that serves: ticks run, plan selected, all yards up. -/
def tCtl : Ctl :=
  { Ctl.reset with
    hub := { yardsUp := 0xFF#8, tick := 5, first := false, siteA := { link := .active, vfEnable := true, numVfs := 4 } }
    fe := { ticking := true }
    fns := [tFn, tVf]
    sec := { st := .running }
    pwr := { st := .serving }
    ldg := { ready := true }
    cxl := List.replicate 4 { up := true, bytes := 2 ^ 36 }
    objs := { sessions := [tSession], graphs := [tGraph], jobs := [tJob 6 (.planLoad 9#128 10), tJob 7 .tuning], images := [tImage]
              epochs := [tEpoch], plans := [⟨3, tPlan, 1, false⟩], selected := some 3, runs := [tRun], orders := 3 } }

def tS : State := { State.reset with ctl := tCtl }

/-- The same with other controls. -/
def tWith (f : Ctl → Ctl) : State := tS.withCtl (f tCtl)

def tPkt (subject : Handle) : Pkt := ⟨0#8, 0, 7#16, false, subject, false⟩
def tFetched : Ctl := tCtl.fetch 0#8 0
def tFnThen : Fn := tFn.fetchedOne 3 0

def tRef : RegionRef := ⟨0x02000001#32, 0⟩

theorem fetchable : tCtl.fetchable tFn 0 = true := by decide +kernel

theorem takes (h : Handle) : Takes tS (tPkt h) tFn tFetched tFnThen :=
  ⟨rfl, fetchable, rfl, rfl, Ctl.fetch_fn? 0 rfl⟩

theorem takes_session : TakesFor tS (tPkt 0x01000004#32) tFn tFetched tFnThen tSession :=
  ⟨takes _, by decide +kernel, rfl, rfl⟩

theorem issued (k : ObjKind) : tFnThen.issueSelf k = some (9, { tFnThen with nextIx := 10, handles := tFnThen.handles ++ [(9, k, 9)] }) := by
  cases k <;> decide +kernel


/-! ### The queue, the frame, frozen devices -/

theorem witness_StepRunsFront : State.reset.pending = [] := rfl

theorem witness_FrameOfParts :
    (enginesOnly (.wfence ⟨0, ⟨0, 0⟩⟩ 0) = true ∧ ∃ t, exec (.wfence ⟨0, ⟨0, 0⟩⟩ 0) tS = .next t) ∧
    (touchesEngines .refclkReturn = false ∧ touchesCfg .refclkReturn = false ∧ ∃ t, exec .refclkReturn tS = .next t) :=
  ⟨⟨rfl, _, rfl⟩, rfl, rfl, _, rfl⟩

theorem witness_StepKeepsMemoryCanonical :
    ({ tS with pending := [.refclkReturn] } : State).dp.mem.wf = true ∧ ∃ t, step { tS with pending := [.refclkReturn] } = .next t :=
  ⟨rfl, _, rfl⟩

theorem witness_StepKeepsLegalRegisters : tS.cfg.ok = true ∧ ∃ t, step { tS with pending := [.refclkReturn] } = .next t :=
  ⟨by decide +kernel, _, rfl⟩

def tFrozen : State := tWith fun c => c.onHub fun h => { h with halted := true }

theorem witness_FrozenDeviceRunsNothing : frozenOut (.clusterBarrier ⟨0, ⟨0, 0⟩⟩) = true ∧ tFrozen.ctl.hub.halted = true := ⟨rfl, rfl⟩


/-! ### Packets -/


theorem witness_PacketsPassTheFirstChecks :
    (packetOf (.planSelect (tPkt 0#32)) = some (tPkt 0#32, .management) ∧ State.reset.ctl.fetchable Fn.physicalA 0 = false) ∧
    (tCtl.fetchable tFn 0 = true ∧ tCtl.holds tVf .management = false) ∧ tCtl.holds tFn .management = true := by decide +kernel

/-- The 64 bytes of a SESSION_CLOSE packet, with a byte that its opcode gives no meaning. -/
def tBytes (opcode stray : Byte) : List Byte := [opcode, 1#8, 7#8, 0#8, 4#8, 0#8, 0#8, 1#8, stray] ++ List.replicate 55 0#8

def tHost : HostData := ⟨.xlat, .xlat, .xlat, .xlat, .xlat, .xlat, .xlat, []⟩

theorem witness_PacketBytes :
    packetCommand 0#8 0 (tBytes 0x14#8 0#8) tHost = some (.sessionClose ⟨0#8, 0, 7#16, true, 0x01000004#32, false⟩) ∧
    packetCommand 0#8 0 (tBytes 0x14#8 1#8) tHost = some (.sessionClose ⟨0#8, 0, 7#16, true, 0x01000004#32, true⟩) ∧
    packetCommand 0#8 0 (tBytes 0xFF#8 0#8) tHost = none ∧ pktLayout (Bits.leNat (tBytes 0xFF#8 0#8) 0 1) false = none := by decide +kernel

theorem witness_RecordsAreWrittenOrHeld :
    (tCtl.fn? tFn.num = some tFn ∧ tFn.queues.length = 4) ∧ (tCtl.writerOpen tFn 0 = true ∧ (tFn.queue 0).held = []) ∧
    tCtl.writerOpen tFn 1 = false := by decide +kernel

theorem witness_SessionOpenWaitsAndBinds :
    Takes tS (tPkt 0#32) tFn tFetched tFnThen ∧ (tFnThen.issueSelf .session).isSome = true ∧
    (tFn.regionLive tRef = true ∧ ringEntriesOk 64 = true ∧ budgetOk 1088 = true ∧ (8#8).toNat ∈ [0, 1, 2, 4, 8] ∧ tFn.ringOk tRef 64 = true ∧
      tCtl.currentEpoch (tCtl.versions 0#8 77#128) = some tEpoch ∧ tCtl.image? 0 = some tImage ∧
      tCtl.adapterSuits tFn 0#32 (some tImage) = true ∧ tImage.st ≠ .damaged ∧ tCtl.planNames tImage = true) :=
  ⟨takes _, by rw [issued]; rfl, by decide +kernel⟩

theorem witness_SessionWorkIsAccepted :
    TakesFor tS (tPkt 0x01000004#32) tFn tFetched tFnThen tSession ∧ (tFnThen.issueSelf .job).isSome = true ∧
    (tFn.regionLive tRef = true ∧ tFn.regionOk tRef (some (4 * 1)) false = true ∧ tSession.commands.length < 17) ∧
    (samplingOk 0#32 0x3F800000#32 = true ∧ tCtl.hasToken tSession = true) :=
  ⟨takes_session, by rw [issued]; rfl, by decide +kernel, by decide +kernel⟩

theorem witness_SessionsForkCloseAndPin :
    TakesFor tS (tPkt 0x01000004#32) tFn tFetched tFnThen tSession ∧ (tFnThen.issueSelf .session).isSome = true ∧
    (tCtl.session? 0#8 (ixOf 0x01000004#32) = some tSession ∧ ringEntriesOk (2 ^ 10) = true ∧ tFn.ringOk tRef (2 ^ 10) = true ∧
      tCtl.sessionRuns tSession = false) ∧
    tFn.regionOk tRef (some (4 * 0)) false = true :=
  ⟨takes_session, by rw [issued]; rfl, by decide +kernel, by decide +kernel⟩

theorem witness_GraphsAreStoredAndLaunched :
    (∀ h, Takes tS (tPkt h) tFn tFetched tFnThen) ∧ (tFnThen.issueSelf .graph).isSome = true ∧ (tFnThen.issueSelf .job).isSome = true ∧
    (tFn.regionLive tRef = true ∧ tFn.graphRegionOk tRef 0 = true) ∧
    (tCtl.graphAt tFn 0x03000005#32 = some tGraph ∧ tGraph.latest = some ⟨1, tBody, 0⟩) ∧
    (tFn.regionOk tRef none false = true ∧ tFn.regionOk tRef none true = true ∧ tCtl.launchable tFn 0x03000005#32 = true ∧
      tCtl.bindNames 0#8 [77#128] = some [(0, 1)]) ∧
    ((tJob 8 (.launch 5 0 1 0 [] 0#32 tRef)).kind = .launch 5 0 1 0 [] 0#32 tRef ∧
      tCtl.objs.graphs.find? (fun x => x.fn = (tJob 8 (.launch 5 0 1 0 [] 0#32 tRef)).cmd.fn && x.ix = 5) = some tGraph) :=
  ⟨takes, by rw [issued]; rfl, by rw [issued]; rfl, by decide +kernel, by decide +kernel, by decide +kernel, rfl, by decide +kernel⟩

theorem witness_JobCommandsComplete :
    (∀ h, Takes tS (tPkt h) tFn tFetched tFnThen) ∧
    ((tFn.object .job 0x04000006#32).isSome = true ∧ tCtl.job? 0#8 (ixOf 0x04000006#32) = some (tJob 6 (.planLoad 9#128 10))) ∧
    ((tCtl.queryOf tFn 0x04000006#32).map (·.length) = some 128 ∧ tFn.region tRef.handle = some ⟨2 ^ 20, 2 ^ 20, true, none⟩ ∧
      tFn.regionOk tRef none true = true) :=
  ⟨takes, by decide +kernel, by decide +kernel⟩

/-- The device whose session has ended. -/
def tEnded : State := tWith fun c => c.onObjs fun o => { o with sessions := [{ tSession with ended := some Status.cancelled }] }

theorem witness_EndedSessionIsQueried :
    Takes tEnded (tPkt 0x01000004#32) tFn (tEnded.ctl.fetch 0#8 0) tFnThen ∧ (tEnded.ctl.queryOf tFn 0x01000004#32).isSome = true ∧
    tFn.object .session 0x01000004#32 = some 4 ∧ tEnded.ctl.session? tFn.num 4 = some { tSession with ended := some Status.cancelled } :=
  ⟨⟨rfl, by decide +kernel, rfl, rfl, Ctl.fetch_fn? 0 rfl⟩, by decide +kernel⟩

/-- What a packet that is accepted as a job leaves. -/
def tAccepted (opcode : Nat) (subject : Handle) (kind : JobKind) (limit : Nat) (regions : List Handle) : Ctl :=
  (tFetched.acceptJob (cmdOf tS (tPkt subject)) opcode subject kind limit regions false).1

theorem witness_ImageCommandsAreAccepted :
    (∀ h, Takes tS (tPkt h) tFn tFetched tFnThen) ∧ (tFnThen.issueSelf .job).isSome = true ∧
    (tFn.regionLive tRef = true ∧ tFn.regionOk tRef none false = true ∧ tFn.regionOk tRef (some 0) false = true ∧
      ((tAccepted 0x40 0#32 (.install 0 0 []) 0 [tRef.handle, tRef.handle, tRef.handle]).job? 0#8 9).isSome = true) ∧
    (tFn.object .image 0x05000002#32 = some 0 ∧ tCtl.image? 0 = some tImage ∧ tImage.st = .ready ∧ tCtl.activating tImage = false ∧
      ((tAccepted 0x41 0x05000002#32 (.activate 0 false true none none [] false false) 0 [tRef.handle]).job? 0#8 9).isSome = true) ∧
    ∀ x ∈ tCtl.objs.images, x.base ≠ some tImage.ix :=
  ⟨takes, by rw [issued]; rfl, by decide +kernel, by decide +kernel, by decide +kernel⟩

theorem witness_TuningCommandsAreAccepted :
    (∀ h, Takes tS (tPkt h) tFn tFetched tFnThen) ∧ (tFnThen.issueSelf .job).isSome = true ∧
    (tuneParamsOk 0#32 1#32 0#32 1#32 = true ∧ tCtl.plan? = some tPlan ∧ rankFits tPlan.paths 256 = true ∧
      tCtl.startSuits tFn 0#32 1 77#128 = true ∧ tCtl.tuneEpoch 0#8 77#128 = some (tEpoch, tImage) ∧ tPlan.paths ≠ [] ∧
      ((tAccepted 0x50 0#32 .tuning 0 []).job? 0#8 9).isSome = true) ∧
    ((tFn.object .job 0x04000007#32).isSome = true ∧ tCtl.run? 0#8 0x04000007#32 = some tRun ∧ tFn.regionOk tRef (some (8 * 1)) false = true ∧
      finite32 0#32 = true ∧ FNum.le (FNum.ofInt 0) (num32 0#32) = true ∧ tRun.closing = none ∧ tRun.steps.length < 17 ∧
      examplesOk [⟨0#32, 1#8, true⟩, ⟨0#32, 2#8, true⟩] tPlan.tuneChunk = true) :=
  ⟨takes, by rw [issued]; rfl, by decide +kernel, by decide +kernel⟩

/-- An adapter record of the plan's one path, of rank 1. -/
def tRecord : List Byte :=
  adapterRecord tPlan.paths ⟨0#8, 1, 77#128, tImage.digest, 1, 0, pathsDigest tPlan.paths,
    (allShapes tPlan.paths 1).map fun x => Tensor.fresh x (List.replicate (x.2.2.1 * x.2.2.2) 0#32), false, 0⟩

theorem witness_AdapterRecordIsImported : (importRecord tPlan.paths 1 tImage.digest tRecord).isSome = true := by decide +kernel



theorem witness_ServiceCommandsComplete :
    (∀ h, Takes tS (tPkt h) tFn tFetched tFnThen) ∧
    (tCtl.holds tFn .health = true ∧ tFn.regionLive tRef = true ∧ tFn.regionOk tRef none true = true) ∧
    tCtl.sessionAt tFn 0x01000004#32 = some tSession ∧ tSession.ended = none ∧ tSession.closing = none :=
  ⟨takes, by decide +kernel, by decide +kernel⟩

/-- A folio that is ready, with its header alone. -/
def tFolio : Sealed := ⟨1, List.replicate 320 0#8, [], [], [], true⟩

theorem witness_ManagementCommandsComplete :
    (∀ h, Takes tS (tPkt h) tFn tFetched tFnThen) ∧ (tFnThen.issueSelf .job).isSome = true ∧ tCtl.isMgmt 0#8 = true ∧
    (tCtl.siteResetting 0 = false ∧ (tCtl.site 0).link = .active ∧ (tCtl.site 0).vfEnable = true ∧ tCtl.freeNumber 0 = some 2#8 ∧
      (tCtl.fns.map (·.quota)).sum + 2 ^ 24 ≤ 2 ^ 28) ∧
    (tCtl.fn? (BitVec.ofNat 8 1) = some tVf ∧ tVf.physical = false ∧ tVf.disable = none ∧
      ((tCtl.fns.filter (·.num ≠ BitVec.ofNat 8 1)).map Fn.shareDue).sum + 1024 ≤ 1024) ∧
    ((tAccepted 0x88 0#32 (.planLoad 0#128 0) 0 [tRef.handle]).job? 0#8 9).isSome = true ∧
    (tCtl.planAt tFn 0x08000003#32 = some ⟨3, tPlan, 1, false⟩ ∧ tCtl.yardsOut.length ≤ 1 ∧ tCtl.fe.switch = none ∧ tCtl.ldg.ready = true) :=
  ⟨takes, by rw [issued]; rfl, by decide +kernel, by decide +kernel, by decide +kernel, by decide +kernel, by decide +kernel⟩

theorem witness_FolioGet :
    ((tCtl.onLdg fun l => { l with sealedFolios := [tFolio] }).folioBytes 1 4096).isSome = true ∧
    (tCtl.onLdg fun l => { l with sealedFolios := [tFolio] }).fetchable tFn 0 = true := by decide +kernel


/-! ### The mailbox, DOE, I3C and PMBus -/

/-- The device with a mailbox buffer of a length, in a state of the ROM. -/
def tMbx (st : SecSt) (len : Nat) : State :=
  { tWith (fun c => c.onSec fun x => { x with st := st }) with cfg := { mbxLen := len } }

/-- A firmware image whose header announces 4,096 bytes of body. -/
def tFw : FwImage := ⟨Bits.toLe 0x4F574657 4 ++ Bits.toLe 1 2 ++ Bits.toLe 1 2 ++ Bits.toLe 4096 4, [7#8]⟩

theorem witness_MailboxFollowsItsRules :
    ((tMbx .boot 0).ctl.sec.st = .boot ∧ (tMbx .recoveryWait 0).ctl.sec.busy = false ∧ (tMbx .recoveryWait 0).ctl.sec.st ≠ .running) ∧
    ((tMbx .running 3327).cfg.mbxLen < 3328 ∧ 3328 ≤ (tMbx .running 3328).cfg.mbxLen) ∧
    ((tMbx .running 157).ctl.sec.keys.getD (Bits.field (tMbx .running 157).cfg.mbxArg 3 0) none = none ∧
      (∀ k ∈ (tMbx .running 157).ctl.sec.keys.filterMap id, k.keyId ≠ sha384 (List.replicate 157 0#8)) ∧
      (List.replicate 157 0#8).length = 157) ∧
    ((tMbx .recoveryWait 8192).ctl.sec.st ≠ .boot ∧ 8192 ≤ (tMbx .recoveryWait 8192).cfg.mbxLen ∧
      4096 ≤ (tMbx .recoveryWait 4096).cfg.mbxLen ∧ suppliedImage 4096 (.ok (some tFw)) = .past ∧
      suppliedImage 8192 (.ok (some tFw)) = .ok (some { tFw with body := [7#8] })) :=
  ⟨by decide +kernel, by decide +kernel, ⟨rfl, by simp [tMbx, tWith, State.withCtl, Ctl.onSec, tCtl], rfl⟩, by decide +kernel⟩

/-- The device with a key slot that is occupied. -/
def tKeyed : State :=
  { tWith (fun c => c.onSec fun x => { x with keys := some ⟨0, [], [], 0⟩ :: List.replicate 7 none }) with cfg := { mbxLen := 4096 } }

theorem witness_KeySlotIsOccupied :
    tKeyed.ctl.sec.st = .running ∧ tKeyed.ctl.sec.busy = false ∧ 4096 ≤ tKeyed.cfg.mbxLen ∧
    tKeyed.ctl.sec.keys.getD (Bits.field tKeyed.cfg.mbxArg 3 0) none ≠ none := by decide +kernel

theorem witness_DoeAnswersAndChangesNothingElse :
    tCtl.doe 0#8 = true ∧ tCtl.measurements (0#8).toNat = some [8#8] ∧ tCtl.doe 1#8 = false := by decide +kernel

theorem witness_BusTargetsAnswer :
    (tS.ctl.pwr.st ≠ .off ∧ tS.ctl.pwr.i3cAddr = 0x4A#7 ∧ (0x4B#7 ≠ tS.ctl.pwr.i3cAddr)) ∧
    (tWith fun c => c.onPwr fun p => { p with st := .off }).ctl.pwr.st = .off := by decide +kernel


/-! ### Register writes of the host -/

/-- The device after a region of 4 KiB was asked for, with one region more than the first. -/
def tAsk (addr len : Nat) : Fn := { tFn with regionAddr := addr, regionLen := len, regionHandle := 0x02000001#32 }

theorem witness_QueueRegistersAct :
    tCtl.served 0#8 = true ∧ tCtl.fn? 0#8 = some tFn ∧ tFn.queues.length = 4 ∧
    ((tCtl.doorbell 0#8 0 15).fn? 0#8).any (fun f => (tCtl.doorbell 0#8 0 15).fetchable f 0) = true ∧
    (pktLayout (Bits.leNat (tBytes 0x14#8 0#8) 0 1) false ≠ none ∧ pktLayout (Bits.leNat (tBytes 0xFF#8 0#8) 0 1) false = none) ∧
    ((tCtl.queueOf 0#8 1).enabled = false ∧ (tCtl.queueOf 0#8 1).resetting = false) := by decide +kernel

theorem witness_RegionsAreMadeAndFreed :
    (tWith fun c => { c with fns := [tAsk 4096 4096] }).ctl.served 0#8 = true ∧
    (tWith fun c => { c with fns := [tAsk 4096 4096] }).ctl.fn? 0#8 = some (tAsk 4096 4096) ∧
    (4096 % 4096 = 0 ∧ ((tAsk 4096 4096).issue .region (tAsk 4096 4096).nextIx).isSome = true ∧
      (tAsk 0 16000000000000).regionLen % 4096 = 0 ∧ (tAsk 0 16000000000000).regionLen ≤ 16000000000000 ∧
      ((tAsk 0 16000000000000).issue .region 9).isSome = true) ∧
    ((tAsk 4096 0).regionLen < 4096 ∧ (tAsk 1 4096).regionAddr % 4096 ≠ 0 ∧ 16000000000000 < (tAsk 0 (2 ^ 44)).regionLen) ∧
    ((tAsk 4096 4096).object .region (tAsk 4096 4096).regionHandle = some 1 ∧
      (tWith fun c => { c with fns := [tAsk 4096 4096] }).ctl.regionUsed 0#8 0x02000001#32 = true ∧
      (tWith fun c => { c with fns := [tAsk 4096 4096], objs := {} }).ctl.regionUsed 0#8 0x02000001#32 = false) := by decide +kernel

theorem witness_WriteBacksClearOnlyWhenCurrent :
    (tCtl.sec.st = .running ∧ tCtl.fn? 0#8 = some tFn ∧ tCtl.isMgmt 0#8 = true ∧ tFn.physical = true ∧
      ∀ k : Yard, (tCtl.yd k).lost = false) ∧
    ((0xFFFF#32).extractLsb' 16 16 = (tCtl.ev .hub).seq ∧ (0x10000#32).extractLsb' 16 16 ≠ (tCtl.ev .hub).seq) := by decide +kernel

theorem witness_RaisingAdvancesOneRegister : EvReg.site ≠ .dbg ∧ EvReg.hub ≠ .site := by decide

theorem witness_ReservedFieldsKeepTheirValue :
    ((⟨0#8, 0x40, 8, 0#64⟩ : RegAccess).off % 4 = 0 ∧ (⟨0#8, 0x40, 8, 0#64⟩ : RegAccess).width = 8 ∧
      (⟨0#8, 0x42, 2, 0#64⟩ : RegAccess).off % 4 + (⟨0#8, 0x42, 2, 0#64⟩ : RegAccess).width ≤ 4) ∧
    tCtl.fn? 0#8 = some tFn ∧ tFn.physical = true ∧ tCtl.isMgmt 0#8 = true ∧ tCtl.sec.st = .running := by decide +kernel

theorem witness_BootServesTheSecBlockAlone :
    State.reset.ctl.sec.st ≠ .running ∧ State.reset.ctl.isMgmt 0#8 = true ∧ (State.reset.ctl.fn? 0#8).isSome = true ∧
    (0x300000 / 0x100000 = 3 ∧ (4 ≠ 0 ∧ 4 ≠ 0xA00 ∧ 4 / 0x100000 ≠ 3) ∧ 2 ^ 28 - 4 < 2 ^ 28 ∧ (2 ^ 28 - 4) / 0x100000 ≠ 3) ∧
    State.reset.ctl.isMgmt 1#8 = false := by decide +kernel

/-- The device with an armed stream and a dump that is done. -/
def tDump : Dump := ⟨0, 1, 1, List.replicate 320 0#8, false, true, {}⟩
def tDbg : State := { tWith (fun c => (c.onDbg fun d => { d with armed := true }).onCof fun k => { k with dumps := [tDump] }) with
  cfg := { dumpEn := true } }

theorem witness_DeviceRegistersAct :
    tCtl.mgmtAccess 0#8 = true ∧ ((1#32).getLsbD 0 = true ∧ (0x80000000#32).getLsbD 31 = true ∧ (0x40000000#32).getLsbD 29 = false) ∧
    (tDbg.ctl.mgmtAccess 0#8 = true ∧ tDbg.ctl.dbg.armed = true ∧ tDbg.ctl.dbg.fired = false ∧ tDbg.cfg.dumpEn = true ∧ tDbg.ctl.hub.halted = false ∧
      (0x20000000#32).getLsbD 29 = true ∧
      tDbg.ctl.cof.dumps.find? (fun x => x.slot = Bits.field 0x20000000#32 1 0 && x.done) = some tDump ∧
      ((tDbg.ctl.onHub fun h => { h with uncommitted := true }).startDeviceJob (.dump 0) 1).any
        (fun x => (x.2.job? x.2.mgmt x.1).isSome) = true) ∧
    (tCtl.yardUp 0 = true ∧ Bits.field 0x0F900000#32 27 20 = (249 : Cluster).val) ∧
    (0x100 % 4 = 0 ∧ hostWritable 0x100 1#32 = some 1#32 ∧ tCtl.prs.word 0x40 ≠ 1#32 ∧ Sparse.get 0 tCtl.prs.wear 0x40 < prsRating) := by decide +kernel


/-! ### Functions, sites, power -/

/-- The virtual function in a disable sequence. -/
def tGoing (swept destroy : Bool) : Ctl := { tCtl with fns := [tFn, { tVf with st := .resetting, disable := some ⟨0, destroy, none, none, swept⟩ }] }

theorem witness_FunctionsAreDisabled :
    (tCtl.fn? 1#8 = some tVf ∧ tVf.physical = false ∧ tVf.disable = none ∧ tCtl.fn? 0#8 = some tFn ∧ tFn.physical = true ∧
      tVf.vfOf tFn.site = true) ∧
    (tGoing true false).fn? 1#8 = some { tVf with st := .resetting, disable := some ⟨0, false, none, none, true⟩ } ∧
    (tGoing true true).fn? 1#8 = some { tVf with st := .resetting, disable := some ⟨0, true, none, none, true⟩ } := by decide +kernel

/-- A device of two sites whose site B has a link state. -/
def tSite (l : Link) : State :=
  tWith fun c => { c with hub := { c.hub with dual := true, siteB := { link := l } }
                          fns := [tFn, tVf, { Fn.physicalA with num := 0x80#8, site := 1 }] }

theorem witness_SitesResetHoldAndTrain :
    ((tSite .active).ctl.site 1).link = .active ∧ ((tSite .hold).ctl.site 1).link = .hold ∧ ((tSite .training).ctl.site 1).link = .training ∧
    (tSite .active).cfg.holdTime ≠ 0 ∧
    ((tSite .active).ctl.isMgmt 0#8 = true ∧ (tSite .active).ctl.served 0#8 = true ∧ (tSite .active).ctl.fn? 0#8 = some tFn ∧ tFn.site ≠ 1) ∧
    (tCtl.hub.dual = false ∧ tCtl.hub.siteA.link = .active ∧ tCtl.hub.siteA.degraded = false) := by decide +kernel

theorem witness_SitesWithoutHoldTime :
    ((tSite .active).ctl.site 1).link = .active ∧ ({ tSite .active with cfg := { holdTime := 0 } } : State).cfg.holdTime = 0 := by decide +kernel

theorem witness_ResetsClearVolatileState :
    tCtl.pwr.st.mains = true ∧ tCtl.pwr.refclk = true ∧
    ((tWith fun c => c.onPwr fun p => { p with leakN := false }).ctl.pwr.leakN = false ∧ ({ leakOff := true } : Cfg).leakOff = true) ∧
    (tCtl.mgmtAccess 0#8 = true ∧ Bits.field 0x57520001#32 31 16 = 0x5752 ∧ (0x57520001#32).getLsbD 0 = true) ∧
    Bits.field 0x57530001#32 31 16 ≠ 0x5752 := by decide +kernel

def tOff : State := tWith fun c => c.onPwr fun p => { p with st := .standby, rstN := false, modEn := true }

theorem witness_PinsActAndRaiseTheirEvents :
    (tWith fun c => c.onPwr fun p => { p with modEn := false }).ctl.pwr.modEn = false ∧
    (tOff.ctl.pwr.modEn = true ∧ tOff.ctl.pwr.pg = true ∧ tOff.ctl.pwr.trip = 0 ∧ tOff.ctl.pwr.refclk = true ∧ tOff.ctl.pwr.rstN = false ∧
      tOff.ctl.ldg.warm = false) ∧
    (tWith fun c => c.onPwr fun p => { p with refclk := false }).ctl.pwr.refclk = false ∧ tCtl.pwr.leakN = true ∧
    (tWith fun c => c.onPwr fun p => { p with leakN := false }).ctl.pwr.leakN = false := by decide +kernel

/-- Readings at one level in every die and stack. -/
def tTemps (die hub inlet : Nat) : Temps :=
  ⟨List.replicate 8 ⟨die, die⟩, List.replicate 8 ⟨die, die⟩, List.replicate 8 ⟨die, die⟩, ⟨hub, hub⟩, ⟨inlet, inlet⟩, ⟨40, 40⟩⟩

def tPower (p : Pwr) (current temp power : Nat) : State :=
  tWith fun c => { c with pwr := p, hub := { c.hub with grades := ⟨current, 0, temp, power⟩ } }

theorem witness_GradesFollowTemperatureAndPower :
    (tCtl.pwr.st.mains = true ∧ (∀ k : Yard, Temps.shut (tTemps 60 110 55) k = false) ∧ (tTemps 60 110 55).hub.now ≤ 110 ∧
      (tTemps 60 110 55).inlet.now ≤ 55) ∧
    ((∀ k : Yard, Temps.shut (tTemps 60 111 40) k = false) ∧ 110 < (tTemps 60 111 40).hub.now ∧ 55 < (tTemps 60 60 56).inlet.now) ∧
    ((tPower { warned := true } 1 1 0).ctl.pwr.warned = true ∧
      (tPower { warned := true } 1 1 0).ctl.hub.grades.temp ≤ (tPower { warned := true } 1 1 0).ctl.hub.grades.current) ∧
    ((tPower { cool := true } 0 1 0).ctl.pwr.cool = true ∧ (tPower { critical := true } 2 2 0).ctl.pwr.critical = true ∧
      (tPower { critical := true } 2 2 0).ctl.hub.grades.current = 2) ∧
    ((tPower { pavg := 4400001 } 1 0 1).cfg.cap < (tPower { pavg := 4400001 } 1 0 1).ctl.pwr.pavg ∧
      (tPower { pavg := 4400001 } 2 0 2).ctl.hub.halving = false) ∧
    100 * (tPower { pavg := 4179999 } 0 0 1).ctl.pwr.pavg < 95 * (tPower { pavg := 4179999 } 0 0 1).cfg.cap ∧
    (tS.withCtl (tCtl.onHub fun h => { h with halving := true })).ctl.hub.halving = true := by decide +kernel

theorem witness_FirmwareCheckRunsOrRecovers :
    State.reset.ctl.sec.st = .boot ∧ State.reset.ctl.pwr.st = .boot ∧ State.reset.ctl.pwr.pg = true ∧ State.reset.ctl.pwr.rstN = true ∧
    State.reset.ctl.pwr.refclk = true ∧ State.reset.ctl.cof.firmware none = none ∧
    State.reset.ctl.cof.firmware (some ⟨[], []⟩) = some ⟨[], []⟩ := by decide +kernel


/-- A stall of the session, of a tuning run where `work` says so. -/
def tStallOf (work : Work) (session : Handle) : Stall :=
  { fn := 0#8, session := session, job := 0x04000006#32, request := 1, work := work, tokens := [5#32], position := 0, positions := 1, count := 1
    gen := 3, image := 0, epoch := 1, adapter := 0#32, replay := false, struck := false, failedAt := none, committed := [], firstRun := []
    marks := [], views := [], pendingToken := false, bwdYard := none }
def tStall : Stall := tStallOf .decode 0x01000004#32


def tCore : CoreRef := ⟨0, 0, 0⟩
def tEntry (tier : BitVec 2) (len : Nat) (addr : BitVec 64) : BlockEntry :=
  ⟨tier, false, false, false, false, false, false, 0, false, len, 0#16, .core, 0#8, addr⟩
def tIssue (cycle : Nat) (e : BlockEntry) : FxeIssue := ⟨tCore, ⟨cycle, 100⟩, .plan e⟩

/-- A block of two units in flight from the fast tier and the shed, and one whose data are all there. -/
def tPart (tier : Tier) : Part := ⟨tier, 0, 128, false, [], []⟩
def tFlight : Flight := ⟨7, 0, 0, tEntry 0#2 2 0#64, [0], [0], [tPart .fast, tPart .shed], none, none⟩
def tWhole : Flight := { tFlight with parts := [⟨.fast, 0, 128, true, List.replicate 128 5#8, [false, true]⟩] }
def tComp : Flight := { tFlight with entry := { tEntry 0#2 2 0#64 with comp := true }, parts := [] }
def tFly (f : Flight) : State := { tS with dp := { tS.dp with flights := [f], nextFlight := 8 } }

/-- The device while yard 0 runs a microbatch of one stall, with other engines. -/
def tMicro : Micro := ⟨0, 0, some 0, 0, [], none, []⟩
def tRunning (d : Dp) : State :=
  { tWith (fun c => c.onFe fun x => { x with pipe := [{ tMicro with stalls := [tStall] }] }) with dp := d }
def tBusy : State := tRunning tS.dp


/-! ### The tick, the ledger, the hub's checks -/

def tMeter : Interval := ⟨[], [], 0, [], []⟩
def tBell (cycle : Nat) : BellIn := ⟨cycle, 0, 0, 0, 0, [], tMeter⟩

/-- A plan is selected and no tick has run. -/
def tIdle : State := tWith fun c => { c with fe := { switch := some ⟨some 3, tCmd 2, false⟩ }, objs := { c.objs with selected := none } }

/-- The cut-off of the tick is over, and every yard has nothing to run. -/
def tCut : State :=
  tWith fun c => { c with
    fe := { c.fe with cut := true }, yards := c.yards.map fun y => { y with reports := { clusters := List.range 250 } } }

theorem witness_BellsRingAndBeginATick :
    (tCut.ctl.hub.halted = false ∧ tCut.ctl.fe.ticking = true ∧ tCut.ctl.fe.cut = true ∧ tCut.ctl.tickLen = 131072 ∧
      (tBell 131072).listAt ≤ (tBell 131072).cycle ∧ (∀ k : Yard, tCut.ctl.yardDone k = true) ∧ tCut.ctl.logitsGiven (tBell 131072) = true) ∧
    (tS.ctl.fe.cut = false ∧ 131071 < tCut.ctl.tickLen ∧ 131072 < ({ tBell 131072 with listAt := 131073 } : BellIn).listAt ∧
      tBusy.ctl.yardDone 0 = false) ∧ (∀ k : Yard, (tCut.ctl.yd k).tableRewrite = []) ∧ (tIdle.ctl.fe.ticking = false ∧ tIdle.ctl.fe.switch = some ⟨some 3, tCmd 2, false⟩) ∧
    ((tBell 131072).listAt ≤ max tCtl.tickLen (tBell 131072).doneAt ∧ 131072 ≤ tCtl.tickLen + tCtl.gapOf {} (tBell 131072) ∧
      tCtl.tickLen + tCtl.gapOf {} (tBell 131073) < 131073) := by decide +kernel

def tDone : DoneIn := ⟨0, 249, 131072, 0, 0, 0, 0, 0, 0, 0⟩

theorem witness_CutoffsReportsAndPeriodsComplete :
    (tCtl.plan? = some tPlan ∧ tCtl.fe.ticking = true ∧ tCtl.fe.cut = false ∧ tCtl.hub.halted = false) ∧
    State.reset.ctl.plan? = none ∧
    (tBusy.ctl.yardUp (tBusy.ctl.home 0) = true ∧ (tBusy.ctl.yd 0).reports.clusters.contains (249 : Cluster).val = false ∧
      tBusy.dp.flights = [] ∧ tBusy.dp.waits = []) ∧
    ((tFly tFlight).dp.flights.any (fun f => f.issuer / 40 = tCtl.clu 0 0) = true ∧
      ((tBusy.dp.setWait 0 .vxe .fetch).waits).any (fun w => w.1 / 120 = tCtl.clu 0 0 && w.2 ≠ .none) = true) ∧
    ((tCtl.onYard 0 fun y => { y with reports := { clusters := [249] } }).yd 0).reports.clusters.contains (249 : Cluster).val = true ∧
    ((tIdle.ctl.onLdg fun l => { l with opening := true }).fe.ticking = false ∧
      (tIdle.ctl.onLdg fun l => { l with opening := true }).ldg.opening = true) ∧ tIdle.ctl.ldg.opening = false := by decide +kernel

/-- A layer block whose two copies stand. -/
def tBlock : MapEntry := ⟨0, 0, 0, 2 ^ 33, 2 ^ 20, 2 ^ 44 + 2 ^ 20, 0#32, 64, false, false, false, false, none⟩
def tKv : State :=
  tWith fun c => { c with objs := { c.objs with sessions := [{ tSession with map := [tBlock] }] }
                          fe := { c.fe with shed := [⟨0#8, 8192, 1, [2 ^ 20]⟩, ⟨0#8, 8192, 1, [2 ^ 44 + 2 ^ 20]⟩] } }

/-- The epoch has its one block on stack 0 of yard 0. -/
def tPlaced : State :=
  tWith fun c => c.onObjs fun o => { o with
    images := [{ tImage with records := [List.replicate 64 1#8] }]
    epochs := [{ tEpoch with placed := { blocks := [(false, some 4096)] } }] }

theorem witness_WeightsAreFound :
    (tPlaced.ctl.weightAt 0 false 4096).any (fun x => x.2.addr = 4096 && !x.2.shed && x.2.bytes.isSome) = true ∧
    tPlaced.ctl.weightAt 0 false 8192 = none ∧ (tPlaced.ctl.yd 0).restored.contains 4096 = false ∧
    ((tPlaced.ctl.onYard 0 fun y => { y with restored := [4096] }).yd 0).restored.contains 4096 = true ∧ (tPlaced.ctl.yd 0).moved = [] := by
  decide +kernel

theorem witness_RestoresUseTheGoodCopy :
    tKv.ctl.hub.halted = false ∧ tKv.ctl.plan? = some tPlan ∧
    (tKv.ctl.blockAt tPlan .fast (2 ^ 33 + 8191) = some tBlock ∧ goodShed tKv tBlock.shadow = true ∧
      (tKv.ctl.yd 0).kvRestored.contains tBlock.fast = false) ∧
    goodShed { tKv with dp := { tKv.dp with poison := [(shedKeyOf (2 ^ 20) / 64)] } } tBlock.shadow = false ∧
    (tKv.ctl.blockAt tPlan .shadow (2 ^ 20) = some tBlock ∧ tBlock.demoted = false ∧ goodFast tKv tBlock.fast (tPlan.blockBytes tBlock.yard) = true) ∧
    tKv.ctl.blockAt tPlan .mirror (2 ^ 44 + 2 ^ 20) = some tBlock := by decide +kernel

def tSealed : Sealed := ⟨3, List.replicate 320 0#8, [], [], [], false⟩

theorem witness_EnergyIsSharedAndFoliosSigned :
    ([0] : List Nat) ≠ [] ∧ 0 < 1 ∧
    (tCtl.onLdg fun l => { l with sealedFolios := [tSealed] }).ldg.sealedFolios.find? (fun x => x.number = 3 && !x.ready) = some tSealed ∧
    ([tSealed].map Sealed.size).sum ≤ folioStore ∧ tCtl.ldg.sealedFolios.find? (fun x => x.number = 3 && !x.ready) = none := by decide +kernel

def tSlot : QntSlot := ⟨0, 1, 1, 1#4, 0#4, [0x3A000000#32, 0#32, 0#32, 0#32], [], 0, [0, 0, 0, 0], [1000, 0, 0, 0], [], [0, 0, 0, 0], [], [], []⟩

theorem witness_WindowsCloseAndConfigurationIsChecked :
    ((tCtl.onHub fun h => { h with qnt := [(63, tSlot)] }).hub.qnt.find? (fun x => x.1 = (63 : Fin 64).val) = some (63, tSlot) ∧ tSlot.left = 0) ∧
    (tCtl.sec.st = .running ∧ tS.cfg.checkEn = true ∧ tCtl.hub.uncommitted = false ∧ tCtl.hub.mismatch = false) ∧
    ({ checkEn := false } : Cfg).checkEn = false ∧ State.reset.ctl.sec.st ≠ .running := by decide +kernel

/-- The configuration in force differs from the reference. -/
def tDrift : State := tWith fun c => c.onHub fun h => { h with crcRef := tS.cfg.crc + 1#32 }

theorem other_word (x : Word) : x ≠ x + 1#32 := by bv_omega

theorem witness_ConfigurationDrifts :
    tDrift.ctl.sec.st = .running ∧ tDrift.cfg.checkEn = true ∧ tDrift.ctl.hub.uncommitted = false ∧ tDrift.cfg.crc ≠ tDrift.ctl.hub.crcRef ∧
      tDrift.ctl.hub.mismatch = false := ⟨rfl, rfl, rfl, other_word _, rfl⟩

theorem witness_HangsFreezeTheDevice :
    (tS.ctl.hub.halted = false ∧ tS.ctl.fe.ticking = true ∧ tS.cfg.hangLimit * tS.ctl.tickLen = 8388608 ∧ 8388607 < 8388608 ∧ 20000 ≤ 20000 ∧
      19999 < 20000) ∧
    (tBusy.ctl.yardUp (tBusy.ctl.home 0) = true ∧ (tBusy.ctl.yd 0).reports.clusters.contains (0 : Cluster).val = false ∧
      (tBusy.ctl.yardStalls 0).isEmpty = false ∧ tBusy.ctl.tickLen < 131073 ∧ tBusy.ctl.tickLen ≤ 131072 ∧ 131071 < tBusy.ctl.tickLen) ∧
    seqDone tBusy 1 0 = true ∧
    ((tWith fun c => c.onCof fun k => { k with dumps := [{ tDump with done := false }] }).ctl.cof.dumps = [{ tDump with done := false }] ∧
      ({ autoReset := false } : Cfg).autoReset = false ∧ tS.cfg.autoReset = true) := by decide +kernel

/-- A stream record that waits for its copy. -/
def tRec : JRec := ⟨1, 0, 1, 1, 0, 5, 0, 0, []⟩
def tStream : State :=
  { tWith (fun c => c.onDbg fun d => { d with recs := [tRec], copyNext := 1 }) with cfg := { streamEn := true, sampleEn := true, cat := 1#7 } }

theorem witness_SamplesAndStreamRecords :
    (tStream.cfg.sampleEn = true ∧ tStream.cfg.sampleYards.getLsbD 0 = true ∧ tStream.ctl.yardUp 0 = true ∧ tStream.ctl.fe.ticking = true ∧
      tStream.ctl.hub.halted = false ∧ sampleCycle 0 0 tStream.cfg.log2i 65536 = true ∧ tStream.cfg.cat.getLsbD 0 = true ∧ 3072 < 3073) ∧
    (tStream.cfg.streamEn = true ∧ tStream.ctl.sec.st = .running ∧
      tStream.ctl.dbg.recs.find? (fun x => tStream.ctl.dbg.copyNext ≤ x.seq && x.typ ≠ 0) = some tRec ∧
      tStream.ctl.dbg.recs.all (fun x => tStream.ctl.dbg.copyNext < x.seq) = false ∧
      (tStream.ctl.dbg.tail + tStream.cfg.streamUnits - tStream.cfg.streamHead % tStream.cfg.streamUnits) % tStream.cfg.streamUnits + tRec.len <
        tStream.cfg.streamUnits) := by decide +kernel

/-- Records 1 and 2 were overwritten before they were copied; and a ring of the host that is full. -/
def tLost : State := tStream.withCtl (tStream.ctl.onDbg fun d => { d with recs := [{ tRec with seq := 3 }] })
def tFull : State := { tStream.withCtl (tStream.ctl.onDbg fun d => { d with tail := tStream.cfg.streamUnits - 1 }) with
  cfg := { tStream.cfg with streamHead := 0 } }

theorem witness_StreamGapAndFullRing :
    (tLost.ctl.dbg.recs.find? (fun x => tLost.ctl.dbg.copyNext ≤ x.seq && x.typ ≠ 0) = some { tRec with seq := 3 } ∧
      tLost.ctl.dbg.recs.all (fun x => tLost.ctl.dbg.copyNext < x.seq) = true) ∧
    tFull.ctl.dbg.recs.find? (fun x => tFull.ctl.dbg.copyNext ≤ x.seq && x.typ ≠ 0) = some tRec ∧
    tFull.cfg.streamUnits ≤
      (tFull.ctl.dbg.tail + tFull.cfg.streamUnits - tFull.cfg.streamHead % tFull.cfg.streamUnits) % tFull.cfg.streamUnits + tRec.len := by
  decide +kernel

/-- A queue with a record just written, and a session with an entry just written. -/
def tPosted : Rec := ⟨7#16, 0#16, 0#32, 5, none, 0, false, true, none⟩
def tPost : State :=
  tWith fun c => { c with
    fns := [{ tFn with queues := [{ enabled := true, tail := 10, head := 15, cqTail := 1, recent := [tPosted] }, {}, {}, {}] }]
    objs := { c.objs with sessions := [{ tSession with written := [⟨1#32, 1, true, false, 0#16, 0#16⟩], tail := 1 }] } }

theorem witness_HostFaultsTakeBackWrites :
    (tPost.ctl.fn? 0#8).any (fun f => f.queues.length = 4 && Nat.blt 0 (min 1 (f.queue 0).recent.length) && tPost.ctl.mayFetch f 0 &&
      !tPost.ctl.mayFetch f 3 && (f.queue 0).faultAddr = none) = true ∧
    (tPost.ctl.objs.sessions.find? (fun x => x.fn = 0#8 && handleOf .session x.ix = 0x01000004#32)).any (fun x => Nat.blt 0 (min 1 x.written.length)) =
      true := by decide +kernel

def tWaits : Job := { tJob 8 (.activate 0 false false (some 1) none [] false false) with st := .waiting, wait := 3 }
def tInstall : Job := tJob 8 (.install 0 2 [])

theorem witness_JobsAdvanceInTheirSteps :
    ((tWith fun c => c.onObjs fun o => { o with jobs := [tWaits] }).ctl.job? 0#8 (ixOf 0x04000008#32) = some tWaits ∧ tWaits.over = false ∧
      tWaits.st = .waiting ∧ tWaits.wait = 3 ∧ tWaits.st ≠ .suspended) ∧
    (tWith fun c => c.onObjs fun o => { o with jobs := [tWaits] }).ctl.epoch? 0 1 = some tEpoch ∧ (tJob 6 .tuning).st ≠ .waiting ∧
    (tCtl.job? 0#8 (ixOf 0x04000006#32) = some (tJob 6 (.planLoad 9#128 10)) ∧ (tJob 6 (.planLoad 9#128 10)).over = false ∧
      (tJob 6 (.planLoad 9#128 10)).st = .running ∧ (tJob 6 (.planLoad 9#128 10)).wait ≠ 8 ∧
      (tCtl.onObjs fun o => { o with jobs := [{ tJob 6 (.planLoad 9#128 10) with wait := 8 }] }).job? 0#8 6 =
        some { tJob 6 (.planLoad 9#128 10) with wait := 8 } ∧ tCtl.planLoaded? .xlat = .inr Status.translation) := by decide +kernel

/-- A manifest of one table and one block, its tables clean. -/
def tManifest : List Byte :=
  Bits.toLe 0x4F57494D 4 ++ Bits.toLe 1 2 ++ List.replicate 114 0#8 ++ Bits.toLe 1 4 ++ Bits.toLe 1 4 ++ List.replicate 384 0#8 ++
    List.replicate 3732 0#8

theorem witness_ManifestReads : (manifestOf tManifest).isSome = true := by decide +kernel

/-- An ECDSA key, and its signature over the digest of the plan's body, made outside the model. -/
def tEcKey : List Byte :=
  4#8 :: (Bits.toBe 0x87195e3ba1bbf029cea455bfdaee6bdb4cc7f819a33fdfb62e6f6ec3722b4683129ef2409b8a8522ed8bbd3a4a4ffcc4 48 ++
    Bits.toBe 0x7a362d901506bbaa456f44969b58c76b10dfc03c601c6f1f18c6bbd28f33a2120842b41f524f54410ea4279f58afe5ec 48)
def tEcSig : List Byte :=
  Bits.toBe 0x06895b6b98e94533fc1b27d1401b4e2e0262cbde873e623b65def56eb883afb0416fee7ce7506c8446082f1ab8b61bca 48 ++
    Bits.toBe 0xd79c8104b79b745568ff7709074e060b6a257c6fe397678e916ac566fa6fff6076e08484adadc4b9a72ea37db63ec206 48

/-- The last of three leaves is carried up unpaired and then joins its left neighbour (R348, R356). -/
theorem test_tally_climbs :
    tallyClimb 17 2 3 (sha384 [0#8, 3#8])
      [sha384 (1#8 :: (digestBytes (sha384 [0#8, 1#8]) ++ digestBytes (sha384 [0#8, 2#8])))] =
        some (merkleRoot [[1#8], [2#8], [3#8]], []) := by decide +kernel

/-- A multiply-accumulate counts in the class of its slower operand (R84, R339). -/
theorem test_mac_classes : macClass .int4 .e2m1 = .mac4 ∧ macClass .int4 .e4m3 = .mac8 ∧ macClass .bf16 .e2m3 = .mac16 ∧
    macClass .fp16 .fp32 = .mac32 := by decide

theorem test_ecdsa_verifies : ecdsaVerifies tEcKey (sha384 [5#8]) tEcSig = true := by decide +kernel

theorem test_ecdsa_refuses_another_digest : ecdsaVerifies tEcKey 0 tEcSig = false := by decide +kernel

/-- The SHA-256 of "abc", from FIPS 180-4. -/
theorem test_sha256 : sha256 [0x61#8, 0x62#8, 0x63#8] = Bits.toBe 0xba7816bf8f01cfea414140de5dae2223b00361a396177a9cb410ff61f20015ad 32 := by
  decide +kernel

theorem test_keys_well_formed : keysWellFormed (tEcKey ++ (Bits.toBe 2 4 ++ Bits.toBe 8 4 ++ Bits.toBe 4 4 ++ List.replicate 48 0#8)) = true ∧
    keysWellFormed (List.replicate 157 0#8) = false := by decide +kernel

/-- A device with a key slot for plans, and a plan without KV, routers and adapter paths that both of its signatures verify. -/
def tKeySlot : KeySlot := ⟨0, tEcKey, zeroHssKey [5#8], 2⟩
def tKeys : Ctl := { tCtl with sec := { tCtl.sec with keys := some tKeySlot :: List.replicate 7 none } }
def tSound : Plan := { tPlan with kvDescs := [], nmaLayers := [], routers := [], paths := [], sig := ⟨0, tEcSig, zeroHss [5#8]⟩ }

/-- A plan that its two signatures verify is accepted. -/
theorem witness_PlanLoads : tKeys.planLoaded? (.ok (some tSound)) = .inl tSound := by
  have hs : tKeys.signed 1 tSound.body tSound.sig = true := by
    have hk : tKeys.signer tSound.sig.keyId 1 = some tKeySlot := rfl
    have he : ecdsaVerifies tKeySlot.ecdsa (sha384 tSound.body) tSound.sig.ecdsa = true := test_ecdsa_verifies
    have hh : hssVerifies tKeySlot.hss tSound.body tSound.sig.hss = true := zeroHss_verifies [5#8]
    simp only [Ctl.signed, hk, dualVerifies, he, hh, Bool.and_self]
  have hp : planOk tKeys tSound = true := by decide +kernel
  have hr : tKeys.planRoom tSound.name = true := by decide +kernel
  simp [Ctl.planLoaded?, hs, hp, hr]

/-! ### Streams -/

theorem witness_EntriesIssueAndBlocksLand :
    (tBusy.ctl.issues 0 (0 : Cluster).val ⟨99, 100⟩ = false ∧ tBusy.ctl.entryOf tBusy.dp tCore (.list 0 0 0) = none) ∧
    (tBusy.ctl.issues 0 (0 : Cluster).val ⟨100, 100⟩ = true ∧
      tBusy.ctl.entryOf tBusy.dp tCore (tIssue 100 (tEntry 0#2 (tableBase / 64) 0#64)).entry = some (tEntry 0#2 (tableBase / 64) 0#64)) ∧
    (tBusy.ctl.entryFits (tEntry 0#2 (tableBase / 64) 0#64) = true ∧
      tBusy.ctl.issueReady tBusy.dp 0 (tBusy.ctl.receivers tCore (tEntry 0#2 (tableBase / 64) 0#64)) (tEntry 0#2 (tableBase / 64) 0#64) = true) ∧
    tBusy.ctl.issueReady (tFly tWhole).dp 0 (tBusy.ctl.receivers tCore (tEntry 0#2 2 0#64)) { tEntry 0#2 2 0#64 with queue := 3 } = false ∧
    tBusy.ctl.entryFits (tEntry 0#2 (tableBase / 64 + 1) 0#64) = false ∧
    ((tFly tWhole).dp.flight? 0 7 = some tWhole ∧ tWhole.whole = some (List.replicate 128 5#8, [false, true]) ∧
      (tFly tWhole).dp.mem.wf = true ∧ tWhole.entry.store = .core ∧ tWhole.cores = [0] ∧
      ({ tWhole with entry := { tWhole.entry with store := .cluster } } : Flight).clusters = [0]) ∧
    ((tFly tFlight).dp.flight? 0 7 = some tFlight ∧ tFlight.whole = none) := by decide +kernel

theorem witness_TierReadsDeliverDataOrPoison :
    ((tFly tFlight).dp.flight? 0 7 = some tFlight ∧ tFlight.parts[0]? = some (tPart .fast) ∧ tFlight.parts[1]? = some (tPart .shed) ∧
      (tPart .fast).done = false ∧ fastIn 0 128 = true ∧ (tFly tFlight).ctl.shedIn 0 128 = true) ∧
    ((∀ n < 128 / 64, (tFly tFlight).dp.poison.contains (fastKey 0 / 64 + n) = false ∧ (tFly tFlight).ctl.addrLost (0 + 64 * n) = false) ∧
      (∀ n < 128 / 64, (tFly tFlight).dp.poison.contains (shedKeyOf 0 / 64 + n) = false) ∧
      ((tFly tFlight).ctl.port (0 / 2 ^ 44)).up = true ∧ ((tFly tFlight).ctl.port (0 / 2 ^ 44)).held = false ∧
      (tFly tFlight).dp.unfenced = []) ∧
    (fastIn (2 ^ 41) 64 = false ∧ (tFly tFlight).ctl.shedIn (2 ^ 46) 64 = false) ∧
    ((tFly tComp).dp.flight? 0 7 = some tComp ∧ tComp.entry.comp = true ∧ tComp.expanded = none) := by decide +kernel

theorem witness_ScatterWritesAreGatedAndFenced :
    (tBusy.ctl.issues 0 (0 : Cluster).val ⟨0, 0⟩ = true ∧ tBusy.ctl.issues 0 (0 : Cluster).val ⟨0, 1⟩ = false ∧
      tBusy.ctl.sxeFits (tEntry 0#2 512 0#64) .entry (64 * 512) = true ∧
      tBusy.dp.gateOpen 0 { tEntry 0#2 2 0#64 with gated := true, rel := true } = false ∧
      tBusy.ctl.sxeFits { tEntry 0#2 2 0#64 with gated := true, rel := true } .entry 128 = true) ∧
    (tBusy.dp.gateOpen 0 (tEntry 0#2 2 0#64) = true ∧ tBusy.ctl.sxeTargets tCore (tEntry 0#2 2 0#64) .entry 128 = [(fastKey 0, 0, 128)] ∧
      fastKey 0 % 64 = 0 ∧ tBusy.dp.unfenced = [] ∧ tBusy.dp.mem.wf = true) ∧
    (tBusy.ctl.sxeFits (tEntry 0#2 513 0#64) .entry (64 * 513) = false ∧ Fmt.integer .int8 = true ∧ Fmt.integer .e4m3 = false ∧
      isElement .e4m3 = true) ∧
    (tBusy.ctl.segment 0 (0 : Cluster).val = true ∧ (⟨1, 2⟩ : When).cycle < (⟨1, 2⟩ : When).sched) ∧
    (tBusy.ctl.plan? = some tPlan ∧ tBusy.ctl.microIn 0 = some { tMicro with stalls := [tStall] } ∧ tBusy.ctl.microIn 1 = none) := by decide +kernel

def tRun0 : State := tWith fun c => c.onFe fun x => { x with pipe := [tMicro] }

theorem witness_RefreshesAreKeptAndForced :
    (tRun0.ctl.yardBusy 0 = false ∧ 3840 ≤ ((3840 : Nat) : Int) - (tRun0.ctl.channel 0 0).refreshed ∧
      ((3839 : Nat) : Int) - (tRun0.ctl.channel 0 0).refreshed < 3840) ∧
    (tBusy.ctl.yardBusy 0 = true ∧ 7680 < ((7681 : Nat) : Int) - (tBusy.ctl.channel 0 0).refreshed ∧
      ((7680 : Nat) : Int) - (tBusy.ctl.channel 0 0).refreshed ≤ 7680) := by decide +kernel

def tNma (layer : BitVec 12) : NmaOp := ⟨tCore, 0, 0#16, layer, 0, 0, 0, 0, 0x1000, 0x2000, 0x4000, ⟨0, 0⟩, false⟩

theorem witness_NearMemoryEnginesComplete :
    tBusy.ctl.issues 0 (0 : Cluster).val ⟨0, 0⟩ = true ∧ tBusy.ctl.issues 1 (0 : Cluster).val ⟨0, 0⟩ = false ∧
    (tBusy.ctl.kvDesc 0 0).any (fun x => x.format = 8 && x.kind = 0 && tBusy.ctl.nmaFits (tNma 0#12) x) = true ∧
    (tBusy.ctl.kvDesc 0 1).any (fun x => x.format = 10 && x.kind = 1 && tBusy.ctl.nmaFits (tNma 1#12) x) = true ∧
    (tBusy.ctl.kvDesc 0 0).any (fun x => !tBusy.ctl.nmaFits { tNma 0#12 with mass := 0x8000, triples := 0x7FC0 } x) = true ∧
    tBusy.ctl.nmaBad tBusy.dp (tNma 0#12) ⟨0, 0, 0, 8, 64, 32, 4, 8192, 0, 0x3F800000#32⟩ = [] ∧ tBusy.ctl.kvDesc 0 2 = none := by decide +kernel


/-! ### Engines -/

def tOp : EngOp := ⟨tCore, ⟨0#16, 0#12, 0⟩, ⟨0, 0⟩⟩
def tPlace (off : Nat) : Place := ⟨off, none, false⟩
def tSrc (off : Nat) (f : Fmt) : Src := ⟨tPlace off, f, 0, .scalar 0⟩
def tDst (off : Nat) (f : Fmt) : Dst := ⟨off, f, 0, false, 0x3F800000#32, 0⟩

/-- A row of one scaled block: its scale byte at 0, its element field behind the 64 scale bytes. -/
def tScaled (f : Fmt) : Src := ⟨tPlace 0, f, 0, .scalar 0⟩

/-- What `Ready` says, as a check. -/
def readyCheck (s : State) (o : EngOp) (needs : List Need) (ls : List Loc) : Bool :=
  s.ctl.issues o.core.yard o.core.cluster.val o.at0 && !(s.ctl.seq o.core.yard o.core.cluster.val).faulty &&
    (needs.zip (s.dp.needsAt s.ctl o needs)).length == ls.length &&
    ((needs.zip (s.dp.needsAt s.ctl o needs)).zip ls).all fun p => p.1.2 == SrcAt.place p.2 p.1.2.mark && p.1.1.fits p.2

theorem ready_of {s : State} {o : EngOp} {needs : List Need} {ls : List Loc} (h : readyCheck s o needs ls = true) : Ready s o needs ls := by
  simp only [readyCheck, Bool.and_eq_true, Bool.not_eq_true', beq_iff_eq, List.all_eq_true] at h
  refine ⟨h.1.1.1, h.1.1.2, List.forall₂_iff_zip.2 ⟨h.1.2, fun {a l} m => ?_⟩⟩
  have q := h.2 _ m
  exact ⟨⟨_, q.1⟩, q.2⟩

/-- The places of an operand in core store and of a zero point that no memory holds. -/
def tAt (off : Nat) : List Loc := [⟨.core, off⟩, ⟨.core, 0⟩]

theorem ready0 : Ready tBusy tOp [] [] := ready_of (by decide +kernel)
theorem ready1 : Ready tBusy tOp (laneNeeds [tSrc 0 .fp32] 32) (tAt 0) := ready_of (by decide +kernel)
theorem ready_scaled : Ready tBusy tOp (laneNeeds [tScaled .e2m1] 32) (tAt 0) := ready_of (by decide +kernel)
theorem ready2 : Ready tBusy tOp (laneNeeds [tSrc 0 .fp32, tSrc 0x7FC0 .bf16] 32) (tAt 0 ++ tAt 0x7FC0) := ready_of (by decide +kernel)
theorem ready3 : Ready tBusy tOp (laneNeeds [tSrc 0 .fp32, tSrc 0 .int8, tScaled .e2m1] 32) (tAt 0 ++ tAt 0 ++ tAt 0) :=
  ready_of (by decide +kernel)

/-- An operand behind a queue that holds no token. -/
def tQueued : Src := { tSrc 0 .fp32 with place := ⟨0, some 0, true⟩ }

theorem waits_for_queue : tBusy.waitOf tOp (laneNeeds [tQueued] 32) = some (.vxe, .fetch) := by decide +kernel

theorem witness_LaneInstructionsWriteTheirResults :
    isElement (tDst 0x100 .e4m3).fmt = true ∧ dstFits (tDst 0x100 .e4m3) 32 = true ∧ dstFits (rawDst (tableBase - 128)) 32 = true ∧
    Ready tBusy tOp (laneNeeds [tSrc 0 .fp32] 32) (tAt 0) ∧ Ready tBusy tOp (laneNeeds [tScaled .e2m1] 32) (tAt 0) ∧
    Ready tBusy tOp (laneNeeds [tSrc 0 .fp32, tSrc 0x7FC0 .bf16] 32) (tAt 0 ++ tAt 0x7FC0) ∧
    Ready tBusy tOp (laneNeeds [tSrc 0 .fp32, tSrc 0 .int8, tScaled .e2m1] 32) (tAt 0 ++ tAt 0 ++ tAt 0) ∧
    (tBusy.ctl.issues 0 (0 : Cluster).val ⟨0, 0⟩ = true ∧ tBusy.ctl.issues 0 (0 : Cluster).val ⟨0, 1⟩ = false ∧
      tBusy.waitOf tOp (laneNeeds [tQueued] 32) = some (.vxe, .fetch) ∧ tBusy.waitOf tOp (laneNeeds [tSrc 0 .fp32] 32) = none ∧
      dstFits (rawDst (tableBase - 127)) 32 = false) ∧
    ((tBusy.withCtl (tBusy.ctl.onYard 0 fun y => y.onSeq 0 fun q => { q with faulty := true })).ctl.seq 0 0).faulty = true :=
  ⟨by decide +kernel, by decide +kernel, by decide +kernel, ready1, ready_scaled, ready2, ready3, by decide +kernel, by decide +kernel⟩

theorem witness_ReductionsAndStatistics :
    Ready tBusy tOp (laneNeeds [tSrc 0 .fp32] 32) (tAt 0) ∧ Ready tBusy tOp [] [] ∧ dstFits (rawDst (tableBase - 4)) 1 = true ∧
    dstFits (rawDst (tableBase - 8)) 2 = true ∧ dstFits (tDst 0 .e2m1) 2 = true ∧ Sparse.wf {} tBusy.dp.wparts = true ∧
    Sparse.wf {} tBusy.dp.sparts = true :=
  ⟨ready1, ready0, by decide +kernel, by decide +kernel, by decide +kernel, rfl, rfl⟩

theorem witness_DotProductsAccumulate :
    Ready tBusy tOp (dotNeeds (tSrc 0 .fp32) (tSrc 0x7FC0 .bf16) 32) (tAt 0 ++ tAt 0x7FC0) ∧ Ready tBusy tOp [] [] ∧
    startFits (.load 0x7FFC) 4 = true ∧ startFits (.load 0x7FF8) 8 = true ∧ locReadable ⟨.core, 0x7FF8⟩ 8 = true ∧
    locWritable ⟨.core, 0⟩ (512 * readoutBytes false false) = true :=
  ⟨ready_of (by decide +kernel), ready0, by decide +kernel, by decide +kernel, by decide +kernel, by decide +kernel⟩

theorem witness_RowFunctionsWriteTheirRules :
    (Ready tBusy tOp (smxNeeds (tSrc 0 .fp32) (tSrc 0x100 .bf16) 2 1) ((tAt 0 ++ tAt 0x100)) ∧ locWritable ⟨.core, 0x1000⟩ (tripleBytes 1) = true ∧
      allMasked [0xFF800000#32, 0xFF800000#32] = true ∧ allMasked [0#32, 0xFF800000#32] = false) ∧
    Ready tBusy tOp [⟨tPlace 0, .vxe, [(0, tripleBytes 16)]⟩, ⟨tPlace 0x100, .vxe, [(0, tripleBytes 16)]⟩] [⟨.core, 0⟩, ⟨.core, 0x100⟩] ∧
    Ready tBusy tOp [⟨tPlace 0, .vxe, [(0, 64 + 4 * 16)]⟩] [⟨.core, 0⟩] ∧
    (Ready tBusy tOp (⟨tPlace 0, .vxe, [(0, 16 * 512)]⟩ :: (some 0x7FF8).toList.map fun p => ⟨tPlace p, .vxe, [(0, 8)]⟩)
        [⟨.core, 0⟩, ⟨.core, 0x7FF8⟩] ∧ isElement (tDst 0x100 .int8).fmt = true ∧ dstFits (tDst 0x100 .int8) 512 = true) ∧
    (Ready tBusy tOp (rowNeeds [(tPlace 0, 0x2000)]) [⟨.core, 0⟩] ∧ Fmt.integer .int4 = true ∧ Fmt.integer .bf16 = false ∧
      locWritable ⟨.cluster, 0⟩ (codeBytes .int4 65536) = true ∧ locWritable ⟨.core, tableBase - 8⟩ 8 = true ∧
      tBusy.waitOf tOp (rowNeeds [(tPlace 0, 0x2000)]) = none ∧
      tBusy.waitOf tOp (rowNeeds [(⟨0, some 0, true⟩, 0x2000), (⟨0, some 0, true⟩, 0x2000)]) = some (.vxe, .fetch)) ∧
    (Ready tBusy tOp [⟨tPlace 0, .vxe, [(0, 4 * 64)]⟩, ⟨tPlace 0x400, .vxe, [(0, 16 * 64)]⟩] [⟨.core, 0⟩, ⟨.core, 0x400⟩] ∧
      locWritable ⟨.core, 0⟩ (codeBytes .bf16 64) = true) ∧
    (Ready tBusy tOp (laneNeeds [tSrc 0 .fp32] 32) (tAt 0) ∧ dstFits (sfnDst .bf16 0x100 0 false) 32 = true ∧
      tBusy.ctl.slotHeld (0 : Fin 64).val = true ∧ tBusy.ctl.slotReads (0 : Fin 64).val = false ∧ tBusy.ctl.slotHeld (14 : Fin 64).val = false ∧
      tBusy.ctl.slotHeld (63 : Fin 64).val = false) :=
  ⟨⟨ready_of (by decide +kernel), by decide +kernel, by decide +kernel, by decide +kernel⟩, ready_of (by decide +kernel),
    ready_of (by decide +kernel), ⟨ready_of (by decide +kernel), by decide +kernel⟩, ⟨ready_of (by decide +kernel), by decide +kernel⟩,
    ⟨ready_of (by decide +kernel), by decide +kernel⟩, ready1, by decide +kernel⟩

/-- A slot whose micro-program reads the table store. -/
def tTabled : State :=
  tBusy.withCtl (tBusy.ctl.onObjs fun o => { o with
    plans := [⟨3, { tPlan with micro := [⟨63, [], [0x20000000#32]⟩] }, 1, false⟩] })

theorem witness_SfnTableError : tTabled.ctl.slotHeld (63 : Fin 64).val = true ∧ tTabled.ctl.slotReads (63 : Fin 64).val = true ∧
    readyCheck tTabled tOp (laneNeeds [tSrc 0 .fp32] 32) (tAt 0) = true := by decide +kernel

/-! ### Routing and tuning -/

def tAssign : Assign := ⟨0, 0, 7, 0, 2, 0x3F800000#32, 3, false⟩
def tTable : SlotTable := slotTable [0, 0, 1, 0, 0, 0, 0, 0] 8 4
def tLayer : RouteLayer := ⟨0, 0, [tAssign], [(0, [0, 0, 1, 0, 0, 0, 0, 0])], some tTable, true, [(0, [0, 0, 0, 0, 0, 0, 0, 0])], [], [], []⟩

/-- The header of a return record at the front of an area of cluster 0: its generation, then token 7 of cluster 0, expert 2. -/
def tHeader (gen : Nat) : Mem := Mem.writeN (Mem.writeN [] (clusterKey 0 0) (Bits.toLe (gen * 2 ^ 44 + 7 * 2 ^ 24) 8)) (clusterKey 0 8) [2#8]

def tRouted (gen : Nat) : State := tRunning { tS.dp with routes := [tLayer], gens := [⟨0, 0, 3⟩], mem := tHeader gen }

/-- The plan's one router. -/
def tRouter : Router := (tPlan.routers.head?).getD ⟨0, 0, 0, 0, false, false, false, 0, 0, 0, 0, 0, false, 0, 0#256, 0#256⟩

/-- A device whose router sends a token to two experts, and where its first record has come back. -/
def tTwo : State :=
  (tRunning { tS.dp with routes := [{ tLayer with kept := [(7, 1, [0#32], 0#32, false)] }], gens := [⟨0, 0, 3⟩], mem := tHeader 3 }).withCtl
    (tBusy.ctl.onObjs fun o => { o with plans := [⟨3, { tPlan with routers := tPlan.routers.map fun r => { r with k := 2 } }, 1, false⟩] })

theorem witness_RoutingStepsFollowTheirRules :
    ((tRouted 3).ctl.hub.halted = false ∧ ((tRouted 3).ctl.router 0 0).any (fun r => r.k = 1 && r.nexp = 8 && r.nslot = 8 && r.tps = 4) = true ∧
      (tRouted 3).ctl.router 1 0 = none) ∧
    Ready (tRouted 3) tOp [⟨tPlace 0x7FE0, .vxe, [(0, 4 * 8)]⟩] [⟨.core, 0x7FE0⟩] ∧ ((tRouted 3).dp.genOf 0 0 = 3 ∧ tBusy.dp.genOf 0 0 = 0) ∧
    ((tRouted 3).ctl.issues 0 0 ⟨0, 0⟩ = true ∧ (tRouted 3).ctl.issues 0 0 ⟨0, 1⟩ = false) ∧
    (((tRouted 3).dp.route 0 0).assigns.find? (fun a => a.home = 0 && a.token = 7 && a.kr = 0) = some tAssign ∧
      ((tRouted 3).dp.route 0 0).slotPos tAssign = some (0, 0) ∧
      ((tRouted 3).dp.route 0 0).assigns.find? (fun a => a.home = 0 && a.token = 8 && a.kr = 0) = none ∧
      readyCheck (tRouted 3) tOp [⟨tPlace 0, .vxe, [(0, rowBytesOf (rowFmtOf tRouter) 64)]⟩] [⟨.core, 0⟩] = true ∧
      (clusterBytes - 192) + 0 * sendBytes tRouter 64 + sendBytes tRouter 64 ≤ clusterBytes) ∧
    ((tRouted 3).dp.recordFresh 0 tRouter (returnRec (tRouted 3) tOp tRouter 0 0 0x100 1).1
        (((tRouted 3).dp.route 0 0).stallOf (returnRec (tRouted 3) tOp tRouter 0 0 0x100 1).1.tag) = true ∧
      (returnRec (tRouted 3) tOp tRouter 0 0 0x100 1).1.kr = 0 ∧
      (tRouted 4).dp.recordFresh 0 tRouter (returnRec (tRouted 4) tOp tRouter 0 0 0x100 1).1
        (((tRouted 4).dp.route 0 0).stallOf (returnRec (tRouted 4) tOp tRouter 0 0 0x100 1).1.tag) = false ∧
      locReadable ⟨.core, 0x100⟩ 4 = true ∧ locWritable ⟨.core, tableBase - 4⟩ (4 * 1) = true) ∧
    ((tTwo.ctl.router 0 0).any (fun r => r.k = 2 && tTwo.dp.recordFresh 0 r (returnRec tTwo tOp r 0 0 0x100 1).1
        ((tTwo.dp.route 0 0).stallOf (returnRec tTwo tOp r 0 0 0x100 1).1.tag) &&
        (returnRec tTwo tOp r 0 0 0x100 1).1.kr = 0 && (returnRec tTwo tOp r 0 0 0x100 1).1.token = 7) = true ∧
      (tTwo.dp.route 0 0).kept.find? (fun z => z.1 = 7 && z.2.1 = 1 - 0) = some (7, 1, [0#32], 0#32, false)) ∧
    (tTable.expertOf.getD 0 none = some 2 ∧ tTable.first.getD 2 0 = 0 ∧ tTable.expertOf.getD 1 none = none ∧
      (tRouted 3).ctl.expertList (tRouted 3).dp 0 0 2 0 = []) :=
  ⟨by decide +kernel, ready_of (by decide +kernel), by decide +kernel, by decide +kernel, by decide +kernel, by decide +kernel, by decide +kernel,
    by decide +kernel⟩

/-- The run with a step, and its chunk's backward stall in yard 0. -/
def tStep (visited : List Nat) : TuneStep := ⟨tCmd 2, 0x04000007#32, 2, 0x3F800000#32, [⟨2, some 1, visited⟩], 0, none, none, none⟩
def tBack : Stall := { tStallOf (.backward 2) 0x04000007#32 with bwdYard := some 0, position := 0 }
def tTune (visited : List Nat) : State :=
  { tWith (fun c => { c with fe := { c.fe with pipe := [{ tMicro with stalls := [tBack] }] }
                             objs := { c.objs with runs := [{ tRun with steps := [tStep visited] }] } }) with
    dp := { tS.dp with commit := [(0, [0])] } }

theorem witness_GradientsReduceAndUpdate :
    ((tTune []).ctl.hub.halted = false ∧ (tTune []).ctl.run? 0#8 0x04000007#32 = some { tRun with steps := [tStep []] } ∧
      (tTune []).ctl.stallIn 0 0 = some tBack ∧ tBack.work = .backward 2 ∧ tBack.bwdYard = some (0 : Yard).val ∧
      (0#16).toNat ∈ (((tTune []).dp.commit.find? (·.1 = 0)).map (·.2)).getD [] ∧
      (0 : Yard).val ∉ ((([tStep []] : List TuneStep).head?.bind fun x => x.chunks[tBack.position]?).map (·.visited)).getD []) ∧
    (0 : Yard).val ∈ ((([tStep [0]] : List TuneStep).head?.bind fun x => x.chunks[tBack.position]?).map (·.visited)).getD [] ∧
    (1#16).toNat ∉ (((tTune []).dp.commit.find? (·.1 = 0)).map (·.2)).getD [] ∧
    (tTune []).ctl.run? 1#8 0x04000007#32 = none ∧
    ((tStep [0, 1, 2, 3, 4, 5, 6, 7]).visited = true ∧ (tStep []).visited = false ∧ tRun.closing = none) ∧
    tRun.tensors.all (fun x => (updateOf tRun 0x3F800000#32 (tMul tRun.bt tRun.b2) x).finite) = true := by decide +kernel


/-! ### Faults and ageing -/

def tYard (f : Yd → Yd) : State := tWith fun c => c.onYard 0 f
def tRelief : State := tWith fun c => c.onHub fun h => { h with relief := some 3, yardsUp := 0xF7#8 }

theorem witness_SecondYardFaultStopsTheDevice :
    tRelief.ctl.hub.halted = false ∧ tRelief.ctl.hub.relief = some 3 ∧ (tRelief.ctl.yd 0).lost = false := by decide +kernel

/-- The yard's last row has a retired cluster. -/
def tRetired : State := tYard fun y => { y with retired := [31, 31, 31, 31, 31, 31, 31, 31, 31, 0] }

theorem witness_HardFaultWithoutSpareIsAYardFault :
    tRetired.ctl.hub.halted = false ∧ tRetired.ctl.yardUp 0 = true ∧ (tRetired.ctl.yd 0).freeSpare ((249 : Cluster).val / 25) = false ∧
    (coreBytes - 1 < coreBytes ∧ clusterBytes - 1 < clusterBytes) ∧
    ((tYard fun y => { y with uncorrectable := [faultKey tRetired.ctl 0 249 39 (coreBytes - 1) false / 64] }).ctl.yd 0).uncorrectable.contains
      (faultKey tRetired.ctl 0 249 39 (coreBytes - 1) false / 64) = true ∧
    tRetired.ctl.hub.relief = none ∧ tRetired.ctl.hub.reliefNext = none := by decide +kernel

theorem witness_LostYardsBringReliefSets :
    (tS.ctl.hub.halted = false ∧ (tS.ctl.yd 0).lost = false ∧ tS.ctl.hub.relief = none ∧ tS.ctl.hub.reliefNext = none) ∧
    ((tYard fun y => { y with lost := true }).ctl.yd 0).lost = true ∧
    (tRelief.ctl.hub.relief = some 3 ∧ tRelief.ctl.hub.reliefUp = false) := by decide +kernel

theorem witness_HardFaultsEnterFaultMode :
    tS.ctl.hub.halted = false ∧ tS.ctl.yardUp 0 = true ∧ (tS.ctl.yd 0).freeSpare ((0 : Cluster).val / 25) = true ∧
    (∀ x ∈ (tS.ctl.yd 0).seqs, x.2.faulty = true → x.1 / 25 = (0 : Cluster).val / 25 → x.1 = (0 : Cluster).val) ∧
    (tS.ctl.yd 0).uncorrectable.contains (faultKey tS.ctl 0 0 0 0 true / 64) = false ∧ clusterBytes ≤ clusterBytes := by decide +kernel

def tLinks (links : BitVec 8) : State := tYard fun y => { y with links := links }

theorem witness_LinksRowsChannelsAndPhases :
    ((tLinks 0x3F#8).ctl.hub.halted = false ∧ ((tLinks 0x3F#8).ctl.yd 0).linksDue.getLsbD (0 : Fin 8).val = true ∧
      linkCount (((tLinks 0x3F#8).ctl.yd 0).linksDue &&& ~~~(1#8 <<< (0 : Fin 8).val)) = 5 ∧
      linkCount (((tLinks 0x1F#8).ctl.yd 0).linksDue &&& ~~~(1#8 <<< (0 : Fin 8).val)) = 4 ∧
      ((tLinks 0x3F#8).ctl.yd 0).linksDue.getLsbD (7 : Fin 8).val = false) ∧
    ((⟨0, 1, 31#5, 5, true⟩ : RowFault).spare = true ∧ (⟨0, 1, 31#5, 5, false⟩ : RowFault).spare = false) ∧
    ((Sparse.get {} (tS.ctl.yd 0).channels (32 * (1 : Fin 2).val + (31#5).toNat)).lost = false ∧
      (tWith fun c => c.onObjs fun o => { o with selected := none }).ctl.objs.selected = none ∧
      Sparse.get 0 tS.ctl.prs.wear 0x481 < prsRating ∧ Sparse.wf 0#32 tS.ctl.prs.words = true) ∧
    ((Sparse.get {} ((tYard fun y => { y with channels := [(63, { lost := true })] }).ctl.yd 0).channels (32 * (1 : Fin 2).val + (31#5).toNat)).lost = true ∧
      (Sparse.get {} ((tYard fun y => { y with channels := [(63, { lost := true })] }).ctl.yd 0).channels (32 * (1 : Fin 2).val + (31#5).toNat)).rebuilt = false) ∧
    ((tYard fun y => { y with phases := 1 }).ctl.yd 0).phases < 2 ∧ 2 ≤ ((tYard fun y => { y with phases := 2 }).ctl.yd 0).phases := by decide +kernel

/-- Every channel of a near stack but one is lost. -/
def tThin : State := tYard fun y => { y with channels := (List.range 31).map fun i => (i, { lost := true }) }

theorem witness_ReserveHoldsOrNot :
    tFrozen.ctl.hub.halted = true ∧ tS.ctl.hub.halted = false ∧
    tS.ctl.plan?.map (fun p => planReserveHolds p (2 * (0 : Yard).val + (0 : Fin 2).val) (((tS.ctl.yd 0).lostOn 0).length + 1)) = some true ∧
    tThin.ctl.plan?.map (fun p => planReserveHolds p (2 * (0 : Yard).val + (0 : Fin 2).val) (((tThin.ctl.yd 0).lostOn 0).length + 1)) = some false ∧
    (Sparse.get {} (tThin.ctl.yd 0).channels (32 * (0 : Fin 2).val + (31#5).toNat)).lost = false ∧
    Sparse.wf {} (tThin.ctl.yd 0).channels = true := by decide +kernel

theorem witness_CofferPortsAndMargins :
    tS.ctl.hub.halted = false ∧ tS.ctl.cof.lost.has (31#5).toNat = false ∧
    (tWith fun c => c.onCof fun k => { k with lost := [31] }).ctl.cof.lost.has (31#5).toNat = true ∧
    (tS.ctl.cxl.length = 4 ∧ (tS.ctl.port (3 : Fin 4).val).up = true ∧ (tS.ctl.port (3 : Fin 4).val).held = false) ∧
    (((tWith fun c => { c with cxl := List.replicate 4 { held := true, cause := 2 } }).ctl.port 3).held = true ∧
      ((tWith fun c => { c with cxl := List.replicate 4 { held := true, cause := 2 } }).ctl.port 3).cause = 2) ∧
    (tS.ctl.yardUp 0 = true ∧ 5 ≤ ((List.range 10).filter (tS.ctl.yd 0).freeSpare).length) := by decide +kernel


/-! ### Well-formedness -/

def tRefBad : RegionRef := ⟨0x02000001#32, 2 ^ 64⟩

/-- One command of each kind that the check reads, with its operands in range. -/
def wellFormed0 : List Instr :=
  [.sessionOpen (tPkt 0#32) 0#128 0#32 tRef 64 0 0#8, .sessionAppend (tPkt 0#32) tRef 1 false (.ok []),
    .sessionGenerate (tPkt 0#32) 1 0#32 0#32 1 0 (List.replicate 8 0#32) 0#32, .sessionFork (tPkt 0#32) tRef 64,
    .prefixPin (tPkt 0#32) tRef 1 (.ok []), .prefixUnpin (tPkt 0#32) tRef 1 (.ok []), .graphStore (tPkt 0#32) tRef 1 .xlat,
    .graphPatch (tPkt 0#32) tRef 1 .xlat, .graphLaunch (tPkt 0#32) tRef tRef 0#32 1, .jobQuery (tPkt 0#32) tRef .past,
    .imageInstall (tPkt 0#32) tRef tRef tRef 0 (.ok []), .imageActivate (tPkt 0#32) false false tRef 0 (.ok []),
    .tuneOpen (tPkt 0#32) 0#128 0#32 tRef 1 0#32 0#32 0#32 0#32 (.ok []), .tuneStep (tPkt 0#32) tRef 1 0#32 (.ok []),
    .selftest (tPkt 0#32) 0#8 0 tRef [], .fnCreate (tPkt 0#32) 0 false 4096, .fnDestroy (tPkt 0#32) 1 tRef,
    .fnSetShare (tPkt 0#32) 1 0 0 0, .planLoad (tPkt 0#32) tRef 0 .xlat, .folioGet (tPkt 0#32) 0 tRef 0 .xlat,
    .ledgerConfig (tPkt 0#32) 250, .eventWriteBack 0#8 0 0#32]

def wellFormed1 : List Instr :=
  [.persistentWrite 0#8 0 0#32, .registerWrite ⟨0#8, 0, 4, 0#64⟩, .fxeEntryIssue (tIssue 0 (tEntry 0#2 0 0#64)),
    .fxeEntryIssue ⟨tCore, ⟨0, 0⟩, .list 0 0 0⟩, .sxeWrite tOp (tEntry 0#2 0 0#64) none .entry false false,
    .nmaLatent (tNma 0#12), .nmaGqa (tNma 0#12),
    .mxeDotProduct tOp 0#9 false .keep (tSrc 0 .fp32) { tSrc 0 .int8 with zero := .entry (tPlace 0) } 32,
    .accReadout tOp 0#9 1 false false 0,
    .add tOp (tSrc 0 .fp32) (tSrc 0 .fp32) (tDst 0 .fp32), .sub tOp (tSrc 0 .fp32) (tSrc 0 .fp32) (tDst 0 .fp32),
    .mul tOp (tSrc 0 .fp32) (tSrc 0 .fp32) (tDst 0 .fp32), .min tOp (tSrc 0 .fp32) (tSrc 0 .fp32) (tDst 0 .fp32),
    .max tOp (tSrc 0 .fp32) (tSrc 0 .fp32) (tDst 0 .fp32), .fma tOp (tSrc 0 .fp32) (tSrc 0 .fp32) (tSrc 0 .fp32) (tDst 0 .fp32),
    .abs tOp (tSrc 0 .fp32) (tDst 0 .fp32), .neg tOp (tSrc 0 .fp32) (tDst 0 .fp32), .cmp tOp .lt (tSrc 0 .fp32) (tSrc 0 .fp32) 0,
    .sel tOp (tSrc 0 .fp32) (tSrc 0 .fp32) (tSrc 0 .fp32) 0, .cvt tOp (tSrc 0 .fp32) (tDst 0 .fp32),
    .rsum tOp { tSrc 0 .int8 with zero := .row 0 } (tDst 0 .fp32), .rmax tOp (tSrc 0 .fp32) (tDst 0 .fp32),
    .rmin tOp tQueued (tDst 0 .fp32)]

def wellFormed2 : List Instr :=
  [.sfn tOp 0 .fp32 .value (tSrc 0 .fp32) 0 ⟨0, false⟩ none, .welfordAcc tOp 0#8 (tSrc 0 .fp32), .varFinish tOp ⟨0, 0, 0#8, 0⟩ (tDst 0 .fp32),
    .ssqAcc tOp 0#8 (tSrc 0 .fp32), .rmsFinish tOp ⟨0, 0, 0#8, 0⟩ 0#32 (tDst 0 .fp32),
    .smxTile tOp (tSrc 0 .fp32) (tSrc 0 .fp32) 1 1 .fp32 0 false, .smxMerge tOp (tPlace 0) (tPlace 0) ⟨0, 0⟩, .smxFinish tOp ⟨0, 0⟩ (tDst 0 .fp32),
    .rescale tOp 0#9 1 false (tPlace 0) none (tDst 0 .fp32), .rescale tOp 0#9 1 false (tPlace 0) (some 0) (tDst 0 .fp32),
    .rowq tOp [(tPlace 0, 1)] .int8 .core 0 0, .rowq tOp (List.replicate 8 (⟨0, some 0, true⟩, 8192)) .int8 .cluster 0 0,
    .kvConversion tOp 0 1 .int8 (tPlace 0) 0, .routeTopk tOp 0#16 ⟨0, 0, 0⟩, .sendRecord tOp 0#16 0 0 ⟨0, false⟩ 0, .returnRecord 0 0 0 0#12 0 ⟨0, 0⟩ 0 0 0 0 0 0]

theorem test_wellFormed : (wellFormed0 ++ wellFormed1 ++ wellFormed2).all (fun i => i.wf = true) = true := by decide +kernel

/-- For each check one command that only it refuses. -/
def illFormed0 : List Instr :=
  [.sessionOpen (tPkt 0#32) 0#128 0#32 tRefBad 64 0 0#8, .sessionOpen (tPkt 0#32) 0#128 0#32 tRef (2 ^ 32) 0 0#8,
    .sessionOpen (tPkt 0#32) 0#128 0#32 tRef 64 (2 ^ 32) 0#8, .sessionAppend (tPkt 0#32) tRefBad 1 false (.ok []),
    .sessionAppend (tPkt 0#32) tRef (2 ^ 32) false (.ok []),
    .sessionGenerate (tPkt 0#32) (2 ^ 32) 0#32 0#32 1 0 (List.replicate 8 0#32) 0#32,
    .sessionGenerate (tPkt 0#32) 1 0#32 0#32 (2 ^ 16) 0 (List.replicate 8 0#32) 0#32,
    .sessionGenerate (tPkt 0#32) 1 0#32 0#32 1 256 (List.replicate 8 0#32) 0#32,
    .sessionGenerate (tPkt 0#32) 1 0#32 0#32 1 0 [] 0#32, .sessionFork (tPkt 0#32) tRefBad 64,
    .sessionFork (tPkt 0#32) tRef (2 ^ 32), .prefixPin (tPkt 0#32) tRefBad 1 (.ok []),
    .prefixPin (tPkt 0#32) tRef (2 ^ 32) (.ok []), .prefixUnpin (tPkt 0#32) tRefBad 1 (.ok []),
    .prefixUnpin (tPkt 0#32) tRef (2 ^ 32) (.ok []), .graphStore (tPkt 0#32) tRefBad 1 .xlat,
    .graphStore (tPkt 0#32) tRef (2 ^ 32) .xlat, .graphPatch (tPkt 0#32) tRefBad 1 .xlat,
    .graphPatch (tPkt 0#32) tRef (2 ^ 32) .xlat, .graphLaunch (tPkt 0#32) tRefBad tRef 0#32 1,
    .graphLaunch (tPkt 0#32) tRef tRefBad 0#32 1, .graphLaunch (tPkt 0#32) tRef tRef 0#32 (2 ^ 32)]

def illFormed1 : List Instr :=
  [.jobQuery (tPkt 0#32) tRefBad .past, .imageInstall (tPkt 0#32) tRefBad tRef tRef 0 (.ok []),
    .imageInstall (tPkt 0#32) tRef tRefBad tRef 0 (.ok []), .imageInstall (tPkt 0#32) tRef tRef tRefBad 0 (.ok []),
    .imageInstall (tPkt 0#32) tRef tRef tRef (2 ^ 32) (.ok []), .imageActivate (tPkt 0#32) false false tRefBad 0 (.ok []),
    .imageActivate (tPkt 0#32) false false tRef (2 ^ 32) (.ok []),
    .tuneOpen (tPkt 0#32) 0#128 0#32 tRefBad 1 0#32 0#32 0#32 0#32 (.ok []),
    .tuneOpen (tPkt 0#32) 0#128 0#32 tRef (2 ^ 16) 0#32 0#32 0#32 0#32 (.ok []), .tuneStep (tPkt 0#32) tRefBad 1 0#32 (.ok []),
    .tuneStep (tPkt 0#32) tRef (2 ^ 32) 0#32 (.ok []), .selftest (tPkt 0#32) 0#8 256 tRef [],
    .selftest (tPkt 0#32) 0#8 0 tRefBad [], .fnCreate (tPkt 0#32) 256 false 4096, .fnCreate (tPkt 0#32) 0 false (2 ^ 32),
    .fnDestroy (tPkt 0#32) 256 tRef, .fnDestroy (tPkt 0#32) 1 tRefBad, .fnSetShare (tPkt 0#32) 256 0 0 0,
    .fnSetShare (tPkt 0#32) 1 (2 ^ 16) 0 0, .fnSetShare (tPkt 0#32) 1 0 (2 ^ 32) 0, .fnSetShare (tPkt 0#32) 1 0 0 (2 ^ 64),
    .planLoad (tPkt 0#32) tRefBad 0 .xlat]

def illFormed2 : List Instr :=
  [.planLoad (tPkt 0#32) tRef (2 ^ 32) .xlat, .folioGet (tPkt 0#32) (2 ^ 32) tRef 0 .xlat, .folioGet (tPkt 0#32) 0 tRefBad 0 .xlat,
    .folioGet (tPkt 0#32) 0 tRef (2 ^ 32) .xlat, .ledgerConfig (tPkt 0#32) (2 ^ 32), .eventWriteBack 0#8 (2 ^ 32) 0#32,
    .eventWriteBack 0#8 2 0#32, .persistentWrite 0#8 (2 ^ 32) 0#32, .persistentWrite 0#8 3 0#32, .registerWrite ⟨0#8, 2 ^ 32, 4, 0#64⟩,
    .registerWrite ⟨0#8, 0, 256, 0#64⟩, .fxeEntryIssue (tIssue 0 (tEntry 0#2 65536 0#64)),
    .sxeWrite tOp (tEntry 0#2 65536 0#64) none .entry false false, .nmaLatent { tNma 0#12 with query := 0x8000 },
    .nmaLatent { tNma 0#12 with pairs := 0x8000 }, .nmaGqa { tNma 0#12 with triples := 0x8000 },
    .nmaGqa { tNma 0#12 with mass := 0x8000 }, .mxeDotProduct tOp 0#9 false .keep (tSrc 0x8000 .fp32) (tSrc 0 .fp32) 32,
    .mxeDotProduct tOp 0#9 false .keep { tSrc 0 .int8 with zero := .row 0x8000 } (tSrc 0 .fp32) 32,
    .mxeDotProduct tOp 0#9 false .keep (tSrc 0 .fp32) { tSrc 0 .int8 with zero := .entry (tPlace 0x8000) } 32,
    .mxeDotProduct tOp 0#9 false .keep (tSrc 0 .fp32) { tSrc 0 .int8 with place := ⟨0, none, true⟩ } 32,
    .accReadout tOp 0#9 1 false false 0x8000]

def illFormed3 : List Instr :=
  [.add tOp (tSrc 0x8000 .fp32) (tSrc 0 .fp32) (tDst 0 .fp32), .add tOp (tSrc 0 .fp32) (tSrc 0x8000 .fp32) (tDst 0 .fp32),
    .add tOp (tSrc 0 .fp32) (tSrc 0 .fp32) (tDst 0x8000 .fp32), .sub tOp (tSrc 0x8000 .fp32) (tSrc 0 .fp32) (tDst 0 .fp32),
    .sub tOp (tSrc 0 .fp32) (tSrc 0x8000 .fp32) (tDst 0 .fp32), .sub tOp (tSrc 0 .fp32) (tSrc 0 .fp32) (tDst 0x8000 .fp32),
    .mul tOp (tSrc 0x8000 .fp32) (tSrc 0 .fp32) (tDst 0 .fp32), .mul tOp (tSrc 0 .fp32) (tSrc 0x8000 .fp32) (tDst 0 .fp32),
    .mul tOp (tSrc 0 .fp32) (tSrc 0 .fp32) (tDst 0x8000 .fp32), .min tOp (tSrc 0x8000 .fp32) (tSrc 0 .fp32) (tDst 0 .fp32),
    .min tOp (tSrc 0 .fp32) (tSrc 0x8000 .fp32) (tDst 0 .fp32), .min tOp (tSrc 0 .fp32) (tSrc 0 .fp32) (tDst 0x8000 .fp32),
    .max tOp (tSrc 0x8000 .fp32) (tSrc 0 .fp32) (tDst 0 .fp32), .max tOp (tSrc 0 .fp32) (tSrc 0x8000 .fp32) (tDst 0 .fp32),
    .max tOp (tSrc 0 .fp32) (tSrc 0 .fp32) (tDst 0x8000 .fp32),
    .fma tOp (tSrc 0x8000 .fp32) (tSrc 0 .fp32) (tSrc 0 .fp32) (tDst 0 .fp32),
    .fma tOp (tSrc 0 .fp32) (tSrc 0x8000 .fp32) (tSrc 0 .fp32) (tDst 0 .fp32),
    .fma tOp (tSrc 0 .fp32) (tSrc 0 .fp32) (tSrc 0x8000 .fp32) (tDst 0 .fp32),
    .fma tOp (tSrc 0 .fp32) (tSrc 0 .fp32) (tSrc 0 .fp32) (tDst 0x8000 .fp32), .abs tOp (tSrc 0x8000 .fp32) (tDst 0 .fp32),
    .abs tOp (tSrc 0 .fp32) (tDst 0x8000 .fp32), .neg tOp (tSrc 0x8000 .fp32) (tDst 0 .fp32)]

def illFormed4 : List Instr :=
  [.neg tOp (tSrc 0 .fp32) (tDst 0x8000 .fp32), .cmp tOp .lt (tSrc 0x8000 .fp32) (tSrc 0 .fp32) 0,
    .cmp tOp .lt (tSrc 0 .fp32) (tSrc 0x8000 .fp32) 0, .cmp tOp .lt (tSrc 0 .fp32) (tSrc 0 .fp32) 0x8000,
    .sel tOp (tSrc 0x8000 .fp32) (tSrc 0 .fp32) (tSrc 0 .fp32) 0, .sel tOp (tSrc 0 .fp32) (tSrc 0x8000 .fp32) (tSrc 0 .fp32) 0,
    .sel tOp (tSrc 0 .fp32) (tSrc 0 .fp32) (tSrc 0x8000 .fp32) 0, .sel tOp (tSrc 0 .fp32) (tSrc 0 .fp32) (tSrc 0 .fp32) 0x8000,
    .cvt tOp (tSrc 0x8000 .fp32) (tDst 0 .fp32), .cvt tOp (tSrc 0 .fp32) (tDst 0x8000 .fp32),
    .rsum tOp (tSrc 0x8000 .fp32) (tDst 0 .fp32), .rsum tOp (tSrc 0 .fp32) (tDst 0x8000 .fp32),
    .rmax tOp (tSrc 0x8000 .fp32) (tDst 0 .fp32), .rmax tOp (tSrc 0 .fp32) (tDst 0x8000 .fp32),
    .rmin tOp (tSrc 0x8000 .fp32) (tDst 0 .fp32), .rmin tOp (tSrc 0 .fp32) (tDst 0x8000 .fp32),
    .sfn tOp 0 .fp32 .value (tSrc 0x8000 .fp32) 0 ⟨0, false⟩ none, .sfn tOp 0 .fp32 .value (tSrc 0 .fp32) 0x8000 ⟨0, false⟩ none,
    .welfordAcc tOp 0#8 (tSrc 0x8000 .fp32), .varFinish tOp ⟨0, 0, 0#8, 0⟩ (tDst 0x8000 .fp32), .ssqAcc tOp 0#8 (tSrc 0x8000 .fp32),
    .rmsFinish tOp ⟨0, 0, 0#8, 0⟩ 0#32 (tDst 0x8000 .fp32)]

def illFormed5 : List Instr :=
  [.smxTile tOp (tSrc 0x8000 .fp32) (tSrc 0 .fp32) 1 1 .fp32 0 false,
    .smxTile tOp (tSrc 0 .fp32) (tSrc 0x8000 .fp32) 1 1 .fp32 0 false,
    .smxTile tOp (tSrc 0 .fp32) (tSrc 0 .fp32) 1 1 .fp32 0x8000 false, .smxMerge tOp (tPlace 0x8000) (tPlace 0) ⟨0, 0⟩,
    .smxMerge tOp (tPlace 0) (tPlace 0x8000) ⟨0, 0⟩, .smxMerge tOp (tPlace 0) (tPlace 0) ⟨0x8000, 0⟩, .smxFinish tOp ⟨0x8000, 0⟩ (tDst 0 .fp32),
    .smxFinish tOp ⟨0, 0⟩ (tDst 0x8000 .fp32), .rescale tOp 0#9 1 false (tPlace 0x8000) none (tDst 0 .fp32),
    .rescale tOp 0#9 1 false (tPlace 0) (some 0x8000) (tDst 0 .fp32), .rescale tOp 0#9 1 false (tPlace 0) none (tDst 0x8000 .fp32),
    .rowq tOp [(tPlace 0x8000, 1)] .int8 .core 0 0, .rowq tOp [] .int8 .core 0 0,
    .rowq tOp [(tPlace 0, 65537)] .int8 .core 0 0, .rowq tOp [(tPlace 0, 1)] .int8 .core 0x8000 0,
    .rowq tOp [(tPlace 0, 1)] .int8 .cluster 0x80000 0, .rowq tOp [(tPlace 0, 1)] .int8 .core 0 0x8000,
    .kvConversion tOp 0x8000 1 .int8 (tPlace 0) 0, .kvConversion tOp 0 1 .int8 (tPlace 0x8000) 0,
    .kvConversion tOp 0 1 .int8 (tPlace 0) 0x8000, .routeTopk tOp 0#16 ⟨0x8000, 0, 0⟩, .routeTopk tOp 0#16 ⟨0, 0x8000, 0⟩]

def illFormed6 : List Instr :=
  [.sendRecord tOp 0#16 0 0x8000 ⟨0, false⟩ 0, .returnRecord 0 0 0 0#12 0 ⟨0, 0⟩ 0x80000 0 0 0 0 0, .returnRecord 0 0 0 0#12 0 ⟨0, 0⟩ 0 0 0x8000 0 0 0,
    .returnRecord 0 0 0 0#12 0 ⟨0, 0⟩ 0 0 0 0 0 0x8000]

theorem test_illFormed : (illFormed0 ++ illFormed1 ++ illFormed2 ++ illFormed3 ++ illFormed4 ++ illFormed5 ++ illFormed6).all (fun i => i.wf = false) = true := by decide +kernel


/-! ### Small results written out in the spec -/

def tBf16 (xs : List Nat) (pad : Nat) : List FNum :=
  (xs ++ List.replicate (32 - xs.length) pad).map fun b => match Fmt.bf16.float with
    | some f => f.decode b
    | none => .nan true

/-- The group of chapter 3's worked example. -/
def tGroupExample : FNum × ArithFlags :=
  dotGroup (tBf16 [0x4040, 0x3F81, 0xBF81, 0xBF80] 0) (tBf16 [0x4480, 0x2E01, 0x2E01, 0x4480] 0x3F80)

/-- "The accumulator becomes 0xAD00_0000"; the group sets the inexact flag and the addition none (chapter 3's worked example). -/
theorem test_dot_group :
    tGroupExample.2 = { inx := true } ∧ accAdd 0xC5000000#32 tGroupExample.1 = (0xAD000000#32, {}) := by decide +kernel

/-- "Had the accumulator held +0 … 0x4500_0000, with the inexact flag set." -/
theorem test_dot_group_from_zero : accAdd 0#32 tGroupExample.1 = (0x45000000#32, { inx := true }) := by decide +kernel

/-- Chapter 3's table of three group sums of 1.0 added to the pair (2^24, 0). -/
theorem test_pair_mode :
    pairAdd (0x4B800000#32, 0#32) (num32 0x3F800000#32) = ((0x4B800000#32, 0x3F800000#32), {}) ∧
    pairAdd (0x4B800000#32, 0x3F800000#32) (num32 0x3F800000#32) = ((0x4B800001#32, 0#32), {}) ∧
    pairAdd (0x4B800001#32, 0#32) (num32 0x3F800000#32) = ((0x4B800002#32, 0xBF800000#32), {}) := by decide +kernel

/-- R81's example: a largest input of 13.0 gives scale code 128, 13.0 saturates to 6 and 5.0 becomes 3. -/
theorem test_block_scale :
    (toBlock .e2m1 ([0x41500000#32, 0x40A00000#32].map num32 ++ List.replicate 30 (.zero false))).scale = 128#8 ∧
    (toBlock .e2m1 ([0x41500000#32, 0x40A00000#32].map num32 ++ List.replicate 30 (.zero false))).codes.take 3 = [7, 5, 0] := by
  decide +kernel

/-- R128's examples: FP32 0x3F80_8000 converts to BF16 0x3F81, and a quotient of −2.5 to INT4 −3. -/
theorem test_ties_away :
    (convertOut .bf16 0#32 0 [0x3F808000#32]).codes = [0x81#8, 0x3F#8] ∧
    (toIntCode .int4 (num32 0x3F800000#32) 0 (num32 0xC0200000#32)).code = -3 := by decide +kernel

/-- R454: an advance from 0xFFFF passes to 0x0001. -/
theorem test_event_sequence : nextSeq 0xFFFF#16 = 1#16 ∧ nextSeq 1#16 = 2#16 := by decide

end Sys2Proof.Tests
end

section
/-! What a command leaves of the host's side of the state: the registers that hosts write, and the queue of waiting commands. The engines, the
front end and the tick work on stores and controls alone, so each of their operations leaves both. -/

namespace Sys2Proof.Machine

open Sys2Proof

/-- From `s` to `t` the registers that hosts write and the queue of commands stand. -/
structure HostStands (s t : State) : Prop where
  cfg : t.cfg = s.cfg
  pending : t.pending = s.pending

namespace HostStands

theorem refl (s : State) : HostStands s s := ⟨rfl, rfl⟩

theorem trans {s t u : State} (h : HostStands s t) (k : HostStands t u) : HostStands s u :=
  ⟨k.cfg.trans h.cfg, k.pending.trans h.pending⟩

/-- Any change of engines and controls leaves the host's side. -/
theorem parts (s : State) (d : Dp) (c : Ctl) : HostStands s { s with dp := d, ctl := c } := ⟨rfl, rfl⟩

/-- An operation on a state whose engines and controls were changed before it. -/
theorem afterParts {s t : State} {d : Dp} {c : Ctl} (h : HostStands { s with dp := d, ctl := c } t) : HostStands s t := (parts s d c).trans h

theorem andParts {s t : State} (h : HostStands s t) (d : Dp) (c : Ctl) : HostStands s { t with dp := d, ctl := c } :=
  h.trans (parts t d c)

/-- A fold whose every step leaves the host's side leaves it; `p` is where the accumulator holds the state. -/
theorem foldlOn {α β : Type} (p : β → State) {f : β → α → β} (h : ∀ b a, HostStands (p b) (p (f b a))) (b : β) (l : List α) :
    HostStands (p b) (p (l.foldl f b)) := by
  induction l generalizing b with
  | nil => exact refl (p b)
  | cons a l ih => exact (h b a).trans (ih (f b a))

theorem foldl {α : Type} {f : State → α → State} (h : ∀ s a, HostStands s (f s a)) (s : State) (l : List α) :
    HostStands s (l.foldl f s) :=
  foldlOn id h s l

theorem ite {s t u : State} {p : Prop} [Decidable p] (h : HostStands s t) (k : HostStands s u) : HostStands s (if p then t else u) := by
  split
  · exact h
  · exact k

end HostStands

/-! ### Moves of KV blocks (R217, R233, R239-R242) -/

theorem demote_stands (s : State) (p : Plan) (x : Session) (e : MapEntry) : HostStands s (demote s p x e).2 := by
  unfold demote
  split
  · exact .parts _ _ _
  · exact .parts _ _ _

theorem promote_stands (s : State) (p : Plan) (e : MapEntry) : HostStands s (promote s p e).2 := by
  unfold promote
  split
  · exact .refl s
  · exact .parts _ _ _

theorem moveBlock_stands {s t : State} {p : Plan} {e : MapEntry} {side : Nat} (h : moveBlock s p e side = some t) : HostStands s t := by
  obtain ⟨a, _, rfl⟩ := Option.map_eq_some_iff.mp h
  exact .parts _ _ _

theorem rebalance_stands (p : Plan) (fn : BitVec 8) (ix : Nat) (k : Yard) (layer : Nat) (n : Nat) (s : State) :
    HostStands s (rebalance s p fn ix k layer n).1 := by
  induction n generalizing s with
  | zero => exact .refl s
  | succ n ih =>
    unfold rebalance
    split
    · exact .refl s
    next t h =>
      obtain ⟨m, _, ht⟩ := Option.bind_eq_some_iff.mp h
      exact (moveBlock_stands ht).trans (ih t)

theorem houseOut_stands (s : State) (p : Plan) (k : Yard) (total used : Nat) : HostStands s (houseOut s p k total used).1 := by
  unfold houseOut
  extract_lets r s1 z
  have released : HostStands s s1 := .parts s s.dp _
  have demoted : HostStands s1 z.1 := by
    refine .foldlOn (fun z : State × Nat × Nat => z.1) (fun z q => ?_) (s1, r.2, p.hkBlocks) _
    split
    · have moved := demote_stands z.1 p q.1 q.2
      generalize demote z.1 p q.1 q.2 = m at moved ⊢
      dsimp only
      split <;> exact moved
    · exact .refl _
  split
  · exact released
  · exact released.trans demoted

theorem houseIn_stands (s : State) (p : Plan) (k : Yard) (total used : Nat) : HostStands s (houseIn s p k total used).1 := by
  refine .foldlOn (fun z : State × Nat × Nat => z.1) (fun z q => ?_) (s, _, _) _
  dsimp only
  rw [apply_ite (fun z : State × Nat × Nat => z.1), apply_ite (fun z : State × Nat × Nat => z.1)]
  exact .ite (.ite (promote_stands _ _ _) (.refl _)) (.refl _)

theorem houseKeep_stands (s : State) (p : Plan) (k : Yard) : HostStands s (houseKeep s p k) := by
  unfold houseKeep
  refine .ite (.refl s) ?_
  dsimp only
  refine .trans ?_ (.foldlOn (fun z : State × Nat => z.1) (fun z x => .foldlOn (fun z : State × Nat => z.1)
    (fun z ds => rebalance_stands _ _ _ _ _ _ _) z _) _ _)
  rw [apply_ite (fun z : State × Nat => z.1), apply_ite (fun z : State × Nat => z.1)]
  exact .ite (houseOut_stands _ _ _ _ _) (.ite (houseIn_stands _ _ _ _ _) (.refl s))

theorem moveKept_stands (s : State) (p : Plan) (m : KvMove) : HostStands s (moveKept s p m) := by
  unfold moveKept
  split
  · exact .parts _ _ _
  · split
    · exact .refl s
    · exact .parts _ _ _

theorem moveAllKept_stands (s : State) (p : Plan) : HostStands s (moveAllKept s p) := .foldl (fun s m => moveKept_stands s p m) s _

theorem copyForks_stands (s : State) (p : Plan) (k : Yard) : HostStands s (copyForks s p k) := by
  refine .foldl (fun s x => .foldl (fun s e => ?_) s _) s _
  split
  · exact .ite (.refl s) (.parts _ _ _)
  · exact .refl s

/-! ### The append step (R232, R239, R249) -/

theorem writePosition_stands (s : State) (p : Plan) (ds : KvDesc) (st : Stall) (i : Nat) (l : Cluster) (e : MapEntry) (pos : Nat)
    (codes : List Byte) : HostStands s (writePosition s p ds st i l e pos codes) := .parts s _ s.ctl

theorem scatterCodes_stands (s : State) (p : Plan) (k : Yard) (st : Stall) (i : Nat) (ds : KvDesc) (codes : List CorePlace) :
    HostStands s (scatterCodes s p k st i ds codes) := by
  refine .foldl (fun s q => ?_) s _
  split
  · exact .refl s
  · exact (writePosition_stands _ _ _ _ _ _ _ _ _).andParts _ _

theorem scatterLayer_stands (s : State) (p : Plan) (k : Yard) (st : Stall) (w : KvWrite) (score : Bool) :
    HostStands s (scatterLayer s p k st w score) := by
  unfold scatterLayer
  split
  · exact (scatterCodes_stands _ _ _ _ _ _ _).andParts _ _
  · exact .refl s

theorem writeLane_stands (s : State) (p : Plan) (k : Yard) (i : Nat) (l : Lane) (heads : Nat) (body : List (CorePlace × Nat)) :
    HostStands s (writeLane s p k i l heads body) := .parts s _ s.ctl

theorem laneVisit_stands (s : State) (p : Plan) (k : Yard) (i : Nat) (x : Session) (body : List (CorePlace × Nat)) :
    HostStands s (laneVisit s p k i x body).2 := by
  unfold laneVisit
  split
  · exact .refl s
  · split
    · exact .refl s
    · rw [apply_ite (fun z : List Nat × State => z.2)]
      exact .ite (.refl s) ((writeLane_stands _ _ _ _ _ _ _).andParts _ _)

theorem scatterStep_stands (s : State) (k : Yard) (writes : List KvWrite) : HostStands s (scatterStep s k writes) := by
  unfold scatterStep
  split
  case h_2 => exact .refl s
  next p m _ _ =>
    refine .andParts (.trans (copyForks_stands s p k) (.foldl (fun s i => ?_) _ _)) _ _
    have layers (st : Stall) (score : Bool) (s : State) (ws : List KvWrite) :
        HostStands s (ws.foldl (fun s w => scatterLayer s p k st w score) s) :=
      .foldl (fun s w => scatterLayer_stands s p k st w score) s ws
    split
    · exact .refl s
    · refine .ite (.refl s) ?_
      split
      · split
        · exact .refl s
        · exact (laneVisit_stands _ _ _ _ _ _).trans (layers _ _ _ _)
      · exact layers _ _ _ _
      · exact layers _ _ _ _
      all_goals exact .refl s

/-! ### Restores (R206-R209, R230-R233) -/

theorem restoreKv_stands (s : State) (k : Yard) (copy : KvCopy) (addr : Nat) : HostStands s (restoreKv s k copy addr) := by
  unfold restoreKv
  split
  · exact .refl s
  · split
    · exact .refl s
    · dsimp only
      split
      · exact .parts _ _ _
      · cases copy <;> exact .parts _ _ _

theorem restoreBlock_stands (s : State) (k : Yard) (x : Copy) (again : Bool) : HostStands s (restoreBlock s k x again) := by
  unfold restoreBlock
  refine .ite (.parts s _ s.ctl) ?_
  split
  · exact .parts _ _ _
  · exact .parts _ _ _

theorem restoreWeight_stands (s : State) (k : Yard) (shed : Bool) (addr image : Nat) : HostStands s (restoreWeight s k shed addr image) := by
  unfold restoreWeight
  dsimp only
  split
  · exact .parts _ _ _
  · exact ((HostStands.parts s s.dp _).trans (restoreBlock_stands _ _ _ _)).andParts _ _

theorem patchMoved_stands (s : State) (k : Yard) : HostStands s (patchMoved s k) := .ite (.refl s) (.parts _ _ _)

/-! ### Faults, rebuilds and relief (R378-R399) -/

theorem rebuildUnits_stands (s : State) (unread : List (Nat × Nat)) (sel : Nat → Bool) : HostStands s (rebuildUnits s unread sel) := by
  refine .trans (.parts s _ _) (.foldl (fun s e => ?_) _ _)
  exact .ite (.refl s) (.ite (.parts s _ s.ctl) (.parts s s.dp _))

theorem rebuildKv_stands (s : State) (k : Yard) : HostStands s (rebuildKv s k) := by
  unfold rebuildKv
  split
  · exact .refl s
  · refine .foldl (fun s e => .ite (.parts s s.dp _) ?_) s _
    split
    · exact .refl s
    · exact .parts _ _ _

theorem relist_stands (s : State) (k : Yard) : HostStands s (relist s k) := .parts _ _ _

theorem enterRelief_stands (s : State) (k : Yard) : HostStands s (enterRelief s k) :=
  .andParts (.afterParts (.trans (relist_stands _ _) (rebuildKv_stands _ _))) _ _

theorem reliefReady_stands (s : State) (ms : Nat) (unread : List (Nat × Nat)) : HostStands s (reliefReady s ms unread) := by
  unfold reliefReady
  split
  · exact .refl s
  · exact .ite (.refl s) (.parts _ _ _)

theorem restoreYard_stands (s : State) (k : Yard) : HostStands s (restoreYard s k) := by
  have begun (s : State) (n : Nat) : HostStands s (if n = 0 then s else { s with ctl := s.ctl.startMigration n }) :=
    .ite (.refl s) (.parts _ _ _)
  have finished (s : State) (n : Nat) : HostStands s (if n = 0 then s else { s with ctl := s.ctl.endMigration }) :=
    .ite (.refl s) (.parts _ _ _)
  refine .andParts (.trans (.trans (.trans (.trans (.trans (.parts s _ _) (relist_stands _ k)) (rebuildUnits_stands _ [] _)) (begun _ _))
    (rebuildKv_stands _ k)) (finished _ _)) _ _

theorem applyMap_stands (s : State) (k : Yard) (new : List Nat) : HostStands s (applyMap s k new) := .parts _ _ _

theorem retireFaulty_stands (s : State) (k : Yard) : HostStands s (retireFaulty s k) :=
  .ite (.refl s) ((applyMap_stands _ _ _).andParts _ _)

theorem rebuildChannel_stands (s : State) (k : Yard) (near : Fin 2) (ch : Nat) (unread : List (Nat × Nat)) :
    HostStands s (rebuildChannel s k near ch unread) :=
  .ite (.refl s) ((rebuildUnits_stands _ _ _).andParts _ _)

theorem repairRow_stands (s : State) (r : RowFault) : HostStands s (repairRow s r) :=
  .ite (.refl s) (.ite (.parts _ _ _) ((rebuildUnits_stands _ _ _).andParts _ _))

/-! ### A lost port of the shed (R389-R391) -/

theorem rehomeCold_stands (s : State) (port : Nat) : HostStands s (rehomeCold s port) := by
  refine .andParts (.foldl (fun s e => ?_) s _) _ _
  split
  · exact .parts _ _ _
  · exact .parts _ _ _

theorem rehomeMirrors_stands (s : State) (port : Nat) : HostStands s (rehomeMirrors s port) := by
  unfold rehomeMirrors
  split
  · exact .refl s
  · refine .foldl (fun s e => ?_) s _
    dsimp only
    split
    · exact .parts _ _ _
    · exact .ite (.parts _ _ _) (.parts _ _ _)

theorem losePort_stands (s : State) (port : Nat) : HostStands s (losePort s port) :=
  .ite (.refl s) (.andParts (.afterParts (.trans (rehomeCold_stands _ port) (rehomeMirrors_stands _ port))) _ _)

theorem rehomeShadow_stands (s : State) (p : Plan) (e : MapEntry) : HostStands s (rehomeShadow s p e) := by
  unfold rehomeShadow
  dsimp only
  split <;> exact .parts _ _ _

theorem rehomeShadows_stands (s : State) (port : Nat) : HostStands s (rehomeShadows s port) := by
  refine .ite (.refl s) ?_
  split
  · exact .parts _ _ _
  · exact .andParts (.foldl (fun s e => rehomeShadow_stands s _ e) s _) _ _

/-! ### Self-tests and margin plans (R410-R415) -/

theorem rotate_stands (s : State) (k : Yard) (col : Option Nat) : HostStands s (rotate s k col) :=
  .andParts (.ite (.refl s) (applyMap_stands _ _ _)) _ _

theorem retireFound_stands (s : State) (f : TestFault) : HostStands s (retireFound s f) := by
  unfold retireFound
  split
  · exact .ite (.refl s) ((applyMap_stands _ _ _).andParts _ _)
  · exact .refl s

theorem rotateAll_stands (s : State) (ks : List Yard) : HostStands s (ks.foldl (fun s k => rotate s k none) s) :=
  .foldl (fun s k => rotate_stands s k none) s ks

theorem endSelftest_stands (s : State) (j : Job) (mask : Byte) (kind : Nat) (report : RegionRef) (found : List TestFault) :
    HostStands s (endSelftest s j mask kind report found) := by
  unfold endSelftest
  extract_lets yards bare tested c
  have h : HostStands s tested := .ite ((rotateAll_stands _ _).trans (.foldl retireFound_stands _ _)) (.ite (.parts s s.dp _) (.refl s))
  clear_value tested
  exact .ite (h.andParts _ _) (h.andParts _ _)

theorem endReplan_stands (s : State) (j : Job) (mask : Byte) : HostStands s (endReplan s j mask) := by
  unfold endReplan
  split
  · exact .ite (.parts _ _ _) (.parts _ _ _)
  · exact .ite (.parts _ _ _) (.foldl restoreYard_stands s _)

theorem jobStep_stands (s : State) (x : JobStep) : HostStands s (jobStep s x) := by
  unfold jobStep
  split
  · exact .refl s
  · refine .ite (.refl s) ?_
    extract_lets j s1
    have start : HostStands s s1 := .parts _ _ _
    refine start.trans ?_
    split
    · exact .ite (endSelftest_stands _ _ _ _ _ _) (.ite (.foldl (fun s k => .ite (rotate_stands _ _ _) (.refl s)) _ _) (.refl _))
    · exact .ite (endReplan_stands _ _ _) (.refl _)
    · exact .ite (.parts _ _ _) (.refl _)
    · exact .refl _

/-! ### The cut-off and the bell (R51, R55-R57) -/

theorem cutoff_stands (s : State) (heads : List HeadRead) : HostStands s (cutoff s heads) := by
  unfold cutoff
  split
  · exact .refl s
  next p _ =>
    split
    · exact .refl s
    · extract_lets c1 c2 c3 c4 s1 c5
      have kept : HostStands s s1 := .afterParts ((moveAllKept_stands { s with ctl := c4 } p).trans
        (.foldl (fun s k => houseKeep_stands s p k) _ _))
      clear_value s1
      exact kept.andParts _ _

theorem rowTwoYard_stands (s : State) (k : Yard) : HostStands s (rowTwoYard s k) :=
  .afterParts ((patchMoved_stands _ k).trans (retireFaulty_stands _ k))

theorem endRelief_stands (s : State) : HostStands s (endRelief s) := by
  unfold endRelief
  split
  · exact .ite (restoreYard_stands _ _) (.refl s)
  · exact .refl s

theorem rowTwo_stands (s : State) : HostStands s (rowTwo s) := by
  unfold rowTwo
  extract_lets s1 s2
  have yards : HostStands s s1 := .foldl rowTwoYard_stands s _
  clear_value s1
  have entered : HostStands s1 s2 := by
    unfold s2
    split
    · exact enterRelief_stands _ _
    · exact .refl _
  exact (yards.trans entered).trans (endRelief_stands _)

theorem rowThree_stands (s : State) : HostStands s (rowThree s) := by
  have place (s : State) : HostStands s (placePlan s) := by
    unfold placePlan
    split
    · exact .refl s
    · exact .parts _ _ _
  unfold rowThree
  split
  · exact .ite (.trans (.parts s s.dp _) (place _)) (.refl s)
  · exact .refl s

theorem cancelJob_stands (s : State) (j : Job) (status : BitVec 16) : HostStands s (cancelJob s j status) := by
  unfold cancelJob
  dsimp only
  split
  case h_7 => exact .andParts (.ite ((rotateAll_stands _ _).trans (.foldl retireFound_stands _ _)) (.refl s)) _ _
  all_goals exact .parts _ _ _

theorem suspendJob_stands (s : State) (j : Job) : HostStands s (suspendJob s j) := by
  unfold suspendJob
  dsimp only
  split
  · exact (HostStands.parts s s.dp _).trans (rotateAll_stands _ _)
  · exact .parts _ _ _

theorem jobOpNow_stands (s : State) (n : BitVec 8) (ix : Nat) (op : Bool × Cmd) : HostStands s (jobOpNow s n ix op) := by
  unfold jobOpNow
  split
  · exact .parts _ _ _
  · exact .ite (.parts _ _ _) (.andParts (.ite (suspendJob_stands _ _) (cancelJob_stands _ _ _)) _ _)

theorem resetQueueNow_stands (s : State) (n : BitVec 8) (q : Fin 4) : HostStands s (resetQueueNow s n q) := by
  refine .andParts (.foldl (fun s j => ?_) s _) _ _
  split
  · exact cancelJob_stands _ _ _
  · exact .refl s

theorem rowFour_stands (s : State) : HostStands s (rowFour s) := by
  have ops (s : State) : HostStands s (jobOpsNow s) := .trans (.parts s s.dp _) (.foldl (fun s x => jobOpNow_stands s _ _ _) _ _)
  have queues (s : State) : HostStands s (resetQueuesNow s) := .foldl (fun s x => resetQueueNow_stands s _ _) s _
  exact .andParts (.trans (.parts s s.dp _) ((ops _).trans (queues _))) _ _

theorem rows_stands (s : State) (jobs : List JobStep) : HostStands s (rows s jobs) :=
  .andParts (.trans (.trans (.parts s s.dp _) ((rowTwo_stands _).trans (.foldl jobStep_stands _ jobs)))
    ((rowThree_stands _).trans (rowFour_stands _))) _ _

theorem nextTick_stands (s : State) (cycle : Nat) : HostStands s (nextTick s cycle) := .parts _ _ _

theorem bellTick_stands (s : State) (b : BellIn) : HostStands s (bellTick s b) := by
  unfold bellTick
  extract_lets c1 c2 s1 c3 s2 s3
  have ran : HostStands s s2 := .afterParts (rows_stands { s1 with ctl := c3 } b.meter.jobs)
  clear_value s2
  split
  · exact .parts _ _ _
  · split
    · exact ran
    · split
      · exact (ran.andParts _ _).trans (nextTick_stands s3 b.cycle)
      · exact ran.andParts _ _

theorem bellFirst_stands (s : State) (b : BellIn) : HostStands s (bellFirst s b) := by
  unfold bellFirst
  extract_lets s1 c
  have ran : HostStands s s1 := .afterParts (rows_stands _ _)
  exact (ran.andParts _ _).trans (nextTick_stands _ _)

theorem timerPeriod_stands (s : State) (m : Interval) : HostStands s (timerPeriod s m) := by
  unfold timerPeriod
  extract_lets c s1 held s2 s3 s4
  have ran : HostStands s s3 := .afterParts (rows_stands s2 m.jobs)
  clear_value s3
  split
  · exact .parts _ _ _
  · exact ran.andParts _ _

end Sys2Proof.Machine
end

section
/-! What each kind of command leaves of the state's parts: one frame for every command. -/

namespace Sys2Proof.Machine

open Sys2Proof

/-! ### Frames -/

/-- The parts of the state that a command may change. -/
structure Touch where
  engines : Bool
  registers : Bool
  controls : Bool

/-- The change from `s` to `t` stays within the parts `w`; the queue of commands stands, and no register field comes to a reserved encoding. -/
structure Within (w : Touch) (s t : State) : Prop where
  pending : t.pending = s.pending
  engines : w.engines = false → t.dp = s.dp
  registers : w.registers = false → t.cfg = s.cfg
  controls : w.controls = false → t.ctl = s.ctl
  legal : s.cfg.ok = true → t.cfg.ok = true

namespace Within

variable {w : Touch} {s t u : State}

theorem refl (s : State) : Within w s s := ⟨rfl, fun _ => rfl, fun _ => rfl, fun _ => rfl, id⟩

theorem trans (h : Within w s t) (k : Within w t u) : Within w s u :=
  ⟨k.pending.trans h.pending, fun x => (k.engines x).trans (h.engines x), fun x => (k.registers x).trans (h.registers x),
    fun x => (k.controls x).trans (h.controls x), fun x => k.legal (h.legal x)⟩

/-- What leaves the host's side stays within any parts that hold engines and controls. -/
theorem ofHost {r : Bool} (h : HostStands s t) : Within ⟨true, r, true⟩ s t :=
  ⟨h.pending, (nomatch ·), fun _ => h.cfg, (nomatch ·), by simp [h.cfg]⟩

theorem ofCtl {e r : Bool} (s : State) (c : Ctl) : Within ⟨e, r, true⟩ s { s with ctl := c } :=
  ⟨rfl, fun _ => rfl, fun _ => rfl, (nomatch ·), id⟩

theorem ofDp {r x : Bool} (s : State) (d : Dp) : Within ⟨true, r, x⟩ s { s with dp := d } :=
  ⟨rfl, (nomatch ·), fun _ => rfl, fun _ => rfl, id⟩

/-- A change of the registers that keeps every field at a legal encoding, beside a change of the controls. -/
theorem ofCfg {e : Bool} (s : State) (cfg : Cfg) (c : Ctl) (ok : s.cfg.ok = true → cfg.ok = true) :
    Within ⟨e, true, true⟩ s { s with cfg := cfg, ctl := c } :=
  ⟨rfl, fun _ => rfl, (nomatch ·), (nomatch ·), ok⟩

theorem ite {p : Prop} [Decidable p] (h : Within w s t) (k : Within w s u) : Within w s (if p then t else u) := by
  split
  · exact h
  · exact k

end Within

/-- Every next state that an outcome answers satisfies `P`. -/
def Leaves (o : Host.Outcome State Fault Refusal) (P : State → Prop) : Prop := ∀ t, o = .next t → P t

namespace Leaves

variable {P : State → Prop} {a b : Host.Outcome State Fault Refusal} {w : Touch} {s : State}

theorem next {t : State} (h : P t) : Leaves (.next t) P := by rintro _ ⟨⟩; exact h

theorem fault {r : Fault} : Leaves (.fault r) P := fun _ h => by cases h

theorem ite {p : Prop} [Decidable p] (h : Leaves a P) (k : Leaves b P) : Leaves (if p then a else b) P := by
  split
  · exact h
  · exact k

/-- A command that answers the state as it stands. -/
theorem same : Leaves (.next s) (Within w s) := next (.refl s)

/-- A command that changes the controls alone. -/
theorem ctl {e r : Bool} {c : Ctl} : Leaves (.next { s with ctl := c }) (Within ⟨e, r, true⟩ s) := next (.ofCtl s c)

/-- A command that changes the engines alone. -/
theorem dp {r x : Bool} {d : Dp} : Leaves (.next { s with dp := d }) (Within ⟨true, r, x⟩ s) := next (.ofDp s d)

/-- A command that changes engines and controls. -/
theorem both {r : Bool} {d : Dp} {c : Ctl} : Leaves (.next { s with dp := d, ctl := c }) (Within ⟨true, r, true⟩ s) :=
  next (.ofHost (.parts s d c))

/-- A command whose operation leaves the host's side. -/
theorem host {r : Bool} {t : State} (h : HostStands s t) : Leaves (.next t) (Within ⟨true, r, true⟩ s) := next (.ofHost h)

/-- A command that goes on from a state within the frame. -/
theorem after {t : State} (h : Within w s t) (k : Leaves a (Within w t)) : Leaves a (Within w s) := fun u e => h.trans (k u e)

/-- A command that only does something on a condition. -/
theorem whenCtl {p : Prop} [Decidable p] {e r : Bool} {c : Ctl} :
    Leaves (if p then .next { s with ctl := c } else .next s) (Within ⟨e, r, true⟩ s) := .ite .ctl .same

theorem unlessCtl {p : Prop} [Decidable p] {e r : Bool} {c : Ctl} :
    Leaves (if p then .next s else .next { s with ctl := c }) (Within ⟨e, r, true⟩ s) := .ite .same .ctl

end Leaves

/-- The parts that a command may change, by the lists of the frame. -/
def touched (c : Instr) : Touch := ⟨touchesEngines c, touchesCfg c, !enginesOnly c⟩

/-! ### The engines (R19, R40, R163) -/

theorem runEngine_leaves {r x : Bool} {s : State} {o : EngOp} {needs : List Need} {formats inside : Bool} {dests : List (Nat × Nat)}
    {work : List (EnergyClass × Nat)} {f : Nat → List Loc → Bool → Dp → Dp} :
    Leaves (runEngine s o needs formats inside dests work f) (Within ⟨true, r, x⟩ s) := by
  intro t h
  obtain ⟨d, rfl⟩ := runEngine_next h
  exact .ofDp s d

theorem routeStep_leaves {r x : Bool} {s : State} {k : Yard} {layer : Nat} {at0 : When} {f : Router → RouteLayer → RouteLayer} :
    Leaves (routeStep s k layer at0 f) (Within ⟨true, r, x⟩ s) := by
  unfold routeStep
  refine .ite .same ?_
  split
  · exact .fault
  · exact .ite .same .dp

theorem execRouteTopk_leaves (o : EngOp) (token : BitVec 16) (x : RouteRow) (s : State) :
    Leaves (execRouteTopk o token x s) (Within ⟨true, false, false⟩ s) := by
  unfold execRouteTopk
  refine .ite .same ?_
  split
  · exact .fault
  · exact runEngine_leaves

theorem execSendRecord_leaves (o : EngOp) (token : BitVec 16) (kr : Fin 2) (row : Nat) (len : RowLen) (area : Nat) (s : State) :
    Leaves (execSendRecord o token kr row len area s) (Within ⟨true, false, false⟩ s) := by
  unfold execSendRecord
  refine .ite .same ?_
  split
  · exact .fault
  · extract_lets rl f
    split
    · exact .same
    · split
      · exact .same
      · exact runEngine_leaves

theorem execExpertStream_leaves (yard : Yard) (layer : BitVec 12) (lead which : Nat) (at0 : When) (s : State) :
    Leaves (execExpertStream yard layer lead which at0 s) (Within ⟨true, false, false⟩ s) := by
  unfold execExpertStream
  refine .ite .same ?_
  split
  · exact .fault
  · extract_lets rl
    split
    · exact .same
    · exact .ite .same (.ite .fault .dp)

theorem execFxeEntryIssue_leaves (i : FxeIssue) (s : State) : Leaves (execFxeEntryIssue i s) (Within ⟨true, false, false⟩ s) := by
  unfold execFxeEntryIssue
  refine .ite .same ?_
  split
  · exact .same
  · exact .ite .fault (.ite .same .dp)

theorem execFxeBlockArrival_leaves (yard : Yard) (flight : Nat) (s : State) :
    Leaves (execFxeBlockArrival yard flight s) (Within ⟨true, false, false⟩ s) := by
  unfold execFxeBlockArrival
  split
  · exact .same
  · split
    · exact .same
    · exact .dp

/-! ### Engines and streams that also touch the controls -/

theorem execSfn_leaves (o : EngOp) (slot : Fin 64) (out : SfnOut) (mode : SfnMode) (a : Src) (dest : Nat) (at1 : BlockAt)
    (tableError : Option (Fin 128)) (s : State) : Leaves (execSfn o slot out mode a dest at1 tableError s) (Within ⟨true, false, true⟩ s) := by
  unfold execSfn
  exact .ite .same (.ite .fault (.after (.ofCtl s _) runEngine_leaves))

theorem execFastRead_leaves (yard : Yard) (flight part : Nat) (result : FastResult) (late : Bool) (s : State) :
    Leaves (execFastRead yard flight part result late s) (Within ⟨true, false, true⟩ s) := by
  unfold execFastRead
  split
  · exact .same
  · split
    · exact .same
    · exact .ite .same (.ite .fault .both)

theorem execShedRead_leaves (yard : Yard) (flight part : Nat) (poisoned late : Bool) (s : State) :
    Leaves (execShedRead yard flight part poisoned late s) (Within ⟨true, false, true⟩ s) := by
  unfold execShedRead
  split
  · exact .same
  · split
    · exact .same
    · exact .ite .same (.ite .fault .both)

theorem execSxeWrite_leaves (o : EngOp) (entry : BlockEntry) (conv : Option Fmt) (target : SxeTarget) (replayed late : Bool) (s : State) :
    Leaves (execSxeWrite o entry conv target replayed late s) (Within ⟨true, false, true⟩ s) :=
  .ite .same (.ite .fault (.ite .fault .both))

theorem execExpanderBlock_leaves (yard : Yard) (x : ExpRead) (late : Bool) (s : State) :
    Leaves (execExpanderBlock yard x late s) (Within ⟨true, false, true⟩ s) := by
  unfold execExpanderBlock
  split
  · exact .same
  · exact .ite .same .both

theorem nmaOp_leaves (kind : Nat) (o : NmaOp) (s : State) : Leaves (nmaOp kind o s) (Within ⟨true, false, true⟩ s) := by
  unfold nmaOp
  refine .ite .same ?_
  split
  · exact .fault
  · split
    · exact .fault
    · exact .ite .fault (.ite .fault .both)

theorem putBack_leaves (s : State) (r : Router) (o : EngOp) (x : ReturnRec) (core : Fin 40) (dest : Nat) :
    Leaves (putBack s r o x core dest) (Within ⟨true, false, true⟩ s) := by
  unfold putBack
  extract_lets k rl kept d mine home c
  split
  · exact .ite .dp (.ite .fault .dp)
  · exact .dp

theorem execReturnRecord_leaves (yard : Yard) (cluster : Cluster) (core : Fin 40) (layer : BitVec 12) (chan : Nat) (at0 : When)
    (area pos row width : Nat) (homeCore : Fin 40) (dest : Nat) (s : State) :
    Leaves (execReturnRecord yard cluster core layer chan at0 area pos row width homeCore dest s) (Within ⟨true, false, true⟩ s) := by
  unfold execReturnRecord
  refine .ite .same ?_
  extract_lets o
  split
  · exact .fault
  · exact .ite .same (.ite .fault (.ite (.after (.ofDp s _) (putBack_leaves _ _ _ _ _ _)) .both))

theorem execEpochLoaded_leaves (fn : BitVec 8) (l : LoadEnd) (s : State) : Leaves (execEpochLoaded fn l s) (Within ⟨true, false, true⟩ s) := by
  unfold execEpochLoaded
  split
  · exact .same
  · split
    · split
      · exact .same
      · refine .ite .same ?_
        split
        · exact .ctl
        · exact .both
    · exact .same

theorem execWeightRestore_leaves (yard : Yard) (u : UnitAt) (image : Nat) (read : MasterRead) (s : State) :
    Leaves (execWeightRestore yard u image read s) (Within ⟨true, false, true⟩ s) := by
  unfold execWeightRestore
  refine .ite .same ?_
  extract_lets s1
  cases read with
  | ok => exact .host (.afterParts (restoreWeight_stands _ _ _ _ _))
  | unreadable => exact .next (.ofCtl s _)

theorem execClusterHardFault_leaves (yard : Yard) (cluster : Cluster) (cause : FaultCause) (s : State) :
    Leaves (execClusterHardFault yard cluster cause s) (Within ⟨true, false, true⟩ s) := by
  unfold execClusterHardFault
  refine .ite .same ?_
  split
  · exact .ite .fault .both
  · exact .ctl

theorem flrTimeout_stands (s : State) (n : BitVec 8) : HostStands s (flrTimeout s n) := by
  unfold flrTimeout
  split
  · exact .refl s
  · exact .parts _ _ _

theorem execBell_leaves (b : BellIn) (s : State) : Leaves (execBell b s) (Within ⟨true, false, true⟩ s) := by
  unfold execBell
  refine .ite .same (.ite (.ite (.host (bellTick_stands s b)) .same) ?_)
  split
  · exact .ite (.host (bellFirst_stands s b)) .same
  · exact .same

/-! ### Commands on the controls -/

theorem execSqFetchFault_leaves (fn : BitVec 8) (q : Fin 4) (s : State) : Leaves (execSqFetchFault fn q s) (Within ⟨false, false, true⟩ s) := by
  unfold execSqFetchFault
  split
  · exact .same
  · exact .whenCtl

theorem execSiteReset_leaves (site : Fin 2) (fn : Option (BitVec 8)) (s : State) :
    Leaves (execSiteReset site fn s) (Within ⟨false, false, true⟩ s) := by
  cases fn with
  | none => exact .ctl
  | some n => exact .whenCtl

theorem execQntWindowClose_leaves (slot : Fin 64) (s : State) : Leaves (execQntWindowClose slot s) (Within ⟨false, false, true⟩ s) := by
  unfold execQntWindowClose
  split
  · exact .whenCtl
  · exact .same

theorem execEventWriteBack_leaves (fn : BitVec 8) (off : Nat) (value : Word) (s : State) :
    Leaves (execEventWriteBack fn off value s) (Within ⟨false, false, true⟩ s) := by
  unfold execEventWriteBack
  split
  · exact .same
  · exact .ite .same (.ite .ctl .whenCtl)

theorem execSeqProbe_leaves (fn : BitVec 8) (yard : Yard) (value : Word) (s : State) :
    Leaves (execSeqProbe fn yard value s) (Within ⟨false, false, true⟩ s) := by
  unfold execSeqProbe
  extract_lets l
  split
  · exact .ctl
  · exact .same

end Sys2Proof.Machine
end

section
/-! No write brings a register field to an encoding that the spec reserves (R12), write by write. -/

namespace Sys2Proof.Machine

open Sys2Proof

theorem field_lt (w : Word) (hi lo : Nat) : Bits.field w hi lo < 2 ^ (hi - lo + 1) := Nat.mod_lt _ (by positivity)

/-- The legal encodings, field by field. -/
theorem Cfg.ok_iff (c : Cfg) : c.ok = true ↔ (4 ≤ c.hangLimit ∧ c.hangLimit ≤ 1024) ∧ c.ceiling ≤ 2 ∧
    (9 ≤ c.factorKv ∧ 9 ≤ c.factorAct ∧ 64 ≤ c.window) ∧ (c.low < c.high ∧ 128 ≤ c.decay) ∧
    (1500 ≤ c.powerCap ∧ c.powerCap ≤ 4400) ∧ (1500 ≤ c.bmcCap ∧ c.bmcCap ≤ 4400) ∧ (12 ≤ c.log2i ∧ c.log2i ≤ 24) ∧ c.mode ≤ 2 ∧
    (c.trigSource ≤ 5 ∧ c.trigSource ≠ 1) ∧ c.streamSize ≤ 20 ∧ c.wearSel ≤ 16319 := by
  simp only [Cfg.ok, Bool.and_eq_true, decide_eq_true_eq, and_assoc]

/-- The registers' reset values are legal. -/
theorem Cfg.reset_ok : ({} : Cfg).ok = true := by decide

theorem Cfg.ite_ok {p : Prop} [Decidable p] {a b : Cfg} (ha : a.ok = true) (hb : b.ok = true) : (if p then a else b).ok = true := by
  split
  · exact ha
  · exact hb

/-- A register among a list by offset: the fields that it takes, or those of the registers behind it. -/
theorem Cfg.some_ite_ok {p : Prop} [Decidable p] {a : Cfg} {o : Option Cfg} (ha : a.ok = true) (ho : ∀ x ∈ o, x.ok = true) :
    ∀ x ∈ (if p then some a else o), x.ok = true := by
  split
  · rintro _ ⟨⟩
    exact ha
  · exact ho

/-- A covered register takes a write field by field, each only where the value is legal. -/
theorem Cfg.writeCovered_ok {c c' : Cfg} {off : Nat} {v : Word} (hc : c.ok = true) (h : c.writeCovered off v = some c') : c'.ok = true := by
  have ceiling := field_lt v 31 30
  have fields := c.ok_iff.1 hc
  revert c'
  unfold Cfg.writeCovered
  dsimp only
  repeat' apply Cfg.some_ite_ok
  case ho => simp
  all_goals
    rw [Cfg.ok_iff]
    simp only [keepUnless]
    grind

/-- So does a register that is not covered. -/
theorem Cfg.writePlain_ok {c : Cfg} (off : Nat) (v : Word) (hc : c.ok = true) : (c.writePlain off v).ok = true := by
  have fields := c.ok_iff.1 hc
  unfold Cfg.writePlain
  dsimp only
  refine Cfg.ite_ok ?_ (Cfg.ite_ok ?_ (Cfg.ite_ok ?_ (Cfg.ite_ok ?_ (Cfg.ite_ok ?_ (Cfg.ite_ok ?_
    (Cfg.ite_ok (Cfg.ite_ok hc ?_) (Cfg.ite_ok ?_ (Cfg.ite_ok ?_ (Cfg.ite_ok ?_ hc)))))))))
  all_goals
    rw [Cfg.ok_iff]
    simp only [keepUnless]
    grind

theorem Cfg.jnl_ok {c : Cfg} (v : Word) (hc : c.ok = true) : (c.jnl v).ok = true := by
  rw [Cfg.ok_iff] at hc ⊢
  have mode := field_lt v 29 28
  simp only [Cfg.jnl]
  grind

/-! ### Resets and trips (R326, R476, R479) -/

namespace Within

variable {s t : State}

/-- A change that keeps the queue and the legal encodings stays within the whole state. -/
theorem ofAll (hp : t.pending = s.pending) (ok : s.cfg.ok = true → t.cfg.ok = true) : Within ⟨true, true, true⟩ s t :=
  ⟨hp, (nomatch ·), (nomatch ·), (nomatch ·), ok⟩

/-- A change of the controls goes on beside any other. -/
theorem andCtl {e r : Bool} (h : Within ⟨e, r, true⟩ s t) (c : Ctl) : Within ⟨e, r, true⟩ s { t with ctl := c } :=
  h.trans (.ofCtl t c)

/-- A change of parts within wider parts. -/
theorem widen {w w' : Touch} (h : Within w s t) (he : w'.engines = false → w.engines = false)
    (hr : w'.registers = false → w.registers = false) (hc : w'.controls = false → w.controls = false) : Within w' s t :=
  ⟨h.pending, fun x => h.engines (he x), fun x => h.registers (hr x), fun x => h.controls (hc x), h.legal⟩

end Within

theorem restart_within (s : State) (warm : Bool) : Within ⟨true, true, true⟩ s (restart s warm) := .ofAll rfl fun _ => Cfg.reset_ok

theorem warmReset_within (s : State) (m : Interval) : Within ⟨true, true, true⟩ s (warmReset s m) :=
  (Within.ofCtl s _).trans (restart_within _ true)

theorem tripOff_within (s : State) (code : Nat) (input : BitVec 8) : Within ⟨true, true, true⟩ s (tripOff s code input) := by
  unfold tripOff
  exact .ite (.refl s) ((restart_within s false).andCtl _)

theorem thermalSample_within (s : State) (t : Temps) : Within ⟨true, true, true⟩ s (thermalSample s t) := by
  unfold thermalSample
  extract_lets was old _ _ c u
  have hu : Within ⟨true, true, true⟩ s u := .ofCtl s c
  exact .ite (hu.trans (tripOff_within _ _ _)) (.ite (hu.trans (tripOff_within _ _ _)) hu)

/-! ### Register writes (R12, R446-R453) -/

theorem jnlWrite_within (s : State) (v : Word) : Within ⟨false, true, true⟩ s (jnlWrite s v) := .ofCfg s _ _ (Cfg.jnl_ok v)

theorem trigWrite_within (s : State) (v : Word) : Within ⟨false, true, true⟩ s (trigWrite s v) := by
  refine .ofCfg s _ _ fun hc => ?_
  rw [Cfg.ok_iff] at hc ⊢
  dsimp only
  grind

theorem dumpWrite_within (s : State) (v : Word) : Within ⟨false, true, true⟩ s (dumpWrite s v) := by
  unfold dumpWrite
  extract_lets slot old cfg u d
  have hu : Within ⟨false, true, true⟩ s u := .ofCfg s cfg _ id
  refine .ite hu ?_
  split
  · exact hu
  · extract_lets c
    split
    · exact .ite (hu.andCtl _) (hu.andCtl _)
    · exact hu.andCtl _
    · exact hu.andCtl _

theorem streamCopy_within (s : State) (ok : Bool) : Within ⟨false, true, true⟩ s (streamCopy s ok) := by
  unfold streamCopy
  extract_lets d
  split
  · exact .refl s
  · exact .ite (.ofCfg s _ _ id) (.ite (.ofCtl s _) (.ofCtl s _))

theorem siteCtrl_within (s : State) (fn : BitVec 8) (v : Word) : Within ⟨false, true, true⟩ s (siteCtrl s fn v) := .ofCfg s _ _ id

theorem cfgCommit_within (s : State) : Within ⟨false, true, true⟩ s (cfgCommit s) := .ofCtl s _

theorem probeWrite_within (s : State) (fn : BitVec 8) (k : Yard) (v : Word) : Within ⟨false, true, true⟩ s (probeWrite s fn k v) := by
  unfold probeWrite
  split
  case h_1 t h => exact ((execSeqProbe_leaves fn k v s) t h).widen id (nomatch ·) id
  case h_2 => exact .refl s
  case h_3 => exact .refl s

/-! ### The mailbox (R374, R375) -/

/-- A mailbox command whose own part changes the controls alone. -/
theorem mailbox_within (s : State) (op : Byte) (allowed : Option SecSt) (need : Nat) {f : State → MbxEnd}
    (hf : ∀ u, Within ⟨false, true, true⟩ u (f u).state) : Within ⟨false, true, true⟩ s (mailbox s op allowed need f) := by
  unfold mailbox
  extract_lets old u e c
  have hu : Within ⟨false, true, true⟩ s u := .ofCfg s _ _ id
  have he : Within ⟨false, true, true⟩ u e.state := by
    unfold e
    split
    · split_ifs
      · exact .refl u
      · exact .refl u
      · exact hf u
    · split_ifs
      · exact .refl u
      · exact hf u
  exact .ite (.refl s) ((hu.trans he).andCtl _)

theorem mbxWrite_within (s : State) (bs : List Byte) (write : HostRead Unit) : Within ⟨false, true, true⟩ s (mbxWrite s bs write).state := by
  unfold mbxWrite
  split
  · exact .refl s
  · exact .refl s
  · exact .ofCtl s _

theorem mbxCmd_within (s : State) (v : Word) : Within ⟨false, true, true⟩ s (mbxCmd s v) := by
  unfold mbxCmd
  exact .ite (.refl s) (.ite (mailbox_within s _ none 0 fun u => .refl u) (.ofCfg s _ s.ctl id))

/-! ### A register write by its offset (R11, R12, R470-R472) -/

theorem barWrite_within (s : State) (fn : BitVec 8) (off : Nat) (v : Word) : Within ⟨true, true, true⟩ s (barWrite s fn off v) := by
  have wide {t : State} (h : Within ⟨false, true, true⟩ s t) : Within ⟨true, true, true⟩ s t := h.widen (nomatch ·) id id
  unfold barWrite
  extract_lets k yard
  refine .ite (.refl s) (.ite (.ite (warmReset_within s noMeter) (.refl s)) (.ite (.ite (wide (cfgCommit_within s)) (.refl s))
    (.ite (wide (siteCtrl_within s fn v)) (.ite (wide (mbxCmd_within s v)) (.ite (.ite (.ofCtl s _) (.refl s))
    (.ite (wide (jnlWrite_within s v)) (.ite (wide (trigWrite_within s v)) (.ite (wide (dumpWrite_within s v))
    (.ite (wide (probeWrite_within s fn k v)) (.ite (.ofCtl s _) ?_))))))))))
  split
  case h_1 cfg h => exact .ofCfg s cfg _ fun hc => Cfg.writeCovered_ok hc h
  case h_2 => exact .ofCfg s _ _ (Cfg.writePlain_ok off v)

theorem regWord_within (s : State) (fn : BitVec 8) (off : Nat) (v : Word) : Within ⟨true, true, true⟩ s (regWord s fn off v) := by
  unfold regWord
  split
  · exact .refl s
  · exact .ite (.ite (.refl s) (.ofCtl s _)) (.ite (.ite (barWrite_within s fn off v) (.refl s)) (.ite (.ofCtl s _)
      (.ite (.ofCtl s _) (.ite (barWrite_within s fn off v) (.refl s)))))

theorem regWrite_within (s : State) (a : RegAccess) : Within ⟨true, true, true⟩ s (regWrite s a) := by
  unfold regWrite
  exact .ite (.refl s) (.ite (regWord_within s _ _ _) (.ite ((regWord_within s _ _ _).trans (regWord_within _ _ _ _)) (.refl s)))

theorem i3cWrite_within (s : State) (off : Nat) (v : Word) : Within ⟨true, true, true⟩ s (i3cWrite s off v) := by
  unfold i3cWrite
  refine .ite (.ite (warmReset_within s noMeter) (.refl s)) (.ite (.ofCtl s _) (.ite (.ofCfg s _ s.ctl fun hc => ?_) (.refl s)))
  rw [Cfg.ok_iff] at hc ⊢
  simp only [keepUnless]
  grind

/-! ### The commands of the registers, the mailbox, the power pins and the streams -/

theorem execI3cPrivateWrite_leaves (address : BitVec 7) (off : Word) (value : Option Word) (s : State) :
    Leaves (execI3cPrivateWrite address off value s) (Within ⟨true, true, true⟩ s) := by
  unfold execI3cPrivateWrite
  refine .ite .ctl ?_
  extract_lets c
  split
  · exact .ctl
  · exact .next ((Within.ofCtl s c).trans (i3cWrite_within _ _ _))

theorem execDeviceWarmReset_leaves (fn : BitVec 8) (value : Word) (m : Interval) (s : State) :
    Leaves (execDeviceWarmReset fn value m s) (Within ⟨true, true, true⟩ s) := .ite (.next (warmReset_within s m)) .same

theorem execModEnLow_leaves (s : State) : Leaves (execModEnLow s) (Within ⟨true, true, true⟩ s) :=
  .next ((restart_within s false).andCtl _)

theorem execModRstNLow_leaves (s : State) : Leaves (execModRstNLow s) (Within ⟨true, true, true⟩ s) :=
  .next ((Within.ite (restart_within s false) (.refl s)).andCtl _)

theorem execRefclkLost_leaves (s : State) : Leaves (execRefclkLost s) (Within ⟨true, true, true⟩ s) := by
  unfold execRefclkLost
  exact .ite .same (.ite .ctl (.next ((restart_within s false).andCtl _)))

theorem execDumpDone_leaves (host : Bool) (s : State) : Leaves (execDumpDone host s) (Within ⟨true, true, true⟩ s) := by
  unfold execDumpDone
  split
  · exact .same
  · extract_lets u c t
    have hu : Within ⟨true, true, true⟩ s u := .ite (.ofCtl s _) (.refl s)
    have ht : Within ⟨true, true, true⟩ s t := hu.andCtl _
    exact .ite (.next (ht.trans (warmReset_within t noMeter))) (.next ht)

theorem execFwSupply_leaves (image : HostRead (Option FwImage)) (s : State) :
    Leaves (execFwSupply image s) (Within ⟨true, true, true⟩ s) := by
  unfold execFwSupply
  extract_lets image good img
  clear_value image
  refine .ite (.next ((Within.ofCtl s _).trans (warmReset_within _ noMeter)))
    (.next (Within.widen (mailbox_within s _ _ _ fun u => ?_) (nomatch ·) id id))
  split
  · exact .refl u
  · exact .refl u
  · exact .ofCtl u _

theorem execFwStage_leaves (image : HostRead (Option FwImage)) (programmed : Bool) (s : State) :
    Leaves (execFwStage image programmed s) (Within ⟨false, true, true⟩ s) := by
  refine .next (mailbox_within s _ _ _ fun u => ?_)
  split
  · exact .refl u
  · exact .refl u
  · dsimp only
    split_ifs
    · exact .refl u
    · exact .ofCtl u _
    · exact .ofCtl u _

theorem execKeyRegister_leaves (keys : HostRead (List Byte)) (s : State) :
    Leaves (execKeyRegister keys s) (Within ⟨false, true, true⟩ s) := by
  refine .next (mailbox_within s _ _ _ fun u => ?_)
  split
  · exact .refl u
  · exact .refl u
  · dsimp only
    split_ifs
    · exact .refl u
    · exact .refl u
    · exact .ofCtl u _

theorem execKeyRevoke_leaves (s : State) : Leaves (execKeyRevoke s) (Within ⟨false, true, true⟩ s) :=
  .next (mailbox_within s _ _ _ fun u => .ofCtl u _)

theorem execKeyRead_leaves (write : HostRead Unit) (s : State) : Leaves (execKeyRead write s) (Within ⟨false, true, true⟩ s) :=
  .next (mailbox_within s _ _ _ fun u => mbxWrite_within u _ write)

theorem execChainRead_leaves (write : HostRead Unit) (s : State) : Leaves (execChainRead write s) (Within ⟨false, true, true⟩ s) :=
  .next (mailbox_within s _ _ _ fun u => mbxWrite_within u _ write)

end Sys2Proof.Machine
end

section
/-! The frame of every command, and the statements that follow from it. -/

namespace Sys2Proof.Machine

open Sys2Proof

theorem doneReport_stands (s : State) (d : DoneIn) : HostStands s (doneReport s d) := by
  unfold doneReport
  exact .ite (.refl s) (.parts s _ _)

theorem cpmCritical_stands (s : State) (k : Yard) (l : Cluster) (code : BitVec 16) : HostStands s (cpmCritical s k l code) := by
  unfold cpmCritical
  exact .ite (.refl s) (.parts s _ _)

/-- An answer on DOE, or none. -/
theorem doeAnswer_leaves (s : State) (n : BitVec 8) (bs : List Byte) : Leaves (doeAnswer s n bs) (Within ⟨false, false, true⟩ s) := .whenCtl

/-- An answer on PMBus, or none. -/
theorem pmbus_leaves (s : State) (bs : List Byte) : Leaves (pmbus s bs) (Within ⟨false, false, true⟩ s) := .ite .ctl .ctl

/-! ### The instructions that run on the engine alone (R19, R40) -/

theorem laneOp_leaves (o : EngOp) (srcs : List Src) (d : Dst) (f : List (List Word) → List Word × ArithFlags) (s : State) :
    Leaves (laneOp o srcs d f s) (Within ⟨true, false, false⟩ s) := by
  unfold laneOp
  exact runEngine_leaves

theorem reduceOp_leaves (o : EngOp) (a : Src) (d : Dst) (f : Word → Word → Word × ArithFlags) (e : Word) (s : State) :
    Leaves (reduceOp o a d f e s) (Within ⟨true, false, false⟩ s) := by
  unfold reduceOp
  exact runEngine_leaves

theorem accOp_leaves (o : EngOp) (slot : Byte) (a : Src) (f : Nat → Word → Bool → Dp → Dp × ArithFlags) (s : State) :
    Leaves (accOp o slot a f s) (Within ⟨true, false, false⟩ s) := by
  unfold accOp
  exact runEngine_leaves

theorem execMxeDotProduct_leaves (o acc pair start a b n) (s : State) :
    Leaves (execMxeDotProduct o acc pair start a b n s) (Within ⟨true, false, false⟩ s) := by
  unfold execMxeDotProduct
  exact runEngine_leaves

theorem execPairMerge_leaves (o acc second) (s : State) :
    Leaves (execPairMerge o acc second s) (Within ⟨true, false, false⟩ s) := by
  unfold execPairMerge
  exact runEngine_leaves

theorem execAccReadout_leaves (o acc count pair hiOnly dest) (s : State) :
    Leaves (execAccReadout o acc count pair hiOnly dest s) (Within ⟨true, false, false⟩ s) := by
  unfold execAccReadout
  extract_lets
  exact runEngine_leaves

theorem execWelfordMerge_leaves (o a b dest) (s : State) :
    Leaves (execWelfordMerge o a b dest s) (Within ⟨true, false, false⟩ s) := by
  unfold execWelfordMerge
  exact runEngine_leaves

theorem execVarFinish_leaves (o a d) (s : State) :
    Leaves (execVarFinish o a d s) (Within ⟨true, false, false⟩ s) := by
  unfold execVarFinish
  exact runEngine_leaves

theorem execSsqMerge_leaves (o a b dest) (s : State) :
    Leaves (execSsqMerge o a b dest s) (Within ⟨true, false, false⟩ s) := by
  unfold execSsqMerge
  exact runEngine_leaves

theorem execRmsFinish_leaves (o a epsilon d) (s : State) :
    Leaves (execRmsFinish o a epsilon d s) (Within ⟨true, false, false⟩ s) := by
  unfold execRmsFinish
  exact runEngine_leaves

theorem execSmxTile_leaves (o scores values n d operand triple fresh) (s : State) :
    Leaves (execSmxTile o scores values n d operand triple fresh s) (Within ⟨true, false, false⟩ s) := by
  unfold execSmxTile
  exact runEngine_leaves

theorem execSmxMerge_leaves (o a b d) (s : State) :
    Leaves (execSmxMerge o a b d s) (Within ⟨true, false, false⟩ s) := by
  unfold execSmxMerge
  extract_lets
  exact runEngine_leaves

theorem execSmxFinish_leaves (o a d) (s : State) :
    Leaves (execSmxFinish o a d s) (Within ⟨true, false, false⟩ s) := by
  unfold execSmxFinish
  exact runEngine_leaves

theorem execRescale_leaves (o acc count pair table rowPair d) (s : State) :
    Leaves (execRescale o acc count pair table rowPair d s) (Within ⟨true, false, false⟩ s) := by
  unfold execRescale
  extract_lets
  exact runEngine_leaves

theorem execRowq_leaves (o row fmt store codes pair) (s : State) :
    Leaves (execRowq o row fmt store codes pair s) (Within ⟨true, false, false⟩ s) := by
  unfold execRowq
  extract_lets
  exact runEngine_leaves

theorem execKvConversion_leaves (o src n fmt table dest) (s : State) :
    Leaves (execKvConversion o src n fmt table dest s) (Within ⟨true, false, false⟩ s) := by
  unfold execKvConversion
  exact runEngine_leaves

/-! ### Every command -/

/-- Every command stays within the parts that the lists of the frame give it. -/
theorem exec_within (c : Instr) (s : State) : Leaves (exec c s) (Within (touched c) s) := by
  unfold exec
  cases c with
  -- packets
  | sessionOpen | sessionAppend | sessionGenerate | sessionFork | sessionClose | prefixPin | prefixUnpin | graphStore | graphPatch
  | graphLaunch | graphDrop | jobSuspend | jobResume | jobCancel | jobQuery | imageInstall | imageActivate | imageRetire | tuneOpen
  | tuneStep | tuneSave | tuneClose | selftest | marginReplan | markBegin | markEnd | counterSnapshot | fence | fnCreate | fnDestroy
  | fnSetShare | planLoad | planSelect | folioGet | ledgerConfig => exact .ctl
  -- events that change the controls whatever stands
  | functionLevelReset | vfEnableClear | atsInvalidation | storageRelease | folioSealed | cqWriteFault | outputWriteFault | siteLinkDown
  | siteLinkUp | awaitSpaceResume | refresh | sublinkLost | channelLost | phaseLost | cofferChannelLost | yardLost | cpmRaise
  | marginChanged | imageReady | planLoadComplete | siteLinkTrained | refclkReturn | vinRange | meterFault | leakNHigh => exact .ctl
  -- those that change them on a condition
  | dbgSnapGo | persistentWrite | modRstNRelease | firmwareCheck | thermalStepDown | thermalStepUp | criticalHalving | powerCapStepDown
  | hangLimitExpiry | progressStandstill | linkHoldExpiry => exact .whenCtl
  | qDoorbell | queueEnable | queueDisable | queueReset | qCqHead | qResume | regionCreate | regionDestroy | modEnHigh | leak
  | siteDegraded | idleRefresh | forcedRefresh | gradientPartial | tuneUpdate => exact .unlessCtl
  | powerCapStepUp => exact .ite (.ite (.ite .same .ctl) .ctl) .same
  | cfgCrcCheck => exact .ite .ctl .whenCtl
  | pcSample => exact .ite .same (.ite .ctl .ctl)
  -- the buses
  | doeDiscovery | getVersion | getCapabilities | negotiateAlgorithms | getDigests | getCertificate | challenge | getMeasurements =>
    exact doeAnswer_leaves s _ _
  | statusWord | statusInput | statusTemperature | readVin | readIin | readTemperature1 | readTemperature2 | readPin | pmbusRevision
  | mfrId => exact pmbus_leaves s _
  | i3cPrivateRead | setdasa | entdaa | clearFaults => exact .ite .ctl .ctl
  | i3cPrivateWrite => exact execI3cPrivateWrite_leaves _ _ _ s
  -- registers
  | cfgCommit => exact .whenCtl
  | eventWriteBack => exact execEventWriteBack_leaves _ _ _ s
  | seqProbe => exact execSeqProbe_leaves _ _ _ s
  | siteReset => exact execSiteReset_leaves _ _ s
  | journalArm | streamEnable => exact .ite (.next (jnlWrite_within s _)) .same
  | trig => exact .ite (.next (trigWrite_within s _)) .same
  | dumpFetch => exact .ite (.next (dumpWrite_within s _)) .same
  | streamRecordCopy => exact .ite (.next (streamCopy_within s _)) .same
  | registerWrite a => exact .next (regWrite_within s a)
  | deviceWarmReset => exact execDeviceWarmReset_leaves _ _ _ s
  -- the mailbox
  | fwSupply => exact execFwSupply_leaves _ s
  | fwStage => exact execFwStage_leaves _ _ s
  | keyRegister => exact execKeyRegister_leaves _ s
  | keyRevoke => exact execKeyRevoke_leaves s
  | keyRead => exact execKeyRead_leaves _ s
  | chainRead => exact execChainRead_leaves _ s
  -- power and dumps
  | modEnLow => exact execModEnLow_leaves s
  | modRstNLow => exact execModRstNLow_leaves s
  | inputTrip => exact .next (tripOff_within s _ _)
  | refclkLost => exact execRefclkLost_leaves s
  | leakOffExpiry => exact .ite (.next (tripOff_within s _ _)) .same
  | thermalSample t => exact .ite (.next (thermalSample_within s t)) .same
  | dumpDone => exact execDumpDone_leaves _ s
  -- the tick
  | bell b => exact execBell_leaves b s
  | admissionCutoff => exact .host (cutoff_stands s _)
  | doneReport d => exact .host (doneReport_stands s d)
  | weightRestore => exact execWeightRestore_leaves _ _ _ _ s
  | kvRestore => exact .ite .same (.host (restoreKv_stands s _ _ _))
  | hubTimerPeriod m => exact .ite .same (.host (timerPeriod_stands s m))
  | qntWindowClose => exact execQntWindowClose_leaves _ s
  | sqFetchFault => exact execSqFetchFault_leaves _ _ s
  | flrTimeout => exact .host (flrTimeout_stands s _)
  | epochLoaded => exact execEpochLoaded_leaves _ _ s
  -- streams
  | fxeEntryIssue => exact execFxeEntryIssue_leaves _ s
  | fxeBlockArrival => exact execFxeBlockArrival_leaves _ _ s
  | fastRead => exact execFastRead_leaves _ _ _ _ _ s
  | shedRead => exact execShedRead_leaves _ _ _ _ _ s
  | sxeWrite => exact execSxeWrite_leaves _ _ _ _ _ _ s
  | appendScatterStep => exact .ite .same (.host (scatterStep_stands s _ _))
  | expanderBlock => exact execExpanderBlock_leaves _ _ _ s
  | nmaLatent | nmaGqa => exact nmaOp_leaves _ _ s
  -- engines
  | add | sub | mul | fma | abs | neg | min | max | cmp | sel | cvt => exact laneOp_leaves _ _ _ _ s
  | rsum | rmax | rmin => exact reduceOp_leaves _ _ _ _ _ s
  | welfordAcc | ssqAcc => exact accOp_leaves _ _ _ _ s
  | mxeDotProduct => exact execMxeDotProduct_leaves _ _ _ _ _ _ _ s
  | pairMerge => exact execPairMerge_leaves _ _ _ s
  | accReadout => exact execAccReadout_leaves _ _ _ _ _ _ s
  | welfordMerge => exact execWelfordMerge_leaves _ _ _ _ s
  | varFinish => exact execVarFinish_leaves _ _ _ s
  | ssqMerge => exact execSsqMerge_leaves _ _ _ _ s
  | rmsFinish => exact execRmsFinish_leaves _ _ _ _ s
  | smxTile => exact execSmxTile_leaves _ _ _ _ _ _ _ _ s
  | smxMerge => exact execSmxMerge_leaves _ _ _ _ s
  | smxFinish => exact execSmxFinish_leaves _ _ _ s
  | rescale => exact execRescale_leaves _ _ _ _ _ _ _ s
  | rowq => exact execRowq_leaves _ _ _ _ _ _ s
  | kvConversion => exact execKvConversion_leaves _ _ _ _ _ _ s
  | sfn => exact execSfn_leaves _ _ _ _ _ _ _ _ s
  | routeTopk => exact execRouteTopk_leaves _ _ _ s
  | countReduce | slotBuild | slotTableMulticast | baseOffsetReturn => exact routeStep_leaves
  | sendRecord => exact execSendRecord_leaves _ _ _ _ _ _ s
  | returnRecord => exact execReturnRecord_leaves _ _ _ _ _ _ _ _ _ _ _ _ s
  | expertStream => exact execExpertStream_leaves _ _ _ _ _ s
  | wfence | clusterBarrier => exact .ite .same .dp
  | mark => exact .ite .both .same
  -- faults
  | clusterHardFault => exact execClusterHardFault_leaves _ _ _ s
  | rowRepair => exact .host (repairRow_stands s _)
  | channelRebuilt => exact .host (rebuildChannel_stands s _ _ _ _)
  | cxlPortLost => exact .host (losePort_stands s _)
  | shadowRehomed => exact .host (rehomeShadows_stands s _)
  | reliefReady => exact .host (reliefReady_stands s _ _)
  | cpmCritical => exact .host (cpmCritical_stands s _ _ _)

/-- No command of the engines alone touches a register that hosts write. -/
theorem enginesOnly_and_touchesCfg (c : Instr) : (enginesOnly c && touchesCfg c) = false := by
  cases c <;> rfl

end Sys2Proof.Machine

open Sys2Proof Sys2Proof.Machine

/-- Settles O2: each part of the frame is a field of `exec_within`, with the parts that the command's lists give it. -/
theorem frameOfParts : Obligations.FrameOfParts := by
  refine ⟨fun c s t h => (exec_within c s t h).pending, fun c s t engines h => ?_, fun c s t out h => (exec_within c s t h).engines out,
    fun c s t out h => (exec_within c s t h).registers out⟩
  have frame := exec_within c s t h
  exact ⟨frame.controls (by simp [touched, engines]), frame.registers (by simpa [touched, engines] using enginesOnly_and_touchesCfg c)⟩

/-- Settles O4: a command brings no field to a reserved encoding, and the rest of the queue leaves the registers. -/
theorem stepKeepsLegalRegisters : Obligations.StepKeepsLegalRegisters := by
  intro s t legal h
  unfold step at h
  split at h
  · cases h
    exact legal
  · exact (exec_within _ _ t h).legal legal

end

section
/-! The state after reset, and what every reset of the device leaves (R14, R326, R476, R477, R479, R488, R491). -/

namespace Sys2Proof.Machine

open Sys2Proof

/-! ### After reset -/

/-- Every yard stands at its reset values. -/
theorem Ctl.reset_yd (k : Yard) : Ctl.reset.yd k = {} := by
  simp [Ctl.yd, Ctl.reset]

/-- No event register holds an event. -/
theorem Ctl.reset_ev (r : EvReg) : Ctl.reset.ev r = {} := by
  cases r with
  | arith k | mem k | kv k | yras k => simp [Ctl.ev, Ctl.reset_yd]
  | _ => rfl

/-! ### After a reset of the device -/

theorem restart_cleared (s : State) (warm : Bool) : Cleared (restart s warm) := ⟨rfl, rfl, rfl, rfl, rfl, rfl, rfl, rfl⟩

/-- What a reset cleared stays so where a change of the controls leaves the objects. -/
theorem Cleared.withCtl {s : State} (h : Cleared s) {c : Ctl} (hc : c.objs = s.ctl.objs) : Cleared { s with ctl := c } := by
  unfold Cleared
  rw [hc]
  exact h

/-- A trip with the main rails up (R476). -/
theorem tripOff_mains {s : State} (h : s.ctl.pwr.st.mains = true) (code : Nat) (input : BitVec 8) :
    Cleared (tripOff s code input) ∧ (tripOff s code input).ctl.prs.words = s.ctl.prs.words ∧
      (tripOff s code input).ctl.sec.keys = s.ctl.sec.keys ∧ (tripOff s code input).ctl.pwr.st = .standby ∧
      (tripOff s code input).ctl.pwr.pg = false ∧ (tripOff s code input).ctl.pwr.trip = code := by
  simp only [tripOff, h, Bool.not_true, Bool.false_eq_true, if_false]
  exact ⟨(restart_cleared s false).withCtl rfl, rfl, rfl, rfl, rfl, rfl⟩

/-- What raising PWR_EVENT keeps beside the supply's block, and the register that it leaves (R454). -/
theorem raise_pwr_keeps (c : Ctl) (cfg : Cfg) (bits : BitVec 16) :
    (c.raise cfg .pwr bits).objs = c.objs ∧ (c.raise cfg .pwr bits).prs = c.prs ∧ (c.raise cfg .pwr bits).sec = c.sec ∧
      (c.raise cfg .pwr bits).pwr = { c.pwr with event := c.pwr.event.raise bits } := by
  obtain ⟨x, same, eq⟩ := raise_pwr c cfg bits
  rw [eq]
  exact ⟨same.objs, same.prs, same.sec, same.pwr⟩

end Sys2Proof.Machine

open Sys2Proof Sys2Proof.Machine

/-- Settles O5: memory is empty and the registers' reset values are legal. -/
theorem resetIsGood : Obligations.ResetIsGood := ⟨⟨rfl, Cfg.reset_ok⟩, rfl⟩

/-- Settles O6: the offsets are read one by one, and no event register holds an event (`Ctl.reset_ev`). -/
theorem resetReadsItsTables : Obligations.ResetReadsItsTables := by
  refine ⟨by decide, fun r => ?_⟩
  rw [show State.reset.ctl = Ctl.reset from rfl, Ctl.reset_ev]
  rfl

/-- Settles O31: every reset is `restart` followed by a change of the controls that leaves the objects. -/
theorem resetsClearVolatileState : Obligations.ResetsClearVolatileState := by
  intro s
  have cleared := restart_cleared s false
  refine ⟨⟨_, rfl, cleared.withCtl rfl, rfl, rfl, rfl, rfl, rfl, rfl⟩, fun mains => ?_, fun cause mains => ?_, fun mains leak off => ?_,
    fun mains clock => ?_, fun fn v m => ⟨fun access key warm => ?_, fun key => ?_⟩⟩
  · have reset : exec .modRstNLow s = .next { restart s false with ctl := (restart s false).ctl.onPwr fun p => { p with rstN := false } } := by
      simp [exec, execModRstNLow, mains]
    exact ⟨_, reset, cleared.withCtl rfl, rfl, rfl, rfl, rfl⟩
  · obtain ⟨clear, words, keys, standby, pg, trip⟩ := tripOff_mains mains (tripCode cause).1 (tripCode cause).2
    exact ⟨_, rfl, clear, words, keys, standby, pg, by rw [trip]; cases cause <;> rfl⟩
  · obtain ⟨clear, words, keys, standby, -, trip⟩ := tripOff_mains mains 7 0#8
    exact ⟨_, by simp [exec, execLeakOffExpiry, leak, off], clear, words, keys, standby, trip⟩
  · have reset : exec .refclkLost s = .next { restart s false with
        ctl := ((restart s false).ctl.onPwr fun p => { p with refclk := false }).raise (restart s false).cfg .pwr 128#16 } := by
      simp [exec, execRefclkLost, mains, clock]
    obtain ⟨objs, prs, sec, pwr⟩ := raise_pwr_keeps ((restart s false).ctl.onPwr fun p => { p with refclk := false }) (restart s false).cfg 128#16
    refine ⟨_, reset, cleared.withCtl objs, ?_, ?_, ?_, ?_⟩
    · rw [prs]; rfl
    · rw [sec]; rfl
    · rw [pwr]; rfl
    · simp [Ctl.ev, pwr, EventReg.raise]
  · refine ⟨warmReset s m, ?_, restart_cleared _ true, rfl⟩
    simp [exec, execDeviceWarmReset, access, key, warm]
  · simp [exec, execDeviceWarmReset, key]

end

section
/-! Write-backs of event registers (R13, R455). -/

namespace Sys2Proof.Machine

open Sys2Proof

@[simp] theorem Ctl.yd_onYard_same (c : Ctl) (k : Yard) (f : Yd → Yd) : (c.onYard k f).yd k = f (c.yd k) := by
  simp [Ctl.yd, Ctl.onYard]

/-- The offsets of the event registers are distinct (R470). -/
theorem evRegAt_off (r : EvReg) : evRegAt r.off = some r := by
  cases r with
  | arith k | mem k | kv k | yras k => revert k; decide
  | _ => rfl

/-- None of them lies in the management function's own window. -/
theorem EvReg.off_ne_fnEvent (r : EvReg) : r.off ≠ 0x2020000 := by
  cases r <;> simp only [EvReg.off] <;> omega

/-- The controls after an event register of the device is cleared: the register, and what stands beside it. -/
theorem Ctl.clearEv_keeps (c : Ctl) (r : EvReg) (e : EventReg) :
    ((c.setEv r e).clearBeside r).ev r = e ∧ ((c.setEv r e).clearBeside r).fns = c.fns ∧ ((c.setEv r e).clearBeside r).objs = c.objs ∧
      ((c.setEv r e).clearBeside r).fe = c.fe ∧ ((c.setEv r e).clearBeside r).bus = c.bus := by
  cases r <;> simp [Ctl.ev, Ctl.setEv, Ctl.clearBeside]

/-- A write-back names the present sequence number, or not. -/
theorem EventReg.current_iff (e : EventReg) (v : Word) : e.current v = true ↔ v.extractLsb' 16 16 = e.seq := decide_eq_true_iff

/-- A write-back at an event register's offset is that register's, where no yard is lost (R463). -/
theorem Ctl.backAt_off {c : Ctl} (lost : ∀ k : Yard, (c.yd k).lost = false) (r : EvReg) (v : Word) : c.backAt r.off v = c.evBack r v := by
  simp [Ctl.backAt, lost, evRegAt_off]

/-- The management function of a running device reaches the event registers. -/
theorem exec_eventWriteBack_off {s : State} {fn : BitVec 8} {f : Fn} (running : s.ctl.sec.st = .running) (hf : s.ctl.fn? fn = some f)
    (mgmt : s.ctl.isMgmt fn = true) (physical : f.physical = true) (lost : ∀ k : Yard, (s.ctl.yd k).lost = false) (r : EvReg) (v : Word) :
    exec (.eventWriteBack fn r.off v) s = .next { s with ctl := s.ctl.evBack r v } := by
  simp [exec, execEventWriteBack, hf, running, physical, mgmt, EvReg.off_ne_fnEvent, Ctl.backAt_off lost]

/-- Every function of a running device reaches its own FN_EVENT. -/
theorem exec_eventWriteBack_fn {s : State} {fn : BitVec 8} {f : Fn} (running : s.ctl.sec.st = .running) (hf : s.ctl.fn? fn = some f)
    (v : Word) : exec (.eventWriteBack fn (if f.physical = true then 0x2020000 else 0x20000) v) s =
      .next { s with ctl := s.ctl.fnBack fn v } := by
  simp [exec, execEventWriteBack, hf, running]

/-- A function after a write-back of its FN_EVENT. -/
def Fn.backed (f : Fn) (v : Word) : Fn :=
  if f.event.current v then { f with event := f.event.writeBack v, queues := f.queues.map fun y => { y with faultAddr := none } } else f

theorem Fn.backed_num (f : Fn) (v : Word) : (f.backed v).num = f.num := by
  unfold Fn.backed
  split <;> rfl

theorem Ctl.fnBack_fn? {c : Ctl} {n : BitVec 8} {f : Fn} (hf : c.fn? n = some f) (v : Word) : (c.fnBack n v).fn? n = some (f.backed v) :=
  Ctl.fn?_onFn hf (·.backed v) (·.backed_num v)

theorem Fn.backed_event (f : Fn) (v : Word) :
    (f.backed v).event = if v.extractLsb' 16 16 = f.event.seq then ⟨f.event.seq, 0#16⟩ else f.event := by
  by_cases h : v.extractLsb' 16 16 = f.event.seq <;> simp [Fn.backed, EventReg.writeBack, EventReg.current_iff, h]

theorem Fn.backed_queues {f : Fn} {v : Word} (h : v.extractLsb' 16 16 = f.event.seq) : ∀ y ∈ (f.backed v).queues, y.faultAddr = none := by
  simp [Fn.backed, EventReg.current_iff, h]

end Sys2Proof.Machine

open Sys2Proof Sys2Proof.Machine

/-- Settles O24: a current write-back is `clearEv_keeps`, any other is the identity; FN_EVENT's is `Fn.backed`. -/
theorem writeBacksClearOnlyWhenCurrent : Obligations.WriteBacksClearOnlyWhenCurrent := by
  intro s fn f v running hf
  refine ⟨fun r mgmt physical lost => ?_, _, _, exec_eventWriteBack_fn running hf v, Ctl.fnBack_fn? hf v, rfl, rfl, f.backed_event v,
    Fn.backed_queues⟩
  have back := exec_eventWriteBack_off running hf mgmt physical lost r v
  refine ⟨fun current => ?_, fun stale => ?_⟩
  · obtain ⟨ev, fns, objs, fe, bus⟩ := s.ctl.clearEv_keeps r ⟨(s.ctl.ev r).seq, 0#16⟩
    have cleared : s.ctl.evBack r v = (s.ctl.setEv r ⟨(s.ctl.ev r).seq, 0#16⟩).clearBeside r := by
      simp [Ctl.evBack, EventReg.writeBack, EventReg.current_iff, current]
    exact ⟨_, back, by rw [cleared, ev], rfl, rfl, by rw [cleared, fns], by rw [cleared, objs], by rw [cleared, fe], by rw [cleared, bus]⟩
  · rw [back, Ctl.evBack, if_neg (by rwa [EventReg.current_iff])]

end

section
/-! Register writes of the management function, offset by offset (R11, R12). -/

namespace Sys2Proof.Machine

open Sys2Proof

/-- An aligned access of 32 bits is a write of its word. -/
theorem exec_registerWrite_word (s : State) (fn : BitVec 8) {off : Nat} (aligned : off % 4 = 0) (value : BitVec 64) :
    exec (.registerWrite ⟨fn, off, 4, value⟩) s = .next (regWord s fn off (value.extractLsb' 0 32)) := by
  simp [exec, execRegisterWrite, regWrite, aligned]

theorem extract_zeroExtend (v : Word) : (v.zeroExtend 64).extractLsb' 0 32 = v := by
  ext i hi
  simp [hi]
  omega

/-- The offsets below the yards' blocks of the registers that a write does more with than take their fields. -/
def actionOffsets : List Nat := [0x10, 0x10C, 0xA08, 0x300000, 0x700004, 0x700020, 0x700024, 0x700050]

/-- A covered register without further actions takes the fields that `Cfg.writeCovered` gives. -/
theorem barWrite_covered {s : State} {fn : BitVec 8} {off : Nat} {v : Word} {cfg : Cfg} (below : off < 0x800000)
    (plain : off ∉ actionOffsets) (h : s.cfg.writeCovered off v = some cfg) : (barWrite s fn off v).cfg = cfg := by
  simp only [actionOffsets, List.mem_cons, List.not_mem_nil, or_false, not_or] at plain
  simp [barWrite, plain, h, show ¬ 0x800000 ≤ off by omega, show ¬ 0x1000000 ≤ off by omega]

section

variable {s : State} {fn : BitVec 8} {f : Fn} (hf : s.ctl.fn? fn = some f) (physical : f.physical = true)
  (mgmt : s.ctl.isMgmt fn = true) (running : s.ctl.sec.st = .running) {off : Nat} (v : Word)

include hf physical mgmt running

/-- The management function of a running device writes BAR0 outside its own window. -/
theorem regWord_mgmt (bar : off < pciBase) (window : off / 0x100000 ≠ 0x20) : regWord s fn off v = barWrite s fn off v := by
  simp [regWord, hf, physical, mgmt, running, window, Nat.not_le.2 bar]

theorem exec_registerWrite_mgmt (aligned : off % 4 = 0) (below : off < 0x800000) :
    exec (.registerWrite ⟨fn, off, 4, v.zeroExtend 64⟩) s = .next (barWrite s fn off v) := by
  rw [exec_registerWrite_word s fn aligned, extract_zeroExtend,
    regWord_mgmt hf physical mgmt running v (by unfold pciBase; omega) (by omega)]

theorem exec_registerWrite_covered {cfg : Cfg} (aligned : off % 4 = 0) (below : off < 0x800000) (plain : off ∉ actionOffsets)
    (h : s.cfg.writeCovered off v = some cfg) : ∃ t, exec (.registerWrite ⟨fn, off, 4, v.zeroExtend 64⟩) s = .next t ∧ t.cfg = cfg :=
  ⟨_, exec_registerWrite_mgmt hf physical mgmt running v aligned below, barWrite_covered below plain h⟩

end

end Sys2Proof.Machine

open Sys2Proof Sys2Proof.Machine

/-- Settles O26: the widths are the cases of `regWrite`; a field that a write takes is `keepUnless` of the value written, in
`Cfg.writeCovered`, `Cfg.jnl` and `trigWrite`. -/
theorem reservedFieldsKeepTheirValue : Obligations.ReservedFieldsKeepTheirValue := by
  refine ⟨fun s a => ⟨fun bad => ?_, fun aligned wide => ?_, fun narrow => ?_⟩, fun s fn f v hf physical mgmt running => ?_⟩
  · have width4 (h : a.off % 4 = 0) : a.width ≠ 4 := by omega
    have width8 (h : a.off % 4 = 0) : a.width ≠ 8 := by omega
    by_cases h : a.off % 4 = 0 <;> simp [exec, execRegisterWrite, regWrite, h, width4, width8]
  · have high : (a.value >>> 32).extractLsb' 0 32 = a.value.extractLsb' 32 32 := by
      ext i hi
      simp
    refine ⟨_, _, exec_registerWrite_word s a.fn aligned _, exec_registerWrite_word _ a.fn (by omega) _, ?_⟩
    simp [exec, execRegisterWrite, regWrite, aligned, wide, high]
  · simp [regReadBytes, show ¬ 4 < a.width by omega]
  · have write {off : Nat} := exec_registerWrite_mgmt hf physical mgmt running (off := off) v
    have covered {off : Nat} {cfg : Cfg} := exec_registerWrite_covered hf physical mgmt running (off := off) v (cfg := cfg)
    refine ⟨covered rfl (by decide) (by decide) ?_, covered rfl (by decide) (by decide) ?_, covered rfl (by decide) (by decide) ?_,
      covered rfl (by decide) (by decide) ?_, covered rfl (by decide) (by decide) ?_, covered rfl (by decide) (by decide) ?_,
      ⟨_, write rfl (by decide), ?journal⟩, ⟨_, write rfl (by decide), ?trigger⟩⟩
    case journal => simp [barWrite, jnlWrite, Cfg.jnl]
    case trigger => simp [barWrite, trigWrite]
    all_goals simp [Cfg.writeCovered, keepUnless]

end

section
/-! The scatter engine: where its writes land and how fences hold them, the commit mask and the marks (R19, R40, R165-R167, R171, R229, R441). -/

namespace Sys2Proof.Machine

open Sys2Proof

/-! ### Runs of bytes -/

theorem Mem.writeN_append (m : Mem) (k : Nat) (as bs : List Byte) :
    m.writeN k (as ++ bs) = (m.writeN k as).writeN (k + as.length) bs := by
  induction as generalizing m k with
  | nil => rfl
  | cons a as ih => simp [Mem.writeN, ih, Nat.add_assoc, Nat.add_comm 1]

theorem Mem.getElem_readN (m : Mem) (k n i : Nat) (h : i < (m.readN k n).length) : (m.readN k n)[i] = m.read (k + i) := by
  induction n generalizing k i with
  | zero => simp at h
  | succ n ih =>
    cases i with
    | zero => rfl
    | succ i => simp [Mem.readN, ih, Nat.add_assoc, Nat.add_comm 1]

/-- A write of several bytes is read back. -/
theorem Mem.readN_writeN_same (m : Mem) (k : Nat) (bs : List Byte) (h : m.wf = true) : (m.writeN k bs).readN k bs.length = bs :=
  List.ext_getElem (by simp) fun i _ hi => by rw [Mem.getElem_readN, Mem.read_writeN_inside _ _ _ _ h hi]

/-- A write leaves what is read beyond it. -/
theorem Mem.readN_writeN_beyond (m : Mem) (k j n : Nat) (bs : List Byte) (h : m.wf = true) (beyond : k + bs.length ≤ j) :
    (m.writeN k bs).readN j n = m.readN j n :=
  List.ext_getElem (by simp) fun i _ _ => by
    rw [Mem.getElem_readN, Mem.getElem_readN, Mem.read_writeN_outside _ _ _ _ h (.inr (by omega))]

/-! ### A run of units, none of them under an earlier unfenced write (R165, R167) -/

/-- The first unfenced write of a unit below the shed lands in memory, and its record keeps the old contents. -/
theorem Dp.sxeUnit_first {d : Dp} {key : Nat} (sk cluster : Nat) (bs : List Byte) (mark : Bool) (tier : key / 64 < 2 ^ 41)
    (first : ∀ w ∈ d.unfenced, w.unit ≠ key / 64) :
    (d.sxeUnit sk cluster key bs mark).mem = d.mem.writeN key bs ∧
      (d.sxeUnit sk cluster key bs mark).unfenced =
        ⟨cluster, key / 64, d.mem.readN (64 * (key / 64)) 64, d.poison.contains (key / 64)⟩ :: d.unfenced := by
  have stands : d.adoptAny sk (key / 64) = d := if_neg (Nat.not_le.2 tier)
  have unrecorded : d.unfenced.find? (·.unit = key / 64) = none := by simpa [List.find?_eq_none] using first
  simp [Dp.sxeUnit, stands, unrecorded, Dp.write]

/-- The first `n` units of an SXE write of a run. -/
def Dp.sxeUnits (d : Dp) (sk cluster key : Nat) (bs : List Byte) (marks : List Bool) (n : Nat) : Dp :=
  (List.range n).foldl (fun d i => d.sxeUnit sk cluster (key + 64 * i) ((bs.drop (64 * i)).take 64) (marks.getD i false)) d

theorem Dp.sxeUnits_succ (d : Dp) (sk cluster key : Nat) (bs : List Byte) (marks : List Bool) (n : Nat) :
    d.sxeUnits sk cluster key bs marks (n + 1) =
      (d.sxeUnits sk cluster key bs marks n).sxeUnit sk cluster (key + 64 * n) ((bs.drop (64 * n)).take 64) (marks.getD n false) := by
  simp [Dp.sxeUnits, List.range_succ]

/-- From `d` to `e` the first `n` units of the bytes `bs` have landed at `key`, and a record of the cluster keeps the old contents of each. -/
structure UnitsLanded (d e : Dp) (cluster key : Nat) (bs : List Byte) (n : Nat) : Prop where
  mem : e.mem = d.mem.writeN key (bs.take (64 * n))
  below : ∀ w ∈ e.unfenced, w.unit < key / 64 + n
  kept : ∀ i < n, ∃ w ∈ e.unfenced, w.unit = key / 64 + i ∧ w.old = d.mem.readN (key + 64 * i) 64 ∧ w.cluster = cluster

theorem Dp.sxeUnits_landed {d : Dp} {key : Nat} {bs : List Byte} (sk cluster : Nat) (marks : List Bool) (aligned : key % 64 = 0)
    (fresh : d.unfenced = []) (wf : d.mem.wf = true) (n : Nat) (tier : key + 64 * n ≤ shedKeyOf 0) (size : 64 * n ≤ bs.length) :
    UnitsLanded d (d.sxeUnits sk cluster key bs marks n) cluster key bs n := by
  induction n with
  | zero => exact ⟨by simp [Dp.sxeUnits, Mem.writeN], by simp [Dp.sxeUnits, fresh], by simp⟩
  | succ n ih =>
    obtain ⟨mem, below, kept⟩ := ih (by omega) (by omega)
    have unit : (key + 64 * n) / 64 = key / 64 + n := by omega
    have start : 64 * (key / 64 + n) = key + 64 * n := by omega
    have done : (bs.take (64 * n)).length = 64 * n := by simp; omega
    rw [Dp.sxeUnits_succ]
    obtain ⟨mem', unfenced'⟩ := Dp.sxeUnit_first (d := d.sxeUnits sk cluster key bs marks n) (key := key + 64 * n) sk cluster
      ((bs.drop (64 * n)).take 64) (marks.getD n false) (by simp only [shedKeyOf] at tier; omega)
      (fun w hw => by have := below w hw; omega)
    have old : (d.mem.writeN key (bs.take (64 * n))).readN (key + 64 * n) 64 = d.mem.readN (key + 64 * n) 64 :=
      Mem.readN_writeN_beyond _ _ _ _ _ wf (by omega)
    rw [unit, start, mem, old] at unfenced'
    refine ⟨?_, fun w hw => ?_, fun i hi => ?_⟩
    · rw [mem', mem, Nat.mul_succ, List.take_add, Mem.writeN_append, done]
    · rw [unfenced', List.mem_cons] at hw
      rcases hw with rfl | hw
      · exact Nat.lt_succ_self _
      · exact Nat.lt_succ_of_lt (below w hw)
    · rw [unfenced']
      rcases Nat.lt_succ_iff_lt_or_eq.1 hi with hi | rfl
      · obtain ⟨w, hw, keeps⟩ := kept i hi
        exact ⟨w, List.mem_cons_of_mem _ hw, keeps⟩
      · exact ⟨_, List.mem_cons_self, rfl, rfl, rfl⟩

/-- An SXE write of whole units to an aligned run below the shed. -/
theorem Dp.sxeRun_landed {d : Dp} {key n : Nat} {bs : List Byte} (sk cluster : Nat) (marks : List Bool) (aligned : key % 64 = 0)
    (fresh : d.unfenced = []) (wf : d.mem.wf = true) (tier : key + 64 * n ≤ shedKeyOf 0) (size : bs.length = 64 * n) :
    UnitsLanded d (d.sxeRun sk cluster key bs marks) cluster key bs n := by
  have units : Bits.ceilDiv bs.length 64 = n := by simp only [Bits.ceilDiv]; omega
  have run : d.sxeRun sk cluster key bs marks = d.sxeUnits sk cluster key bs marks n := by rw [← units]; rfl
  rw [run]
  exact Dp.sxeUnits_landed sk cluster marks aligned fresh wf n tier size.ge

/-- An SXE write of whole units whose target is a single aligned run below the shed. -/
theorem Ctl.sxeLand_landed {c : Ctl} {d : Dp} {r : CoreRef} {e : BlockEntry} {target : SxeTarget} {bs : List Byte} {key n : Nat}
    (tag : RowTag) (marks : List Bool) (single : c.sxeTargets r e target bs.length = [(key, 0, bs.length)]) (aligned : key % 64 = 0)
    (fresh : d.unfenced = []) (wf : d.mem.wf = true) (tier : key + 64 * n ≤ shedKeyOf 0) (size : bs.length = 64 * n) :
    UnitsLanded d (c.sxeLand d r tag e target bs marks) (c.clu r.yard r.cluster.val) key bs n := by
  have run := Dp.sxeRun_landed (c.blockKey r.yard (if e.rel then some (refStall e.addr) else .none)) (c.clu r.yard r.cluster.val) marks
    aligned fresh wf tier size
  unfold Ctl.sxeLand
  simp only [single, List.foldl_cons, List.foldl_nil, List.drop_zero, Nat.zero_div, List.take_length]
  split
  · split <;> exact ⟨run.mem, run.below, run.kept⟩
  · exact run

/-- Where all units of a run have landed, memory holds its bytes there and is as before elsewhere. -/
theorem UnitsLanded.bytes {d e : Dp} {cluster key n : Nat} {bs : List Byte} (h : UnitsLanded d e cluster key bs n) (wf : d.mem.wf = true)
    (size : bs.length = 64 * n) : e.mem.readN key (64 * n) = bs ∧ d.sameOutside e [(key, 64 * n)] := by
  have mem : e.mem = d.mem.writeN key bs := by rw [h.mem, ← size, List.take_length]
  rw [mem, ← size]
  refine ⟨Mem.readN_writeN_same _ _ _ wf, fun k outside => ?_⟩
  rw [mem]
  exact Mem.read_writeN_outside _ _ _ _ wf (outside _ List.mem_cons_self)

/-! ### Conversion counters (R137, R138) -/

theorem Dp.clipRun_eq (d : Dp) (cluster layer chan : Nat) (cs : List Bool) : ∃ x, d.clipRun cluster layer chan cs = { d with clips := x } := by
  unfold Dp.clipRun
  generalize cs.mapIdx (fun i b => (i, b)) = ps
  induction ps generalizing d with
  | nil => exact ⟨d.clips, rfl⟩
  | cons p ps ih =>
    rw [List.foldl_cons]
    split
    · exact ih _
    · exact ih d

theorem Dp.convert_eq (d : Dp) (k : Yard) (cluster stall clipped n : Nat) :
    ∃ x, d.convert k cluster stall clipped n = { d with converted := x } := by
  unfold Dp.convert
  split <;> exact ⟨_, rfl⟩

/-- Counting a conversion changes the counters alone. -/
theorem Dp.countConv_eq (d : Dp) (core : Nat) (k : Yard) (tag : RowTag) (f : Fmt) (clipped : List Bool) :
    ∃ x y, d.countConv core k tag f clipped = { d with clips := x, converted := y } := by
  unfold Dp.countConv
  split
  · exact ⟨d.clips, d.converted, rfl⟩
  · obtain ⟨x, hx⟩ := d.clipRun_eq (core / 40) tag.layer.toNat tag.chan clipped
    rw [hx]
    obtain ⟨y, hy⟩ := Dp.convert_eq { d with clips := x } k (core / 40) tag.stall.toNat (clipped.filter id).length clipped.length
    exact ⟨x, y, hy⟩

/-! ### Events of a write: a replay and a breach of its deadline (R63, R168, R454) -/

theorem SameBut.yd {a b : Ctl} (h : SameBut a b) (k : Yard) : b.yd k = a.yd k := by simp only [Ctl.yd, h.yards]

/-- A breach counts in its yard and raises CONTRACT_BREACH there. -/
theorem Ctl.breach_yd (c : Ctl) (cfg : Cfg) (k : Yard) (cls cycle : Nat) (overrun : Bool) :
    ((c.breach cfg k cls cycle overrun).yd k).mem = (c.yd k).mem ∧
      ((c.breach cfg k cls cycle overrun).yd k).ras = (c.yd k).ras.raise 0x4000#16 := by
  have raised := raise_sameBut (c.countYard k (10 + cls) 1) cfg (.yras k) 0x4000#16 (by simp)
  have written := raised.trans (sameBut_journal _ cfg 4 (k.val * 4096 + 0xFFF) cycle (cls + (if overrun then 16 else 0)) [])
  have breached : SameBut ((c.countYard k (10 + cls) 1).setEv (.yras k) (((c.countYard k (10 + cls) 1).ev (.yras k)).raise 0x4000#16))
      (c.breach cfg k cls cycle overrun) := by
    unfold Ctl.breach
    dsimp only
    split
    · exact written.trans (sameBut_trigger _ cfg 3)
    · exact written
  rw [breached.yd]
  simp [Ctl.setEv, Ctl.countYard, Ctl.ev]

/-- The controls after the events of an SXE write in yard `k`. -/
def Ctl.sxeEvents (c : Ctl) (cfg : Cfg) (k : Yard) (replayed late : Bool) : Ctl :=
  let c := if replayed then (c.raise cfg (.mem k) 32#16).countYard k 9 1 else c
  if late then c.breach cfg k 5 0 false else c

theorem Ctl.sxeEvents_replayed (c : Ctl) (cfg : Cfg) (k : Yard) (late : Bool) :
    ((c.sxeEvents cfg k true late).ev (.mem k)).bits.getLsbD 5 = true := by
  have raised : ((c.raise cfg (.mem k) 32#16).yd k).mem = (c.yd k).mem.raise 32#16 := by
    rw [(raise_sameBut c cfg (.mem k) 32#16 (by simp)).yd]
    simp [Ctl.setEv, Ctl.ev]
  have counted : (((c.raise cfg (.mem k) 32#16).countYard k 9 1).yd k).mem = (c.yd k).mem.raise 32#16 := by
    rw [Ctl.countYard, Ctl.yd_onYard_same, raised]
  cases late with
  | false => simp [Ctl.sxeEvents, Ctl.ev, counted, EventReg.raise]
  | true => simp [Ctl.sxeEvents, Ctl.ev, (Ctl.breach_yd _ cfg k 5 0 false).1, counted, EventReg.raise]

theorem Ctl.sxeEvents_late (c : Ctl) (cfg : Cfg) (k : Yard) (replayed : Bool) :
    ((c.sxeEvents cfg k replayed true).ev (.yras k)).bits.getLsbD 14 = true := by
  simp [Ctl.sxeEvents, Ctl.ev, (Ctl.breach_yd _ cfg k 5 0 false).2, EventReg.raise]

/-! ### SXE_WRITE -/

/-- The bytes of the block that a write takes from its store. -/
def State.sxeSource (s : State) (o : EngOp) (e : BlockEntry) : List Byte :=
  s.dp.mem.readN (locKey (s.ctl.core o.core) (entryArea e)) (entryBytes e)

/-- The marks of what a write brings: those of its units, or one for all of a converted write's and of a faulty cluster's (R170, R379). -/
def State.sxeMarks (s : State) (o : EngOp) (e : BlockEntry) (conv : Option Fmt) (bs : List Byte) : List Bool :=
  let units := (List.range e.len).map fun i => s.dp.poison.contains (locKey (s.ctl.core o.core) (entryArea e) / 64 + i)
  let faulty := (s.ctl.seq o.core.yard o.core.cluster.val).faulty
  if conv = none && !faulty then units else List.replicate (Bits.ceilDiv bs.length 64) (faulty || units.any id)

/-- The engines once a write has landed, where its gate lets it (R166). -/
def State.sxeLanded (s : State) (o : EngOp) (e : BlockEntry) (target : SxeTarget) (bs : List Byte) (marks : List Bool) : Dp :=
  if s.dp.gateOpen o.core.yard e then s.ctl.sxeLand s.dp o.core o.tag e target bs marks else s.dp

/-- The engines `d` that a write has landed in, once its units, its conversion and the instruction are counted (R137, R339, R440). -/
def State.sxeCounted (s : State) (o : EngOp) (e : BlockEntry) (conv : Option Fmt) (target : SxeTarget) (bs : List Byte) (d : Dp) : Dp :=
  let d := if s.dp.gateOpen o.core.yard e then
      d.countUnits o.core.yard o.core.cluster.val o.tag.stall.toNat (s.ctl.sxeWork o.core e target bs.length) else d
  let d := match conv with
    | some f => d.countConv (s.ctl.core o.core) o.core.yard o.tag f
        ((sxeConvert f (s.sxeSource o e)).clipped.take ((s.sxeSource o e).length / 4))
    | none => d
  d.retireInstr o.core.yard o.core.cluster

theorem State.sxeCounted_eq (s : State) (o : EngOp) (e : BlockEntry) (conv : Option Fmt) (target : SxeTarget) (bs : List Byte) (d : Dp) :
    ∃ u x y p, s.sxeCounted o e conv target bs d = { d with units := u, clips := x, converted := y, progress := p } := by
  have units : ∃ u, (if s.dp.gateOpen o.core.yard e then
      d.countUnits o.core.yard o.core.cluster.val o.tag.stall.toNat (s.ctl.sxeWork o.core e target bs.length) else d) =
      { d with units := u } := by
    split
    · exact ⟨_, rfl⟩
    · exact ⟨d.units, rfl⟩
  obtain ⟨u, hu⟩ := units
  unfold State.sxeCounted
  rw [hu]
  cases conv with
  | none => exact ⟨u, d.clips, d.converted, _, rfl⟩
  | some f =>
    obtain ⟨x, y, h⟩ := Dp.countConv_eq { d with units := u } (s.ctl.core o.core) o.core.yard o.tag f
      ((sxeConvert f (s.sxeSource o e)).clipped.take ((s.sxeSource o e).length / 4))
    dsimp only
    rw [h]
    exact ⟨u, x, y, _, rfl⟩

/-- The controls once a made write through the score view has written the session's map (R219). -/
def State.sxeScored (s : State) (o : EngOp) (e : BlockEntry) (target : SxeTarget) (bs : List Byte) : Ctl :=
  match target with
  | .entry => if e.rel && e.addr.toNat >>> 60 = 4 && s.dp.gateOpen o.core.yard e then s.ctl.writeScores o.core.yard e.addr bs else s.ctl
  | .cluster _ _ => s.ctl

theorem State.sxeScored_eq (s : State) (o : EngOp) (e : BlockEntry) (target : SxeTarget) (bs : List Byte) :
    s.sxeScored o e target bs = if target = .entry ∧ e.rel = true ∧ e.addr.toNat >>> 60 = 4 ∧ s.dp.gateOpen o.core.yard e = true
      then s.ctl.writeScores o.core.yard e.addr bs else s.ctl := by
  cases target <;> simp [State.sxeScored, and_assoc]

section

variable {s : State} {o : EngOp} {e : BlockEntry} {conv : Option Fmt} {target : SxeTarget} {replayed late : Bool}

theorem exec_sxeWrite_held (held : s.ctl.issues o.core.yard o.core.cluster.val o.at0 = false) :
    exec (.sxeWrite o e conv target replayed late) s = .next s := by
  simp [exec, execSxeWrite, held]

variable (issues : s.ctl.issues o.core.yard o.core.cluster.val o.at0 = true)

include issues

theorem exec_sxeWrite_badFormat {f : Fmt} (bad : f.integer = true ∨ isElement f = false ∨ f = .fp32) :
    exec (.sxeWrite o e (some f) target replayed late) s = .fault .badFormat := by
  have refused : (f.integer || !isElement f || decide (f = .fp32)) = true := by simpa [or_assoc] using bad
  simp [exec, execSxeWrite, issues, refused]

variable (formats : ∀ f, conv = some f → f.integer = false ∧ isElement f = true ∧ f ≠ .fp32) {bs : List Byte}
  (source : bs = sxeBytes conv (s.sxeSource o e))

include formats source

theorem exec_sxeWrite_noSuchAddress (fits : s.ctl.sxeFits e target bs.length = false) :
    exec (.sxeWrite o e conv target replayed late) s = .fault .noSuchAddress := by
  subst source
  unfold State.sxeSource at fits
  cases conv with
  | none => simp [exec, execSxeWrite, issues, fits]
  | some f => simp [exec, execSxeWrite, issues, formats f rfl, fits]

/-- A write that issues and fits lands, is counted, and leaves its scores and its events. -/
theorem exec_sxeWrite_made (fits : s.ctl.sxeFits e target bs.length = true) :
    exec (.sxeWrite o e conv target replayed late) s = .next
      { s with
        dp := s.sxeCounted o e conv target bs (s.sxeLanded o e target bs (s.sxeMarks o e conv bs))
        ctl := (s.sxeScored o e target bs).sxeEvents s.cfg (s.ctl.home o.core.yard) replayed late } := by
  subst source
  unfold State.sxeSource at fits ⊢
  cases conv with
  | none =>
    simp only [exec, execSxeWrite, issues, fits, Bool.not_true, Bool.false_eq_true, if_false]
    rfl
  | some f =>
    simp only [exec, execSxeWrite, issues, formats f rfl, fits, Bool.not_true, Bool.or_self, decide_false, Bool.false_eq_true, if_false]
    rfl

end

/-! ### Fences (R167) -/

/-- A fence keeps records of other clusters alone. -/
theorem mem_of_mem_fenceWrites {cluster : Nat} {w : Unfenced} {ws : List Unfenced} {held : List Nat} (h : w ∈ fenceWrites cluster ws held) :
    w ∈ ws ∧ w.cluster ≠ cluster := by
  induction ws generalizing held with
  | nil => cases h
  | cons v ws ih =>
    unfold fenceWrites at h
    split at h
    · exact (ih h).imp_left (List.mem_cons_of_mem v)
    · split at h
      · exact (ih h).imp_left (List.mem_cons_of_mem v)
      next other =>
        rcases List.mem_cons.1 h with rfl | h
        · exact ⟨List.mem_cons_self, other⟩
        · exact (ih h).imp_left (List.mem_cons_of_mem v)

/-- It keeps every one of a unit that the fencing cluster has not written. -/
theorem mem_fenceWrites {cluster : Nat} {w : Unfenced} {ws : List Unfenced} {held : List Nat} (mem : w ∈ ws) (free : w.unit ∉ held)
    (other : w.cluster ≠ cluster) (apart : ∀ v ∈ ws, v.cluster = cluster → v.unit ≠ w.unit) : w ∈ fenceWrites cluster ws held := by
  induction ws generalizing held with
  | nil => cases mem
  | cons v ws ih =>
    have rest : w ∈ ws → ∀ held', w.unit ∉ held' → w ∈ fenceWrites cluster ws held' := fun h held' free' =>
      ih h free' fun v hv => apart v (List.mem_cons_of_mem _ hv)
    unfold fenceWrites
    split
    next found =>
      rcases List.mem_cons.1 mem with rfl | mem
      · exact absurd (by simpa using found) free
      · exact rest mem held free
    · split
      next own =>
        rcases List.mem_cons.1 mem with rfl | mem
        · exact absurd own other
        · refine rest mem _ ?_
          simp only [List.mem_cons, not_or]
          exact ⟨(apart v List.mem_cons_self own).symm, free⟩
      · rcases List.mem_cons.1 mem with rfl | mem
        · exact List.mem_cons_self
        · exact List.mem_cons_of_mem _ (rest mem held free)

theorem exec_wfence_fences {s : State} {y : YardAt} {l : Cluster} (issues : s.ctl.issues y.yard l.val y.at0 = true) :
    exec (.wfence y l) s = .next { s with
      dp := { s.dp with unfenced := fenceWrites (s.ctl.clu y.yard l.val) s.dp.unfenced [] }.retireInstr y.yard l } := by
  simp only [exec, execWfence, issues, Bool.not_true, Bool.false_eq_true, if_false]

/-! ### Commits (R166, R229) -/

/-- A yard's mask replaces its former one alone. -/
theorem commit_replaced (l : List (Yard × List Nat)) (k : Yard) (mask : List Nat) :
    (l.filter (·.1 ≠ k) ++ [(k, mask)]).find? (fun x => x.1 = k) = some (k, mask) ∧
      ∀ x : Yard × List Nat, x.1 ≠ k → (x ∈ l.filter (·.1 ≠ k) ++ [(k, mask)] ↔ x ∈ l) := by
  refine ⟨by simp [List.find?_append, List.find?_eq_none.2], fun x other => ?_⟩
  have fresh : x ≠ (k, mask) := fun h => other (by rw [h])
  simp [other, fresh]

theorem exec_clusterBarrier_forms {s : State} {y : YardAt} (due : y.at0.sched ≤ y.at0.cycle) {l : Cluster}
    (runs : s.ctl.segment y.yard l.val = true) :
    exec (.clusterBarrier y) s = .next { s with
      dp := { s.dp with commit := s.dp.commit.filter (·.1 ≠ y.yard) ++ [(y.yard, commitMask s.ctl s.dp y.yard)] } } := by
  have early : decide (y.at0.cycle < y.at0.sched) = false := by simpa using due
  have idle : (List.finRange 250).all (fun l => !s.ctl.segment y.yard l.val) = false := by simpa using ⟨l, runs⟩
  simp only [exec, execClusterBarrier, early, idle, Bool.or_self, Bool.false_eq_true, if_false]

theorem exec_clusterBarrier_held {s : State} {y : YardAt} (held : y.at0.cycle < y.at0.sched ∨ ∀ l : Cluster, s.ctl.segment y.yard l.val = false) :
    exec (.clusterBarrier y) s = .next s := by
  rcases held with early | idle
  · simp [exec, execClusterBarrier, early]
  · simp [exec, execClusterBarrier, idle]

/-- The append scatter step leaves every masked stall of the microbatches in its yard committed there. -/
theorem scatterStep_commits {s : State} {k : Yard} {p : Plan} {m : Micro} (plan : s.ctl.plan? = some p) (micro : s.ctl.microIn k = some m)
    (ws : List KvWrite) {x : Micro} (mem : x ∈ (scatterStep s k ws).ctl.fe.pipe) (yard : x.yard = k.val) {i : Nat} {st : Stall}
    (at0 : x.stalls[i]? = some st) (masked : i ∈ ((s.dp.commit.find? (·.1 = k)).map (·.2)).getD []) : k.val ∈ st.committed := by
  unfold scatterStep at mem
  simp only [plan, micro, Ctl.onFe, List.mem_map] at mem
  obtain ⟨y, -, rfl⟩ := mem
  split at yard
  next here =>
    simp only [here, if_true, List.getElem?_mapIdx, Option.map_eq_some_iff] at at0
    obtain ⟨old, -, rfl⟩ := at0
    by_cases done : k.val ∈ old.committed
    · simp [done]
    · simp [done, masked]
  next there => exact absurd yard there

end Sys2Proof.Machine

open Sys2Proof Sys2Proof.Machine

/-- Settles O46: a made write is `exec_sxeWrite_made`, a single run lands by `Ctl.sxeLand_landed`, an induction on its units; fences are
the two membership lemmas of `fenceWrites`, the barrier is `commit_replaced`, and the append step is `scatterStep_commits`. The model's choices
that it rests on are log 30 (an unfenced write lands at once, its old contents kept) and log 34 (the fault of a format). -/
theorem scatterWritesAreGatedAndFenced : Obligations.ScatterWritesAreGatedAndFenced := by
  intro s
  refine ⟨fun core at0 tag e conv target replayed late bs source => ⟨fun held => exec_sxeWrite_held (o := ⟨core, tag, at0⟩) held,
      fun issues => ⟨?formats, ?address, ?made⟩⟩,
    fun k l ident at0 held => ?held, fun k l at0 issues => ?fence, fun k at0 => ?barrier, fun k l ident at0 issues => ?mark,
    fun k ws idle => ?idle, fun k ws p m running plan micro => ?append⟩
  case formats =>
    rintro f rfl bad
    exact exec_sxeWrite_badFormat (o := ⟨core, tag, at0⟩) issues bad
  case address => exact fun formats fits => exec_sxeWrite_noSuchAddress (o := ⟨core, tag, at0⟩) issues formats source fits
  case made =>
    intro formats fits
    have made := exec_sxeWrite_made (o := ⟨core, tag, at0⟩) (replayed := replayed) (late := late) issues formats source fits
    obtain ⟨u, x, y, p, counted⟩ := s.sxeCounted_eq ⟨core, tag, at0⟩ e conv target bs
      (s.sxeLanded ⟨core, tag, at0⟩ e target bs (s.sxeMarks ⟨core, tag, at0⟩ e conv bs))
    rw [counted] at made
    refine ⟨_, s.sxeMarks ⟨core, tag, at0⟩ e conv bs, made, rfl, ?replayed, ?late, ?quiet, ?closed, ?opened, ?run⟩
    case replayed =>
      rintro rfl
      exact Ctl.sxeEvents_replayed _ _ _ _
    case late =>
      rintro rfl
      exact Ctl.sxeEvents_late _ _ _ _
    case quiet =>
      rintro rfl rfl
      exact s.sxeScored_eq ⟨core, tag, at0⟩ e target bs
    case closed =>
      intro gate
      rw [State.sxeLanded, if_neg (by simp [gate])]
      exact ⟨rfl, rfl, rfl⟩
    case opened =>
      intro gate
      rw [State.sxeLanded, if_pos gate]
      exact ⟨rfl, rfl⟩
    case run =>
      rintro key rfl gate single aligned tier fresh wf
      have size : bs.length = 64 * e.len := by simp [source, sxeBytes, entryBytes]
      have landed := Ctl.sxeLand_landed tag (s.sxeMarks ⟨core, tag, at0⟩ e none bs) (by rw [size]; exact single) aligned fresh wf tier size
      obtain ⟨bytes, outside⟩ := landed.bytes wf size
      rw [State.sxeLanded, if_pos gate]
      exact ⟨bytes.trans source, outside, landed.kept⟩
  case held => simp [exec, execWfence, execMark, held]
  case fence =>
    exact ⟨_, exec_wfence_fences issues, rfl, rfl, rfl, rfl, fun w kept => mem_of_mem_fenceWrites kept,
      fun w mem apart other => mem_fenceWrites mem List.not_mem_nil other apart⟩
  case barrier =>
    refine ⟨fun ⟨due, l, runs⟩ => ?_, fun held => exec_clusterBarrier_held held⟩
    obtain ⟨found, others⟩ := commit_replaced s.dp.commit k (commitMask s.ctl s.dp k)
    exact ⟨_, exec_clusterBarrier_forms due runs, rfl, rfl, rfl, found, others⟩
  case mark =>
    simp only [exec, execMark, issues]
    rfl
  case idle =>
    rcases idle with halted | plan | micro
    · simp [exec, execAppendScatterStep, halted]
    · simp [exec, execAppendScatterStep, scatterStep, plan]
    · simp [exec, execAppendScatterStep, scatterStep, micro]
  case append =>
    refine ⟨scatterStep s k ws, by simp [exec, execAppendScatterStep, running], (scatterStep_stands s k ws).cfg, ?_⟩
    exact fun x mem yard i st at0 masked => scatterStep_commits plan micro ws mem yard at0 masked

end

section
/-! Refreshes: what a breach of the contract leaves, and the plan's part in one (R58-R64). -/

namespace Sys2Proof.Machine

open Sys2Proof

/-- A breach counts in its yard, raises CONTRACT_BREACH there, and is recorded (R63, R64). -/
theorem Ctl.breach_sameBut (c : Ctl) (cfg : Cfg) (k : Yard) (cls cycle : Nat) (overrun : Bool) :
    SameBut ((c.countYard k (10 + cls) 1).setEv (.yras k) ((c.ev (.yras k)).raise 0x4000#16)) (c.breach cfg k cls cycle overrun) := by
  have counted : (c.countYard k (10 + cls) 1).ev (.yras k) = c.ev (.yras k) := by simp [Ctl.ev, Ctl.countYard]
  have raised := raise_sameBut (c.countYard k (10 + cls) 1) cfg (.yras k) 0x4000#16 (by simp)
  rw [counted] at raised
  have written := raised.trans (sameBut_journal _ cfg 4 (k.val * 4096 + 0xFFF) cycle (cls + (if overrun then 16 else 0)) [])
  unfold Ctl.breach
  dsimp only
  split
  · exact written.trans (sameBut_trigger _ cfg 3)
  · exact written

/-- A refresh that breaks the contract: the objects and the hub's register stand, the channels keep the refresh. -/
theorem Ctl.refreshBreach_keeps (c : Ctl) (cfg : Cfg) (k : Yard) (i : Fin 64) (cycle cls : Nat) (overrun : Bool) :
    ((c.refreshAt k i cycle).breach cfg k cls cycle overrun).objs = c.objs ∧
      (((c.refreshAt k i cycle).breach cfg k cls cycle overrun).yd k).channels = ((c.refreshAt k i cycle).yd k).channels ∧
      ((c.refreshAt k i cycle).breach cfg k cls cycle overrun).ev (.yras k) = (c.ev (.yras k)).raise 0x4000#16 ∧
      ((c.refreshAt k i cycle).breach cfg k cls cycle overrun).ev .hub = c.ev .hub := by
  have breached := (c.refreshAt k i cycle).breach_sameBut cfg k cls cycle overrun
  refine ⟨breached.objs, ?_, ?_, congrArg Hub.event breached.hub⟩
  · rw [breached.yd]
    simp [Ctl.setEv, Ctl.countYard]
  · rw [Ctl.ev, breached.yd]
    simp [Ctl.setEv, Ctl.countYard, Ctl.refreshAt, Ctl.ev]

/-- The plan's part in a breach raises CONTRACT_BREACH of the hub and stands beside the yards and the objects (R64). -/
theorem Ctl.planBreach_keeps (c : Ctl) (cfg : Cfg) :
    (c.planBreach cfg).yards = c.yards ∧ (c.planBreach cfg).objs = c.objs ∧ (c.planBreach cfg).ev .hub = (c.ev .hub).raise 2#16 := by
  have raised := raise_sameBut c cfg .hub 2#16 (by simp)
  have event : (c.raise cfg .hub 2#16).hub.event = c.hub.event.raise 2#16 := by rw [raised.hub]; rfl
  unfold Ctl.planBreach
  dsimp only
  split <;> exact ⟨raised.yards, raised.objs, event⟩

/-- A refresh that is forced on a busy channel. -/
theorem exec_forcedRefresh_busy {s : State} {k : Yard} {i : Fin 64} {cycle : Nat} (busy : s.ctl.yardBusy k = true)
    (late : 7680 < (cycle : Int) - (s.ctl.channel k i.val).refreshed) :
    exec (.forcedRefresh k i cycle) s = .next (s.withCtl
      (if s.ctl.tickLen ≤ cycle then (s.ctl.refreshAt k i cycle).breach s.cfg k 1 cycle true
       else ((s.ctl.refreshAt k i cycle).breach s.cfg k 1 cycle false).planBreach s.cfg)) := by
  have due : ¬ ((cycle : Int) - (s.ctl.channel k i.val).refreshed ≤ 768 + 6912) := by omega
  simp only [exec, execForcedRefresh, busy, due, Bool.not_true, decide_false, Bool.or_self, Bool.false_eq_true, if_false]
  by_cases overrun : s.ctl.tickLen ≤ cycle <;> simp [overrun, State.withCtl]

end Sys2Proof.Machine

open Sys2Proof Sys2Proof.Machine

/-- Settles O47: an idle channel's refresh is a record in the channels; a forced one is `Ctl.refreshBreach_keeps`, with
`Ctl.planBreach_keeps` behind it before the tick's length has passed. -/
theorem refreshesAreKeptAndForced : Obligations.RefreshesAreKeptAndForced := by
  intro s k i cycle
  refine ⟨rfl, fun idle due => ?_, fun held => ?_, fun busy late => ?_, fun held => ?_⟩
  · simp [exec, execIdleRefresh, idle, Int.not_lt.2 due, State.withCtl]
  · rcases held with busy | early
    · simp [exec, execIdleRefresh, busy]
    · simp [exec, execIdleRefresh, early]
  · refine ⟨_, exec_forcedRefresh_busy busy late, rfl, rfl, ?_⟩
    by_cases overrun : s.ctl.tickLen ≤ cycle
    · rw [if_pos overrun, if_neg (Nat.not_lt.2 overrun)]
      exact s.ctl.refreshBreach_keeps s.cfg k i cycle 1 true
    · obtain ⟨objs, channels, ras, hub⟩ := s.ctl.refreshBreach_keeps s.cfg k i cycle 1 false
      obtain ⟨yards, objs', event⟩ := ((s.ctl.refreshAt k i cycle).breach s.cfg k 1 cycle false).planBreach_keeps s.cfg
      rw [if_neg overrun, if_pos (Nat.not_le.1 overrun), ← hub, ← ras, ← channels, ← objs]
      exact ⟨objs', by simp only [State.withCtl, Ctl.yd, yards], by simp only [State.withCtl, Ctl.ev, Ctl.yd, yards], event⟩
  · rcases held with idle | early
    · simp [exec, execForcedRefresh, idle]
    · have due : (cycle : Int) - (s.ctl.channel k i.val).refreshed ≤ 768 + 6912 := by omega
      simp only [exec, execForcedRefresh, due, decide_true, Bool.or_true, if_true]

end

section
/-! Hangs and dumps (R67, R450-R452): what the ledger's own steps leave, and the dump of a frozen device. -/

namespace Sys2Proof.Machine

open Sys2Proof

/-! ### Events of the observation block itself -/

/-- No bit of DBG_EVENT falls from `a` to `b`. -/
def DbgEventGrows (a b : Ctl) : Prop := ∀ i, (a.ev .dbg).bits.getLsbD i = true → (b.ev .dbg).bits.getLsbD i = true

namespace DbgEventGrows

theorem refl (a : Ctl) : DbgEventGrows a a := fun _ h => h

theorem trans {a b c : Ctl} (h : DbgEventGrows a b) (k : DbgEventGrows b c) : DbgEventGrows a c := fun i x => k i (h i x)

/-- A change that leaves the register. -/
theorem same {a b : Ctl} (h : b.dbg.event = a.dbg.event) : DbgEventGrows a b := fun i x => by rw [Ctl.ev, h]; exact x

/-- A change that raises bits of it. -/
theorem raised {a b : Ctl} {bits : BitVec 16} (h : b.dbg.event = a.dbg.event.raise bits) : DbgEventGrows a b := fun i x => by
  simp only [Ctl.ev] at x
  simp [Ctl.ev, h, EventReg.raise, x]

theorem ite {a b c : Ctl} {p : Prop} [Decidable p] (h : DbgEventGrows a b) (k : DbgEventGrows a c) :
    DbgEventGrows a (if p then b else c) := by
  split
  · exact h
  · exact k

end DbgEventGrows

theorem Dbg.putGap_event (d : Dbg) (tick cycle : Nat) : (d.putGap tick cycle).event = d.event := rfl

theorem journal_dbgEventGrows (c : Ctl) (cfg : Cfg) (typ source cycle data0 : Nat) (body : List Byte) :
    DbgEventGrows c (c.journal cfg typ source cycle data0 body) := by
  unfold Ctl.journal
  split
  · exact .refl c
  · split
    · exact .refl c
    · refine .ite ?_ (.same rfl)
      by_cases first : c.dbg.refused = 0
      · exact .raised (bits := 8#16) (by simp [Ctl.count, Ctl.onDbg, Dbg.putGap_event, first])
      · exact .same (by simp [Ctl.count, Ctl.onDbg, Dbg.putGap_event, first])

theorem trigger_dbgEventGrows (c : Ctl) (cfg : Cfg) (cause : Nat) : DbgEventGrows c (c.trigger cfg cause) := by
  unfold Ctl.trigger
  split
  · exact .refl c
  · split
    · exact .same rfl
    · refine .raised (bits := 4#16) ?_
      by_cases window : cfg.mode = 2 <;> simp [Ctl.count, Ctl.onDbg, Ctl.snapDevice, window]

theorem announce_dbgEventGrows (c : Ctl) (cfg : Cfg) (off : Nat) (e : Word) (was bits : BitVec 16) :
    DbgEventGrows c (c.announce cfg off e was bits) := by
  have pended : DbgEventGrows c (match (c.count 0 1).fn? (c.count 0 1).mgmt with
      | some f => if f.deviceEn then (c.count 0 1).pendVector f.num f.eventVector else c.count 0 1
      | none => c.count 0 1) := by
    split
    · split <;> exact .same rfl
    · exact .same rfl
  have written := pended.trans (journal_dbgEventGrows _ cfg 5 0x8FFF 0 off (Bits.toLe e.toNat 4 ++ List.replicate 12 0#8))
  unfold Ctl.announce
  dsimp only
  split
  · exact written.trans (trigger_dbgEventGrows _ cfg 4)
  · exact written

/-- A bit that is raised in DBG_EVENT stands there. -/
theorem raise_dbg_bit (c : Ctl) (cfg : Cfg) {bits : BitVec 16} {i : Nat} (h : bits.getLsbD i = true) :
    ((c.raise cfg .dbg bits).ev .dbg).bits.getLsbD i = true := by
  refine announce_dbgEventGrows (c.setEv .dbg ((c.ev .dbg).raise bits)) cfg EvReg.dbg.off _ _ bits i ?_
  simp [Ctl.setEv, Ctl.ev, EventReg.raise, h]

/-! ### The ledger (R338, R344-R350) -/

/-- From `a` to `b` the ledger's own steps: the hub, the front end, the yards, the coffer and the supply's state stand. -/
structure LedgerStep (a b : Ctl) : Prop where
  hub : b.hub = a.hub
  fe : b.fe = a.fe
  yards : b.yards = a.yards
  cof : b.cof = a.cof
  objs : b.objs = a.objs
  supply : b.pwr.st = a.pwr.st

namespace LedgerStep

theorem refl (a : Ctl) : LedgerStep a a := ⟨rfl, rfl, rfl, rfl, rfl, rfl⟩

theorem trans {a b c : Ctl} (h : LedgerStep a b) (k : LedgerStep b c) : LedgerStep a c :=
  ⟨k.hub.trans h.hub, k.fe.trans h.fe, k.yards.trans h.yards, k.cof.trans h.cof, k.objs.trans h.objs, k.supply.trans h.supply⟩

theorem ofSameBut {a b : Ctl} (h : SameBut a b) : LedgerStep a b := ⟨h.hub, h.fe, h.yards, h.cof, h.objs, congrArg Pwr.st h.pwr⟩

theorem onLdg (a : Ctl) (f : Ldg → Ldg) : LedgerStep a (a.onLdg f) := ⟨rfl, rfl, rfl, rfl, rfl, rfl⟩

theorem onFn (a : Ctl) (n : BitVec 8) (f : Fn → Fn) : LedgerStep a (a.onFn n f) := ⟨rfl, rfl, rfl, rfl, rfl, rfl⟩

theorem onPrs (a : Ctl) (f : Prs → Prs) : LedgerStep a (a.onPrs f) := ⟨rfl, rfl, rfl, rfl, rfl, rfl⟩

theorem ite {a b c : Ctl} {p : Prop} [Decidable p] (h : LedgerStep a b) (k : LedgerStep a c) : LedgerStep a (if p then b else c) := by
  split
  · exact h
  · exact k

theorem foldl {α : Type} {f : Ctl → α → Ctl} (h : ∀ c x, LedgerStep c (f c x)) (c : Ctl) (l : List α) : LedgerStep c (l.foldl f c) := by
  induction l generalizing c with
  | nil => exact .refl c
  | cons x l ih => exact (h c x).trans (ih (f c x))

end LedgerStep

theorem raise_ldg_ledgerStep (c : Ctl) (cfg : Cfg) (bits : BitVec 16) : LedgerStep c (c.raise cfg .ldg bits) :=
  (LedgerStep.onLdg c _).trans (.ofSameBut (raise_sameBut c cfg .ldg bits (by simp)))

theorem raise_prs_ledgerStep (c : Ctl) (cfg : Cfg) (bits : BitVec 16) : LedgerStep c (c.raise cfg .prs bits) :=
  (LedgerStep.onPrs c _).trans (.ofSameBut (raise_sameBut c cfg .prs bits (by simp)))

theorem persist_ledgerStep (c : Ctl) (cfg : Cfg) (i : Nat) (v : Word) : LedgerStep c (c.persist cfg i v).2 := by
  unfold Ctl.persist
  split
  · exact .refl c
  · dsimp only
    split
    · dsimp only
      exact .onPrs c _
    · split
      · exact (LedgerStep.onPrs c _).trans (raise_prs_ledgerStep _ cfg _)
      · exact (LedgerStep.onPrs c _).trans (raise_prs_ledgerStep _ cfg _)

theorem addHouse_ledgerStep (c : Ctl) (kind : Nat) (n : BitVec 8) (e : Nat) (tick : Option Nat) : LedgerStep c (c.addHouse kind n e tick) :=
  .ite (.refl c) (.onLdg c _)

theorem reserveBlock_ledgerStep (c : Ctl) (cfg : Cfg) : LedgerStep c (c.reserveBlock cfg) := by
  have saved := persist_ledgerStep c cfg ledgerWord (BitVec.ofNat 32 (c.ldg.folio.number / 4096))
  exact .ite (.refl c) (.ite saved (saved.trans ((LedgerStep.onLdg _ _).trans (raise_ldg_ledgerStep _ cfg _))))

theorem seal_ledgerStep (c : Ctl) (cfg : Cfg) (flags : Nat) : LedgerStep c (c.seal cfg flags) := by
  have reserved := reserveBlock_ledgerStep c cfg
  exact .ite (.refl c) (.ite reserved (reserved.trans (.onLdg _ _)))

theorem meterSeen_ledgerStep (c : Ctl) (m : Interval) : LedgerStep c (c.meterSeen m) := by
  unfold Ctl.meterSeen
  dsimp only
  split <;> exact ⟨rfl, rfl, rfl, rfl, rfl, rfl⟩

/-- An interval that closes without its tick: its energy goes to house accounts alone. -/
theorem closeInterval_ledgerStep (c : Ctl) (cfg : Cfg) {kind : CloseKind} (untimed : kind ≠ .tick) (m : Interval) :
    LedgerStep c (c.closeInterval cfg kind m) := by
  have yard (c : Ctl) (k : Yard) (y : Nat) : LedgerStep c (c.closeYard cfg kind k y) := by
    cases kind with
    | tick => exact absurd rfl untimed
    | idle => exact addHouse_ledgerStep ..
    | hang => exact addHouse_ledgerStep ..
  unfold Ctl.closeInterval
  dsimp only
  refine .trans ?_ (meterSeen_ledgerStep _ m)
  refine .trans ?_ (.onLdg _ _)
  refine .trans ?_ (.ofSameBut (sameBut_journal ..))
  refine .trans ?_ (.foldl (fun c k => yard c k _) _ _)
  exact (LedgerStep.onLdg c _).trans (.onLdg _ _)

theorem writeTally_ledgerStep (c : Ctl) (cfg : Cfg) (t : Tally) : LedgerStep c (c.writeTally cfg t).2 := by
  unfold Ctl.writeTally
  dsimp only
  generalize hd : (if maxLeaves ≤ (c.onFn t.fn _).ldg.folio.tallies.length then _ else _ : Ctl) = d
  have sealed : LedgerStep c d := hd ▸ (LedgerStep.onFn c t.fn _).trans (.ite (seal_ledgerStep _ cfg 4) (.refl _))
  split <;> exact sealed.trans ⟨rfl, rfl, rfl, rfl, rfl, rfl⟩

/-- A warm reset's end of the ledger leaves the coffer (R491). -/
theorem closeForReset_cof (c : Ctl) (cfg : Cfg) (m : Interval) : (c.closeForReset cfg m).cof = c.cof := by
  have written (c : Ctl) (order : Nat) : LedgerStep c (c.writeAbandoned cfg order) := by
    unfold Ctl.writeAbandoned
    split
    · exact .refl c
    · exact (LedgerStep.onLdg c _).trans (writeTally_ledgerStep ..)
  unfold Ctl.closeForReset
  split
  · rfl
  · rw [(seal_ledgerStep _ cfg 8).cof]
    exact (((closeInterval_ledgerStep c cfg (kind := .idle) (by simp) m).trans (.foldl (fun c f => .onLdg c _) _ _)).trans
      (.foldl (fun c (x : Nat × Nat) => written c x.2) _ _)).cof

/-! ### A hang (R67, R450) -/

theorem Ctl.startDump_has (c : Ctl) (cfg : Cfg) (cause cycle : Nat) :
    ∃ d ∈ (c.startDump cfg cause cycle).cof.dumps, d.cause = cause ∧ d.done = false := by
  unfold Ctl.startDump
  dsimp only [Ctl.onCof]
  exact ⟨_, List.mem_append_right _ List.mem_cons_self, rfl, rfl⟩

/-- A hang freezes the device, closes the ledger's interval, raises HANG and begins a dump with its cause. -/
theorem Ctl.hang_freezes {c : Ctl} (running : c.hub.halted = false) (cfg : Cfg) (cause cycle : Nat) (m : Interval) :
    (c.hang cfg cause cycle m).hub.halted = true ∧ (c.hang cfg cause cycle m).pwr.st = .halted ∧
      ((c.hang cfg cause cycle m).ev .dbg).bits.getLsbD 0 = true ∧ (c.hang cfg cause cycle m).objs = c.objs ∧
      ∃ d ∈ (c.hang cfg cause cycle m).cof.dumps, d.cause = cause ∧ d.done = false := by
  unfold Ctl.hang
  rw [if_neg (by simp [running])]
  dsimp only
  generalize frozen : ((c.onHub fun h => { h with halted := true }).onPwr fun p => { p with st := .halted }) = f
  have halted : f.hub.halted = true ∧ f.pwr.st = .halted ∧ f.objs = c.objs := by
    subst frozen
    exact ⟨rfl, rfl, rfl⟩
  have closed : LedgerStep f (if f.ldg.opening then (f.closeInterval cfg .hang m).seal cfg 16 else f) :=
    .ite ((closeInterval_ledgerStep f cfg (by simp) m).trans (seal_ledgerStep _ cfg 16)) (.refl f)
  generalize (if f.ldg.opening then (f.closeInterval cfg .hang m).seal cfg 16 else f) = g at closed
  have traced : LedgerStep g ((g.snapDevice.trigger cfg 6).raise cfg .dbg 1#16) :=
    (LedgerStep.ofSameBut ((sameBut_snap g).trans (sameBut_trigger _ cfg 6))).trans
      ((LedgerStep.ofSameBut (sameBut_onDbg _ _)).trans (.ofSameBut (raise_sameBut _ cfg .dbg 1#16 (by simp))))
  obtain ⟨hub, -, -, -, objs, supply⟩ := closed.trans traced
  obtain ⟨halt, st, same⟩ := halted
  exact ⟨(congrArg Hub.halted hub).trans halt, supply.trans st, raise_dbg_bit _ cfg (by decide), objs.trans same, Ctl.startDump_has ..⟩

/-! ### The end of a dump (R451, R452) -/

theorem dumpToHost_keeps (s : State) (d : Dump) (b : DumpBody) (host : Bool) :
    (dumpToHost s d b host).dp = s.dp ∧ (dumpToHost s d b host).cfg = s.cfg ∧ (dumpToHost s d b host).ctl.cof = s.ctl.cof := by
  have translated (n : BitVec 8) (addr len : Nat) : (s.ctl.translate n none addr len).cof = s.ctl.cof := by
    unfold Ctl.translate
    split
    · split <;> rfl
    · rfl
  unfold dumpToHost
  split
  · exact ⟨rfl, rfl, translated ..⟩
  · exact ⟨rfl, rfl, rfl⟩

/-- The coffer once a dump under way is complete. -/
def Cof.dumped (k : Cof) (s : State) (host : Bool) : Cof :=
  { k with dumps := k.dumps.map (fun x => if x.done then x else { x with done := true, body := dumpBody s x.stores }), dumpHost := host }

theorem Cof.dumped_done (k : Cof) (s : State) (host : Bool) : ∀ d ∈ (k.dumped s host).dumps, d.done = true := by
  simp only [Cof.dumped, List.mem_map]
  rintro - ⟨x, -, rfl⟩
  by_cases done : x.done = true <;> simp [done]

/-- The state once a dump `d` that was under way is complete, before AUTO_RESET. -/
def State.dumpEnded (s : State) (d : Dump) (host : Bool) : State :=
  let t := dumpToHost s d (dumpBody s d.stores) host
  { t with ctl := (t.ctl.onCof fun k => k.dumped t (host && t.cfg.dumpEn)).raise t.cfg .dbg 2#16 }

theorem State.dumpEnded_keeps (s : State) (d : Dump) (host : Bool) : (s.dumpEnded d host).dp = s.dp ∧ (s.dumpEnded d host).cfg = s.cfg ∧
    ((s.dumpEnded d host).ctl.ev .dbg).bits.getLsbD 1 = true ∧ (∀ x ∈ (s.dumpEnded d host).ctl.cof.dumps, x.done = true) ∧
    (s.dumpEnded d host).ctl.cof.dumpHost = (host && s.cfg.dumpEn) := by
  obtain ⟨dp, cfg, -⟩ := dumpToHost_keeps s d (dumpBody s d.stores) host
  unfold State.dumpEnded
  generalize dumpToHost s d (dumpBody s d.stores) host = t at dp cfg
  have cof : ((t.ctl.onCof fun k => k.dumped t (host && t.cfg.dumpEn)).raise t.cfg .dbg 2#16).cof =
      t.ctl.cof.dumped t (host && t.cfg.dumpEn) := (raise_sameBut _ t.cfg .dbg 2#16 (by simp)).cof
  refine ⟨dp, cfg, raise_dbg_bit _ t.cfg (by decide), ?_, ?_⟩
  · rw [cof]
    exact Cof.dumped_done _ _ _
  · rw [cof, ← cfg]
    rfl

theorem exec_dumpDone_under {s : State} {d : Dump} (under : s.ctl.cof.dumps.find? (fun d => !d.done) = some d) (host : Bool) :
    exec (.dumpDone host) s = .next (if s.cfg.autoReset then warmReset (s.dumpEnded d host) noMeter else s.dumpEnded d host) := by
  obtain ⟨-, cfg, -⟩ := s.dumpEnded_keeps d host
  have ended : exec (.dumpDone host) s =
      if (s.dumpEnded d host).cfg.autoReset then .next (warmReset (s.dumpEnded d host) noMeter) else .next (s.dumpEnded d host) := by
    simp only [exec, execDumpDone, under]
    rfl
  rw [ended, cfg]
  split <;> rfl

end Sys2Proof.Machine

open Sys2Proof Sys2Proof.Machine

/-- Settles O40: a hang is `Ctl.hang_freezes`; a dump's end marks every dump, and a warm reset keeps the coffer's dumps
(`closeForReset_cof`). That memory is blank after the reset rests on the model's choices 4 and 69. -/
theorem hangsFreezeTheDevice : Obligations.HangsFreezeTheDevice := by
  intro s m
  refine ⟨fun elapsed us running ticking => ⟨fun long floor => ?_, fun short => ?_⟩, fun elapsed us idle => ?_,
    fun k l elapsed still us idle => ?_, fun k l elapsed still us running ticking up unreported work => ⟨fun long stands floor => ?_, fun short => ?_⟩,
    fun host complete => ?_, fun host under => ?_⟩
  · obtain ⟨halted, st, event, objs, dump⟩ := Ctl.hang_freezes running s.cfg 1 elapsed m
    have hung : exec (.hangLimitExpiry elapsed us m) s = .next (s.withCtl (s.ctl.hang s.cfg 1 elapsed m)) := by
      simp [exec, execHangLimitExpiry, hangFloor, State.withCtl, ticking, long, floor]
    exact ⟨_, hung, rfl, rfl, halted, st, event, objs, dump⟩
  · have kept : ¬ (s.cfg.hangLimit * s.ctl.tickLen ≤ elapsed ∧ hangFloor ≤ us) := by unfold hangFloor; omega
    simp only [exec, execHangLimitExpiry, ticking, Bool.true_and, Bool.and_eq_true, decide_eq_true_eq, kept, if_false]
  · rcases idle with halted | ticking
    · simp [exec, execHangLimitExpiry, Ctl.hang, halted]
    · simp [exec, execHangLimitExpiry, ticking]
  · rcases idle with halted | ticking | down | done
    · simp [exec, execProgressStandstill, Ctl.hang, halted]
    · simp [exec, execProgressStandstill, ticking]
    · simp [exec, execProgressStandstill, down]
    · simp [exec, execProgressStandstill, done]
  · obtain ⟨halted, -, event, objs, dump⟩ := Ctl.hang_freezes running s.cfg 2 still m
    have going : seqDone s k l = false := by rw [seqDone, unreported, work, Bool.or_self]
    have hung : exec (.progressStandstill k l ⟨elapsed, still⟩ us m) s = .next (s.withCtl (s.ctl.hang s.cfg 2 still m)) := by
      simp [exec, execProgressStandstill, hangFloor, State.withCtl, ticking, up, going, long, stands, floor]
    exact ⟨_, hung, rfl, rfl, halted, event, objs, dump⟩
  · have kept : ¬ (s.ctl.tickLen < elapsed ∧ s.ctl.tickLen ≤ still ∧ hangFloor ≤ us) := by unfold hangFloor; omega
    simp only [exec, execProgressStandstill, Bool.and_eq_true, decide_eq_true_eq]
    exact if_neg fun ⟨⟨⟨_, long⟩, stands⟩, floor⟩ => kept ⟨long, stands, floor⟩
  · have none : s.ctl.cof.dumps.find? (fun d => !d.done) = none := by simpa [List.find?_eq_none] using complete
    simp only [exec, execDumpDone, none]
  · obtain ⟨x, mem, open0⟩ := under
    obtain ⟨d, found⟩ : ∃ d, s.ctl.cof.dumps.find? (fun d => !d.done) = some d := by
      rw [← Option.isSome_iff_exists, List.find?_isSome]
      exact ⟨x, mem, by simp [open0]⟩
    obtain ⟨dp, cfg, event, done, copied⟩ := s.dumpEnded_keeps d host
    have ended := exec_dumpDone_under found host
    refine ⟨fun stays => ?_, fun resets => ?_⟩
    · rw [stays] at ended
      exact ⟨_, ended, dp, cfg, done, copied, event⟩
    · rw [resets] at ended
      refine ⟨_, ended, restart_cleared _ true, rfl, ?_⟩
      have kept := closeForReset_cof (s.dumpEnded d host).ctl (s.dumpEnded d host).cfg noMeter
      rw [← kept] at done
      exact done

end

section
/-! Cut-offs, done reports, timer periods and releases of storage (R37, R42, R49, R96, R243). -/

namespace Sys2Proof.Machine

open Sys2Proof

/-! ### The cut-off (R49) -/

theorem Ctl.planLanes_formed (c : Ctl) (p : Plan) : (c.planLanes p).fe.formed.isSome = c.fe.formed.isSome := by
  unfold Ctl.planLanes
  generalize c.objs.sessions = xs
  induction xs generalizing c with
  | nil => rfl
  | cons x xs ih =>
    rw [List.foldl_cons, ih]
    dsimp only
    split
    · rfl
    · split
      · rfl
      · dsimp only [Ctl.onFe, Ctl.setSession, Ctl.onObjs]
        split
        · exact Option.isSome_map
        · rfl

theorem Forming.close_formed (fm : Forming) (p : Plan) : (fm.close p).fe.formed.isSome = true := Ctl.planLanes_formed _ p

/-- A cut-off forms a microbatch, an empty one where nothing may be admitted. -/
theorem Ctl.form_formed (c : Ctl) (cfg : Cfg) (p : Plan) : (c.form cfg p).fe.formed.isSome = true := by
  unfold Ctl.form
  dsimp only
  split <;> exact Forming.close_formed _ p

/-- The controls once a cut-off has formed its microbatch. -/
def Ctl.cutOff (c : Ctl) (cfg : Cfg) (p : Plan) : Ctl :=
  (((c.form cfg p).onFe fun f => { f with cut := true }).onHub fun h => { h with portPause := false }).recount

theorem Ctl.cutOff_forms (c : Ctl) (cfg : Cfg) (p : Plan) : (c.cutOff cfg p).fe.cut = true ∧ (c.cutOff cfg p).fe.formed.isSome = true ∧
    (c.cutOff cfg p).hub.portPause = false := by
  have formed := c.form_formed cfg p
  unfold Ctl.cutOff
  generalize c.form cfg p = d at formed
  exact ⟨rfl, formed, rfl⟩

/-- The last act of a cut-off is to form the microbatch. -/
theorem cutoff_cutOff {s : State} {p : Plan} (plan : s.ctl.plan? = some p) (ticking : s.ctl.fe.ticking = true) (open0 : s.ctl.fe.cut = false)
    (running : s.ctl.hub.halted = false) (hs : List HeadRead) : ∃ t : State, (cutoff s hs).ctl = t.ctl.cutOff t.cfg p := by
  unfold cutoff
  rw [plan]
  dsimp only
  rw [if_neg (by simp [ticking, open0, running])]
  exact ⟨_, rfl⟩

theorem cutoff_idle {s : State} (idle : s.ctl.plan? = none ∨ s.ctl.fe.ticking = false ∨ s.ctl.fe.cut = true ∨ s.ctl.hub.halted = true)
    (hs : List HeadRead) : cutoff s hs = s := by
  unfold cutoff
  split
  · rfl
  next p plan =>
    rw [if_pos]
    rcases idle with none | ticking | cut | halted
    · simp [none] at plan
    · simp [ticking]
    · simp [cut]
    · simp [halted]

/-! ### Done reports (R42, R96) -/

theorem Ctl.yd_onYard (c : Ctl) (k j : Yard) (f : Yd → Yd) : (c.onYard k f).yd j = if j = k then f (c.yd k) else c.yd j := by
  by_cases same : j = k
  · simp [same]
  · simp [Ctl.yd, Ctl.onYard, same, Fin.val_inj, Ne.symm same]

/-- From `a` to `b` every yard's report stands. -/
def ReportsStand (a b : Ctl) : Prop := ∀ k : Yard, (b.yd k).reports = (a.yd k).reports

namespace ReportsStand

theorem refl (a : Ctl) : ReportsStand a a := fun _ => rfl

theorem trans {a b c : Ctl} (h : ReportsStand a b) (k : ReportsStand b c) : ReportsStand a c := fun j => (k j).trans (h j)

theorem ofSameBut {a b : Ctl} (h : SameBut a b) : ReportsStand a b := fun k => by rw [h.yd]

theorem onYard (a : Ctl) (k : Yard) {f : Yd → Yd} (h : ∀ y, (f y).reports = y.reports) : ReportsStand a (a.onYard k f) := fun j => by
  rw [Ctl.yd_onYard]
  split
  next same => rw [h, same]
  · rfl

theorem ite {a b c : Ctl} {p : Prop} [Decidable p] (h : ReportsStand a b) (k : ReportsStand a c) : ReportsStand a (if p then b else c) := by
  split
  · exact h
  · exact k

end ReportsStand

theorem Ctl.countYard_reports (c : Ctl) (k : Yard) (i n : Nat) : ReportsStand c (c.countYard k i n) := .onYard c k fun _ => rfl

theorem Ctl.setEv_reports (c : Ctl) (r : EvReg) (e : EventReg) : ReportsStand c (c.setEv r e) := by
  cases r with
  | arith k | mem k | kv k | yras k => exact .onYard c k fun _ => rfl
  | _ => exact .refl c

theorem Ctl.breach_reports (c : Ctl) (cfg : Cfg) (k : Yard) (cls cycle : Nat) (overrun : Bool) :
    ReportsStand c (c.breach cfg k cls cycle overrun) :=
  ((Ctl.countYard_reports c k (10 + cls) 1).trans (Ctl.setEv_reports _ _ _)).trans (.ofSameBut (c.breach_sameBut cfg k cls cycle overrun))

/-- The events that come with a report leave every report. -/
theorem Ctl.reportMemory_reports (c : Ctl) (cfg : Cfg) (waited : NatSet) (d : DoneIn) : ReportsStand c (c.reportMemory cfg waited d) := by
  have late (c : Ctl) (l : List Nat) (k : Yard) : ReportsStand c (l.foldl (fun c _ => c.breach cfg k 5 d.cycle false) c) := by
    induction l generalizing c with
    | nil => exact .refl c
    | cons _ l ih => exact (c.breach_reports cfg k 5 d.cycle false).trans (ih _)
  unfold Ctl.reportMemory
  dsimp only
  refine .trans ?_ (late _ _ _)
  have counted (k : Yard) (a b : Nat) :
      ReportsStand c ((((c.countYard k 3 a).countYard k 4 b).countYard k 7 d.sramCe).countYard k 9 d.replays) :=
    (((Ctl.countYard_reports c k 3 a).trans (Ctl.countYard_reports _ k 4 b)).trans (Ctl.countYard_reports _ k 7 d.sramCe)).trans
      (Ctl.countYard_reports _ k 9 d.replays)
  have raised (c : Ctl) (k : Yard) (bits : BitVec 16) : ReportsStand c (c.raise cfg (.mem k) bits) :=
    (Ctl.setEv_reports c _ _).trans (.ofSameBut (raise_sameBut c cfg (.mem k) bits (by simp)))
  exact .ite (counted _ _ _) ((counted _ _ _).trans (raised _ _ _))

/-- The report of a cluster that may report. -/
theorem doneReport_made {s : State} {d : DoneIn} (may : s.ctl.mayReport s.dp d.yard d.cluster = true) :
    (doneReport s d).dp = s.dp.reported (s.ctl.clu d.yard d.cluster.val) d.yard d.cluster.val ∧
      ((doneReport s d).ctl.yd d.yard).reports = (s.ctl.yd d.yard).reports.add s d := by
  unfold doneReport
  rw [if_neg (by simp [may])]
  refine ⟨rfl, ?_⟩
  dsimp only
  rw [Ctl.reportMemory_reports, Ctl.yd_onYard_same]

theorem Dp.quiet_iff (d : Dp) (clu : Nat) : d.quiet clu = true ↔
    (∀ f ∈ d.flights, f.issuer / 40 ≠ clu) ∧ ∀ w ∈ d.waits, w.1 / 120 = clu → w.2 = .none := by
  simp [Dp.quiet, Decidable.imp_iff_not_or]

theorem Ctl.mayReport_iff (c : Ctl) (dp : Dp) (k : Yard) (l : Cluster) : c.mayReport dp k l = true ↔
    c.hub.halted = false ∧ c.fe.ticking = true ∧ c.yardUp (c.home k) = true ∧ (c.yd k).reports.clusters.contains l.val = false ∧
      (∀ f ∈ dp.flights, f.issuer / 40 ≠ c.clu k l.val) ∧ ∀ w ∈ dp.waits, w.1 / 120 = c.clu k l.val → w.2 = .none := by
  simp only [Ctl.mayReport, Bool.and_eq_true, Bool.not_eq_true', Dp.quiet_iff, and_assoc]

/-- The engines after a report hold no unit and no flag of the cluster, and every flag of another. -/
theorem Dp.reported_keeps (d : Dp) (clu : Nat) (k : Yard) (l : Nat) : (d.reported clu k l).mem = d.mem ∧ (d.reported clu k l).unitsOf k l = [] ∧
    ∀ x, x ∈ (d.reported clu k l).flags ↔ x ∈ d.flags ∧ x.1 / 40 ≠ clu := by
  refine ⟨rfl, ?_, fun x => by simp [Dp.reported]⟩
  simp [Dp.reported, Dp.unitsOf]

/-! ### Timer periods (R37) -/

theorem raise_pwr_fetched {c : Ctl} (cfg : Cfg) (bits : BitVec 16) (h : ∀ f ∈ c.fns, f.fetched = 0) :
    ∀ f ∈ (c.raise cfg .pwr bits).fns, f.fetched = 0 := by
  obtain ⟨x, same, eq⟩ := raise_pwr c cfg bits
  obtain ⟨p, fns⟩ := same.fns
  rw [eq, Ctl.onBus_fns, fns]
  simp only [List.mem_map]
  rintro - ⟨f, mem, rfl⟩
  exact h f mem

theorem Ctl.checkPower_fetched {c : Ctl} (cfg : Cfg) (h : ∀ f ∈ c.fns, f.fetched = 0) : ∀ f ∈ (c.checkPower cfg).fns, f.fetched = 0 := by
  have limited : ∀ f ∈ (c.limitPower cfg).fns, f.fetched = 0 := by
    unfold Ctl.limitPower
    dsimp only
    repeat' split
    · exact h
    · exact raise_pwr_fetched cfg _ h
    · exact h
    · exact raise_pwr_fetched cfg _ h
  unfold Ctl.checkPower
  split
  · exact limited
  · exact h

theorem timerPeriod_opens {s : State} (running : s.ctl.hub.halted = false) (opening : s.ctl.ldg.opening = true) (m : Interval) :
    ∀ f ∈ (timerPeriod s m).ctl.fns, f.fetched = 0 := by
  simp only [timerPeriod, running, opening, Bool.not_true, Bool.or_self, Bool.false_eq_true, if_false]
  refine Ctl.checkPower_fetched _ ?_
  simp only [Ctl.lastly, List.mem_map]
  rintro - ⟨f, -, rfl⟩
  rfl

end Sys2Proof.Machine

open Sys2Proof Sys2Proof.Machine

/-- Settles O36: a cut-off closes a microbatch (`Ctl.cutOff_forms`), a report is `doneReport_made`, a timer period ends as a bell does
(`timerPeriod_opens`). That it stands for the bell is the model's choice 17, and that an early event changes nothing its choice 56. -/
theorem cutoffsReportsAndPeriodsComplete : Obligations.CutoffsReportsAndPeriodsComplete := by
  intro s
  refine ⟨fun hs p plan ticking open0 running => ?_, fun hs idle => ?_, fun d clu same => ⟨fun running ticking up unreported blocks waits => ?_, fun held => ?_⟩,
    fun m ticking running => ?_, fun m idle running opening => ?_, fun m early => ?_, ?_⟩
  · obtain ⟨t, last⟩ := cutoff_cutOff plan ticking open0 running hs
    exact ⟨_, rfl, (cutoff_stands s hs).cfg, last ▸ t.ctl.cutOff_forms t.cfg p⟩
  · exact congrArg Host.Outcome.next (cutoff_idle idle hs)
  · subst same
    obtain ⟨dp, reports⟩ := doneReport_made ((s.ctl.mayReport_iff s.dp d.yard d.cluster).2 ⟨running, ticking, up, unreported, blocks, waits⟩)
    obtain ⟨mem, units, flags⟩ := s.dp.reported_keeps (s.ctl.clu d.yard d.cluster.val) d.yard d.cluster.val
    refine ⟨_, rfl, (doneReport_stands s d).cfg, ?_⟩
    rw [dp, reports]
    exact ⟨rfl, mem, rfl, units, fun x hx => ((flags x).1 hx).2, fun x hx other => (flags x).2 ⟨hx, other⟩⟩
  · subst same
    have may : s.ctl.mayReport s.dp d.yard d.cluster = false := by
      rw [Bool.eq_false_iff, Ne, Ctl.mayReport_iff]
      rintro ⟨running, ticking, up, unreported, blocks, waits⟩
      rcases held with halted | still | down | reported | ⟨f, mem, own⟩ | ⟨w, mem, own, waiting⟩
      · simp [halted] at running
      · simp [still] at ticking
      · simp [down] at up
      · simp [reported, -List.contains_eq_mem] at unreported
      · exact blocks f mem own
      · exact waiting (waits w mem own)
    simp [exec, execDoneReport, doneReport, may]
  · simp [exec, execHubTimerPeriod, ticking, running]
  · have made : exec (.hubTimerPeriod m) s = .next (timerPeriod s m) := by simp [exec, execHubTimerPeriod, idle]
    exact ⟨_, made, (timerPeriod_stands s m).cfg, timerPeriod_opens running opening m⟩
  · rcases early with halted | ⟨idle, closed⟩
    · simp [exec, execHubTimerPeriod, timerPeriod, halted, State.withCtl]
    · simp [exec, execHubTimerPeriod, timerPeriod, idle, closed, State.withCtl]
  · exact ⟨_, rfl, rfl, rfl, rfl, rfl⟩

end

section
/-! Bells: when one rings, the tick that it begins, and the judgement of a long tick (R29, R37-R39, R42, R45, R49, R50, R65, R115). -/

namespace Sys2Proof.Machine

open Sys2Proof

theorem SameBut.foldl {α : Type} {f : Ctl → α → Ctl} (h : ∀ c x, SameBut c (f c x)) (c : Ctl) (l : List α) : SameBut c (l.foldl f c) := by
  induction l generalizing c with
  | nil => exact .refl c
  | cons x l ih => exact (h c x).trans (ih (f c x))

/-! ### The yards at the start of a tick (R45) -/

/-- Every yard of a list begins its tick. -/
def Ctl.beginYards (c : Ctl) (cycle : Int) (ks : List Yard) : Ctl :=
  ks.foldl (fun c k => c.onYard k fun y => y.nextTick ((c.microIn k).all (·.stalls.isEmpty)) cycle) c

theorem Ctl.beginYards_keeps (c : Ctl) (cycle : Int) (ks : List Yard) : (c.beginYards cycle ks).fe = c.fe ∧
    (c.beginYards cycle ks).hub = c.hub ∧ (c.beginYards cycle ks).objs = c.objs := by
  induction ks generalizing c with
  | nil => exact ⟨rfl, rfl, rfl⟩
  | cons k ks ih => exact ih _

/-- A yard's report at the start of its tick. -/
def freshReports (stalls : List Stall) : Reports := { clusters := if stalls.isEmpty = true then List.range 250 else [] }

theorem Ctl.yardStalls_isEmpty (c : Ctl) (k : Yard) : (c.microIn k).all (·.stalls.isEmpty) = (c.yardStalls k).isEmpty := by
  unfold Ctl.yardStalls
  cases c.microIn k <;> rfl

/-- Each of them has its fresh report, and none of the others is touched. -/
theorem Ctl.beginYards_reports (c : Ctl) (cycle : Int) {ks : List Yard} {k : Yard} (mem : k ∈ ks) :
    ((c.beginYards cycle ks).yd k).reports = freshReports (c.yardStalls k) := by
  have kept (c : Ctl) (ks : List Yard) (h : (c.yd k).reports = freshReports (c.yardStalls k)) :
      ((c.beginYards cycle ks).yd k).reports = freshReports (c.yardStalls k) := by
    induction ks generalizing c with
    | nil => exact h
    | cons j ks ih =>
      refine ih _ ?_
      rw [Ctl.yd_onYard]
      split
      next same => 
        subst same
        simp only [Yd.nextTick, Ctl.yardStalls_isEmpty]
        rfl
      · exact h
  induction ks generalizing c with
  | nil => cases mem
  | cons j ks ih =>
    rcases List.mem_cons.1 mem with rfl | mem
    · refine kept _ ks ?_
      simp only [Ctl.yd_onYard_same, Yd.nextTick, Ctl.yardStalls_isEmpty]
      rfl
    · exact ih _ mem

/-! ### The tick that a bell begins (R29, R38, R65, R115) -/

theorem Ctl.markRecord_sameBut (c : Ctl) (cfg : Cfg) (source cycle : Nat) (ident : Word) (fn : BitVec 8) (flags stall : Nat) (session : Handle) :
    SameBut c (c.markRecord cfg source cycle ident fn flags stall session) := by
  unfold Ctl.markRecord
  split
  · exact .refl c
  · dsimp only
    split
    · exact (sameBut_journal ..).trans (sameBut_trigger ..)
    · exact sameBut_journal ..

theorem Ctl.stepMarks_sameBut (c : Ctl) (cfg : Cfg) : SameBut c (c.stepMarks cfg) := by
  refine .foldl (fun c k => .foldl (fun c x => ?_) _ _) _ _
  split
  · exact .refl c
  · exact .foldl (fun c m => Ctl.markRecord_sameBut ..) _ _

/-- The state stands at the start of a tick: no report but of every cluster of a yard without work, the cut-off to come, no commit, no unfenced
write and no routing work left. -/
structure TickBegun (t : State) : Prop where
  cut : t.ctl.fe.cut = false
  formed : t.ctl.fe.formed = none
  reports : ∀ k : Yard, (t.ctl.yd k).reports = freshReports (t.ctl.yardStalls k)
  commit : t.dp.commit = []
  unfenced : t.dp.unfenced = []
  routes : t.dp.routes = []

/-- The controls with the microbatches moved and the tick counted, before the yards begin. -/
def Ctl.stepped (c : Ctl) : Ctl := c.advance.onHub fun h => if h.first then { h with first := false } else { h with tick := h.tick + 1 }

/-- The controls at the start of the next tick. -/
theorem nextTick_ctl (s : State) (cycle : Nat) :
    SameBut (s.ctl.stepped.beginYards cycle (List.finRange 8)) (nextTick s cycle).ctl := by
  unfold nextTick Ctl.beginYards
  dsimp only
  exact Ctl.stepMarks_sameBut _ _

theorem nextTick_begun (s : State) (cycle : Nat) : TickBegun (nextTick s cycle) := by
  have marks := nextTick_ctl s cycle
  obtain ⟨fe, -, -⟩ := s.ctl.stepped.beginYards_keeps cycle (List.finRange 8)
  have front : (nextTick s cycle).ctl.fe = s.ctl.stepped.fe := marks.fe.trans fe
  refine ⟨by rw [front]; rfl, by rw [front]; rfl, fun k => ?_, rfl, rfl, rfl⟩
  have stalls : (nextTick s cycle).ctl.yardStalls k = s.ctl.stepped.yardStalls k := by simp only [Ctl.yardStalls, Ctl.microIn, front]
  rw [marks.yd, stalls]
  exact s.ctl.stepped.beginYards_reports cycle (List.mem_finRange k)

theorem nextTick_moves (s : State) (cycle : Nat) :
    (nextTick s cycle).ctl.fe.pipe = (s.ctl.fe.pipe.map fun m => { m with yard := m.yard + 1 }) ++ s.ctl.fe.formed.toList ∧
    (nextTick s cycle).ctl.hub.tick = (if s.ctl.hub.first = true then s.ctl.hub.tick else s.ctl.hub.tick + 1) ∧
    (nextTick s cycle).ctl.hub.first = false ∧ (nextTick s cycle).ctl.objs.jobs = s.ctl.objs.jobs := by
  have marks := nextTick_ctl s cycle
  obtain ⟨fe, hub, objs⟩ := s.ctl.stepped.beginYards_keeps cycle (List.finRange 8)
  rw [marks.fe, marks.hub, marks.objs, fe, hub, objs]
  refine ⟨rfl, ?_, ?_, rfl⟩ <;> by_cases first : s.ctl.hub.first = true <;> simp [Ctl.stepped, Ctl.advance, first]

theorem nextTick_mem {s : State} (sound : ∀ k : Yard, (s.ctl.yd k).tableRewrite = []) (cycle : Nat) : (nextTick s cycle).dp.mem = s.dp.mem := by
  have none : (List.finRange 8).flatMap (fun k => (s.ctl.stepped.yd k).tableRewrite) = [] := by
    exact List.flatMap_eq_nil_iff.2 fun k _ => sound k
  show (s.dp.nextTick _ ((List.finRange 8).flatMap fun k => (s.ctl.stepped.yd k).tableRewrite) _).mem = _
  rw [none]
  rfl

/-! ### BELL (R37, R42, R49, R50) -/

theorem Ctl.rings_iff (c : Ctl) (b : BellIn) : c.rings b = true ↔ c.fe.cut = true ∧ c.tickLen ≤ b.cycle ∧ b.listAt ≤ b.cycle ∧
    (∀ k : Yard, c.yardDone k = true) ∧ c.logitsGiven b = true := by
  simp [Ctl.rings, and_assoc]

/-- What a bell leaves: a hang, no more ticks, or the next tick at its start. -/
def BellLeaves (t : State) : Prop := t.ctl.hub.halted = true ∨ t.ctl.fe.ticking = false ∨ TickBegun t

theorem bellTick_leaves (s : State) (b : BellIn) : BellLeaves (bellTick s b) := by
  unfold bellTick
  extract_lets c1 c2 s1 c3 s2 s3
  clear_value c3 s2 s3
  split
  next hung => exact .inl hung
  · split
    next hung => exact .inl hung
    · split
      next => exact .inr (.inr (nextTick_begun s3 b.cycle))
      next still => exact .inr (.inl (Bool.eq_false_iff.2 still))

theorem bellFirst_begun (s : State) (b : BellIn) : TickBegun (bellFirst s b) := nextTick_begun _ 0

/-! ### Long ticks (R39, R65) -/

/-- The stall list was in time: the judgement is of the bell alone. -/
theorem Ctl.judgeList_inTime {c : Ctl} {b : BellIn} (inTime : b.listAt ≤ max c.tickLen b.doneAt) (cfg : Cfg) : c.judgeList cfg b = c :=
  if_neg (Nat.not_lt.2 inTime)

/-- A long tick is counted, raises TICK_LONG, and is recorded. -/
theorem Ctl.judgeTick_long {c : Ctl} {cfg : Cfg} {b : BellIn} (inTime : b.listAt ≤ max c.tickLen b.doneAt) (long : c.tickLen + c.gapOf cfg b < b.cycle) :
    SameBut ((c.onHub fun h => { h with long := sat64 h.long 1 }).setEv .hub ((c.ev .hub).raise 1#16)) (c.judgeTick cfg b) := by
  unfold Ctl.judgeTick
  simp only [Ctl.judgeList_inTime inTime, Nat.not_le.2 long, if_false]
  have raised := raise_sameBut (c.onHub fun h => { h with long := sat64 h.long 1 }) cfg .hub 1#16 (by simp)
  split
  · exact (raised.trans (sameBut_journal ..)).trans (sameBut_trigger _ cfg 2)
  · exact raised.trans (sameBut_journal ..)

end Sys2Proof.Machine

open Sys2Proof Sys2Proof.Machine

/-- Settles O35: whatever begins a tick does so by `nextTick` (`nextTick_begun`, `bellTick_leaves`). That the first bell leaves the tick number is
the model's reading 13, and the gap that is taken off a long tick its reading 14. -/
theorem bellsRingAndBeginATick : Obligations.BellsRingAndBeginATick := by
  refine ⟨fun s b running => ⟨fun ticking cut length list done logits => ?_, fun ticking held => ?_, fun w idle switch plan => ?_⟩,
    fun s cycle => ?_, fun c cfg b inTime => ⟨fun short => ?_, fun long => ?_⟩⟩
  · have rings := (s.ctl.rings_iff b).2 ⟨cut, length, list, done, logits⟩
    refine ⟨bellTick s b, by simp [exec, execBell, running, ticking, rings], fun running' ticking' => ?_⟩
    rcases bellTick_leaves s b with hung | stopped | ⟨cut, formed, reports, commit, unfenced, routes⟩
    · simp [hung] at running'
    · simp [stopped] at ticking'
    · exact ⟨cut, formed, reports, commit, unfenced, routes⟩
  · have silent : s.ctl.rings b = false := by
      rw [Bool.eq_false_iff, Ne, Ctl.rings_iff]
      rintro ⟨cut, length, list, done, logits⟩
      rcases held with uncut | early | early | ⟨k, busy⟩ | waits
      · simp [uncut] at cut
      · omega
      · omega
      · simp [done k] at busy
      · simp [waits] at logits
    simp [exec, execBell, running, ticking, silent]
  · obtain ⟨cut, formed, reports, commit, unfenced, -⟩ := bellFirst_begun s b
    exact ⟨bellFirst s b, by simp [exec, execBell, running, idle, switch, plan], cut, formed, reports, commit, unfenced⟩
  · obtain ⟨pipe, tick, first, jobs⟩ := nextTick_moves s cycle
    exact ⟨pipe, tick, first, fun sound => nextTick_mem sound cycle, jobs⟩
  · simp only [Ctl.judgeTick, Ctl.judgeList_inTime inTime, short, if_true]
  · have judged := Ctl.judgeTick_long inTime long
    exact ⟨congrArg Hub.long judged.hub, congrArg Hub.event judged.hub, judged.fe, judged.objs⟩

end

section
/-! Expert routing: what a layer's routing holds after a step, and the records (R253-R267). -/

namespace Sys2Proof.Machine

open Sys2Proof

/-! ### Lists: a member that takes the place of others, and maps by position -/

theorem find?_replaced {α : Type} {p : α → Bool} {a : α} (own : p a = true) (l : List α) :
    (l.filter (fun x => !p x) ++ [a]).find? p = some a := by
  have absent : (l.filter fun x => !p x).find? p = none := by
    simp [List.find?_eq_none]
  simp [List.find?_append, absent, own]

theorem find?_replaced_other {α : Type} {p q : α → Bool} {a : α} (own : p a = true) (apart : ∀ x, p x = true → q x = false) (l : List α) :
    (l.filter (fun x => !p x) ++ [a]).find? q = l.find? q := by
  induction l with
  | nil => simp [apart a own]
  | cons x l ih =>
    by_cases replaced : p x = true
    · simpa [replaced, apart x replaced] using ih
    · cases found : q x
      · simpa [replaced, found] using ih
      · simp [replaced, found]

theorem map_mapIdx {α β γ : Type} (f : Nat → α → β) (g : β → γ) (l : List α) : (l.mapIdx f).map g = l.mapIdx fun i a => g (f i a) :=
  List.ext_getElem (by simp) fun i _ _ => by simp

theorem mapIdx_eq_map {α β : Type} (f : α → β) (l : List α) : (l.mapIdx fun _ => f) = l.map f := List.ext_getElem (by simp) fun i _ _ => by simp

/-! ### The routing of a layer -/

theorem Dp.route_key (d : Dp) (k : Yard) (n : Nat) : (d.route k n).yard = k ∧ (d.route k n).layer = n := by
  unfold Dp.route
  cases h : d.routes.find? fun r => r.yard = k && r.layer = n with
  | none => exact ⟨rfl, rfl⟩
  | some r => simpa using List.find?_some h

/-- The routing of a layer is what was put in its place, whatever else has changed beside the routes. -/
theorem Dp.route_of_setRoute {d e : Dp} {r : RouteLayer} {k : Yard} {n : Nat}
    (h : e.routes = (d.setRoute r).routes) (key : r.yard = k ∧ r.layer = n) : e.route k n = r := by
  obtain ⟨rfl, rfl⟩ := key
  have found := find?_replaced (a := r) (p := fun x => x.yard = r.yard && x.layer = r.layer) (by simp) d.routes
  simp only [Dp.route, h, Dp.setRoute, found]
  rfl

/-! ### Steps that no router, or a halted device, holds (R40, R252, R450) -/

/-- The routing steps of a layer. -/
def routingSteps (o : EngOp) (token : BitVec 16) (kr : Fin 2) (scores dest width area pos row lead which : Nat) (fp32 : Bool) (c : Fin 40)
    (at0 : When) : List Instr :=
  [.routeTopk o token ⟨scores, dest, width⟩, .countReduce ⟨o.core.yard, at0⟩ o.tag.layer, .slotBuild ⟨o.core.yard, at0⟩ o.tag.layer,
    .slotTableMulticast ⟨o.core.yard, at0⟩ o.tag.layer, .baseOffsetReturn ⟨o.core.yard, at0⟩ o.tag.layer,
    .sendRecord o token kr row ⟨width, fp32⟩ area,
    .returnRecord o.core.yard o.core.cluster o.core.core o.tag.layer o.tag.chan o.at0 area pos row width c dest,
    .expertStream o.core.yard o.tag.layer lead which at0]

/-- Every one of them asks for a running device and a router first. -/
theorem routingSteps_first (s : State) {o : EngOp} {token : BitVec 16} {kr : Fin 2} {scores dest width area pos row lead which : Nat} {fp32 : Bool}
    {c : Fin 40} {at0 : When} {i : Instr} (mem : i ∈ routingSteps o token kr scores dest width area pos row lead which fp32 c at0) :
    (s.ctl.hub.halted = true → exec i s = .next s) ∧
      (s.ctl.hub.halted = false → s.ctl.router o.core.yard o.tag.layer.toNat = none → exec i s = .fault .noRouter) := by
  simp only [routingSteps, List.mem_cons, List.not_mem_nil, or_false] at mem
  rcases mem with rfl | rfl | rfl | rfl | rfl | rfl | rfl | rfl
  case inl => exact ⟨fun h => if_pos h, fun h none => by simp [exec, execRouteTopk, h, none]⟩
  case inr.inl => exact ⟨fun h => if_pos h, fun h none => by simp [exec, execCountReduce, routeStep, h, none]⟩
  case inr.inr.inl => exact ⟨fun h => if_pos h, fun h none => by simp [exec, execSlotBuild, routeStep, h, none]⟩
  case inr.inr.inr.inl => exact ⟨fun h => if_pos h, fun h none => by simp [exec, execSlotTableMulticast, routeStep, h, none]⟩
  case inr.inr.inr.inr.inl => exact ⟨fun h => if_pos h, fun h none => by simp [exec, execBaseOffsetReturn, routeStep, h, none]⟩
  case inr.inr.inr.inr.inr.inl => exact ⟨fun h => if_pos h, fun h none => by simp [exec, execSendRecord, h, none]⟩
  case inr.inr.inr.inr.inr.inr.inl => exact ⟨fun h => if_pos h, fun h none => by simp [exec, execReturnRecord, h, none]⟩
  case inr.inr.inr.inr.inr.inr.inr => exact ⟨fun h => if_pos h, fun h none => by simp [exec, execExpertStream, h, none]⟩

/-! ### What an engine's operation leaves behind it -/

/-- A ready engine instruction leaves what its operation makes of the engines, but for the waits that it finds and the units, the queues and the
progress that it leaves. -/
theorem runEngine_ready_eq {s : State} {o : EngOp} {needs : List Need} {ls : List Loc} (ready : Ready s o needs ls) (dests : List (Nat × Nat))
    (work : List (EnergyClass × Nat)) (f : Nat → List Loc → Bool → Dp → Dp) :
    ∃ w u q p, runEngine s o needs true true dests work f = .next (s.withDp
      { f (s.ctl.core o.core) ls (s.marked o needs) { s.dp with waits := w } with units := u, queues := q, progress := p }) := by
  obtain ⟨w, started⟩ := started_eq needs s.dp (s.ctl.core o.core)
  have ran := runEngine_ready dests work f ready
  rw [started] at ran
  obtain ⟨q, p, ended⟩ := ended_eq ((f (s.ctl.core o.core) ls (s.marked o needs) { s.dp with waits := w }).countUnits o.core.yard
    o.core.cluster.val o.tag.stall.toNat work) (s.ctl.core o.core) needs o.core.yard o.core.cluster
  rw [ended] at ran
  exact ⟨w, _, q, p, ran⟩

theorem Dp.poisonRow_mem (d : Dp) (o : EngOp) (mark : Bool) : (d.poisonRow o mark).mem = d.mem := by cases mark <;> rfl

theorem Dp.poisonRow_routes (d : Dp) (o : EngOp) (mark : Bool) : (d.poisonRow o mark).routes = d.routes := by cases mark <;> rfl

theorem Dp.countConv_mem (d : Dp) (core : Nat) (k : Yard) (tag : RowTag) (f : Fmt) (clipped : List Bool) :
    (d.countConv core k tag f clipped).mem = d.mem := by
  obtain ⟨x, y, counted⟩ := d.countConv_eq core k tag f clipped
  rw [counted]

/-- Writing units one by one writes their bytes. -/
theorem Dp.writeUnits_mem (d : Dp) (key : Nat) (bs : List Byte) (marks : List Bool) : (d.writeUnits key bs marks).mem = d.mem.writeN key bs := by
  have first (n : Nat) (within : n ≤ Bits.ceilDiv bs.length 64) : ((List.range n).foldl
      (fun d i => d.write (key + 64 * i) ((bs.drop (64 * i)).take 64) (marks.getD i false)) d).mem = d.mem.writeN key (bs.take (64 * n)) := by
    induction n with
    | zero => simp [Mem.writeN]
    | succ n ih =>
      have full : (bs.take (64 * n)).length = 64 * n := by
        simp only [Bits.ceilDiv] at within
        simp only [List.length_take]
        omega
      rw [List.range_succ, List.foldl_append, List.foldl_cons, List.foldl_nil, Nat.mul_succ, List.take_add, Mem.writeN_append, full, ← ih (by omega)]
      rfl
  have all : bs.take (64 * Bits.ceilDiv bs.length 64) = bs := List.take_of_length_le (by simp only [Bits.ceilDiv]; omega)
  unfold Dp.writeUnits
  rw [first _ le_rfl, all]

/-! ### Choices (R253-R257) -/

/-- The assignments that a token gets from its scores `ws`. -/
def choicesOf (r : Router) (o : EngOp) (token : BitVec 16) (gen : Nat) (ws : List Word) (mark : Bool) : List Assign :=
  (topK r.k ws).mapIdx fun kr e =>
    { home := o.core.cluster, stall := o.tag.stall.toNat, token := token.toNat, kr := kr, expert := e
      gate := (gatesOf r ws (topK r.k ws)).1.getD kr 0#32, gen := gen, poison := mark }

/-- The assignments of a layer but those of a token. -/
def RouteLayer.others (rl : RouteLayer) (o : EngOp) (token : BitVec 16) : List Assign :=
  rl.assigns.filter fun a => !(a.home = o.core.cluster && a.token = token.toNat)

/-- What ROUTE_TOPK makes of the engines. -/
def topkOp (r : Router) (o : EngOp) (token : BitVec 16) (x : RouteRow) (core : Nat) (mark : Bool) (d : Dp) : Dp :=
  let rl := d.route o.core.yard o.tag.layer.toNat
  let gen := d.genOf o.core.yard o.tag.stall.toNat
  let ws := d.words (coreKey core x.scores) r.nexp
  if gen = 0 then
    (d.setRoute { rl with assigns := rl.others o token }).write (coreKey core x.dest) (wordBytes (List.replicate x.width 0#32)) false
  else ((d.setRoute { rl with assigns := rl.others o token ++ choicesOf r o token gen ws mark }).raiseFlags core .vxe
    ((gatesOf r ws (topK r.k ws)).2.or (.invIf (ws.any fun w => (num32 w).isNan)))).poisonRow o mark

theorem exec_routeTopk {s : State} {o : EngOp} {r : Router} (running : s.ctl.hub.halted = false)
    (router : s.ctl.router o.core.yard o.tag.layer.toNat = some r) (token : BitVec 16) (x : RouteRow) :
    exec (.routeTopk o token x) s = runEngine s o [⟨⟨x.scores, none, false⟩, .vxe, [(0, 4 * r.nexp)]⟩] true (locWritable ⟨.core, x.dest⟩ (4 * x.width)) []
      [(.vxeOp, r.nexp)] fun core _ mark d => topkOp r o token x core mark d := by
  simp only [exec, execRouteTopk, running, router, Bool.false_eq_true, if_false]
  rfl

theorem topkOp_vacant {d : Dp} {o : EngOp} (vacant : d.genOf o.core.yard o.tag.stall.toNat = 0) (r : Router) (token : BitVec 16) (x : RouteRow)
    (core : Nat) (mark : Bool) :
    ((topkOp r o token x core mark d).route o.core.yard o.tag.layer.toNat).assigns = (d.route o.core.yard o.tag.layer.toNat).others o token ∧
      (topkOp r o token x core mark d).flags = d.flags ∧
      (topkOp r o token x core mark d).mem = d.mem.writeN (coreKey core x.dest) (wordBytes (List.replicate x.width 0#32)) := by
  have routes : (topkOp r o token x core mark d).routes = (d.setRoute { d.route o.core.yard o.tag.layer.toNat with
      assigns := (d.route o.core.yard o.tag.layer.toNat).others o token }).routes := by
    simp only [topkOp, vacant, if_true, Dp.write_routes]
  refine ⟨by rw [Dp.route_of_setRoute routes (d.route_key _ _)], ?_, ?_⟩
  · simp [topkOp, vacant]
  · simp [topkOp, vacant, Dp.write]

theorem topkOp_routed {d : Dp} {o : EngOp} (routed : d.genOf o.core.yard o.tag.stall.toNat ≠ 0) (r : Router) (token : BitVec 16) (x : RouteRow)
    (core : Nat) (mark : Bool) :
    (topkOp r o token x core mark d).mem = d.mem ∧
      ((topkOp r o token x core mark d).route o.core.yard o.tag.layer.toNat).assigns = (d.route o.core.yard o.tag.layer.toNat).others o token ++
        choicesOf r o token (d.genOf o.core.yard o.tag.stall.toNat) (d.words (coreKey core x.scores) r.nexp) mark := by
  have routes : (topkOp r o token x core mark d).routes = (d.setRoute { d.route o.core.yard o.tag.layer.toNat with
      assigns := (d.route o.core.yard o.tag.layer.toNat).others o token ++
        choicesOf r o token (d.genOf o.core.yard o.tag.stall.toNat) (d.words (coreKey core x.scores) r.nexp) mark }).routes := by
    simp only [topkOp, routed, if_false, Dp.poisonRow_routes, Dp.raiseFlags_routes]
  refine ⟨?_, by rw [Dp.route_of_setRoute routes (d.route_key _ _)]⟩
  simp only [topkOp, routed, if_false, Dp.poisonRow_mem, Dp.raiseFlags_mem, Dp.setRoute_mem]

/-! ### Records (R255, R258, R260) -/

/-- What SEND_RECORD makes of the engines for the assignment `a` at `pos` of `slot`. -/
def sendOp (c : Ctl) (r : Router) (o : EngOp) (rl : RouteLayer) (a : Assign) (slot pos : Nat) (token : BitVec 16) (kr : Fin 2) (row : Nat) (len : RowLen)
    (area core : Nat) (mark : Bool) (d : Dp) : Dp :=
  let f := rowFmtOf r
  let size := sendBytes r len.width
  let src := d.mem.readN (coreKey core row) (if len.fp32 then 4 * len.width else rowBytesOf f len.width)
  let d := d.writeUnits (clusterKey (c.clu o.core.yard (slotCluster r slot).val) (area + pos * size))
    (recordBytes (tagOf a (((c.microIn o.core.yard).map (·.mb)).getD 0)) a.expert slot pos a.gate (if len.fp32 then sxeBytes (some f) src else src))
    (List.replicate (size / 64) (a.poison || mark))
  let d := if len.fp32 then d.countConv core o.core.yard o.tag f ((sxeConvert f src).clipped.take len.width) else d
  d.setRoute { rl with sends := rl.sends ++ [(token.toNat, kr.val, slot)] }

theorem sendOp_keeps (c : Ctl) (r : Router) (o : EngOp) {rl : RouteLayer} (key : rl.yard = o.core.yard ∧ rl.layer = o.tag.layer.toNat) (a : Assign)
    (slot pos : Nat) (token : BitVec 16) (kr : Fin 2) (row width area core : Nat) (fp32 mark : Bool) {length : Nat} {src : List Byte} (d : Dp)
    (hlength : length = if fp32 = true then 4 * width else rowBytesOf (rowFmtOf r) width) (hsrc : src = d.mem.readN (coreKey core row) length) :
    (sendOp c r o rl a slot pos token kr row ⟨width, fp32⟩ area core mark d).mem =
        d.mem.writeN (clusterKey (c.clu o.core.yard (slotCluster r slot).val) (area + pos * sendBytes r width))
          (recordBytes (tagOf a (((c.microIn o.core.yard).map (·.mb)).getD 0)) a.expert slot pos a.gate
            (if fp32 = true then sxeBytes (some (rowFmtOf r)) src else src)) ∧
      ((sendOp c r o rl a slot pos token kr row ⟨width, fp32⟩ area core mark d).route o.core.yard o.tag.layer.toNat).sends =
        rl.sends ++ [(token.toNat, kr.val, slot)] := by
  subst hlength hsrc
  have routing : (sendOp c r o rl a slot pos token kr row ⟨width, fp32⟩ area core mark d).route o.core.yard o.tag.layer.toNat =
      { rl with sends := rl.sends ++ [(token.toNat, kr.val, slot)] } := Dp.route_of_setRoute rfl key
  refine ⟨?_, by rw [routing]⟩
  simp only [sendOp, Dp.setRoute_mem]
  rw [apply_ite Dp.mem, Dp.countConv_mem, ite_self, Dp.writeUnits_mem]

theorem exec_sendRecord {s : State} {o : EngOp} {r : Router} (running : s.ctl.hub.halted = false)
    (router : s.ctl.router o.core.yard o.tag.layer.toNat = some r) {token : BitVec 16} {kr : Fin 2} {rl : RouteLayer} {a : Assign} {slot pos : Nat}
    (hrl : rl = s.dp.route o.core.yard o.tag.layer.toNat)
    (found : rl.assigns.find? (fun a => a.home = o.core.cluster && a.token = token.toNat && a.kr = kr.val) = some a)
    (place : rl.slotPos a = some (slot, pos)) (row area : Nat) (len : RowLen) :
    exec (.sendRecord o token kr row len area) s = runEngine s o
      [⟨⟨row, none, false⟩, .vxe, [(0, if len.fp32 then 4 * len.width else rowBytesOf (rowFmtOf r) len.width)]⟩] true
      (area + pos * sendBytes r len.width + sendBytes r len.width ≤ clusterBytes)
      [(clusterKey (s.ctl.clu o.core.yard (slotCluster r slot).val) (area + pos * sendBytes r len.width), sendBytes r len.width)]
      [(.spineByte, sendBytes r len.width)] fun core _ mark d => sendOp s.ctl r o rl a slot pos token kr row len area core mark d := by
  subst hrl
  simp only [exec, execSendRecord, running, router, found, place, Bool.false_eq_true, if_false]
  rfl

/-- A record that has no assignment, or no place yet, stays. -/
theorem exec_sendRecord_unplaced {s : State} {o : EngOp} {r : Router} (running : s.ctl.hub.halted = false)
    (router : s.ctl.router o.core.yard o.tag.layer.toNat = some r) {token : BitVec 16} {kr : Fin 2} {rl : RouteLayer} {found : Option Assign}
    (hrl : rl = s.dp.route o.core.yard o.tag.layer.toNat)
    (hfound : found = rl.assigns.find? fun a => a.home = o.core.cluster && a.token = token.toNat && a.kr = kr.val)
    (unplaced : ∀ a, found = some a → rl.slotPos a = none) (row area : Nat) (len : RowLen) :
    exec (.sendRecord o token kr row len area) s = .next s := by
  subst hrl
  simp only [exec, execSendRecord, running, router, ← hfound, Bool.false_eq_true, if_false]
  cases found with
  | none => rfl
  | some a => simp only [unplaced a rfl]

/-! ### Put-backs (R265, R266) -/

/-- The records that a home keeps once it has `x`, which takes the place of any of its token and rank. -/
def RouteLayer.keptWith (rl : RouteLayer) (x : ReturnRec) : List (Nat × Nat × List Word × Word × Bool) :=
  (rl.kept.filter fun y => !(y.1 = x.token && y.2.1 = x.kr)) ++ [(x.token, x.kr, x.words, x.gate, x.poison)]

theorem RouteLayer.keptWith_own (rl : RouteLayer) (x : ReturnRec) :
    (rl.keptWith x).find? (fun y => y.1 = x.token && y.2.1 = x.kr) = some (x.token, x.kr, x.words, x.gate, x.poison) := by
  exact find?_replaced (a := (x.token, x.kr, x.words, x.gate, x.poison)) (p := fun y => y.1 = x.token && y.2.1 = x.kr) (by simp) rl.kept

theorem RouteLayer.keptWith_other (rl : RouteLayer) (x : ReturnRec) {i : Nat} (other : i ≠ x.kr) :
    (rl.keptWith x).find? (fun y => y.1 = x.token && y.2.1 = i) = rl.kept.find? fun y => y.1 = x.token && y.2.1 = i := by
  refine find?_replaced_other (a := (x.token, x.kr, x.words, x.gate, x.poison)) (p := fun y => y.1 = x.token && y.2.1 = x.kr) (by simp) (fun y own => ?_) rl.kept
  simp only [Bool.and_eq_true, decide_eq_true_eq] at own
  simp [own, other.symm]

/-- With one of two records still to come, the home keeps what it has. -/
theorem putBack_waits {s : State} {r : Router} {o : EngOp} {x : ReturnRec} {rl : RouteLayer} (hrl : rl = s.dp.route o.core.yard o.tag.layer.toNat)
    (two : r.k = 2) (bit : x.kr = 0 ∨ x.kr = 1) (other : rl.kept.find? (fun z => z.1 = x.token && z.2.1 = 1 - x.kr) = none) (core : Fin 40)
    (dest : Nat) : putBack s r o x core dest = .next (s.withDp (s.dp.setRoute { rl with kept := rl.keptWith x })) := by
  subst hrl
  have own := RouteLayer.keptWith_own (s.dp.route o.core.yard o.tag.layer.toNat) x
  have alone := (RouteLayer.keptWith_other (s.dp.route o.core.yard o.tag.layer.toNat) x (i := 1 - x.kr) (by omega)).trans other
  unfold RouteLayer.keptWith at own alone ⊢
  unfold putBack
  rcases bit with first | second
  · rw [first] at own alone ⊢
    dsimp only
    rw [own, if_pos two, alone]
    simp [two, State.withDp]
  · rw [second] at own alone ⊢
    dsimp only
    rw [alone]
    rfl

/-- The gated sum of a token whose records are all there. -/
theorem putBack_sums {s : State} {r : Router} {o : EngOp} {x : ReturnRec} {rl : RouteLayer} (hrl : rl = s.dp.route o.core.yard o.tag.layer.toNat)
    {t0 k0 : Nat} {ws : List Word} {g : Word} {bad : Bool} {second : Option (Nat × Nat × List Word × Word × Bool)}
    (first : (rl.keptWith x).find? (fun y => y.1 = x.token && y.2.1 = 0) = some (t0, k0, ws, g, bad))
    (hsecond : (if r.k = 2 then (rl.keptWith x).find? (fun y => y.1 = x.token && y.2.1 = 1) else none) = second)
    (full : r.k = 2 → second.isSome = true) {core : Fin 40} {dest : Nat} (fits : locWritable ⟨.core, dest⟩ (4 * ws.length) = true) :
    ∃ t, putBack s r o x core dest = .next t ∧ EnginesAlone s t ∧
      t.dp.mem = s.dp.mem.writeN (coreKey (s.ctl.core ⟨o.core.yard, homeOf x.tag, core⟩) dest)
        (wordBytes (ws.mapIdx fun i y => (putBackElem g y (second.map fun z => (z.2.2.2.1, z.2.2.1.getD i 0#32))).1)) := by
  subst hrl
  unfold RouteLayer.keptWith at first hsecond
  have complete : (decide (r.k = 2) && second.isNone) = false := by
    by_cases two : r.k = 2
    · simp [two, Option.isNone_eq_false_iff, full two]
    · simp [two]
  unfold putBack
  dsimp only
  rw [first, hsecond]
  dsimp only
  rw [complete, fits]
  refine ⟨_, rfl, ⟨rfl, rfl⟩, ?_⟩
  simp only [Dp.countUnits_mem, Dp.poisonRow_mem, Dp.raiseFlags_mem, map_mapIdx]
  rfl

/-! ### Return records (R258, R263, R265-R267) -/

/-- The instruction of a return record: it stands for no stall. -/
def returnOp (o : EngOp) : EngOp := ⟨o.core, ⟨0#16, o.tag.layer, o.tag.chan⟩, o.at0⟩

/-- The engines once a core has formed a return record, before the home takes it. -/
def State.returning (s : State) (o : EngOp) (r : Router) (area pos row width : Nat) : Dp :=
  let z := returnRec s o r area pos row width
  let tag : RowTag := { o.tag with stall := BitVec.ofNat 16 ((s.dp.route o.core.yard o.tag.layer.toNat).stallOf z.1.tag) }
  (((s.dp.raiseFlags (s.ctl.core o.core) .vxe z.2.fl).countConv (s.ctl.core o.core) o.core.yard tag .bf16 z.2.clipped).countUnits o.core.yard
    o.core.cluster.val tag.stall.toNat [(.spineByte, returnBytes width)]).retireInstr o.core.yard o.core.cluster

theorem State.returning_eq (s : State) (o : EngOp) (r : Router) (area pos row width : Nat) : ∃ f x y u p,
    s.returning o r area pos row width = { s.dp with flags := f, clips := x, converted := y, units := u, progress := p } := by
  unfold State.returning
  dsimp only
  obtain ⟨x, y, counted⟩ := Dp.countConv_eq (s.dp.raiseFlags (s.ctl.core o.core) .vxe (returnRec s o r area pos row width).2.fl) (s.ctl.core o.core)
    o.core.yard { o.tag with stall := BitVec.ofNat 16 ((s.dp.route o.core.yard o.tag.layer.toNat).stallOf (returnRec s o r area pos row width).1.tag) }
    .bf16 (returnRec s o r area pos row width).2.clipped
  rw [counted]
  exact ⟨_, x, y, _, _, rfl⟩

/-- The engines as the home finds them when it puts a record back: memory and routing stand. -/
theorem State.returning_stands (s : State) (o : EngOp) (r : Router) (area pos row width : Nat) :
    (s.returning (returnOp o) r area pos row width).mem = s.dp.mem ∧
      s.dp.route o.core.yard o.tag.layer.toNat = (s.returning (returnOp o) r area pos row width).route o.core.yard o.tag.layer.toNat := by
  obtain ⟨f, cl, cv, u, p, eq⟩ := s.returning_eq (returnOp o) r area pos row width
  rw [eq]
  exact ⟨rfl, rfl⟩

section

variable {s : State} {o : EngOp} {r : Router} (running : s.ctl.hub.halted = false)
  (router : s.ctl.router o.core.yard o.tag.layer.toNat = some r)

include running router

theorem exec_returnRecord_held (held : s.ctl.issues o.core.yard o.core.cluster.val o.at0 = false) (area pos row width : Nat) (core : Fin 40) (dest : Nat) :
    exec (.returnRecord o.core.yard o.core.cluster o.core.core o.tag.layer o.tag.chan o.at0 area pos row width core dest) s = .next s := by
  simp [exec, execReturnRecord, running, router, held]

/-- A record that is formed goes to its home, which takes it or counts it as stale. -/
theorem exec_returnRecord {area pos row width : Nat} {x : ReturnRec} (issues : s.ctl.issues o.core.yard o.core.cluster.val o.at0 = true)
    (place : area + pos * sendBytes r width + sendBytes r width ≤ clusterBytes) (readable : locReadable ⟨.core, row⟩ (4 * width) = true)
    (hx : x = (returnRec s o r area pos row width).1) (core : Fin 40) (dest : Nat) :
    exec (.returnRecord o.core.yard o.core.cluster o.core.core o.tag.layer o.tag.chan o.at0 area pos row width core dest) s =
      if s.dp.recordFresh o.core.yard r x ((s.dp.route o.core.yard o.tag.layer.toNat).stallOf x.tag) then
        putBack (s.withDp (s.returning (returnOp o) r area pos row width)) r (returnOp o) x core dest
      else .next { s with
        dp := s.returning (returnOp o) r area pos row width
        ctl := s.ctl.onYard (s.ctl.home o.core.yard) fun y => { y with stale := sat64 y.stale 1 } } := by
  subst hx
  obtain ⟨f, cl, cv, u, p, eq⟩ := s.returning_eq (returnOp o) r area pos row width
  have fresh (x : ReturnRec) (n : Nat) :
      (s.returning (returnOp o) r area pos row width).recordFresh o.core.yard r x n = s.dp.recordFresh o.core.yard r x n := by rw [eq]; rfl
  rw [← fresh]
  simp only [exec, execReturnRecord, running, router, issues, place, readable, decide_true, Bool.not_true, Bool.or_self, Bool.false_eq_true, if_false]
  rfl

/-- A record that the home does not hold any longer (R265). -/
theorem exec_returnRecord_stale {area pos row width : Nat} {x : ReturnRec} (issues : s.ctl.issues o.core.yard o.core.cluster.val o.at0 = true)
    (place : area + pos * sendBytes r width + sendBytes r width ≤ clusterBytes) (readable : locReadable ⟨.core, row⟩ (4 * width) = true)
    (hx : x = (returnRec s o r area pos row width).1)
    (stale : s.dp.recordFresh o.core.yard r x ((s.dp.route o.core.yard o.tag.layer.toNat).stallOf x.tag) = false) (core : Fin 40) (dest : Nat) :
    ∃ t, exec (.returnRecord o.core.yard o.core.cluster o.core.core o.tag.layer o.tag.chan o.at0 area pos row width core dest) s = .next t ∧
      t.cfg = s.cfg ∧ t.dp.mem = s.dp.mem ∧ t.dp.routes = s.dp.routes ∧
      t.ctl = s.ctl.onYard (s.ctl.home o.core.yard) fun z => { z with stale := sat64 z.stale 1 } := by
  obtain ⟨f, cl, cv, u, p, eq⟩ := s.returning_eq (returnOp o) r area pos row width
  have taken := exec_returnRecord running router issues place readable hx core dest
  rw [if_neg (by simp [stale]), eq] at taken
  exact ⟨_, taken, rfl, rfl, rfl, rfl⟩

section

variable {area pos row width : Nat} {x : ReturnRec} {rl : RouteLayer} (issues : s.ctl.issues o.core.yard o.core.cluster.val o.at0 = true)
  (place : area + pos * sendBytes r width + sendBytes r width ≤ clusterBytes) (readable : locReadable ⟨.core, row⟩ (4 * width) = true)
  (hx : x = (returnRec s o r area pos row width).1) (hrl : rl = s.dp.route o.core.yard o.tag.layer.toNat)
  (fresh : s.dp.recordFresh o.core.yard r x (rl.stallOf x.tag) = true)

include issues place readable hx hrl fresh

theorem exec_returnRecord_waits (two : r.k = 2) (other : rl.kept.find? (fun z => z.1 = x.token && z.2.1 = 1 - x.kr) = none) (core : Fin 40)
    (dest : Nat) :
    ∃ t, exec (.returnRecord o.core.yard o.core.cluster o.core.core o.tag.layer o.tag.chan o.at0 area pos row width core dest) s = .next t ∧
      EnginesAlone s t ∧ t.dp.mem = s.dp.mem ∧ (t.dp.route o.core.yard o.tag.layer.toNat).kept = rl.keptWith x := by
  subst hrl
  obtain ⟨mem, route⟩ := s.returning_stands o r area pos row width
  have taken := exec_returnRecord running router issues place readable hx core dest
  rw [if_pos fresh] at taken
  have put := putBack_waits (s := s.withDp (s.returning (returnOp o) r area pos row width)) (o := returnOp o) route two
    (Nat.mod_two_eq_zero_or_one _) other
  refine ⟨_, taken.trans (put core dest), ⟨rfl, rfl⟩, mem, ?_⟩
  have held := Dp.route_of_setRoute (d := s.returning (returnOp o) r area pos row width)
    (r := { s.dp.route o.core.yard o.tag.layer.toNat with kept := (s.dp.route o.core.yard o.tag.layer.toNat).keptWith x }) rfl (s.dp.route_key _ _)
  exact congrArg RouteLayer.kept held

theorem exec_returnRecord_sums {t0 k0 : Nat} {ws : List Word} {g : Word} {bad : Bool} {second : Option (Nat × Nat × List Word × Word × Bool)}
    (first : (rl.keptWith x).find? (fun y => y.1 = x.token && y.2.1 = 0) = some (t0, k0, ws, g, bad))
    (hsecond : (if r.k = 2 then (rl.keptWith x).find? (fun y => y.1 = x.token && y.2.1 = 1) else none) = second)
    (full : r.k = 2 → second.isSome = true) {core : Fin 40} {dest : Nat} (fits : locWritable ⟨.core, dest⟩ (4 * ws.length) = true) :
    ∃ t, exec (.returnRecord o.core.yard o.core.cluster o.core.core o.tag.layer o.tag.chan o.at0 area pos row width core dest) s = .next t ∧
      EnginesAlone s t ∧ t.dp.mem = s.dp.mem.writeN (coreKey (s.ctl.core ⟨o.core.yard, homeOf x.tag, core⟩) dest)
        (wordBytes (ws.mapIdx fun i y => (putBackElem g y (second.map fun z => (z.2.2.2.1, z.2.2.1.getD i 0#32))).1)) := by
  subst hrl
  obtain ⟨mem, route⟩ := s.returning_stands o r area pos row width
  have taken := exec_returnRecord running router issues place readable hx core dest
  rw [if_pos fresh] at taken
  obtain ⟨t, put, alone, written⟩ := putBack_sums (s := s.withDp (s.returning (returnOp o) r area pos row width)) (o := returnOp o) route first hsecond
    full fits
  refine ⟨t, taken.trans put, alone, written.trans ?_⟩
  rw [← mem]
  rfl

end

/-! ### Counts, the slot table, its multicast and the bases (R257, R260) -/

omit running router in
/-- The four steps of the cluster that builds the table, each with its change of the layer's routing. -/
theorem exec_tableSteps (y : YardAt) (l : BitVec 12) :
    (exec (.countReduce y l) s = routeStep s y.yard l.toNat y.at0 fun r x => { x with counts := x.homes.map fun h => (h, x.countsOf r.nexp h) }) ∧
    (exec (.slotBuild y l) s = routeStep s y.yard l.toNat y.at0 fun r x =>
      { x with table := some (slotTable (totals r.nexp x.counts) r.nslot r.tps) }) ∧
    (exec (.slotTableMulticast y l) s = routeStep s y.yard l.toNat y.at0 fun _ x => { x with shared := x.table.isSome }) ∧
    exec (.baseOffsetReturn y l) s = routeStep s y.yard l.toNat y.at0 fun r x =>
      { x with bases := x.counts.map fun c => (c.1, baseOf r.nexp x.counts c.1) } := ⟨rfl, rfl, rfl, rfl⟩

theorem routeStep_held {at0 : When} (held : s.ctl.issues o.core.yard r.tableClu at0 = false) (f : Router → RouteLayer → RouteLayer) :
    routeStep s o.core.yard o.tag.layer.toNat at0 f = .next s := by
  simp [routeStep, running, router, held]

theorem routeStep_made {at0 : When} (issues : s.ctl.issues o.core.yard r.tableClu at0 = true) (f : Router → RouteLayer → RouteLayer) :
    routeStep s o.core.yard o.tag.layer.toNat at0 f =
      .next (s.withDp (s.dp.setRoute (f r (s.dp.route o.core.yard o.tag.layer.toNat)))) := by
  simp [routeStep, running, router, issues, State.withDp]

/-! ### Expert streams (R261) -/

variable {lead which : Nat} {at0 : When} {rl : RouteLayer} (hrl : rl = s.dp.route o.core.yard o.tag.layer.toNat)

include hrl

theorem exec_expertStream_unused (unused : (rl.table.bind fun x => x.expertOf.getD lead none) = none) :
    exec (.expertStream o.core.yard o.tag.layer lead which at0) s = .next s := by
  subst hrl
  have none : ((s.dp.route o.core.yard o.tag.layer.toNat).table.bind fun t => (t.expertOf.getD lead none).map fun e => (t, e)) = none := by
    cases table : (s.dp.route o.core.yard o.tag.layer.toNat).table with
    | none => rfl
    | some t =>
      rw [table, Option.bind_some] at unused
      simp only [Option.bind_some, unused, Option.map_none]
  simp only [exec, execExpertStream, running, router, none, Bool.false_eq_true, if_false]

/-- A lead slot's stream: held, faulted by an entry outside its store, or issued as far as its queues let it. -/
theorem exec_expertStream {t0 : SlotTable} {e : Nat} (table : rl.table = some t0) (expert : t0.expertOf.getD lead none = some e) :
    exec (.expertStream o.core.yard o.tag.layer lead which at0) s =
      if !s.ctl.issues o.core.yard (slotCluster r lead).val at0 || !rl.shared || t0.first.getD e 0 ≠ lead then .next s
      else if (s.ctl.expertList s.dp o.core.yard o.tag.layer.toNat e which).any fun x => !s.ctl.entryFits x then .fault .noSuchAddress
      else
        let z := s.ctl.issueAll ⟨o.core.yard, slotCluster r lead, 0⟩ (runReceivers r ((List.range (t0.n.getD e 0)).map (lead + ·)))
          ((s.ctl.expertList s.dp o.core.yard o.tag.layer.toNat e which).drop (((rl.streams.find? (·.1 = e)).map (·.2)).getD 0)) s.dp 0
        .next (s.withDp (z.1.setRoute { rl with
          streams := rl.streams.filter (·.1 ≠ e) ++ [(e, ((rl.streams.find? (·.1 = e)).map (·.2)).getD 0 + z.2)] })) := by
  subst hrl
  simp only [exec, execExpertStream, running, router, table, expert, Option.bind_some, Option.map_some, Bool.false_eq_true, if_false]
  rfl

end

end Sys2Proof.Machine

open Sys2Proof Sys2Proof.Machine

/-- Settles O53: the choice is `topkOp` and the send record `sendOp`, each on a ready engine; a return record is `exec_returnRecord`, put back by
`putBack_waits` or `putBack_sums`; the other steps write their own part of the layer's routing. The +0 row at ROUTE_TOPK, the place of a send record and
the fault of a layer without a router are the model's choice 48. -/
theorem routingStepsFollowTheirRules : Obligations.RoutingStepsFollowTheirRules := by
  rintro s o _ _ _ _ rfl rfl rfl rfl
  refine ⟨fun token kr scores dest width area pos row lead which fp32 c at0 i mem => routingSteps_first s mem, fun r running router => ⟨?choice, ?table,
    ?send, ?back, fun lead which at0 unused => exec_expertStream_unused running router rfl unused, ?stream⟩⟩
  case choice =>
    rintro token scores dest width ls _ _ rfl ready fits rfl
    obtain ⟨w, u, q, p, ran⟩ := runEngine_ready_eq ready [] [(.vxeOp, r.nexp)] fun core _ mark d => topkOp r o token ⟨scores, dest, width⟩ core mark d
    have made := exec_routeTopk running router token ⟨scores, dest, width⟩
    rw [fits] at made
    refine ⟨_, _, _, made.trans ran, ⟨rfl, rfl⟩, rfl, rfl, fun vacant => ?_, fun routed => ?_⟩
    · exact topkOp_vacant (d := { s.dp with waits := w }) vacant r token ⟨scores, dest, width⟩ _ _
    · exact topkOp_routed (d := { s.dp with waits := w }) routed r token ⟨scores, dest, width⟩ _ _
  case table =>
    intro at0
    obtain ⟨count, build, multicast, bases⟩ := exec_tableSteps (s := s) ⟨o.core.yard, at0⟩ o.tag.layer
    refine ⟨fun held i mem => ?_, fun issues => ?_⟩
    · have stays := routeStep_held running router held
      simp only [List.mem_cons, List.not_mem_nil, or_false] at mem
      rcases mem with rfl | rfl | rfl | rfl
      · exact count.trans (stays _)
      · exact build.trans (stays _)
      · exact multicast.trans (stays _)
      · exact bases.trans (stays _)
    · have made := routeStep_made running router issues
      exact ⟨count.trans (made _), build.trans (made _), multicast.trans (made _), bases.trans (made _)⟩
  case send =>
    intro token kr row width area fp32 found hfound
    refine ⟨fun unplaced => exec_sendRecord_unplaced running router rfl hfound unplaced row area ⟨width, fp32⟩, ?_⟩
    rintro a slot pos length at0 ls rfl place hlength rfl ready fits
    have made := exec_sendRecord running router rfl hfound.symm place row area ⟨width, fp32⟩
    rw [decide_eq_true fits, ← hlength] at made
    obtain ⟨w, u, q, p, ran⟩ := runEngine_ready_eq ready
      [(clusterKey (s.ctl.clu o.core.yard (slotCluster r slot).val) (area + pos * sendBytes r width), sendBytes r width)]
      [(.spineByte, sendBytes r width)] fun core _ mark d => sendOp s.ctl r o (s.dp.route o.core.yard o.tag.layer.toNat) a slot pos token kr row
        ⟨width, fp32⟩ area core mark d
    obtain ⟨mem, sends⟩ := sendOp_keeps s.ctl r o (s.dp.route_key o.core.yard o.tag.layer.toNat) a slot pos token kr row width area
      (s.ctl.core o.core) fp32 (s.marked o [⟨⟨row, none, false⟩, .vxe, [(0, length)]⟩]) { s.dp with waits := w } hlength rfl
    exact ⟨_, _, made.trans ran, ⟨rfl, rfl⟩, rfl, mem, sends⟩
  case back =>
    rintro area pos row width c dest _ x hx rfl
    refine ⟨fun held => exec_returnRecord_held running router held area pos row width c dest, fun issues place readable =>
      ⟨fun stale => exec_returnRecord_stale running router issues place readable hx stale c dest, fun fresh => ?_⟩⟩
    have own := (s.dp.route o.core.yard o.tag.layer.toNat).keptWith_own x
    have other {i : Nat} := (s.dp.route o.core.yard o.tag.layer.toNat).keptWith_other x (i := i)
    have sums {t0 k0 : Nat} {ws : List Word} {g : Word} {bad : Bool} {second : Option (Nat × Nat × List Word × Word × Bool)} :=
      exec_returnRecord_sums running router issues place readable hx rfl fresh (t0 := t0) (k0 := k0) (ws := ws) (g := g) (bad := bad)
        (second := second) (core := c) (dest := dest)
    refine ⟨?one, ?waits, ?sums⟩
    case one =>
      intro single rank fits
      rw [rank] at own
      have made := sums own (if_neg (by simp [single])) (by simp [single]) fits
      simp only [Option.map_none, putBackElem, mapIdx_eq_map] at made
      exact made
    case waits =>
      intro two absent
      obtain ⟨t, made, alone, mem, kept⟩ := exec_returnRecord_waits running router issues place readable hx rfl fresh two absent c dest
      refine ⟨t, made, alone, mem, ?_⟩
      rw [kept]
      exact List.mem_append_right _ List.mem_cons_self
    case sums =>
      intro two ws g bad found
      refine ⟨fun rank fits => ?_, fun rank fits => ?_⟩
      · rw [rank] at own found
        exact sums ((other (by omega)).trans found) ((if_pos two).trans own) (fun _ => rfl) fits
      · rw [rank] at own found
        exact sums own ((if_pos two).trans ((other (by omega)).trans found)) (fun _ => rfl) fits
  case stream =>
    rintro lead which e sent at0 t0 es rs table expert rfl rfl rfl
    have stream := exec_expertStream running router rfl table expert (which := which) (at0 := at0)
    refine ⟨fun held => ?_, fun issues shared first => ?_⟩
    · rw [stream, if_pos]
      rcases held with waits | unshared | other
      · simp [waits]
      · simp [unshared]
      · rw [decide_eq_true other, Bool.or_true]
    · rw [if_neg (by rw [issues, shared, decide_eq_false (not_not_intro first)]; decide)] at stream
      refine ⟨fun outside => ?_, fun fit => ?_⟩
      · rw [stream, if_pos (by simpa using outside)]
      · rw [stream, if_neg (by simpa using fit)]

end

section
/-! The matrix engine: what stands when its instructions end, and the accumulators (R84-R94). -/

namespace Sys2Proof.Machine

open Sys2Proof

/-- A ready instruction of good formats and places runs its operation on the engines as they stand but for its consumers' waits `w`. -/
theorem runEngine_ready_runs {s : State} {o : EngOp} {needs : List Need} {ls : List Loc} {formats inside : Bool} {dests : List (Nat × Nat)}
    {work : List (EnergyClass × Nat)} {f : Nat → List Loc → Bool → Dp → Dp} {w : List (Nat × Wait)} (ready : Ready s o needs ls)
    (started : s.dp.started (s.ctl.core o.core) needs = { s.dp with waits := w }) (hformats : formats = true) (hinside : inside = true) :
    runEngine s o needs formats inside dests work f =
      .next (s.withDp (((f (s.ctl.core o.core) ls (s.marked o needs) { s.dp with waits := w }).countUnits o.core.yard o.core.cluster.val
        o.tag.stall.toNat work).ended (s.ctl.core o.core) needs o.core.yard o.core.cluster)) := by
  subst hformats hinside
  rw [← started]
  exact runEngine_ready dests work f ready

section

variable (d : Dp) (o : EngOp) (mark : Bool) (work : List (EnergyClass × Nat)) (core : Nat) (needs : List Need) (k : Yard) (l : Cluster) (stall : Nat)

/-- Marking the row of an operation, counting its work and ending its instruction write no byte. -/
theorem Dp.ended_marked_mem : (((d.poisonRow o mark).countUnits k l.val stall work).ended core needs k l).mem = d.mem := by
  obtain ⟨q, p, ended⟩ := ended_eq ((d.poisonRow o mark).countUnits k l.val stall work) core needs k l
  rw [ended]
  exact Dp.poisonRow_mem d o mark

/-- They raise no flag. -/
theorem Dp.ended_marked_flags : (((d.poisonRow o mark).countUnits k l.val stall work).ended core needs k l).flags = d.flags := by
  obtain ⟨q, p, ended⟩ := ended_eq ((d.poisonRow o mark).countUnits k l.val stall work) core needs k l
  rw [ended]
  cases mark <;> rfl

/-- The work is counted on the units that the operation leaves. -/
theorem Dp.ended_marked_units : (((d.poisonRow o mark).countUnits k l.val stall work).ended core needs k l).units =
    (d.countUnits k l.val stall work).units := by
  obtain ⟨q, p, ended⟩ := ended_eq ((d.poisonRow o mark).countUnits k l.val stall work) core needs k l
  rw [ended]
  cases mark <;> rfl

end

end Sys2Proof.Machine

open Sys2Proof Sys2Proof.Machine

/-- Settles O51: each instruction runs its operation on a ready engine (`runEngine_ready_runs`), and after the operation's writes and flags come the
marking of its row, the count of its work and its end alone (`Dp.ended_marked_mem`). The class of the multiply-accumulates is entry 108 of the
model's log, the padding and the flags of a group and a pair entry 18. -/
theorem dotProductsAccumulate : Obligations.DotProductsAccumulate := by
  rintro s o _ acc rfl
  refine ⟨fun start a b n ls _ ready elementA elementB size hg => ?dot, fun second ready readable => ?merge,
    fun count pair hiOnly dest ready writable => ?readout, fun held start a b n pair hiOnly i mem => ?held⟩
  case dot =>
    subst hg
    obtain ⟨w, started⟩ := started_eq (dotNeeds a b n) s.dp (s.ctl.core o.core)
    have formats : (isElement a.fmt && isElement b.fmt) = true := by rw [elementA, elementB, Bool.and_self]
    have inside {bytes : Nat} (fits : startFits start bytes = true) : (decide (n ≤ 32) && startFits start bytes) = true := by
      rw [decide_eq_true size, fits, Bool.and_self]
    refine ⟨fun fits => ?single, fun fits => ?pair⟩
    case single =>
      simp only [exec, execMxeDotProduct, Bool.false_eq_true, if_false]
      exact ⟨_, _, runEngine_ready_runs ready started formats (inside fits), ⟨rfl, rfl⟩, rfl, Dp.ended_marked_mem .., Dp.ended_marked_flags ..,
        Dp.ended_marked_units ..⟩
    case pair =>
      simp only [exec, execMxeDotProduct, if_true]
      exact ⟨_, _, runEngine_ready_runs ready started formats (inside fits), ⟨rfl, rfl⟩, rfl, Dp.ended_marked_mem .., Dp.ended_marked_flags ..,
        Dp.ended_marked_units ..⟩
  case merge =>
    simp only [exec, execPairMerge]
    exact ⟨_, _, _, _, runEngine_ready_runs ready rfl rfl readable, ⟨rfl, rfl⟩, rfl, rfl, rfl, Dp.ended_marked_mem .., Dp.ended_marked_flags ..⟩
  case readout =>
    simp only [exec, execAccReadout]
    exact ⟨_, runEngine_ready_runs ready rfl rfl writable, ⟨rfl, rfl⟩, Dp.ended_marked_flags .., Dp.ended_marked_mem ..⟩
  case held =>
    simp only [List.mem_cons, List.not_mem_nil, or_false] at mem
    rcases mem with rfl | rfl | rfl
    · simp only [exec, execMxeDotProduct, runEngine_held held]
    · simp only [exec, execPairMerge, runEngine_held held]
    · simp only [exec, execAccReadout, runEngine_held held]

end

section
/-! The vector engine: when a ready instruction writes a converted run, and when an instruction of the lanes waits, faults or computes nothing
(R82, R100, R127, R163, R379). -/

namespace Sys2Proof.Machine

open Sys2Proof

/-! ### What a converted run changes -/

theorem Dp.poisonRow_eq (d : Dp) (o : EngOp) (mark : Bool) : ∃ r, d.poisonRow o mark = { d with rowPoison := r } := by
  cases mark <;> exact ⟨_, rfl⟩

theorem Dp.poisonRow_flags (d : Dp) (o : EngOp) (mark : Bool) : (d.poisonRow o mark).flags = d.flags := by cases mark <;> rfl

/-- What each step leaves, all of them leave. -/
theorem foldl_leaves {α β γ : Type} (p : β → γ) {f : β → α → β} (h : ∀ b a, p (f b a) = p b) (b : β) (l : List α) :
    p (l.foldl f b) = p b := by
  induction l generalizing b with
  | nil => rfl
  | cons a l ih => exact (ih _).trans (h b a)

/-- Writing runs of bytes changes their bytes and poison marks alone. -/
theorem Dp.writeRuns_eq (d : Dp) (core : Nat) (rs : List (Nat × List Byte)) (mark : Bool) :
    ∃ x, d.writeRuns core rs mark = { d with mem := d.mem.afterRuns core rs, poison := x } := by
  induction rs generalizing d with
  | nil => exact ⟨d.poison, rfl⟩
  | cons r rs ih => exact ih (d.write (coreKey core r.1) r.2 mark)

/-- Writing a converted run changes its bytes, its flags, and the marks and counts of poison and conversion alone. -/
theorem Dp.putWritten_eq (d : Dp) (core : Nat) (o : EngOp) (dst : Dst) (n : Nat) (w : Written) (mark : Bool) :
    ∃ x r c y, d.putWritten core o dst n w mark = { d.raiseFlags core .vxe w.fl with
      mem := d.mem.afterRuns core (dstRuns dst n w), poison := x, rowPoison := r, clips := c, converted := y } := by
  obtain ⟨x, wrote⟩ := d.writeRuns_eq core (dstRuns dst n w) mark
  unfold Dp.putWritten
  rw [wrote]
  obtain ⟨r, marked⟩ := Dp.poisonRow_eq
    (Dp.raiseFlags { d with mem := d.mem.afterRuns core (dstRuns dst n w), poison := x } core .vxe w.fl) o mark
  rw [marked]
  obtain ⟨c, y, counted⟩ := Dp.countConv_eq
    { Dp.raiseFlags { d with mem := d.mem.afterRuns core (dstRuns dst n w), poison := x } core .vxe w.fl with rowPoison := r }
    core o.core.yard o.tag dst.fmt (w.clipped.take n)
  exact ⟨x, r, c, y, counted⟩

section

variable {s : State} {o : EngOp} {needs : List Need} {ls : List Loc} {formats inside : Bool} {dests : List (Nat × Nat)}
  {work : List (EnergyClass × Nat)} {f : Nat → List Loc → Bool → Dp → Dp}

/-- A ready instruction of good formats and places leaves whatever its operation makes of the engines, but for the waits that it finds and the
units, the queues and the progress that it leaves. -/
theorem runEngine_ready_leaves {P : State → Prop} (ready : Ready s o needs ls) (hformats : formats = true) (hinside : inside = true)
    (op : ∀ w u q p, P (s.withDp { f (s.ctl.core o.core) ls (s.marked o needs) { s.dp with waits := w } with
      units := u, queues := q, progress := p })) :
    ∃ t, runEngine s o needs formats inside dests work f = .next t ∧ P t := by
  subst hformats hinside
  obtain ⟨w, u, q, p, ran⟩ := runEngine_ready_eq ready dests work f
  exact ⟨_, ran, op w u q p⟩

/-- Where its operation writes a converted run on engines of any flags, a ready instruction leaves the run and its flags beside those. -/
theorem runEngine_ready_written {dst : Dst} {n : Nat} {w : Written} {mark : List (Nat × Wait) → Bool} {fl : List (Nat × Byte)}
    (ready : Ready s o needs ls) (hformats : formats = true) (hinside : inside = true)
    (op : ∀ x, f (s.ctl.core o.core) ls (s.marked o needs) { s.dp with waits := x } =
      Dp.putWritten { s.dp with waits := x, flags := fl } (s.ctl.core o.core) o dst n w (mark x)) :
    ∃ t, runEngine s o needs formats inside dests work f = .next t ∧ RunWritten s t o dst n w ∧
      t.dp.flags = (Dp.raiseFlags { s.dp with flags := fl } (s.ctl.core o.core) .vxe w.fl).flags := by
  refine runEngine_ready_leaves ready hformats hinside fun x u q p => ?_
  obtain ⟨a, r, c, y, put⟩ := Dp.putWritten_eq { s.dp with waits := x, flags := fl } (s.ctl.core o.core) o dst n w (mark x)
  rw [op, put]
  exact ⟨⟨⟨rfl, rfl⟩, ⟨rfl, rfl, rfl, rfl, rfl, rfl, rfl, rfl⟩, rfl⟩, rfl⟩

/-- Where its operation raises the flags of results and then writes a converted run, both stand. -/
theorem runEngine_ready_raised {dst : Dst} {n : Nat} {w : Written} {fl : ArithFlags} {mark : List (Nat × Wait) → Bool} (ready : Ready s o needs ls)
    (hformats : formats = true) (hinside : inside = true) (op : ∀ x, f (s.ctl.core o.core) ls (s.marked o needs) { s.dp with waits := x } =
      (Dp.raiseFlags { s.dp with waits := x } (s.ctl.core o.core) .vxe fl).putWritten (s.ctl.core o.core) o dst n w (mark x)) :
    ∃ t, runEngine s o needs formats inside dests work f = .next t ∧ RunWritten s t o dst n w ∧
      t.dp.flags = ((s.dp.raiseFlags (s.ctl.core o.core) .vxe fl).raiseFlags (s.ctl.core o.core) .vxe w.fl).flags :=
  runEngine_ready_written ready hformats hinside op

/-- Where its operation raises the flags of results and puts them to a destination, a ready instruction has written them. -/
theorem runEngine_ready_put {dst : Dst} {r : List Word × ArithFlags} {mark : List (Nat × Wait) → Bool} (ready : Ready s o needs ls)
    (hformats : formats = true) (hinside : inside = true) (op : ∀ x, f (s.ctl.core o.core) ls (s.marked o needs) { s.dp with waits := x } =
      (Dp.raiseFlags { s.dp with waits := x } (s.ctl.core o.core) .vxe r.2).put (s.ctl.core o.core) o dst r.1 (mark x)) :
    ∃ t, runEngine s o needs formats inside dests work f = .next t ∧ LanesWritten s t o dst r :=
  runEngine_ready_raised ready hformats hinside op

/-! ### When no operation runs -/

/-- An operand whose data are not there makes its consumer wait. -/
theorem runEngine_waits (issues : s.ctl.issues o.core.yard o.core.cluster.val o.at0 = true) {w : Consumer × Wait}
    (waits : s.waitOf o needs = some w) :
    runEngine s o needs formats inside dests work f = .next (s.withDp (s.dp.setWait (s.ctl.core o.core) w.1 w.2)) := by
  unfold State.waitOf at waits
  simp only [runEngine, issues, waits, Bool.not_true, Bool.false_eq_true, if_false]
  rfl

theorem runEngine_badFormat (issues : s.ctl.issues o.core.yard o.core.cluster.val o.at0 = true) (there : s.waitOf o needs = none)
    (hformats : formats = false) : runEngine s o needs formats inside dests work f = .fault .badFormat := by
  unfold State.waitOf at there
  simp only [runEngine, issues, there, hformats, Bool.not_true, Bool.not_false, Bool.false_eq_true, if_false, if_true]

theorem runEngine_noSuchAddress (issues : s.ctl.issues o.core.yard o.core.cluster.val o.at0 = true) (there : s.waitOf o needs = none)
    (hformats : formats = true) (outside : inside = false) : runEngine s o needs formats inside dests work f = .fault .noSuchAddress := by
  unfold State.waitOf at there
  simp only [runEngine, issues, there, hformats, outside, Bool.not_true, Bool.not_false, Bool.true_or, Bool.false_eq_true, if_false, if_true]

/-- Fault mode raises no flag. -/
theorem Dp.faultMode_flags (d : Dp) (o : EngOp) (dests : List (Nat × Nat)) : (d.faultMode o dests).flags = d.flags := by
  unfold Dp.faultMode
  rw [Dp.poisonRow_flags]
  exact foldl_leaves (f := fun (d : Dp) (r : Nat × Nat) => { (d.write r.1 (freeBytes d.drawn r.2) true) with drawn := d.drawn + r.2 })
    Dp.flags (fun _ _ => rfl) d dests

/-- Ending an instruction raises no flag, and so does beginning it. -/
theorem Dp.ended_flags (d : Dp) (core : Nat) (needs : List Need) (k : Yard) (l : Cluster) : (d.ended core needs k l).flags = d.flags := by
  obtain ⟨q, p, ended⟩ := ended_eq d core needs k l
  rw [ended]

theorem Dp.started_flags (d : Dp) (core : Nat) (needs : List Need) : (d.started core needs).flags = d.flags := by
  obtain ⟨w, started⟩ := started_eq needs d core
  rw [started]

/-- In a faulty cluster no instruction raises a flag. -/
theorem runEngine_faulty {t : State} (faulty : (s.ctl.seq o.core.yard o.core.cluster.val).faulty = true)
    (ran : runEngine s o needs formats inside dests work f = .next t) : EnginesAlone s t ∧ t.dp.flags = s.dp.flags := by
  have computed : Leaves (runEngine s o needs formats inside dests work f) fun t => EnginesAlone s t ∧ t.dp.flags = s.dp.flags := by
    unfold runEngine
    refine .ite (.next ⟨⟨rfl, rfl⟩, rfl⟩) ?_
    dsimp only
    split
    · exact .next ⟨⟨rfl, rfl⟩, rfl⟩
    · refine .ite .fault (.ite .fault (.next ⟨⟨rfl, rfl⟩, ?_⟩))
      rw [if_pos faulty]
      exact (Dp.ended_flags _ _ needs o.core.yard o.core.cluster).trans ((Dp.faultMode_flags _ o dests).trans (Dp.started_flags s.dp _ needs))
  exact computed t ran

end

/-! ### The arms of the lanes' instructions -/

theorem exec_abs (o : EngOp) (a : Src) (d : Dst) (s : State) : exec (.abs o a d) s = execAbs o a d s := rfl
theorem exec_neg (o : EngOp) (a : Src) (d : Dst) (s : State) : exec (.neg o a d) s = execNeg o a d s := rfl
theorem exec_cvt (o : EngOp) (a : Src) (d : Dst) (s : State) : exec (.cvt o a d) s = execCvt o a d s := rfl
theorem exec_add (o : EngOp) (a b : Src) (d : Dst) (s : State) : exec (.add o a b d) s = execAdd o a b d s := rfl
theorem exec_sub (o : EngOp) (a b : Src) (d : Dst) (s : State) : exec (.sub o a b d) s = execSub o a b d s := rfl
theorem exec_mul (o : EngOp) (a b : Src) (d : Dst) (s : State) : exec (.mul o a b d) s = execMul o a b d s := rfl
theorem exec_min (o : EngOp) (a b : Src) (d : Dst) (s : State) : exec (.min o a b d) s = execMin o a b d s := rfl
theorem exec_max (o : EngOp) (a b : Src) (d : Dst) (s : State) : exec (.max o a b d) s = execMax o a b d s := rfl
theorem exec_cmp (o : EngOp) (rel : Rel) (a b : Src) (dest : Nat) (s : State) : exec (.cmp o rel a b dest) s = execCmp o rel a b dest s := rfl
theorem exec_fma (o : EngOp) (a b c : Src) (d : Dst) (s : State) : exec (.fma o a b c d) s = execFma o a b c d s := rfl
theorem exec_sel (o : EngOp) (a b c : Src) (dest : Nat) (s : State) : exec (.sel o a b c dest) s = execSel o a b c dest s := rfl

/-! ### Instructions of the lanes -/

section

variable {s : State} {o : EngOp} {srcs : List Src} {d : Dst} (hd : isElement d.fmt = true) (hsrcs : (srcs.all fun a => isElement a.fmt) = true)

include hd hsrcs

/-- An instruction of the lanes on operands that are there writes what it makes of them. -/
theorem laneOp_written {ls : List Loc} (ready : Ready s o (laneNeeds srcs 32) ls) (fits : dstFits d 32 = true)
    (f : List (List Word) → List Word × ArithFlags) :
    ∃ t, laneOp o srcs d f s = .next t ∧ LanesWritten s t o d (f (laneArgs s.dp (s.ctl.core o.core) ls srcs 32)) :=
  runEngine_ready_put ready (by rw [hd, hsrcs, Bool.and_self]) fits fun _ => rfl

/-- Where it does not compute: its consumer waits, its destination lies outside its store, or its cluster is faulty. -/
theorem laneOp_unwritten (f : List (List Word) → List Word × ArithFlags) (issues : s.ctl.issues o.core.yard o.core.cluster.val o.at0 = true) :
    (∀ w, s.waitOf o (laneNeeds srcs 32) = some w → laneOp o srcs d f s = .next (s.withDp (s.dp.setWait (s.ctl.core o.core) w.1 w.2))) ∧
      (s.waitOf o (laneNeeds srcs 32) = none → (dstFits d 32 = false → laneOp o srcs d f s = .fault .noSuchAddress) ∧
        ((s.ctl.seq o.core.yard o.core.cluster.val).faulty = true →
          ∀ t, laneOp o srcs d f s = .next t → EnginesAlone s t ∧ t.dp.flags = s.dp.flags)) :=
  ⟨fun _ waits => runEngine_waits issues waits,
    fun there => ⟨fun outside => runEngine_noSuchAddress issues there (by rw [hd, hsrcs, Bool.and_self]) outside,
      fun faulty _ ran => runEngine_faulty faulty ran⟩⟩

end

/-- The instructions of the lanes, with the operands and the destination that each has. -/
def laneInstrs (o : EngOp) (rel : Rel) (a b c : Src) (d : Dst) (dest : Nat) : List (List Instr × List Src × Dst) :=
  [([.abs o a d, .neg o a d, .cvt o a d], [a], d), ([.add o a b d, .sub o a b d, .mul o a b d, .min o a b d, .max o a b d], [a, b], d),
    ([.cmp o rel a b dest], [a, b], rawDst dest), ([.fma o a b c d], [a, b, c], d), ([.sel o a b c dest], [a, b, c], rawDst dest)]

/-- Each of them is the operation over 32 lanes of its operands. -/
theorem exec_laneInstrs (s : State) (o : EngOp) (rel : Rel) (a b c : Src) (d : Dst) (dest : Nat) :
    ∀ q ∈ laneInstrs o rel a b c d dest, ∀ i ∈ q.1, ∃ f, exec i s = laneOp o q.2.1 q.2.2 f s := by
  simp only [laneInstrs, List.forall_mem_cons, List.not_mem_nil, false_imp_iff, implies_true, and_true, exec_abs, exec_neg, exec_cvt, exec_add,
    exec_sub, exec_mul, exec_min, exec_max, exec_cmp, exec_fma, exec_sel]
  exact ⟨⟨⟨_, rfl⟩, ⟨_, rfl⟩, ⟨_, rfl⟩⟩, ⟨⟨_, rfl⟩, ⟨_, rfl⟩, ⟨_, rfl⟩, ⟨_, rfl⟩, ⟨_, rfl⟩⟩, ⟨_, rfl⟩, ⟨_, rfl⟩, ⟨_, rfl⟩⟩

/-- Where its operands and its destination have element formats, so has each of them. -/
theorem laneInstrs_elements {o : EngOp} {rel : Rel} {a b c : Src} {d : Dst} {dest : Nat} (ha : isElement a.fmt = true) (hb : isElement b.fmt = true)
    (hc : isElement c.fmt = true) (hd : isElement d.fmt = true) :
    ∀ q ∈ laneInstrs o rel a b c d dest, isElement q.2.2.fmt = true ∧ (q.2.1.all fun x => isElement x.fmt) = true := by
  have raw : isElement (rawDst dest).fmt = true := rfl
  simp [laneInstrs, ha, hb, hc, hd, raw]

end Sys2Proof.Machine

open Sys2Proof Sys2Proof.Machine

/-- Settles O49: each instruction is the operation over 32 lanes (`exec_laneInstrs`), which writes its results where it is ready
(`laneOp_written`) and computes nothing elsewhere (`laneOp_unwritten`). The relations of CMP and what ABS and NEG make of a NaN are entry 20 of the
model's log, the invalid of FMA beside a quiet NaN entry 91. -/
theorem laneInstructionsWriteTheirResults : Obligations.LaneInstructionsWriteTheirResults := by
  intro s o d dest rel a b c ha hb hc hd
  have raw : isElement (rawDst dest).fmt = true := rfl
  have one : ([a].all fun x => isElement x.fmt) = true := by simp [ha]
  have two : ([a, b].all fun x => isElement x.fmt) = true := by simp [ha, hb]
  have three : ([a, b, c].all fun x => isElement x.fmt) = true := by simp [ha, hb, hc]
  refine ⟨fun fits ls ready => ?one, fun ls ready => ⟨fun fits => ?two, fun fits => ?cmp⟩, ?three,
    fun q hq i hi => ⟨fun held => ?held, fun issues => ?idle⟩⟩
  case one =>
    simp only [List.forall_mem_cons, List.not_mem_nil, false_imp_iff, implies_true, and_true, exec_abs, exec_neg, exec_cvt]
    exact ⟨laneOp_written hd one ready fits _, laneOp_written hd one ready fits _, laneOp_written hd one ready fits _⟩
  case two =>
    simp only [List.forall_mem_cons, List.not_mem_nil, false_imp_iff, implies_true, and_true, exec_add, exec_sub, exec_mul, exec_min, exec_max]
    exact ⟨laneOp_written hd two ready fits _, laneOp_written hd two ready fits _, laneOp_written hd two ready fits _,
      laneOp_written hd two ready fits _, laneOp_written hd two ready fits _⟩
  case cmp =>
    rw [exec_cmp]
    exact laneOp_written raw two ready fits _
  case three =>
    rintro ls x y z ready rfl rfl rfl
    simp only [exec_fma, exec_sel]
    exact ⟨fun fits => laneOp_written hd three ready fits _, fun fits => laneOp_written raw three ready fits _⟩
  case held =>
    obtain ⟨f, op⟩ := exec_laneInstrs s o rel a b c d dest q hq i hi
    exact op.trans (runEngine_held held)
  case idle =>
    obtain ⟨f, op⟩ := exec_laneInstrs s o rel a b c d dest q hq i hi
    obtain ⟨hdst, hsrcs⟩ := laneInstrs_elements ha hb hc hd q hq
    rw [op]
    exact laneOp_unwritten hdst hsrcs f issues

end

section
/-! Row statistics: 32 lanes that each enter their own partial (R122-R126). -/

namespace Sys2Proof.Machine

open Sys2Proof

/-! ### Updates of a sparse table at keys of their own -/

section

variable {α β : Type} [DecidableEq α] (z : α) (key : β → Nat) (step : β → α → α)

/-- A table after each of `ps` has changed the value at its key. -/
def Sparse.updAll (l : List (Nat × α)) (ps : List β) : List (Nat × α) := ps.foldl (fun l p => Sparse.upd z l (key p) (step p)) l

theorem Sparse.get_updAll_other {l : List (Nat × α)} (wf : Sparse.wf z l = true) {ps : List β} {k : Nat} (other : ∀ p ∈ ps, k ≠ key p) :
    Sparse.get z (Sparse.updAll z key step l ps) k = Sparse.get z l k := by
  induction ps generalizing l with
  | nil => rfl
  | cons p ps ih =>
    obtain ⟨first, rest⟩ := List.forall_mem_cons.1 other
    exact (ih (Sparse.wf_set z l _ _ wf) rest).trans (Sparse.get_set_other z l _ k _ wf first)

/-- Where no two have one key, each changes the value that stood there. -/
theorem Sparse.get_updAll_mem {l : List (Nat × α)} (wf : Sparse.wf z l = true) {ps : List β} (apart : ps.Pairwise fun p q => key p ≠ key q)
    {p : β} (mem : p ∈ ps) : Sparse.get z (Sparse.updAll z key step l ps) (key p) = step p (Sparse.get z l (key p)) := by
  induction ps generalizing l with
  | nil => cases mem
  | cons q ps ih =>
    obtain ⟨first, rest⟩ := List.pairwise_cons.1 apart
    have wf' := Sparse.wf_set z l (key q) (step q (Sparse.get z l (key q))) wf
    rcases List.mem_cons.1 mem with rfl | mem
    · exact (Sparse.get_updAll_other z key step wf' first).trans (Sparse.get_set_same z l _ _ wf)
    · refine (ih wf' rest mem).trans (congrArg (step p) ?_)
      exact Sparse.get_set_other z l _ _ _ wf (first p mem).symm

end

/-! ### The lanes of an operand -/

theorem Dp.codes_length (d : Dp) (key : Nat) (f : Fmt) (n : Nat) : (d.codes key f n).length = n := by
  simp [Dp.codes, unpackBits]

theorem Dp.lanes_length (d : Dp) (core : Nat) (l z : Loc) (a : Src) (n : Nat) : (d.lanes core l z a n).length = n := by
  simp only [Dp.lanes, List.length_map, Dp.scaledCodes]
  split
  · simp only [List.length_take, List.length_flatMap, List.length_map, Dp.codes_length, blocksFrom, List.map_const', List.sum_replicate,
      List.length_range, smul_eq_mul, Bits.ceilDiv]
    omega
  · rw [List.length_map, Dp.codes_length]

/-! ### Lanes that enter their partials -/

/-- Lanes of one core and slot have keys of their own. -/
theorem partKey_lanes (core slot : Nat) (xs : List Word) :
    (xs.mapIdx fun i x => (i, x)).Pairwise fun p q => partKey core slot p.1 ≠ partKey core slot q.1 := by
  rw [List.pairwise_iff_getElem]
  intro i j hi hj below
  simp only [List.getElem_mapIdx, partKey]
  omega

/-- The table of partials after 32 lanes have entered theirs. -/
def lanesEntered {α : Type} [DecidableEq α] (z : α) (core slot : Nat) (step : Word → α → α) (l : List (Nat × α)) (xs : List Word) : List (Nat × α) :=
  Sparse.updAll z (fun p : Nat × Word => partKey core slot p.1) (fun p => step p.2) l (xs.mapIdx fun i x => (i, x))

theorem get_lanesEntered {α : Type} [DecidableEq α] {z : α} {l : List (Nat × α)} (wf : Sparse.wf z l = true) (core slot : Nat)
    (step : Word → α → α) (xs : List Word) :
    (∀ i < xs.length, Sparse.get z (lanesEntered z core slot step l xs) (partKey core slot i) =
      step (xs.getD i 0#32) (Sparse.get z l (partKey core slot i))) ∧
    ∀ k, (∀ i < xs.length, k ≠ partKey core slot i) → Sparse.get z (lanesEntered z core slot step l xs) k = Sparse.get z l k := by
  refine ⟨fun i hi => ?_, fun k other => ?_⟩
  · have mem : (i, xs.getD i 0#32) ∈ xs.mapIdx fun i x => (i, x) := by
      rw [List.mem_mapIdx]
      exact ⟨i, hi, by rw [List.getD_eq_getElem _ _ hi]⟩
    exact Sparse.get_updAll_mem z _ (fun p : Nat × Word => step p.2) wf (partKey_lanes core slot xs) mem
  · refine Sparse.get_updAll_other z _ (fun p : Nat × Word => step p.2) wf fun p mem => ?_
    obtain ⟨i, hi, rfl⟩ := List.mem_mapIdx.1 mem
    exact other i hi

section

variable (f : Nat → Word → Bool → Dp → Dp × ArithFlags) (core slot : Nat) (mark : Bool)

/-- The engines after lanes have entered their partials with `f` and raised its flags. -/
def Dp.enterLanes (d : Dp) (xs : List Word) : Dp :=
  (xs.mapIdx fun i x => (i, x)).foldl (fun d p =>
    (f (partKey core slot p.1) p.2 mark d).1.raiseFlags core .vxe (f (partKey core slot p.1) p.2 mark d).2) d

theorem Dp.enterLanes_leaves {γ : Type} (p : Dp → γ) (h : ∀ k x d fl, p (Dp.raiseFlags (f k x mark d).1 core .vxe fl) = p d) (d : Dp)
    (xs : List Word) : p (d.enterLanes f core slot mark xs) = p d := foldl_leaves p (fun _ _ => h _ _ _ _) d _

theorem Dp.enterLanes_part {α : Type} [DecidableEq α] (z : α) (step : Word → α → α) (part : Dp → List (Nat × α))
    (h : ∀ k x d fl, part (Dp.raiseFlags (f k x mark d).1 core .vxe fl) = Sparse.upd z (part d) k (step x)) (d : Dp) (xs : List Word) :
    part (d.enterLanes f core slot mark xs) = lanesEntered z core slot step (part d) xs :=
  (List.foldl_hom part fun _ _ => (h _ _ _ _).symm).symm

end

/-- A statistics instruction that is ready lets its 32 lanes enter. -/
theorem accOp_ready {s : State} {o : EngOp} {a : Src} {ls : List Loc} (element : isElement a.fmt = true)
    (ready : Ready s o (laneNeeds [a] 32) ls) (slot : Byte) (f : Nat → Word → Bool → Dp → Dp × ArithFlags) :
    ∃ w r u q p, accOp o slot a f s = .next (s.withDp { Dp.enterLanes f (s.ctl.core o.core) slot.toNat (s.marked o (laneNeeds [a] 32))
      { s.dp with waits := w, rowPoison := r } (s.lanesAt o a (locOf ls 0) (locOf ls 1)) with units := u, queues := q, progress := p }) := by
  obtain ⟨w, u, q, p, ran⟩ := runEngine_ready_eq ready [] [(.vxeOp, 32)] fun core ls mark dp =>
    (dp.poisonRow o mark).enterLanes f core slot.toNat mark (dp.lanes core (locOf ls 0) (locOf ls 1) a 32)
  obtain ⟨r, marked⟩ := Dp.poisonRow_eq { s.dp with waits := w } o (s.marked o (laneNeeds [a] 32))
  rw [marked] at ran
  refine ⟨w, r, u, q, p, Eq.trans ?_ ran⟩
  unfold accOp
  rw [element]
  rfl

/-- WELFORD_ACC's lanes enter the mean-variance partials and leave memory and the other partials (R122). -/
theorem welfordAcc_enters {s : State} {o : EngOp} {a : Src} {ls : List Loc} (element : isElement a.fmt = true)
    (ready : Ready s o (laneNeeds [a] 32) ls) (slot : Byte) :
    ∃ t, execWelfordAcc o slot a s = .next t ∧ EnginesAlone s t ∧ t.dp.mem = s.dp.mem ∧ t.dp.sparts = s.dp.sparts ∧
      t.dp.wparts = lanesEntered {} (s.ctl.core o.core) slot.toNat (fun x p => (welfordStep p x (s.marked o (laneNeeds [a] 32))).1) s.dp.wparts
        (s.lanesAt o a (locOf ls 0) (locOf ls 1)) := by
  obtain ⟨w, r, u, q, p, ran⟩ := accOp_ready element ready slot _
  exact ⟨_, ran, ⟨rfl, rfl⟩, Dp.enterLanes_leaves _ _ _ _ Dp.mem (fun _ _ _ _ => rfl) _ _,
    Dp.enterLanes_leaves _ _ _ _ Dp.sparts (fun _ _ _ _ => rfl) _ _,
    Dp.enterLanes_part _ _ _ _ _ _ Dp.wparts (fun _ _ _ _ => rfl) _ _⟩

/-- SSQ_ACC's lanes enter the sum-of-squares partials and leave memory and the other partials (R125). -/
theorem ssqAcc_enters {s : State} {o : EngOp} {a : Src} {ls : List Loc} (element : isElement a.fmt = true)
    (ready : Ready s o (laneNeeds [a] 32) ls) (slot : Byte) :
    ∃ t, execSsqAcc o slot a s = .next t ∧ EnginesAlone s t ∧ t.dp.mem = s.dp.mem ∧ t.dp.wparts = s.dp.wparts ∧
      t.dp.sparts = lanesEntered {} (s.ctl.core o.core) slot.toNat (fun x p => (ssqStep p x (s.marked o (laneNeeds [a] 32))).1) s.dp.sparts
        (s.lanesAt o a (locOf ls 0) (locOf ls 1)) := by
  obtain ⟨w, r, u, q, p, ran⟩ := accOp_ready element ready slot _
  exact ⟨_, ran, ⟨rfl, rfl⟩, Dp.enterLanes_leaves _ _ _ _ Dp.mem (fun _ _ _ _ => rfl) _ _,
    Dp.enterLanes_leaves _ _ _ _ Dp.wparts (fun _ _ _ _ => rfl) _ _,
    Dp.enterLanes_part _ _ _ _ _ _ Dp.sparts (fun _ _ _ _ => rfl) _ _⟩

theorem Dp.poisonRow_wparts (d : Dp) (o : EngOp) (mark : Bool) : (d.poisonRow o mark).wparts = d.wparts := by cases mark <;> rfl

theorem Dp.poisonRow_sparts (d : Dp) (o : EngOp) (mark : Bool) : (d.poisonRow o mark).sparts = d.sparts := by cases mark <;> rfl

/-! ### The arms of the reductions and statistics -/

section

variable (o : EngOp) (a : Src) (d : Dst) (slot : Byte) (x y z : PartRef) (eps : Word) (s : State)

theorem exec_rsum : exec (.rsum o a d) s = reduceOp o a d addF32 sumId s := rfl
theorem exec_rmax : exec (.rmax o a d) s = reduceOp o a d maxF32 maxId s := rfl
theorem exec_rmin : exec (.rmin o a d) s = reduceOp o a d minF32 minId s := rfl
theorem exec_welfordAcc : exec (.welfordAcc o slot a) s = execWelfordAcc o slot a s := rfl
theorem exec_ssqAcc : exec (.ssqAcc o slot a) s = execSsqAcc o slot a s := rfl
theorem exec_welfordMerge : exec (.welfordMerge o x y z) s = execWelfordMerge o x y z s := rfl
theorem exec_ssqMerge : exec (.ssqMerge o x y z) s = execSsqMerge o x y z s := rfl
theorem exec_varFinish : exec (.varFinish o x d) s = execVarFinish o x d s := rfl
theorem exec_rmsFinish : exec (.rmsFinish o x eps d) s = execRmsFinish o x eps d s := rfl

/-- Outside its segment or before its cycle none of them issues (R19, R40). -/
theorem exec_statistics_held (held : s.ctl.issues o.core.yard o.core.cluster.val o.at0 = false) :
    ∀ i ∈ [Instr.rsum o a d, .rmax o a d, .rmin o a d, .welfordAcc o slot a, .ssqAcc o slot a,
      .welfordMerge o x y z, .ssqMerge o x y z, .varFinish o x d, .rmsFinish o x eps d], exec i s = .next s := by
  simp only [List.forall_mem_cons, List.not_mem_nil, false_imp_iff, implies_true, exec_rsum, exec_rmax, exec_rmin, exec_welfordAcc,
    exec_ssqAcc, exec_welfordMerge, exec_ssqMerge, exec_varFinish, exec_rmsFinish, reduceOp, execWelfordAcc, execSsqAcc, accOp, execWelfordMerge,
    execSsqMerge, execVarFinish, execRmsFinish, runEngine_held held, and_self]

variable {o a d}

/-- A reduction that is ready writes the one result of its tree (R103). -/
theorem reduceOp_written {s : State} {ls : List Loc} (ha : isElement a.fmt = true) (hd : isElement d.fmt = true)
    (ready : Ready s o (laneNeeds [a] 32) ls) (fits : dstFits d 1 = true) (f : Word → Word → Word × ArithFlags) (e : Word) :
    ∃ t, reduceOp o a d f e s = .next t ∧ LanesWritten s t o d ([(reduceChunk f e (s.lanesAt o a (locOf ls 0) (locOf ls 1))).1],
      (reduceChunk f e (s.lanesAt o a (locOf ls 0) (locOf ls 1))).2) :=
  runEngine_ready_put ready (by rw [ha, hd, Bool.and_self]) fits fun _ => rfl

end

end Sys2Proof.Machine

open Sys2Proof Sys2Proof.Machine

/-- Settles O50: a reduction is `reduceOp_written`, and the lanes of an accumulation enter partials of their own (`get_lanesEntered`); a merge and a
finish run on partials alone. That partials stand for each core, slot and lane, and what a finish makes of no elements, are entries 24 and 91 of the
model's log. -/
theorem reductionsAndStatistics : Obligations.ReductionsAndStatistics := by
  intro s o a d slot x y z eps ha hd
  refine ⟨fun ls ready => ⟨fun fits => ?reduce, fun wf => ?welford, fun wf => ?ssq⟩,
    fun ready => ⟨?welfordMerge, ?ssqMerge, fun fits => ⟨?var, ?rms⟩⟩, exec_statistics_held o a d slot x y z eps s⟩
  case reduce =>
    simp only [List.forall_mem_cons, List.not_mem_nil, false_imp_iff, implies_true, and_true, exec_rsum, exec_rmax, exec_rmin]
    exact ⟨reduceOp_written ha hd ready fits _ _, reduceOp_written ha hd ready fits _ _, reduceOp_written ha hd ready fits _ _⟩
  case welford =>
    obtain ⟨t, ran, alone, mem, others, entered⟩ := welfordAcc_enters ha ready slot
    have lanes := get_lanesEntered wf (s.ctl.core o.core) slot.toNat (fun x p => (welfordStep p x (s.marked o (laneNeeds [a] 32))).1)
      (s.lanesAt o a (locOf ls 0) (locOf ls 1))
    rw [← entered, State.lanesAt, Dp.lanes_length] at lanes
    exact ⟨t, ran, alone, mem, others, lanes⟩
  case ssq =>
    obtain ⟨t, ran, alone, mem, others, entered⟩ := ssqAcc_enters ha ready slot
    have lanes := get_lanesEntered wf (s.ctl.core o.core) slot.toNat (fun x p => (ssqStep p x (s.marked o (laneNeeds [a] 32))).1)
      (s.lanesAt o a (locOf ls 0) (locOf ls 1))
    rw [← entered, State.lanesAt, Dp.lanes_length] at lanes
    exact ⟨t, ran, alone, mem, others, lanes⟩
  case welfordMerge =>
    rw [exec_welfordMerge]
    unfold execWelfordMerge
    exact runEngine_ready_leaves ready rfl rfl fun w u q p =>
      ⟨⟨rfl, rfl⟩, Dp.poisonRow_mem _ o _, Dp.poisonRow_sparts _ o _, Dp.poisonRow_wparts _ o _⟩
  case ssqMerge =>
    rw [exec_ssqMerge]
    unfold execSsqMerge
    exact runEngine_ready_leaves ready rfl rfl fun w u q p =>
      ⟨⟨rfl, rfl⟩, Dp.poisonRow_mem _ o _, Dp.poisonRow_wparts _ o _, Dp.poisonRow_sparts _ o _⟩
  case var =>
    rw [exec_varFinish]
    exact runEngine_ready_put ready hd fits fun _ => rfl
  case rms =>
    rw [exec_rmsFinish]
    exact runEngine_ready_put ready hd fits fun _ => rfl

end

section
/-! The row functions: softmax tiles, special functions, rescales, row quantization and KV conversion (R104-R132, R216). -/

namespace Sys2Proof.Machine

open Sys2Proof

/-! ### The arms of the row functions -/

section

variable (o : EngOp) (s : State)

theorem exec_smxMerge (a b : Place) (d : TripleAt) : exec (.smxMerge o a b d) s = execSmxMerge o a b d s := rfl
theorem exec_smxFinish (a : TripleAt) (d : Dst) : exec (.smxFinish o a d) s = execSmxFinish o a d s := rfl
theorem exec_rowq (row : List (Place × Nat)) (f : Fmt) (store : Store) (codes pair : Nat) :
    exec (.rowq o row f store codes pair) s = execRowq o row f store codes pair s := rfl
theorem exec_kvConversion (src n : Nat) (f : Fmt) (table : Place) (dest : Nat) :
    exec (.kvConversion o src n f table dest) s = execKvConversion o src n f table dest s := rfl
theorem exec_sfn (slot : Fin 64) (out : SfnOut) (mode : SfnMode) (a : Src) (dest : Nat) (at1 : BlockAt) (err : Option (Fin 128)) :
    exec (.sfn o slot out mode a dest at1 err) s = execSfn o slot out mode a dest at1 err s := rfl

end

/-! ### What writing, flags and counting leave -/

theorem Dp.write_mem (d : Dp) (key : Nat) (bs : List Byte) (mark : Bool) : (d.write key bs mark).mem = d.mem.writeN key bs := rfl

theorem Dp.raiseFlags_flags (d : Dp) (core : Nat) (e : Engine) (f : ArithFlags) :
    (d.raiseFlags core e f).flags = Sparse.upd 0#8 d.flags core fun b => b ||| e.flagByte f := rfl

theorem Dp.countConv_flags (d : Dp) (core : Nat) (k : Yard) (tag : RowTag) (f : Fmt) (clipped : List Bool) :
    (d.countConv core k tag f clipped).flags = d.flags := by
  obtain ⟨x, y, counted⟩ := d.countConv_eq core k tag f clipped
  rw [counted]

theorem Dp.clipRun_mem (d : Dp) (cluster layer chan : Nat) (cs : List Bool) : (d.clipRun cluster layer chan cs).mem = d.mem := by
  obtain ⟨x, counted⟩ := d.clipRun_eq cluster layer chan cs
  rw [counted]

theorem Dp.clipRun_flags (d : Dp) (cluster layer chan : Nat) (cs : List Bool) : (d.clipRun cluster layer chan cs).flags = d.flags := by
  obtain ⟨x, counted⟩ := d.clipRun_eq cluster layer chan cs
  rw [counted]

/-- Counting the work of an operation and ending its instruction write no byte. -/
theorem Dp.ended_counted_mem (d : Dp) (work : List (EnergyClass × Nat)) (core : Nat) (needs : List Need) (k : Yard) (l : Cluster) (stall : Nat) :
    ((d.countUnits k l.val stall work).ended core needs k l).mem = d.mem := by
  obtain ⟨q, p, ended⟩ := ended_eq (d.countUnits k l.val stall work) core needs k l
  rw [ended]
  rfl

/-- They raise no flag. -/
theorem Dp.ended_counted_flags (d : Dp) (work : List (EnergyClass × Nat)) (core : Nat) (needs : List Need) (k : Yard) (l : Cluster) (stall : Nat) :
    ((d.countUnits k l.val stall work).ended core needs k l).flags = d.flags := Dp.ended_flags ..

theorem Dp.addKvErr_mem (d : Dp) (k : Yard) (stall layer : Nat) (es : List FNum) : (d.addKvErr k stall layer es).mem = d.mem := rfl

theorem Dp.addKvErr_flags (d : Dp) (k : Yard) (stall layer : Nat) (es : List FNum) : (d.addKvErr k stall layer es).flags = d.flags := rfl

section

variable (d : Dp) (core : Nat) (e : Engine) (fl : ArithFlags) (o : EngOp) (mark : Bool)

/-- Bytes written, flags raised and a row marked: the bytes are all that memory takes. -/
theorem Dp.written_mem (key : Nat) (bs : List Byte) :
    (((d.write key bs mark).raiseFlags core e fl).poisonRow o mark).mem = d.mem.writeN key bs := Dp.poisonRow_mem ..

theorem Dp.written_flags (key : Nat) (bs : List Byte) :
    (((d.write key bs mark).raiseFlags core e fl).poisonRow o mark).flags = (d.raiseFlags core e fl).flags := Dp.poisonRow_flags ..

end

/-! ### The softmax (R118-R121) -/

/-- Where its tile is not masked, the accumulators take the elements of a triple (R121). -/
def Dp.setElems (d : Dp) (core : Nat) (xs : List Word) (mark : Bool) : Dp :=
  (xs.mapIdx fun j x => (j, x)).foldl (fun d p => d.setAcc core (p.1 % 512) p.2 mark) d

theorem Dp.setElems_mem (d : Dp) (core : Nat) (xs : List Word) (mark : Bool) : (d.setElems core xs mark).mem =
    (xs.mapIdx fun j x => (j, x)).foldl (fun m p => m.writeN (accKey core (p.1 % 512)) (Bits.toLe p.2.toNat 4)) d.mem :=
  (List.foldl_hom Dp.mem fun _ _ => rfl).symm

theorem Dp.setElems_flags (d : Dp) (core : Nat) (xs : List Word) (mark : Bool) : (d.setElems core xs mark).flags = d.flags :=
  foldl_leaves (f := fun (d : Dp) (p : Nat × Word) => d.setAcc core (p.1 % 512) p.2 mark) Dp.flags (fun _ _ => rfl) d _

section

variable (d : Dp) (o : EngOp) (core : Nat) (f : Fmt) (clipped : List Bool) (xs : List Word) (mark masked : Bool)

/-- A tile's elements stay out of the accumulators where it is masked. -/
theorem Dp.tile_mem : (if masked = true then d.poisonRow o mark
      else ((d.poisonRow o mark).countConv core o.core.yard o.tag f clipped).setElems core xs mark).mem =
    if masked = true then d.mem
      else (xs.mapIdx fun j x => (j, x)).foldl (fun m p => m.writeN (accKey core (p.1 % 512)) (Bits.toLe p.2.toNat 4)) d.mem := by
  split
  · exact Dp.poisonRow_mem d o mark
  · rw [Dp.setElems_mem, Dp.countConv_mem, Dp.poisonRow_mem]

theorem Dp.tile_flags : (if masked = true then d.poisonRow o mark
      else ((d.poisonRow o mark).countConv core o.core.yard o.tag f clipped).setElems core xs mark).flags = d.flags := by
  split
  · exact Dp.poisonRow_flags d o mark
  · rw [Dp.setElems_flags, Dp.countConv_flags, Dp.poisonRow_flags]

end

/-- What SMX_TILE makes of the engines. -/
def tileOp (o : EngOp) (x v : Src) (n w : Nat) (f : Fmt) (triple : Nat) (fresh : Bool) (core : Nat) (ls : List Loc) (mark : Bool) (d : Dp) : Dp :=
  let key := coreKey core triple
  let t := if fresh then Triple.fresh w else d.triple key w
  let xs := d.lanes core (locOf ls 0) (locOf ls 1) x n
  let r := smxTileOf t xs f fun j => valueCol d core ls v n w j
  let m := mark || (!fresh && d.poisoned key (tripleBytes w))
  let e := (((d.write key r.1.bytes m).raiseFlags core .vxe r.2.1).raiseFlags core .mxe r.2.2).poisonRow o m
  if allMasked xs then e else (e.countConv core o.core.yard o.tag f (smxClips t xs f)).setElems core r.1.o m

theorem exec_smxTile (o : EngOp) (x v : Src) (n w : Nat) (f : Fmt) (triple : Nat) (fresh : Bool) (s : State) :
    exec (.smxTile o x v n w f triple fresh) s = runEngine s o (smxNeeds x v n w) (isElement f && isElement x.fmt && isElement v.fmt)
      (locWritable ⟨.core, triple⟩ (tripleBytes w)) [(coreKey (s.ctl.core o.core) triple, tripleBytes w)]
      [(macClass f v.fmt, n * w), (.vxeOp, n), (.sfn, n)] (tileOp o x v n w f triple fresh) := rfl

theorem tileOp_leaves {d : Dp} {core : Nat} {ls : List Loc} {x v : Src} {n w : Nat} {f : Fmt} {triple : Nat} {fresh : Bool} {xs : List Word}
    {r : Triple × ArithFlags × ArithFlags} (hxs : xs = d.lanes core (locOf ls 0) (locOf ls 1) x n)
    (hr : r = smxTileOf (if fresh = true then Triple.fresh w else d.triple (coreKey core triple) w) xs f fun j => valueCol d core ls v n w j)
    (o : EngOp) (mark : Bool) :
    (tileOp o x v n w f triple fresh core ls mark d).mem = (if allMasked xs = true then d.mem.writeN (coreKey core triple) r.1.bytes
      else (r.1.o.mapIdx fun j y => (j, y)).foldl (fun m p => m.writeN (accKey core (p.1 % 512)) (Bits.toLe p.2.toNat 4))
        (d.mem.writeN (coreKey core triple) r.1.bytes)) ∧
      (tileOp o x v n w f triple fresh core ls mark d).flags = ((d.raiseFlags core .vxe r.2.1).raiseFlags core .mxe r.2.2).flags := by
  simp only [tileOp, ← hxs, ← hr]
  generalize allMasked xs = masked
  refine ⟨?_, ?_⟩
  · rw [Dp.tile_mem, Dp.raiseFlags_mem, Dp.raiseFlags_mem, Dp.write_mem]
  · rw [Dp.tile_flags]
    simp only [Dp.raiseFlags_flags, Dp.write_flags]

/-! ### Rescaling (R132) -/

/-- What RESCALE needs: the entries of its channels, and the row's pair where it has one. -/
def rescaleNeeds (count : Nat) (table : Place) (rp : Option Nat) : List Need :=
  ⟨table, .vxe, [(0, 16 * count)]⟩ :: rp.toList.map fun p => ⟨⟨p, none, false⟩, .vxe, [(0, 8)]⟩

/-- The entries that a rescale of `count` channels takes. -/
def Dp.rescaleEntries (d : Dp) (core : Nat) (ls : List Loc) (count : Nat) : List RescaleEntry :=
  (List.range count).map fun j => d.rescaleEntry (locKey core (locOf ls 0) + 16 * j)

/-- The values of its channels, under the scale `rs` of their row. -/
def Dp.rescaled (d : Dp) (core : Nat) (acc : BitVec 9) (pair : Bool) (rs : Word) (es : List RescaleEntry) : List (Word × ArithFlags) :=
  es.mapIdx fun j e => rescaleLane (d.accValue core acc j pair).1 (d.accValue core acc j pair).2 e rs

/-- What RESCALE makes of the engines, with the entries and the values that it takes from them. -/
def rescaleOp (o : EngOp) (acc : BitVec 9) (count : Nat) (pair : Bool) (dst : Dst) (es : List RescaleEntry) (ys : List (Word × ArithFlags))
    (core : Nat) (mark : Bool) (d : Dp) : Dp :=
  (d.raiseFlags core .vxe (ArithFlags.orAll (ys.map (·.2)))).putWritten core o dst count (writtenPer dst.fmt es (ys.map (·.1)))
    (mark || d.runPoisoned core acc count pair)

theorem exec_rescale (o : EngOp) (acc : BitVec 9) (count : Nat) (pair : Bool) (table : Place) (rp : Option Nat) (dst : Dst) (s : State) :
    exec (.rescale o acc count pair table rp dst) s =
      runEngine s o (rescaleNeeds count table rp) (isElement dst.fmt) (dstFits dst count)
        (spanKeys (s.ctl.core o.core) dst count) [(.vxeOp, count)] fun core ls mark d =>
          rescaleOp o acc count pair dst (d.rescaleEntries core ls count) (d.rescaled core acc pair
            ((rp.map fun p => d.word (coreKey core p)).getD 0x3F800000#32) (d.rescaleEntries core ls count)) core mark d := by
  cases rp <;> rfl

section

variable (d : Dp) (w : List (Nat × Wait)) (core : Nat)

/-- What a consumer waits for is no part of what its instruction reads. -/
theorem Dp.rescaleEntries_waits (ls : List Loc) (count : Nat) :
    Dp.rescaleEntries { d with waits := w } core ls count = d.rescaleEntries core ls count := rfl

theorem Dp.rescaled_waits (acc : BitVec 9) (pair : Bool) (rs : Word) (es : List RescaleEntry) :
    Dp.rescaled { d with waits := w } core acc pair rs es = d.rescaled core acc pair rs es := rfl

theorem Dp.runPoisoned_waits (acc : BitVec 9) (count : Nat) (pair : Bool) :
    Dp.runPoisoned { d with waits := w } core acc count pair = d.runPoisoned core acc count pair := rfl

end

theorem rescale_written {s : State} {o : EngOp} {acc : BitVec 9} {count : Nat} {pair : Bool} {table : Place} {rp : Option Nat} {dst : Dst}
    {ls : List Loc} (ready : Ready s o (rescaleNeeds count table rp) ls) (element : isElement dst.fmt = true) (fits : dstFits dst count = true)
    {es : List RescaleEntry} {ys : List (Word × ArithFlags)} (hes : es = s.dp.rescaleEntries (s.ctl.core o.core) ls count)
    (hys : ys = s.dp.rescaled (s.ctl.core o.core) acc pair ((rp.map (s.coreWord o)).getD 0x3F800000#32) es) :
    ∃ t, exec (.rescale o acc count pair table rp dst) s = .next t ∧ RunWritten s t o dst count (writtenPer dst.fmt es (ys.map (·.1))) ∧
      t.dp.flags = ((s.dp.raiseFlags (s.ctl.core o.core) .vxe (ArithFlags.orAll (ys.map (·.2)))).raiseFlags (s.ctl.core o.core) .vxe
        (writtenPer dst.fmt es (ys.map (·.1))).fl).flags := by
  rw [exec_rescale]
  refine runEngine_ready_raised (mark := fun _ => s.marked o (rescaleNeeds count table rp) || s.dp.runPoisoned (s.ctl.core o.core) acc count pair)
    ready element fits fun x => ?_
  rw [rescaleOp, Dp.rescaleEntries_waits, Dp.rescaled_waits, Dp.runPoisoned_waits, hys, hes]
  rfl

/-! ### What a table error leaves of the controls (R115) -/

/-- An uncorrectable table read changes its yard's memory event, counters, poison latch and rewrites, and what raising an event may. -/
theorem Ctl.tableFault_leaves (c : Ctl) (cfg : Cfg) (r : CoreRef) (unit : Nat) :
    (c.tableFault cfg r unit).hub = c.hub ∧ (c.tableFault cfg r unit).fe = c.fe ∧ (c.tableFault cfg r unit).objs = c.objs ∧
      ∀ j : Yard, ∃ m n p w, (c.tableFault cfg r unit).yd j = { c.yd j with mem := m, counts := n, poisonAddr := p, tableRewrite := w } := by
  have raised := raise_sameBut c cfg (.mem (c.home r.yard)) 16#16 (by simp)
  refine ⟨raised.hub, raised.fe, raised.objs, fun j => ?_⟩
  simp only [Ctl.tableFault, Ctl.latchPoison, Ctl.countYard, Ctl.yd_onYard, raised.yd, Ctl.setEv]
  by_cases home : j = c.home r.yard
  · subst home
    simp only [if_true]
    exact ⟨_, _, _, _, rfl⟩
  · simp only [home, if_false]
    exact ⟨_, _, _, _, rfl⟩

/-- An instruction that is ready stays so under a table error. -/
theorem Ready.tableFault {s : State} {o : EngOp} {needs : List Need} {ls : List Loc} (ready : Ready s o needs ls) (unit : Nat) :
    Ready { s with ctl := s.ctl.tableFault s.cfg o.core unit } o needs ls := by
  obtain ⟨issues, sound, places⟩ := ready
  obtain ⟨hub, fe, objs, yards⟩ := s.ctl.tableFault_leaves s.cfg o.core unit
  generalize s.ctl.tableFault s.cfg o.core unit = c at hub fe objs yards
  have home (k : Yard) : c.home k = s.ctl.home k := by rw [Ctl.home, hub]; rfl
  have lost (k : Yard) : (c.yd k).lost = (s.ctl.yd k).lost := by obtain ⟨m, n, p, w, eq⟩ := yards k; rw [eq]
  have reports (k : Yard) : (c.yd k).reports = (s.ctl.yd k).reports := by obtain ⟨m, n, p, w, eq⟩ := yards k; rw [eq]
  have seqs (k : Yard) : (c.yd k).seqs = (s.ctl.yd k).seqs := by obtain ⟨m, n, p, w, eq⟩ := yards k; rw [eq]
  have retired (k : Yard) : (c.yd k).retired = (s.ctl.yd k).retired := by obtain ⟨m, n, p, w, eq⟩ := yards k; rw [eq]
  have stands : c.issues o.core.yard o.core.cluster.val o.at0 = s.ctl.issues o.core.yard o.core.cluster.val o.at0 := by
    simp only [Ctl.issues, Ctl.segment, Ctl.yardUp, Ctl.microIn, hub, fe, home, lost, reports]
  have seq : c.seq o.core.yard o.core.cluster.val = s.ctl.seq o.core.yard o.core.cluster.val := by
    simp only [Ctl.seq, home, seqs]
  have core : c.core o.core = s.ctl.core o.core := by
    simp only [Ctl.core, Ctl.clu, home, retired]
  have needsAt : s.dp.needsAt c o needs = s.dp.needsAt s.ctl o needs := by
    simp only [Dp.needsAt, Dp.needAt, Ctl.queueLine, Ctl.plan?, objs, core]
  exact ⟨stands.trans issues, (congrArg Seq.faulty seq).trans sound, by rw [needsAt]; exact places⟩

/-- Where an operand is missing, not all are there, and conversely. -/
theorem State.waitOf_isNone (s : State) (o : EngOp) (needs : List Need) :
    ((s.dp.needsAt s.ctl o needs).all fun x => x.wait?.isNone) = (s.waitOf o needs).isNone := by
  conv_lhs => rw [← List.map_snd_zip (l₁ := needs) (l₂ := s.dp.needsAt s.ctl o needs) (needsAt_length ..).le]
  unfold State.waitOf
  induction needs.zip (s.dp.needsAt s.ctl o needs) with
  | nil => rfl
  | cons x xs ih =>
    rw [List.map_cons, List.all_cons, ih, List.findSome?_cons]
    cases x.2.wait? <;> simp

theorem Ready.waitOf {s : State} {o : EngOp} {needs : List Need} {ls : List Loc} (ready : Ready s o needs ls) : s.waitOf o needs = none :=
  (ready_places ready.2.2).1

/-! ### Special functions (R104-R115) -/

/-- The results of a special function on lanes, with the table store of its core. -/
def sfnResults (c : Ctl) (d : Dp) (core slot : Nat) (out : SfnOut) (mode : SfnMode) (xs : List Word) : List LaneOut :=
  xs.map fun x => (sfnLane c (d.tableWord core) slot out mode x).getD ⟨0, {}, false⟩

/-- What SFN makes of the engines; a table error poisons its results. -/
def sfnOp (c : Ctl) (o : EngOp) (slot : Nat) (out : SfnOut) (mode : SfnMode) (a : Src) (dst : Dst) (bad : Bool) (core : Nat) (ls : List Loc)
    (mark : Bool) (d : Dp) : Dp :=
  d.putWritten core o dst 32 (sfnWritten out (sfnResults c d core slot out mode (d.lanes core (locOf ls 0) (locOf ls 1) a 32))) (mark || bad)

section

variable {s : State} {o : EngOp} {slot : Fin 64} {a : Src} {dest block : Nat} {ends : Bool} {err : Option (Fin 128)} {out : SfnOut} {mode : SfnMode}
  (issues : s.ctl.issues o.core.yard o.core.cluster.val o.at0 = true)

include issues

theorem exec_sfn_emptySlot (empty : s.ctl.slotHeld slot.val = false) :
    exec (.sfn o slot out mode a dest ⟨block, ends⟩ err) s = .fault .emptySlot := by
  simp [exec_sfn, execSfn, issues, empty]

variable (held : s.ctl.slotHeld slot.val = true)

include held

/-- Without a table error that its operands let happen, SFN runs on the state as it stands. -/
theorem exec_sfn_calm (calm : (if s.ctl.slotReads slot.val = true then err else none) = none ∨ (s.waitOf o (laneNeeds [a] 32)).isSome = true) :
    ∃ bad, exec (.sfn o slot out mode a dest ⟨block, ends⟩ err) s = runEngine s o (laneNeeds [a] 32) (isElement a.fmt)
      (dstFits (sfnDst out dest block ends) 32) (spanKeys (s.ctl.core o.core) (sfnDst out dest block ends) 32) [(.sfn, 32)]
      (sfnOp s.ctl o slot.val out mode a (sfnDst out dest block ends) bad) := by
  refine ⟨(if s.ctl.slotReads slot.val = true then err else none).isSome, ?_⟩
  simp only [exec_sfn, execSfn, issues, held, State.waitOf_isNone, Bool.not_true, Bool.false_eq_true, if_false]
  rcases calm with sound | waits
  · rw [sound]
    rfl
  · have missing : (s.waitOf o (laneNeeds [a] 32)).isNone = false := by simpa using waits
    rw [missing]
    cases (if s.ctl.slotReads slot.val = true then err else none) <;> rfl

/-- A table error is raised before SFN runs (R115). -/
theorem exec_sfn_tableError {u : Fin 128} (reads : s.ctl.slotReads slot.val = true) (there : s.waitOf o (laneNeeds [a] 32) = none) :
    exec (.sfn o slot out mode a dest ⟨block, ends⟩ (some u)) s = runEngine { s with ctl := s.ctl.tableFault s.cfg o.core u.val } o (laneNeeds [a] 32)
      (isElement a.fmt) (dstFits (sfnDst out dest block ends) 32) (spanKeys (s.ctl.core o.core) (sfnDst out dest block ends) 32) [(.sfn, 32)]
      (sfnOp s.ctl o slot.val out mode a (sfnDst out dest block ends) true) := by
  simp only [exec_sfn, execSfn, issues, held, reads, State.waitOf_isNone, there, Bool.not_true, Bool.false_eq_true, if_false, if_true]
  rfl

end

/-- A special function that is ready and meets no table error writes its results with their flags. -/
theorem sfnOp_written {s : State} {o : EngOp} {a : Src} {ls : List Loc} {dst : Dst} (ready : Ready s o (laneNeeds [a] 32) ls)
    (element : isElement a.fmt = true) (fits : dstFits dst 32 = true) (slot : Nat) (out : SfnOut) (mode : SfnMode) (bad : Bool) {rs : List LaneOut}
    (hrs : rs = sfnResults s.ctl s.dp (s.ctl.core o.core) slot out mode (s.lanesAt o a (locOf ls 0) (locOf ls 1))) :
    ∃ t, runEngine s o (laneNeeds [a] 32) (isElement a.fmt) (dstFits dst 32) (spanKeys (s.ctl.core o.core) dst 32) [(.sfn, 32)]
        (sfnOp s.ctl o slot out mode a dst bad) = .next t ∧ RunWritten s t o dst 32 (sfnWritten out rs) ∧
      t.dp.flags = (s.dp.raiseFlags (s.ctl.core o.core) .vxe (ArithFlags.orAll (rs.map (·.fl)))).flags := by
  refine runEngine_ready_written (fl := s.dp.flags) (mark := fun _ => s.marked o (laneNeeds [a] 32) || bad) ready element fits fun x => ?_
  rw [hrs]
  rfl

end Sys2Proof.Machine

open Sys2Proof Sys2Proof.Machine

/-- Settles O52: each function runs its operation on a ready engine (`runEngine_ready_runs`, or `runEngine_ready_put`, `rescale_written` and
`sfnOp_written` where it writes a run), and what is counted and marked behind it writes no byte and raises no flag. A table error of SFN leaves its
instruction ready (`Ready.tableFault`). The accumulators and the layout of V in a tile are entry 25 of the model's log, the missing flags of forming s
and of a KV conversion's errors entry 26, and the pieces of a long row entry 92. -/
theorem rowFunctionsWriteTheirRules : Obligations.RowFunctionsWriteTheirRules := by
  rintro s o _ rfl
  have started (needs : List Need) := (started_eq needs s.dp (s.ctl.core o.core)).choose_spec
  refine ⟨?tile, ?merge, ?finish, ?rescale, fun row f codes pair => ⟨?rowq, fun issues => ⟨?rowqWaits, ?rowqFormat⟩⟩, ?kv,
    fun slot out mode a dest block ends err => ⟨?sfn, ?sfnError, fun issues => ⟨exec_sfn_emptySlot issues, ?sfnWaits⟩⟩⟩
  case tile =>
    intro x v n d f triple fresh ls ready hf hx hv fits
    rw [exec_smxTile]
    refine ⟨_, _, _, runEngine_ready_runs ready (started _) (by rw [hf, hx, hv]; rfl) fits, ⟨rfl, rfl⟩, rfl, rfl, ?_, ?_⟩
    · exact (Dp.ended_counted_mem ..).trans (tileOp_leaves rfl rfl o _).1
    · exact (Dp.ended_counted_flags ..).trans (tileOp_leaves rfl rfl o _).2
  case merge =>
    intro a b w dest ls ready fits
    rw [exec_smxMerge]
    unfold execSmxMerge
    exact ⟨_, _, runEngine_ready_runs ready (started _) rfl fits, ⟨rfl, rfl⟩, rfl, (Dp.ended_counted_mem ..).trans (Dp.written_mem ..),
      (Dp.ended_counted_flags ..).trans (Dp.written_flags ..)⟩
  case finish =>
    intro a w d ls ready element fits
    rw [exec_smxFinish]
    exact runEngine_ready_put ready element fits fun _ => rfl
  case rescale =>
    intro acc count pair table rp d ls ready element fits
    obtain ⟨t, ran, written, flags⟩ := rescale_written ready element fits rfl rfl
    exact ⟨t, _, _, ran, rfl, rfl, written, flags⟩
  case rowq =>
    intro ls ready integer codesFit pairFits
    rw [exec_rowq]
    unfold execRowq
    exact ⟨_, _, _, runEngine_ready_runs ready (started _) integer (by rw [codesFit, pairFits]; rfl), ⟨rfl, rfl⟩, rfl, rfl,
      (Dp.ended_counted_mem ..).trans ((Dp.countConv_mem ..).trans (Dp.written_mem ..)),
      (Dp.ended_counted_flags ..).trans ((Dp.countConv_flags ..).trans (Dp.written_flags ..))⟩
  case rowqWaits =>
    rw [exec_rowq]
    unfold execRowq
    exact fun w waits => runEngine_waits issues waits
  case rowqFormat =>
    rw [exec_rowq]
    unfold execRowq
    exact fun there format => runEngine_badFormat issues there format
  case kv =>
    rintro src n dest f table _ rfl
    refine ⟨fun ls ready format fits => ?_, fun issues there int8 uint8 bf16 => ?_⟩
    · rw [exec_kvConversion]
      unfold execKvConversion
      exact ⟨_, _, runEngine_ready_runs ready (started _) (by simpa [or_assoc] using format) fits, ⟨rfl, rfl⟩, rfl,
        (Dp.ended_counted_mem ..).trans ((Dp.addKvErr_mem ..).trans ((Dp.clipRun_mem ..).trans (Dp.written_mem ..))),
        (Dp.ended_counted_flags ..).trans ((Dp.addKvErr_flags ..).trans ((Dp.clipRun_flags ..).trans (Dp.written_flags ..)))⟩
    · rw [exec_kvConversion]
      exact runEngine_badFormat issues there (by simp [int8, uint8, bf16])
  case sfn =>
    intro ls ready element fits held sound
    have calm : (if s.ctl.slotReads slot.val = true then err else none) = none := by
      rcases sound with rfl | reads
      · exact ite_self _
      · rw [reads]
        rfl
    obtain ⟨bad, ran⟩ := exec_sfn_calm (out := out) (mode := mode) (dest := dest) (block := block) (ends := ends) ready.1 held (.inl calm)
    obtain ⟨t, made, written, flags⟩ := sfnOp_written ready element fits slot.val out mode bad rfl
    exact ⟨t, _, ran.trans made, written, rfl, flags⟩
  case sfnError =>
    intro ls u ready element fits held reads
    rw [exec_sfn_tableError ready.1 held reads ready.waitOf]
    exact runEngine_ready_leaves (ready.tableFault u.val) element fits fun _ _ _ _ => ⟨rfl, rfl⟩
  case sfnWaits =>
    intro held w waits
    obtain ⟨bad, ran⟩ := exec_sfn_calm (out := out) (mode := mode) (dest := dest) (block := block) (ends := ends) (err := err) issues held
      (.inr (by rw [waits]; rfl))
    exact ran.trans (runEngine_waits issues waits)

end

section
/-! The hub's checks: the end of a statistics window (R142) and the check of the configuration (R458, R459). -/

namespace Sys2Proof.Machine

open Sys2Proof

/-! ### The end of a statistics window (R142) -/

/-- A bit that is raised in HUB_EVENT stands there. -/
theorem raise_hub_bit (c : Ctl) (cfg : Cfg) {bits : BitVec 16} {i : Nat} (h : bits.getLsbD i = true) :
    (c.raise cfg .hub bits).hub.event.bits.getLsbD i = true := by
  rw [(raise_sameBut c cfg .hub bits nofun).hub]
  simp [Ctl.setEv, EventReg.raise, h]

/-- The QNT_WINDOW records go to the journal alone. -/
theorem Ctl.windowRecords_sameBut (c : Ctl) (cfg : Cfg) (slot : Nat) (q : QntSlot) (act kv : List Nat) :
    SameBut c (c.windowRecords cfg slot q act kv) :=
  .foldl (fun c _ => sameBut_journal c cfg 8 0x8FFF 0 slot _) c _

/-- A slot whose window is closed begins its next window; every other slot stands. -/
theorem Ctl.closeWindow_qnt (c : Ctl) (cfg : Cfg) (slot : Nat) (q : QntSlot) :
    (c.closeWindow cfg slot q).hub.qnt = c.hub.qnt.map fun x => if x.1 = slot then
      (slot, { q with left := cfg.window, clip := [0, 0, 0, 0], conv := [0, 0, 0, 0], err := []
                      actStatus := (List.range 4).map (q.judgeAct cfg.factorAct), kvStatus := (List.range 4).map (q.judgeKv cfg.factorKv)
                      lastClip := q.clip, lastConv := q.conv }) else x := by
  unfold Ctl.closeWindow
  dsimp only
  split
  · rw [Ctl.onHub_hub, (c.windowRecords_sameBut ..).hub]
  · rw [Ctl.onHub_hub, (raise_sameBut _ cfg .hub 8#16 nofun).hub]
    simp only [Ctl.setEv, Ctl.onHub_hub, (c.windowRecords_sameBut ..).hub]

/-- A band whose activation status is DRIFT gives the window a DRIFT outcome. -/
theorem QntSlot.drifts_ne_nil (q : QntSlot) (cfg : Cfg) (slot : Nat) {act : List Nat} (kv : List Nat) {b : Nat} (lt : b < 4)
    (drift : act.getD b 0 = 2) : q.drifts cfg slot act kv ≠ [] :=
  List.append_ne_nil_of_left_ne_nil (List.ne_nil_of_mem
    (List.mem_map_of_mem (List.mem_filter.2 ⟨List.mem_range.2 lt, decide_eq_true drift⟩))) _

/-- A drift in the activations of any band raises CALIB_DRIFT, and an outcome is latched from then on. -/
theorem Ctl.closeWindow_drift (c : Ctl) (cfg : Cfg) (slot : Nat) {q : QntSlot} {b : Nat} (lt : b < 4)
    (drift : q.judgeAct cfg.factorAct b = 2) :
    (c.closeWindow cfg slot q).hub.event.bits.getLsbD 3 = true ∧ (c.closeWindow cfg slot q).hub.drift.isSome = true := by
  have judged : ((List.range 4).map fun b => q.judgeAct cfg.factorAct b).getD b 0 = 2 := by simp [lt, drift]
  unfold Ctl.closeWindow
  dsimp only
  split
  next nil => exact absurd nil (q.drifts_ne_nil cfg slot _ lt judged)
  next d _ _ => exact ⟨raise_hub_bit _ cfg rfl, by simp only [Ctl.onHub_hub]; cases Hub.drift _ <;> rfl⟩

theorem exec_qntWindowClose_ended {s : State} {slot : Fin 64} {x : Nat × QntSlot}
    (found : s.ctl.hub.qnt.find? (fun x => x.1 = slot.val) = some x) (ended : x.2.left = 0) :
    exec (.qntWindowClose slot) s = .next (s.withCtl (s.ctl.closeWindow s.cfg slot.val x.2)) := by
  simp [exec, execQntWindowClose, found, ended, State.withCtl]

theorem exec_qntWindowClose_open {s : State} {slot : Fin 64}
    (unended : ∀ x, s.ctl.hub.qnt.find? (fun x => x.1 = slot.val) = some x → x.2.left ≠ 0) :
    exec (.qntWindowClose slot) s = .next s := by
  simp only [exec, execQntWindowClose]
  split
  next found => exact if_neg (unended _ found)
  next => rfl

/-! ### The check of the configuration (R458, R459) -/

/-- A check that finds a difference: the CRC is stored, the difference latched, the plan fenced where FENCE_ON_DRIFT
says so, and CFG_DRIFT raised. -/
def Ctl.crcDiffers (c : Ctl) (cfg : Cfg) (crc : Word) : Ctl :=
  (c.onHub fun h => { h with crc := crc, mismatch := true, fenced := h.fenced || cfg.fenceOnDrift }).raise cfg .hub 16#16

theorem Ctl.crcDiffers_latches (c : Ctl) (cfg : Cfg) (crc : Word) :
    (c.crcDiffers cfg crc).hub.crc = crc ∧ (c.crcDiffers cfg crc).hub.mismatch = true ∧
      (c.crcDiffers cfg crc).hub.fenced = (c.hub.fenced || cfg.fenceOnDrift) ∧ (c.crcDiffers cfg crc).ev .hub = (c.ev .hub).raise 16#16 := by
  simp only [Ctl.ev, Ctl.crcDiffers, (raise_sameBut _ cfg .hub 16#16 nofun).hub, Ctl.setEv, Ctl.onHub_hub, and_self]

theorem exec_cfgCrcCheck_down {s : State} (down : s.ctl.sec.st ≠ .running) : exec .cfgCrcCheck s = .next s := by
  simp only [exec, execCfgCrcCheck, down, decide_false, Bool.false_and, Bool.false_eq_true, if_false]

/-! The proofs below name the CRC by an equation: left as `Cfg.crc`, the kernel would compute it. -/

theorem exec_cfgCrcCheck_differs {s : State} (running : s.ctl.sec.st = .running) (checked : s.cfg.checkEn = true)
    (committed : s.ctl.hub.uncommitted = false) (differs : s.cfg.crc ≠ s.ctl.hub.crcRef) (fresh : s.ctl.hub.mismatch = false) :
    exec .cfgCrcCheck s = .next (s.withCtl (s.ctl.crcDiffers s.cfg s.cfg.crc)) := by
  obtain ⟨crc, computed⟩ : ∃ crc, s.cfg.crc = crc := ⟨_, rfl⟩
  simp only [exec, execCfgCrcCheck]
  rw [computed] at differs ⊢
  simp [running, checked, committed, differs, fresh, Ctl.crcDiffers, Ctl.onHub, State.withCtl]

/-- In RUNNING a check where no difference counts stores the CRC alone. -/
theorem exec_cfgCrcCheck_stores {s : State} (running : s.ctl.sec.st = .running) (same : s.cfg.checkEn = false ∨ s.ctl.hub.uncommitted = true ∨
    s.cfg.crc = s.ctl.hub.crcRef ∨ s.ctl.hub.mismatch = true) :
    exec .cfgCrcCheck s = .next (s.withCtl (s.ctl.onHub fun h => { h with crc := s.cfg.crc })) := by
  obtain ⟨crc, computed⟩ : ∃ crc, s.cfg.crc = crc := ⟨_, rfl⟩
  simp only [exec, execCfgCrcCheck]
  rw [computed] at same ⊢
  rcases same with unchecked | uncommitted | equal | latched
  · simp [running, unchecked, State.withCtl]
  · simp [running, uncommitted, State.withCtl]
  · simp [running, equal, State.withCtl]
  · simp [running, latched, State.withCtl]

end Sys2Proof.Machine

open Sys2Proof Sys2Proof.Machine

/-- Settles O39: what a closed window leaves in its slot is `Ctl.closeWindow_qnt`, its drift `Ctl.closeWindow_drift` (R142); the check of the
configuration is `exec_cfgCrcCheck_differs`, with `Ctl.crcDiffers_latches`, where a difference counts (R459), and `exec_cfgCrcCheck_stores` elsewhere.
That a band is SPARSE by the elements of its own kind is entry 29 of the model's log. -/
theorem windowsCloseAndConfigurationIsChecked : Obligations.WindowsCloseAndConfigurationIsChecked := by
  intro s
  refine ⟨fun slot x found ended => ⟨_, exec_qntWindowClose_ended found ended, rfl, rfl, fun y mem own => ?next, fun b lt drift => ?drift⟩,
    fun slot unended => exec_qntWindowClose_open unended, fun running checked committed differs fresh => ?differs,
    fun running same => exec_cfgCrcCheck_stores running same, fun down => exec_cfgCrcCheck_down down⟩
  case next =>
    rw [State.withCtl, Ctl.closeWindow_qnt] at mem
    obtain ⟨z, -, rfl⟩ := List.mem_map.1 mem
    by_cases at0 : z.1 = slot.val
    · rw [if_pos at0]
      exact ⟨rfl, rfl, rfl, rfl, rfl, rfl⟩
    · rw [if_neg at0] at own
      exact absurd own at0
  case drift => exact s.ctl.closeWindow_drift s.cfg slot.val lt drift
  case differs =>
    exact ⟨_, exec_cfgCrcCheck_differs running checked committed differs fresh, rfl, rfl, s.ctl.crcDiffers_latches s.cfg s.cfg.crc⟩

end

section
/-! Every store operation keeps memory in its canonical form (R146, R147, R150, R155): writes of bytes and units, the shed's keys, block copies,
records of the coffer, the table stores, and what an engine instruction writes. -/

namespace Sys2Proof.Machine

open Sys2Proof

/-- The engines hold their memory in its canonical form. -/
def Dp.Canonical (d : Dp) : Prop := d.mem.wf = true

namespace Dp.Canonical

variable {d e : Dp}

/-- Engines of the same memory. -/
theorem ofMem (h : d.Canonical) (same : e.mem = d.mem) : e.Canonical := by
  rw [Dp.Canonical, same]
  exact h

theorem write (h : d.Canonical) (key : Nat) (bs : List Byte) (mark : Bool) : (d.write key bs mark).Canonical :=
  Mem.wf_writeN _ _ _ h

theorem ite {p : Prop} [Decidable p] (h : d.Canonical) (k : e.Canonical) : (if p then d else e).Canonical := by
  split
  · exact h
  · exact k

/-- A fold whose every step keeps the form; `p` is where the accumulator holds the engines. -/
theorem foldlOn {α β : Type} (p : β → Dp) {f : β → α → β} (step : ∀ b a, (p b).Canonical → (p (f b a)).Canonical) (l : List α) {b : β}
    (h : (p b).Canonical) : (p (l.foldl f b)).Canonical := by
  induction l generalizing b with
  | nil => exact h
  | cons a l ih => exact ih (step b a h)

theorem foldl {α : Type} {f : Dp → α → Dp} (step : ∀ d a, d.Canonical → (f d a).Canonical) (l : List α) (h : d.Canonical) :
    (l.foldl f d).Canonical :=
  foldlOn id step l h

/-! ### Units and the keys of the shed (R165, R167, R170, R172) -/

theorem writeUnits (h : d.Canonical) (key : Nat) (bs : List Byte) (marks : List Bool) : (d.writeUnits key bs marks).Canonical :=
  foldl (fun _ _ h => h.write _ _ _) _ h

theorem adoptUnit (h : d.Canonical) (key u : Nat) : (d.adoptUnit key u).Canonical := ite h (Mem.wf_writeN _ _ _ h)

theorem adoptAny (h : d.Canonical) (sk u : Nat) : (d.adoptAny sk u).Canonical := ite (h.adoptUnit _ _) h

theorem shedWrite (h : d.Canonical) (key addr : Nat) (bs : List Byte) (mark : Bool) : (d.shedWrite key addr bs mark).Canonical :=
  (foldl (fun _ _ h => h.adoptUnit _ _) _ h : (d.adoptShed key addr bs.length).Canonical).write _ _ _

theorem sxeUnit (h : d.Canonical) (sk cluster key : Nat) (bs : List Byte) (mark : Bool) : (d.sxeUnit sk cluster key bs mark).Canonical := by
  have adopted : (d.adoptAny sk (key / 64)).Canonical := h.adoptAny _ _
  have landed : ((d.adoptAny sk (key / 64)).write key bs mark).Canonical := adopted.write _ _ _
  unfold Dp.sxeUnit
  dsimp only
  split
  · split
    · exact adopted
    · exact landed
  · exact landed

theorem sxeLand (h : d.Canonical) (c : Ctl) (r : CoreRef) (tag : RowTag) (e : BlockEntry) (target : SxeTarget) (bs : List Byte)
    (marks : List Bool) : (c.sxeLand d r tag e target bs marks).Canonical := by
  unfold Ctl.sxeLand
  extract_lets sk landed
  have kept : landed.Canonical := foldl (fun _ _ h => foldl (fun _ _ h => h.sxeUnit _ _ _ _ _) _ h) _ h
  clear_value landed
  split
  · exact ite kept kept
  · exact kept

theorem copyUnits (h : d.Canonical) (sk : Nat) (src dst : List Nat) : (d.copyUnits sk src dst).Canonical :=
  foldl (fun _ _ h => (h.adoptAny _ _).write _ _ _) _ h

theorem takeUnits (h : d.Canonical) (from0 : Dp) (sk : Nat) (us : List Nat) : (d.takeUnits from0 sk us).Canonical :=
  foldl (fun _ _ h => (h.adoptAny _ _).write _ _ _) _ h

theorem writeAt (h : d.Canonical) (sk : Nat) (units : List Nat) (off : Nat) (bs : List Byte) : (d.writeAt sk units off bs).Canonical := by
  refine foldl (fun d p h => ?_) _ h
  dsimp only
  split
  · exact Mem.wf_write _ _ _ (h.adoptAny _ _)
  · exact h

/-- An arriving block lands in every receiving store (R164). -/
theorem land (h : d.Canonical) (f : Flight) (bs : List Byte) (marks : List Bool) : (d.land f bs marks).Canonical := by
  unfold Dp.land
  split
  · exact foldl (fun _ _ h => h.writeUnits _ _ _) _ h
  · exact foldl (fun _ _ h => h.writeUnits _ _ _) _ h

theorem arriveTokens (h : d.Canonical) (f : Flight) (mark : Bool) : (d.arriveTokens f mark).Canonical := h

theorem noteBad (h : d.Canonical) (f : Flight) : (d.noteBad f).Canonical := ite h h

/-! ### Records and block lists of the images (R193, R197, R201) -/

theorem putRecord (h : d.Canonical) (dk : Nat) (shed : Bool) (addr : Nat) (bytes : Option (List Byte)) (n : Nat) :
    (d.putRecord dk shed addr bytes n).Canonical := by
  have put (bs : List Byte) (mark : Bool) :
      (if shed then d.shedWrite dk addr bs mark else d.write (fastKey addr) bs mark).Canonical := ite (h.shedWrite _ _ _ _) (h.write _ _ _)
  exact ite (put _ _) (put _ _)

theorem putCopies (h : d.Canonical) (dk : Nat) (l : List Copy) : (d.putCopies dk l).Canonical := foldl (fun _ _ h => h.putRecord _ _ _ _ _) _ h

theorem putList (h : d.Canonical) (c : Ctl) (e : Epoch) (k : Yard) : (c.putList d e k).Canonical := ite h (h.putRecord _ _ _ _ _)

theorem putLists (h : d.Canonical) (c : Ctl) (e : Epoch) : (c.putLists d e).Canonical := foldl (fun _ _ h => h.putList _ _ _) _ h

theorem loadEpoch (h : d.Canonical) (c : Ctl) (e : Epoch) : (loadEpoch c d e).Canonical := by
  have loaded : (c.putLists (d.putCopies c.sec.deviceKey (c.copiesOf e false)) e).Canonical := (h.putCopies _ _).putLists _ _
  exact ite (loaded.putCopies _ _) loaded

theorem relistYard (h : d.Canonical) (c : Ctl) (k : Yard) : (relistYard c d k).2.Canonical := by
  refine foldlOn (fun x : Ctl × Dp => x.2) (fun x e h => ?_) _ h
  split
  · exact h.putList _ _ _
  · exact h

theorem relistAll (h : d.Canonical) (c : Ctl) : (relistAll c d).2.Canonical :=
  foldlOn (fun x : Ctl × Dp => x.2) (fun x k (h : x.2.Canonical) => h.relistYard x.1 k) _ h

/-! ### Table stores and resets of a yard (R114, R115, R326) -/

theorem putTables (h : d.Canonical) (cores : List Nat) (image : List Byte) : (d.putTables cores image).Canonical :=
  ite h (foldl (fun _ _ h => h.write _ _ _) _ h)

theorem loadTables (h : d.Canonical) (image : List Byte) : (d.loadTables image).Canonical := by
  unfold Dp.loadTables
  refine putTables ?_ _ _
  exact Mem.wf_filter _ _ h

theorem yardReset (h : d.Canonical) (k : Yard) (image : List Byte) : (d.yardReset k image).Canonical := by
  unfold Dp.yardReset
  refine putTables ?_ _ _
  exact Mem.wf_filter _ _ h

theorem nextTick (h : d.Canonical) (image : List Byte) (rewritten : List Nat) (gens : List GenEntry) :
    (d.nextTick image rewritten gens).Canonical := by
  unfold Dp.nextTick
  exact foldl (fun _ _ h => h.write _ _ _) _ h

/-! ### Results of an engine (R82, R85, R102, R127, R379) -/

theorem setAcc (h : d.Canonical) (core i : Nat) (v : Word) (mark : Bool) : (d.setAcc core i v mark).Canonical := Mem.wf_writeN _ _ _ h

theorem setElems (h : d.Canonical) (core : Nat) (xs : List Word) (mark : Bool) : (d.setElems core xs mark).Canonical :=
  foldl (fun _ _ h => h.setAcc _ _ _ _) _ h

theorem raiseFlags (h : d.Canonical) (core : Nat) (e : Engine) (f : ArithFlags) : (d.raiseFlags core e f).Canonical := h

theorem countUnits (h : d.Canonical) (k : Yard) (l stall : Nat) (work : List (EnergyClass × Nat)) :
    (d.countUnits k l stall work).Canonical := h

theorem retireInstr (h : d.Canonical) (k : Yard) (l : Cluster) : (d.retireInstr k l).Canonical := h

theorem countRead (h : d.Canonical) (c : Ctl) (f : Flight) (part : Nat) (e : EnergyClass) (n : Nat) : (c.countRead d f part e n).Canonical := by
  unfold Ctl.countRead
  split
  · exact ite h h
  · exact h

theorem setRoute (h : d.Canonical) (r : RouteLayer) : (d.setRoute r).Canonical := h

theorem setWpart (h : d.Canonical) (k : Nat) (p : WPart) : (d.setWpart k p).Canonical := h

theorem setSpart (h : d.Canonical) (k : Nat) (p : SPart) : (d.setSpart k p).Canonical := h

theorem addKvErr (h : d.Canonical) (k : Yard) (stall layer : Nat) (es : List FNum) : (d.addKvErr k stall layer es).Canonical := h

theorem poisonRow (h : d.Canonical) (o : EngOp) (mark : Bool) : (d.poisonRow o mark).Canonical := h.ofMem (Dp.poisonRow_mem ..)

theorem countConv (h : d.Canonical) (core : Nat) (k : Yard) (tag : RowTag) (f : Fmt) (clipped : List Bool) :
    (d.countConv core k tag f clipped).Canonical := h.ofMem (Dp.countConv_mem ..)

theorem clipRun (h : d.Canonical) (cluster layer chan : Nat) (cs : List Bool) : (d.clipRun cluster layer chan cs).Canonical :=
  h.ofMem (Dp.clipRun_mem ..)

theorem putWritten (h : d.Canonical) (core : Nat) (o : EngOp) (dst : Dst) (n : Nat) (w : Written) (mark : Bool) :
    (d.putWritten core o dst n w mark).Canonical := by
  have runs : (d.writeRuns core (dstRuns dst n w) mark).Canonical := foldl (fun _ _ h => h.write _ _ _) _ h
  exact ((runs.raiseFlags _ _ _).poisonRow _ _).countConv _ _ _ _ _

theorem put (h : d.Canonical) (core : Nat) (o : EngOp) (dst : Dst) (vs : List Word) (mark : Bool) : (d.put core o dst vs mark).Canonical :=
  h.putWritten _ _ _ _ _ _

theorem faultMode (h : d.Canonical) (o : EngOp) (dests : List (Nat × Nat)) : (d.faultMode o dests).Canonical :=
  (foldl (fun d r (h : d.Canonical) => h.write r.1 (freeBytes d.drawn r.2) true) dests h).poisonRow o true

/-- The waits before an instruction and the tokens and counts after it leave memory. -/
theorem started (h : d.Canonical) (core : Nat) (needs : List Need) : (d.started core needs).Canonical := by
  obtain ⟨w, eq⟩ := started_eq needs d core
  exact h.ofMem (by rw [eq])

theorem ended (h : d.Canonical) (core : Nat) (needs : List Need) (k : Yard) (l : Cluster) : (d.ended core needs k l).Canonical := by
  obtain ⟨q, p, eq⟩ := ended_eq d core needs k l
  exact h.ofMem (by rw [eq])

end Dp.Canonical

end Sys2Proof.Machine
end

section
/-! What a state's memory becomes under each kind of command: the engine instructions, the streams and the routing. -/

namespace Sys2Proof.Machine

open Sys2Proof

/-- A state whose memory stands in its canonical form. -/
def State.Canonical (s : State) : Prop := s.dp.Canonical

namespace State.Canonical

variable {s t : State}

theorem ite {p : Prop} [Decidable p] (h : s.Canonical) (k : t.Canonical) : (if p then s else t).Canonical := by
  split
  · exact h
  · exact k

/-- A change of the controls leaves memory. -/
theorem setCtl (h : s.Canonical) (c : Ctl) : State.Canonical { s with ctl := c } := h

/-- A change that stays outside the engines leaves memory. -/
theorem within {r x : Bool} (h : s.Canonical) (w : Within ⟨false, r, x⟩ s t) : t.Canonical := by
  rw [State.Canonical, w.engines rfl]
  exact h

theorem foldl {α : Type} {f : State → α → State} (step : ∀ s a, s.Canonical → (f s a).Canonical) (l : List α) (h : s.Canonical) :
    (l.foldl f s).Canonical :=
  Dp.Canonical.foldlOn State.dp step l h

end State.Canonical

/-! ### Engine instructions (R19, R40, R82, R163, R379) -/

/-- An engine instruction keeps the form where its operation does. -/
theorem runEngine_canonical {s : State} (h : s.Canonical) {o : EngOp} {needs : List Need} {formats inside : Bool} {dests : List (Nat × Nat)}
    {work : List (EnergyClass × Nat)} {f : Nat → List Loc → Bool → Dp → Dp}
    (keeps : ∀ core ls mark d, d.Canonical → (f core ls mark d).Canonical) :
    Leaves (runEngine s o needs formats inside dests work f) State.Canonical := by
  have started := Dp.Canonical.started h (s.ctl.core o.core) needs
  unfold runEngine
  refine .ite (.next h) ?_
  dsimp only
  split
  · exact .next h
  · refine .ite .fault (.ite .fault (.next ?_))
    refine Dp.Canonical.ended ?_ _ _ _ _
    split
    · exact started.faultMode _ _
    · exact (keeps _ _ _ _ started).countUnits _ _ _ _

/-- Issuing entries one after another leaves memory. -/
theorem Ctl.issueAll_mem (c : Ctl) (r : CoreRef) (rs : List (Cluster × List (Fin 40))) (es : List BlockEntry) (d : Dp) (n : Nat) :
    (c.issueAll r rs es d n).1.mem = d.mem := by
  induction es generalizing d n with
  | nil => rfl
  | cons e es ih =>
    unfold Ctl.issueAll
    split
    · exact ih _ _
    · rfl

section

variable {s : State} (h : s.Canonical)

include h

theorem laneOp_canonical (o : EngOp) (srcs : List Src) (d : Dst) (f : List (List Word) → List Word × ArithFlags) :
    Leaves (laneOp o srcs d f s) State.Canonical := by
  unfold laneOp
  exact runEngine_canonical h fun _ _ _ _ h => (h.raiseFlags _ _ _).put _ _ _ _ _

theorem reduceOp_canonical (o : EngOp) (a : Src) (d : Dst) (f : Word → Word → Word × ArithFlags) (e : Word) :
    Leaves (reduceOp o a d f e s) State.Canonical := by
  unfold reduceOp
  exact runEngine_canonical h fun _ _ _ _ h => (h.raiseFlags _ _ _).put _ _ _ _ _

/-- An accumulation into partials whose every step leaves memory. -/
theorem accOp_canonical (o : EngOp) (slot : Byte) (a : Src) {f : Nat → Word → Bool → Dp → Dp × ArithFlags}
    (partials : ∀ k x mark d, (f k x mark d).1.mem = d.mem) : Leaves (accOp o slot a f s) State.Canonical := by
  unfold accOp
  exact runEngine_canonical h fun _ _ _ _ h => Dp.Canonical.foldl (fun d p h => (h.ofMem (partials _ _ _ _)).raiseFlags _ _ _) _ (h.poisonRow _ _)

theorem execMxeDotProduct_canonical (o : EngOp) (acc : BitVec 9) (pair : Bool) (start : AccStart) (a b : Src) (n : Nat) :
    Leaves (execMxeDotProduct o acc pair start a b n s) State.Canonical := by
  unfold execMxeDotProduct
  exact runEngine_canonical h fun _ _ _ _ h => .ite ((((h.setAcc _ _ _ _).setAcc _ _ _ _).raiseFlags _ _ _).poisonRow _ _)
    (((h.setAcc _ _ _ _).raiseFlags _ _ _).poisonRow _ _)

theorem execPairMerge_canonical (o : EngOp) (acc : BitVec 9) (second : Nat) : Leaves (execPairMerge o acc second s) State.Canonical := by
  unfold execPairMerge
  exact runEngine_canonical h fun _ _ _ _ h => (((h.setAcc _ _ _ _).setAcc _ _ _ _).raiseFlags _ _ _).poisonRow _ _

theorem execAccReadout_canonical (o : EngOp) (acc : BitVec 9) (count : Nat) (pair hiOnly : Bool) (dest : Nat) :
    Leaves (execAccReadout o acc count pair hiOnly dest s) State.Canonical := by
  unfold execAccReadout
  exact runEngine_canonical h fun _ _ _ _ h => (h.write _ _ _).poisonRow _ _

theorem execWelfordMerge_canonical (o : EngOp) (a b dest : PartRef) : Leaves (execWelfordMerge o a b dest s) State.Canonical := by
  unfold execWelfordMerge
  exact runEngine_canonical h fun _ _ _ _ h => ((h.setWpart _ _).raiseFlags _ _ _).poisonRow _ _

theorem execSsqMerge_canonical (o : EngOp) (a b dest : PartRef) : Leaves (execSsqMerge o a b dest s) State.Canonical := by
  unfold execSsqMerge
  exact runEngine_canonical h fun _ _ _ _ h => ((h.setSpart _ _).raiseFlags _ _ _).poisonRow _ _

theorem execVarFinish_canonical (o : EngOp) (a : PartRef) (d : Dst) : Leaves (execVarFinish o a d s) State.Canonical := by
  unfold execVarFinish
  exact runEngine_canonical h fun _ _ _ _ h => (h.raiseFlags _ _ _).put _ _ _ _ _

theorem execRmsFinish_canonical (o : EngOp) (a : PartRef) (epsilon : Word) (d : Dst) :
    Leaves (execRmsFinish o a epsilon d s) State.Canonical := by
  unfold execRmsFinish
  exact runEngine_canonical h fun _ _ _ _ h => (h.raiseFlags _ _ _).put _ _ _ _ _

theorem execSmxTile_canonical (o : EngOp) (scores values : Src) (n d : Nat) (operand : Fmt) (triple : Nat) (fresh : Bool) :
    Leaves (execSmxTile o scores values n d operand triple fresh s) State.Canonical := by
  unfold execSmxTile
  exact runEngine_canonical h fun _ _ _ _ h => .ite ((((h.write _ _ _).raiseFlags _ _ _).raiseFlags _ _ _).poisonRow _ _)
    (((((h.write _ _ _).raiseFlags _ _ _).raiseFlags _ _ _).poisonRow _ _).countConv _ _ _ _ _ |>.setElems _ _ _)

theorem execSmxMerge_canonical (o : EngOp) (a b : Place) (d : TripleAt) : Leaves (execSmxMerge o a b d s) State.Canonical := by
  unfold execSmxMerge
  exact runEngine_canonical h fun _ _ _ _ h => ((h.write _ _ _).raiseFlags _ _ _).poisonRow _ _

theorem execSmxFinish_canonical (o : EngOp) (a : TripleAt) (d : Dst) : Leaves (execSmxFinish o a d s) State.Canonical := by
  unfold execSmxFinish
  exact runEngine_canonical h fun _ _ _ _ h => (h.raiseFlags _ _ _).put _ _ _ _ _

theorem execRescale_canonical (o : EngOp) (acc : BitVec 9) (count : Nat) (pair : Bool) (table : Place) (rowPair : Option Nat) (d : Dst) :
    Leaves (execRescale o acc count pair table rowPair d s) State.Canonical := by
  unfold execRescale
  exact runEngine_canonical h fun _ _ _ _ h => (h.raiseFlags _ _ _).putWritten _ _ _ _ _ _

theorem execRowq_canonical (o : EngOp) (row : List (Place × Nat)) (fmt : Fmt) (store : Store) (codes pair : Nat) :
    Leaves (execRowq o row fmt store codes pair s) State.Canonical := by
  unfold execRowq
  exact runEngine_canonical h fun _ _ _ _ h => ((((h.write _ _ _).write _ _ _).raiseFlags _ _ _).poisonRow _ _).countConv _ _ _ _ _

theorem execKvConversion_canonical (o : EngOp) (src n : Nat) (fmt : Fmt) (table : Place) (dest : Nat) :
    Leaves (execKvConversion o src n fmt table dest s) State.Canonical := by
  unfold execKvConversion
  exact runEngine_canonical h fun _ _ _ _ h => ((((h.write _ _ _).raiseFlags _ _ _).poisonRow _ _).clipRun _ _ _ _).addKvErr _ _ _ _

theorem execSfn_canonical (o : EngOp) (slot : Fin 64) (out : SfnOut) (mode : SfnMode) (a : Src) (dest : Nat) (at1 : BlockAt)
    (tableError : Option (Fin 128)) : Leaves (execSfn o slot out mode a dest at1 tableError s) State.Canonical := by
  unfold execSfn
  refine .ite (.next h) (.ite .fault ?_)
  exact runEngine_canonical (h.setCtl _) fun _ _ _ _ h => h.putWritten _ _ _ _ _ _

/-! ### Routing (R252-R267) -/

theorem execRouteTopk_canonical (o : EngOp) (token : BitVec 16) (x : RouteRow) : Leaves (execRouteTopk o token x s) State.Canonical := by
  unfold execRouteTopk
  refine .ite (.next h) ?_
  split
  · exact .fault
  · exact runEngine_canonical h fun _ _ _ _ h => .ite ((h.setRoute _).write _ _ _)
      (((h.setRoute _).raiseFlags _ _ _).poisonRow _ _)

theorem routeStep_canonical (k : Yard) (layer : Nat) (at0 : When) (f : Router → RouteLayer → RouteLayer) :
    Leaves (routeStep s k layer at0 f) State.Canonical := by
  unfold routeStep
  refine .ite (.next h) ?_
  split
  · exact .fault
  · exact .ite (.next h) (.next h)

theorem execSendRecord_canonical (o : EngOp) (token : BitVec 16) (kr : Fin 2) (row : Nat) (len : RowLen) (area : Nat) :
    Leaves (execSendRecord o token kr row len area s) State.Canonical := by
  unfold execSendRecord
  refine .ite (.next h) ?_
  split
  · exact .fault
  · dsimp only
    split
    · exact .next h
    · split
      · exact .next h
      · exact runEngine_canonical h fun _ _ _ _ h =>
          .setRoute (.ite ((h.writeUnits _ _ _).countConv _ _ _ _ _) (h.writeUnits _ _ _)) _

theorem putBack_canonical (r : Router) (o : EngOp) (x : ReturnRec) (core : Fin 40) (dest : Nat) :
    Leaves (putBack s r o x core dest) State.Canonical := by
  unfold putBack
  dsimp only
  split
  · refine .ite (.next h) (.ite .fault (.next ?_))
    exact ((((Dp.Canonical.setRoute h _).write _ _ _).raiseFlags _ _ _).poisonRow _ _).countUnits _ _ _ _
  · exact .next h

theorem execReturnRecord_canonical (yard : Yard) (cluster : Cluster) (core : Fin 40) (layer : BitVec 12) (chan : Nat) (at0 : When)
    (area pos row width : Nat) (homeCore : Fin 40) (dest : Nat) :
    Leaves (execReturnRecord yard cluster core layer chan at0 area pos row width homeCore dest s) State.Canonical := by
  unfold execReturnRecord
  refine .ite (.next h) ?_
  dsimp only
  split
  · exact .fault
  · refine .ite (.next h) (.ite .fault (.ite (putBack_canonical ?_ _ _ _ _ _) (.next ?_)))
    all_goals exact (Dp.Canonical.raiseFlags h _ _ _).countConv _ _ _ _ _

theorem execExpertStream_canonical (yard : Yard) (layer : BitVec 12) (lead which : Nat) (at0 : When) :
    Leaves (execExpertStream yard layer lead which at0 s) State.Canonical := by
  unfold execExpertStream
  refine .ite (.next h) ?_
  split
  · exact .fault
  · dsimp only
    split
    · exact .next h
    · exact .ite (.next h) (.ite .fault (.next (Dp.Canonical.ofMem h (Ctl.issueAll_mem ..))))

/-! ### Streams (R157-R172, R182-R193) and the near-memory engines (R221-R224) -/

theorem execFxeEntryIssue_canonical (i : FxeIssue) : Leaves (execFxeEntryIssue i s) State.Canonical := by
  unfold execFxeEntryIssue
  refine .ite (.next h) ?_
  split
  · exact .next h
  · exact .ite .fault (.ite (.next h) (.next h))

theorem execFxeBlockArrival_canonical (yard : Yard) (flight : Nat) : Leaves (execFxeBlockArrival yard flight s) State.Canonical := by
  unfold execFxeBlockArrival
  split
  · exact .next h
  · split
    · exact .next h
    next f _ _ x _ =>
      have landed := (Dp.Canonical.land h f x.1 x.2).arriveTokens f (x.2.any id)
      refine .next ?_
      split
      · exact landed.noteBad f
      · exact landed

end

end Sys2Proof.Machine
end

section
/-! What a state's memory becomes under moves of KV blocks, restores, faults and the tick: every write goes through a store operation of the
engines, and those keep the canonical form. -/

namespace Sys2Proof.Machine

open Sys2Proof

section

variable {s : State} (h : s.Canonical)

include h

/-! ### Streams, loads and restores (R151, R182, R193, R201, R206-R209) -/

theorem execFastRead_canonical (yard : Yard) (flight part : Nat) (result : FastResult) (late : Bool) :
    Leaves (execFastRead yard flight part result late s) State.Canonical := by
  unfold execFastRead
  split
  · exact .next h
  · split
    · exact .next h
    · refine .ite (.next h) (.ite .fault (.next ?_))
      refine Dp.Canonical.countRead ?_ _ _ _ _ _
      split
      · exact h
      · exact h

theorem execShedRead_canonical (yard : Yard) (flight part : Nat) (poisoned late : Bool) :
    Leaves (execShedRead yard flight part poisoned late s) State.Canonical := by
  unfold execShedRead
  split
  · exact .next h
  · split
    · exact .next h
    · refine .ite (.next h) (.ite .fault (.next ?_))
      have done (f' : Flight) (n : Nat) : ((s.dp.draw n).setFlight f').Canonical := h
      exact (done _ _).countRead _ _ _ _ _

theorem execSxeWrite_canonical (o : EngOp) (entry : BlockEntry) (conv : Option Fmt) (target : SxeTarget) (replayed late : Bool) :
    Leaves (execSxeWrite o entry conv target replayed late s) State.Canonical := by
  unfold execSxeWrite
  refine .ite (.next h) (.ite .fault (.ite .fault (.next ?_)))
  have landed (bs : List Byte) (marks : List Bool) {p : Prop} [Decidable p] (n : Nat) (work : List (EnergyClass × Nat)) :
      (let d := if p then s.ctl.sxeLand s.dp o.core o.tag entry target bs marks else s.dp
       if p then d.countUnits o.core.yard o.core.cluster.val n work else d).Canonical := by
    split
    · exact Dp.Canonical.countUnits (Dp.Canonical.sxeLand h _ _ _ _ _ _ _) _ _ _ _
    · exact h
  cases conv with
  | none => exact landed _ _ _ _
  | some f => exact (landed _ _ _ _).countConv _ _ _ _ _

theorem execExpanderBlock_canonical (yard : Yard) (x : ExpRead) (late : Bool) :
    Leaves (execExpanderBlock yard x late s) State.Canonical := by
  unfold execExpanderBlock
  split
  · exact .next h
  · refine .ite (.next h) ?_
    dsimp only
    refine .next ?_
    split <;> exact h

theorem nmaOp_canonical (kind : Nat) (o : NmaOp) : Leaves (nmaOp kind o s) State.Canonical := by
  unfold nmaOp
  refine .ite (.next h) ?_
  split
  · exact .fault
  · split
    · exact .fault
    · refine .ite .fault (.ite .fault (.next ?_))
      have written (key key' : Nat) (bs bs' : List Byte) (mark : Bool) (e : EngOp) :
          (((s.dp.write key bs mark).write key' bs' mark).poisonRow e mark).Canonical :=
        ((Dp.Canonical.write h _ _ _).write _ _ _).poisonRow _ _
      refine Dp.Canonical.retireInstr ?_ _ _
      split
      · exact written _ _ _ _ _ _
      · exact (written _ _ _ _ _ _).countUnits _ _ _ _

theorem execEpochLoaded_canonical (fn : BitVec 8) (l : LoadEnd) : Leaves (execEpochLoaded fn l s) State.Canonical := by
  unfold execEpochLoaded
  split
  · exact .next h
  · split
    · split
      · exact .next h
      · refine .ite (.next h) ?_
        split
        · exact .next h
        · exact .next (Dp.Canonical.loadEpoch h _ _)
    · exact .next h

theorem restoreBlock_canonical (k : Yard) (x : Copy) (again : Bool) : (restoreBlock s k x again).Canonical := by
  have put := Dp.Canonical.putRecord h s.ctl.sec.deviceKey x.shed x.addr x.bytes x.len
  unfold restoreBlock
  refine .ite put ?_
  split
  · exact Dp.Canonical.putRecord put _ _ _ _ _
  · exact put

theorem restoreWeight_canonical (k : Yard) (shed : Bool) (addr image : Nat) : (restoreWeight s k shed addr image).Canonical := by
  unfold restoreWeight
  dsimp only
  split
  · exact h
  · exact (restoreBlock_canonical (h.setCtl _) _ _ _).setCtl _

theorem execWeightRestore_canonical (yard : Yard) (u : UnitAt) (image : Nat) (read : MasterRead) :
    Leaves (execWeightRestore yard u image read s) State.Canonical := by
  unfold execWeightRestore
  refine .ite (.next h) ?_
  cases read with
  | ok => exact .next (restoreWeight_canonical (h.setCtl _) _ _ _ _)
  | unreadable => exact .next (h.setCtl _)

theorem execClusterHardFault_canonical (yard : Yard) (cluster : Cluster) (cause : FaultCause) :
    Leaves (execClusterHardFault yard cluster cause s) State.Canonical := by
  unfold execClusterHardFault
  refine .ite (.next h) ?_
  split
  · exact .ite .fault (.next h)
  · exact .next h

theorem flrTimeout_canonical (n : BitVec 8) : (flrTimeout s n).Canonical := by
  unfold flrTimeout
  split
  · exact h
  · exact h

theorem doneReport_canonical (d : DoneIn) : (doneReport s d).Canonical := by
  unfold doneReport
  exact .ite h (Dp.Canonical.ofMem h (Dp.reported_keeps _ _ _ _).1)

theorem cpmCritical_canonical (k : Yard) (l : Cluster) (code : BitVec 16) : (cpmCritical s k l code).Canonical := .ite h h

/-! ### Moves of KV blocks (R217, R233, R239-R242) -/

theorem demote_canonical (p : Plan) (x : Session) (e : MapEntry) : (demote s p x e).2.Canonical := by
  unfold demote
  split
  · exact h
  · exact Dp.Canonical.copyUnits h _ _ _

theorem promote_canonical (p : Plan) (e : MapEntry) : (promote s p e).2.Canonical := by
  unfold promote
  split
  · exact h
  · exact Dp.Canonical.copyUnits h _ _ _

theorem moveBlock_canonical {t : State} {p : Plan} {e : MapEntry} {side : Nat} (moved : moveBlock s p e side = some t) : t.Canonical := by
  obtain ⟨a, _, rfl⟩ := Option.map_eq_some_iff.mp moved
  exact Dp.Canonical.copyUnits h _ _ _

theorem rebalance_canonical (p : Plan) (fn : BitVec 8) (ix : Nat) (k : Yard) (layer : Nat) (n : Nat) :
    (rebalance s p fn ix k layer n).1.Canonical := by
  induction n generalizing s with
  | zero => exact h
  | succ n ih =>
    unfold rebalance
    split
    · exact h
    next t found =>
      obtain ⟨m, _, moved⟩ := Option.bind_eq_some_iff.mp found
      exact ih (moveBlock_canonical h moved)

theorem houseOut_canonical (p : Plan) (k : Yard) (total used : Nat) : (houseOut s p k total used).1.Canonical := by
  unfold houseOut
  extract_lets r s1 z
  have released : s1.Canonical := h.setCtl _
  clear_value s1 r
  split
  · exact released
  · refine Dp.Canonical.foldlOn (fun z : State × Nat × Nat => z.1.dp) (fun z q (hz : z.1.Canonical) => ?_) _ released
    split
    · have moved := demote_canonical hz p q.1 q.2
      dsimp only
      split <;> exact moved
    · exact hz

theorem houseIn_canonical (p : Plan) (k : Yard) (total used : Nat) : (houseIn s p k total used).1.Canonical := by
  refine Dp.Canonical.foldlOn (fun z : State × Nat × Nat => z.1.dp) (fun z q (hz : z.1.Canonical) => ?_) _ h
  have moved := promote_canonical hz p q.2
  dsimp only
  rw [apply_ite (fun z : State × Nat × Nat => z.1.dp), apply_ite (fun z : State × Nat × Nat => z.1.dp)]
  exact .ite (.ite moved hz) hz

theorem houseKeep_canonical (p : Plan) (k : Yard) : (houseKeep s p k).Canonical := by
  unfold houseKeep
  refine .ite h ?_
  dsimp only
  refine Dp.Canonical.foldlOn (fun z : State × Nat => z.1.dp) (fun z x hz => Dp.Canonical.foldlOn (fun z : State × Nat => z.1.dp)
    (fun z ds (hz : z.1.Canonical) => rebalance_canonical hz _ _ _ _ _ _) _ hz) _ ?_
  split
  · exact houseOut_canonical h _ _ _ _
  · split
    · exact houseIn_canonical h _ _ _ _
    · exact h

theorem moveKept_canonical (p : Plan) (m : KvMove) : (moveKept s p m).Canonical := by
  unfold moveKept
  split
  · exact h
  · split
    · exact h
    · exact Dp.Canonical.copyUnits h _ _ _

theorem moveAllKept_canonical (p : Plan) : (moveAllKept s p).Canonical := .foldl (fun _ m h => moveKept_canonical h p m) _ h

theorem copyForks_canonical (p : Plan) (k : Yard) : (copyForks s p k).Canonical := by
  refine .foldl (fun s x h => .foldl (fun s e h => ?_) _ h) _ h
  split
  · refine .ite h (Dp.Canonical.copyUnits ?_ _ _ _)
    split
    · exact Dp.Canonical.ite (Dp.Canonical.copyUnits h _ _ _) (Dp.Canonical.copyUnits h _ _ _)
    · exact Dp.Canonical.copyUnits h _ _ _
  · exact h

/-! ### The append step (R232, R239, R249) -/

theorem writePosition_canonical (p : Plan) (ds : KvDesc) (st : Stall) (i : Nat) (l : Cluster) (e : MapEntry) (pos : Nat) (codes : List Byte) :
    (writePosition s p ds st i l e pos codes).Canonical := by
  refine Dp.Canonical.countUnits (Dp.Canonical.foldl (fun d x h => ?_) _ h) _ _ _ _
  exact Dp.Canonical.foldl (fun d a h => h.writeAt _ _ _ _) _ (Dp.Canonical.foldl (fun d a h => h.writeAt _ _ _ _) _ h)

theorem scatterCodes_canonical (p : Plan) (k : Yard) (st : Stall) (i : Nat) (ds : KvDesc) (codes : List CorePlace) :
    (scatterCodes s p k st i ds codes).Canonical := by
  refine .foldl (fun s q h => ?_) _ h
  split
  · exact h
  · exact writePosition_canonical h _ _ _ _ _ _ _ _

theorem scatterLayer_canonical (p : Plan) (k : Yard) (st : Stall) (w : KvWrite) (score : Bool) :
    (scatterLayer s p k st w score).Canonical := by
  unfold scatterLayer
  split
  · exact scatterCodes_canonical h _ _ _ _ _ _
  · exact h

theorem writeLane_canonical (p : Plan) (k : Yard) (i : Nat) (l : Lane) (heads : Nat) (body : List (CorePlace × Nat)) :
    (writeLane s p k i l heads body).Canonical :=
  Dp.Canonical.foldl (fun _ _ h => h.countUnits _ _ _ _) _ ((Dp.Canonical.write h _ _ _).countUnits _ _ _ _)

theorem laneVisit_canonical (p : Plan) (k : Yard) (i : Nat) (x : Session) (body : List (CorePlace × Nat)) :
    (laneVisit s p k i x body).2.Canonical := by
  unfold laneVisit
  split
  · exact h
  · split
    · exact h
    · split
      · exact h
      · exact writeLane_canonical h _ _ _ _ _ _

theorem scatterStep_canonical (k : Yard) (writes : List KvWrite) : (scatterStep s k writes).Canonical := by
  unfold scatterStep
  split
  case h_2 => exact h
  next p m _ _ =>
    have layers (st : Stall) (score : Bool) {s : State} (h : s.Canonical) (ws : List KvWrite) :
        (ws.foldl (fun s w => scatterLayer s p k st w score) s).Canonical :=
      .foldl (fun _ w h => scatterLayer_canonical h p k st w score) _ h
    refine State.Canonical.foldl (fun s i h => ?_) _ (copyForks_canonical h p k)
    split
    · exact h
    · refine .ite h ?_
      split
      · split
        · exact h
        · exact layers _ _ (laneVisit_canonical h _ _ _ _ _) _
      · exact layers _ _ h _
      · exact layers _ _ h _
      all_goals exact h

theorem restoreKv_canonical (k : Yard) (copy : KvCopy) (addr : Nat) : (restoreKv s k copy addr).Canonical := by
  unfold restoreKv
  split
  · exact h
  · split
    · exact h
    · dsimp only
      split
      · exact h
      · cases copy <;> exact Dp.Canonical.copyUnits h _ _ _

theorem patchMoved_canonical (k : Yard) : (patchMoved s k).Canonical :=
  .ite h (Dp.Canonical.foldl (fun _ _ h => h.putLists _ _) _ h)

/-! ### Faults, rebuilds and relief (R378-R399) -/

theorem rebuildUnits_canonical (unread : List (Nat × Nat)) (sel : Nat → Bool) : (rebuildUnits s unread sel).Canonical := by
  refine State.Canonical.foldl (fun s e h => ?_) _ (Dp.Canonical.takeUnits h _ _ _)
  dsimp only
  split
  · exact h
  · split
    · exact Dp.Canonical.copyUnits h _ _ _
    · exact h

theorem rebuildKv_canonical (k : Yard) : (rebuildKv s k).Canonical := by
  unfold rebuildKv
  split
  · exact h
  · refine State.Canonical.foldl (fun s e h => ?_) _ h
    split
    · exact h
    · split
      · exact h
      · exact Dp.Canonical.copyUnits h _ _ _

theorem relist_canonical (k : Yard) : (relist s k).Canonical := Dp.Canonical.relistYard h _ _

theorem enterRelief_canonical (k : Yard) : (enterRelief s k).Canonical := by
  unfold enterRelief
  exact (rebuildKv_canonical (relist_canonical (h.setCtl _) k) k).setCtl _

theorem reliefReady_canonical (ms : Nat) (unread : List (Nat × Nat)) : (reliefReady s ms unread).Canonical := by
  unfold reliefReady
  split
  · exact h
  · exact .ite h (Dp.Canonical.ite h (Dp.Canonical.takeUnits h _ _ _))

theorem restoreYard_canonical (k : Yard) : (restoreYard s k).Canonical := by
  unfold restoreYard
  extract_lets c0 c1 d s1 bytes s2 s3 s4 c
  have reset : State.Canonical { s with dp := d, ctl := c1 } := Dp.Canonical.yardReset h _ _
  have begun : s2.Canonical := .ite (rebuildUnits_canonical (relist_canonical reset k) _ _) (rebuildUnits_canonical (relist_canonical reset k) _ _)
  have moved : s3.Canonical := rebuildKv_canonical begun k
  have ended : s4.Canonical := .ite moved (moved.setCtl _)
  exact ended.setCtl _

theorem applyMap_canonical (k : Yard) (new : List Nat) : (applyMap s k new).Canonical := by
  refine Dp.Canonical.foldl (fun d a h => ?_) _ h
  exact Dp.Canonical.ite h (Dp.Canonical.writeUnits h _ _ _)

theorem retireFaulty_canonical (k : Yard) : (retireFaulty s k).Canonical := .ite h (applyMap_canonical h _ _)

theorem rebuildChannel_canonical (k : Yard) (near : Fin 2) (ch : Nat) (unread : List (Nat × Nat)) :
    (rebuildChannel s k near ch unread).Canonical := .ite h (rebuildUnits_canonical h _ _)

theorem repairRow_canonical (r : RowFault) : (repairRow s r).Canonical := .ite h (.ite h (rebuildUnits_canonical h _ _))

/-! ### A lost port of the shed (R389-R391) -/

theorem rehomeCold_canonical (port : Nat) : (rehomeCold s port).Canonical := by
  unfold rehomeCold
  extract_lets old moved new m inNew d
  have stands : moved.Canonical := by
    refine .foldl (fun s e h => ?_) _ h
    split <;> exact h
  clear_value moved
  have taken : d.Canonical := Dp.Canonical.takeUnits stands _ _ _
  exact Dp.Canonical.ite taken (Dp.Canonical.foldl (fun _ _ h => h.putLists _ _) _ taken)

theorem rehomeMirrors_canonical (port : Nat) : (rehomeMirrors s port).Canonical := by
  unfold rehomeMirrors
  split
  · exact h
  · refine .foldl (fun s e h => ?_) _ h
    dsimp only
    split
    · exact h
    · exact .ite h (Dp.Canonical.copyUnits h _ _ _)

theorem losePort_canonical (port : Nat) : (losePort s port).Canonical :=
  .ite h (rehomeMirrors_canonical (rehomeCold_canonical (h.setCtl _) port) port)

theorem rehomeShadow_canonical (p : Plan) (e : MapEntry) : (rehomeShadow s p e).Canonical := by
  unfold rehomeShadow
  dsimp only
  split
  · exact h
  · exact h
  · exact Dp.Canonical.copyUnits h _ _ _

theorem rehomeShadows_canonical (port : Nat) : (rehomeShadows s port).Canonical := by
  refine .ite h ?_
  split
  · exact h
  · exact State.Canonical.foldl (fun _ e h => rehomeShadow_canonical h _ e) _ h

/-! ### Self-tests and margin plans (R410-R415) -/

theorem rotate_canonical (k : Yard) (col : Option Nat) : (rotate s k col).Canonical :=
  State.Canonical.ite h (applyMap_canonical h _ _)

theorem retireFound_canonical (f : TestFault) : (retireFound s f).Canonical := by
  unfold retireFound
  split
  · exact .ite h (applyMap_canonical h _ _)
  · exact h

theorem rotateAll_canonical (ks : List Yard) : (ks.foldl (fun s k => rotate s k none) s).Canonical :=
  .foldl (fun _ k h => rotate_canonical h k none) _ h

theorem endSelftest_canonical (j : Job) (mask : Byte) (kind : Nat) (report : RegionRef) (found : List TestFault) :
    (endSelftest s j mask kind report found).Canonical := by
  unfold endSelftest
  extract_lets yards bare tested c
  have kept : tested.Canonical := .ite (.foldl (fun _ f h => retireFound_canonical h f) _ (rotateAll_canonical h _)) (.ite h h)
  clear_value tested
  exact .ite kept kept

theorem endReplan_canonical (j : Job) (mask : Byte) : (endReplan s j mask).Canonical := by
  unfold endReplan
  split
  · exact .ite h h
  · exact .ite h (.foldl (fun _ k h => restoreYard_canonical h k) _ h)

theorem jobStep_canonical (x : JobStep) : (jobStep s x).Canonical := by
  unfold jobStep
  split
  · exact h
  · refine .ite h ?_
    extract_lets j s1
    have start : s1.Canonical := h
    clear_value s1
    split
    · exact .ite (endSelftest_canonical start _ _ _ _ _)
        (.ite (.foldl (fun _ k h => .ite (rotate_canonical h _ _) h) _ start) start)
    · exact .ite (endReplan_canonical start _ _) start
    · exact .ite start start
    · exact start

/-! ### The cut-off and the bell (R51, R55-R57) -/

theorem cutoff_canonical (heads : List HeadRead) : (cutoff s heads).Canonical := by
  unfold cutoff
  split
  · exact h
  next p _ =>
    split
    · exact h
    · extract_lets c1 c2 c3 c4 s1 c5
      have kept : s1.Canonical := .foldl (fun _ k h => houseKeep_canonical h p k) _ (moveAllKept_canonical (h.setCtl c4) p)
      clear_value s1
      exact kept.setCtl _

theorem rowTwoYard_canonical (k : Yard) : (rowTwoYard s k).Canonical :=
  retireFaulty_canonical (patchMoved_canonical (h.setCtl _) k) k

theorem endRelief_canonical : (endRelief s).Canonical := by
  unfold endRelief
  split
  · exact .ite (restoreYard_canonical h _) h
  · exact h

theorem rowTwo_canonical : (rowTwo s).Canonical := by
  unfold rowTwo
  have yards : ((List.finRange 8).foldl rowTwoYard s).Canonical := .foldl (fun _ k h => rowTwoYard_canonical h k) _ h
  refine endRelief_canonical ?_
  split
  · exact enterRelief_canonical yards _
  · exact yards

theorem placePlan_canonical : (placePlan s).Canonical := by
  unfold placePlan
  split
  · exact h
  next p _ =>
    have loaded : (s.dp.loadTables p.table).Canonical := Dp.Canonical.loadTables h _
    have listed := loaded.relistAll s.ctl
    generalize relistAll s.ctl (s.dp.loadTables p.table) = r at listed ⊢
    exact listed

theorem rowThree_canonical : (rowThree s).Canonical := by
  unfold rowThree
  split
  · exact .ite (placePlan_canonical (h.setCtl _)) h
  · exact h

theorem cancelJob_canonical (j : Job) (status : BitVec 16) : (cancelJob s j status).Canonical := by
  unfold cancelJob
  dsimp only
  split
  case h_7 =>
    exact State.Canonical.setCtl (.ite (.foldl (fun _ f h => retireFound_canonical h f) _ (rotateAll_canonical h _)) h) _
  all_goals exact h

theorem suspendJob_canonical (j : Job) : (suspendJob s j).Canonical := by
  unfold suspendJob
  dsimp only
  split
  · exact rotateAll_canonical (h.setCtl _) _
  · exact h

theorem jobOpNow_canonical (n : BitVec 8) (ix : Nat) (op : Bool × Cmd) : (jobOpNow s n ix op).Canonical := by
  unfold jobOpNow
  split
  · exact h
  · refine .ite h ?_
    exact State.Canonical.setCtl (.ite (suspendJob_canonical h _) (cancelJob_canonical h _ _)) _

theorem resetQueueNow_canonical (n : BitVec 8) (q : Fin 4) : (resetQueueNow s n q).Canonical := by
  unfold resetQueueNow
  refine State.Canonical.setCtl (.foldl (fun s j h => ?_) _ h) _
  split
  · exact cancelJob_canonical h _ _
  · exact h

theorem rowFour_canonical : (rowFour s).Canonical := by
  have ops {s : State} (h : s.Canonical) : (jobOpsNow s).Canonical := State.Canonical.foldl (fun _ _ h => jobOpNow_canonical h _ _ _) _ h
  have queues {s : State} (h : s.Canonical) : (resetQueuesNow s).Canonical := .foldl (fun _ _ h => resetQueueNow_canonical h _ _) _ h
  unfold rowFour
  exact (queues (ops (h.setCtl _))).setCtl _

theorem rows_canonical (jobs : List JobStep) : (rows s jobs).Canonical := by
  have stepped {t : State} (ht : t.Canonical) : (jobs.foldl jobStep t).Canonical := .foldl (fun _ x h => jobStep_canonical h x) jobs ht
  unfold rows
  exact (rowFour_canonical (rowThree_canonical (stepped (rowTwo_canonical (h.setCtl _))))).setCtl _

theorem nextTick_canonical (cycle : Nat) : (nextTick s cycle).Canonical := Dp.Canonical.nextTick h _ _ _

theorem bellTick_canonical (b : BellIn) : (bellTick s b).Canonical := by
  unfold bellTick
  extract_lets c1 c2 s1 c3 s2 s3
  have settled : s1.Canonical := h.setCtl c2
  clear_value s1
  have ran : s2.Canonical := rows_canonical (settled.setCtl c3) b.meter.jobs
  clear_value s2
  have closed : s3.Canonical := ran.setCtl _
  clear_value s3
  split
  · exact settled.setCtl _
  · exact .ite ran (.ite (nextTick_canonical closed b.cycle) (closed.setCtl _))

theorem bellFirst_canonical (b : BellIn) : (bellFirst s b).Canonical := by
  unfold bellFirst
  exact nextTick_canonical ((rows_canonical (h.setCtl _) b.meter.jobs).setCtl _) 0

theorem timerPeriod_canonical (m : Interval) : (timerPeriod s m).Canonical := by
  unfold timerPeriod
  extract_lets c s1 held s2 s3 s4
  have held : s2.Canonical := State.Canonical.setCtl (h.setCtl _) _
  clear_value s2
  have ran : s3.Canonical := rows_canonical held m.jobs
  clear_value s3
  split
  · exact h.setCtl _
  · exact State.Canonical.setCtl (ran.setCtl _) _

theorem execBell_canonical (b : BellIn) : Leaves (execBell b s) State.Canonical := by
  unfold execBell
  refine .ite (.next h) (.ite (.ite (.next (bellTick_canonical h b)) (.next h)) ?_)
  split
  · exact .ite (.next (bellFirst_canonical h b)) (.next h)
  · exact .next h

end

end Sys2Proof.Machine
end

section
/-! Every command keeps memory in its canonical form: resets leave it blank, and every other command that reaches the engines goes through the
operations above. -/

namespace Sys2Proof.Machine

open Sys2Proof

/-! ### Resets and trips (R326, R476, R479) -/

/-- A restart leaves blank stores, whatever stood before. -/
theorem restart_canonical (s : State) (warm : Bool) : (restart s warm).Canonical := rfl

theorem warmReset_canonical (s : State) (m : Interval) : (warmReset s m).Canonical := restart_canonical _ true

section

variable {s : State} (h : s.Canonical)

include h

theorem tripOff_canonical (code : Nat) (input : BitVec 8) : (tripOff s code input).Canonical := by
  unfold tripOff
  exact .ite h ((restart_canonical s false).setCtl _)

theorem thermalSample_canonical (t : Temps) : (thermalSample s t).Canonical := by
  unfold thermalSample
  extract_lets was old _ _ c u
  have sampled : u.Canonical := h.setCtl c
  clear_value u
  exact .ite (tripOff_canonical sampled _ _) (.ite (tripOff_canonical sampled _ _) sampled)

/-! ### Register writes (R12, R446-R453) -/

/-- A register write that brings no warm reset leaves memory. -/
theorem barWrite_canonical (fn : BitVec 8) (off : Nat) (v : Word) : (barWrite s fn off v).Canonical := by
  have outside {t : State} (w : Within ⟨false, true, true⟩ s t) : t.Canonical := h.within w
  unfold barWrite
  extract_lets k yard
  refine .ite h (.ite (.ite (warmReset_canonical s noMeter) h) (.ite (.ite (outside (cfgCommit_within s)) h)
    (.ite (outside (siteCtrl_within s fn v)) (.ite (outside (mbxCmd_within s v)) (.ite (.ite (h.setCtl _) h)
    (.ite (outside (jnlWrite_within s v)) (.ite (outside (trigWrite_within s v)) (.ite (outside (dumpWrite_within s v))
    (.ite (outside (probeWrite_within s fn k v)) (.ite (h.setCtl _) ?_))))))))))
  split
  · exact h
  · exact h

theorem regWord_canonical (fn : BitVec 8) (off : Nat) (v : Word) : (regWord s fn off v).Canonical := by
  have written := barWrite_canonical h fn off v
  unfold regWord
  split
  · exact h
  · exact .ite (.ite h (h.setCtl _)) (.ite (.ite written h) (.ite (h.setCtl _) (.ite (h.setCtl _) (.ite written h))))

theorem regWrite_canonical (a : RegAccess) : (regWrite s a).Canonical := by
  unfold regWrite
  exact .ite h (.ite (regWord_canonical h _ _ _) (.ite (regWord_canonical (regWord_canonical h _ _ _) _ _ _) h))

theorem i3cWrite_canonical (off : Nat) (v : Word) : (i3cWrite s off v).Canonical := by
  unfold i3cWrite
  exact .ite (.ite (warmReset_canonical s noMeter) h) (.ite (h.setCtl _) (.ite h h))

theorem execI3cPrivateWrite_canonical (address : BitVec 7) (off : Word) (value : Option Word) :
    Leaves (execI3cPrivateWrite address off value s) State.Canonical := by
  unfold execI3cPrivateWrite
  refine .ite (.next (h.setCtl _)) ?_
  extract_lets c
  split
  · exact .next (h.setCtl _)
  · exact .next (i3cWrite_canonical (h.setCtl _) _ _)

theorem execModRstNLow_canonical : Leaves (execModRstNLow s) State.Canonical :=
  .next (State.Canonical.setCtl (.ite (restart_canonical s false) h) _)

theorem execRefclkLost_canonical : Leaves (execRefclkLost s) State.Canonical := by
  unfold execRefclkLost
  exact .ite (.next h) (.ite (.next (h.setCtl _)) (.next ((restart_canonical s false).setCtl _)))

theorem execDumpDone_canonical (host : Bool) : Leaves (execDumpDone host s) State.Canonical := by
  unfold execDumpDone
  split
  · exact .next h
  · extract_lets u c t
    have written : u.Canonical := .ite h h
    exact .ite (.next (warmReset_canonical t noMeter)) (.next (written.setCtl _))

theorem execFwSupply_canonical (image : HostRead (Option FwImage)) : Leaves (execFwSupply image s) State.Canonical := by
  unfold execFwSupply
  extract_lets image good img
  clear_value image
  refine .ite (.next (warmReset_canonical _ noMeter)) (.next (h.within (mailbox_within s _ _ _ fun u => ?_)))
  split
  · exact .refl u
  · exact .refl u
  · exact .ofCtl u _

/-! ### Every command -/

/-- A command that reaches the engines keeps their memory in its canonical form. -/
theorem exec_touching_canonical (c : Instr) (touches : touchesEngines c = true) : Leaves (exec c s) State.Canonical := by
  unfold exec
  cases c with
  -- power, resets and registers
  | fwSupply => exact execFwSupply_canonical h _
  | i3cPrivateWrite => exact execI3cPrivateWrite_canonical h _ _ _
  | deviceWarmReset => exact .ite (.next (warmReset_canonical s _)) (.next h)
  | registerWrite a => exact .next (regWrite_canonical h a)
  | modEnLow => exact .next ((restart_canonical s false).setCtl _)
  | modRstNLow => exact execModRstNLow_canonical h
  | inputTrip => exact .next (tripOff_canonical h _ _)
  | refclkLost => exact execRefclkLost_canonical h
  | leakOffExpiry => exact .ite (.next (tripOff_canonical h _ _)) (.next h)
  | thermalSample t => exact .ite (.next (thermalSample_canonical h t)) (.next h)
  | dumpDone => exact execDumpDone_canonical h _
  -- the tick
  | bell b => exact execBell_canonical h b
  | admissionCutoff => exact .next (cutoff_canonical h _)
  | doneReport d => exact .next (doneReport_canonical h d)
  | weightRestore => exact execWeightRestore_canonical h _ _ _ _
  | kvRestore => exact .ite (.next h) (.next (restoreKv_canonical h _ _ _))
  | hubTimerPeriod m => exact .ite (.next h) (.next (timerPeriod_canonical h m))
  | flrTimeout => exact .next (flrTimeout_canonical h _)
  | epochLoaded => exact execEpochLoaded_canonical h _ _
  -- streams
  | fxeEntryIssue => exact execFxeEntryIssue_canonical h _
  | fxeBlockArrival => exact execFxeBlockArrival_canonical h _ _
  | fastRead => exact execFastRead_canonical h _ _ _ _ _
  | shedRead => exact execShedRead_canonical h _ _ _ _ _
  | sxeWrite => exact execSxeWrite_canonical h _ _ _ _ _ _
  | appendScatterStep => exact .ite (.next h) (.next (scatterStep_canonical h _ _))
  | expanderBlock => exact execExpanderBlock_canonical h _ _ _
  | nmaLatent | nmaGqa => exact nmaOp_canonical h _ _
  -- engines
  | add | sub | mul | fma | abs | neg | min | max | cmp | sel | cvt => exact laneOp_canonical h _ _ _ _
  | rsum | rmax | rmin => exact reduceOp_canonical h _ _ _ _ _
  | welfordAcc | ssqAcc => exact accOp_canonical h _ _ _ fun _ _ _ _ => rfl
  | mxeDotProduct => exact execMxeDotProduct_canonical h _ _ _ _ _ _ _
  | pairMerge => exact execPairMerge_canonical h _ _ _
  | accReadout => exact execAccReadout_canonical h _ _ _ _ _ _
  | welfordMerge => exact execWelfordMerge_canonical h _ _ _ _
  | varFinish => exact execVarFinish_canonical h _ _ _
  | ssqMerge => exact execSsqMerge_canonical h _ _ _ _
  | rmsFinish => exact execRmsFinish_canonical h _ _ _ _
  | smxTile => exact execSmxTile_canonical h _ _ _ _ _ _ _ _
  | smxMerge => exact execSmxMerge_canonical h _ _ _ _
  | smxFinish => exact execSmxFinish_canonical h _ _ _
  | rescale => exact execRescale_canonical h _ _ _ _ _ _ _
  | rowq => exact execRowq_canonical h _ _ _ _ _ _
  | kvConversion => exact execKvConversion_canonical h _ _ _ _ _ _
  | sfn => exact execSfn_canonical h _ _ _ _ _ _ _ _
  | routeTopk => exact execRouteTopk_canonical h _ _ _
  | countReduce | slotBuild | slotTableMulticast | baseOffsetReturn => exact routeStep_canonical h _ _ _ _
  | sendRecord => exact execSendRecord_canonical h _ _ _ _ _ _
  | returnRecord => exact execReturnRecord_canonical h _ _ _ _ _ _ _ _ _ _ _ _
  | expertStream => exact execExpertStream_canonical h _ _ _ _ _
  | wfence | clusterBarrier => exact .ite (.next h) (.next h)
  | mark => exact .ite (.next h) (.next h)
  -- faults
  | clusterHardFault => exact execClusterHardFault_canonical h _ _ _
  | rowRepair => exact .next (repairRow_canonical h _)
  | channelRebuilt => exact .next (rebuildChannel_canonical h _ _ _ _)
  | cxlPortLost => exact .next (losePort_canonical h _)
  | shadowRehomed => exact .next (rehomeShadows_canonical h _)
  | reliefReady => exact .next (reliefReady_canonical h _ _)
  | cpmCritical => exact .next (cpmCritical_canonical h _ _ _)
  | _ => cases touches

/-- Every command keeps the canonical form: one that does not reach the engines leaves them as they stand. -/
theorem exec_canonical (c : Instr) : Leaves (exec c s) State.Canonical := by
  intro t run
  cases touches : touchesEngines c with
  | false => exact Dp.Canonical.ofMem h (congrArg Dp.mem ((exec_within c s t run).engines touches))
  | true => exact exec_touching_canonical h c touches t run

end

end Sys2Proof.Machine

open Sys2Proof Sys2Proof.Machine

/-- Settles O3: every command keeps the canonical form, and taking it off the queue leaves memory. -/
theorem stepKeepsMemoryCanonical : Obligations.StepKeepsMemoryCanonical := by
  intro s t canonical h
  unfold step at h
  split at h
  · cases h
    exact canonical
  next c rest _ =>
    have stands : State.Canonical { s with pending := rest } := canonical
    exact exec_canonical stands c t h

end

section
/-! Memory after one run of bytes was written at several places, and what an arriving block leaves in every receiving store (R146, R164). -/

namespace Sys2Proof.Machine

open Sys2Proof

/-! ### One run of bytes at several places -/

/-- The same bytes written at each of the keys, one after another. -/
def Mem.writeEach (m : Mem) (keys : List Nat) (bs : List Byte) : Mem := keys.foldl (fun m k => m.writeN k bs) m

/-- Two runs of `n` bytes are the same run or share no byte. -/
def SameOrApart (n a b : Nat) : Prop := a = b ∨ a + n ≤ b ∨ b + n ≤ a

/-- Blocks at one offset of stores of equal size are the same block or share no byte. -/
theorem sameOrApart_stores (base size off n i j : Nat) (inside : off + n ≤ size) :
    SameOrApart n (base + i * size + off) (base + j * size + off) := by
  have step {i j : Nat} (lt : i < j) : i * size + size ≤ j * size := by
    rw [← Nat.succ_mul]
    exact Nat.mul_le_mul_right size lt
  rcases lt_trichotomy i j with lt | rfl | gt
  · exact .inr (.inl (by have := step lt; omega))
  · exact .inl rfl
  · exact .inr (.inr (by have := step gt; omega))

theorem Mem.readN_writeN_apart (m : Mem) (k j n : Nat) (bs : List Byte) (h : m.wf = true) (apart : j + n ≤ k ∨ k + bs.length ≤ j) :
    (m.writeN k bs).readN j n = m.readN j n :=
  List.ext_getElem (by simp) fun i hi _ => by
    rw [Mem.readN_length] at hi
    rw [Mem.getElem_readN, Mem.getElem_readN, Mem.read_writeN_outside _ _ _ _ h (by omega)]

theorem Mem.read_writeEach_outside (m : Mem) (keys : List Nat) (bs : List Byte) (i : Nat) (h : m.wf = true)
    (outside : ∀ k ∈ keys, i < k ∨ k + bs.length ≤ i) : (m.writeEach keys bs).read i = m.read i := by
  induction keys generalizing m with
  | nil => rfl
  | cons k keys ih =>
    rw [List.forall_mem_cons] at outside
    have later := ih (m.writeN k bs) (Mem.wf_writeN _ _ _ h) outside.2
    exact later.trans (Mem.read_writeN_outside _ _ _ _ h outside.1)

/-- A later write of the same bytes leaves a run that already holds them. -/
theorem Mem.readN_writeEach_kept (m : Mem) (keys : List Nat) (bs : List Byte) (j : Nat) (h : m.wf = true)
    (apart : ∀ k ∈ keys, SameOrApart bs.length j k) (held : m.readN j bs.length = bs) : (m.writeEach keys bs).readN j bs.length = bs := by
  induction keys generalizing m with
  | nil => exact held
  | cons k keys ih =>
    rw [List.forall_mem_cons] at apart
    refine ih (m.writeN k bs) (Mem.wf_writeN _ _ _ h) apart.2 ?_
    rcases apart.1 with rfl | away
    · exact Mem.readN_writeN_same _ _ _ h
    · rw [Mem.readN_writeN_apart _ _ _ _ _ h away, held]

/-- Every written run holds the bytes. -/
theorem Mem.readN_writeEach (m : Mem) (keys : List Nat) (bs : List Byte) (h : m.wf = true)
    (apart : ∀ j ∈ keys, ∀ k ∈ keys, SameOrApart bs.length j k) : ∀ j ∈ keys, (m.writeEach keys bs).readN j bs.length = bs := by
  induction keys generalizing m with
  | nil => exact fun _ hj => nomatch hj
  | cons k keys ih =>
    have wf := Mem.wf_writeN m k bs h
    intro j hj
    rcases List.mem_cons.mp hj with rfl | hj
    · exact Mem.readN_writeEach_kept _ keys bs j wf (fun k hk => apart j List.mem_cons_self k (List.mem_cons_of_mem _ hk))
        (Mem.readN_writeN_same _ _ _ h)
    · exact ih _ wf (fun i hi k hk => apart i (List.mem_cons_of_mem _ hi) k (List.mem_cons_of_mem _ hk)) j hj

/-! ### An arriving block (R163, R164) -/

@[simp] theorem Dp.writeUnits_flights (d : Dp) (key : Nat) (bs : List Byte) (marks : List Bool) :
    (d.writeUnits key bs marks).flights = d.flights :=
  foldl_leaves (f := fun (d : Dp) i => d.write (key + 64 * i) ((bs.drop (64 * i)).take 64) (marks.getD i false)) Dp.flights
    (fun _ _ => rfl) d _

/-- Where the receiving stores of a flight take its block. -/
def Flight.keys (f : Flight) : List Nat :=
  match f.entry.store with
  | .core => f.cores.map fun core => coreKey core (entryArea f.entry).off
  | .cluster => f.clusters.map fun clu => clusterKey clu (entryArea f.entry).off

/-- The block's units written into stores one after another: the bytes at each place. -/
theorem Dp.mem_foldl_writeUnits (d : Dp) (key : Nat → Nat) (xs : List Nat) (bs : List Byte) (marks : List Bool) :
    (xs.foldl (fun d x => d.writeUnits (key x) bs marks) d).mem = d.mem.writeEach (xs.map key) bs := by
  unfold Mem.writeEach
  rw [List.foldl_map]
  exact (List.foldl_hom Dp.mem fun d x => (Dp.writeUnits_mem d (key x) bs marks).symm).symm

theorem Dp.land_mem (d : Dp) (f : Flight) (bs : List Byte) (marks : List Bool) : (d.land f bs marks).mem = d.mem.writeEach f.keys bs := by
  unfold Dp.land Flight.keys
  cases f.entry.store with
  | cluster => exact d.mem_foldl_writeUnits _ _ bs marks
  | core => exact d.mem_foldl_writeUnits _ _ bs marks

@[simp] theorem Dp.land_flights (d : Dp) (f : Flight) (bs : List Byte) (marks : List Bool) : (d.land f bs marks).flights = d.flights := by
  unfold Dp.land
  split
  · exact foldl_leaves Dp.flights (fun _ _ => Dp.writeUnits_flights _ _ _ _) d _
  · exact foldl_leaves Dp.flights (fun _ _ => Dp.writeUnits_flights _ _ _ _) d _

@[simp] theorem Dp.noteBad_mem (d : Dp) (f : Flight) : (d.noteBad f).mem = d.mem := by
  unfold Dp.noteBad
  split <;> rfl

@[simp] theorem Dp.noteBad_flights (d : Dp) (f : Flight) : (d.noteBad f).flights = d.flights := by
  unfold Dp.noteBad
  split <;> rfl

/-- A block that has been read is at every receiving store, and its flight is gone. -/
theorem exec_fxeBlockArrival_lands {s : State} {k : Yard} {id : Nat} {f : Flight} {bs : List Byte} {marks : List Bool}
    (flies : s.dp.flight? k id = some f) (whole : f.whole = some (bs, marks)) :
    ∃ t, exec (.fxeBlockArrival k id) s = .next t ∧ t.ctl = s.ctl ∧ t.cfg = s.cfg ∧ t.dp.flights = s.dp.flights.filter (·.id ≠ id) ∧
      t.dp.mem = s.dp.mem.writeEach f.keys bs := by
  simp only [exec, execFxeBlockArrival, flies, whole]
  refine ⟨_, rfl, rfl, rfl, ?_, ?_⟩
  · split <;> simp [Dp.arriveTokens]
  · split <;> simp [Dp.arriveTokens, Dp.land_mem]

/-- Memory after a write at places that are the same or apart: every place holds the bytes, and elsewhere memory stands. -/
theorem landed_at_keys {d e : Dp} {keys : List Nat} {bs : List Byte} (written : e.mem = d.mem.writeEach keys bs) (wf : d.mem.wf = true)
    (apart : ∀ j ∈ keys, ∀ k ∈ keys, SameOrApart bs.length j k) :
    (∀ k ∈ keys, e.mem.readN k bs.length = bs) ∧ d.sameOutside e (keys.map fun k => (k, bs.length)) := by
  refine ⟨fun k hk => ?_, fun i outside => ?_⟩
  · rw [written]
    exact Mem.readN_writeEach _ _ _ wf apart k hk
  · rw [written]
    exact Mem.read_writeEach_outside _ _ _ _ wf fun k hk => outside (k, bs.length) (List.mem_map.mpr ⟨k, hk, rfl⟩)

/-- A block of the same offset in stores of one size: every store `x` among `xs` holds it at `key x`. -/
theorem landed_in_stores {d e : Dp} {xs : List Nat} {bs : List Byte} {key : Nat → Nat} {base size off : Nat}
    (written : e.mem = d.mem.writeEach (xs.map key) bs) (wf : d.mem.wf = true) (inside : off + bs.length ≤ size)
    (keys : ∀ x, key x = base + x * size + off) :
    (∀ x ∈ xs, e.mem.readN (key x) bs.length = bs) ∧ d.sameOutside e (xs.map fun x => (key x, bs.length)) := by
  have landed := landed_at_keys written wf fun j hj k hk => by
    obtain ⟨x, _, rfl⟩ := List.mem_map.mp hj
    obtain ⟨y, _, rfl⟩ := List.mem_map.mp hk
    rw [keys, keys]
    exact sameOrApart_stores base size off bs.length x y inside
  rw [List.map_map] at landed
  exact ⟨fun x hx => landed.1 _ (List.mem_map_of_mem hx), landed.2⟩

/-! ### The issue of an entry (R19, R40, R157, R161, R162) -/

theorem exec_fxeEntryIssue_waits {s : State} {i : FxeIssue}
    (out : s.ctl.issues i.core.yard i.core.cluster.val i.at0 = false ∨ s.ctl.entryOf s.dp i.core i.entry = none) :
    exec (.fxeEntryIssue i) s = .next s := by
  simp only [exec, execFxeEntryIssue]
  split
  · rfl
  next issues =>
    rcases out with out | none
    · simp [out] at issues
    · rw [none]

theorem exec_fxeEntryIssue_entry {s : State} {i : FxeIssue} {e : BlockEntry}
    (issues : s.ctl.issues i.core.yard i.core.cluster.val i.at0 = true) (entry : s.ctl.entryOf s.dp i.core i.entry = some e) :
    exec (.fxeEntryIssue i) s = issueEntry s i.core e := by
  simp [exec, execFxeEntryIssue, issues, entry]

theorem issueEntry_ready {s : State} {r : CoreRef} {e : BlockEntry} (fits : s.ctl.entryFits e = true)
    (ready : s.ctl.issueReady s.dp r.yard (s.ctl.receivers r e) e = true) :
    issueEntry s r e = .next { s with dp := (s.ctl.issueTo s.dp r e (s.ctl.receivers r e)).retireInstr r.yard r.cluster } := by
  simp [issueEntry, fits, ready]

theorem issueEntry_noRoom {s : State} {r : CoreRef} {e : BlockEntry} (fits : s.ctl.entryFits e = true)
    (full : s.ctl.issueReady s.dp r.yard (s.ctl.receivers r e) e = false) : issueEntry s r e = .next s := by
  simp [issueEntry, fits, full]

theorem issueEntry_unfit {s : State} {r : CoreRef} {e : BlockEntry} (unfit : s.ctl.entryFits e = false) :
    issueEntry s r e = .fault .noSuchAddress := by
  simp [issueEntry, unfit]

/-- An arrival without a flight, or of one whose block has not been read, changes nothing. -/
theorem exec_fxeBlockArrival_early {s : State} {k : Yard} {id : Nat} (early : ∀ f, s.dp.flight? k id = some f → f.whole = none) :
    exec (.fxeBlockArrival k id) s = .next s := by
  simp only [exec, execFxeBlockArrival]
  split
  · rfl
  next f flies => rw [early f flies]

end Sys2Proof.Machine

open Sys2Proof Sys2Proof.Machine

/-- Settles O44. The issue is `Ctl.issueTo` field by field (whether an entry may issue, and the relocated parts, are the model's reading, log 33); an
arriving block is one run of bytes written at the same offset of stores of equal size, which do not overlap. -/
theorem entriesIssueAndBlocksLand : Obligations.EntriesIssueAndBlocksLand := by
  refine fun s => ⟨fun i out => exec_fxeEntryIssue_waits out, fun i e issues entry => ?_, fun k id early => exec_fxeBlockArrival_early early,
    fun k id f bs marks flies whole => ?_⟩
  · rw [exec_fxeEntryIssue_entry issues entry]
    refine ⟨fun fits ready => ?_, issueEntry_noRoom, issueEntry_unfit⟩
    refine ⟨_, _, issueEntry_ready fits ready, rfl, rfl, rfl, rfl, rfl, rfl, rfl, rfl, rfl, rfl, rfl, rfl, fun noToken => ?_⟩
    simp [Ctl.issueTo, Dp.retireInstr, noToken]
  · obtain ⟨t, run, ctl, cfg, flights, mem⟩ := exec_fxeBlockArrival_lands flies whole
    refine ⟨t, run, ctl, cfg, flights, fun wf core inside => ?_, fun wf cluster inside => ?_⟩
    · rw [Flight.keys, core] at mem
      exact landed_in_stores mem wf inside fun x => (congrArg (· + _) (Nat.zero_add _)).symm
    · rw [Flight.keys, cluster] at mem
      exact landed_in_stores mem wf inside fun x => rfl

end

section
/-! A read of a tier: the part that it delivers, and the events that it raises (R151, R168-R172, R390); the expander's block (R149, R182, R193). -/

namespace Sys2Proof.Machine

open Sys2Proof

/-! ### Units as they are read (R146, R165, R170) -/

theorem Mem.readN_add (m : Mem) (k a b : Nat) : m.readN k (a + b) = m.readN k a ++ m.readN (k + a) b := by
  induction a generalizing k with
  | zero => simp [Mem.readN]
  | succ a ih =>
    rw [Nat.succ_add, Mem.readN, Mem.readN, ih, List.cons_append]
    congr 3
    omega

/-- Aligned units one after another are the bytes of the run. -/
theorem Mem.flatMap_units (m : Mem) (u n : Nat) : ((List.range n).flatMap fun i => m.readN (64 * (u + i)) 64) = m.readN (64 * u) (64 * n) := by
  induction n with
  | zero => rfl
  | succ n ih =>
    rw [List.range_succ, List.flatMap_append, ih, Nat.mul_succ, Mem.readN_add]
    simp [Nat.mul_add]

/-- A unit under no unfenced write reads what stands. -/
theorem Dp.readUnit_fenced {d : Dp} (fenced : d.unfenced = []) (sk free u : Nat) : d.readUnit sk free u = d.unitData sk u := by
  simp [Dp.readUnit, fenced, pickUnit]

section

variable {d : Dp} {sk key n : Nat} {bad : Nat → Bool}

theorem Dp.readUnits_length : (d.readUnits sk key n bad).2.length = n / 64 := by simp [Dp.readUnits]

/-- Units none of which can be delivered are poison. -/
theorem Dp.readUnits_bad (all : ∀ i, bad i = true) : (d.readUnits sk key n bad).2 = List.replicate (n / 64) true := by
  simp [Dp.readUnits, all, Function.comp_def]

/-- Units that stand unpoisoned, at hand and fenced are delivered. -/
theorem Dp.readUnits_clean (fenced : d.unfenced = []) (clean : ∀ i < n / 64, d.poison.contains (key / 64 + i) = false)
    (good : ∀ i < n / 64, bad i = false) :
    d.readUnits sk key n bad = ((List.range (n / 64)).flatMap fun i => (d.unitData sk (key / 64 + i)).1, List.replicate (n / 64) false) := by
  have unit : ∀ i ∈ List.range (n / 64), (let x := d.readUnit sk (d.drawn + n + 64 * i) (key / 64 + i)
      if x.2 || bad i then (freeBytes (d.drawn + 64 * i) 64, true) else (x.1, false)) = ((d.unitData sk (key / 64 + i)).1, false) := by
    intro i hi
    have lt := List.mem_range.mp hi
    have sound : (d.unitData sk (key / 64 + i)).2 = false := clean i lt
    simp [Dp.readUnit_fenced fenced, sound, good i lt]
  unfold Dp.readUnits
  dsimp only at unit ⊢
  rw [List.map_congr_left unit, List.flatMap_map, List.map_map]
  simp [Function.comp_def, List.map_const']

end

/-- A unit below the shed reads as memory holds it. -/
theorem Dp.unitData_below (d : Dp) (sk : Nat) {u : Nat} (below : u < 2 ^ 41) : (d.unitData sk u).1 = d.mem.readN (64 * u) 64 := by
  unfold Dp.unitData
  rw [if_neg (Nat.not_le.2 below)]

/-- A unit of the shed reads as its reader's key gives it (R172). -/
theorem Dp.unitData_shed (d : Dp) (sk u : Nat) : (d.unitData sk (2 ^ 41 + u)).1 = d.shedUnit sk u := by
  simp [Dp.unitData]

/-- A clean run of the fast tier reads its bytes. -/
theorem Dp.readUnits_fast {d : Dp} {addr n : Nat} {bad : Nat → Bool} (sk : Nat) (inside : fastIn addr n = true) (aligned : addr % 64 = 0)
    (whole : n % 64 = 0) (fenced : d.unfenced = []) (clean : ∀ i < n / 64, d.poison.contains (fastKey addr / 64 + i) = false)
    (good : ∀ i < n / 64, bad i = false) :
    d.readUnits sk (fastKey addr) n bad = (d.mem.readN (fastKey addr) n, List.replicate (n / 64) false) := by
  rw [fastIn, Bool.and_eq_true] at inside
  have tier : addr < 2 ^ 41 := of_decide_eq_true inside.1
  have room : addr % 2 ^ 37 + n ≤ 0x165A0A0000 := of_decide_eq_true inside.2
  have below (i : Nat) (hi : i ∈ List.range (n / 64)) :
      (d.unitData sk (fastKey addr / 64 + i)).1 = d.mem.readN (64 * (fastKey addr / 64 + i)) 64 := by
    have lt := List.mem_range.mp hi
    exact d.unitData_below sk (by simp only [fastKey]; omega)
  have start : 64 * (fastKey addr / 64) = fastKey addr := by simp only [fastKey]; omega
  have size : 64 * (n / 64) = n := by omega
  rw [Dp.readUnits_clean fenced clean good, List.flatMap_congr below, Mem.flatMap_units, start, size]

/-- A clean run of the shed reads its units through the key. -/
theorem Dp.readUnits_shed {d : Dp} {addr n : Nat} {bad : Nat → Bool} (sk : Nat) (fenced : d.unfenced = [])
    (clean : ∀ i < n / 64, d.poison.contains (shedKeyOf addr / 64 + i) = false) (good : ∀ i < n / 64, bad i = false) :
    d.readUnits sk (shedKeyOf addr) n bad =
      ((List.range (n / 64)).flatMap fun i => d.shedUnit sk (addr / 64 + i), List.replicate (n / 64) false) := by
  have unit (i : Nat) : shedKeyOf addr / 64 + i = 2 ^ 41 + (addr / 64 + i) := by simp only [shedKeyOf]; omega
  rw [Dp.readUnits_clean fenced clean good]
  simp only [unit, Dp.unitData_shed]

/-! ### Flights (R163) -/

/-- Where a flight is set again, it is found in its place. -/
theorem Dp.flight?_setFlight {d : Dp} {k : Yard} {id : Nat} {f g : Flight} (found : d.flight? k id = some f) (sameId : g.id = f.id)
    (sameYard : g.yard = f.yard) : (d.setFlight g).flight? k id = some g := by
  have named : f.id = id ∧ f.yard = k := by simpa using List.find?_some found
  have stands : g ∈ (d.setFlight g).flights :=
    List.mem_map.mpr ⟨f, List.mem_of_find?_eq_some found, by simp [sameId]⟩
  cases again : (d.setFlight g).flight? k id with
  | none =>
    have := List.find?_eq_none.mp again g stands
    simp [sameId, sameYard, named] at this
  | some x =>
    obtain ⟨y, _, rfl⟩ := List.mem_map.mp (List.mem_of_find?_eq_some again)
    have matched := List.find?_some again
    by_cases same : y.id = g.id
    · rw [if_pos same]
    · rw [if_neg same] at matched
      simp only [Bool.and_eq_true, decide_eq_true_eq] at matched
      exact absurd (matched.1.trans (named.1.symm.trans sameId.symm)) same

theorem Flight.getElem?_setPart {f : Flight} {i : Nat} {p : Part} (stands : f.parts[i]? = some p) (q : Part) :
    (f.setPart i q).parts[i]? = some q := by
  simp [Flight.setPart, stands]

theorem Dp.flight?_of_flights {d e : Dp} (same : e.flights = d.flights) (k : Yard) (id : Nat) : e.flight? k id = d.flight? k id := by
  rw [Dp.flight?, same, Dp.flight?]

@[simp] theorem Ctl.countRead_mem (c : Ctl) (d : Dp) (f : Flight) (part : Nat) (e : EnergyClass) (n : Nat) :
    (c.countRead d f part e n).mem = d.mem := by
  unfold Ctl.countRead
  split
  · split <;> rfl
  · rfl

@[simp] theorem Ctl.countRead_flights (c : Ctl) (d : Dp) (f : Flight) (part : Nat) (e : EnergyClass) (n : Nat) :
    (c.countRead d f part e n).flights = d.flights := by
  unfold Ctl.countRead
  split
  · split <;> rfl
  · rfl

/-! ### Events of a read (R13, R170, R454) -/

/-- From `a` to `b` the objects stand, and no event of a yard's memory is taken back. -/
structure EventsGrow (a b : Ctl) : Prop where
  objs : b.objs = a.objs
  mem : ∀ k i, (a.ev (.mem k)).bits.getLsbD i = true → (b.ev (.mem k)).bits.getLsbD i = true

namespace EventsGrow

variable {a b c : Ctl}

theorem refl (a : Ctl) : EventsGrow a a := ⟨rfl, fun _ _ => id⟩

theorem trans (h : EventsGrow a b) (k : EventsGrow b c) : EventsGrow a c :=
  ⟨k.objs.trans h.objs, fun y i x => k.mem y i (h.mem y i x)⟩

/-- A change of one yard that leaves its memory events. -/
theorem onYard (c : Ctl) (k : Yard) {f : Yd → Yd} (keeps : ∀ y, (f y).mem = y.mem) : EventsGrow c (c.onYard k f) := by
  refine ⟨rfl, fun j i held => ?_⟩
  simp only [Ctl.ev, Ctl.yd_onYard] at held ⊢
  split
  next same =>
    rw [keeps]
    exact same ▸ held
  · exact held

theorem ofSameBut (h : SameBut a b) : EventsGrow a b :=
  ⟨h.objs, fun k i held => by simpa only [Ctl.ev, h.yd] using held⟩

theorem countYard (c : Ctl) (k : Yard) (i n : Nat) : EventsGrow c (c.countYard k i n) := onYard c k fun _ => rfl

theorem latchPoison (c : Ctl) (k : Yard) (source addr : Nat) : EventsGrow c (c.latchPoison k source addr) := onYard c k fun _ => rfl

theorem raise (c : Ctl) (cfg : Cfg) (k : Yard) (bits : BitVec 16) : EventsGrow c (c.raise cfg (.mem k) bits) := by
  have written : EventsGrow c (c.setEv (.mem k) ((c.ev (.mem k)).raise bits)) := by
    refine ⟨rfl, fun j i held => ?_⟩
    simp only [Ctl.ev, Ctl.setEv, Ctl.yd_onYard] at held ⊢
    split
    next same =>
      subst same
      simp [EventReg.raise, held]
    · exact held
  exact written.trans (.ofSameBut (raise_sameBut c cfg (.mem k) bits (by simp)))

theorem fastPoison (c : Ctl) (cfg : Cfg) (addr : Nat) : EventsGrow c (c.fastPoison cfg addr) :=
  ((raise _ _ _ _).trans (countYard _ _ _ _)).trans (latchPoison _ _ _ _)

theorem breach (c : Ctl) (cfg : Cfg) (k : Yard) (cls cycle : Nat) (overrun : Bool) : EventsGrow c (c.breach cfg k cls cycle overrun) := by
  have written (e : EventReg) : EventsGrow (c.countYard k (10 + cls) 1) ((c.countYard k (10 + cls) 1).setEv (.yras k) e) :=
    onYard (c.countYard k (10 + cls) 1) k (f := fun y => { y with ras := e }) fun _ => rfl
  exact ((countYard _ _ _ _).trans (written _)).trans (.ofSameBut (c.breach_sameBut cfg k cls cycle overrun))

end EventsGrow

/-- A raised event of a yard's memory stands in its register. -/
theorem Ctl.raise_mem_holds (c : Ctl) (cfg : Cfg) (k : Yard) {bits : BitVec 16} {i : Nat} (raised : bits.getLsbD i = true) :
    ((c.raise cfg (.mem k) bits).ev (.mem k)).bits.getLsbD i = true := by
  simp [Ctl.ev, (raise_sameBut c cfg (.mem k) bits (by simp)).yd, Ctl.setEv, EventReg.raise, raised]

/-- The events behind a read: a breach of its deadline, where it came late. -/
def Ctl.lateRead (c : Ctl) (cfg : Cfg) (k : Yard) (cls : Nat) (late : Bool) : Ctl := if late then c.breach cfg k cls 0 false else c

theorem EventsGrow.lateRead (c : Ctl) (cfg : Cfg) (k : Yard) (cls : Nat) (late : Bool) : EventsGrow c (c.lateRead cfg k cls late) := by
  unfold Ctl.lateRead
  split
  · exact .breach c cfg k cls 0 false
  · exact .refl c

theorem Ctl.lateRead_late (c : Ctl) (cfg : Cfg) (k : Yard) (cls : Nat) :
    ((c.lateRead cfg k cls true).ev (.yras k)).bits.getLsbD 14 = true := by
  simp [Ctl.lateRead, Ctl.ev, (Ctl.breach_yd _ cfg k cls 0 false).2, EventReg.raise]

/-- The first of several units that are all poison is the first of them. -/
theorem firstPoison_all {addr n : Nat} (pos : 0 < n) : firstPoison addr (List.replicate n true) = some addr := by
  obtain ⟨n, rfl⟩ := Nat.exists_eq_succ_of_ne_zero pos.ne'
  simp [firstPoison, List.replicate_succ, List.findIdx?_cons]

/-! ### Reads of the fast tier -/

/-- A corrected read counts and raises its event. -/
def Ctl.correctedRead (c : Ctl) (cfg : Cfg) (addr : Nat) (r : FastResult) : Ctl :=
  if r = .retriedClean || r = .corrected then (c.raise cfg (.mem (ownerOf addr)) 2#16).countYard (ownerOf addr) 5 1 else c

/-- A poisoned unit of the fast tier raises its event and is latched. -/
def Ctl.poisonedFast (c : Ctl) (cfg : Cfg) (addr : Nat) (marks : List Bool) : Ctl :=
  match firstPoison addr marks with | some a => c.fastPoison cfg a | none => c

theorem EventsGrow.correctedRead (c : Ctl) (cfg : Cfg) (addr : Nat) (r : FastResult) : EventsGrow c (c.correctedRead cfg addr r) := by
  unfold Ctl.correctedRead
  split
  · exact (EventsGrow.raise _ _ _ _).trans (.countYard _ _ _ _)
  · exact .refl c

theorem EventsGrow.poisonedFast (c : Ctl) (cfg : Cfg) (addr : Nat) (marks : List Bool) : EventsGrow c (c.poisonedFast cfg addr marks) := by
  unfold Ctl.poisonedFast
  split
  · exact .fastPoison _ _ _
  · exact .refl c

theorem Ctl.correctedRead_holds (c : Ctl) (cfg : Cfg) (addr : Nat) {r : FastResult} (corrected : r = .retriedClean ∨ r = .corrected) :
    ((c.correctedRead cfg addr r).ev (.mem (ownerOf addr))).bits.getLsbD 1 = true := by
  have raised := c.raise_mem_holds cfg (ownerOf addr) (show (2#16).getLsbD 1 = true by decide)
  rw [Ctl.correctedRead, if_pos (by simpa using corrected)]
  exact (EventsGrow.countYard _ _ _ _).mem _ _ raised

theorem Ctl.poisonedFast_holds (c : Ctl) (cfg : Cfg) (addr : Nat) {n : Nat} (pos : 0 < n) :
    ((c.poisonedFast cfg addr (List.replicate n true)).ev (.mem (ownerOf addr))).bits.getLsbD 2 = true := by
  have raised := c.raise_mem_holds cfg (ownerOf addr) (show (4#16).getLsbD 2 = true by decide)
  simp only [Ctl.poisonedFast, firstPoison_all pos]
  exact ((EventsGrow.countYard _ _ _ _).trans (.latchPoison _ _ _ _)).mem _ _ raised

/-! ### Reads of the shed -/

/-- A poisoned unit of the shed counts at the reader's yard, raises its event there and is latched. -/
def Ctl.poisonedShed (c : Ctl) (cfg : Cfg) (k : Yard) (addr : Nat) (marks : List Bool) : Ctl :=
  match firstPoison addr marks with
  | some a => ((c.raise cfg (.mem k) 64#16).countYard k 10 1).latchPoison k 1 a
  | none => c

theorem EventsGrow.poisonedShed (c : Ctl) (cfg : Cfg) (k : Yard) (addr : Nat) (marks : List Bool) :
    EventsGrow c (c.poisonedShed cfg k addr marks) := by
  unfold Ctl.poisonedShed
  split
  · exact ((EventsGrow.raise _ _ _ _).trans (.countYard _ _ _ _)).trans (.latchPoison _ _ _ _)
  · exact .refl c

theorem Ctl.poisonedShed_holds (c : Ctl) (cfg : Cfg) (k : Yard) (addr : Nat) {n : Nat} (pos : 0 < n) :
    ((c.poisonedShed cfg k addr (List.replicate n true)).ev (.mem k)).bits.getLsbD 6 = true := by
  have raised := c.raise_mem_holds cfg k (show (64#16).getLsbD 6 = true by decide)
  simp only [Ctl.poisonedShed, firstPoison_all pos]
  exact ((EventsGrow.countYard _ _ _ _).trans (.latchPoison _ _ _ _)).mem _ _ raised

section

variable {s : State} {k : Yard} {id i : Nat} {f : Flight} {p : Part}

/-- A read of a flight or part that there is not, of another tier or already read. -/
theorem exec_fastRead_none {r : FastResult} {late : Bool}
    (idle : ∀ f p, s.dp.flight? k id = some f → f.parts[i]? = some p → p.tier ≠ .fast ∨ p.done = true) :
    exec (.fastRead k id i r late) s = .next s := by
  simp only [exec, execFastRead]
  split
  · rfl
  next f found =>
    split
    · rfl
    next p part => exact if_pos (by simpa using idle f p found part)

theorem exec_shedRead_none {bad late : Bool}
    (idle : ∀ f p, s.dp.flight? k id = some f → f.parts[i]? = some p → p.tier ≠ .shed ∨ p.done = true) :
    exec (.shedRead k id i bad late) s = .next s := by
  simp only [exec, execShedRead]
  split
  · rfl
  next f found =>
    split
    · rfl
    next p part => exact if_pos (by simpa using idle f p found part)

/-- What a fast read of part `p` delivers: its units, none of an uncorrectable read or of a lost channel. -/
def State.fastData (s : State) (p : Part) (r : FastResult) : List Byte × List Bool :=
  s.dp.readUnits 0 (fastKey p.addr) p.bytes fun i => decide (r = .uncorrectable) || s.ctl.addrLost (p.addr + 64 * i)

/-- What a shed read of part `p` of flight `f` delivers: its units through the reader's key, none through a port that is down or held. -/
def State.shedData (s : State) (k : Yard) (f : Flight) (p : Part) (bad : Bool) : List Byte × List Bool :=
  s.dp.readUnits (s.ctl.blockKey k f.stall) (shedKeyOf p.addr) p.bytes fun _ =>
    bad || !(s.ctl.port (p.addr / 2 ^ 44)).up || (s.ctl.port (p.addr / 2 ^ 44)).held

theorem State.fastData_clean {r : FastResult} (inside : fastIn p.addr p.bytes = true) (aligned : p.addr % 64 = 0) (whole : p.bytes % 64 = 0)
    (fenced : s.dp.unfenced = []) (read : r ≠ .uncorrectable) (sound : ∀ n < p.bytes / 64,
      s.dp.poison.contains (fastKey p.addr / 64 + n) = false ∧ s.ctl.addrLost (p.addr + 64 * n) = false) :
    s.fastData p r = (s.dp.mem.readN (fastKey p.addr) p.bytes, List.replicate (p.bytes / 64) false) :=
  Dp.readUnits_fast 0 inside aligned whole fenced (fun n hn => (sound n hn).1) fun n hn => by simp [read, (sound n hn).2]

theorem State.fastData_uncorrectable : (s.fastData p .uncorrectable).2 = List.replicate (p.bytes / 64) true :=
  Dp.readUnits_bad fun _ => rfl

theorem State.shedData_clean {bad : Bool} (fenced : s.dp.unfenced = []) (read : bad = false) (up : (s.ctl.port (p.addr / 2 ^ 44)).up = true)
    (free : (s.ctl.port (p.addr / 2 ^ 44)).held = false) (sound : ∀ n < p.bytes / 64, s.dp.poison.contains (shedKeyOf p.addr / 64 + n) = false) :
    s.shedData k f p bad = ((List.range (p.bytes / 64)).flatMap fun n => s.dp.shedUnit (s.ctl.blockKey k f.stall) (p.addr / 64 + n),
      List.replicate (p.bytes / 64) false) :=
  Dp.readUnits_shed _ fenced sound fun _ _ => by rw [read, up, free]; rfl

theorem State.shedData_lost {bad : Bool} (lost : bad = true ∨ (s.ctl.port (p.addr / 2 ^ 44)).up = false ∨
    (s.ctl.port (p.addr / 2 ^ 44)).held = true) : (s.shedData k f p bad).2 = List.replicate (p.bytes / 64) true :=
  Dp.readUnits_bad fun _ => by
    rw [Bool.or_eq_true, Bool.or_eq_true, Bool.not_eq_true', or_assoc]
    exact lost

/-- The controls behind a fast read in yard `k` that delivered `marks`. -/
def State.fastEvents (s : State) (k : Yard) (p : Part) (r : FastResult) (marks : List Bool) (late : Bool) : Ctl :=
  ((s.ctl.correctedRead s.cfg p.addr r).poisonedFast s.cfg p.addr marks).lateRead s.cfg (s.ctl.home k) 2 late

/-- The controls behind a shed read in yard `k` that delivered `marks`. -/
def State.shedEvents (s : State) (k : Yard) (p : Part) (marks : List Bool) (late : Bool) : Ctl :=
  (s.ctl.poisonedShed s.cfg (s.ctl.home k) p.addr marks).lateRead s.cfg (s.ctl.home k) 2 late

theorem State.fastEvents_objs (r : FastResult) (marks : List Bool) (late : Bool) : (s.fastEvents k p r marks late).objs = s.ctl.objs :=
  (((EventsGrow.correctedRead ..).trans (.poisonedFast ..)).trans (.lateRead ..)).objs

theorem State.fastEvents_corrected {r : FastResult} (marks : List Bool) (late : Bool) (corrected : r = .retriedClean ∨ r = .corrected) :
    ((s.fastEvents k p r marks late).ev (.mem (ownerOf p.addr))).bits.getLsbD 1 = true :=
  ((EventsGrow.poisonedFast ..).trans (.lateRead ..)).mem _ _ (Ctl.correctedRead_holds _ _ _ corrected)

theorem State.fastEvents_poisoned (r : FastResult) {n : Nat} (late : Bool) (pos : 0 < n) :
    ((s.fastEvents k p r (List.replicate n true) late).ev (.mem (ownerOf p.addr))).bits.getLsbD 2 = true :=
  (EventsGrow.lateRead ..).mem _ _ (Ctl.poisonedFast_holds _ _ _ pos)

theorem State.fastEvents_late (r : FastResult) (marks : List Bool) :
    ((s.fastEvents k p r marks true).ev (.yras (s.ctl.home k))).bits.getLsbD 14 = true := Ctl.lateRead_late ..

theorem State.shedEvents_objs (marks : List Bool) (late : Bool) : (s.shedEvents k p marks late).objs = s.ctl.objs :=
  ((EventsGrow.poisonedShed ..).trans (.lateRead ..)).objs

theorem State.shedEvents_poisoned {n : Nat} (late : Bool) (pos : 0 < n) :
    ((s.shedEvents k p (List.replicate n true) late).ev (.mem (s.ctl.home k))).bits.getLsbD 6 = true :=
  (EventsGrow.lateRead ..).mem _ _ (Ctl.poisonedShed_holds _ _ _ _ pos)

theorem State.shedEvents_late (marks : List Bool) :
    ((s.shedEvents k p marks true).ev (.yras (s.ctl.home k))).bits.getLsbD 14 = true := Ctl.lateRead_late ..

/-- From `d` to `e` part `i` of a flight is read and holds `x`; memory stands. -/
structure PartRead (d e : Dp) (k : Yard) (id i : Nat) (f : Flight) (p : Part) (x : List Byte × List Bool) : Prop where
  mem : e.mem = d.mem
  flight : e.flight? k id = some (f.setPart i { p with done := true, data := x.1, poison := x.2 })

variable (found : s.dp.flight? k id = some f) (part : f.parts[i]? = some p) (fresh : p.done = false)

include found part fresh

theorem exec_fastRead_outside (r : FastResult) (late : Bool) (tier : p.tier = .fast) (outside : fastIn p.addr p.bytes = false) :
    exec (.fastRead k id i r late) s = .fault .noSuchAddress := by
  simp [exec, execFastRead, found, part, fresh, tier, outside]

theorem exec_shedRead_outside (bad late : Bool) (tier : p.tier = .shed) (outside : s.ctl.shedIn p.addr p.bytes = false) :
    exec (.shedRead k id i bad late) s = .fault .noSuchAddress := by
  simp [exec, execShedRead, found, part, fresh, tier, outside]

theorem exec_fastRead_made (r : FastResult) (late : Bool) (tier : p.tier = .fast) (inside : fastIn p.addr p.bytes = true) :
    ∃ d, PartRead s.dp d k id i f p (s.fastData p r) ∧ exec (.fastRead k id i r late) s = .next { s with
      dp := d, ctl := s.fastEvents k p r (s.fastData p r).2 late } := by
  have placed := Dp.flight?_setFlight found
    (g := f.setPart i { p with done := true, data := (s.fastData p r).1, poison := (s.fastData p r).2 }) rfl rfl
  have unread : (p.tier != .fast || p.done) = false := by simp [tier, fresh]
  simp only [exec, execFastRead, found, part, unread, inside, Bool.false_eq_true, Bool.not_true, if_false]
  refine ⟨_, ⟨?_, ?_⟩, rfl⟩
  · split <;> simp [Dp.setFlight]
  · rw [Dp.flight?_of_flights (Ctl.countRead_flights ..)]
    split <;> exact placed

theorem exec_shedRead_made (bad late : Bool) (tier : p.tier = .shed) (inside : s.ctl.shedIn p.addr p.bytes = true) :
    ∃ d, PartRead s.dp d k id i f p (s.shedData k f p bad) ∧ exec (.shedRead k id i bad late) s = .next { s with
      dp := d, ctl := s.shedEvents k p (s.shedData k f p bad).2 late } := by
  have placed := Dp.flight?_setFlight found
    (g := f.setPart i { p with done := true, data := (s.shedData k f p bad).1, poison := (s.shedData k f p bad).2 }) rfl rfl
  have unread : (p.tier != .shed || p.done) = false := by simp [tier, fresh]
  simp only [exec, execShedRead, found, part, unread, inside, Bool.false_eq_true, Bool.not_true, if_false]
  refine ⟨_, ⟨?_, ?_⟩, rfl⟩
  · simp [Dp.setFlight]
  · rw [Dp.flight?_of_flights (Ctl.countRead_flights ..)]
    exact placed

/-! ### What a made read holds -/

omit found fresh in
theorem PartRead.holds {d e : Dp} {x : List Byte × List Bool} (read : PartRead d e k id i f p x) :
    ∃ g q, e.flight? k id = some g ∧ g.parts[i]? = some q ∧ q.done = true ∧ q.data = x.1 ∧ q.poison = x.2 :=
  ⟨_, _, read.flight, Flight.getElem?_setPart part _, rfl, rfl, rfl⟩

end

/-! ### The expander's block (R149, R182, R193) -/

/-- What the expander delivers for a flight: the expanded bytes, or poison. -/
def Flight.expansion (f : Flight) (d : Dp) (r : List Byte ⊕ Nat × Nat) : List Byte × Bool :=
  match r with
  | .inl bs => (bs, false)
  | .inr _ => (freeBytes d.drawn (entryBytes f.entry), true)

/-- The controls once a record at `addr` was expanded: a failed check is latched, with the address. -/
def Ctl.expandRead (c : Ctl) (cfg : Cfg) (addr : Nat) (r : List Byte ⊕ Nat × Nat) : Ctl :=
  match r with
  | .inl _ => c
  | .inr w => (if w.1 = 6 then c.fastPoison cfg w.2 else c.latchPoison (ownerOf addr) 0 addr).expFail cfg (ownerOf addr) (addr / 2 ^ 37 % 2) w.1

/-- A failed check sets its yard's flag. -/
theorem Ctl.expFail_flag (c : Ctl) (cfg : Cfg) (k : Yard) (near check : Nat) : (((c.expFail cfg k near check).yd k).check near).flag = true := by
  unfold Ctl.expFail
  dsimp only
  rw [(sameBut_announce _ _ _ _ _ _).yd, Ctl.yd_onYard_same]
  by_cases first : near = 0 <;> simp [Yd.check, first, ExpCheck.fail]

/-- A breach of a deadline leaves the expander's checks. -/
theorem Ctl.lateRead_check (c : Ctl) (cfg : Cfg) (j k : Yard) (cls : Nat) (late : Bool) (near : Nat) :
    ((c.lateRead cfg j cls late).yd k).check near = (c.yd k).check near := by
  unfold Ctl.lateRead
  split
  · rw [(c.breach_sameBut cfg j cls 0 false).yd]
    simp only [Ctl.setEv, Ctl.countYard, Ctl.yd_onYard]
    by_cases same : k = j <;> simp [same, Yd.check]
  · rfl

section

variable {s : State} {k : Yard} {id : Nat} {f : Flight}

/-- Without a flight, without a record to expand, or behind an expansion, nothing changes. -/
theorem exec_expanderBlock_none {bad : List Nat} {late : Bool}
    (idle : ∀ f, s.dp.flight? k id = some f → f.entry.comp = false ∨ f.expanded ≠ none) :
    exec (.expanderBlock k ⟨id, bad⟩ late) s = .next s := by
  simp only [exec, execExpanderBlock]
  split
  · rfl
  next f found => exact if_pos (by simpa [Option.isSome_iff_ne_none] using idle f found)

theorem exec_expanderBlock_made (bad : List Nat) (late : Bool) (found : s.dp.flight? k id = some f) (comp : f.entry.comp = true)
    (fresh : f.expanded = none) {d : Dp} (read : d = s.dp.badUnits s.ctl f.entry.addr.toNat bad) {r : List Byte ⊕ Nat × Nat}
    (result : expand s.ctl d f.entry.addr.toNat f.entry.len = r) :
    ∃ e, exec (.expanderBlock k ⟨id, bad⟩ late) s = .next { s with
        dp := e, ctl := (s.ctl.expandRead s.cfg f.entry.addr.toNat r).lateRead s.cfg (s.ctl.home k) 3 late } ∧
      e.mem = s.dp.mem ∧ e.poison = d.poison ∧ e.flight? k id = some { f with expanded := some (f.expansion d r) } := by
  have kept : d.flight? k id = some f := by rw [read]; exact found
  have placed := Dp.flight?_setFlight kept (g := { f with expanded := some (f.expansion d r) }) rfl rfl
  have mem : d.mem = s.dp.mem := by rw [read]; rfl
  simp only [exec, execExpanderBlock, found, comp, fresh, Option.isSome_none, Bool.not_true, Bool.or_self, Bool.false_eq_true, if_false,
    ← read, result]
  refine ⟨_, rfl, ?_, ?_, ?_⟩
  · cases r <;> exact mem
  · cases r <;> rfl
  · cases r <;> exact placed

end

/-! ### What O45 says of a read, its marks read as marks

O45 itself writes `any id` and `all id` where `id` is the number of the flight; these are its clauses with the marks themselves. -/

section

variable {s : State} {k : Yard} {id i : Nat} {f : Flight} {p : Part} (found : s.dp.flight? k id = some f) (part : f.parts[i]? = some p)
  (fresh : p.done = false)

include found part fresh

/-- A fast read delivers its bytes, or poison with its event (R151, R168-R171). -/
theorem fastRead_delivers (r : FastResult) (late : Bool) (tier : p.tier = .fast) (inside : fastIn p.addr p.bytes = true) :
    ∃ t g q, exec (.fastRead k id i r late) s = .next t ∧ t.cfg = s.cfg ∧ t.dp.mem = s.dp.mem ∧ t.ctl.objs = s.ctl.objs ∧
      t.dp.flight? k id = some g ∧ g.parts[i]? = some q ∧ q.done = true ∧ q.poison.length = p.bytes / 64 ∧
      (r ≠ .uncorrectable → p.bytes % 64 = 0 → s.dp.unfenced = [] →
        (∀ n < p.bytes / 64, s.dp.poison.contains (fastKey p.addr / 64 + n) = false ∧ s.ctl.addrLost (p.addr + 64 * n) = false) →
        p.addr % 64 = 0 → q.data = s.dp.mem.readN (fastKey p.addr) p.bytes ∧ ∀ mark ∈ q.poison, mark = false) ∧
      (r = .uncorrectable → (∀ mark ∈ q.poison, mark = true) ∧
        (64 ≤ p.bytes → (t.ctl.ev (.mem (ownerOf p.addr))).bits.getLsbD 2 = true)) ∧
      ((r = .retriedClean ∨ r = .corrected) → (t.ctl.ev (.mem (ownerOf p.addr))).bits.getLsbD 1 = true) ∧
      (late = true → (t.ctl.ev (.yras (s.ctl.home k))).bits.getLsbD 14 = true) := by
  obtain ⟨d, read, run⟩ := exec_fastRead_made found part fresh r late tier inside
  obtain ⟨g, q, flight, stands, done, data, poison⟩ := read.holds part
  refine ⟨_, g, q, run, rfl, read.mem, State.fastEvents_objs .., flight, stands, done, ?length, ?clean, ?lost,
    State.fastEvents_corrected _ _, ?late⟩
  case length => rw [poison]; exact Dp.readUnits_length
  case clean =>
    intro read whole fenced sound aligned
    rw [data, poison, State.fastData_clean inside aligned whole fenced read sound]
    exact ⟨rfl, fun _ => List.eq_of_mem_replicate⟩
  case lost =>
    rintro rfl
    rw [poison, State.fastData_uncorrectable]
    exact ⟨fun _ => List.eq_of_mem_replicate, fun pos => State.fastEvents_poisoned _ _ (by omega)⟩
  case late =>
    rintro rfl
    exact State.fastEvents_late _ _

/-- A shed read delivers its units through its reader's key, or poison with its event (R172, R390; that a port held for another cause than its
loss delivers poison is the model's reading, log 32). -/
theorem shedRead_delivers (bad late : Bool) (tier : p.tier = .shed) (inside : s.ctl.shedIn p.addr p.bytes = true) :
    ∃ t g q, exec (.shedRead k id i bad late) s = .next t ∧ t.cfg = s.cfg ∧ t.dp.mem = s.dp.mem ∧ t.ctl.objs = s.ctl.objs ∧
      t.dp.flight? k id = some g ∧ g.parts[i]? = some q ∧ q.done = true ∧ q.poison.length = p.bytes / 64 ∧
      (bad = false → (s.ctl.port (p.addr / 2 ^ 44)).up = true → (s.ctl.port (p.addr / 2 ^ 44)).held = false → s.dp.unfenced = [] →
        (∀ n < p.bytes / 64, s.dp.poison.contains (shedKeyOf p.addr / 64 + n) = false) →
        q.data = (List.range (p.bytes / 64)).flatMap (fun n => s.dp.shedUnit (s.ctl.blockKey k f.stall) (p.addr / 64 + n)) ∧
          ∀ mark ∈ q.poison, mark = false) ∧
      ((bad = true ∨ (s.ctl.port (p.addr / 2 ^ 44)).up = false ∨ (s.ctl.port (p.addr / 2 ^ 44)).held = true) →
        (∀ mark ∈ q.poison, mark = true) ∧ (64 ≤ p.bytes → (t.ctl.ev (.mem (s.ctl.home k))).bits.getLsbD 6 = true)) ∧
      (late = true → (t.ctl.ev (.yras (s.ctl.home k))).bits.getLsbD 14 = true) := by
  obtain ⟨d, read, run⟩ := exec_shedRead_made found part fresh bad late tier inside
  obtain ⟨g, q, flight, stands, done, data, poison⟩ := read.holds part
  refine ⟨_, g, q, run, rfl, read.mem, State.shedEvents_objs .., flight, stands, done, ?length, ?clean, ?lost, ?late⟩
  case length => rw [poison]; exact Dp.readUnits_length
  case clean =>
    intro read up free fenced sound
    rw [data, poison, State.shedData_clean fenced read up free sound]
    exact ⟨rfl, fun _ => List.eq_of_mem_replicate⟩
  case lost =>
    intro lost
    rw [poison, State.shedData_lost lost]
    exact ⟨fun _ => List.eq_of_mem_replicate, fun pos => State.shedEvents_poisoned _ (by omega)⟩
  case late =>
    rintro rfl
    exact State.shedEvents_late _

end

/-- A record that passes its checks is expanded, and one that fails is poison and latched (R149, R182, R193). -/
theorem expanderBlock_delivers {s : State} {k : Yard} {id : Nat} {f : Flight} (bad : List Nat) (late : Bool)
    (found : s.dp.flight? k id = some f) (comp : f.entry.comp = true) (fresh : f.expanded = none) :
    ∃ t g out, exec (.expanderBlock k ⟨id, bad⟩ late) s = .next t ∧ t.cfg = s.cfg ∧ t.dp.mem = s.dp.mem ∧
      t.dp.poison = (s.dp.badUnits s.ctl f.entry.addr.toNat bad).poison ∧ (bad = [] → t.dp.poison = s.dp.poison) ∧
      t.dp.flight? k id = some g ∧ g.expanded = some out ∧
      (∀ bs, expand s.ctl (s.dp.badUnits s.ctl f.entry.addr.toNat bad) f.entry.addr.toNat f.entry.len = .inl bs →
        out = (bs, false) ∧ (late = false → t.ctl = s.ctl)) ∧
      (late = true → (t.ctl.ev (.yras (s.ctl.home k))).bits.getLsbD 14 = true) ∧
      ∀ x, expand s.ctl (s.dp.badUnits s.ctl f.entry.addr.toNat bad) f.entry.addr.toNat f.entry.len = .inr x → out.2 = true ∧
        ((t.ctl.yd (ownerOf f.entry.addr.toNat)).check (f.entry.addr.toNat / 2 ^ 37 % 2)).flag = true := by
  obtain ⟨e, run, mem, poison, flight⟩ := exec_expanderBlock_made bad late found comp fresh rfl rfl
  refine ⟨_, _, _, run, rfl, mem, poison, ?none, flight, rfl, ?passes, ?late, ?fails⟩
  case none =>
    rintro rfl
    exact poison
  case passes =>
    intro bs result
    rw [result]
    refine ⟨rfl, ?_⟩
    rintro rfl
    rfl
  case late =>
    rintro rfl
    exact Ctl.lateRead_late _ _ _ _
  case fails =>
    intro x result
    rw [result]
    refine ⟨rfl, ?_⟩
    rw [Ctl.lateRead_check]
    exact Ctl.expFail_flag _ _ _ _ _

/-! ### The number of a flight as a function on marks -/

/-- Flight 0 of yard 0, with one unit of the fast tier to read. -/
def flightZero : Flight :=
  { id := 0, yard := 0, issuer := 0, clusters := [0], cores := [0], parts := [⟨.fast, 0, 64, false, [], []⟩], stall := none, expanded := none
    entry := ⟨0#2, false, false, false, false, false, false, 0, true, 1, 0#16, .core, 0#8, 0#64⟩ }

/-- The device after reset, with flight 0 in the air. -/
def flightZeroFlies : State := { State.reset with dp := { Dp.reset with flights := [flightZero], nextFlight := 1 } }

/-- A number on marks is its parity, whatever the mark: 0 answers false. -/
theorem natCast_zero_mark : ((0 : Nat) : Bool → Bool) = fun _ => false := rfl

end Sys2Proof.Machine

open Sys2Proof Sys2Proof.Machine

/-- Refutes O45: in its clauses `id` is the number of the flight, so `q.poison.all id` applies that number, cast to a function `Bool → Bool`, to
each mark. An uncorrectable read of flight 0 delivers one mark, and the cast of 0 answers false to it. Read with the marks themselves, the clauses
hold: `fastRead_delivers`, `shedRead_delivers`, `expanderBlock_delivers`, `exec_fastRead_none`, `exec_shedRead_none`, `exec_fastRead_outside`,
`exec_shedRead_outside` and `exec_expanderBlock_none`. -/
theorem not_tierReadsDeliverDataOrPoison : ¬ Obligations.TierReadsDeliverDataOrPoison := by
  intro h
  obtain ⟨_, reads, _⟩ := h
  obtain ⟨fast, _⟩ := reads flightZeroFlies 0 0 0 flightZero ⟨.fast, 0, 64, false, [], []⟩ rfl rfl rfl
  obtain ⟨_, _, q, _, _, _, _, _, _, _, length, _, lost, _⟩ := fast .uncorrectable false rfl (by decide)
  obtain ⟨mark, one⟩ := List.length_eq_one_iff.mp length
  have all := (lost rfl).1
  rw [one, natCast_zero_mark] at all
  simp at all

end

section
/-! The end of a job (R280, R297, R301, R302): what it leaves of the images, and the jobs of a function by their handles. -/

namespace Sys2Proof.Machine

open Sys2Proof

/-! ### Records and endings leave the images -/

theorem foldl_images {α : Type} {f : Ctl → α → Ctl} (keeps : ∀ c x, (f c x).objs.images = c.objs.images) (c : Ctl) (l : List α) :
    (l.foldl f c).objs.images = c.objs.images := by
  induction l generalizing c with
  | nil => rfl
  | cons x l ih => exact (ih (f c x)).trans (keeps c x)

@[simp] theorem Ctl.translate_objs (c : Ctl) (n : BitVec 8) (pasid : Option (BitVec 20)) (addr len : Nat) :
    (c.translate n pasid addr len).objs = c.objs := by
  unfold Ctl.translate
  split
  · split <;> rfl
  · rfl

@[simp] theorem Ctl.hostWrite_objs (c : Ctl) (n : BitVec 8) (pasid : Option (BitVec 20)) (addr : Nat) (bs : List Byte) :
    (c.hostWrite n pasid addr bs).objs = c.objs := Ctl.translate_objs c n pasid addr bs.length

@[simp] theorem Ctl.deliver_images (c : Ctl) (n : BitVec 8) (r : Rec) : (c.deliver n r).objs.images = c.objs.images := by
  unfold Ctl.deliver
  split <;> rfl

@[simp] theorem Ctl.writeRec_images (c : Ctl) (f : Fn) (q : Fin 4) (r : Rec) (held : Bool) :
    (c.writeRec f q r held).objs.images = c.objs.images := by
  unfold Ctl.writeRec
  dsimp only
  split <;> simp [Ctl.pendVector]

@[simp] theorem Ctl.postFor_images (c : Ctl) (m : Cmd) (r : Rec) : (c.postFor m r).objs.images = c.objs.images := by
  unfold Ctl.postFor Ctl.post
  split
  · simp
  · split
    · rfl
    · split <;> simp

@[simp] theorem Ctl.decide_images (c : Ctl) (m : Cmd) (status : BitVec 16) (handle : Handle) (result : Nat) (tally : Option (Nat × Nat × Nat))
    (job : Option Nat) : (c.decide m status handle result tally job).objs.images = c.objs.images := by
  simp [Ctl.decide]

@[simp] theorem Ctl.settle_images (c : Ctl) (n : BitVec 8) : (c.settle n).objs.images = c.objs.images := by
  refine foldl_images (fun c w => ?_) c _
  split
  · split <;> simp
  · rfl

@[simp] theorem Ctl.setJob_images (c : Ctl) (j : Job) : (c.setJob j).objs.images = c.objs.images := rfl

@[simp] theorem Ctl.dropOps_images (c : Ctl) (j : Job) : (c.dropOps j).objs.images = c.objs.images :=
  foldl_images (fun c o => by simp [Ctl.finish]) c _

/-- A job that ends leaves the images. -/
@[simp] theorem Ctl.finishJob_images (c : Ctl) (j : Job) (status : BitVec 16) (handle : Handle) (result : Nat) :
    (c.finishJob j status handle result).objs.images = c.objs.images := by
  unfold Ctl.finishJob
  dsimp only
  split <;> simp

@[simp] theorem Ctl.dropActivate_images (c : Ctl) (j : Job) : (c.dropActivate j).objs.images = c.objs.images := by
  unfold Ctl.dropActivate
  split <;> rfl

/-- The activations of an image that end leave the images (R204). -/
@[simp] theorem Ctl.stopActivations_images (c : Ctl) (image : Nat) (status : BitVec 16) :
    (c.stopActivations image status).objs.images = c.objs.images :=
  foldl_images (fun c j => by simp) c _

/-! ### Events leave the objects -/

@[simp] theorem Ctl.setEv_objs (c : Ctl) (r : EvReg) (e : EventReg) : (c.setEv r e).objs = c.objs := by cases r <;> rfl

@[simp] theorem Ctl.raise_objs (c : Ctl) (cfg : Cfg) (r : EvReg) (bits : BitVec 16) : (c.raise cfg r bits).objs = c.objs := by
  by_cases pwr : r = .pwr
  · subst pwr
    obtain ⟨x, same, raised⟩ := raise_pwr c cfg bits
    rw [raised]
    exact same.objs
  · exact (raise_sameBut c cfg r bits pwr).objs.trans (c.setEv_objs r _)

@[simp] theorem Ctl.program_objs (c : Ctl) (cfg : Cfg) (n : Nat) : (c.program cfg n).objs = c.objs := by
  unfold Ctl.program
  dsimp only
  split <;> simp

/-! ### Images and jobs by their index -/

theorem Ctl.image?_of_images {a b : Ctl} (same : b.objs.images = a.objs.images) (ix : Nat) : b.image? ix = a.image? ix := by
  simp only [Ctl.image?, same]

theorem Ctl.image?_onImage {c : Ctl} {ix : Nat} {i : Image} (found : c.image? ix = some i) {f : Image → Image} (keeps : ∀ i, (f i).ix = i.ix) :
    (c.onImage ix f).image? ix = some (f i) := by
  have own : i.ix = ix := by simpa using List.find?_some found
  have index (x : Image) : (if x.ix = ix then f x else x).ix = x.ix := by split <;> simp [keeps]
  simp only [Ctl.image?, Ctl.onImage, Ctl.onObjs_objs, List.find?_map, Function.comp_def, index] at found ⊢
  simp [found, own]

/-- A member that takes the place of every one which a search finds is found in their place. -/
theorem find?_map_replaced {α : Type} {p : α → Bool} {a x : α} {l : List α} (found : l.find? p = some x) (own : p a = true) :
    (l.map fun y => if p y = true then a else y).find? p = some a := by
  have same : (p ∘ fun y => if p y = true then a else y) = p := by
    funext y
    by_cases h : p y = true <;> simp [h, own]
  rw [List.find?_map, same, found]
  simp [List.find?_some found]

/-- A job that takes the place of the one under its handle is found there. -/
theorem Ctl.job?_setJob {c : Ctl} {n : BitVec 8} {ix : Nat} {j k : Job} (found : c.job? n ix = some j) (cmd : k.cmd = j.cmd)
    (index : k.ix = j.ix) : (c.setJob k).job? n ix = some k := by
  obtain ⟨fn, own⟩ : j.cmd.fn = n ∧ j.ix = ix := by simpa using List.find?_some found
  simp only [Ctl.job?, Ctl.setJob, Ctl.onObjs_objs, cmd, index, fn, own] at found ⊢
  exact find?_map_replaced found (by simp [cmd, index, fn, own])

end Sys2Proof.Machine
end

section
/-! Steps of jobs that time brings (R48, R178, R201, R204, R209, R330): what each one does with the job that its handle names. -/

namespace Sys2Proof.Machine

open Sys2Proof

/-- A command of the controls answers by what becomes of them. -/
theorem next_withCtl {s : State} {a b : Ctl} (same : a = b) : (.next (s.withCtl a) : Host.Outcome State Fault Refusal) = .next (s.withCtl b) :=
  congrArg (fun c => Host.Outcome.next (s.withCtl c)) same

section
variable {c : Ctl} {n : BitVec 8} {h : Handle}

/-! ### Jobs that a step passes over -/

theorem Ctl.awaitSpaceResume_rests (rests : ∀ j, c.job? n (ixOf h) = some j → j.over = true ∨ j.st ≠ .waiting ∨ j.wait ≠ 3) :
    c.awaitSpaceResume n h = c := by
  unfold Ctl.awaitSpaceResume
  split
  next j found => simp [or_assoc, rests j found]
  · rfl

theorem execEpochLoaded_rests {s : State} (rests : ∀ j, s.ctl.job? n (ixOf h) = some j → j.over = true ∨ j.st = .suspended) (unread : Option Nat) :
    execEpochLoaded n ⟨h, unread⟩ s = .next s := by
  unfold execEpochLoaded
  split
  · rfl
  next j found =>
    split
    · split
      · rfl
      · simp [rests j found]
    · rfl

theorem Ctl.imageReady_rests (rests : ∀ j, c.job? n (ixOf h) = some j → j.over = true ∨ j.st = .suspended ∨ j.wait = 8) (cfg : Cfg)
    (data : InstallData) : c.imageReady cfg n h data = c := by
  unfold Ctl.imageReady
  split
  · rfl
  next j found =>
    split
    · simp [or_assoc, rests j found]
    · rfl

theorem Ctl.planLoadComplete_rests (rests : ∀ j, c.job? n (ixOf h) = some j → j.over = true ∨ j.st ≠ .running ∨ j.wait = 8) (cfg : Cfg)
    (data : HostRead (Option Plan)) : c.planLoadComplete cfg n h data = c := by
  unfold Ctl.planLoadComplete
  split
  · rfl
  next j found =>
    split
    · simp [or_assoc, rests j found]
    · rfl

/-! ### What a step does with its job -/

variable {s : State} {j : Job} (found : s.ctl.job? n (ixOf h) = some j)
include found

/-- An activation that waits for space is tried again (R201 step 2). -/
theorem exec_awaitSpaceResume_tries (running : j.over = false) (waiting : j.st = .waiting) (space : j.wait = 3) :
    exec (.awaitSpaceResume n h) s = .next (s.withCtl (s.ctl.allocActivate j false)) := by
  simp [exec, execAwaitSpaceResume, Ctl.awaitSpaceResume, found, running, waiting, space, State.withCtl]

section
variable {image num : Nat} {cutover tablesOnly ended : Bool} {base : Option (Nat × Nat)} {tables : List Byte} {e : Epoch}
  (kind : j.kind = .activate image cutover tablesOnly (some num) base tables false ended) (running : j.over = false) (st : j.st ≠ .suspended)
  (placed : s.ctl.epoch? image num = some e)
include kind running st placed

/-- An activation whose epoch is placed has it loaded (R201 step 3). -/
theorem exec_epochLoaded_loads : exec (.epochLoaded n ⟨h, none⟩) s = .next { s with
    dp := loadEpoch s.ctl s.dp e
    ctl := s.ctl.setJob { j with kind := .activate image cutover tablesOnly (some num) base tables true ended, progress := j.limit
                                 moved := s.ctl.hub.tick } } := by
  simp [exec, execEpochLoaded, found, kind, placed, running, st]

/-- A block that cannot be read damages the images that need it instead (R204, R209). -/
theorem exec_epochLoaded_damages (b : Nat) :
    exec (.epochLoaded n ⟨h, some b⟩) s = .next (s.withCtl (s.ctl.damageBlock s.cfg image (some b))) := by
  simp [exec, execEpochLoaded, found, kind, placed, running, st, State.withCtl]

end

end

/-! ### The judgement of an installation (R178 phases 5 to 7) -/

section
variable {c : Ctl} {n : BitVec 8} {h : Handle} {j : Job} {image handle : Nat} {manifest : List Byte} {mf : Manifest} {data : InstallData}
  (found : c.job? n (ixOf h) = some j) (kind : j.kind = .install image handle manifest) (running : j.over = false) (st : j.st ≠ .suspended)
  (linked : j.wait ≠ 8) (listed : (c.image? image).isSome = true) (read : manifestOf manifest = some mf)
include found kind running st linked listed read

theorem Ctl.imageReady_fails (cfg : Cfg) {status : BitVec 16} (fails : c.installFails mf manifest data = some status) :
    c.imageReady cfg n h data = (c.dropInstall image).finishJob j status 0#32 0 := by
  simp [Ctl.imageReady, found, kind, running, st, linked, Option.isSome_iff_ne_none.mp listed, read, fails]

/-- Where every check passes the image is READY, with what the coffer cannot deliver noted in it. -/
theorem Ctl.imageReady_readies (cfg : Cfg) (passes : c.installFails mf manifest data = none) :
    ∃ i, (c.imageReady cfg n h data).image? image = some i ∧ i.st = .ready ∧ i.without = c.cof.lost := by
  obtain ⟨i, stands⟩ := Option.isSome_iff_exists.mp listed
  have programmed (k : Nat) : (c.program cfg k).image? image = some i :=
    (Ctl.image?_of_images (congrArg Objs.images (c.program_objs cfg k)) image).trans stands
  simp only [Ctl.imageReady, found, kind, running, st, linked, stands, read, passes, Option.isNone_some, decide_false, Bool.or_false,
    Bool.false_eq_true, ↓reduceIte]
  refine ⟨_, (Ctl.image?_of_images (Ctl.finishJob_images ..) image).trans (Ctl.image?_onImage (programmed _) ?_), rfl, rfl⟩
  exact fun _ => rfl

end

/-! ### The end of a plan's load (R48) -/

/-- The plan of a name is replaced within a tick. -/
theorem Ctl.replacePlan_hub (c : Ctl) (name : BitVec 128) : (c.replacePlan name).hub = c.hub := by
  unfold Ctl.replacePlan
  split <;> rfl

section
variable {c : Ctl} {n : BitVec 8} {h : Handle} {j : Job} {name : BitVec 128} {length : Nat} {data : HostRead (Option Plan)}
  (found : c.job? n (ixOf h) = some j) (kind : j.kind = .planLoad name length) (unended : j.over = false) (running : j.st = .running)
  (linked : j.wait ≠ 8)
include found kind unended running linked

theorem Ctl.planLoadComplete_fails (cfg : Cfg) {status : BitVec 16} (fails : c.planLoaded? data = .inr status) :
    c.planLoadComplete cfg n h data = c.finishJob j status 0#32 0 := by
  simp [Ctl.planLoadComplete, found, kind, unended, running, linked, fails]

/-- A good plan finds no handle where its function's table is full. -/
theorem Ctl.planLoadComplete_noHandle (cfg : Cfg) {p : Plan} (good : c.planLoaded? data = .inl p)
    (full : ((c.replacePlan p.name).fn? n).bind (fun f => f.issueSelf .plan) = none) :
    c.planLoadComplete cfg n h data = (c.replacePlan p.name).finishJob j Status.noSpace 0#32 0 := by
  simp [Ctl.planLoadComplete, found, kind, unended, running, linked, good, full]

/-- A good plan takes the place of the one of its name, under a handle of its own. -/
theorem Ctl.planLoadComplete_places (cfg : Cfg) {p : Plan} {ix : Nat} {g : Fn} (good : c.planLoaded? data = .inl p)
    (issued : ((c.replacePlan p.name).fn? n).bind (fun f => f.issueSelf .plan) = some (ix, g)) :
    c.planLoadComplete cfg n h data = ((((c.replacePlan p.name).onFn n fun _ => g).onObjs fun o =>
        { o with plans := o.plans ++ [⟨ix, p, (((c.replacePlan p.name).objs.plans.map (·.order)).foldl max 0) + 1, false⟩] }).program cfg
      length).finishJob { j with progress := length, moved := c.hub.tick } Status.success (handleOf .plan ix) 0 := by
  simp [Ctl.planLoadComplete, found, kind, unended, running, linked, good, issued, Ctl.replacePlan_hub]

end

end Sys2Proof.Machine

open Sys2Proof Sys2Proof.Machine

/-- Settles O43: each step is one lemma about its own function, for the jobs that it passes over and for those that it advances. The model's
own choices in it: a completion during a link hold changes nothing (log 106), an unreadable block at a load damages the images that need it
(log 39), and the completions of a gone or suspended job change nothing (log 56). -/
theorem jobsAdvanceInTheirSteps : Obligations.JobsAdvanceInTheirSteps := by
  refine ⟨fun s fn h unread data plan resting => ?_, fun s fn h j data plan found held => ?_, fun s fn h j found => ⟨?_, ?_, ?_, ?_, ?_⟩⟩
  · have rests (j : Job) (found : s.ctl.job? fn (ixOf h) = some j) : j.over = true ∨ j.st = .suspended := by
      obtain gone | ⟨k, stands, rests⟩ := resting
      · simp [gone] at found
      · exact Option.some.inj (stands.symm.trans found) ▸ rests
    exact ⟨next_withCtl (Ctl.awaitSpaceResume_rests fun j found => (rests j found).imp_right fun st => .inl (by simp [st])),
      execEpochLoaded_rests rests unread,
      next_withCtl (Ctl.imageReady_rests (fun j found => (rests j found).imp_right .inl) _ _),
      next_withCtl (Ctl.planLoadComplete_rests (fun j found => (rests j found).imp_right fun st => .inl (by simp [st])) _ _)⟩
  · have linkHeld (k : Job) (same : s.ctl.job? fn (ixOf h) = some k) : k.wait = 8 := Option.some.inj (found.symm.trans same) ▸ held
    exact ⟨next_withCtl (Ctl.imageReady_rests (fun k same => .inr (.inr (linkHeld k same))) _ _),
      next_withCtl (Ctl.planLoadComplete_rests (fun k same => .inr (.inr (linkHeld k same))) _ _)⟩
  · exact exec_awaitSpaceResume_tries found
  · intro other
    refine next_withCtl (Ctl.awaitSpaceResume_rests fun k same => .inr ?_)
    exact Option.some.inj (found.symm.trans same) ▸ other
  · intro image num cutover tablesOnly ended base tables e kind unended st placed
    exact ⟨⟨_, _, exec_epochLoaded_loads found kind unended st placed, rfl, rfl, Ctl.job?_setJob found rfl rfl, rfl, rfl, rfl⟩,
      exec_epochLoaded_damages found kind unended st placed⟩
  · intro image handle manifest mf data kind unended st linked listed read
    exact ⟨_, rfl, rfl, rfl, Ctl.imageReady_readies found kind unended st linked listed read s.cfg,
      fun status => Ctl.imageReady_fails found kind unended st linked listed read s.cfg⟩
  · intro name length data kind unended running linked
    refine ⟨fun status fails => ?_, fun p r good replaced => ?_⟩
    · exact next_withCtl (Ctl.planLoadComplete_fails found kind unended running linked s.cfg fails)
    · subst replaced
      exact ⟨fun ix g issued => next_withCtl
          (Ctl.planLoadComplete_places found kind unended running linked s.cfg good issued),
        fun full => next_withCtl (Ctl.planLoadComplete_noHandle found kind unended running linked s.cfg good full)⟩

end

section
/-! Packets that the device fetches (R273, R278), jobs that it accepts for them (R280), and the commands on images (R178, R181, R200, R201). -/

namespace Sys2Proof.Machine

open Sys2Proof

/-! ### Packets that are fetched -/

theorem firstFail_eq_none_iff (l : List (Bool × BitVec 16)) : firstFail l = none ↔ ∀ x ∈ l, x.1 = true := by
  simp [firstFail]

@[simp] theorem cmdOf_fn (s : State) (p : Pkt) : (cmdOf s p).fn = p.fn := rfl

namespace Takes

variable {s : State} {p : Pkt} {f g : Fn} {d : Ctl} (taken : Takes s p f d g)
include taken

/-- A fetched packet of an opcode that every function may send, whose further checks pass, has its effect. -/
theorem runs {noSubject : Bool} {checks : Fn → List (Bool × BitVec 16)} {effect : Ctl → Fn → Cmd → Ctl}
    (subject : noSubject = true → p.subject = 0#32) (pass : ∀ x ∈ checks f, x.1 = true) :
    s.ctl.packet p .any noSubject checks effect = effect d g (cmdOf s p) := by
  obtain ⟨found, next, reserved, rfl, fetched⟩ := taken
  exact Ctl.packet_runs found next reserved rfl subject fetched ((firstFail_eq_none_iff _).mpr pass)

/-- The fetch leaves the objects that the function's handles name. -/
theorem object (k : ObjKind) (h : Handle) : g.object k h = f.object k h := by
  obtain ⟨found, -, -, rfl, fetched⟩ := taken
  rw [Ctl.fetch_fn? p.q found] at fetched
  rw [← Option.some.inj fetched, Fn.fetchedOne_object]

/-- The image that SUBJECT names is the same after the fetch. -/
theorem image {k : Nat} {i : Image} (names : f.object .image p.subject = some k) (listed : s.ctl.image? k = some i) :
    (g.object .image p.subject).bind d.image? = some i := by
  rw [taken.object, names]
  obtain ⟨-, -, -, rfl, -⟩ := taken
  exact (Ctl.image?_of_images (by simp) k).trans listed

/-- A packet that is fetched and whose function has a handle left for a job is accepted under it (R280). -/
theorem accepted {ix : Nat} {h : Fn} (issued : g.issueSelf .job = some (ix, h)) (m : Cmd) (own : m.fn = p.fn) (opcode : Nat) (subject : Handle)
    (kind : JobKind) (limit : Nat) (regions : List Handle) (isRequest : Bool) :
    (d.acceptJob m opcode subject kind limit regions isRequest).2 = some ix := by
  obtain ⟨-, -, -, -, fetched⟩ := taken
  simp [Ctl.acceptJob, own, fetched, issued]

end Takes

/-! ### Commands on images -/

section
variable {s : State} {p : Pkt} {f g h : Fn} {d a : Ctl} {ix : Nat} {j : Job} (taken : Takes s p f d g) (issued : g.issueSelf .job = some (ix, h))
  (job : a.job? p.fn ix = some j)
include taken issued job

theorem Ctl.imageInstall_accepted {manifest records scales : RegionRef} {scaleLen : Nat} {bs : List Byte} (subject : p.subject = 0#32)
    (live : f.regionLive manifest = true ∧ f.regionLive records = true ∧ f.regionLive scales = true)
    (suit : f.regionOk manifest none false = true ∧ f.regionOk records none false = true ∧ f.regionOk scales (some scaleLen) false = true)
    (accepts : a = (d.acceptJob (cmdOf s p) 0x40 0#32 (.install 0 0 bs) 0 [manifest.handle, records.handle, scales.handle] false).1) :
    s.ctl.imageInstall p manifest records scales scaleLen (.ok bs) =
      match a.manifestOk bs with
      | none => a.finishJob j Status.permission 0#32 0
      | some mf => match a.reserveImage p.fn mf (sha384 (bs.take mf.cover)) scaleLen with
        | .inr st => a.finishJob j st 0#32 0
        | .inl x => x.2.2.setJob { j with kind := .install x.1 x.2.1 bs, limit := mf.stored } := by
  subst accepts
  rw [Ctl.imageInstall, taken.runs (fun _ => subject) (by simp [live, suit])]
  simp only [readOr, taken.accepted issued (cmdOf s p) rfl, Option.bind_some, cmdOf_fn, job]
  cases Ctl.manifestOk _ bs with
  | none => rfl
  | some mf => dsimp only; cases Ctl.reserveImage _ p.fn mf (sha384 (bs.take mf.cover)) scaleLen <;> rfl

theorem Ctl.imageActivate_accepted {cutover tablesOnly : Bool} {scales : RegionRef} {scaleLen : Nat} {data : HostRead (List Byte)} {k : Nat}
    {i : Image} (names : f.object .image p.subject = some k) (listed : s.ctl.image? k = some i) (ready : i.st = .ready)
    (alone : s.ctl.activating i = false)
    (tables : if tablesOnly = true then f.regionLive scales = true ∧ f.regionOk scales (some scaleLen) false = true
      else scales.handle = 0#32 ∧ scales.off = 0 ∧ scaleLen = 0)
    (accepts : a = (d.acceptJob (cmdOf s p) 0x41 p.subject (.activate i.ix cutover tablesOnly none none [] false false)
      (if tablesOnly then scaleLen else i.stored) (if tablesOnly then [scales.handle] else []) false).1) :
    s.ctl.imageActivate p cutover tablesOnly scales scaleLen data =
      match a.activateStart i tablesOnly data with
      | .inr st => a.finishJob j st 0#32 0
      | .inl x => (a.setJob { j with kind := JobKind.activate i.ix cutover tablesOnly none x.1 x.2 false false }).allocActivate
          { j with kind := JobKind.activate i.ix cutover tablesOnly none x.1 x.2 false false } true := by
  subst accepts
  have unreserved : activatePkt p tablesOnly scales scaleLen = p := by
    cases tablesOnly with
    | true => simp [activatePkt]
    | false =>
      obtain ⟨handle, off, length⟩ := tables
      simp [activatePkt, handle, off, length]
  have pass : (!tablesOnly || f.regionLive scales) = true ∧ (!tablesOnly || f.regionOk scales (some scaleLen) false) = true := by
    cases tablesOnly with
    | true => exact tables
    | false => exact ⟨rfl, rfl⟩
  rw [Ctl.imageActivate, unreserved, taken.runs (by simp) (by simp [names, listed, ready, alone, pass])]
  simp only [taken.image names listed, taken.accepted issued (cmdOf s p) rfl, Option.bind_some, cmdOf_fn, job]
  cases Ctl.activateStart _ i tablesOnly data <;> rfl

end

theorem Ctl.imageRetire_retires {s : State} {p : Pkt} {f g : Fn} {d : Ctl} {k : Nat} {i : Image} (taken : Takes s p f d g)
    (names : f.object .image p.subject = some k) (listed : s.ctl.image? k = some i) (unused : ∀ x ∈ s.ctl.objs.images, x.base ≠ some i.ix)
    (st : i.st = .ready ∨ i.st = .damaged) :
    s.ctl.imageRetire p = ((d.onImage i.ix fun x => { x with st := .retiring }).stopActivations i.ix Status.badState).finish (cmdOf s p)
      Status.success 0#32 0 := by
  rw [Ctl.imageRetire, taken.runs (by simp) (by simpa [names, listed, st] using unused)]
  simp only [taken.image names listed]

end Sys2Proof.Machine

open Sys2Proof Sys2Proof.Machine

/-- Settles O15: each command is one lemma about its own function, on the packet that the device fetches. That the manifest and the space are
judged at acceptance is the model's choice (log 37), and so are the statuses of an activation's first step (log 39). -/
theorem imageCommandsAreAccepted : Obligations.ImageCommandsAreAccepted := by
  refine ⟨fun s p manifest records scales scaleLen bs f g h d a ix j taken subject live1 live2 live3 suit1 suit2 suit3 issued accepts job => ?_,
    fun s p cutover tablesOnly scales scaleLen data f g h d a k ix i j taken names listed ready alone tables issued accepts job => ?_,
    fun s p f g d k i taken names listed unused st => ?_⟩
  · exact next_withCtl (Ctl.imageInstall_accepted taken issued job subject ⟨live1, live2, live3⟩ ⟨suit1, suit2, suit3⟩ accepts)
  · exact next_withCtl (Ctl.imageActivate_accepted taken issued job names listed ready alone tables accepts)
  · exact next_withCtl (Ctl.imageRetire_retires taken names listed unused st)

end

section
/-! Restores of weights and of KV blocks (R206-R209, R232, R233): what a restore finds at an address, the copy that it takes, and what stands
after it. -/

namespace Sys2Proof.Machine

open Sys2Proof

/-! ### What events of a restore leave -/

/-- From `a` to `b` the coffer's register is the only part of it that changed, and no bit of the register fell. -/
structure CofferRaised (a b : Ctl) : Prop where
  cof : b.cof = { a.cof with event := b.cof.event }
  bits : ∀ i, (a.ev .cof).bits.getLsbD i = true → (b.ev .cof).bits.getLsbD i = true

namespace CofferRaised

theorem same {a b : Ctl} (h : b.cof = a.cof) : CofferRaised a b := ⟨by rw [h], fun i held => by simpa [Ctl.ev, h] using held⟩

theorem onYard (c : Ctl) (k : Yard) (f : Yd → Yd) : CofferRaised c (c.onYard k f) := same rfl

theorem trans {a b c : Ctl} (h : CofferRaised a b) (k : CofferRaised b c) : CofferRaised a c :=
  ⟨by rw [k.cof, h.cof], fun i held => k.bits i (h.bits i held)⟩

theorem raise (c : Ctl) (cfg : Cfg) (bits : BitVec 16) : CofferRaised c (c.raise cfg .cof bits) := by
  have event : (c.raise cfg .cof bits).cof = _ := (raise_sameBut c cfg .cof bits (by simp)).cof
  refine ⟨by rw [event]; rfl, fun i held => ?_⟩
  simp only [Ctl.ev, Ctl.setEv, Ctl.onCof_cof, event, EventReg.raise] at held ⊢
  simp [held]

end CofferRaised

/-- A bit that is raised in COF_EVENT stands there. -/
theorem raise_cof_bit (c : Ctl) (cfg : Cfg) {bits : BitVec 16} {i : Nat} (h : bits.getLsbD i = true) :
    ((c.raise cfg .cof bits).ev .cof).bits.getLsbD i = true := by
  simp [Ctl.ev, (raise_sameBut c cfg .cof bits (by simp)).cof, Ctl.setEv, EventReg.raise, h]

section
variable (c : Ctl) (cfg : Cfg) (image addr : Nat)

/-- The latch of a restore changes the coffer and what its event sets off. -/
theorem Ctl.latchRestore_sameBut : SameBut ((c.onCof fun k => { k with restore := k.restore.orElse fun _ => some (image, addr % 2 ^ 41) }).setEv .cof
    ((c.ev .cof).raise 1#16)) (c.latchRestore cfg image addr) := raise_sameBut _ cfg .cof 1#16 (by simp)

@[simp] theorem Ctl.latchRestore_objs : (c.latchRestore cfg image addr).objs = c.objs := (c.latchRestore_sameBut cfg image addr).objs

@[simp] theorem Ctl.latchRestore_sec : (c.latchRestore cfg image addr).sec = c.sec := (c.latchRestore_sameBut cfg image addr).sec

@[simp] theorem Ctl.latchRestore_yd (k : Yard) : (c.latchRestore cfg image addr).yd k = c.yd k := (c.latchRestore_sameBut cfg image addr).yd k

theorem Ctl.latchRestore_restore : (c.latchRestore cfg image addr).cof.restore = c.cof.restore.orElse fun _ => some (image, addr % 2 ^ 41) := by
  rw [(c.latchRestore_sameBut cfg image addr).cof]
  rfl

theorem Ctl.latchRestore_raises : ((c.latchRestore cfg image addr).ev .cof).bits.getLsbD 0 = true := raise_cof_bit _ cfg (by decide)

end

/-! ### The copy at an address -/

/-- Where the copies of weights stand is a matter of the objects alone. -/
theorem Ctl.weightAt_of_objs {a b : Ctl} (same : b.objs = a.objs) (image : Nat) (shed : Bool) (addr : Nat) :
    b.weightAt image shed addr = a.weightAt image shed addr := by
  cases a
  cases b
  cases same
  rfl

/-! ### Blocks that are rewritten (R206, R208) -/

/-- Room in a retirement pool is kept by its yard. -/
theorem Ctl.poolTake_cof {c d : Ctl} {k : Yard} {stack n dst : Nat} (taken : c.poolTake k stack n = some (dst, d)) : d.cof = c.cof := by
  unfold Ctl.poolTake at taken
  split at taken
  · cases taken
  · dsimp only at taken
    split at taken
    · cases taken
    · cases taken
      rfl

section
variable (s : State) (k : Yard) (x : Copy)

theorem restoreBlock_raises (again : Bool) : CofferRaised s.ctl (restoreBlock s k x again).ctl := by
  unfold restoreBlock
  dsimp only
  split
  · exact .same rfl
  · split
    next dst c taken =>
      exact ((CofferRaised.same (Ctl.poolTake_cof taken)).trans (.onYard c k _)).trans (.raise _ _ _)
    · exact .raise _ _ _

/-- The first failure at an address is rewritten in place. -/
theorem restoreBlock_first : (restoreBlock s k x false).dp = s.dp.putRecord s.ctl.sec.deviceKey x.shed x.addr x.bytes x.len := by
  simp [restoreBlock]

/-- A block of the fast tier that fails again is moved, or raises SPARE_LOW. -/
theorem restoreBlock_again (fast : x.shed = false) (unmoved : ∀ m ∈ (s.ctl.yd k).moved, m.1 ≠ x.addr) :
    ((restoreBlock s k x true).ctl.ev .cof).bits.getLsbD 1 = true ∨ ((restoreBlock s k x true).ctl.ev .cof).bits.getLsbD 3 = true := by
  have stays : ((s.ctl.yd k).moved.any fun m => m.1 = x.addr) = false := by simpa using unmoved
  unfold restoreBlock
  simp only [fast, stays, Bool.not_true, Bool.or_self, Bool.false_eq_true, ↓reduceIte]
  split
  · exact .inl (raise_cof_bit _ _ (by decide))
  · exact .inr (raise_cof_bit _ _ (by decide))

end

section
variable (s : State) (k : Yard) (shed : Bool) (addr image : Nat)

/-- The state in which a restore has noted its address among the yard's last 256. -/
def State.remembered : State := s.withCtl (s.ctl.onYard k fun y => { y with restored := (addr :: y.restored).take 256 })

theorem restoreWeight_none (none : s.ctl.weightAt image shed addr = none) : restoreWeight s k shed addr image = s.remembered k addr := by
  have noted : (s.remembered k addr).ctl.weightAt image shed addr = .none := (Ctl.weightAt_of_objs rfl ..).trans none
  unfold restoreWeight
  dsimp only
  split
  · rfl
  next e x stands => exact absurd (stands.symm.trans noted) (by simp)

/-- A copy that stands at the address is rewritten, and its addresses are no longer damaged. -/
theorem restoreWeight_some {e : Epoch} {x : Copy} (stands : s.ctl.weightAt image shed addr = some (e, x)) :
    ∃ y, restoreWeight s k shed addr image =
      { restoreBlock (s.remembered k addr) k x ((s.ctl.yd k).restored.contains addr) with
        ctl := (restoreBlock (s.remembered k addr) k x ((s.ctl.yd k).restored.contains addr)).ctl.onYard k y } := by
  have noted : (s.remembered k addr).ctl.weightAt image shed addr = some (e, x) := (Ctl.weightAt_of_objs rfl ..).trans stands
  unfold restoreWeight
  dsimp only
  split
  next none => exact absurd (none.symm.trans noted) (by simp)
  next e' x' found =>
    obtain ⟨rfl, rfl⟩ := Prod.mk.inj (Option.some.inj (found.symm.trans noted))
    exact ⟨_, rfl⟩

/-- A copy whose address is not among the last 256 is rewritten in place (R206). -/
theorem restoreWeight_first {e : Epoch} {x : Copy} (stands : s.ctl.weightAt image shed addr = some (e, x))
    (fresh : (s.ctl.yd k).restored.contains addr = false) :
    (restoreWeight s k shed addr image).dp = s.dp.putRecord s.ctl.sec.deviceKey x.shed x.addr x.bytes x.len := by
  obtain ⟨y, restored⟩ := restoreWeight_some s k shed addr image stands
  rw [restored, fresh]
  exact restoreBlock_first _ k x

/-- A block of the fast tier that fails again is moved, or raises SPARE_LOW (R208). -/
theorem restoreWeight_again {e : Epoch} {x : Copy} (stands : s.ctl.weightAt image shed addr = some (e, x))
    (known : (s.ctl.yd k).restored.contains addr = true) (fast : x.shed = false) (unmoved : ∀ m ∈ (s.ctl.yd k).moved, m.1 ≠ x.addr) :
    ((restoreWeight s k shed addr image).ctl.ev .cof).bits.getLsbD 1 = true ∨
      ((restoreWeight s k shed addr image).ctl.ev .cof).bits.getLsbD 3 = true := by
  obtain ⟨y, restored⟩ := restoreWeight_some s k shed addr image stands
  have noted : ((s.remembered k addr).ctl.yd k).moved = (s.ctl.yd k).moved := by simp [State.remembered, State.withCtl]
  rw [restored, known]
  exact restoreBlock_again _ k x fast (noted ▸ unmoved)

/-- A restore whose master copy is read latches it and rewrites the copy. -/
theorem exec_weightRestore_ok (running : s.ctl.hub.halted = false) : exec (.weightRestore k ⟨shed, addr⟩ image .ok) s =
    .next (restoreWeight (s.withCtl (s.ctl.latchRestore s.cfg image addr)) k shed addr image) := by
  simp only [exec, execWeightRestore, running, Bool.false_eq_true, ↓reduceIte, State.withCtl]

theorem restoreWeight_raises : CofferRaised s.ctl (restoreWeight s k shed addr image).ctl := by
  cases found : s.ctl.weightAt image shed addr with
  | none =>
    rw [restoreWeight_none s k shed addr image found]
    exact .same rfl
  | some x =>
    obtain ⟨y, restored⟩ := restoreWeight_some s k shed addr image found
    rw [restored]
    have noted : CofferRaised s.ctl (s.remembered k addr).ctl := .same rfl
    exact (noted.trans (restoreBlock_raises _ k x.2 _)).trans (.onYard _ k y)

end

/-! ### Images whose master copy cannot be read (R209) -/

theorem exec_weightRestore_unreadable {s : State} (running : s.ctl.hub.halted = false) (k : Yard) (shed : Bool) (addr image : Nat) :
    exec (.weightRestore k ⟨shed, addr⟩ image .unreadable) s = .next (s.withCtl ((s.ctl.latchRestore s.cfg image addr).damageBlock s.cfg image
      ((s.ctl.weightAt image shed addr).bind fun x => x.2.block))) := by
  have latched : (s.ctl.latchRestore s.cfg image addr).weightAt image shed addr = s.ctl.weightAt image shed addr :=
    Ctl.weightAt_of_objs (by simp) ..
  simp only [exec, execWeightRestore, running, Bool.false_eq_true, ↓reduceIte, latched, State.withCtl]

/-- No image of an index is in service. -/
def Ctl.withdrawn (c : Ctl) (image : Nat) : Prop := ∀ i ∈ c.objs.images, i.ix = image → i.st ≠ .ready ∧ i.st ≠ .retiring

section
variable {c : Ctl} {image : Nat}

theorem Ctl.damage_images (c : Ctl) (cfg : Cfg) (i : Image) : (c.damage cfg i).objs.images =
    if i.st ≠ .ready ∧ i.st ≠ .retiring then c.objs.images else c.objs.images.map fun x => if x.ix = i.ix then { x with st := .damaged } else x := by
  unfold Ctl.damage
  simp only [Bool.and_eq_true, decide_eq_true_eq]
  split
  · rfl
  · simp [Ctl.onImage]

/-- Damage to any image leaves a withdrawn one withdrawn. -/
theorem Ctl.damage_keeps (withdrawn : c.withdrawn image) (cfg : Cfg) (i : Image) : (c.damage cfg i).withdrawn image := by
  intro x mem own
  rw [Ctl.damage_images] at mem
  split at mem
  · exact withdrawn x mem own
  · obtain ⟨y, stood, rfl⟩ := List.mem_map.mp mem
    by_cases same : y.ix = i.ix
    · simp [same]
    · simp only [same, ↓reduceIte] at own ⊢
      exact withdrawn y stood own

/-- Damage to an image in service withdraws every image of its index. -/
theorem Ctl.damage_withdraws (c : Ctl) (cfg : Cfg) {i : Image} (served : ¬ (i.st ≠ .ready ∧ i.st ≠ .retiring)) : (c.damage cfg i).withdrawn i.ix := by
  intro x mem own
  rw [Ctl.damage_images, if_neg served] at mem
  obtain ⟨y, -, rfl⟩ := List.mem_map.mp mem
  by_cases same : y.ix = i.ix
  · simp [same]
  · simp [same] at own

theorem Ctl.damageAll_withdraws (cfg : Cfg) (is : List Image)
    (some : c.withdrawn image ∨ ∃ i ∈ is, i.ix = image ∧ ¬ (i.st ≠ .ready ∧ i.st ≠ .retiring)) :
    (is.foldl (fun c i => c.damage cfg i) c).withdrawn image := by
  induction is generalizing c with
  | nil => simpa using some
  | cons i is ih =>
    refine ih ?_
    obtain withdrawn | ⟨x, mem, own, served⟩ := some
    · exact .inl (Ctl.damage_keeps withdrawn cfg i)
    · obtain rfl | later := List.mem_cons.mp mem
      · exact .inl (own ▸ Ctl.damage_withdraws c cfg served)
      · exact .inr ⟨x, later, own, served⟩

/-- A block that cannot be read takes its image out of service. -/
theorem Ctl.damageBlock_withdraws (c : Ctl) (cfg : Cfg) (image : Nat) (block : Option Nat) : (c.damageBlock cfg image block).withdrawn image := by
  refine Ctl.damageAll_withdraws cfg _ ?_
  by_cases withdrawn : c.withdrawn image
  · exact .inl withdrawn
  · simp only [Ctl.withdrawn, not_forall] at withdrawn
    obtain ⟨i, mem, own, served⟩ := withdrawn
    exact .inr ⟨i, by simp [Ctl.damagedBy, mem, own], own, served⟩

end

/-! ### The keys of shed copies (R172) -/

theorem SameBut.fnKey {a b : Ctl} (h : SameBut a b) (n : BitVec 8) : b.fnKey n = a.fnKey n := by
  obtain ⟨d, p, rfl⟩ := h
  simp [Ctl.fnKey, Ctl.fn?, List.find?_map, Function.comp_def]

theorem SameBut.shadowKey {a b : Ctl} (h : SameBut a b) (addr : Nat) : b.shadowKey addr = a.shadowKey addr := by
  simp only [Ctl.shadowKey, h.fe, h.sec, h.fnKey]

/-! ### Copies of a KV block (R232, R233) -/

/-- The units of the copy that a restore of another takes, where it is good: the shadow for the fast copy and the mirror; for the shadow the
fast copy or, demoted, the mirror. -/
def kvSource (s : State) (p : Plan) (copy : KvCopy) (e : MapEntry) : Option (List Nat) :=
  let fromShed (addr : Nat) : Option (List Nat) := if goodShed s addr then some (s.ctl.shedUnits addr) else none
  match copy with
  | .fast => fromShed e.shadow
  | .shadow => if e.demoted then fromShed e.mirror
    else if goodFast s e.fast (p.blockBytes e.yard) then some (fastUnits e.fast (p.blockBytes e.yard)) else none
  | .mirror => fromShed e.shadow

/-- The units of the copy that is restored. -/
def kvTarget (s : State) (p : Plan) (copy : KvCopy) (e : MapEntry) : List Nat :=
  match copy with
  | .fast => fastUnits e.fast (p.blockBytes e.yard)
  | .shadow => s.ctl.shedUnits e.shadow
  | .mirror => s.ctl.shedUnits e.mirror

section
variable (c : Ctl) (cfg : Cfg) (k : Yard) (copy : KvCopy) (addr : Nat)

/-- The latch of a KV restore changes its yard and what its event sets off. -/
theorem Ctl.kvLatch_sameBut : SameBut ((c.onYard k fun y => { y with kvAddr := y.kvAddr.orElse fun _ => some (copy, addr) }).setEv (.kv k)
    (((c.onYard k fun y => { y with kvAddr := y.kvAddr.orElse fun _ => some (copy, addr) }).ev (.kv k)).raise 1#16))
    (c.kvLatch cfg k copy addr) := raise_sameBut _ cfg (.kv k) 1#16 (by simp)

@[simp] theorem Ctl.kvLatch_objs : (c.kvLatch cfg k copy addr).objs = c.objs := (c.kvLatch_sameBut cfg k copy addr).objs

@[simp] theorem Ctl.kvLatch_fe : (c.kvLatch cfg k copy addr).fe = c.fe := (c.kvLatch_sameBut cfg k copy addr).fe

@[simp] theorem Ctl.kvLatch_shadowKey (shadow : Nat) : (c.kvLatch cfg k copy addr).shadowKey shadow = c.shadowKey shadow :=
  (c.kvLatch_sameBut cfg k copy addr).shadowKey shadow

theorem Ctl.kvLatch_raises : ((c.kvLatch cfg k copy addr).ev (.kv k)).bits.getLsbD 0 = true := by
  simp [Ctl.ev, (c.kvLatch_sameBut cfg k copy addr).yd, Ctl.setEv, EventReg.raise]

end

@[simp] theorem Ctl.planMove_objs (c : Ctl) (p : Plan) (e : MapEntry) : (c.planMove p e).objs = c.objs := by
  unfold Ctl.planMove
  split <;> rfl

@[simp] theorem Ctl.planMove_yards (c : Ctl) (p : Plan) (e : MapEntry) : (c.planMove p e).yards = c.yards := by
  unfold Ctl.planMove
  split <;> rfl

/-- The controls once a copy of a block is restored: the block is held, and a fast copy's address is remembered, with a move where it was already. -/
def Ctl.kvRestored (c : Ctl) (cfg : Cfg) (p : Plan) (k : Yard) (copy : KvCopy) (addr : Nat) (e : MapEntry) : Ctl :=
  let d := (c.kvLatch cfg k copy addr).onBlock e.shadow fun y => { y with hold := true }
  match copy with
  | .fast => if (d.rememberKv k addr).1 then (d.rememberKv k addr).2.planMove p e else (d.rememberKv k addr).2
  | _ => d

section
variable {s : State} {p : Plan} (k : Yard) {copy : KvCopy} {addr : Nat} {e : MapEntry}

theorem restoreKv_absent (absent : s.ctl.plan? = none ∨ ∃ p, s.ctl.plan? = some p ∧ s.ctl.blockAt p copy addr = none) :
    restoreKv s k copy addr = s := by
  unfold restoreKv
  obtain none | ⟨p, plan, none⟩ := absent
  · simp [none]
  · simp [plan, none]

variable (plan : s.ctl.plan? = some p) (block : s.ctl.blockAt p copy addr = some e)
include plan block

/-- A restore of a copy of a block takes the good one, or finds the block lost. -/
theorem restoreKv_eq : restoreKv s k copy addr =
    match kvSource s p copy e with
    | none => s.withCtl ((s.ctl.kvLatch s.cfg k copy addr).kvLost s.cfg e)
    | some us => { s with
        dp := s.dp.copyUnits (s.ctl.shadowKey e.shadow) us (kvTarget s p copy e)
        ctl := s.ctl.kvRestored s.cfg p k copy addr e } := by
  have key (shadow : Nat) : ((s.ctl.kvLatch s.cfg k copy addr).onBlock e.shadow fun y => { y with hold := true }).shadowKey shadow =
      s.ctl.shadowKey shadow := s.ctl.kvLatch_shadowKey s.cfg k copy addr shadow
  have units (shed : Nat) : ((s.ctl.kvLatch s.cfg k copy addr).onBlock e.shadow fun y => { y with hold := true }).shedUnits shed =
      s.ctl.shedUnits shed := by
    simp [Ctl.shedUnits, Ctl.shedRuns, Ctl.onBlock]
  unfold restoreKv kvSource
  simp only [plan, block]
  cases copy with
  | fast => by_cases good : goodShed s e.shadow = true <;> simp only [good, key] <;> rfl
  | shadow =>
    cases demoted : e.demoted with
    | true => by_cases good : goodShed s e.mirror = true <;> simp only [good, key, units] <;> rfl
    | false => by_cases good : goodFast s e.fast (p.blockBytes e.yard) = true <;> simp only [good, key, units] <;> rfl
  | mirror => by_cases good : goodShed s e.shadow = true <;> simp only [good, key, units] <;> rfl

end

section
variable (c : Ctl) (cfg : Cfg) (p : Plan) (k : Yard) (copy : KvCopy) (addr : Nat) (e : MapEntry)

theorem Ctl.kvRestored_objs : (c.kvRestored cfg p k copy addr e).objs = (c.onBlock e.shadow fun y => { y with hold := true }).objs := by
  have held : ((c.kvLatch cfg k copy addr).onBlock e.shadow fun y => { y with hold := true }).objs =
      (c.onBlock e.shadow fun y => { y with hold := true }).objs := by
    simp [Ctl.onBlock]
  cases copy with
  | fast =>
    unfold Ctl.kvRestored
    dsimp only
    split <;> simp [Ctl.rememberKv, held]
  | shadow => exact held
  | mirror => exact held

theorem Ctl.kvRestored_yd : ((c.kvRestored cfg p k .fast addr e).yd k) = { (c.kvLatch cfg k .fast addr).yd k with
    kvRestored := (addr :: ((c.kvLatch cfg k .fast addr).yd k).kvRestored).take 256 } := by
  have remembered (d : Ctl) : (d.rememberKv k addr).2.yd k = { d.yd k with kvRestored := (addr :: (d.yd k).kvRestored).take 256 } :=
    Ctl.yd_onYard_same ..
  unfold Ctl.kvRestored
  dsimp only
  split
  · rw [Ctl.yd, Ctl.planMove_yards]
    exact remembered _
  · exact remembered _

theorem Ctl.kvRestored_raises : ((c.kvRestored cfg p k copy addr e).ev (.kv k)).bits.getLsbD 0 = true := by
  have raised := c.kvLatch_raises cfg k copy addr
  cases copy with
  | fast =>
    rw [Ctl.ev, Ctl.kvRestored_yd]
    exact raised
  | shadow => exact raised
  | mirror => exact raised

/-- The address of a fast copy that was restored stands among the last ones of its yard. -/
theorem Ctl.kvRestored_remembers : addr ∈ ((c.kvRestored cfg p k .fast addr e).yd k).kvRestored := by
  rw [Ctl.kvRestored_yd]
  simp

end

end Sys2Proof.Machine

open Sys2Proof Sys2Proof.Machine

/-- Settles O37: what a restore of weights and one of a KV block do is said once for the controls and once for the copy. That a unit is restored
at once, and moved within the step, is the model's reading (log 89); the 41 bits of the address that are latched are its choice (log 103). -/
theorem restoresUseTheGoodCopy : Obligations.RestoresUseTheGoodCopy := by
  intro s k running
  refine ⟨fun shed addr image => ?_, fun shed addr image => ?_, fun copy addr absent => ?_, fun p copy addr e src plan block source => ?_⟩
  · let u := s.withCtl (s.ctl.latchRestore s.cfg image addr)
    have latched : u.ctl.weightAt image shed addr = s.ctl.weightAt image shed addr := Ctl.weightAt_of_objs (s.ctl.latchRestore_objs ..) ..
    have raised : CofferRaised u.ctl (restoreWeight u k shed addr image).ctl := restoreWeight_raises u k shed addr image
    refine ⟨_, exec_weightRestore_ok s k shed addr image running, (restoreWeight_stands u k shed addr image).cfg,
      ?_, raised.bits 0 (s.ctl.latchRestore_raises s.cfg image addr), fun none => ?_, fun x stands => ?_⟩
    · rw [raised.cof]
      exact s.ctl.latchRestore_restore s.cfg image addr
    · rw [restoreWeight_none u k shed addr image (latched.trans none)]
      rfl
    · have found := latched.trans stands
      have yard : u.ctl.yd k = s.ctl.yd k := s.ctl.latchRestore_yd s.cfg image addr k
      have key : u.ctl.sec = s.ctl.sec := s.ctl.latchRestore_sec s.cfg image addr
      exact ⟨fun fresh => (restoreWeight_first u k shed addr image found (yard ▸ fresh)).trans (by rw [key]; rfl),
        fun known fast unmoved => restoreWeight_again u k shed addr image found (yard ▸ known) fast (yard ▸ unmoved)⟩
  · exact ⟨_, exec_weightRestore_unreadable running k shed addr image, rfl, rfl, rfl, Ctl.damageBlock_withdraws _ _ _ _⟩
  · simp [exec, execKvRestore, running, restoreKv_absent k absent]
  · have taken : kvSource s p copy e = src := source.symm ▸ by
      cases copy <;> cases demoted : e.demoted <;> simp [kvSource, demoted]
    have made : exec (.kvRestore k copy addr) s = .next (restoreKv s k copy addr) := by simp [exec, execKvRestore, running]
    rw [made, restoreKv_eq k plan block, taken]
    refine ⟨fun none => by rw [none], fun us good => ?_⟩
    rw [good]
    exact ⟨_, rfl, rfl, s.ctl.kvRestored_raises s.cfg p k copy addr e, rfl, s.ctl.kvRestored_objs s.cfg p k copy addr e,
      fun fast => fast ▸ s.ctl.kvRestored_remembers s.cfg p k addr e⟩

end

section
/-! Operations of the near-memory engines (R221-R224): what one that issues answers, the bytes that it writes and the events that it raises. -/

namespace Sys2Proof.Machine

open Sys2Proof

/-- The format of a descriptor's codes, where it is an integer format (R83, R213). -/
def kvIntFmt (x : KvDesc) : Option Fmt := if x.format = 8 then some .int8 else if x.format = 10 then some .uint8 else none

theorem kvIntFmt_some {x : KvDesc} {f : Fmt} (codes : x.format = 8 ∧ f = .int8 ∨ x.format = 10 ∧ f = .uint8) : kvIntFmt x = some f := by
  rcases codes with ⟨format, rfl⟩ | ⟨format, rfl⟩ <;> simp [kvIntFmt, format]

theorem kvIntFmt_none {x : KvDesc} (codes : x.format ≠ 8 ∧ x.format ≠ 10) : kvIntFmt x = none := by
  simp [kvIntFmt, codes]

/-- What an operation makes of the heads of its descriptor (R222, R223). -/
def State.nmaHeads (s : State) (o : NmaOp) (x : KvDesc) (f : Fmt) : List (Triple × List Word) :=
  let sh := kvShape x o.kvHead
  (List.range sh.heads).map (s.dp.nmaHeadOf (s.ctl.core o.core) o x f sh (s.ctl.nmaEntries s.dp o x sh).1
    ((s.ctl.nmaBlocks o).map fun e => (fun i => s.dp.mem.read (fastKey (e.addr + i)), e.count)))

/-- The entries of its mass record: those of a block stand together (R224). -/
def State.nmaMass (s : State) (o : NmaOp) (x : KvDesc) (f : Fmt) : List Word :=
  (List.range (s.ctl.nmaBlocks o).length).flatMap fun b => (s.nmaHeads o x f).map fun h => h.2.getD b 0#32

/-- The events behind an operation: the first poisoned or lost block that it attends, and a breach of its deadline (R63, R171). -/
def State.nmaEvents (s : State) (o : NmaOp) (x : KvDesc) : Ctl :=
  let c := match s.ctl.nmaBad s.dp o x with
    | [] => s.ctl
    | b :: _ => s.ctl.fastPoison s.cfg (s.ctl.badUnit s.dp b.addr x.blockBytes)
  c.lateRead s.cfg (s.ctl.home o.core.yard) 4 o.late

section

variable {s : State} {o : NmaOp} {x : KvDesc} {f : Fmt} (kind : Nat)

theorem exec_nma {c : Nat × Instr} (mem : c ∈ [(0, Instr.nmaLatent o), (1, Instr.nmaGqa o)]) : exec c.2 s = nmaOp c.1 o s := by
  simp only [List.mem_cons, List.not_mem_nil, or_false] at mem
  rcases mem with rfl | rfl <;> rfl

theorem nmaOp_early (early : s.ctl.issues o.core.yard o.core.cluster.val o.at0 = false) : nmaOp kind o s = .next s := by
  simp [nmaOp, early]

/-- An operation of a layer whose KV descriptor, if it has one, is in no integer format. -/
theorem nmaOp_noCodes (issues : s.ctl.issues o.core.yard o.core.cluster.val o.at0 = true)
    (other : ∀ x, s.ctl.kvDesc o.core.yard o.layer.toNat = some x → kvIntFmt x = none) : nmaOp kind o s = .fault .badFormat := by
  simp only [nmaOp, issues, Bool.not_true, Bool.false_eq_true, if_false]
  cases desc : s.ctl.kvDesc o.core.yard o.layer.toNat with
  | none => rfl
  | some x =>
    have codes := other x desc
    unfold kvIntFmt at codes
    simp only [codes]

/-- An operation that issues, of a layer in an integer format: it faults, or its triples are written, then its mass record, filled up with zeros. -/
theorem nmaOp_issued (issues : s.ctl.issues o.core.yard o.core.cluster.val o.at0 = true)
    (desc : s.ctl.kvDesc o.core.yard o.layer.toNat = some x) (codes : kvIntFmt x = some f) :
    ∃ d : Dp, d.mem = (s.dp.mem.writeN (coreKey (s.ctl.core o.core) o.triples) ((s.nmaHeads o x f).flatMap fun h => h.1.bytes)).writeN
        (coreKey (s.ctl.core o.core) o.mass) (wordBytes (s.nmaMass o x f) ++
          List.replicate (massBytes (kvShape x o.kvHead).heads (s.ctl.nmaBlocks o).length - 4 * (s.nmaMass o x f).length) 0#8) ∧
      nmaOp kind o s = if x.kind ≠ kind then .fault .badFormat else if !s.ctl.nmaFits o x then .fault .noSuchAddress
        else .next { s with dp := d, ctl := s.nmaEvents o x } := by
  unfold kvIntFmt at codes
  unfold nmaOp
  simp only [issues, desc, codes, Bool.not_true, Bool.false_eq_true, if_false]
  refine ⟨_, ?_, rfl⟩
  rw [Dp.retireInstr_mem]
  split
  · exact Dp.poisonRow_mem ..
  · exact Dp.poisonRow_mem ..

/-- An operation that attends no bad block and is not late raises nothing. -/
theorem State.nmaEvents_quiet (good : s.ctl.nmaBad s.dp o x = []) (intime : o.late = false) : s.nmaEvents o x = s.ctl := by
  simp [State.nmaEvents, Ctl.lateRead, good, intime]

/-- A late one has raised CONTRACT_BREACH in the yard that runs its layers. -/
theorem State.nmaEvents_late (late : o.late = true) :
    ((s.nmaEvents o x).ev (.yras (s.ctl.home o.core.yard))).bits.getLsbD 14 = true := by
  rw [State.nmaEvents, late]
  exact Ctl.lateRead_late ..

end

end Sys2Proof.Machine

open Sys2Proof Sys2Proof.Machine

/-- Settles O48: both commands are `nmaOp`, whose answer is `nmaOp_issued` where the layer has an integer format. The bytes of a head's triple are
those of `Dp.nmaHeadOf`, whose reading of the roundings, of s_c applied once and of slot 0's exp is log 46 (DEDUCED). -/
theorem nearMemoryEnginesComplete : Obligations.NearMemoryEnginesComplete := by
  intro s o
  refine ⟨fun early => ⟨nmaOp_early 0 early, nmaOp_early 1 early⟩, fun issues => ⟨fun x f desc codes c mem => ?_, fun other => ?_⟩⟩
  · obtain ⟨d, written, answer⟩ := nmaOp_issued c.1 issues desc (kvIntFmt_some codes)
    rw [exec_nma mem, answer]
    refine ⟨fun kind fits => ?_, fun kind unfit => by simp [kind, unfit], fun kind => if_pos kind⟩
    refine ⟨{ s with dp := d, ctl := s.nmaEvents o x }, s.ctl.core o.core, kvShape x o.kvHead, s.nmaHeads o x f, s.nmaMass o x f, ?_,
      rfl, rfl, rfl, rfl, rfl, written, State.nmaEvents_quiet, State.nmaEvents_late⟩
    simp [kind, fits]
  · have noCodes x desc := kvIntFmt_none (other x desc)
    exact ⟨nmaOp_noCodes 0 issues noCodes, nmaOp_noCodes 1 issues noCodes⟩

end

section
/-! Packets as bytes (R277, R285): the fields that every command of a packet carries, and the reserved bits that its opcode leaves. -/

namespace Sys2Proof.Machine

open Sys2Proof

theorem leNat_lt (bs : List Byte) (off n : Nat) : Bits.leNat bs off n < 256 ^ n := by
  induction n generalizing off with
  | zero => simp [Bits.leNat]
  | succ n ih =>
    have low := (bs.getD off 0#8).isLt
    have high := ih (off + 1)
    rw [Bits.leNat, Nat.pow_succ]
    omega

/-- A command of a packet's bytes carries the packet, on which an IMAGE_ACTIVATE may find further reserved bits (R10). -/
theorem pktCommand_packetOf {p : Pkt} {bs : List Byte} {h : HostData} {c : Instr} (spelled : pktCommand p bs h = some c) :
    ∃ more r, packetOf c = some ({ p with rsvd := p.rsvd || more }, r) := by
  have own : ({ p with rsvd := p.rsvd || false } : Pkt) = p := by simp
  unfold pktCommand at spelled
  dsimp only at spelled
  split at spelled <;> cases spelled
  case h_17 => exact ⟨_, _, rfl⟩ -- IMAGE_ACTIVATE, whose scale bytes are reserved without TABLES_ONLY
  all_goals exact ⟨false, _, congrArg (fun x => some (x, _)) own.symm⟩

/-- An opcode has a command exactly where the opcode table gives it parameter bytes. -/
theorem pktCommand_isSome (p : Pkt) (bs : List Byte) (h : HostData) (flag : Bool) :
    (pktCommand p bs h).isSome = (pktLayout (Bits.leNat bs 0 1) flag).isSome := by
  unfold pktCommand
  dsimp only
  generalize Bits.leNat bs 0 1 = opcode
  split
  case h_36 => simp_all [pktLayout]
  all_goals rfl

theorem packetCommand_eq_none_iff (fn : BitVec 8) (q : Fin 4) (bs : List Byte) (h : HostData) :
    packetCommand fn q bs h = none ↔ pktLayout (Bits.leNat bs 0 1) false = none := by
  cases layout : pktLayout (Bits.leNat bs 0 1) ((bs.getD 8 0#8).getLsbD 1) with
  | none =>
    have command := pktCommand_isSome ⟨fn, q, 0#16, false, 0#32, false⟩ bs h
    have same := (command false).symm.trans (command ((bs.getD 8 0#8).getLsbD 1))
    rw [layout] at same
    simp only [packetCommand, layout, Option.bind_none, true_iff]
    exact Option.isNone_iff_eq_none.mp (by simpa using same)
  | some l =>
    have command := pktCommand_isSome (pktOf fn q l bs) bs h false
    simp only [packetCommand, layout, Option.bind_some, ← Option.isSome_eq_false_iff, ← Option.isNone_iff_eq_none]
    rw [command]

/-- A byte that an opcode gives no meaning is reserved (R10). -/
theorem PktLayout.dirty_of_undefined {l : PktLayout} {bs : List Byte} {i : Nat} (inside : i < 64) (undefined : l.defined i = 0)
    (set : bs.getD i 0#8 ≠ 0#8) : l.dirty bs = true := by
  have value : (bs.getD i 0#8).toNat &&& 255 = (bs.getD i 0#8).toNat :=
    (Nat.and_two_pow_sub_one_eq_mod _ 8).trans (Nat.mod_eq_of_lt (bs.getD i 0#8).isLt)
  have nonzero : (bs.getD i 0#8).toNat ≠ 0 := fun zero => set (BitVec.eq_of_toNat_eq zero)
  simp only [PktLayout.dirty, List.any_eq_true, List.mem_range, decide_eq_true_eq]
  exact ⟨i, inside, by rwa [undefined, Nat.sub_zero, value]⟩

theorem packetCommand_fields {fn : BitVec 8} {q : Fin 4} {bs : List Byte} {h : HostData} {c : Instr}
    (spelled : packetCommand fn q bs h = some c) :
    ∃ p r l, packetOf c = some (p, r) ∧ pktLayout (Bits.leNat bs 0 1) ((bs.getD 8 0#8).getLsbD 1) = some l ∧ p.fn = fn ∧ p.q = q ∧
      p.tag.toNat = Bits.leNat bs 2 2 ∧ p.subject.toNat = Bits.leNat bs 4 4 ∧ p.irq = (bs.getD 1 0#8).getLsbD 0 ∧
      ∀ i < 64, l.defined i = 0 → bs.getD i 0#8 ≠ 0#8 → p.rsvd = true := by
  obtain ⟨l, layout, command⟩ := Option.bind_eq_some_iff.mp spelled
  obtain ⟨more, r, carries⟩ := pktCommand_packetOf command
  refine ⟨_, r, l, carries, layout, rfl, rfl, Nat.mod_eq_of_lt (leNat_lt bs 2 2), Nat.mod_eq_of_lt (leNat_lt bs 4 4), rfl, ?_⟩
  intro i inside undefined set
  simp [pktOf, PktLayout.dirty_of_undefined inside undefined set]

end Sys2Proof.Machine

open Sys2Proof Sys2Proof.Machine

/-- Settles O8: every command of a queue runs its packet (`exec_packet`), whose first checks are the three lemmas about `Ctl.packet`; the
bytes of a packet spell a command by `packetCommand_fields`. -/
theorem packetsPassTheFirstChecks : Obligations.PacketsPassTheFirstChecks := by
  refine ⟨fun fn q bs h => ⟨packetCommand_eq_none_iff fn q bs h, fun c spelled => packetCommand_fields spelled⟩, fun c p r s carries => ?_⟩
  obtain ⟨noSubject, checks, effect, runs⟩ := exec_packet s carries
  rw [runs]
  refine ⟨fun held => ?_, fun f found next => ⟨fun forbidden => ?_, fun holds reserved => ?_⟩⟩
  · exact next_withCtl (Ctl.packet_unfetched held)
  · exact next_withCtl (Ctl.packet_permission found next forbidden)
  · exact next_withCtl (Ctl.packet_reserved found next holds reserved)

end

section
/-! A function's queue after an operation on it, and a function's records as they are written or held (R274, R279, R302, R304). -/

namespace Sys2Proof.Machine

open Sys2Proof

/-! ### A queue of a function -/

/-- A function with one of its queues changed. -/
def Fn.withQueue (f : Fn) (q : Fin 4) (g : Queue → Queue) : Fn :=
  { f with queues := f.queues.mapIdx fun i y => if i = q.val then g y else y }

theorem Ctl.onQueue_eq (c : Ctl) (n : BitVec 8) (q : Fin 4) (g : Queue → Queue) : c.onQueue n q g = c.onFn n fun f => f.withQueue q g := rfl

@[simp] theorem Fn.withQueue_num (f : Fn) (q : Fin 4) (g : Queue → Queue) : (f.withQueue q g).num = f.num := rfl
@[simp] theorem Fn.withQueue_event (f : Fn) (q : Fin 4) (g : Queue → Queue) : (f.withQueue q g).event = f.event := rfl
@[simp] theorem Fn.withQueue_length (f : Fn) (q : Fin 4) (g : Queue → Queue) : (f.withQueue q g).queues.length = f.queues.length := by
  simp [Fn.withQueue]

/-- A function of four queues has the changed one in its place. -/
theorem Fn.queue_withQueue {f : Fn} (four : f.queues.length = 4) (q : Fin 4) (g : Queue → Queue) :
    (f.withQueue q g).queue q = g (f.queue q) := by
  have inside : q.val < f.queues.length := by omega
  simp [Fn.queue, Fn.withQueue, inside]

theorem Ctl.fn?_onQueue {c : Ctl} {n : BitVec 8} {f : Fn} (found : c.fn? n = some f) (q : Fin 4) (g : Queue → Queue) :
    (c.onQueue n q g).fn? n = some (f.withQueue q g) :=
  Ctl.fn?_onFn found _ fun _ => rfl

theorem Ctl.queueOf_found {c : Ctl} {n : BitVec 8} {f : Fn} (found : c.fn? n = some f) (q : Fin 4) : c.queueOf n q = f.queue q := by
  simp [Ctl.queueOf, found]

/-- A further change of the function that keeps its number and its queues leaves the changed queue. -/
theorem Ctl.queueOf_onQueue_onFn {c : Ctl} {n : BitVec 8} {f : Fn} (found : c.fn? n = some f) (four : f.queues.length = 4) (q : Fin 4)
    (g : Queue → Queue) {h : Fn → Fn} (num : ∀ x, (h x).num = x.num) (queues : ∀ x, (h x).queues = x.queues) :
    ((c.onQueue n q g).onFn n h).queueOf n q = g (f.queue q) := by
  rw [Ctl.queueOf_found (Ctl.fn?_onFn (Ctl.fn?_onQueue found q g) h num), Fn.queue, queues]
  exact Fn.queue_withQueue four q g

theorem Ctl.onFn_id (c : Ctl) (n : BitVec 8) : (c.onFn n fun f => f) = c := by simp [Ctl.onFn]

/-- The functions are found by their list alone. -/
theorem Ctl.fn?_of_fns {a b : Ctl} (same : b.fns = a.fns) (n : BitVec 8) : b.fn? n = a.fn? n := by
  simp only [Ctl.fn?, same]

/-! ### Writes into host memory -/

theorem Ctl.translate_eq (c : Ctl) (n : BitVec 8) (pasid : Option (BitVec 20)) (addr len : Nat) :
    c.translate n pasid addr len = { c with xlats := (c.translate n pasid addr len).xlats } := by
  unfold Ctl.translate
  split
  · split <;> rfl
  · rfl

@[simp] theorem Ctl.translate_fns (c : Ctl) (n : BitVec 8) (pasid : Option (BitVec 20)) (addr len : Nat) :
    (c.translate n pasid addr len).fns = c.fns := by rw [Ctl.translate_eq]
@[simp] theorem Ctl.translate_bus (c : Ctl) (n : BitVec 8) (pasid : Option (BitVec 20)) (addr len : Nat) :
    (c.translate n pasid addr len).bus = c.bus := by rw [Ctl.translate_eq]
@[simp] theorem Ctl.hostWrite_fns (c : Ctl) (n : BitVec 8) (pasid : Option (BitVec 20)) (addr : Nat) (bs : List Byte) :
    (c.hostWrite n pasid addr bs).fns = c.fns := Ctl.translate_fns c n pasid addr bs.length
@[simp] theorem Ctl.hostWrite_writes (c : Ctl) (n : BitVec 8) (pasid : Option (BitVec 20)) (addr : Nat) (bs : List Byte) :
    (c.hostWrite n pasid addr bs).bus.writes = ⟨n, pasid, addr, bs⟩ :: c.bus.writes := by simp [Ctl.hostWrite, Ctl.onBus]

theorem Ctl.fn?_hostWrite (c : Ctl) (n m : BitVec 8) (pasid : Option (BitVec 20)) (addr : Nat) (bs : List Byte) :
    (c.hostWrite n pasid addr bs).fn? m = c.fn? m := Ctl.fn?_of_fns (by simp) m

end Sys2Proof.Machine
end

section
/-! Completion records (R274, R279, R302). -/

namespace Sys2Proof.Machine

open Sys2Proof

/-! ### The bytes of a record (R279) -/

theorem leNat_append_right (a b : List Byte) (off n : Nat) : Bits.leNat (a ++ b) (a.length + off) n = Bits.leNat b off n := by
  induction n generalizing off with
  | zero => rfl
  | succ n ih => simp [Bits.leNat, Nat.add_assoc, ih, List.getElem?_append_right]

theorem leNat_toLe_append (x n : Nat) (rest : List Byte) : Bits.leNat (Bits.toLe x n ++ rest) 0 n = x % 256 ^ n := by
  induction n generalizing x with
  | zero => simp [Bits.leNat, Nat.mod_one]
  | succ n ih =>
    have tail : Bits.leNat (Bits.toLe x (n + 1) ++ rest) 1 n = Bits.leNat (Bits.toLe (x / 256) n ++ rest) 0 n :=
      leNat_append_right [BitVec.ofNat 8 x] _ 0 n
    rw [Bits.leNat, Nat.zero_add, tail, ih, Nat.pow_succ', Nat.mod_mul]
    simp [Bits.toLe]

/-- A number stands in a record behind the fields before it. -/
theorem leNat_field {front : List Byte} {off : Nat} (x n : Nat) (rest : List Byte) (place : front.length = off) :
    Bits.leNat (front ++ (Bits.toLe x n ++ rest)) off n = x % 256 ^ n := by
  subst place
  exact (leNat_append_right front _ 0 n).trans (leNat_toLe_append x n rest)

/-- The flags in byte 13 of a record: PHASE, HELD and the absence of a tally (R279). -/
def Rec.info (r : Rec) (phase held : Bool) : Nat := (if phase then 1 else 0) + (if held then 2 else 0) + (if r.tally.isNone then 4 else 0)

theorem Rec.info_lt (r : Rec) (phase held : Bool) : r.info phase held < 8 := by
  unfold Rec.info
  cases phase <;> cases held <;> cases r.tally.isNone <;> decide

/-- The bytes of a record field by field. -/
theorem recordOut_eq (r : Rec) (phase held : Bool) :
    recordOut r phase held = Bits.toLe r.tag.toNat 2 ++ (Bits.toLe r.status.toNat 2 ++ (Bits.toLe r.handle.toNat 4 ++ (Bits.toLe r.tick 5 ++
      (Bits.toLe (r.info phase held) 1 ++ (Bits.toLe (r.tally.getD (0, 0, 0)).1 6 ++ (Bits.toLe (r.tally.getD (0, 0, 0)).2.1 4 ++
        (Bits.toLe (min (r.tally.getD (0, 0, 0)).2.2 (2 ^ 48 - 1)) 6 ++ (Bits.toLe r.result 2 ++ [])))))))) := by
  simp only [recordOut, List.append_assoc, List.append_nil]
  rfl

theorem recordOut_length (r : Rec) (phase held : Bool) : (recordOut r phase held).length = 32 := by
  simp [recordOut_eq, toLe_length]

section
variable (r : Rec) (phase held : Bool)

theorem recordOut_tag : Bits.leNat (recordOut r phase held) 0 2 = r.tag.toNat := by
  rw [recordOut_eq, leNat_toLe_append]
  exact Nat.mod_eq_of_lt r.tag.isLt

theorem recordOut_status : Bits.leNat (recordOut r phase held) 2 2 = r.status.toNat := by
  rw [recordOut_eq, leNat_field _ _ _ (toLe_length _ _)]
  exact Nat.mod_eq_of_lt r.status.isLt

theorem recordOut_handle : Bits.leNat (recordOut r phase held) 4 4 = r.handle.toNat := by
  rw [recordOut_eq, ← List.append_assoc, leNat_field _ _ _ (by simp [toLe_length])]
  exact Nat.mod_eq_of_lt r.handle.isLt

theorem recordOut_tick : Bits.leNat (recordOut r phase held) 8 5 = r.tick % 2 ^ 40 := by
  rw [recordOut_eq, ← List.append_assoc, ← List.append_assoc, leNat_field _ _ _ (by simp [toLe_length])]
  rfl

theorem recordOut_info : Bits.leNat (recordOut r phase held) 13 1 = r.info phase held := by
  rw [recordOut_eq, ← List.append_assoc, ← List.append_assoc, ← List.append_assoc, leNat_field _ _ _ (by simp [toLe_length])]
  exact Nat.mod_eq_of_lt ((r.info_lt phase held).trans (by decide))

theorem recordOut_result : Bits.leNat (recordOut r phase held) 30 2 = r.result % 2 ^ 16 := by
  simp only [recordOut_eq, ← List.append_assoc]
  rw [List.append_assoc, leNat_field _ _ _ (by simp [toLe_length])]
  rfl

end

/-! ### Records that are written or held (R274, R302) -/

theorem Ctl.deliver_none {r : Rec} (own : r.job = none) (c : Ctl) (n : BitVec 8) : c.deliver n r = c := by
  simp [Ctl.deliver, own]

/-- A queue whose next completion slot is taken by a record. -/
def Queue.taking (y : Queue) (r : Rec) : Queue :=
  { y with cqTail := (y.cqTail + 1) % ringSize y.cqLog
           phase := if y.cqTail + 1 = ringSize y.cqLog then !y.phase else y.phase
           recent := (r :: y.recent).take (ringSize y.cqLog) }

section
variable {c : Ctl} {f : Fn} {q : Fin 4} {r : Rec} {held : Bool}

/-- A record of no job goes into host memory, and its queue's slot advances. -/
theorem Ctl.writeRec_eq (own : r.job = none) : ∃ v : Fn → NatSet, c.writeRec f q r held =
    ((c.hostWrite f.num (if (f.queue q).pasidEn then some (f.queue q).pasid else none) ((f.queue q).cqBase + 32 * (f.queue q).cqTail)
      (recordOut r (f.queue q).phase held)).onQueue f.num q fun y => y.taking r).onFn f.num fun g => { g with irqPending := v g } := by
  unfold Ctl.writeRec
  dsimp only
  rw [Ctl.deliver_none own]
  split
  · exact ⟨_, rfl⟩
  · exact ⟨Fn.irqPending, (Ctl.onFn_id _ f.num).symm⟩

theorem Ctl.writeRec_writes (own : r.job = none) : (c.writeRec f q r held).bus.writes =
    ⟨f.num, if (f.queue q).pasidEn then some (f.queue q).pasid else none, (f.queue q).cqBase + 32 * (f.queue q).cqTail,
      recordOut r (f.queue q).phase held⟩ :: c.bus.writes := by
  obtain ⟨v, written⟩ := Ctl.writeRec_eq (c := c) (f := f) (q := q) (held := held) own
  simp [written]

theorem Ctl.writeRec_queueOf (found : c.fn? f.num = some f) (four : f.queues.length = 4) (own : r.job = none) :
    (c.writeRec f q r held).queueOf f.num q = (f.queue q).taking r := by
  obtain ⟨v, written⟩ := Ctl.writeRec_eq (c := c) (f := f) (q := q) (held := held) own
  rw [written]
  exact Ctl.queueOf_onQueue_onFn ((Ctl.fn?_hostWrite ..).trans found) four q _ (fun _ => rfl) fun _ => rfl

theorem Ctl.post_writes (found : c.fn? f.num = some f) (opened : c.writerOpen f q = true) (empty : (f.queue q).held = []) :
    c.post f.num q r = c.writeRec f q r false := by
  simp [Ctl.post, found, opened, empty]

/-- A record that its queue's writer may not write goes behind those held. -/
theorem Ctl.post_holds (found : c.fn? f.num = some f) (shut : c.writerOpen f q = false ∨ (f.queue q).held ≠ []) :
    c.post f.num q r = (c.onQueue f.num q fun y => { y with held := y.held ++ [r], holdFull := y.holdFull || 1024 ≤ f.heldCount }).onFn f.num
      fun g => { g with unheld := if 1024 ≤ f.heldCount then g.unheld ++ [q] else g.unheld } := by
  have closed : (c.writerOpen f q && (f.queue q).held.isEmpty) = false := by
    rcases shut with shut | shut <;> simp [shut]
  simp [Ctl.post, found, closed]

theorem Ctl.post_held_queueOf (found : c.fn? f.num = some f) (four : f.queues.length = 4)
    (shut : c.writerOpen f q = false ∨ (f.queue q).held ≠ []) : ((c.post f.num q r).queueOf f.num q).held = (f.queue q).held ++ [r] := by
  rw [Ctl.post_holds found shut, Ctl.queueOf_onQueue_onFn found four] <;> exact fun _ => rfl

end

end Sys2Proof.Machine

open Sys2Proof Sys2Proof.Machine

/-- Settles O9: the fields stand at their offsets by `leNat_field`; a posted record is written by `Ctl.writeRec`, or held by
`Ctl.post_holds`. -/
theorem recordsAreWrittenOrHeld : Obligations.RecordsAreWrittenOrHeld := by
  refine ⟨fun r phase held => ⟨recordOut_length .., recordOut_tag .., recordOut_status .., recordOut_handle .., recordOut_tick ..,
    recordOut_info .., recordOut_result ..⟩, fun c f q r found four own => ⟨fun ⟨opened, empty⟩ => ?_, fun shut => ⟨?_, ?_⟩⟩⟩
  · have slot := Ctl.writeRec_queueOf (q := q) (held := false) found four own
    rw [Ctl.post_writes found opened empty]
    exact ⟨Ctl.writeRec_writes own, congrArg Queue.cqTail slot, congrArg Queue.phase slot⟩
  · rw [Ctl.post_holds found shut]
    rfl
  · exact Ctl.post_held_queueOf found four shut

end

section
/-! Packets that the device takes (R273, R278): the objects that its handles name after the fetch, and the jobs that it accepts (R280). -/

namespace Sys2Proof.Machine

open Sys2Proof

namespace Takes

variable {s : State} {p : Pkt} {f g : Fn} {d : Ctl} (taken : Takes s p f d g)
include taken

/-- A fetched packet whose right its function holds and whose further checks pass has its effect. -/
theorem runsWith {right : Right} (holds : s.ctl.holds f right = true) {noSubject : Bool} {checks : Fn → List (Bool × BitVec 16)}
    {effect : Ctl → Fn → Cmd → Ctl} (subject : noSubject = true → p.subject = 0#32) (pass : ∀ x ∈ checks f, x.1 = true) :
    s.ctl.packet p right noSubject checks effect = effect d g (cmdOf s p) := by
  obtain ⟨found, next, reserved, rfl, fetched⟩ := taken
  exact Ctl.packet_runs found next reserved holds subject fetched ((firstFail_eq_none_iff _).mpr pass)

/-- A fetched packet whose last check fails completes with its status. -/
theorem failsLast {noSubject : Bool} {checks : Fn → List (Bool × BitVec 16)} {effect : Ctl → Fn → Cmd → Ctl}
    (subject : noSubject = true → p.subject = 0#32) {front : List (Bool × BitVec 16)} {st : BitVec 16}
    (split : checks f = front ++ [(false, st)]) (pass : ∀ x ∈ front, x.1 = true) :
    s.ctl.packet p .any noSubject checks effect = d.finish (cmdOf s p) st 0#32 0 := by
  obtain ⟨found, next, reserved, rfl, -⟩ := taken
  have named : (!noSubject || decide (p.subject = 0#32)) = true := by cases noSubject <;> simp_all
  have passed : front.find? (fun x => !x.1) = none := by simpa using pass
  simp [Ctl.packet, found, next, firstFail, Ctl.holds, reserved, named, split, passed, cmdOf]

theorem fn_num : f.num = p.fn := Ctl.fn?_num taken.1
theorem num : g.num = p.fn := Ctl.fn?_num taken.2.2.2.2

theorem fetched : g = f.fetchedOne s.ctl.objs.orders p.q := by
  obtain ⟨found, -, -, rfl, fetched⟩ := taken
  exact Option.some.inj (fetched.symm.trans (Ctl.fetch_fn? p.q found))

theorem objs : d.objs = { s.ctl.objs with orders := s.ctl.objs.orders + 1 } := by
  obtain ⟨-, -, -, rfl, -⟩ := taken
  exact Ctl.fetch_objs ..

theorem hub : d.hub = s.ctl.hub := by
  obtain ⟨-, -, -, rfl, -⟩ := taken
  exact Ctl.fetch_hub ..

/-- The fetch leaves the sessions, the graphs and the jobs. -/
theorem session? (n : BitVec 8) (ix : Nat) : d.session? n ix = s.ctl.session? n ix := by simp only [Ctl.session?, taken.objs]

theorem sessionAt (h : Handle) : d.sessionAt g h = s.ctl.sessionAt f h := by
  simp only [Ctl.sessionAt, taken.object, taken.num, taken.fn_num, taken.session?]

theorem graphAt (h : Handle) : d.graphAt g h = s.ctl.graphAt f h := by
  simp only [Ctl.graphAt, taken.object, taken.num, taken.fn_num, taken.objs]

theorem job? (n : BitVec 8) (ix : Nat) : d.job? n ix = s.ctl.job? n ix := by simp only [Ctl.job?, taken.objs]

theorem isMgmt (n : BitVec 8) : d.isMgmt n = s.ctl.isMgmt n := by
  unfold Ctl.isMgmt Ctl.mgmt
  rw [taken.hub]

/-- A function whose packet is fetched is active. -/
theorem active : f.st = .active := by
  obtain ⟨-, next, -, -, -⟩ := taken
  simp only [Ctl.fetchable, Ctl.mayFetch, Bool.and_eq_true, decide_eq_true_eq] at next
  tauto

end Takes

/-! ### Jobs that are accepted (R280) -/

/-- What every step of a fold keeps stands after it. -/
theorem foldl_keeps {α β γ : Type} {f : β → α → β} {v : β → γ} (keeps : ∀ b a, v (f b a) = v b) (b : β) (l : List α) :
    v (l.foldl f b) = v b := by
  induction l generalizing b with
  | nil => rfl
  | cons a l ih => exact (ih (f b a)).trans (keeps b a)

theorem Ctl.writeRec_objs {r : Rec} (own : r.job = none) (c : Ctl) (f : Fn) (q : Fin 4) (held : Bool) :
    (c.writeRec f q r held).objs = c.objs := by
  obtain ⟨v, written⟩ := Ctl.writeRec_eq (c := c) (f := f) (q := q) (held := held) own
  simp [written]

/-- A record of no job leaves the objects, whether it is written, held or dropped (R282). -/
theorem Ctl.postFor_objs {r : Rec} (own : r.job = none) (c : Ctl) (m : Cmd) : (c.postFor m r).objs = c.objs := by
  unfold Ctl.postFor Ctl.post
  split
  · rw [Ctl.deliver_none own]
  · split
    · rfl
    · split
      · exact Ctl.writeRec_objs own ..
      · rfl

theorem Ctl.decide_objs (c : Ctl) (m : Cmd) (status : BitVec 16) (handle : Handle) (result : Nat) (tally : Option (Nat × Nat × Nat)) :
    (c.decide m status handle result tally none).objs = c.objs := by
  unfold Ctl.decide
  rw [Ctl.postFor_objs rfl]
  rfl

/-- Fences that complete leave the jobs (R301). -/
@[simp] theorem Ctl.settle_jobs (c : Ctl) (n : BitVec 8) : (c.settle n).objs.jobs = c.objs.jobs := by
  refine foldl_keeps (v := fun c => c.objs.jobs) (fun c w => ?_) c _
  split
  · split
    · rw [Ctl.decide_objs]
      rfl
    · rfl
  · rfl

/-- An interim record leaves the jobs. -/
theorem Ctl.interim_jobs (c : Ctl) (m : Cmd) (status : BitVec 16) (ix : Nat) : (c.interim m status ix).objs.jobs = c.objs.jobs := by
  unfold Ctl.interim
  dsimp only
  split
  · rw [Ctl.settle_jobs, Ctl.onFn_objs, Ctl.postFor_objs rfl]
  · rw [Ctl.postFor_objs rfl]

theorem Ctl.acceptJob_takes {c : Ctl} {m : Cmd} {f g : Fn} {ix : Nat} (found : c.fn? m.fn = some f) (issued : f.issueSelf .job = some (ix, g))
    (opcode : Nat) (subject : Handle) (kind : JobKind) (limit : Nat) (regions : List Handle) (isRequest : Bool) :
    (c.acceptJob m opcode subject kind limit regions isRequest).2 = some ix ∧
    (c.acceptJob m opcode subject kind limit regions isRequest).1.objs.jobs =
      c.objs.jobs ++ [Job.fresh m ix opcode c.hub.tick subject kind limit regions isRequest false] := by
  simp [Ctl.acceptJob, found, issued, Ctl.interim_jobs]

end Sys2Proof.Machine
end

section
/-! Commands on sessions (R285, R286, R290-R294). -/

namespace Sys2Proof.Machine

open Sys2Proof

section
variable {s : State} {p : Pkt} {f g h : Fn} {d : Ctl} {x : Session} {ix : Nat}

/-! ### SESSION_OPEN (R286) -/

theorem Ctl.sessionOpen_waits {name : BitVec 128} {adapter : Handle} {ring : RegionRef} {entries budget : Nat} {width : Byte} {e : Epoch}
    {i : Image} (taken : Takes s p f d g) (subject : p.subject = 0#32)
    (suits : adapter = 0#32 ∨ (f.object .adapter adapter).isSome = true) (live : f.regionLive ring = true)
    (sizes : ringEntriesOk entries = true ∧ budgetOk budget = true ∧ width.toNat ∈ [0, 1, 2, 4, 8] ∧ f.ringOk ring entries = true)
    (current : s.ctl.currentEpoch (s.ctl.versions p.fn name) = some e) (listed : s.ctl.image? e.image = some i)
    (tuned : s.ctl.adapterSuits f adapter (some i) = true) (healthy : i.st ≠ .damaged) (planned : s.ctl.planNames i = true)
    (issued : g.issueSelf .session = some (ix, h)) :
    s.ctl.sessionOpen p name adapter ring entries budget width = (d.onFn p.fn fun _ => h).onObjs fun o =>
      { o with waiting := o.waiting ++ [⟨cmdOf s p, .open name adapter ring entries budget width.toNat ix⟩] } := by
  obtain ⟨entriesOk, budgetOk, widthOk, ringOk⟩ := sizes
  have resolved : s.ctl.openState p.fn name = [(true, Status.imageDamaged), (true, Status.badState)] := by
    simp [Ctl.openState, current, listed, healthy, planned]
  rw [Ctl.sessionOpen, taken.runs (fun _ => subject)
    (by simpa [suits, live, entriesOk, budgetOk, ringOk, current, listed, tuned, resolved] using widthOk)]
  simp only [issued, taken.num]

/-- A waiting SESSION_OPEN whose name has a healthy epoch that the plan names is bound (R286). -/
theorem Ctl.bindOpen_binds {c : Ctl} {m : Cmd} {name : BitVec 128} {e : Epoch} {i : Image}
    (current : c.currentEpoch (c.versions m.fn name) = some e) (listed : c.image? e.image = some i) (healthy : i.st ≠ .damaged)
    (planned : c.planNames i = true) (adapter : Handle) (ring : RegionRef) (entries budget width ix : Nat) :
    c.bindOpen ⟨m, .open name adapter ring entries budget width ix⟩ =
      (((c.dropWaiting m.order).onObjs fun o =>
          { o with sessions := o.sessions ++ [Session.fresh m ix e adapter ring entries budget width] }).useAdapter m.fn adapter
        (· + 1)).finish m Status.success (handleOf .session ix) 0 := by
  simp [Ctl.bindOpen, current, listed, healthy, planned]

/-! ### Appends and generations (R285, R293) -/

theorem Ctl.sessionAppend_accepted {tokens : RegionRef} {count : Nat} (takenFor : TakesFor s p f d g x) (live : f.regionLive tokens = true)
    (counted : 1 ≤ count ∧ count < 2 ^ 32 ∧ tokens.off % 4 = 0) (suits : f.regionOk tokens (some (4 * count)) false = true)
    (room : x.commands.length < 17) (issued : g.issueSelf .job = some (ix, h)) (noPrefix : Bool) (ts : List Word) :
    s.ctl.sessionAppend p tokens count noPrefix (.ok ts) = (d.acceptJob (cmdOf s p) 0x11 p.subject
      (.append (ts.take count) 0 0 none noPrefix false false) count [tokens.handle] true).1.enqueue (cmdOf s p) ix p.subject := by
  obtain ⟨taken, named, running, opened⟩ := takenFor
  obtain ⟨atLeast, atMost, aligned⟩ := counted
  rw [Ctl.sessionAppend, taken.runs (by simp) (by
    simpa [named, live, Ctl.sessionState, running, opened, Ctl.sessionRoom, room, aligned, suits, atLeast] using atMost)]
  simp only [taken.accepted issued (cmdOf s p) rfl, readOr]

theorem Ctl.sessionGenerate_accepted {maxTokens topK nstop : Nat} {temperature topP : Word} (takenFor : TakesFor s p f d g x)
    (limits : 1 ≤ maxTokens ∧ topK ≤ 1024 ∧ nstop ≤ 8) (sampling : samplingOk temperature topP = true) (token : s.ctl.hasToken x = true)
    (room : x.commands.length < 17) (issued : g.issueSelf .job = some (ix, h)) (stops : List Word) (seed : Word) :
    s.ctl.sessionGenerate p maxTokens temperature topP topK nstop stops seed = (d.acceptJob (cmdOf s p) 0x12 p.subject
      (.generate maxTokens temperature topP topK (stops.take nstop) seed 0) maxTokens [] true).1.enqueue (cmdOf s p) ix p.subject := by
  obtain ⟨taken, named, running, opened⟩ := takenFor
  obtain ⟨atLeast, ranked, stopped⟩ := limits
  rw [Ctl.sessionGenerate, taken.runs (by simp) (by
    simp [named, Ctl.sessionLive, Ctl.sessionState, running, opened, Ctl.sessionRoom, room, atLeast, sampling, ranked, stopped, token])]
  simp only [taken.accepted issued (cmdOf s p) rfl]

/-! ### Fork and close (R291-R293) -/

theorem Ctl.sessionFork_taken {ring : RegionRef} {entries : Nat} (takenFor : TakesFor s p f d g x)
    (parent : s.ctl.session? p.fn (ixOf p.subject) = some x) (live : f.regionLive ring = true)
    (sizes : ringEntriesOk entries = true ∧ f.ringOk ring entries = true) (rests : s.ctl.sessionRuns x = false) (room : x.commands.length < 17)
    (issued : g.issueSelf .session = some (ix, h)) :
    s.ctl.sessionFork p ring entries = (((d.onFn p.fn fun _ => h).setSession { x with commands := x.commands ++ [s.ctl.objs.orders] }).onObjs
      fun o => { o with waiting := o.waiting ++ [⟨cmdOf s p, .fork p.subject ring entries ix⟩] }).tryFork
        ⟨cmdOf s p, .fork p.subject ring entries ix⟩ := by
  obtain ⟨taken, named, running, opened⟩ := takenFor
  obtain ⟨entriesOk, ringOk⟩ := sizes
  rw [Ctl.sessionFork, taken.runs (by simp) (by
    simp [named, live, entriesOk, ringOk, Ctl.sessionState, running, opened, rests, Ctl.sessionRoom, room])]
  simp only [issued, taken.num, taken.session?, parent]
  rfl

theorem Ctl.sessionClose_taken (taken : Takes s p f d g) (named : s.ctl.sessionAt f p.subject = some x) (opened : x.closing = none) :
    s.ctl.sessionClose p = if x.ended.isSome = true ∧ x.map = [] ∧ x.inflight = 0
      then (d.removeSession x).finish (cmdOf s p) Status.success 0#32 0
      else (d.setSession { x with closing := some (cmdOf s p) }).endCommands x (x.ended.getD Status.cancelled) := by
  rw [Ctl.sessionClose, taken.runs (by simp) (by simp [Ctl.sessionLive, named, opened])]
  simp only [taken.sessionAt, named, Bool.and_eq_true, List.isEmpty_iff, decide_eq_true_eq, and_assoc]

/-! ### Pins (R294) -/

theorem Ctl.prefixPins_counts {tokens : RegionRef} {count : Nat} (takenFor : TakesFor s p f d g x) (live : f.regionLive tokens = true)
    (suits : f.regionOk tokens (some (4 * count)) false = true) (ts : List Word) (pin : Bool) :
    s.ctl.prefixPins p tokens count (.ok ts) pin =
      (d.pinChain (d.chain x none (ts.take count) (count / 64 + 1)) pin).2.finish (cmdOf s p) Status.success
        (BitVec.ofNat 32 (d.pinChain (d.chain x none (ts.take count) (count / 64 + 1)) pin).1) 0 := by
  obtain ⟨taken, named, running, opened⟩ := takenFor
  rw [Ctl.prefixPins, taken.runs (by simp) (by simp [named, live, suits, Ctl.sessionState, running, opened])]
  simp only [taken.sessionAt, named]

end

end Sys2Proof.Machine

open Sys2Proof Sys2Proof.Machine

/-- Settles O10: the packet whose checks pass takes its handle at the fetch, where the ring's bound in bytes is judged too (log 49, DEDUCED),
and `Ctl.bindOpen` binds it at the bell. -/
theorem sessionOpenWaitsAndBinds : Obligations.SessionOpenWaitsAndBinds := by
  refine ⟨?_, fun c m name adapter ring entries budget width ix e i current listed healthy planned =>
    Ctl.bindOpen_binds current listed healthy planned ..⟩
  intro s p name adapter ring entries budget width f g h d e i ix taken subject suits live entriesOk budgetOk widthOk ringOk current listed
    tuned healthy planned issued
  exact next_withCtl (Ctl.sessionOpen_waits taken subject suits live ⟨entriesOk, budgetOk, widthOk, ringOk⟩ current listed tuned healthy
    planned issued)

/-- Settles O11: acceptance is `Ctl.acceptJob_takes`. That an append stores the tokens read at its acceptance is the model's choice (log 50). -/
theorem sessionWorkIsAccepted : Obligations.SessionWorkIsAccepted := by
  refine ⟨fun c m opcode subject kind limit regions req f g ix found issued => Ctl.acceptJob_takes found issued .., ?_, ?_⟩
  · intro s p tokens count noPrefix ts f g h d x ix taken live atLeast atMost aligned suits room issued
    exact next_withCtl (Ctl.sessionAppend_accepted taken live ⟨atLeast, atMost, aligned⟩ suits room issued noPrefix ts)
  · intro s p maxTokens temperature topP topK nstop stops seed f g h d x ix taken atLeast sampling ranked stopped token room issued
    exact next_withCtl (Ctl.sessionGenerate_accepted taken ⟨atLeast, ranked, stopped⟩ sampling token room issued stops seed)

/-- Settles O12: each command is one lemma about its own function. The counts of pins are R294's and R239's, the close of a live session R293's;
the early end of its commands (log 88) and the fork that waits (log 45) are DEDUCED. -/
theorem sessionsForkCloseAndPin : Obligations.SessionsForkCloseAndPin := by
  refine ⟨?_, ?_, ?_⟩
  · intro s p ring entries f g h d x ix taken parent live entriesOk ringOk rests room issued
    exact next_withCtl (Ctl.sessionFork_taken taken parent live ⟨entriesOk, ringOk⟩ rests room issued)
  · intro s p f g d x taken named opened
    exact next_withCtl (Ctl.sessionClose_taken taken named opened)
  · intro s p tokens count ts f g d x taken live suits
    exact ⟨next_withCtl (Ctl.prefixPins_counts taken live suits ts true), next_withCtl (Ctl.prefixPins_counts taken live suits ts false)⟩

end

section
/-! Commands on graphs (R296, R369). -/

namespace Sys2Proof.Machine

open Sys2Proof

section
variable {s : State} {p : Pkt} {f g h : Fn} {d : Ctl} {gr : Graph} {v : GraphVer} {ix : Nat}

theorem Ctl.graphStore_taken {region : RegionRef} {length : Nat} (taken : Takes s p f d g) (subject : p.subject = 0#32)
    (live : f.regionLive region = true) (suits : f.graphRegionOk region length = true) (issued : g.issueSelf .graph = some (ix, h))
    (b : GraphBody) :
    s.ctl.graphStore p region length (.ok (some b)) =
      if d.signed 1 b.body b.sig = false then d.finish (cmdOf s p) Status.permission 0#32 0
      else if d.planLoaded b.plan = false then d.finish (cmdOf s p) Status.badParameter 0#32 0
      else ((d.onFn p.fn fun _ => h).onObjs fun o => { o with graphs := o.graphs ++ [⟨p.fn, ix, [⟨1, b, 0⟩], false⟩] }).finish
        (cmdOf s p) Status.success (handleOf .graph ix) 0 := by
  rw [Ctl.graphStore, taken.runs (fun _ => subject) (by simp [live, suits])]
  cases signed : d.signed 1 b.body b.sig <;> cases loaded : d.planLoaded b.plan <;>
    simp [Ctl.graphFails, signed, loaded, issued, taken.num]

theorem Ctl.graphPatch_taken {region : RegionRef} {length : Nat} (taken : Takes s p f d g) (named : s.ctl.graphAt f p.subject = some gr)
    (latest : gr.latest = some v) (live : f.regionLive region = true) (suits : f.graphRegionOk region length = true) (x : GraphPatch) :
    s.ctl.graphPatch p region length (.ok (some x)) =
      if d.signed 1 (patchedBody v.body x).body (patchedBody v.body x).sig = false then d.finish (cmdOf s p) Status.permission 0#32 0
      else if d.planLoaded (patchedBody v.body x).plan = false then d.finish (cmdOf s p) Status.badParameter 0#32 0
      else ((d.setGraph { gr with versions := gr.versions ++ [⟨v.version + 1, patchedBody v.body x, 0⟩] }).sweepGraphs).finish (cmdOf s p)
        Status.success (BitVec.ofNat 32 (v.version + 1)) 0 := by
  have patched : gr.patchedBy (.ok (some x)) = .ok (some (patchedBody v.body x)) := by simp [Graph.patchedBy, latest]
  rw [Ctl.graphPatch, taken.runs (by simp) (by simp [named, live, suits])]
  simp only [taken.graphAt, named, patched]
  cases signed : d.signed 1 (patchedBody v.body x).body (patchedBody v.body x).sig <;>
    cases loaded : d.planLoaded (patchedBody v.body x).plan <;> simp [Ctl.graphFails, signed, loaded, latest]

theorem Ctl.graphLaunch_accepted {input output : RegionRef} {adapter : Handle} {items : Nat} (taken : Takes s p f d g)
    (named : s.ctl.graphAt f p.subject = some gr) (latest : gr.latest = some v)
    (live : f.regionLive input = true ∧ f.regionLive output = true) (suits : adapter = 0#32 ∨ (f.object .adapter adapter).isSome = true)
    (counted : 1 ≤ items) (regions : f.regionOk input none false = true ∧ f.regionOk output none true = true)
    (launchable : s.ctl.launchable f p.subject = true) :
    s.ctl.graphLaunch p input output adapter items = (d.acceptJob (cmdOf s p) 0x22 p.subject
      (.launch (ixOf p.subject) 0 items 0 [] adapter output) items [input.handle, output.handle] true).1 := by
  rw [Ctl.graphLaunch, taken.runs (by simp) (by simp [named, live, suits, regions, launchable, counted])]
  simp only [taken.graphAt, named, Option.bind_some, latest]

/-- A launch is bound to the latest version, and to the names' current epochs, where its first item is admitted (R296). -/
theorem Ctl.bindLaunch_binds {c : Ctl} {j : Job} {items n : Nat} {old eps : List (Nat × Nat)} {adapter : Handle} {output : RegionRef}
    (kind : j.kind = .launch ix 0 items n old adapter output)
    (named : c.objs.graphs.find? (fun x => x.fn = j.cmd.fn && x.ix = ix) = some gr) (latest : gr.latest = some v)
    (epochs : c.bindNames j.cmd.fn v.body.images = some eps) :
    c.bindLaunch j = some ({ j with kind := .launch ix v.version items n eps adapter output },
      (c.setJob { j with kind := .launch ix v.version items n eps adapter output }).onLaunches j.cmd.fn ix v.version (· + 1)) := by
  simp [Ctl.bindLaunch, kind, named, latest, epochs]

theorem Ctl.graphDrop_taken (taken : Takes s p f d g) (named : s.ctl.graphAt f p.subject = some gr) :
    s.ctl.graphDrop p = ((d.setGraph { gr with dropped := true }).sweepGraphs).finish (cmdOf s p) Status.success 0#32 0 := by
  rw [Ctl.graphDrop, taken.runs (by simp) (by simp [named])]
  simp only [taken.graphAt, named]

end

end Sys2Proof.Machine

open Sys2Proof Sys2Proof.Machine

/-- Settles O13: each command is one lemma about its own function. That a patch replaces the fields which it brings, and that a launch is bound
where its first item is admitted, are log 54 (DEDUCED). -/
theorem graphsAreStoredAndLaunched : Obligations.GraphsAreStoredAndLaunched := by
  refine ⟨?_, ?_, ?_, ?_, ?_⟩
  · intro s p region length b f g h d ix taken subject live suits issued
    exact next_withCtl (Ctl.graphStore_taken taken subject live suits issued b)
  · rintro s p region length x b f g d gr v taken named latest live suits rfl
    exact next_withCtl (Ctl.graphPatch_taken taken named latest live suits x)
  · intro s p input output adapter items f g h d gr v ix taken named latest live1 live2 suits counted ok1 ok2 launchable _
    exact next_withCtl (Ctl.graphLaunch_accepted taken named latest ⟨live1, live2⟩ suits counted ⟨ok1, ok2⟩ launchable)
  · rintro c j k ix items n old eps adapter output gr v kind named latest epochs rfl
    exact Ctl.bindLaunch_binds kind named latest epochs
  · intro s p f g d gr taken named
    exact next_withCtl (Ctl.graphDrop_taken taken named)

end

section
/-! Commands on jobs, and queries (R292, R297, R299). -/

namespace Sys2Proof.Machine

open Sys2Proof

section
variable {s : State} {p : Pkt} {f g : Fn} {d : Ctl} {j : Job}

/-! ### Suspend, cancel and resume (R297) -/

theorem Ctl.jobOp_taken (taken : Takes s p f d g) (named : (f.object .job p.subject).isSome = true)
    (found : s.ctl.job? p.fn (ixOf p.subject) = some j) (host : j.device = false) (suspend : Bool) :
    s.ctl.jobOp p suspend = if j.over = true ∨ suspend = true ∧ j.st = .suspended then d.finish (cmdOf s p) Status.noEffect 0#32 0
      else d.setJob { j with ops := j.ops ++ [(suspend, cmdOf s p)] } := by
  rw [Ctl.jobOp, taken.runs (by simp) (by simp [Ctl.jobChecks, named, found, host])]
  simp [Ctl.jobOf, taken.job?, found]

theorem Ctl.jobResume_taken (taken : Takes s p f d g) (named : (f.object .job p.subject).isSome = true)
    (found : s.ctl.job? p.fn (ixOf p.subject) = some j) :
    s.ctl.jobResume p = if j.over = true ∨ j.st ≠ .suspended then d.finish (cmdOf s p) Status.noEffect 0#32 0
      else (d.setJob j.resume).finish (cmdOf s p) Status.success 0#32 0 := by
  rw [Ctl.jobResume, taken.runs (by simp) (by simp [named])]
  simp [Ctl.jobOf, taken.job?, found]

/-! ### JOB_QUERY (R292, R299) -/

theorem Takes.queryOf (taken : Takes s p f d g) (c : Ctl) (h : Handle) : c.queryOf g h = c.queryOf f h := by
  rw [taken.fetched]
  rfl

/-- A result region is reached: its function is active, and its PASID is one that the capability enables (R315, R327). -/
theorem Takes.reaches {result : RegionRef} {r : Region} (taken : Takes s p f d g) (named : f.region result.handle = some r)
    (suits : f.regionOk result none true = true) : g.reaches r.pasid = true := by
  have pasid : (r.pasid.isNone || f.pasidCap) = true := by
    simp only [Fn.regionOk, named, Bool.and_eq_true] at suits
    exact suits.2
  have active := taken.active
  rw [taken.fetched]
  simp_all [Fn.reaches, Fn.fetchedOne]

section
variable {result : RegionRef} {bs : List Byte} {r : Region} (taken : Takes s p f d g) (queried : s.ctl.queryOf f p.subject = some bs)
  (named : f.region result.handle = some r) (suits : f.regionOk result none true = true)
include taken queried named suits

theorem Ctl.jobQuery_writes (running : ∀ ix x, f.object .session p.subject = some ix → s.ctl.session? f.num ix = some x → x.ended = none)
    (inside : result.off + bs.length ≤ r.len) :
    s.ctl.jobQuery p result (.ok ()) = (d.hostWrite p.fn r.pasid (r.addr + result.off) bs).finish (cmdOf s p) Status.success 0#32
      (Bits.ceilDiv bs.length 64) := by
  have state : ∀ y ∈ s.ctl.queryState f p.subject, y.1 = true := by
    unfold Ctl.queryState
    split
    next x session =>
      obtain ⟨ix, object, listed⟩ := Option.bind_eq_some_iff.mp session
      simp [running ix x object listed]
    · simp
  have region : g.region result.handle = some r := by rw [taken.fetched, Fn.fetchedOne_region, named]
  rw [Ctl.jobQuery, taken.runs (by simp) (by simpa [queried, Fn.regionLive, named, suits] using state)]
  simp [Ctl.resultWrite, Ctl.regionWrite, region, taken.queryOf, queried, taken.reaches named suits, taken.num, Nat.not_lt.mpr inside]

/-- A query of a session that has ended gives the status that ended it (R292). -/
theorem Ctl.jobQuery_ended {ix : Nat} {x : Session} {st : BitVec 16} (object : f.object .session p.subject = some ix)
    (listed : s.ctl.session? f.num ix = some x) (ended : x.ended = some st) (write : HostRead Unit) :
    s.ctl.jobQuery p result write = d.finish (cmdOf s p) st 0#32 0 := by
  have state : s.ctl.queryState f p.subject = [(false, st)] := by simp [Ctl.queryState, object, listed, ended]
  exact taken.failsLast (by simp) (by rw [state]) (by simp [queried, Fn.regionLive, named, suits])

end

end

end Sys2Proof.Machine

open Sys2Proof Sys2Proof.Machine

/-- Settles O14: `Ctl.jobOp` serves JOB_SUSPEND and JOB_CANCEL; a query passes its state check exactly where no ended session is named. -/
theorem jobCommandsComplete : Obligations.JobCommandsComplete := by
  refine ⟨fun s p f g d j taken named found host => ⟨?_, ?_, ?_⟩, fun s p result f g d bs r taken queried named suits => ⟨?_, ?_⟩⟩
  · exact next_withCtl ((Ctl.jobOp_taken taken named found host true).trans (by simp))
  · exact next_withCtl ((Ctl.jobOp_taken taken named found host false).trans (by simp))
  · exact next_withCtl (Ctl.jobResume_taken taken named found)
  · intro running inside
    exact next_withCtl (Ctl.jobQuery_writes taken queried named suits running inside)
  · intro ix x st write object listed ended
    exact next_withCtl (Ctl.jobQuery_ended taken queried named suits object listed ended write)

end

section
/-! Self-tests, margin plans, marks, snapshots and fences (R285, R301, R408, R409, R436, R442). -/

namespace Sys2Proof.Machine

open Sys2Proof

section
variable {s : State} {p : Pkt} {f g : Fn} {d : Ctl}

theorem Ctl.selftest_accepted {kind : Nat} {report : RegionRef} (taken : Takes s p f d g) (holds : s.ctl.holds f .health = true)
    (subject : p.subject = 0#32) (live : f.regionLive report = true) (known : kind ≤ 2) (suits : f.regionOk report none true = true)
    (mask : Byte) (found : List TestFault) :
    s.ctl.selftest p mask kind report found = (d.acceptJob (cmdOf s p) 0x60 0#32 (.selftest mask kind report found)
      (if kind = 0 then 26 * ((List.finRange 8).flatMap fun k =>
        (List.range 10).filter fun r => mask.getLsbD k.val && (d.yd k).freeSpare r).length else 0) [report.handle] false).1 := by
  rw [Ctl.selftest, taken.runsWith holds (fun _ => subject) (by simp [live, known, suits])]

theorem Ctl.marginReplan_accepted (taken : Takes s p f d g) (holds : s.ctl.holds f .health = true) (subject : p.subject = 0#32) (mask : Byte) :
    s.ctl.marginReplan p mask = (d.acceptJob (cmdOf s p) 0x61 0#32
      (.replan mask ((List.range 8).filter mask.getLsbD)) ((List.range 8).filter mask.getLsbD).length [] false).1 := by
  rw [Ctl.marginReplan, taken.runsWith holds (fun _ => subject) (by simp)]

/-- A mark of no session, or of one that runs, waits (R442). -/
theorem Ctl.markCmd_waits (taken : Takes s p f d g)
    (names : p.subject = 0#32 ∨ ∃ x, s.ctl.sessionAt f p.subject = some x ∧ x.ended = none ∧ x.closing = none) (ident : Word) (ends : Bool) :
    s.ctl.markCmd p ident ends = d.onObjs fun o => { o with waiting := o.waiting ++
      [⟨cmdOf s p, .mark ident ends (if p.subject = 0#32 then none else some p.subject)⟩] } := by
  rw [Ctl.markCmd, taken.runs (by simp)]
  rcases names with unnamed | ⟨x, named, running, opened⟩
  · simp [unnamed]
  · by_cases unnamed : p.subject = 0#32
    · simp [unnamed]
    · simp [unnamed, named, Ctl.sessionState, running, opened]

theorem Ctl.counterSnapshot_taken (taken : Takes s p f d g) (subject : p.subject = 0#32) :
    s.ctl.counterSnapshot p = (if s.ctl.isMgmt p.fn = true then d.snapDevice else d.snapFn p.fn).finish (cmdOf s p) Status.success 0#32 0 := by
  rw [Ctl.counterSnapshot, taken.runs (fun _ => subject) (by simp), taken.num, taken.isMgmt]

theorem Ctl.fenceCmd_taken (taken : Takes s p f d g) (subject : p.subject = 0#32) (mask : BitVec 4) (jobs : Bool) :
    s.ctl.fenceCmd p mask jobs = ((d.onQueue p.fn p.q fun y => { y with fences := y.fences ++ [s.ctl.objs.orders] }).onObjs fun o =>
      { o with waiting := o.waiting ++ [⟨cmdOf s p, .fence mask jobs⟩] }).settle p.fn := by
  rw [Ctl.fenceCmd, taken.runs (fun _ => subject) (by simp)]
  rfl

end

end Sys2Proof.Machine

open Sys2Proof Sys2Proof.Machine

/-- Settles O17: each command is one lemma about its own function. A self-test's limit, 26 for each row with a free spare and else 0, is the
model's choice (log 73); that a mark waits until a formed stall carries it, or the bell comes, is log 87 (DEDUCED). -/
theorem serviceCommandsComplete : Obligations.ServiceCommandsComplete := by
  refine ⟨?_, ?_, ?_, ?_, ?_⟩
  · intro s p mask kind report found f g d taken holds subject live known suits
    exact next_withCtl (Ctl.selftest_accepted taken holds subject live known suits mask found)
  · intro s p mask f g d taken holds subject
    exact next_withCtl (Ctl.marginReplan_accepted taken holds subject mask)
  · intro s p ident f g d taken names
    exact ⟨next_withCtl (Ctl.markCmd_waits taken names ident false), next_withCtl (Ctl.markCmd_waits taken names ident true)⟩
  · intro s p f g d taken subject
    exact next_withCtl (Ctl.counterSnapshot_taken taken subject)
  · intro s p mask jobs f g d taken subject
    exact next_withCtl (Ctl.fenceCmd_taken taken subject mask jobs)

end

section
/-! Register actions of a queue (R273, R274, R278, R302-R305, R490). -/

namespace Sys2Proof.Machine

open Sys2Proof

/-! ### What fetches, records and faults keep of a function's queues -/

/-- A function's queues and its event register. -/
def Ctl.queuesAndEvent (c : Ctl) (n : BitVec 8) : Option (List Queue × EventReg) := (c.fn? n).map fun f => (f.queues, f.event)

theorem Ctl.fn?_of_queuesAndEvent {a b : Ctl} {n : BitVec 8} {f : Fn} (same : b.queuesAndEvent n = a.queuesAndEvent n) (found : a.fn? n = some f) :
    ∃ g, b.fn? n = some g ∧ g.queues = f.queues ∧ g.event = f.event := by
  simpa [Ctl.queuesAndEvent, found] using same

theorem Ctl.queuesAndEvent_onFn (c : Ctl) (n : BitVec 8) {h : Fn → Fn} (num : ∀ x, (h x).num = x.num) (queues : ∀ x, (h x).queues = x.queues)
    (event : ∀ x, (h x).event = x.event) : (c.onFn n h).queuesAndEvent n = c.queuesAndEvent n := by
  have found : (c.onFn n h).fn? n = (c.fn? n).map h := find_num_map c.fns n h num
  simp only [Ctl.queuesAndEvent, found, Option.map_map, Function.comp_def, queues, event]

theorem Fn.free_num (f : Fn) (ix : Nat) : (f.free ix).num = f.num := by unfold Fn.free; split <;> rfl
theorem Fn.free_queues (f : Fn) (ix : Nat) : (f.free ix).queues = f.queues := by unfold Fn.free; split <;> rfl
theorem Fn.free_event (f : Fn) (ix : Nat) : (f.free ix).event = f.event := by unfold Fn.free; split <;> rfl

theorem Ctl.deliver_queuesAndEvent (c : Ctl) (n : BitVec 8) (r : Rec) : (c.deliver n r).queuesAndEvent n = c.queuesAndEvent n := by
  unfold Ctl.deliver
  split
  · rfl
  · exact Ctl.queuesAndEvent_onFn c n (fun f => f.free_num _) (fun f => f.free_queues _) fun f => f.free_event _

theorem Ctl.deliver_orders (c : Ctl) (n : BitVec 8) (r : Rec) : (c.deliver n r).objs.orders = c.objs.orders := by
  unfold Ctl.deliver
  split <;> rfl

/-- A change of every queue that leaves a blank one reaches each of them. -/
theorem Fn.queue_map (f : Fn) (q : Fin 4) {g : Queue → Queue} (blank : g {} = {}) :
    ({ f with queues := f.queues.map g } : Fn).queue q = g (f.queue q) := by
  have each := List.getD_map f.queues {} g (n := q.val)
  rwa [blank] at each

/-- Room in the holding area clears HOLD_FULL and leaves the rest of a queue (R304). -/
theorem Ctl.queueOf_relax {c : Ctl} {n : BitVec 8} {f : Fn} (found : c.fn? n = some f) (q : Fin 4) :
    ∃ v, (c.relax n).queueOf n q = { f.queue q with holdFull := v } := by
  have stands : (c.relax n).fn? n = some (if f.fillArea.heldCount < 1024
      then { f.fillArea with queues := f.fillArea.queues.map fun y => { y with holdFull := false } } else f.fillArea) :=
    Ctl.fn?_onFn found _ fun x => by dsimp only; split <;> rfl
  rw [Ctl.queueOf_found stands]
  split
  · exact ⟨false, f.fillArea.queue_map q rfl⟩
  · exact ⟨(f.queue q).holdFull, rfl⟩

/-! ### RESET (R305) -/

/-- A queue after its RESET, but for HOLD_FULL. -/
def Queue.reset (y : Queue) (order : Nat) : Queue :=
  { y with enabled := false, tail := 0, fetch := 0, cqTail := 0, head := 0, phase := true, stopped := false
           sqFault := false, holdFull := false, held := [], recent := [], fences := [], resetting := true, since := order
           sqBase := 0, cqBase := 0, sqLog := 4, cqLog := 4 }

theorem Ctl.resetQueue_queueOf {c : Ctl} {n : BitVec 8} {f : Fn} (found : c.fn? n = some f) (four : f.queues.length = 4) (q : Fin 4) :
    ∃ v, (c.resetQueue n q).queueOf n q = { (f.queue q).reset c.objs.orders with holdFull := v } := by
  have orders : ((c.queueOf n q).held.foldl (fun c r => c.deliver n r) c).objs.orders = c.objs.orders :=
    foldl_keeps (v := fun c => c.objs.orders) (fun c r => Ctl.deliver_orders c n r) c _
  obtain ⟨g, stands, queues, -⟩ := Ctl.fn?_of_queuesAndEvent
    (foldl_keeps (v := fun c => c.queuesAndEvent n) (fun c r => Ctl.deliver_queuesAndEvent c n r) c (c.queueOf n q).held) found
  obtain ⟨v, relaxed⟩ := Ctl.queueOf_relax (Ctl.fn?_onQueue stands q fun y => y.reset c.objs.orders) q
  refine ⟨v, Eq.trans ?_ (relaxed.trans ?_)⟩
  · unfold Ctl.resetQueue
    dsimp only
    rw [orders]
    rfl
  · rw [Fn.queue_withQueue (queues ▸ four), Fn.queue, queues]
    rfl

/-! ### The commands -/

section
variable {s : State} {fn : BitVec 8} {q : Fin 4} (served : s.ctl.served fn = true)
include served

theorem exec_qDoorbell (tail : BitVec 16) (fetched : List (List Byte)) : exec (.qDoorbell fn q tail fetched) s =
    .next (s.withCtl ((undefOf fetched).foldl (fun c u => c.undefPacket fn q u) (s.ctl.doorbell fn q tail.toNat))) :=
  if_neg (by simp [served])

theorem exec_queueEnable : exec (.queueEnable fn q) s = .next (s.withCtl (s.ctl.enableQueue fn q)) := if_neg (by simp [served])

theorem exec_queueDisable :
    exec (.queueDisable fn q) s = .next (s.withCtl (s.ctl.onQueue fn q fun y => { y with enabled := false })) := if_neg (by simp [served])

theorem exec_queueReset : exec (.queueReset fn q) s = .next (s.withCtl (s.ctl.resetQueue fn q)) := if_neg (by simp [served])

theorem exec_qCqHead (head : BitVec 16) : exec (.qCqHead fn q head) s = .next (s.withCtl ((s.ctl.onQueue fn q fun y =>
    if head.toNat < 2 ^ y.cqLog then { y with head := head.toNat } else y).drain fn q)) := if_neg (by simp [served])

theorem exec_qResume : exec (.qResume fn q) s = .next (s.withCtl (s.ctl.resumeQueue fn q)) := if_neg (by simp [served])

end

/-- No packet of an undefined opcode is among those of defined ones. -/
theorem undefOf_eq_nil {fetched : List (List Byte)} (defined : ∀ bs ∈ fetched, pktLayout (Bits.leNat bs 0 1) false ≠ none) :
    undefOf fetched = [] := by
  simpa [undefOf] using defined

theorem undefOf_singleton {bs : List Byte} (undefined : pktLayout (Bits.leNat bs 0 1) false = none) :
    undefOf [bs] = [⟨BitVec.ofNat 16 (Bits.leNat bs 2 2), (bs.getD 1 0#8).getLsbD 0⟩] := by
  simp [undefOf, undefined]

theorem Ctl.doorbell_queueOf {c : Ctl} {n : BitVec 8} {f : Fn} (found : c.fn? n = some f) (four : f.queues.length = 4) (q : Fin 4) (tail : Nat) :
    (c.doorbell n q tail).queueOf n q =
      if (f.queue q).enabled = true ∧ tail < 2 ^ (f.queue q).sqLog then { f.queue q with tail := tail } else f.queue q := by
  rw [Ctl.doorbell, Ctl.queueOf_found (Ctl.fn?_onQueue found q _), Fn.queue_withQueue four]
  simp only [Bool.and_eq_true, decide_eq_true_eq]
  rfl

/-- An undefined packet that is fetched completes with BAD_OPCODE (R278 check 1). -/
theorem Ctl.undefPacket_fetched {c : Ctl} {n : BitVec 8} {f : Fn} {q : Fin 4} (found : c.fn? n = some f) (next : c.fetchable f q = true)
    (u : UndefPkt) : c.undefPacket n q u = (c.fetch n q).finish ⟨n, q, u.tag, u.irq, c.objs.orders⟩ Status.badOpcode 0#32 0 := by
  simp [Ctl.undefPacket, found, next]

theorem Ctl.enableQueue_rises {c : Ctl} {n : BitVec 8} {q : Fin 4} (off : (c.queueOf n q).enabled = false)
    (settled : (c.queueOf n q).resetting = false) : c.enableQueue n q = (c.onQueue n q fun y => { y with
      enabled := true, tail := 0, fetch := 0, cqTail := 0, head := 0, phase := true, stopped := false, sqFault := false
      recent := [] }).drain n q := by
  simp [Ctl.enableQueue, off, settled]

end Sys2Proof.Machine

open Sys2Proof Sys2Proof.Machine

/-- Settles O22: each action is one lemma about its command, or about what it leaves of the queue. -/
theorem queueRegistersAct : Obligations.QueueRegistersAct := by
  intro s fn q served
  refine ⟨fun tail fetched defined => ?_, fun tail bs f found next undefined => ?_, exec_qDoorbell served, fun off settled => ?_,
    exec_queueDisable served, ?_, exec_qCqHead served, exec_qResume served⟩
  · refine ⟨_, exec_qDoorbell served tail fetched, rfl, rfl, ?_, fun f found four => ?_⟩
    · rw [undefOf_eq_nil defined]
      rfl
    · rw [undefOf_eq_nil defined]
      exact Ctl.doorbell_queueOf found four q tail.toNat
  · rw [exec_qDoorbell served, undefOf_singleton undefined]
    exact next_withCtl (Ctl.undefPacket_fetched found next _)
  · rw [exec_queueEnable served, Ctl.enableQueue_rises off settled]
  · refine ⟨_, exec_queueReset served, rfl, rfl, fun f found four => ?_⟩
    obtain ⟨v, after⟩ := Ctl.resetQueue_queueOf found four q
    simp only [State.withCtl, after, Queue.reset, and_self]

end

section
/-! FN_REGION_CTRL (R284). -/

namespace Sys2Proof.Machine

open Sys2Proof

/-- A new handle changes the table of handles and what is left to issue, and nothing else (R283). -/
theorem Fn.issue_eq {f g : Fn} {k : ObjKind} {key ix : Nat} (issued : f.issue k key = some (ix, g)) :
    ∃ nextIx freed, g = { f with nextIx := nextIx, freed := freed, handles := f.handles ++ [(ix, k, key)] } := by
  unfold Fn.issue at issued
  split at issued
  · cases issued
  · split at issued
    · cases issued
      exact ⟨_, _, rfl⟩
    · split at issued
      · cases issued
      · cases issued
        exact ⟨_, _, rfl⟩

/-- A function with what a write of FN_REGION_CTRL asks for. -/
def Fn.asking (f : Fn) (writable pasidEn : Bool) (pasid : BitVec 20) : Fn :=
  { f with regionWritable := writable, regionPasidEn := pasidEn, regionPasid := pasid }

theorem Fn.asking_issue {f g : Fn} {k : ObjKind} {key ix : Nat} (issued : f.issue k key = some (ix, g)) (writable pasidEn : Bool)
    (pasid : BitVec 20) : (f.asking writable pasidEn pasid).issue k key = some (ix, g.asking writable pasidEn pasid) := by
  unfold Fn.issue at issued ⊢
  split at issued
  · cases issued
  next room =>
    refine (if_neg room).trans ?_
    split at issued
    next fresh =>
      cases issued
      exact if_pos fresh
    next spent =>
      refine (if_neg spent).trans ?_
      split at issued
      · cases issued
      next freed =>
        cases issued
        simp only [Fn.asking, freed]

/-- Whether a function's registers give a region's range (R284). -/
def Fn.rangeOk (f : Fn) : Prop :=
  f.regionAddr % 4096 = 0 ∧ f.regionLen % 4096 = 0 ∧ 4096 ≤ f.regionLen ∧ f.regionLen ≤ 16000000000000 ∧ f.regionAddr + f.regionLen ≤ 2 ^ 64

/-- A function with a region of a new handle. -/
def Fn.withRegion (g : Fn) (ix : Nat) (r : Region) : Fn :=
  { g with handles := g.handles.map fun e => if e.1 = ix then (ix, .region, ix) else e
           regions := (g.regions.filter (·.1 ≠ ix)) ++ [(ix, r)], regionHandle := handleOf .region ix, regionStatus := 0 }

section
variable {c : Ctl} {n : BitVec 8} {f : Fn} (found : c.fn? n = some f)
include found

theorem Ctl.fn?_createRegion : (¬f.rangeOk → (c.createRegion n).fn? n = some { f with regionStatus := 1 }) ∧
    ∀ ix g, f.rangeOk → f.issue .region f.nextIx = some (ix, g) → (c.createRegion n).fn? n = some (g.withRegion ix
      ⟨f.regionAddr, f.regionLen, f.regionWritable, if f.regionPasidEn then some f.regionPasid else none⟩) := by
  have bad : (f.regionAddr % 4096 ≠ 0 || f.regionLen % 4096 ≠ 0 || f.regionLen < 4096 || 16000000000000 < f.regionLen ||
      2 ^ 64 < f.regionAddr + f.regionLen) = true ↔ ¬f.rangeOk := by
    simp only [Fn.rangeOk, Bool.or_eq_true, decide_eq_true_eq]
    omega
  rw [Ctl.createRegion, Ctl.fn?_onFn found]
  case hg =>
    intro x
    dsimp only
    split
    · rfl
    · split
      · rfl
      next issued =>
        obtain ⟨_, _, rfl⟩ := Fn.issue_eq issued
        rfl
  refine ⟨fun range => congrArg some (if_pos (bad.mpr range)), fun ix g range issued => congrArg some ?_⟩
  refine (if_neg fun wrong => bad.mp wrong range).trans ?_
  rw [issued]
  rfl

/-- A region that nothing uses is freed with its handle; one in use stays (R284). -/
theorem Ctl.fn?_destroyRegion {ix : Nat} (named : f.object .region f.regionHandle = some ix) : (c.destroyRegion n).fn? n = some (
    if c.regionUsed n f.regionHandle = true then { f with regionStatus := 3 }
    else { f.free ix with regions := f.regions.filter (·.1 ≠ ix), regionStatus := 0 }) := by
  rw [Ctl.destroyRegion, Ctl.fn?_onFn found]
  case hg =>
    intro x
    dsimp only
    split
    · rfl
    · split
      · rfl
      · exact x.free_num _
  simp only [named]

end

section
variable {s : State} {fn : BitVec 8} (served : s.ctl.served fn = true)
include served

theorem exec_regionCreate (writable pasidEn : Bool) (pasid : BitVec 20) : exec (.regionCreate fn writable pasidEn pasid) s =
    .next (s.withCtl ((s.ctl.onFn fn fun f => f.asking writable pasidEn pasid).createRegion fn)) := if_neg (by simp [served])

theorem exec_regionDestroy : exec (.regionDestroy fn) s = .next (s.withCtl (s.ctl.destroyRegion fn)) := if_neg (by simp [served])

end

end Sys2Proof.Machine

open Sys2Proof Sys2Proof.Machine

/-- Settles O23: a creation and a destruction change their function by `Ctl.fn?_createRegion` and `Ctl.fn?_destroyRegion`. -/
theorem regionsAreMadeAndFreed : Obligations.RegionsAreMadeAndFreed := by
  intro s fn f served found
  have asked (writable pasidEn : Bool) (pasid : BitVec 20) := Ctl.fn?_createRegion
    (Ctl.fn?_onFn found (fun x => x.asking writable pasidEn pasid) fun _ => rfl)
  refine ⟨fun writable pasidEn pasid ix g addr len least most inside issued => ?_, fun writable pasidEn pasid range => ?_,
    fun ix named => ?_⟩
  · have made := (asked writable pasidEn pasid).2 ix _ ⟨addr, len, least, most, inside⟩ (Fn.asking_issue issued writable pasidEn pasid)
    obtain ⟨_, _, rfl⟩ := Fn.issue_eq issued
    exact ⟨_, _, exec_regionCreate served writable pasidEn pasid, rfl, rfl, rfl, made, rfl, rfl,
      List.mem_append_right _ (List.mem_singleton.mpr rfl), rfl⟩
  · have refused := (asked writable pasidEn pasid).1 (by
      show ¬(f.regionAddr % 4096 = 0 ∧ f.regionLen % 4096 = 0 ∧ 4096 ≤ f.regionLen ∧ f.regionLen ≤ 16000000000000 ∧
        f.regionAddr + f.regionLen ≤ 2 ^ 64)
      omega)
    exact ⟨_, _, exec_regionCreate served writable pasidEn pasid, refused, rfl, rfl, rfl⟩
  · have destroyed := Ctl.fn?_destroyRegion found named
    refine ⟨_, _, exec_regionDestroy served, rfl, rfl, destroyed, fun unused => ?_, fun used => ?_⟩
    · simp [unused]
    · simp [used]

end

section
/-! Faults of the host's memory (R288, R303). -/

namespace Sys2Proof.Machine

open Sys2Proof

/-- Records that go back leave their function's queues and event register. -/
theorem Ctl.undeliver_queuesAndEvent (c : Ctl) (n : BitVec 8) (r : Rec) : (c.undeliver n r).queuesAndEvent n = c.queuesAndEvent n := by
  unfold Ctl.undeliver
  split
  · rfl
  · split
    · split
      · rfl
      · exact Ctl.queuesAndEvent_onFn c n (fun _ => rfl) (fun _ => rfl) fun _ => rfl
    · rfl

/-- Records that go back change the jobs and those delivered, and no other object (R282, R303). -/
theorem Ctl.undeliver_objs (c : Ctl) (n : BitVec 8) (r : Rec) :
    ({ (c.undeliver n r).objs with jobs := [], delivered := [] } : Objs) = { c.objs with jobs := [], delivered := [] } := by
  unfold Ctl.undeliver
  split
  · rfl
  · split
    · split <;> rfl
    · rfl

theorem Objs.eq_but_jobs {a b : Objs} (same : ({ a with jobs := [], delivered := [] } : Objs) = { b with jobs := [], delivered := [] }) :
    a = { b with jobs := a.jobs, delivered := a.delivered } :=
  congrArg (fun o : Objs => { o with jobs := a.jobs, delivered := a.delivered }) same

/-- An event of a function's own register leaves its queues. -/
theorem Ctl.fn?_raiseFn {c : Ctl} {n : BitVec 8} {f : Fn} (found : c.fn? n = some f) (bits : BitVec 16) :
    ∃ g, (c.raiseFn n bits).fn? n = some g ∧ g.queues = f.queues ∧ g.event = f.event.raise bits :=
  ⟨_, Ctl.fn?_onFn found _ fun _ => rfl, rfl, rfl⟩

section
variable {c : Ctl} {n : BitVec 8} {f : Fn} (found : c.fn? n = some f) (four : f.queues.length = 4) (q : Fin 4)
include found

theorem Ctl.cqFault_none {k : Nat} (unfailed : k = 0 ∨ (f.queue q).recent = []) : c.cqFault n q k = c := by
  have zero : min k (f.queue q).recent.length = 0 := by
    rcases unfailed with unfailed | unfailed <;> simp [unfailed]
  simp only [Ctl.cqFault, Ctl.queueOf_found found, zero, if_true]

/-- A fault that takes records back changes its queue, undelivers each of them and latches the first address. -/
theorem Ctl.cqFault_eq {k : Nat} (failed : 0 < min k (f.queue q).recent.length) : ∃ (change : Queue → Queue) (addr : Nat),
    c.cqFault n q k = (((((f.queue q).recent.take (min k (f.queue q).recent.length)).reverse.foldl (fun c r => c.undeliver n r)
      (c.onQueue n q change))).latchFault n q addr false).raiseFn n 1#16 ∧
    ∀ y, (change y).stopped = true ∧
      (change y).held = ((f.queue q).recent.take (min k (f.queue q).recent.length)).reverse ++ y.held := by
  simp only [Ctl.cqFault, Ctl.queueOf_found found, failed.ne', if_false]
  exact ⟨_, _, rfl, fun y => ⟨rfl, rfl⟩⟩

/-- The records that fail change the jobs and those delivered, and no other object. -/
theorem Ctl.cqFault_objs {k : Nat} (failed : 0 < min k (f.queue q).recent.length) :
    (c.cqFault n q k).objs = { c.objs with jobs := (c.cqFault n q k).objs.jobs, delivered := (c.cqFault n q k).objs.delivered } := by
  obtain ⟨change, addr, faulted, -⟩ := Ctl.cqFault_eq found q failed
  rw [faulted]
  exact Objs.eq_but_jobs (foldl_keeps (v := fun c => ({ c.objs with jobs := [], delivered := [] } : Objs))
    (fun c r => Ctl.undeliver_objs c n r) (c.onQueue n q change) _)

include four

/-- A fault latches the first address that fails since the event register was cleared (R303). -/
theorem Ctl.fn?_latchFault (addr : Nat) (read : Bool) : ∃ g, (c.latchFault n q addr read).fn? n = some g ∧ g.event = f.event ∧
    g.queue q = { f.queue q with faultAddr := (f.queue q).faultAddr.orElse fun _ => some (addr / 64 * 64, read) } :=
  ⟨_, Ctl.fn?_onQueue found q _, rfl, Fn.queue_withQueue four q _⟩

/-- The records that fail are held again, in order, before those held (R303). -/
theorem Ctl.cqFault_takesBack {k : Nat} (failed : 0 < min k (f.queue q).recent.length) : ∃ g, (c.cqFault n q k).fn? n = some g ∧
    (g.queue q).stopped = true ∧ g.event = f.event.raise 1#16 ∧
    (g.queue q).held = ((f.queue q).recent.take (min k (f.queue q).recent.length)).reverse ++ (f.queue q).held := by
  obtain ⟨change, addr, faulted, changed⟩ := Ctl.cqFault_eq found q failed
  obtain ⟨g, back, queues, event⟩ := Ctl.fn?_of_queuesAndEvent (foldl_keeps (v := fun c => c.queuesAndEvent n)
    (fun c r => Ctl.undeliver_queuesAndEvent c n r) (c.onQueue n q change) _) (Ctl.fn?_onQueue found q change)
  have queue : g.queue q = change (f.queue q) := by rw [Fn.queue, queues]; exact Fn.queue_withQueue four q change
  obtain ⟨h, latched, eventLatched, queueLatched⟩ := Ctl.fn?_latchFault back (by rw [queues, Fn.withQueue_length, four]) q addr false
  obtain ⟨i, raised, queuesRaised, eventRaised⟩ := Ctl.fn?_raiseFn latched 1#16
  obtain ⟨stopped, held⟩ := changed (f.queue q)
  have after : i.queue q = h.queue q := by rw [Fn.queue, queuesRaised, Fn.queue]
  refine ⟨i, faulted ▸ raised, ?_, ?_, ?_⟩
  · rw [after, queueLatched, queue, stopped]
  · rw [eventRaised, eventLatched, event, Fn.withQueue_event]
  · rw [after, queueLatched, queue, held]

/-- A fetch that fails stops its queue and latches its address (R303). -/
theorem Ctl.sqFaultAt_stops : ∃ g, (c.sqFaultAt n q).fn? n = some g ∧ (g.queue q).sqFault = true ∧ g.event = f.event.raise 2#16 ∧
    ((f.queue q).faultAddr = none → (g.queue q).faultAddr = some (((f.queue q).sqBase + 64 * (f.queue q).fetch) / 64 * 64, true)) := by
  obtain ⟨h, latched, eventLatched, queueLatched⟩ := Ctl.fn?_latchFault (Ctl.fn?_onQueue found q fun y => { y with sqFault := true })
    (by rw [Fn.withQueue_length, four]) q ((f.queue q).sqBase + 64 * (f.queue q).fetch) true
  obtain ⟨i, raised, queuesRaised, eventRaised⟩ := Ctl.fn?_raiseFn latched 2#16
  have after : i.queue q = h.queue q := by rw [Fn.queue, queuesRaised, Fn.queue]
  rw [Fn.queue_withQueue four] at queueLatched
  refine ⟨i, ?_, ?_, ?_, fun first => ?_⟩
  · rw [Ctl.sqFaultAt, Ctl.queueOf_found found]
    exact raised
  · rw [after, queueLatched]
  · rw [eventRaised, eventLatched, Fn.withQueue_event]
  · rw [after, queueLatched, first]
    rfl

end

/-! ### Output entries (R288) -/

section
variable {c : Ctl} {n : BitVec 8} {h : Handle} {k : Nat}

theorem Ctl.outputFault_none (unfailed : ∀ x, c.objs.sessions.find? (fun x => x.fn = n && handleOf .session x.ix = h) = some x →
    min k x.written.length = 0) : c.outputFault n h k = c := by
  unfold Ctl.outputFault
  split
  · rfl
  next x found => simp [unfailed x found]

/-- A session with the last `k` entries of its output kept, whose admission stops (R288). -/
def Session.keeping (x : Session) (k : Nat) : Session :=
  { x with kept := (x.written.take k).reverse ++ x.kept, written := x.written.drop k, tail := x.tail - k, stopped := some x.genQueue }

theorem Ctl.outputFault_keeps {x : Session}
    (named : c.objs.sessions.find? (fun x => x.fn = n && handleOf .session x.ix = h) = some x) (failed : 0 < min k x.written.length) :
    c.outputFault n h k = (c.setSession (x.keeping (min k x.written.length))).raiseFn n 4#16 := by
  simp only [Ctl.outputFault, named, failed.ne', if_false]
  rfl

end

/-- A session that takes the place of the one under its handle is listed. -/
theorem Ctl.mem_setSession {c : Ctl} {x y : Session} (listed : x ∈ c.objs.sessions) (fn : y.fn = x.fn) (index : y.ix = x.ix) :
    y ∈ (c.setSession y).objs.sessions :=
  List.mem_map.mpr ⟨x, listed, if_pos (by simp [fn, index])⟩

/-! ### The commands -/

theorem exec_sqFetchFault_stops {s : State} {fn : BitVec 8} {f : Fn} {q : Fin 4} (found : s.ctl.fn? fn = some f)
    (next : s.ctl.mayFetch f q = true) : exec (.sqFetchFault fn q) s = .next (s.withCtl (s.ctl.sqFaultAt fn q)) := by
  simp [exec, execSqFetchFault, found, next, State.withCtl]

theorem exec_sqFetchFault_rests {s : State} {fn : BitVec 8} {f : Fn} {q : Fin 4} (found : s.ctl.fn? fn = some f)
    (rests : s.ctl.mayFetch f q = false) : exec (.sqFetchFault fn q) s = .next s := by
  simp [exec, execSqFetchFault, found, rests]

end Sys2Proof.Machine

open Sys2Proof Sys2Proof.Machine

/-- Settles O42: each fault is one lemma about its own function (`Ctl.cqFault`, `Ctl.sqFaultAt`, `Ctl.outputFault`). -/
theorem hostFaultsTakeBackWrites : Obligations.HostFaultsTakeBackWrites := by
  intro s fn f found four
  refine ⟨fun q n failed => ?_, fun q n unfailed => ?_, fun q next => ?_, fun q rests => exec_sqFetchFault_rests found rests,
    fun h n unfailed => ?_, fun h n x named failed => ?_⟩
  · obtain ⟨g, after, stopped, event, held⟩ := Ctl.cqFault_takesBack found four q failed
    exact ⟨_, g, rfl, rfl, rfl, Ctl.cqFault_objs found q failed, after, stopped, event, held⟩
  · exact next_withCtl (Ctl.cqFault_none found q unfailed)
  · obtain ⟨g, after, stopped, event, address⟩ := Ctl.sqFaultAt_stops found four q
    exact ⟨_, g, exec_sqFetchFault_stops found next, rfl, rfl, rfl, after, stopped, event, address⟩
  · exact next_withCtl (Ctl.outputFault_none unfailed)
  · obtain ⟨g, after, -, event⟩ := Ctl.fn?_raiseFn (c := s.ctl.setSession (x.keeping (min n x.written.length))) found 4#16
    have own : x.fn = fn := by
      have suits := List.find?_some named
      simp only [Bool.and_eq_true, decide_eq_true_eq] at suits
      exact suits.1
    exact ⟨_, g, x.keeping (min n x.written.length), next_withCtl (Ctl.outputFault_keeps named failed), rfl, rfl, after, event,
      Ctl.mem_setSession (List.mem_of_find?_eq_some named) rfl rfl, rfl, own, rfl, rfl, rfl⟩

end

section
/-! The management function's commands on functions, plans and the ledger (R48, R52, R312, R322, R329, R346, R355). -/

namespace Sys2Proof.Machine

open Sys2Proof

/-- Functions that are changed in their places and keep their numbers are found as before. -/
theorem Ctl.fn?_map {a b : Ctl} {h : Fn → Fn} (fns : b.fns = a.fns.map h) (num : ∀ x, (h x).num = x.num) (n : BitVec 8) :
    b.fn? n = (a.fn? n).map h := by
  simp [Ctl.fn?, fns, List.find?_map, num]

/-- The free function numbers are those of the sites and of the functions' numbers (R312). -/
theorem Ctl.freeNumber_fetch (c : Ctl) (n : BitVec 8) (q : Fin 4) (site : Nat) : (c.fetch n q).freeNumber site = c.freeNumber site := by
  have bound (m : BitVec 8) : ((c.fetch n q).fn? m).isNone = (c.fn? m).isNone := by
    rw [Ctl.fetch_eq]
    rw [Ctl.fn?_map rfl fun x => by split <;> rfl]
    exact Option.isNone_map
  simp only [Ctl.freeNumber, Ctl.site, Ctl.fetch_hub, bound]
  rfl

/-- The fetch leaves the loaded plans and their handles. -/
theorem Takes.planAt {s : State} {p : Pkt} {f g : Fn} {d : Ctl} (taken : Takes s p f d g) (h : Handle) :
    d.planAt g h = s.ctl.planAt f h := by
  simp only [Ctl.planAt, taken.object, taken.objs]

section
variable {s : State} {p : Pkt} {f g : Fn} {d : Ctl} (taken : Takes s p f d g) (mgmt : s.ctl.isMgmt p.fn = true)
include taken mgmt

/-- A fetched packet of the management function whose further checks pass has its effect. -/
theorem Takes.runsManaged {noSubject : Bool} {checks : Fn → List (Bool × BitVec 16)} {effect : Ctl → Fn → Cmd → Ctl}
    (subject : noSubject = true → p.subject = 0#32) (pass : ∀ x ∈ checks f, x.1 = true) :
    s.ctl.packet p .management noSubject checks effect = effect d g (cmdOf s p) :=
  taken.runsWith (by rw [Ctl.holds, taken.fn_num, mgmt]) subject pass

/-! ### Functions (R312, R322, R329) -/

theorem Ctl.fnCreate_binds {site quota : Nat} {n : BitVec 8} (subject : p.subject = 0#32)
    (sizes : site < 2 ∧ 4096 ≤ quota ∧ quota ≤ 2 ^ 24) (calm : s.ctl.siteResetting site = false)
    (enabled : (s.ctl.site site).link = .active ∧ (s.ctl.site site).vfEnable = true) (number : s.ctl.freeNumber site = some n)
    (room : (s.ctl.fns.map (·.quota)).sum + quota ≤ 2 ^ 28) (health : Bool) :
    s.ctl.fnCreate p site health quota = (Ctl.mk d.yards d.free d.hub d.fe
        (d.fns ++ [Fn.created n false site health quota s.ctl.sec.keyNext]) d.objs d.ldg
        { d.sec with keyNext := s.ctl.sec.keyNext + 1 } d.cof d.cxl d.pwr d.dbg d.prs d.bus d.xlats).finish (cmdOf s p) Status.success
        (n.zeroExtend 32) 0 := by
  obtain ⟨isSite, least, most⟩ := sizes
  have kept : d.freeNumber site = some n ∧ d.sec = s.ctl.sec := by
    obtain ⟨-, -, -, rfl, -⟩ := taken
    exact ⟨(Ctl.freeNumber_fetch ..).trans number, Ctl.fetch_sec ..⟩
  obtain ⟨free, sec⟩ := kept
  rw [Ctl.fnCreate, taken.runsManaged mgmt (fun _ => subject) (by simpa [isSite, least, calm, enabled, number] using ⟨most, room⟩), ← sec]
  simp only [free]
  rfl

theorem Ctl.fnDestroy_starts {number : Nat} {result : RegionRef} {v : Fn} (subject : p.subject = 0#32)
    (reported : result.handle ≠ 0#32 → f.regionLive result = true ∧ f.regionOk result none true = true) (small : number < 256)
    (found : s.ctl.fn? (BitVec.ofNat 8 number) = some v) (virtual : v.physical = false) (calm : v.disable = none)
    (calmSite : s.ctl.siteResetting v.site = false) :
    s.ctl.fnDestroy p number result = d.startDisable (BitVec.ofNat 8 number) true (some (cmdOf s p))
      (if result.handle ≠ 0#32 then some result else none) := by
  rw [Ctl.fnDestroy, taken.runsManaged mgmt (fun _ => subject)]
  by_cases named : result.handle = 0#32
  · simp [named, small, found, virtual, calm, calmSite]
  · simp [reported named, small, found, virtual, calm, calmSite]

theorem Ctl.fnSetShare_keeps {number share : Nat} {v : Fn} (subject : p.subject = 0#32) (small : number < 256)
    (found : s.ctl.fn? (BitVec.ofNat 8 number) = some v)
    (whole : ((s.ctl.fns.filter (·.num ≠ BitVec.ofNat 8 number)).map Fn.shareDue).sum + share ≤ 1024) (calm : v.disable = none)
    (calmSite : s.ctl.siteResetting v.site = false) (tokenCap energyCap : Nat) :
    s.ctl.fnSetShare p number share tokenCap energyCap = (d.onFn (BitVec.ofNat 8 number) fun x =>
      { x with shareNext := some (share, tokenCap, energyCap) }).finish (cmdOf s p) Status.success 0#32 0 := by
  rw [Ctl.fnSetShare, taken.runsManaged mgmt (fun _ => subject) (by simpa [small, found, calm, calmSite] using whole)]

/-! ### Plans (R48, R52) -/

theorem Ctl.planLoad_accepted {region : RegionRef} {length ix : Nat} {name : Option (BitVec 128)} {h : Fn} {a : Ctl} {j : Job}
    (subject : p.subject = 0#32) (live : f.regionLive region = true) (short : length < 2 ^ 32)
    (suits : f.regionOk region (some length) false = true) (issued : g.issueSelf .job = some (ix, h))
    (accepts : a = (d.acceptJob (cmdOf s p) 0x88 0#32 (.planLoad (name.getD 0#128) length) length [region.handle] false).1)
    (job : a.job? p.fn ix = some j) :
    s.ctl.planLoad p region length (.ok name) = match (generalizing := false) name with
      | none => a.finishJob j Status.permission 0#32 0
      | some n => if a.planRoom n = true then a else a.finishJob j Status.noSpace 0#32 0 := by
  subst accepts
  rw [Ctl.planLoad, taken.runsManaged mgmt (fun _ => subject) (by simpa [live, suits] using short)]
  simp only [readOr, taken.accepted issued (cmdOf s p) rfl, Option.bind_some, cmdOf_fn, job]
  cases name <;> rfl

theorem Ctl.planSelect_waits {l : Option Loaded}
    (named : p.subject = 0#32 ∧ l = none ∨
      p.subject ≠ 0#32 ∧ s.ctl.planAt f p.subject = l ∧ l.isSome = true ∧ s.ctl.yardsOut.length ≤ 1)
    (idle : s.ctl.fe.switch = none) (ready : s.ctl.ldg.ready = true) :
    s.ctl.planSelect p = d.onFe fun x => { x with switch := some ⟨l.map (·.ix), cmdOf s p, false⟩ } := by
  rcases named with ⟨zero, rfl⟩ | ⟨handle, rfl, some, up⟩
  · rw [Ctl.planSelect, taken.runsManaged mgmt (by simp) (by simp [zero, idle, ready])]
    simp [zero]
  · rw [Ctl.planSelect, taken.runsManaged mgmt (by simp) (by simp [some, idle, ready, up])]
    simp [handle, taken.planAt]

/-! ### The ledger (R346, R355) -/

theorem Ctl.folioGet_writes {folio length : Nat} {result : RegionRef} {bs : List Byte} {r : Region} (subject : p.subject = 0#32)
    (named : f.region result.handle = some r) (suits : f.regionOk result none true = true)
    (retrievable : s.ctl.folioBytes folio length = some bs) (inside : result.off + bs.length ≤ r.len) :
    s.ctl.folioGet p folio result length (.ok ()) = (d.hostWrite p.fn r.pasid (r.addr + result.off) bs).finish (cmdOf s p)
      Status.success 0#32 (Bits.ceilDiv bs.length 64) := by
  have region : g.region result.handle = some r := by rw [taken.fetched, Fn.fetchedOne_region, named]
  have folios : d.folioBytes folio length = some bs := by
    obtain ⟨-, -, -, rfl, -⟩ := taken
    simpa [Ctl.folioBytes] using retrievable
  rw [Ctl.folioGet, taken.runsManaged mgmt (fun _ => subject) (by simp [Fn.regionLive, named, suits, retrievable])]
  simp [Ctl.resultWrite, Ctl.regionWrite, region, folios, taken.reaches named suits, taken.num, Nat.not_lt.mpr inside]

theorem Ctl.ledgerConfig_taken {period : Nat} (subject : p.subject = 0#32) (range : 250 ≤ period ∧ period ≤ 60000) :
    s.ctl.ledgerConfig p period = (d.onLdg fun l => { l with nextPeriod := period }).finish (cmdOf s p) Status.success 0#32 0 := by
  rw [Ctl.ledgerConfig, taken.runsManaged mgmt (fun _ => subject) (by simp [range])]

end

end Sys2Proof.Machine

open Sys2Proof Sys2Proof.Machine

/-- Settles O18: each command is one lemma about its own function. That a folio is written by FOLIO_GET is R355's, and the states in which
PLAN_SELECT is refused are R295's and R353's. -/
theorem managementCommandsComplete : Obligations.ManagementCommandsComplete := by
  refine ⟨?_, ?_, ?_, ?_, ?_, ?_, ?_⟩
  · intro s p site health quota f g d n taken mgmt subject isSite least most calm active enabled number room
    exact next_withCtl (Ctl.fnCreate_binds taken mgmt subject ⟨isSite, least, most⟩ calm ⟨active, enabled⟩ number room health)
  · intro s p number result f g v d taken mgmt subject reported small found virtual calm calmSite
    exact next_withCtl (Ctl.fnDestroy_starts taken mgmt subject reported small found virtual calm calmSite)
  · intro s p number share tokenCap energyCap f g v d taken mgmt subject small found whole calm calmSite
    exact next_withCtl (Ctl.fnSetShare_keeps taken mgmt subject small found whole calm calmSite tokenCap energyCap)
  · intro s p region length name f g h d a ix j taken mgmt subject live short suits issued accepts job
    exact next_withCtl (Ctl.planLoad_accepted taken mgmt subject live short suits issued accepts job)
  · intro s p f g d l taken mgmt named idle ready
    exact next_withCtl (Ctl.planSelect_waits taken mgmt named idle ready)
  · intro s p folio result length f g d bs r taken mgmt subject named suits retrievable inside
    exact next_withCtl (Ctl.folioGet_writes taken mgmt subject named suits retrievable inside)
  · intro s p period f g d taken mgmt subject least most
    exact next_withCtl (Ctl.ledgerConfig_taken taken mgmt subject ⟨least, most⟩)

end

section
/-! DOE and SPDM (R333, R372, R373). -/

namespace Sys2Proof.Machine

open Sys2Proof

theorem doeAnswer_answers {s : State} {fn : BitVec 8} (answers : s.ctl.doe fn = true) (bs : List Byte) :
    doeAnswer s fn bs = .next (s.withCtl (s.ctl.answer bs)) := if_pos answers

theorem doeAnswer_silent {s : State} {fn : BitVec 8} (silent : s.ctl.doe fn = false) (bs : List Byte) : doeAnswer s fn bs = .next s :=
  if_neg (by simp [silent])

end Sys2Proof.Machine

open Sys2Proof Sys2Proof.Machine

/-- Settles O20: every request is a `doeAnswer` of its bytes. The encodings of SPDM's bodies are free (log 3). -/
theorem doeAnswersAndChangesNothingElse : Obligations.DoeAnswersAndChangesNothingElse := by
  intro s fn
  constructor
  · intro answers
    refine ⟨fun index => doeAnswer_answers answers _, doeAnswer_answers answers _, fun body => doeAnswer_answers answers _,
      fun ecdsa sha body => ?_, doeAnswer_answers answers _, fun off length => ?_, fun slot off length other => ?_,
      fun slot nonce => doeAnswer_answers answers _, fun i nonce => ⟨fun bs held => ⟨?_, ?_⟩, fun none signed => ?_⟩⟩
    · exact (doeAnswer_answers answers _).trans (by simp only [Bool.and_eq_true])
    · exact (doeAnswer_answers answers _).trans (by simp)
    · exact (doeAnswer_answers answers _).trans (by simp [other])
    · exact (doeAnswer_answers answers _).trans (by simp [held])
    · exact (doeAnswer_answers answers _).trans (by simp [held])
    · exact (doeAnswer_answers answers _).trans (by simp [none])
  · intro silent index i body nonce x y slot off length c request
    simp only [List.mem_cons, List.not_mem_nil, or_false] at request
    rcases request with rfl | rfl | rfl | rfl | rfl | rfl | rfl | rfl <;> exact doeAnswer_silent silent _

end

section
/-! Disable sequences of functions, and the end of a sequence by FLR_TIMEOUT (R314, R317, R326-R329). -/

namespace Sys2Proof.Machine

open Sys2Proof

/-! ### What records and writes leave of a function -/

@[simp] theorem Ctl.site_onSite (c : Ctl) (i : Nat) (f : Site → Site) : (c.onSite i f).site i = f (c.site i) := by
  by_cases first : i = 0 <;> simp [Ctl.site, Ctl.onSite, first]

theorem Ctl.site_of_hub {a b : Ctl} (same : b.hub = a.hub) (i : Nat) : b.site i = a.site i := by simp only [Ctl.site, same]

/-- What binds a function to its number, its site and its state (R309, R327). -/
def Fn.binding (f : Fn) : BitVec 8 × Bool × Nat × FnSt × Option Disable := (f.num, f.physical, f.site, f.st, f.disable)

/-- From `a` to `b` the sites stand and each function in its place keeps its binding. -/
structure Bound (a b : Ctl) : Prop where
  sites : ∀ i, b.site i = a.site i
  fns : b.fns.map Fn.binding = a.fns.map Fn.binding

namespace Bound

variable {a b c : Ctl}

theorem refl (a : Ctl) : Bound a a := ⟨fun _ => rfl, rfl⟩

theorem trans (h : Bound a b) (k : Bound b c) : Bound a c := ⟨fun i => (k.sites i).trans (h.sites i), k.fns.trans h.fns⟩

theorem same (hub : b.hub = a.hub) (fns : b.fns = a.fns) : Bound a b := ⟨Ctl.site_of_hub hub, by rw [fns]⟩

theorem onFn (h : Bound a b) {n : BitVec 8} {f : Fn → Fn} (keeps : ∀ x, (f x).binding = x.binding := by intro; rfl) :
    Bound a (b.onFn n f) := by
  refine h.trans ⟨Ctl.site_of_hub rfl, ?_⟩
  simp only [Ctl.onFn, List.map_map]
  refine List.map_congr_left fun x _ => ?_
  by_cases own : x.num = n <;> simp [own, keeps]

theorem onQueue (h : Bound a b) {n : BitVec 8} {q : Fin 4} {f : Queue → Queue} : Bound a (b.onQueue n q f) := h.onFn

theorem onObjs (h : Bound a b) {f : Objs → Objs} : Bound a (b.onObjs f) := ⟨h.sites, h.fns⟩

theorem ite {p : Prop} [Decidable p] (h : Bound a b) (k : Bound a c) : Bound a (if p then b else c) := by
  split
  · exact h
  · exact k

theorem foldl {α : Type} {f : Ctl → α → Ctl} (step : ∀ c x, Bound c (f c x)) (h : Bound a b) (l : List α) : Bound a (l.foldl f b) := by
  induction l generalizing b with
  | nil => exact h
  | cons x l ih => exact ih (h.trans (step b x))

/-- The raising of an event leaves the bindings. -/
theorem ofSameBut (h : SameBut a b) : Bound a b := by
  obtain ⟨pending, fns⟩ := h.fns
  exact ⟨Ctl.site_of_hub h.hub, by simp [fns, Fn.binding, Function.comp_def]⟩

/-- A function that is found has the binding of the one found before. -/
theorem fn? (h : Bound a b) (n : BitVec 8) : (b.fn? n).map Fn.binding = (a.fn? n).map Fn.binding := by
  have found (c : Ctl) : (c.fn? n).map Fn.binding = (c.fns.map Fn.binding).find? fun x => x.1 = n := by
    rw [List.find?_map]
    rfl
  rw [found, found, h.fns]

/-- Each function has the binding of one before. -/
theorem origin (h : Bound a b) {f : Fn} (mem : f ∈ b.fns) : ∃ g ∈ a.fns, g.binding = f.binding := by
  have listed : f.binding ∈ a.fns.map Fn.binding := h.fns ▸ List.mem_map_of_mem mem
  exact List.mem_map.mp listed

theorem hostWrite (h : Bound a b) {n : BitVec 8} {pasid : Option (BitVec 20)} {addr : Nat} {bs : List Byte} :
    Bound a (b.hostWrite n pasid addr bs) := by
  refine h.trans (.same ?_ (Ctl.hostWrite_fns ..))
  rw [Ctl.hostWrite, Ctl.translate_eq]
  rfl

theorem regionWrite (h : Bound a b) {f : Fn} {r : RegionRef} {bs : List Byte} : Bound a (b.regionWrite f r bs) := by
  unfold Ctl.regionWrite
  split
  · exact h
  · exact .ite h.hostWrite h

theorem deliver (h : Bound a b) {n : BitVec 8} {r : Rec} : Bound a (b.deliver n r) := by
  unfold Ctl.deliver
  split
  · exact h
  · exact .onObjs (.onFn h fun f => by unfold Fn.free; split <;> rfl)

theorem writeRec (h : Bound a b) {f : Fn} {q : Fin 4} {r : Rec} {held : Bool} : Bound a (b.writeRec f q r held) := by
  unfold Ctl.writeRec
  dsimp only
  exact .deliver (.ite (.onFn (.onQueue h.hostWrite)) (.onQueue h.hostWrite))

theorem postFor (h : Bound a b) {m : Cmd} {r : Rec} : Bound a (b.postFor m r) := by
  unfold Ctl.postFor Ctl.post
  split
  · exact h.deliver
  · split
    · exact h
    · exact .ite h.writeRec (.onFn (.onQueue h))

theorem decide (h : Bound a b) {m : Cmd} {status : BitVec 16} {handle : Handle} {result : Nat} {tally : Option (Nat × Nat × Nat)}
    {job : Option Nat} : Bound a (b.decide m status handle result tally job) := by
  unfold Ctl.decide
  exact .postFor (.onQueue (.onFn h))

theorem settle (h : Bound a b) {n : BitVec 8} : Bound a (b.settle n) :=
  h.foldl (fun c w => by
    split
    · dsimp only
      exact .ite (.decide (.onQueue (.onObjs (.refl c)))) (.refl c)
    · exact .refl c) _

theorem drainN (h : Bound a b) {n : BitVec 8} {q : Fin 4} (k : Nat) : Bound a (b.drainN n q k) := by
  induction k generalizing b with
  | zero => exact h
  | succ k ih =>
    unfold Ctl.drainN
    split
    · exact h
    · split
      · exact h
      · exact .ite (ih (.onQueue h.writeRec)) h

/-- What a function's queues hold is written, and the function stays bound as it was (R302). -/
theorem drainAll (h : Bound a b) {n : BitVec 8} : Bound a (b.drainAll n) :=
  h.foldl (fun c q => .onFn (.drainN (.refl c) _) fun f => by dsimp only; split <;> rfl) _

/-- A command that completes leaves every function bound as it was (R279, R301). -/
theorem finish (h : Bound a b) {m : Cmd} {status : BitVec 16} {handle : Handle} {result : Nat} :
    Bound a (b.finish m status handle result) := h.decide.settle

end Bound

/-! ### Functions that are begun to be disabled (R314, R326, R327) -/

/-- A function whose disable sequence is begun where none is under way. -/
def Fn.disabled (f : Fn) (destroy : Bool) (mgr : Option Cmd) (result : Option RegionRef) : Fn :=
  if f.disable.isSome then f
  else
    { f with st := if destroy then .disabling else .resetting, irqMasked := List.range f.vectors
             shareNext := some (0, 0, 0), disable := some ⟨0, destroy, mgr, result, false⟩ }

section
variable (f : Fn) (destroy : Bool) (mgr : Option Cmd) (result : Option RegionRef)

theorem Ctl.startDisable_eq (c : Ctl) (n : BitVec 8) :
    c.startDisable n destroy mgr result = c.onFn n fun f => f.disabled destroy mgr result := rfl

@[simp] theorem Fn.disabled_num : (f.disabled destroy mgr result).num = f.num := by unfold Fn.disabled; split <;> rfl

theorem Fn.disabled_begun : (f.disabled destroy mgr result).disable ≠ none := by
  unfold Fn.disabled
  split
  next begun => exact Option.isSome_iff_ne_none.mp begun
  · simp

variable {f}

theorem Fn.disabled_of_begun (begun : f.disable ≠ none) : f.disabled destroy mgr result = f :=
  if_pos (Option.isSome_iff_ne_none.mpr begun)

end

/-- The sequence of every function that a test takes is begun. -/
def Ctl.disableAll (c : Ctl) (p : Fn → Bool) (destroy : Bool) : Ctl :=
  (c.fns.filter p).foldl (fun c f => c.startDisable f.num destroy none none) c

theorem Ctl.destroyVfs_eq (c : Ctl) (site : Nat) : c.destroyVfs site = c.disableAll (fun f => f.vfOf site) true := rfl

theorem foldl_startDisable (l : List Fn) (destroy : Bool) (c : Ctl) : l.foldl (fun c f => c.startDisable f.num destroy none none) c =
    { c with fns := c.fns.map fun x => if x.num ∈ l.map Fn.num then x.disabled destroy none none else x } := by
  induction l generalizing c with
  | nil => simp
  | cons a l ih =>
    rw [List.foldl_cons, ih]
    simp only [Ctl.startDisable_eq, Ctl.onFn, List.map_map]
    congr 1
    refine List.map_congr_left fun x _ => ?_
    by_cases first : x.num = a.num
    · simp [first, Fn.disabled_of_begun _ _ _ (Fn.disabled_begun x destroy none none)]
    · simp [first]

@[simp] theorem Ctl.disableAll_hub (c : Ctl) (p : Fn → Bool) (destroy : Bool) : (c.disableAll p destroy).hub = c.hub := by
  rw [Ctl.disableAll, foldl_startDisable]

@[simp] theorem Ctl.disableAll_bus (c : Ctl) (p : Fn → Bool) (destroy : Bool) : (c.disableAll p destroy).bus = c.bus := by
  rw [Ctl.disableAll, foldl_startDisable]

/-- Each of a site's physical functions, or each of its virtual ones, is in its disable sequence. -/
def Ctl.Disabling (c : Ctl) (physical : Bool) (site : Nat) : Prop :=
  ∀ f ∈ c.fns, f.physical = physical → f.site = site → f.disable ≠ none

namespace Ctl.Disabling

variable {a b : Ctl} {physical : Bool} {site : Nat}

theorem bound (h : a.Disabling physical site) (k : Bound a b) : b.Disabling physical site := by
  intro f mem kind at'
  obtain ⟨g, listed, same⟩ := k.origin mem
  simp only [Fn.binding, Prod.mk.injEq] at same
  obtain ⟨-, physical', site', -, disable⟩ := same
  exact disable ▸ h g listed (physical'.trans kind) (site'.trans at')

/-- A change of each function that begins its sequence or leaves it. -/
theorem map (h : a.Disabling physical site) {f : Fn → Fn} (fns : b.fns = a.fns.map f)
    (step : ∀ x, f x = x ∨ ∃ destroy mgr result, f x = x.disabled destroy mgr result) : b.Disabling physical site := by
  intro y mem kind at'
  obtain ⟨x, listed, rfl⟩ := List.mem_map.mp (fns ▸ mem)
  rcases step x with same | ⟨destroy, mgr, result, begun⟩
  · rw [same] at kind at' ⊢
    exact h x listed kind at'
  · exact begun ▸ x.disabled_begun destroy mgr result

theorem startDisable (h : a.Disabling physical site) (n : BitVec 8) (destroy : Bool) (mgr : Option Cmd) (result : Option RegionRef) :
    (a.startDisable n destroy mgr result).Disabling physical site :=
  h.map rfl fun x => by
    by_cases own : x.num = n
    · exact .inr ⟨destroy, mgr, result, if_pos own⟩
    · exact .inl (if_neg own)

theorem disableAll (h : a.Disabling physical site) (p : Fn → Bool) (destroy : Bool) : (a.disableAll p destroy).Disabling physical site :=
  h.map (congrArg Ctl.fns (foldl_startDisable ..)) fun x => by
    by_cases own : x.num ∈ (a.fns.filter p).map Fn.num
    · exact .inr ⟨destroy, none, none, if_pos own⟩
    · exact .inl (if_neg own)

/-- The functions that the test takes are in their sequences. -/
theorem ofAll (c : Ctl) {p : Fn → Bool} (takes : ∀ f, f.physical = physical → f.site = site → p f = true) (destroy : Bool) :
    (c.disableAll p destroy).Disabling physical site := by
  intro y mem kind at'
  rw [Ctl.disableAll, foldl_startDisable] at mem
  obtain ⟨x, listed, rfl⟩ := List.mem_map.mp mem
  by_cases begun : x.num ∈ (c.fns.filter p).map Fn.num
  · rw [if_pos begun]
    exact x.disabled_begun destroy none none
  · rw [if_neg begun] at kind at'
    exact absurd (List.mem_map_of_mem (List.mem_filter.mpr ⟨listed, takes x kind at'⟩)) begun

end Ctl.Disabling

theorem Fn.vfOf_iff (f : Fn) (site : Nat) : f.vfOf site = true ↔ f.physical = false ∧ f.site = site := by simp [Fn.vfOf]

theorem Ctl.destroyVfs_disabling (c : Ctl) (site : Nat) : (c.destroyVfs site).Disabling false site :=
  .ofAll c (fun f virtual at' => (f.vfOf_iff site).mpr ⟨virtual, at'⟩) true

/-! ### The commands that begin a sequence (R314, R326, R327) -/

theorem Ctl.flr_virtual {c : Ctl} {n : BitVec 8} {f : Fn} (found : c.fn? n = some f) (virtual : f.physical = false) :
    c.flr n = c.startDisable n false none none := by
  simp [Ctl.flr, found, virtual]

theorem Ctl.flr_physical {c : Ctl} {n : BitVec 8} {f : Fn} (found : c.fn? n = some f) (physical : f.physical = true) :
    c.flr n = ((c.resetConfig f.site).destroyVfs f.site).startDisable n false none none := by
  simp [Ctl.flr, found, physical]

theorem Ctl.fn?_startDisable {c : Ctl} {n : BitVec 8} {f : Fn} (found : c.fn? n = some f) (destroy : Bool) (mgr : Option Cmd)
    (result : Option RegionRef) : (c.startDisable n destroy mgr result).fn? n = some (f.disabled destroy mgr result) :=
  Ctl.fn?_onFn found _ fun _ => Fn.disabled_num ..

/-- After the sequence of a number is begun, each function of it is in its sequence. -/
theorem Ctl.startDisable_begun {c : Ctl} {n : BitVec 8} {destroy : Bool} {mgr : Option Cmd} {result : Option RegionRef} {g : Fn}
    (found : (c.startDisable n destroy mgr result).fn? n = some g) : g.disable ≠ none := by
  obtain ⟨x, -, rfl⟩ := List.mem_map.mp (List.mem_of_find?_eq_some found)
  have own := Ctl.fn?_num found
  by_cases named : x.num = n
  · rw [if_pos named]
    exact x.disabled_begun destroy mgr result
  · rw [if_neg named] at own
    exact absurd own named

theorem Ctl.vfEnableClear_eq {c : Ctl} {n : BitVec 8} {f : Fn} (found : c.fn? n = some f) (physical : f.physical = true) :
    c.vfEnableClear n = (c.onSite f.site fun x => { x with vfEnable := false }).destroyVfs f.site := by
  simp [Ctl.vfEnableClear, found, physical]

/-! ### The end of a sequence (R328, R329) -/

/-- The objects of a function are issued their handles anew: its table changes, and what is left to issue. -/
theorem Fn.issueAll_eq (f : Fn) (l : List (ObjKind × Nat)) : ∃ nextIx freed handles,
    (f.issueAll l).1 = { f with nextIx := nextIx, freed := freed, handles := handles } := by
  induction l generalizing f with
  | nil => exact ⟨_, _, _, rfl⟩
  | cons x l ih =>
    unfold Fn.issueAll
    split
    · exact ih f
    next ix g issued =>
      obtain ⟨_, _, rfl⟩ := Fn.issue_eq issued
      exact ih _

theorem Ctl.fn?_none_iff (c : Ctl) (n : BitVec 8) : c.fn? n = none ↔ ∀ f ∈ c.fns, f.num ≠ n := by
  simp [Ctl.fn?]

/-- A function that takes the place of those of its number is found under it. -/
theorem Ctl.fn?_onFn_replaced {c : Ctl} {n : BitVec 8} {f g : Fn} (found : c.fn? n = some f) (num : g.num = n) :
    (c.onFn n fun _ => g).fn? n = some g := by
  have replaced := find?_map_replaced found (a := g) (by simpa using num)
  simp only [decide_eq_true_eq] at replaced
  exact replaced

theorem Ctl.fn?_onFn_replaced_none {c : Ctl} {n m : BitVec 8} {g : Fn} (gone : c.fn? n = none) (num : g.num = m) :
    (c.onFn m fun _ => g).fn? n = none := by
  rw [Ctl.fn?_none_iff] at gone ⊢
  intro y mem
  obtain ⟨x, listed, rfl⟩ := List.mem_map.mp mem
  by_cases own : x.num = m
  · rw [if_pos own, num, ← own]
    exact gone x listed
  · rw [if_neg own]
    exact gone x listed

theorem Bound.fn?_none {a b : Ctl} (h : Bound a b) {n : BitVec 8} (gone : a.fn? n = none) : b.fn? n = none := by
  simpa [gone] using h.fn? n

/-- A function-level reset that is swept ends with the function in its created state, without a region (R328, R329). -/
theorem Ctl.finishFlr_created {c : Ctl} {n : BitVec 8} {f : Fn} {d : Disable} (found : c.fn? n = some f) (under : f.disable = some d)
    (swept : d.swept = true) : ∃ h, (c.finishFlr n).fn? n = some h ∧ h.disable = none ∧ h.regions = [] ∧
      h.st = (if (c.site f.site).link = .hold then .linkHold else .active) ∧ h.queues = List.replicate 4 {} := by
  obtain ⟨nextIx, freed, handles, issued⟩ := Fn.issueAll_eq (Fn.created n f.physical f.site f.health f.quota f.shedKey)
    ((c.ownImages n).map (fun i => (ObjKind.image, i.ix)) ++ (c.renumber n (((c.ownImages n).map fun i => (ObjKind.image, i.ix)).length + 1)).1)
  simp only [Ctl.finishFlr, found, issued, under, Option.bind_some, swept, if_true]
  exact ⟨_, Ctl.fn?_onFn_replaced (f := f) found rfl, rfl, rfl, rfl, rfl⟩

/-- An FN_DESTROY ends with the function gone (R329). -/
theorem Ctl.finishDestroy_gone (c : Ctl) (f : Fn) (d : Disable) : (c.finishDestroy f d).fn? f.num = none := by
  have gone : ({ (c.freeAdapters f.num).dropXlats f.num with
      fns := (c.freeAdapters f.num).fns.filter (·.num ≠ f.num) } : Ctl).fn? f.num = none := by
    simp [Ctl.fn?_none_iff]
  unfold Ctl.finishDestroy
  dsimp only
  split
  · exact gone
  next g mgmt =>
    obtain ⟨_, _, _, issued⟩ := Fn.issueAll_eq g ((c.ownImages f.num).map fun i => (ObjKind.image, i.ix))
    have passed := Ctl.fn?_onFn_replaced_none (g := (g.issueAll ((c.ownImages f.num).map fun i => (ObjKind.image, i.ix))).1) gone
      (by rw [issued])
    split
    · exact passed
    · split
      · exact (Bound.finish (.onObjs (.refl _))).fn?_none passed
      · exact (Bound.finish (.regionWrite (.onObjs (.refl _)))).fn?_none passed

/-- FLR_TIMEOUT leaves the registers and, of the engines, all but the generations (R328). -/
theorem flrTimeout_keeps (s : State) (n : BitVec 8) :
    (flrTimeout s n).cfg = s.cfg ∧ (flrTimeout s n).dp = { s.dp with gens := (flrTimeout s n).dp.gens } := by
  unfold flrTimeout
  split <;> exact ⟨rfl, rfl⟩

/-- Where the bell has swept the function, its stalls are struck and its sequence ends (R328). -/
theorem flrTimeout_swept {s : State} {n : BitVec 8} {f : Fn} {d : Disable} (found : s.ctl.fn? n = some f) (under : f.disable = some d)
    (swept : d.swept = true) : (flrTimeout s n).ctl = if d.destroy then (s.ctl.strikeAll fun st => st.fn = n).finishDestroy f d
      else (s.ctl.strikeAll fun st => st.fn = n).finishFlr n := by
  have struck : (s.ctl.strikeAll fun st => st.fn = n).fn? n = some f := found
  simp [flrTimeout, found, under, swept, Ctl.finishDisable, struck]

end Sys2Proof.Machine

open Sys2Proof Sys2Proof.Machine

/-- Settles O29: a sequence is begun once (`Fn.disabled`), for each virtual function of a site by `Ctl.destroyVfs_disabling`; FLR_TIMEOUT
ends it by `Ctl.finishFlr_created` or `Ctl.finishDestroy_gone`. -/
theorem functionsAreDisabled : Obligations.FunctionsAreDisabled := by
  refine ⟨fun s fn f found => ⟨fun virtual calm => ?_, fun virtual begun => ?_, fun physical => ?_, fun physical => ?_,
    fun pasid addr pages => ?_⟩, fun s fn f d found under => ⟨_, rfl, (flrTimeout_keeps s fn).1, (flrTimeout_keeps s fn).2,
      fun swept reset => ?_, fun swept destroy => ?_⟩⟩
  · refine ⟨_, _, next_withCtl (Ctl.flr_virtual found virtual), rfl, rfl, rfl, Ctl.fn?_startDisable found false none none, ?_⟩
    simp [Fn.disabled, calm, Fn.vectors, virtual]
  · refine ⟨_, next_withCtl (Ctl.flr_virtual found virtual), (Ctl.fn?_startDisable found false none none).trans ?_⟩
    rw [Fn.disabled_of_begun _ _ _ begun]
  · refine ⟨_, next_withCtl (Ctl.flr_physical found physical), rfl, rfl, fun m g listed which => ?_⟩
    rcases which with rfl | ofSite
    · exact Ctl.startDisable_begun listed
    · obtain ⟨virtual, at'⟩ := (Fn.vfOf_iff ..).mp ofSite
      exact (Ctl.destroyVfs_disabling _ f.site).startDisable fn false none none g (List.mem_of_find?_eq_some listed) virtual at'
  · refine ⟨_, next_withCtl (Ctl.vfEnableClear_eq found physical), rfl, rfl, ?_, fun m g listed ofSite => ?_⟩
    · exact congrArg Site.vfEnable ((Ctl.site_of_hub (Ctl.disableAll_hub ..) f.site).trans (Ctl.site_onSite ..))
    · obtain ⟨virtual, at'⟩ := (Fn.vfOf_iff ..).mp ofSite
      exact Ctl.destroyVfs_disabling _ f.site g (List.mem_of_find?_eq_some listed) virtual at'
  · refine ⟨_, rfl, rfl, rfl, rfl, fun x => ?_⟩
    simp only [List.mem_filter, Bool.not_eq_true', ← Bool.not_eq_true, Bool.and_eq_true, decide_eq_true_eq, and_assoc]
  · obtain ⟨h, created, calm, regions, st, queues⟩ :=
      Ctl.finishFlr_created (c := s.ctl.strikeAll fun st => st.fn = fn) (f := f) found under swept
    rw [flrTimeout_swept found under swept, reset]
    exact ⟨h, created, calm, regions, st, by simp [queues], by simp [queues]⟩
  · rw [flrTimeout_swept found under swept, destroy, ← Ctl.fn?_num found]
    exact Ctl.finishDestroy_gone ..

end

section
/-! Sites (R306, R308, R326, R330, R331): resets, links lost and back, and links that train. -/

namespace Sys2Proof.Machine

open Sys2Proof

/-! ### What events of a site, and its jobs that wait, leave -/

theorem Ctl.raise_site_ev (c : Ctl) (cfg : Cfg) (bits : BitVec 16) : (c.raise cfg .site bits).ev .site = (c.ev .site).raise bits :=
  congrArg Hub.siteEvent (raise_sameBut c cfg .site bits nofun).hub

/-- The raising of SITE_EVENT leaves the sites and every function's binding. -/
theorem Bound.raiseSite {a b : Ctl} (h : Bound a b) {cfg : Cfg} {bits : BitVec 16} : Bound a (b.raise cfg .site bits) := by
  have entered : Bound b (b.setEv .site ((b.ev .site).raise bits)) := ⟨fun _ => rfl, rfl⟩
  exact (h.trans entered).trans (.ofSameBut (raise_sameBut b cfg .site bits nofun))

theorem Bound.hostReads {a b : Ctl} (h : Bound a b) {i : Nat} {hold : Bool} : Bound a (b.hostReads i hold) :=
  ⟨h.sites, h.fns⟩

@[simp] theorem Ctl.onSite_ev_site (c : Ctl) (i : Nat) (f : Site → Site) : (c.onSite i f).ev .site = c.ev .site := by
  by_cases first : i = 0 <;> simp [Ctl.ev, Ctl.onSite, first]

/-- Where no function of a site is in a state, none is after a step that keeps the bindings. -/
theorem Bound.noneIn {a b : Ctl} (h : Bound a b) {i : Nat} {st : FnSt} (out : ∀ f ∈ a.fns, f.site = i → f.st ≠ st) :
    ∀ f ∈ b.fns, f.site = i → f.st ≠ st := by
  intro f mem at'
  obtain ⟨g, listed, same⟩ := h.origin mem
  simp only [Fn.binding, Prod.mk.injEq] at same
  obtain ⟨-, -, site, state, -⟩ := same
  exact state ▸ out g listed (site.trans at')

/-- The site of a function that is found stands where its binding does. -/
theorem Bound.siteOf {a b : Ctl} (h : Bound a b) (n : BitVec 8) : (b.fn? n).map Fn.site = (a.fn? n).map Fn.site := by
  have same := congrArg (Option.map fun x : BitVec 8 × Bool × Nat × FnSt × Option Disable => x.2.2.1) (h.fn? n)
  rw [Option.map_map, Option.map_map] at same
  exact same

/-- The jobs that wait for a site's link are known by the jobs and the sites of their functions (R330). -/
theorem Ctl.hostReads_objs {a b : Ctl} (objs : b.objs = a.objs) (sites : ∀ n, (b.fn? n).map Fn.site = (a.fn? n).map Fn.site) (i : Nat)
    (hold : Bool) : (b.hostReads i hold).objs = (a.hostReads i hold).objs := by
  have ofSite (c : Ctl) (n : BitVec 8) : ((c.fn? n).any fun f => f.site = i) = ((c.fn? n).map Fn.site).any fun j => j = i := by
    cases c.fn? n <;> rfl
  simp only [Ctl.hostReads, Ctl.onObjs_objs, ofSite, sites, objs]

/-! ### A site reset (R326) -/

/-- A site with its link in reset and its physical function's configuration cleared. -/
def Site.beginReset (x : Site) : Site := { x with link := .reset, degraded := false, vfEnable := false, numVfs := 0 }

section
variable {c : Ctl} {cfg : Cfg} {i : Nat} (populated : (c.site i).link ≠ .absent)
include populated

theorem Ctl.siteReset_eq : c.siteReset cfg i =
    (((((c.onSite i Site.beginReset).destroyVfs i).onBus fun b => { b with buffered := b.buffered.filter fun w => w.1 ≠ i }).disableAll
      (fun f => f.physical && f.site = i) false).raise cfg .site (siteBit 4 i)) := by
  rw [Ctl.siteReset, if_neg populated]
  have twice : ((c.onSite i fun x => { x with link := .reset, degraded := false }).resetConfig i) = c.onSite i Site.beginReset := by
    by_cases first : i = 0 <;> simp [Ctl.resetConfig, Ctl.onSite, Ctl.onHub, Site.beginReset, first]
  rw [twice]
  rfl

theorem Ctl.siteReset_site : (c.siteReset cfg i).site i = (c.site i).beginReset := by
  rw [Ctl.siteReset_eq populated, (Bound.raiseSite (.refl _)).sites, Ctl.site_of_hub (Ctl.disableAll_hub ..)]
  exact (Ctl.site_of_hub (Ctl.disableAll_hub ..) i).trans (Ctl.site_onSite ..)

theorem Ctl.siteReset_ev : (c.siteReset cfg i).ev .site = (c.ev .site).raise (siteBit 4 i) := by
  rw [Ctl.siteReset_eq populated, Ctl.raise_site_ev, ← c.onSite_ev_site i Site.beginReset]
  simp [Ctl.ev, Ctl.destroyVfs_eq]

theorem Ctl.siteReset_buffered : ∀ w ∈ (c.siteReset cfg i).bus.buffered, w.1 ≠ i := by
  rw [Ctl.siteReset_eq populated, (raise_sameBut _ cfg .site _ nofun).bus]
  intro w mem
  simp only [Ctl.setEv, Ctl.onHub_bus, Ctl.disableAll_bus, Ctl.onBus_bus, List.mem_filter, decide_eq_true_eq] at mem
  exact mem.2

/-- Each function of the site is in its disable sequence, be it physical or virtual. -/
theorem Ctl.siteReset_disabling (physical : Bool) : (c.siteReset cfg i).Disabling physical i := by
  rw [Ctl.siteReset_eq populated]
  refine Ctl.Disabling.bound ?_ (.raiseSite (.refl _))
  cases physical with
  | true => exact .ofAll _ (fun f kind at' => by simp [kind, at']) false
  | false =>
    refine .disableAll ?_ _ false
    exact (Ctl.destroyVfs_disabling (c.onSite i Site.beginReset) i).bound ⟨fun _ => rfl, rfl⟩

end

/-! ### Links that are lost and return (R308, R330, R331) -/

/-- A function of a site that is active, in link hold. -/
def Fn.heldBy (i : Nat) (f : Fn) : Fn := if f.site = i && f.st = .active then { f with st := .linkHold } else f

/-- A function of a site in link hold, active again. -/
def Fn.wokenBy (i : Nat) (f : Fn) : Fn := if f.site = i && f.st = .linkHold then { f with st := .active, linkBuf := 0 } else f

theorem Fn.heldBy_num (i : Nat) (f : Fn) : (f.heldBy i).num = f.num := by unfold Fn.heldBy; split <;> rfl
theorem Fn.heldBy_site (i : Nat) (f : Fn) : (f.heldBy i).site = f.site := by unfold Fn.heldBy; split <;> rfl

theorem Fn.heldBy_st {i : Nat} {f : Fn} (at' : (f.heldBy i).site = i) : (f.heldBy i).st ≠ .active := by
  rw [Fn.heldBy_site] at at'
  by_cases active : f.st = .active <;> simp [Fn.heldBy, at', active]

theorem Fn.wokenBy_st {i : Nat} {f : Fn} (at' : (f.wokenBy i).site = i) : (f.wokenBy i).st ≠ .linkHold := by
  unfold Fn.wokenBy at at' ⊢
  split
  · nofun
  next other =>
    rw [if_neg other] at at'
    simpa [at'] using other

section
variable {c : Ctl} {cfg : Cfg} {i : Nat}

/-- The controls with the link of a site lost and its functions in link hold. -/
def Ctl.holding (c : Ctl) (cfg : Cfg) (i : Nat) : Ctl :=
  let d := (c.raise cfg .site (siteBit 0 i)).onSite i fun x => { x with link := .hold }
  { d with fns := d.fns.map (Fn.heldBy i) }

theorem Ctl.linkDown_holds (active : (c.site i).link = .active) (time : cfg.holdTime ≠ 0) :
    c.linkDown cfg i = (c.holding cfg i).hostReads i true := by
  rw [Ctl.linkDown, if_neg (by simp [active]), if_neg time]
  rfl

theorem Ctl.linkDown_resets (active : (c.site i).link = .active) (time : cfg.holdTime = 0) :
    c.linkDown cfg i = (c.raise cfg .site (siteBit 0 i)).siteReset cfg i := by
  rw [Ctl.linkDown, if_neg (by simp [active]), if_pos time]

theorem Ctl.holding_site : (c.holding cfg i).site i = { c.site i with link := .hold } :=
  (Ctl.site_onSite (c.raise cfg .site (siteBit 0 i)) i fun x => { x with link := .hold }).trans
    (by rw [(Bound.raiseSite (.refl c)).sites])

theorem Ctl.holding_ev : (c.holding cfg i).ev .site = (c.ev .site).raise (siteBit 0 i) :=
  (Ctl.onSite_ev_site (c.raise cfg .site (siteBit 0 i)) i fun x => { x with link := .hold }).trans (Ctl.raise_site_ev ..)

theorem Ctl.holding_st : ∀ f ∈ (c.holding cfg i).fns, f.site = i → f.st ≠ .active := by
  intro f mem at'
  obtain ⟨x, -, rfl⟩ := List.mem_map.mp mem
  exact Fn.heldBy_st at'

/-- The jobs that wait for the link are those of the site's functions (R330). -/
theorem Ctl.holding_objs : ((c.holding cfg i).hostReads i true).objs = (c.hostReads i true).objs := by
  refine Ctl.hostReads_objs (b := c.holding cfg i) (Ctl.raise_objs ..) (fun n => ?_) i true
  rw [Ctl.fn?_map rfl (Fn.heldBy_num i), Option.map_map]
  simp only [Function.comp_def, Fn.heldBy_site]
  exact (Bound.raiseSite (cfg := cfg) (bits := siteBit 0 i) (.refl c)).siteOf n

/-- The controls with the link of a site returned, its buffer taken out and its functions active. -/
def Ctl.woken (c : Ctl) (i : Nat) : Ctl :=
  let d := (c.onSite i fun x => { x with link := .active }).onBus fun b => { b with buffered := b.buffered.filter fun w => w.1 ≠ i }
  { d with fns := d.fns.map (Fn.wokenBy i) }

theorem Ctl.woken_site : (c.woken i).site i = { c.site i with link := .active } :=
  Ctl.site_onSite c i fun x => { x with link := .active }

theorem Ctl.woken_st : ∀ f ∈ (c.woken i).fns, f.site = i → f.st ≠ .linkHold := by
  intro f mem at'
  obtain ⟨x, -, rfl⟩ := List.mem_map.mp mem
  exact Fn.wokenBy_st at'

/-- What the buffer held and the functions' records are written, and SITE_EVENT raised (R331). -/
theorem Ctl.linkUp_eq (held : (c.site i).link = .hold) : ∃ d, Bound (c.woken i) d ∧ c.linkUp cfg i = d.raise cfg .site (siteBit 2 i) := by
  rw [Ctl.linkUp, if_neg (by simp [held])]
  refine ⟨_, ?_, rfl⟩
  exact .foldl (fun c f => .drainAll (.refl c)) (.foldl (fun c w => .hostWrite (.refl c)) (.hostReads (.refl (c.woken i))) _) _

end

/-! ### Links that train (R306) -/

theorem Ctl.linkTrained_site {c : Ctl} {i : Nat} (trains : (c.site i).link = .training ∨ (c.site i).link = .reset) (repaired : BitVec 4)
    (up : Bool) : (c.linkTrained i repaired up).site i =
      { c.site i with link := if up = true then .active else .training, repaired := repaired } := by
  rw [Ctl.linkTrained, if_neg (by rcases trains with link | link <;> simp [link])]
  dsimp only
  split
  · rw [(Bound.foldl (fun c f => .drainAll (.refl c)) (.refl _) _).sites, Ctl.site_onSite]
  · exact Ctl.site_onSite ..

end Sys2Proof.Machine

open Sys2Proof Sys2Proof.Machine

/-- Settles O30: a reset is `Ctl.siteReset_eq`, a lost link `Ctl.linkDown_holds`, a link that returns `Ctl.linkUp_eq`, and a link that
trains `Ctl.linkTrained_site`. -/
theorem sitesResetHoldAndTrain : Obligations.SitesResetHoldAndTrain := by
  intro s i
  refine ⟨fun populated => ?_, fun n f mgmt served found other => ?_, fun active time => ?_, fun active time => ?_, fun held => ?_,
    fun held => if_pos held, fun single active whole => ?_, fun repaired up trains => ?_⟩
  · have site := Ctl.siteReset_site (cfg := s.cfg) populated
    refine ⟨_, rfl, rfl, rfl, congrArg Site.link site, congrArg Site.degraded site, Ctl.siteReset_ev populated,
      Ctl.siteReset_buffered populated, fun m g listed at' => ?_⟩
    exact Ctl.siteReset_disabling populated g.physical g (List.mem_of_find?_eq_some listed) rfl at'
  · exact if_pos (by simp [mgmt, served, found, other])
  · have kept : Bound (s.ctl.holding s.cfg i.val) ((s.ctl.holding s.cfg i.val).hostReads i.val true) := .hostReads (.refl _)
    exact ⟨_, next_withCtl (Ctl.linkDown_holds active time), rfl, rfl, congrArg Site.link Ctl.holding_site, Ctl.holding_ev, Ctl.holding_objs,
      fun m g listed => kept.noneIn Ctl.holding_st g (List.mem_of_find?_eq_some listed)⟩
  · have link : ((s.ctl.raise s.cfg .site (siteBit 0 i.val)).site i.val).link ≠ .absent := by
      simp [(Bound.raiseSite (.refl s.ctl)).sites, active]
    exact ⟨_, next_withCtl (Ctl.linkDown_resets active time), rfl, rfl, congrArg Site.link (Ctl.siteReset_site link)⟩
  · obtain ⟨d, bound, up⟩ := Ctl.linkUp_eq (cfg := s.cfg) held
    have raised : Bound (s.ctl.woken i.val) (d.raise s.cfg .site (siteBit 2 i.val)) := bound.raiseSite
    refine ⟨_, next_withCtl up, rfl, rfl, congrArg Site.link ((raised.sites i.val).trans Ctl.woken_site), ?_, fun m g listed =>
      raised.noneIn Ctl.woken_st g (List.mem_of_find?_eq_some listed)⟩
    have returned : ((d.ev .site).raise (siteBit 2 i.val)).bits.getLsbD (2 + i.val) = true := by
      fin_cases i <;> simp [EventReg.raise, siteBit]
    exact (congrArg (fun e : EventReg => e.bits.getLsbD (2 + i.val)) (Ctl.raise_site_ev ..)).trans returned
  · have step : exec .siteDegraded s = .next (s.withCtl ((s.ctl.onSite 0 fun x => { x with degraded := true }).raise s.cfg .site 64#16)) :=
      if_neg (by simp [single, active, whole])
    refine ⟨_, step, rfl, rfl, ?_, (Ctl.raise_site_ev ..).trans (by rw [Ctl.onSite_ev_site]), Ctl.raise_objs ..⟩
    exact ((Bound.raiseSite (.refl _)).sites 0).trans (Ctl.site_onSite ..)
  · exact ⟨_, rfl, rfl, rfl, Ctl.linkTrained_site trains repaired up⟩

end

section
/-! What a frozen device runs (R450), and what raising an event does (R454). -/

namespace Sys2Proof.Machine

open Sys2Proof

/-! ### A frozen device (R450) -/

section

variable {s : State} (halted : s.ctl.hub.halted = true)
include halted

theorem runEngine_halted {o : EngOp} {needs : List Need} {formats inside : Bool} {dests : List (Nat × Nat)} {work : List (EnergyClass × Nat)}
    {f : Nat → List Loc → Bool → Dp → Dp} : runEngine s o needs formats inside dests work f = .next s :=
  runEngine_held (issues_halted halted ..)

theorem laneOp_halted (o : EngOp) (srcs : List Src) (d : Dst) (f : List (List Word) → List Word × ArithFlags) :
    laneOp o srcs d f s = .next s := by
  unfold laneOp
  exact runEngine_halted halted

theorem reduceOp_halted (o : EngOp) (a : Src) (d : Dst) (f : Word → Word → Word × ArithFlags) (e : Word) :
    reduceOp o a d f e s = .next s := by
  unfold reduceOp
  exact runEngine_halted halted

theorem accOp_halted (o : EngOp) (slot : Byte) (a : Src) (f : Nat → Word → Bool → Dp → Dp × ArithFlags) :
    accOp o slot a f s = .next s := by
  unfold accOp
  exact runEngine_halted halted

theorem nmaOp_halted (kind : Nat) (o : NmaOp) : nmaOp kind o s = .next s :=
  if_pos (by simp [issues_halted halted])

theorem routeStep_halted (k : Yard) (layer : Nat) (at0 : When) (f : Router → RouteLayer → RouteLayer) : routeStep s k layer at0 f = .next s :=
  if_pos halted

theorem doneReport_halted (d : DoneIn) : doneReport s d = s := by
  have barred : s.ctl.mayReport s.dp d.yard d.cluster ≠ true := fun may => by
    have running := ((Ctl.mayReport_iff ..).1 may).1
    simp [halted] at running
  exact if_pos (by simpa using barred)

end

/-- No command that a sequencer, the front end or the tick carries out happens on a frozen device (R450). -/
theorem exec_frozenOut {c : Instr} {s : State} (frozen : frozenOut c = true) (halted : s.ctl.hub.halted = true) : exec c s = .next s := by
  have held := issues_halted halted
  cases c with
  | add | sub | mul | fma | abs | neg | min | max | cmp | sel | cvt =>
    simp only [exec, execAdd, execSub, execMul, execFma, execAbs, execNeg, execMin, execMax, execCmp, execSel, execCvt, laneOp_halted halted]
  | rsum | rmax | rmin => simp only [exec, execRsum, execRmax, execRmin, reduceOp_halted halted]
  | welfordAcc | ssqAcc => simp only [exec, execWelfordAcc, execSsqAcc, accOp_halted halted]
  | mxeDotProduct | pairMerge | accReadout | kvConversion | rowq =>
    simp only [exec, execMxeDotProduct, execPairMerge, execAccReadout, execKvConversion, execRowq, runEngine_halted halted]
  | welfordMerge | varFinish | ssqMerge | rmsFinish =>
    simp only [exec, execWelfordMerge, execVarFinish, execSsqMerge, execRmsFinish, runEngine_halted halted]
  | smxTile | smxMerge | smxFinish | rescale =>
    simp only [exec, execSmxTile, execSmxMerge, execSmxFinish, execRescale, runEngine_halted halted]
  | nmaLatent | nmaGqa => exact nmaOp_halted halted ..
  | countReduce | slotBuild | slotTableMulticast | baseOffsetReturn =>
    simp only [exec, execCountReduce, execSlotBuild, execSlotTableMulticast, execBaseOffsetReturn, routeStep_halted halted]
  | routeTopk | sendRecord | expertStream | returnRecord | gradientPartial | tuneUpdate | weightRestore | kvRestore | appendScatterStep
  | bell => exact if_pos halted
  | sfn | sxeWrite | fxeEntryIssue | wfence => exact if_pos (by simp [held])
  | mark => exact if_neg (by simp [held])
  | clusterBarrier => exact exec_clusterBarrier_held (.inr fun l => by simp [Ctl.segment, halted])
  | admissionCutoff => exact congrArg _ (cutoff_idle (.inr (.inr (.inr halted))) _)
  | doneReport => exact congrArg _ (doneReport_halted halted _)
  | _ => exact absurd frozen Bool.false_ne_true

/-! ### Raising an event (R454) -/

/-- What only SameBut may touch leaves every event register but DBG_EVENT. -/
theorem SameBut.ev {a b : Ctl} (same : SameBut a b) {r : EvReg} (other : r ≠ .dbg) : b.ev r = a.ev r := by
  obtain ⟨d, p, rfl⟩ := same
  cases r with
  | dbg => exact absurd rfl other
  | _ => rfl

theorem Ctl.ev_setEv_same (c : Ctl) (r : EvReg) (e : EventReg) : (c.setEv r e).ev r = e := by
  cases r <;> simp [Ctl.ev, Ctl.setEv]

theorem Ctl.ev_setEv_other (c : Ctl) {r x : EvReg} (other : x ≠ r) (e : EventReg) : (c.setEv r e).ev x = c.ev x := by
  cases r with
  | arith k | mem k | kv k | yras k =>
    cases x with
    | arith j | mem j | kv j | yras j => grind [Ctl.ev, Ctl.setEv, Ctl.yd_onYard]
    | _ => rfl
  | _ =>
    cases x with
    | arith j | mem j | kv j | yras j => rfl
    | _ => simp_all [Ctl.ev, Ctl.setEv]

/-- Beside DBG_EVENT, every event register stands after an event is raised as its own register leaves it. -/
theorem Ctl.raise_ev (c : Ctl) (cfg : Cfg) (r : EvReg) (bits : BitVec 16) {x : EvReg} (other : x ≠ .dbg) :
    (c.raise cfg r bits).ev x = (c.setEv r ((c.ev r).raise bits)).ev x := by
  by_cases supply : r = .pwr
  · subst supply
    obtain ⟨d, same, raised⟩ := raise_pwr c cfg bits
    rw [raised, ← same.ev other]
    cases x <;> rfl
  · exact (raise_sameBut c cfg r bits supply).ev other

theorem Ctl.raise_ev_same (c : Ctl) (cfg : Cfg) {r : EvReg} (bits : BitVec 16) (other : r ≠ .dbg) :
    (c.raise cfg r bits).ev r = (c.ev r).raise bits :=
  (Ctl.raise_ev c cfg r bits other).trans (Ctl.ev_setEv_same ..)

theorem Ctl.raise_ev_other (c : Ctl) (cfg : Cfg) {r x : EvReg} (bits : BitVec 16) (apart : x ≠ r) (other : x ≠ .dbg) :
    (c.raise cfg r bits).ev x = c.ev x :=
  (Ctl.raise_ev c cfg r bits other).trans (Ctl.ev_setEv_other c apart _)

/-- A bit that is raised stands in its register, whichever that is. -/
theorem Ctl.raise_bit (c : Ctl) (cfg : Cfg) (r : EvReg) {bits : BitVec 16} {i : Nat} (set : bits.getLsbD i = true) :
    ((c.raise cfg r bits).ev r).bits.getLsbD i = true := by
  by_cases debug : r = .dbg
  · subst debug
    exact raise_dbg_bit c cfg set
  · simp [Ctl.raise_ev_same c cfg bits debug, EventReg.raise, set]

/-- A sequence number that advances is not 0 again (R454). -/
theorem nextSeq_ne_zero (q : BitVec 16) : nextSeq q ≠ 0#16 := by
  unfold nextSeq
  split
  · decide
  · bv_omega

end Sys2Proof.Machine

open Sys2Proof Sys2Proof.Machine

/-- Settles O7 by `exec_frozenOut`. Which commands a hang stops is log 85: the blocks that are under way in the stores (FXE_BLOCK_ARRIVAL,
the reads of the fast tier and of the shed, the expander's block) are not among them. -/
theorem frozenDeviceRunsNothing : Obligations.FrozenDeviceRunsNothing :=
  fun _ _ frozen halted => exec_frozenOut frozen halted

/-- Settles O25 by `Ctl.raise_ev_same` and `Ctl.raise_ev_other`. -/
theorem raisingAdvancesOneRegister : Obligations.RaisingAdvancesOneRegister := by
  intro c cfg r bits other
  have raised := Ctl.raise_ev_same c cfg bits other
  exact ⟨congrArg EventReg.seq raised, raised ▸ nextSeq_ne_zero _, congrArg EventReg.bits raised,
    fun x apart debug => Ctl.raise_ev_other c cfg bits apart debug⟩

end

section
/-! The energy ledger (12): what is shared sums to what there was (R338-R340), and a sealed folio is signed (R350, R354). -/

namespace Sys2Proof.Machine

open Sys2Proof

/-! ### Apportionment (R340) -/

/-- The sinks that get a µJ of the rest are distinct sinks, one for each µJ while there are sinks left. -/
theorem extraSinks_places (rems : List Nat) (left : Nat) : (extraSinks rems left).Nodup ∧ (∀ i ∈ extraSinks rems left, i < rems.length) ∧
    (extraSinks rems left).length = min left rems.length := by
  have sorted := (List.mergeSort_perm (rems.mapIdx fun i r => (i, r)) fun a b => b.2 < a.2 || (a.2 = b.2 && a.1 ≤ b.1)).map Prod.fst
  have places : (rems.mapIdx fun i r => (i, r)).map Prod.fst = List.range rems.length := by
    exact List.ext_getElem (by simp) (by simp)
  rw [places] at sorted
  unfold extraSinks
  rw [List.map_take]
  refine ⟨(sorted.nodup_iff.2 List.nodup_range).sublist (List.take_sublist ..), fun i mem => ?_, by simp⟩
  exact List.mem_range.1 (sorted.subset (List.mem_of_mem_take mem))

/-- Of distinct places of a list, each adds one to the sum. -/
theorem sum_mapIdx_extra {extra : List Nat} (distinct : extra.Nodup) (l : List Nat) (inside : ∀ i ∈ extra, i < l.length) :
    (l.mapIdx fun i f => if extra.contains i then f + 1 else f).sum = l.sum + extra.length := by
  have ones (p : Nat → Bool) (ks : List Nat) : (ks.map fun i => if p i then 1 else 0).sum = ks.countP p := by
    induction ks with
    | nil => rfl
    | cons k ks ih => by_cases h : p k = true <;> simp [h, ih]; omega
  have counted : (List.range l.length).countP extra.contains = extra.length := by
    rw [List.countP_eq_length_filter]
    refine List.Perm.length_eq ((List.perm_ext_iff_of_nodup (List.nodup_range.filter _) distinct).2 fun i => ?_)
    simpa using inside i
  have split : (l.mapIdx fun i f => if extra.contains i then f + 1 else f) =
      l.zipIdx.map fun x => x.1 + if extra.contains x.2 then 1 else 0 := by
    rw [List.mapIdx_eq_zipIdx_map]
    refine List.map_congr_left fun x _ => ?_
    by_cases h : extra.contains x.2 = true <;> simp only [h, if_true, if_false, Nat.add_zero, Bool.false_eq_true]
  have seconds : l.zipIdx.map (fun x => if extra.contains x.2 then 1 else 0) = (List.range l.length).map fun i => if extra.contains i then 1 else 0 := by
    rw [List.range_eq_range', ← List.zipIdx_map_snd 0 l, List.map_map]
    rfl
  rw [split, List.sum_map_add, List.zipIdx_map_fst, seconds, ones, counted]

/-- What the floors leave of an amount is no more than one µJ for each sink. -/
theorem floors_leave (w : Nat) {xs : List Nat} (pos : 0 < xs.sum) :
    (xs.map fun x => w * x / xs.sum).sum ≤ w ∧ w - (xs.map fun x => w * x / xs.sum).sum ≤ xs.length := by
  have exact' : xs.sum * (xs.map fun x => w * x / xs.sum).sum + (xs.map fun x => w * x % xs.sum).sum = xs.sum * w := by
    rw [← List.sum_map_mul_left, ← List.sum_map_add]
    simp only [Nat.div_add_mod]
    rw [List.sum_map_mul_left, List.map_id', Nat.mul_comm]
  have rest : (xs.map fun x => w * x % xs.sum).sum ≤ xs.sum * xs.length := by
    have := List.sum_le_card_nsmul (xs.map fun x => w * x % xs.sum) xs.sum (by simpa using fun a _ => (Nat.mod_lt _ pos).le)
    simpa [Nat.mul_comm] using this
  have le : (xs.map fun x => w * x / xs.sum).sum ≤ w := Nat.le_of_mul_le_mul_left (by omega) pos
  refine ⟨le, Nat.le_of_mul_le_mul_left ?_ pos⟩
  rw [Nat.mul_sub]
  omega

theorem apportion_length (w : Nat) (ws : List Nat) : (apportion w ws).length = ws.length := by
  unfold apportion
  by_cases zero : ws.sum = 0 <;> simp [zero]

theorem apportion_sum (w : Nat) {ws : List Nat} (some' : ws ≠ []) : (apportion w ws).sum = w := by
  unfold apportion
  generalize weights : (if ws.sum = 0 then ws.map fun _ => 1 else ws) = xs
  have pos : 0 < xs.sum := by
    subst weights
    have : 0 < ws.length := List.length_pos_iff.2 some'
    split <;> simp <;> omega
  obtain ⟨le, few⟩ := floors_leave w pos
  obtain ⟨distinct, inside, length⟩ := extraSinks_places (xs.map fun x => w * x % xs.sum) (w - (xs.map fun x => w * x / xs.sum).sum)
  dsimp only
  rw [sum_mapIdx_extra distinct _ (by simpa using inside), length, List.length_map, Nat.min_eq_left few]
  omega

theorem apportion_equal (w : Nat) {n : Nat} (pos : 0 < n) : apportion (w * n) (List.replicate n 0) = List.replicate n w := by
  have floor : w * n / n = w := Nat.mul_div_cancel _ pos
  have spent : w * n - n * w = 0 := by rw [Nat.mul_comm]; omega
  have same : (List.replicate n w).mapIdx (fun _ f => f) = List.replicate n w := List.ext_getElem (by simp) (by simp)
  simpa [apportion, extraSinks, floor, spent] using same

/-! ### An interval that closes (R338) -/

/-- What an interval that closes changes once, whatever its sinks are: the carry below 1 µJ, what came early, the metered energy, the time. -/
def Ldg.sums (l : Ldg) : Nat × Nat × Nat × Nat := (l.residue, l.early, l.metered, l.time)

theorem Ctl.addHouse_sums (c : Ctl) (kind : Nat) (n : BitVec 8) (e : Nat) (tick : Option Nat) :
    (c.addHouse kind n e tick).ldg.sums = c.ldg.sums := by
  unfold Ctl.addHouse
  split <;> rfl

theorem Ctl.chargeRequest_ldg {c d : Ctl} {st : Stall} {e tick : Nat} (charged : c.chargeRequest st e tick = some d) : d.ldg = c.ldg := by
  unfold Ctl.chargeRequest at charged
  dsimp only at charged
  repeat' split at charged
  all_goals cases charged
  all_goals rfl

theorem Ctl.account_sums (c : Ctl) (k : Yard) (st : Stall) (e : Nat) : (c.account k st e).ldg.sums = c.ldg.sums := by
  unfold Ctl.account
  dsimp only
  split
  · exact Ctl.addHouse_sums ..
  · split
    next charged => rw [Ctl.chargeRequest_ldg charged]
    · exact Ctl.addHouse_sums ..

theorem Ctl.foldl_sums {α : Type} {f : Ctl → α → Ctl} (h : ∀ c x, (f c x).ldg.sums = c.ldg.sums) (l : List α) (c : Ctl) :
    (l.foldl f c).ldg.sums = c.ldg.sums := by
  induction l generalizing c with
  | nil => rfl
  | cons x l ih => exact (ih (f c x)).trans (h c x)

theorem Ctl.closeYard_sums (c : Ctl) (cfg : Cfg) (kind : CloseKind) (k : Yard) (y : Nat) : (c.closeYard cfg kind k y).ldg.sums = c.ldg.sums := by
  have raised (bits : BitVec 16) : (c.raise cfg .ldg bits).ldg.sums = c.ldg.sums := by
    rw [(raise_sameBut c cfg .ldg bits (by simp)).ldg]
    rfl
  cases kind with
  | hang | idle => exact Ctl.addHouse_sums ..
  | tick =>
    unfold Ctl.closeYard
    dsimp only
    split
    · exact Ctl.addHouse_sums ..
    · rw [Ctl.foldl_sums fun c x => Ctl.account_sums ..]
      split
      · exact raised _
      · rfl

theorem Ctl.meterSeen_ldg (c : Ctl) (m : Interval) : (c.meterSeen m).ldg = c.ldg := by
  unfold Ctl.meterSeen
  dsimp only
  split <;> rfl

theorem Ctl.closeInterval_sums (c : Ctl) (cfg : Cfg) (kind : CloseKind) (m : Interval) {e : Nat}
    (energy : e = (m.samples.map fun x => Config.sampleEnergy (c.prs.range 0x200 256) x.volt x.amp).sum + c.ldg.early) :
    (c.closeInterval cfg kind m).ldg.sums = ((e + c.ldg.residue) % 1000, 0, sat64 c.ldg.metered e, c.ldg.time + m.samples.length) := by
  subst energy
  unfold Ctl.closeInterval
  dsimp only
  rw [Ctl.meterSeen_ldg]
  refine Eq.trans (b := Ldg.sums (Ctl.ldg (Ctl.journal _ ..))) rfl ?_
  rw [(sameBut_journal ..).ldg, Ctl.foldl_sums fun c k => Ctl.closeYard_sums ..]
  rfl

/-! ### A folio that is signed (R350, R354) -/

/-- Overwriting takes the oldest folios first, and only while the store is over full: a folio stays that has room with all newer ones. -/
theorem mem_evictFolios {cfg : Cfg} {g : Sealed} {newer : List Sealed} (room : ((g :: newer).map Sealed.size).sum ≤ folioStore) (n : Nat)
    (older : List Sealed) : g ∈ (evictFolios cfg n (older ++ g :: newer)).2 := by
  induction n generalizing older with
  | zero => simp [evictFolios]
  | succ n ih =>
    cases older with
    | nil =>
      rw [List.nil_append, evictFolios, if_neg (Nat.not_lt.2 room)]
      exact List.mem_cons_self
    | cons x older =>
      rw [List.cons_append, evictFolios]
      split
      · exact ih older
      · simp

/-- The last member of a list that meets a test, with what stands behind it. -/
theorem exists_last {α : Type} {p : α → Prop} [DecidablePred p] {x : α} {l : List α} (mem : x ∈ l) (meets : p x) :
    ∃ a y b, l = a ++ y :: b ∧ x ∈ a ++ [y] ∧ p y ∧ ∀ z ∈ b, ¬ p z := by
  induction l using List.reverseRecOn with
  | nil => cases mem
  | append_singleton l z ih =>
    by_cases last : p z
    · exact ⟨l, z, [], rfl, mem, last, nofun⟩
    · have before : x ∈ l := (List.mem_append.1 mem).resolve_right fun here => last (List.mem_singleton.1 here ▸ meets)
      obtain ⟨a, y, b, rfl, inside, found, none'⟩ := ih before
      refine ⟨a, y, b ++ [z], by simp, inside, found, fun w mem => ?_⟩
      rcases List.mem_append.1 mem with mem | mem
      · exact none' w mem
      · exact List.mem_singleton.1 mem ▸ last

/-- A folio with its signatures (R350). -/
def Sealed.signed (f : Sealed) (n : Nat) : Sealed :=
  { f with ready := true, ecdsa := Config.ledgerEcdsaSign (sha384 f.header), hss := Config.ledgerHssSign n f.header }

/-- A folio of a store that is not over full is there once it is signed. -/
theorem signed_mem_evictFolios {cfg : Cfg} {l : List Sealed} {f : Sealed} {n m : Nat} (mem : f ∈ l) (number : f.number = n)
    (room : (l.map Sealed.size).sum ≤ folioStore) :
    f.signed n ∈ (evictFolios cfg m (l.map fun x => if x.number = n then f.signed n else x)).2 := by
  obtain ⟨older, y, newer, rfl, inside, last, others⟩ := exists_last (p := fun x => x.number = n) mem number
  have rest : newer.map (fun x => if x.number = n then f.signed n else x) = newer :=
    (List.map_congr_left fun x mem => if_neg (others x mem)).trans (List.map_id' _)
  rw [List.map_append, List.map_cons, if_pos last, rest]
  refine mem_evictFolios ?_ m _
  have size : f.size ≤ ((older ++ [y]).map Sealed.size).sum := List.single_le_sum (by simp) _ (List.mem_map_of_mem inside)
  simp only [List.map_append, List.sum_append, List.map_cons, List.sum_cons, List.map_nil, List.sum_nil] at room size ⊢
  have same : (f.signed n).size = f.size := rfl
  omega

theorem Ctl.signFolio_none {c : Ctl} {n : Nat} (none' : c.ldg.sealedFolios.find? (fun x => x.number = n && !x.ready) = none) (cfg : Cfg) :
    c.signFolio cfg n = c := by
  unfold Ctl.signFolio
  rw [none']

/-- A signed folio stands in the store, FOLIO_SEALED is raised, and no object changes. -/
theorem Ctl.signFolio_signs {c : Ctl} {cfg : Cfg} {n : Nat} {f : Sealed}
    (found : c.ldg.sealedFolios.find? (fun x => x.number = n && !x.ready) = some f)
    (room : (c.ldg.sealedFolios.map Sealed.size).sum ≤ folioStore) :
    f.number = n ∧ f.signed n ∈ (c.signFolio cfg n).ldg.sealedFolios ∧ (c.signFolio cfg n).ldg.anySealed = true ∧
      ((c.signFolio cfg n).ev .ldg).bits.getLsbD 0 = true ∧ (c.signFolio cfg n).objs = c.objs := by
  have number : f.number = n := by
    have := List.find?_some found
    simp only [Bool.and_eq_true, decide_eq_true_eq] at this
    exact this.1
  have kept (m : Nat) := signed_mem_evictFolios (cfg := cfg) (m := m) (List.mem_of_find?_eq_some found) number room
  unfold Ctl.signFolio
  rw [found]
  dsimp only
  refine ⟨number, ?_, ?_, ?_, Ctl.raise_objs ..⟩
  · rw [(raise_sameBut _ cfg .ldg _ (by simp)).ldg]
    exact kept _
  · rw [(raise_sameBut _ cfg .ldg _ (by simp)).ldg]
    rfl
  · rw [Ctl.ev, (raise_sameBut _ cfg .ldg _ (by simp)).ldg]
    simp [Ctl.setEv, EventReg.raise]

end Sys2Proof.Machine

open Sys2Proof Sys2Proof.Machine

/-- Settles O38: an amount is shared by `apportion_sum` (R340), an interval closes by `Ctl.closeInterval_sums`, and a folio is signed by
`Ctl.signFolio_signs`; the event of R354 is FOLIO_SEALED. -/
theorem energyIsSharedAndFoliosSigned : Obligations.EnergyIsSharedAndFoliosSigned := by
  refine ⟨⟨fun w ws some' => ⟨apportion_sum w some', apportion_length w ws⟩, fun w n pos => apportion_equal w pos, fun c cfg kind m => ?_⟩,
    fun s n => ⟨fun f found room => ?_, fun none' => ?_⟩⟩
  · have sums := Ctl.closeInterval_sums c cfg kind m rfl
    simp only [Ldg.sums, Prod.mk.injEq] at sums
    obtain ⟨residue, early, metered, time⟩ := sums
    exact ⟨_, rfl, residue, early, metered, time⟩
  · obtain ⟨number, there, any', event, objs⟩ := Ctl.signFolio_signs (cfg := s.cfg) found room
    exact ⟨_, rfl, rfl, rfl, ⟨_, there, number, rfl, rfl, rfl, rfl, rfl⟩, any', event, objs⟩
  · exact congrArg _ (congrArg s.withCtl (Ctl.signFolio_none none' s.cfg))

end

section
/-! The security mailbox (13): what a command that is barred, refused or run leaves (R362, R363, R367, R368, R374, R375). -/

namespace Sys2Proof.Machine

open Sys2Proof

/-! ### The mailbox itself (R374) -/

section

variable {s : State} {op : Byte} {need : Nat} {f : State → MbxEnd}

theorem mailbox_barred (barred : s.ctl.sec.busy = true ∨ s.ctl.sec.st = .boot) (op : Byte) (allowed : Option SecSt) (need : Nat)
    (f : State → MbxEnd) : mailbox s op allowed need f = s :=
  if_pos (by simpa using barred)

/-- The state once a command has come to its end. -/
def MbxEnd.closed (e : MbxEnd) : State :=
  { e.state with ctl := (e.state.ctl.onSec fun x => { x with result := e.status, progress := e.bytes }).raise e.state.cfg .sec (1#16 ||| e.bits) }

/-- An end that leaves the engines, and of the registers the opcode alone, is a completion. -/
theorem MbxEnd.closed_done {e : MbxEnd} (dp : e.state.dp = s.dp) (cfg : e.state.cfg = { s.cfg with mbxOpcode := op }) :
    MbxDone s e.closed op e.status e.bytes e.bits e.state.ctl :=
  ⟨dp, cfg, raise_sameBut _ e.state.cfg .sec _ (by simp)⟩

variable (idle : s.ctl.sec.busy = false)
include idle

/-- A command in a state that the table of R375 does not allow. -/
theorem mailbox_badState {st : SecSt} (served : s.ctl.sec.st ≠ .boot) (other : s.ctl.sec.st ≠ st) :
    MbxDone s (mailbox s op (some st) need f) op Status.badState 0 0#16 s.ctl := by
  rw [mailbox, if_neg (by simp [idle, served])]
  dsimp only
  rw [if_pos other]
  exact MbxEnd.closed_done (e := mbxFail { s with cfg := { s.cfg with mbxOpcode := op } } Status.badState) rfl rfl

/-- A command in a state that allows it: BAD_PARAMETER where its buffer is too short, and else what it comes to. -/
theorem mailbox_allowed {allowed : Option SecSt} (served : s.ctl.sec.st ≠ .boot) (here : ∀ st, allowed = some st → s.ctl.sec.st = st) :
    mailbox s op allowed need f = (if s.cfg.mbxLen < need then mbxFail { s with cfg := { s.cfg with mbxOpcode := op } } Status.badParameter
      else f { s with cfg := { s.cfg with mbxOpcode := op } }).closed := by
  rw [mailbox, if_neg (by simp [idle, served])]
  cases allowed with
  | none => rfl
  | some st =>
    dsimp only
    rw [if_neg (not_not_intro (here st rfl))]
    rfl

theorem mailbox_short {allowed : Option SecSt} (served : s.ctl.sec.st ≠ .boot) (here : ∀ st, allowed = some st → s.ctl.sec.st = st)
    (short : s.cfg.mbxLen < need) : MbxDone s (mailbox s op allowed need f) op Status.badParameter 0 0#16 s.ctl := by
  rw [mailbox_allowed idle served here, if_pos short]
  exact MbxEnd.closed_done rfl rfl

theorem mailbox_runs {allowed : Option SecSt} (served : s.ctl.sec.st ≠ .boot) (here : ∀ st, allowed = some st → s.ctl.sec.st = st)
    (long : need ≤ s.cfg.mbxLen) {status : BitVec 16} {bytes : Nat} {bits : BitVec 16} {c : Ctl}
    (ends : f { s with cfg := { s.cfg with mbxOpcode := op } } = ⟨status, bytes, bits, { s with cfg := { s.cfg with mbxOpcode := op }, ctl := c }⟩) :
    MbxDone s (mailbox s op allowed need f) op status bytes bits c := by
  rw [mailbox_allowed idle served here, if_neg (Nat.not_lt.2 long), ends]
  exact MbxEnd.closed_done rfl rfl

end

/-! ### The key table (R368, R375) -/

theorem Ctl.persist_sec (c : Ctl) (cfg : Cfg) (i : Nat) (v : Word) : (c.persist cfg i v).2.sec = c.sec := by
  have raised (d : Ctl) (bits : BitVec 16) : (d.raise cfg .prs bits).sec = d.sec := (raise_sameBut d cfg .prs bits (by simp)).sec
  unfold Ctl.persist
  dsimp only
  split
  · rfl
  · split
    · rfl
    · split
      · exact raised ..
      · exact raised ..

/-- Writing the table's digest leaves the security block with the table (R368). -/
theorem Ctl.keepKeys_sec (c : Ctl) (cfg : Cfg) (ks : List (Option KeySlot)) :
    (c.keepKeys cfg ks).sec = { c.sec with keys := ks, tableBytes := none } := by
  have all (xs : List (Nat × Word)) (d : Ctl) : (xs.foldl (fun c x => (c.persist cfg x.1 x.2).2) d).sec = d.sec := by
    induction xs generalizing d with
    | nil => rfl
    | cons x xs ih => exact (ih _).trans (Ctl.persist_sec ..)
  exact all _ _

/-- What a completed command leaves in the key table is what its controls hold. -/
theorem MbxDone.keys {s t : State} {op : Byte} {status : BitVec 16} {bytes : Nat} {bits : BitVec 16} {c : Ctl}
    (done : MbxDone s t op status bytes bits c) : t.ctl.sec.keys = c.sec.keys := by
  obtain ⟨-, -, same⟩ := done
  rw [same.sec]
  rfl

/-! ### The commands (R362, R363, R367, R368, R375) -/

/-- What FW_SUPPLY comes to where it does not warm reset the device (R362). -/
def fwSupplyEnd (image : HostRead (Option FwImage)) (s : State) : MbxEnd :=
  match image with
  | .xlat => mbxFail s Status.translation
  | .past => mbxFail s Status.badParameter
  | .ok i => ⟨causeStatus (s.ctl.supplyCause i), 4096, 4#16,
      { s with ctl := s.ctl.onSec fun x => { x with cause := s.ctl.supplyCause i } }⟩

/-- FW_SUPPLY is a command of the mailbox like the others where no image passes, or its state or buffer does not allow it. -/
theorem exec_fwSupply_mailbox {s : State} {image : HostRead (Option FwImage)}
    (bad : ∀ i, suppliedImage s.cfg.mbxLen image = .ok i → s.ctl.supplyCause i = 0 → s.ctl.sec.busy = false → s.ctl.sec.st = .recoveryWait →
      s.cfg.mbxLen < 4096) :
    exec (.fwSupply image) s = .next (mailbox s 1#8 (some .recoveryWait) 4096 (fwSupplyEnd (suppliedImage s.cfg.mbxLen image))) := by
  refine if_neg fun good => ?_
  split at good
  next i supplied =>
    simp only [Bool.and_eq_true, decide_eq_true_eq, Bool.not_eq_true'] at good
    obtain ⟨⟨⟨passes, idle⟩, waits⟩, long⟩ := good
    exact absurd (bad i supplied passes idle waits) (Nat.not_lt.2 long)
  · cases good

theorem exec_fwSupply_resets {s : State} {image : HostRead (Option FwImage)} {i : Option FwImage}
    (supplied : suppliedImage s.cfg.mbxLen image = .ok i) (passes : s.ctl.supplyCause i = 0) (idle : s.ctl.sec.busy = false)
    (waits : s.ctl.sec.st = .recoveryWait) (long : 4096 ≤ s.cfg.mbxLen) :
    exec (.fwSupply image) s =
      .next (warmReset (s.withCtl (s.ctl.onCof fun k => { k with region := some i, fwWithout := k.lost })) noMeter) := by
  simp only [exec, execFwSupply, supplied, passes, idle, waits, long]
  rfl

section

variable {s : State}

theorem exec_mailbox_barred (barred : s.ctl.sec.busy = true ∨ s.ctl.sec.st = .boot) {c : Instr} {op : Byte} {allowed : Option SecSt}
    {need : Nat} {f : State → MbxEnd} (runs : exec c s = .next (mailbox s op allowed need f)) : exec c s = .next s :=
  runs.trans (congrArg _ (mailbox_barred barred ..))

/-- While the mailbox is busy or the ROM runs no command of it happens (R374). -/
theorem exec_mailbox_allBarred (barred : s.ctl.sec.busy = true ∨ s.ctl.sec.st = .boot) (image : HostRead (Option FwImage)) (programmed : Bool)
    (keys : HostRead (List Byte)) (write : HostRead Unit) : ∀ c ∈ [Instr.fwSupply image, .fwStage image programmed, .keyRegister keys,
      .keyRevoke, .keyRead write, .chainRead write], exec c s = .next s := by
  have supply : exec (.fwSupply image) s = .next s := by
    refine exec_mailbox_barred barred (exec_fwSupply_mailbox fun i _ _ idle waits => ?_)
    rcases barred with busy | boot
    · exact absurd idle (by simp [busy])
    · exact absurd waits (by simp [boot])
  simp only [List.forall_mem_cons]
  exact ⟨supply, exec_mailbox_barred barred rfl, exec_mailbox_barred barred rfl, exec_mailbox_barred barred rfl,
    exec_mailbox_barred barred rfl, exec_mailbox_barred barred rfl, List.forall_mem_nil _⟩

variable (idle : s.ctl.sec.busy = false)
include idle

/-- A command of the mailbox in a state that does not allow it, and with a buffer that is too short (R374, R375). -/
theorem exec_mailbox_refused (served : s.ctl.sec.st ≠ .boot) {c : Instr} {op : Byte} {st : SecSt} {need : Nat} {f : State → MbxEnd}
    (runs : s.ctl.sec.st ≠ st ∨ s.cfg.mbxLen < need → exec c s = .next (mailbox s op (some st) need f)) :
    (s.ctl.sec.st ≠ st → ∃ t, exec c s = .next t ∧ MbxDone s t op Status.badState 0 0#16 s.ctl) ∧
      (s.ctl.sec.st = st → s.cfg.mbxLen < need → ∃ t, exec c s = .next t ∧ MbxDone s t op Status.badParameter 0 0#16 s.ctl) :=
  ⟨fun other => ⟨_, runs (.inl other), mailbox_badState idle served other⟩,
    fun here short => ⟨_, runs (.inr short), mailbox_short idle served (by simpa using here) short⟩⟩

/-- A buffer that fails translation (R374). -/
theorem exec_mailbox_untranslated (served : s.ctl.sec.st ≠ .boot) {c : Instr} {op : Byte} {allowed : Option SecSt} {need : Nat}
    {f : State → MbxEnd} (fails : ∀ t, f t = mbxFail t Status.translation) (runs : exec c s = .next (mailbox s op allowed need f)) :
    (∀ st, allowed = some st → s.ctl.sec.st = st) → need ≤ s.cfg.mbxLen →
      ∃ t, exec c s = .next t ∧ MbxDone s t op Status.translation 0 0#16 s.ctl :=
  fun here long => ⟨_, runs, mailbox_runs idle served here long (fails _)⟩

end

section

variable {s : State} (idle : s.ctl.sec.busy = false) (running : s.ctl.sec.st = .running)
include idle running

/-- A command of the mailbox on a running device that comes to an end `e`. -/
theorem exec_mailbox_running {c : Instr} {op : Byte} {need : Nat} {f : State → MbxEnd} (long : need ≤ s.cfg.mbxLen) {status : BitVec 16}
    {bytes : Nat} {bits : BitVec 16} {d : Ctl} (runs : exec c s = .next (mailbox s op (some .running) need f))
    (ends : f { s with cfg := { s.cfg with mbxOpcode := op } } = ⟨status, bytes, bits, { s with cfg := { s.cfg with mbxOpcode := op }, ctl := d }⟩) :
    ∃ t, exec c s = .next t ∧ MbxDone s t op status bytes bits d :=
  ⟨_, runs, mailbox_runs idle (by simp [running]) (by simpa using running) long ends⟩

theorem exec_keyRevoke_running : ∃ t, exec .keyRevoke s = .next t ∧ MbxDone s t 0x11#8 Status.success 0 8#16
    (s.ctl.keepKeys { s.cfg with mbxOpcode := 0x11#8 } (s.ctl.sec.keys.set (Bits.field s.cfg.mbxArg 3 0) none)) :=
  exec_mailbox_running idle running (Nat.zero_le _) rfl rfl

/-- KEY_REGISTER of keys that the buffer holds whole (R375). -/
theorem exec_keyRegister_running {bs : List Byte} (long : 157 ≤ s.cfg.mbxLen) (whole : 157 ≤ bs.length) :
    (keysWellFormed (bs.take 157) = false →
      ∃ t, exec (.keyRegister (.ok bs)) s = .next t ∧ MbxDone s t 0x10#8 Status.badParameter 0 0#16 s.ctl) ∧
    (keysWellFormed (bs.take 157) = true →
      (s.ctl.sec.keys.getD (Bits.field s.cfg.mbxArg 3 0) none ≠ none ∨ ∃ k ∈ s.ctl.sec.keys.filterMap id, k.keyId = sha384 (bs.take 157)) →
      ∃ t, exec (.keyRegister (.ok bs)) s = .next t ∧ MbxDone s t 0x10#8 Status.badState 0 0#16 s.ctl) ∧
    (keysWellFormed (bs.take 157) = true → s.ctl.sec.keys.getD (Bits.field s.cfg.mbxArg 3 0) none = none →
      (∀ k ∈ s.ctl.sec.keys.filterMap id, k.keyId ≠ sha384 (bs.take 157)) →
      ∃ t, exec (.keyRegister (.ok bs)) s = .next t ∧ MbxDone s t 0x10#8 Status.success 157 8#16
        (s.ctl.keepKeys { s.cfg with mbxOpcode := 0x10#8 } (s.ctl.sec.keys.set (Bits.field s.cfg.mbxArg 3 0)
          (some ⟨sha384 (bs.take 157), bs.take 97, (bs.take 157).drop 97, Bits.field s.cfg.mbxArg 9 8⟩)))) := by
  refine ⟨fun malformed => ?_, fun formed taken => ?_, fun formed empty fresh => ?_⟩
  · exact exec_mailbox_running idle running long rfl (if_pos (by simp [malformed]))
  · refine exec_mailbox_running idle running long rfl ((if_neg (by simp [whole, formed])).trans (if_pos ?_))
    rcases taken with occupied | ⟨k, mem, same⟩
    · exact (Bool.or_eq_true ..).mpr (.inl (Option.isSome_iff_ne_none.2 occupied))
    · exact (Bool.or_eq_true ..).mpr (.inr (List.any_eq_true.2 ⟨k, mem, decide_eq_true same⟩))
  · refine exec_mailbox_running idle running long rfl ((if_neg (by simp [whole, formed])).trans ((if_neg ?_).trans ?_))
    · have other : (s.ctl.sec.keys.filterMap fun k => k).any (fun k => decide (k.keyId = sha384 (bs.take 157))) = false :=
        List.any_eq_false.2 fun k mem => by simpa using fresh k mem
      simp only [Bool.or_eq_true, not_or, empty, other]
      exact ⟨nofun, nofun⟩
    · rw [List.take_take]
      rfl

/-- FW_STAGE of an image whose check it has made (R363). -/
theorem exec_fwStage_running {given i : Option FwImage} {programmed : Bool} (long : 4096 ≤ s.cfg.mbxLen)
    (supplied : suppliedImage s.cfg.mbxLen (.ok given) = .ok i) : ∃ t, exec (.fwStage (.ok given) programmed) s = .next t ∧
      (if s.ctl.supplyCause i ≠ 0 then MbxDone s t 0x02#8 (causeStatus (s.ctl.supplyCause i)) 4096 4#16 s.ctl
       else if programmed = true then MbxDone s t 0x02#8 Status.success s.cfg.mbxLen 2#16
         (s.ctl.onCof fun k => { k with region := some i, fwWithout := k.lost })
       else MbxDone s t 0x02#8 Config.stageStatus s.cfg.mbxLen 0#16 (s.ctl.onCof fun k => { k with region := some none })) := by
  by_cases fails : s.ctl.supplyCause i ≠ 0
  · simp only [if_pos fails]
    exact exec_mailbox_running idle running long rfl (by simp only [supplied]; exact if_pos fails)
  · simp only [if_neg fails]
    cases programmed
    · exact exec_mailbox_running idle running long rfl (by simp only [supplied]; exact if_neg fails)
    · exact exec_mailbox_running idle running long rfl (by simp only [supplied]; exact if_neg fails)

theorem exec_fwStage_past {given : Option FwImage} {programmed : Bool} (long : 4096 ≤ s.cfg.mbxLen)
    (past : suppliedImage s.cfg.mbxLen (.ok given) = .past) :
    ∃ t, exec (.fwStage (.ok given) programmed) s = .next t ∧ MbxDone s t 0x02#8 Status.badParameter 0 0#16 s.ctl :=
  exec_mailbox_running idle running long rfl (by simp only [past]; rfl)

end

/-- FW_SUPPLY of an image in RECOVERY_WAIT (R362). -/
theorem exec_fwSupply_waiting {s : State} (idle : s.ctl.sec.busy = false) (waits : s.ctl.sec.st = .recoveryWait) (long : 4096 ≤ s.cfg.mbxLen)
    (given : Option FwImage) :
    (suppliedImage s.cfg.mbxLen (.ok given) = .past →
      ∃ t, exec (.fwSupply (.ok given)) s = .next t ∧ MbxDone s t 0x01#8 Status.badParameter 0 0#16 s.ctl) ∧
    ∀ i, suppliedImage s.cfg.mbxLen (.ok given) = .ok i → ∃ t, exec (.fwSupply (.ok given)) s = .next t ∧
      (if s.ctl.supplyCause i = 0
        then t = warmReset (s.withCtl (s.ctl.onCof fun k => { k with region := some i, fwWithout := k.lost })) noMeter
        else MbxDone s t 0x01#8 (causeStatus (s.ctl.supplyCause i)) 4096 4#16 (s.ctl.onSec fun x => { x with cause := s.ctl.supplyCause i })) := by
  have served : s.ctl.sec.st ≠ .boot := by simp [waits]
  have here : ∀ st, some SecSt.recoveryWait = some st → s.ctl.sec.st = st := by simpa using waits
  refine ⟨fun past => ?_, fun i supplied => ?_⟩
  · have mailed := exec_fwSupply_mailbox (s := s) (image := .ok given) fun i supplied => by simp [past] at supplied
    exact ⟨_, mailed, mailbox_runs idle served here long (by rw [past]; rfl)⟩
  · by_cases passes : s.ctl.supplyCause i = 0
    · exact ⟨_, exec_fwSupply_resets supplied passes idle waits long, by rw [if_pos passes]⟩
    · have mailed := exec_fwSupply_mailbox (s := s) (image := .ok given) fun j other fine => by
        cases supplied.symm.trans other
        exact absurd fine passes
      refine ⟨_, mailed, ?_⟩
      rw [if_neg passes]
      exact mailbox_runs idle served here long (by rw [supplied]; rfl)

end Sys2Proof.Machine

open Sys2Proof Sys2Proof.Machine

/-- Settles O19: `exec_mailbox_allBarred`, `exec_mailbox_refused` and `exec_mailbox_untranslated` for every command, and a lemma for each that
runs. That a command is whole in one step and the free status of staging are log 66, the form of well-formed keys log 104, and the
buffer that ends before its image log 110. -/
theorem mailboxFollowsItsRules : Obligations.MailboxFollowsItsRules := by
  refine fun s => ⟨fun image programmed keys write => ⟨fun barred => exec_mailbox_allBarred barred image programmed keys write,
    fun idle served => ⟨?_, fun short => ?_, ?_⟩⟩, fun idle running => ⟨?_, fun bs long whole => ?_, fun long => ?_, fun given programmed long => ?_⟩,
    fun idle served long => ?_, fun idle waits long given => exec_fwSupply_waiting idle waits long given⟩
  · simp only [List.forall_mem_cons]
    refine ⟨exec_mailbox_refused idle served fun refused => exec_fwSupply_mailbox fun i _ _ _ waits => ?_,
      exec_mailbox_refused idle served fun _ => rfl, exec_mailbox_refused idle served fun _ => rfl,
      exec_mailbox_refused idle served fun _ => rfl, exec_mailbox_refused idle served fun _ => rfl, List.forall_mem_nil _⟩
    exact refused.resolve_left (not_not_intro waits)
  · exact ⟨_, rfl, mailbox_short idle served nofun short⟩
  · simp only [List.forall_mem_cons]
    exact ⟨exec_mailbox_untranslated idle served (fun _ => rfl) (exec_fwSupply_mailbox nofun),
      exec_mailbox_untranslated idle served (fun _ => rfl) rfl, exec_mailbox_untranslated idle served (fun _ => rfl) rfl,
      exec_mailbox_untranslated idle served (fun _ => rfl) rfl, exec_mailbox_untranslated idle served (fun _ => rfl) rfl, List.forall_mem_nil _⟩
  · obtain ⟨t, step, done⟩ := exec_keyRevoke_running idle running
    exact ⟨t, step, done, by rw [done.keys, Ctl.keepKeys_sec]⟩
  · obtain ⟨malformed, taken, registered⟩ := exec_keyRegister_running idle running long whole
    refine ⟨malformed, taken, fun ks formed empty fresh table => ?_⟩
    obtain ⟨t, step, done⟩ := registered formed empty fresh
    exact table ▸ ⟨t, step, done, by rw [done.keys, Ctl.keepKeys_sec]⟩
  · exact exec_mailbox_running idle running long rfl rfl
  · exact ⟨fun past => exec_fwStage_past idle running long past, fun i supplied => exec_fwStage_running idle running long supplied⟩
  · exact ⟨_, _, rfl, mailbox_runs (allowed := none) idle served nofun long rfl⟩

end

section
/-! The I3C and PMBus targets (18): what a transfer leaves (R480, R481). -/

namespace Sys2Proof.Machine

open Sys2Proof

variable {s : State}

/-! ### I3C (R480) -/

section

variable {a : BitVec 7}

/-- Another address, or no power: the transfer is not acknowledged. -/
theorem exec_i3c_nack (away : a ≠ s.ctl.pwr.i3cAddr ∨ s.ctl.pwr.st = .off) (off : Word) (v : Option Word) :
    exec (.i3cPrivateWrite a off v) s = .next (s.withCtl s.ctl.nack) ∧ exec (.i3cPrivateRead a) s = .next (s.withCtl s.ctl.nack) :=
  ⟨if_pos (by simpa using away), if_pos (by simpa using away)⟩

variable (power : s.ctl.pwr.st ≠ .off)
include power

/-- The state once the target took the offset that a controller wrote. -/
theorem exec_i3cPrivateWrite (off : Word) (v : Option Word) : exec (.i3cPrivateWrite s.ctl.pwr.i3cAddr off v) s =
    .next (v.elim id (fun v t => i3cWrite t off.toNat v)
      (s.withCtl ((s.ctl.onPwr fun p => { p with i3cOff := off.toNat }).onBus fun b => { b with nack := false }))) := by
  refine (if_neg (by simp [power])).trans ?_
  cases v <;> rfl

theorem exec_i3cPrivateRead : exec (.i3cPrivateRead s.ctl.pwr.i3cAddr) s = .next (s.withCtl (s.ctl.answer (Bits.toLe
    (if i3cReadable s.ctl.pwr.st s.ctl.pwr.i3cOff = true then barReg s s.ctl.pwr.i3cOff else 0#32).toNat 4))) :=
  if_neg (by simp [power])

/-- A target without a dynamic address takes the one that SETDASA or ENTDAA gives. -/
theorem exec_addressing (free : s.ctl.pwr.i3cAddr = 0x4A#7) (a : BitVec 7) : ∀ c ∈ [Instr.setdasa 0x4A#7 a, .entdaa a],
    exec c s = .next (s.withCtl ((s.ctl.onPwr fun p => { p with i3cAddr := a }).onBus fun b => { b with nack := false })) := by
  simp only [List.forall_mem_cons]
  exact ⟨if_pos (by simp [power, free, i3cStatic]), if_pos (by simp [power, free, i3cStatic]), List.forall_mem_nil _⟩

end

/-- A write of PWR_BMC_CAP over I3C in range takes effect, and else leaves it (R12, R480). -/
theorem i3cWrite_bmcCap (t : State) (v : Word) : i3cWrite t 0x60000C v =
    { t with cfg := { t.cfg with bmcCap := if 1500 ≤ Bits.field v 15 0 ∧ Bits.field v 15 0 ≤ 4400 then Bits.field v 15 0 else t.cfg.bmcCap } } := by
  simp [i3cWrite, keepUnless]

/-! ### PMBus (R481) -/

theorem pmbus_answers (power : s.ctl.pwr.st ≠ .off) (bs : List Byte) : pmbus s bs = .next (s.withCtl (s.ctl.answer bs)) :=
  if_neg power

/-- Without power no command of the PMBus is acknowledged. -/
theorem exec_pmbus_nack (off : s.ctl.pwr.st = .off) : ∀ c ∈ [Instr.statusWord, .statusInput, .statusTemperature, .readVin, .readIin, .readPin,
    .readTemperature1, .readTemperature2, .pmbusRevision, .mfrId, .clearFaults], exec c s = .next (s.withCtl s.ctl.nack) := by
  have silent (bs : List Byte) : pmbus s bs = .next (s.withCtl s.ctl.nack) := if_pos off
  simp only [List.forall_mem_cons]
  exact ⟨silent _, silent _, silent _, silent _, silent _, silent _, silent _, silent _, silent _, silent _, if_pos off, List.forall_mem_nil _⟩

/-- CLEAR_FAULTS leaves CML low and each status bit low whose cause has ended. -/
theorem exec_clearFaults (power : s.ctl.pwr.st ≠ .off) : ∃ t, exec .clearFaults s = .next t ∧ t.dp = s.dp ∧ t.cfg = s.cfg ∧
    t.ctl.pwr.cml = false ∧ (4200 ≤ s.ctl.pwr.vin → s.ctl.pwr.vin ≤ 5800 → t.ctl.pwr.statusInput = 0#8) ∧
    (s.ctl.pwr.warned = false → s.ctl.pwr.critical = false → t.ctl.pwr.statusTemp = 0#8) ∧
    (s.ctl.pwr.trip = 0 → t.ctl.pwr.offBit = false) ∧ t.ctl.pwr.trip = s.ctl.pwr.trip ∧ t.ctl.pwr.st = s.ctl.pwr.st := by
  refine ⟨_, if_neg power, rfl, rfl, rfl, fun low high => ?_, fun cool calm => ?_, fun untripped => ?_, rfl, rfl⟩
  · simp [Nat.not_lt.2 low, Nat.not_lt.2 high]
  · simp [cool, calm]
  · simp [untripped]

end Sys2Proof.Machine

open Sys2Proof Sys2Proof.Machine

/-- Settles O21: the I3C target is `exec_i3cPrivateWrite`, `exec_i3cPrivateRead` and `exec_i3c_nack`, the PMBus target `pmbus_answers`,
`exec_pmbus_nack` and `exec_clearFaults`. The places of the status bits and the exponents of LINEAR11 are log 5 and 6. -/
theorem busTargetsAnswer : Obligations.BusTargetsAnswer := by
  refine ⟨⟨fun s off v power => ⟨⟨_, exec_i3cPrivateWrite power off none, rfl, rfl, rfl, rfl⟩, ?_, exec_i3cPrivateRead power⟩,
    fun s a off v away => exec_i3c_nack away off v, fun s a power free => ?_⟩, fun s => ⟨fun power => ?_, exec_pmbus_nack⟩⟩
  · exact ⟨_, (exec_i3cPrivateWrite power 0x60000C#32 (some v)).trans (congrArg _ (i3cWrite_bmcCap _ v)), rfl, rfl⟩
  · have given := exec_addressing power free a
    exact ⟨⟨_, given _ (by simp), rfl, rfl, rfl⟩, _, given _ (by simp), rfl, rfl, rfl⟩
  · exact ⟨pmbus_answers power _, pmbus_answers power _, pmbus_answers power _, pmbus_answers power _, pmbus_answers power _,
      pmbus_answers power _, pmbus_answers power _, pmbus_answers power _, pmbus_answers power _, pmbus_answers power _, exec_clearFaults power⟩

/-- Settles O1: a step is `exec` on the queue's rest by its definition, and idles on an empty queue, which is the model's choice (log 1). -/
theorem stepRunsFront : Obligations.StepRunsFront :=
  ⟨fun _ _ _ => rfl, fun s empty => by rw [step, empty]⟩

end

section
/-! The management function's registers (17): what is served before the device runs (R464), and what the action registers do. -/

namespace Sys2Proof.Machine

open Sys2Proof

/-! ### Before the device runs (R464) -/

section

variable {s : State} {fn : BitVec 8} (waits : s.ctl.sec.st ≠ .running)
include waits

theorem regRead_sec {off : Nat} (mgmt : s.ctl.isMgmt fn = true) (there : (s.ctl.fn? fn).isSome = true)
    (sec : off = 0 ∨ off = 0xA00 ∨ off / 0x100000 = 3) : regRead s fn off = barReg s off := by
  obtain ⟨f, found⟩ := Option.isSome_iff_exists.1 there
  have served : (s.ctl.isMgmt fn && (off = 0 || off = 0xA00 || off / 0x100000 = 3)) = true := by simpa [mgmt, or_assoc] using sec
  rw [regRead, found]
  exact (if_pos waits).trans (if_pos served)

theorem regRead_unserved {off : Nat} (other : s.ctl.isMgmt fn = false ∨ (off ≠ 0 ∧ off ≠ 0xA00 ∧ off / 0x100000 ≠ 3)) :
    regRead s fn off = 0#32 := by
  have served : ¬ (s.ctl.isMgmt fn && (off = 0 || off = 0xA00 || off / 0x100000 = 3)) = true := by
    rcases other with host | ⟨id, status, sec⟩
    · simp [host]
    · simp [id, status, sec]
  unfold regRead
  split
  · rfl
  · exact (if_pos waits).trans (if_neg served)

theorem regWord_unserved {off : Nat} (other : s.ctl.isMgmt fn = false ∨ off / 0x100000 ≠ 3) (below : off < 2 ^ 28) (v : Word) :
    regWord s fn off v = s := by
  have served : ¬ (s.ctl.isMgmt fn && off / 0x100000 = 3) = true := by
    rcases other with host | sec
    · simp [host]
    · simp [sec]
  unfold regWord
  split
  · rfl
  · exact (if_neg (Nat.not_le.2 below)).trans ((if_pos waits).trans (if_neg served))

theorem exec_registerWrite_unserved {off : Nat} (other : s.ctl.isMgmt fn = false ∨ off / 0x100000 ≠ 3) (below : off < 2 ^ 28) (v : Word) :
    exec (.registerWrite ⟨fn, off, 4, v.zeroExtend 64⟩) s = .next s := by
  by_cases aligned : off % 4 = 0
  · rw [exec_registerWrite_word s fn aligned, regWord_unserved waits other below]
  · exact congrArg _ (if_pos aligned)

theorem served_waits : (!s.ctl.served fn) = true := by
  simp [Ctl.served, waits]

end

end Sys2Proof.Machine

open Sys2Proof Sys2Proof.Machine

/-- Settles O27 by `regRead_sec`, `regRead_unserved`, `exec_registerWrite_unserved` and `served_waits`. -/
theorem bootServesTheSecBlockAlone : Obligations.BootServesTheSecBlockAlone := by
  intro s fn off v waits
  exact ⟨fun mgmt there sec => regRead_sec waits mgmt there sec, regRead_unserved waits,
    fun other below => exec_registerWrite_unserved waits other below v,
    fun q => ⟨if_pos (served_waits waits), if_pos (served_waits waits), if_pos (served_waits waits)⟩⟩

namespace Sys2Proof.Machine

/-! ### The action registers of a running device -/

section

variable {s : State} {v : Word}

theorem jnlWrite_arms (arms : v.getLsbD 31 = true) :
    jnlWrite s v = { s with cfg := s.cfg.jnl v, ctl := s.ctl.touchCovered.onDbg Dbg.arm } := by
  simp [jnlWrite, arms]

theorem jnlWrite_keeps (arms : v.getLsbD 31 = false) : jnlWrite s v = { s with cfg := s.cfg.jnl v, ctl := s.ctl.touchCovered } := by
  rw [jnlWrite, arms]
  rfl

theorem trigWrite_go (go : v.getLsbD 0 = true) :
    ∃ cfg, trigWrite s v = { s with cfg := cfg, ctl := s.ctl.touchCovered.trigger cfg 1 } :=
  ⟨_, by rw [trigWrite, if_pos go]⟩

/-- An armed trigger fires once: a device snapshot, and its event (R447). -/
theorem Ctl.trigger_fires {c : Ctl} (armed : c.dbg.armed = true) (fresh : c.dbg.fired = false) (cfg : Cfg) (cause : Nat) :
    (c.trigger cfg cause).dbg.fired = true ∧ (c.trigger cfg cause).dbg.snapSeq = (c.dbg.snapSeq + 1) % 2 ^ 32 ∧
      (c.trigger cfg cause).dbg.event = c.dbg.event.raise 4#16 := by
  rw [Ctl.trigger, if_neg (by simp [armed]), if_neg (by simp [fresh])]
  by_cases window : cfg.mode = 2
  · simp [window, Ctl.snapDevice, Ctl.count]
  · simp [window, Ctl.snapDevice, Ctl.count]

theorem dumpWrite_fields (plain : v.getLsbD 29 = false) : dumpWrite s v =
    { s with cfg := { s.cfg with autoReset := v.getLsbD 31, stores := v.getLsbD 30, dumpSlot := Bits.field v 1 0 }, ctl := s.ctl.touchCovered } :=
  if_pos (by rw [plain]; rfl)

theorem Ctl.hostWrite_dbg (c : Ctl) (n : BitVec 8) (pasid : Option (BitVec 20)) (addr : Nat) (bs : List Byte) :
    (c.hostWrite n pasid addr bs).dbg = c.dbg := by
  rw [Ctl.hostWrite, Ctl.translate_eq]
  rfl

/-- A fetch of a dump is a device job, and the dump goes out behind its header (R453). -/
theorem dumpWrite_fetches {ix : Nat} {c : Ctl} {j : Job} {d : Dump} (fetch : v.getLsbD 29 = true) (up : s.ctl.hub.halted = false)
    (enabled : s.cfg.dumpEn = true) (dump : s.ctl.cof.dumps.find? (fun x => x.slot = Bits.field v 1 0 && x.done) = some d)
    (started : s.ctl.touchCovered.startDeviceJob (.dump (Bits.field v 1 0)) 1 = some (ix, c)) (job : c.job? c.mgmt ix = some j) :
    (dumpWrite s v).ctl =
      ((c.onDbg fun x => { x with dumpJob := handleOf .job ix }).hostWrite c.mgmt none s.cfg.dumpAddr d.header).dumpOut s.cfg.dumpAddr d.body := by
  have running : ¬ (!(v.getLsbD 29) || s.ctl.touchCovered.hub.halted) = true := by simp [fetch, Ctl.touchCovered, up]
  have there : (c.onDbg fun x => { x with dumpJob := handleOf .job ix }).job? (c.onDbg fun x => { x with dumpJob := handleOf .job ix }).mgmt ix =
      some j := job
  have dump' : s.ctl.touchCovered.cof.dumps.find? (fun x => x.slot = Bits.field v 1 0 && x.done) = some d := dump
  unfold dumpWrite
  dsimp only
  rw [if_neg running, dump', Option.map_some, Option.getD_some, started]
  dsimp only
  rw [there]
  dsimp only
  rw [if_pos enabled]
  rfl

/-- A persistent word that is not worn takes a new value and counts its wear (R466). -/
theorem Ctl.persist_wears {c : Ctl} {i : Nat} {w : Word} (new : c.prs.word i ≠ w) (fresh : Sparse.get 0 c.prs.wear i < prsRating) (cfg : Cfg) :
    c.persist cfg i w = (true, c.onPrs fun p =>
      { p with words := Sparse.set 0#32 p.words i w, wear := Sparse.set 0 p.wear i (Sparse.get 0 p.wear i + 1) }) :=
  (if_neg new).trans (if_pos fresh)

theorem Ctl.persistHost_writes {c : Ctl} {off : Nat} {w : Word} (aligned : off % 4 = 0) (writable : hostWritable off v = some w)
    (new : c.prs.word (off / 4) ≠ w) (fresh : Sparse.get 0 c.prs.wear (off / 4) < prsRating) (cfg : Cfg) :
    c.persistHost cfg off v = c.onPrs fun p => { p with words := Sparse.set 0#32 p.words (off / 4) w,
                                                        wear := Sparse.set 0 p.wear (off / 4) (Sparse.get 0 p.wear (off / 4) + 1)
                                                        refused := false } := by
  rw [Ctl.persistHost, if_neg (not_not_intro aligned), writable]
  dsimp only
  rw [Ctl.persist_wears new fresh]
  rfl

end

end Sys2Proof.Machine

/-- Settles O28 by what each register's write does: `jnlWrite_arms`, `jnlWrite_keeps` (STREAM_EN is R449), `Ctl.trigger_fires`,
`dumpWrite_fields` and `dumpWrite_fetches` (FETCH is R453), and `Ctl.persistHost_writes`. -/
theorem deviceRegistersAct : Obligations.DeviceRegistersAct := by
  intro s fn v mgmt
  refine ⟨fun go => if_pos (by simp [mgmt, go]), fun go => if_pos (by simp [mgmt, go]), fun arms => ?_, fun keeps => ?_, fun go armed fresh => ?_,
    fun plain => (if_pos mgmt).trans (congrArg _ (dumpWrite_fields plain)), fun ix c j d fetch up enabled dump started job => ?_,
    fun k l up named => ?_, fun off w aligned writable new fresh => ?_⟩
  · exact ⟨_, (if_pos mgmt).trans (congrArg _ (jnlWrite_arms arms)), rfl, rfl, rfl, rfl, rfl, rfl, rfl⟩
  · exact ⟨_, (if_pos mgmt).trans (congrArg _ (jnlWrite_keeps keeps)), rfl, rfl, rfl, rfl, rfl⟩
  · obtain ⟨cfg, written⟩ := trigWrite_go (s := s) go
    obtain ⟨fired, seq, event⟩ := Ctl.trigger_fires (c := s.ctl.touchCovered) armed fresh cfg 1
    exact ⟨_, (if_pos mgmt).trans (congrArg _ written), rfl, fired, seq, event⟩
  · have out := dumpWrite_fetches fetch up enabled dump started job
    refine ⟨_, if_pos mgmt, ?_, ?_, ?_⟩
    · rw [out]
      exact congrArg Dbg.dumpJob (Ctl.hostWrite_dbg ..)
    · rw [out]
      exact Ctl.hostWrite_objs ..
    · rw [out]
      exact congrArg List.head? (Ctl.hostWrite_writes ..)
  · refine (dif_pos ⟨mgmt, up, by omega⟩).trans ?_
    simp only [named]
    rfl
  · exact (if_pos mgmt).trans (congrArg _ (congrArg s.withCtl (Ctl.persistHost_writes aligned writable new fresh s.cfg)))

end

section
/-! Pins, temperature and the power cap (18): the events that they raise and the grades that they allow (R474-R477, R484-R488). -/

namespace Sys2Proof.Machine

open Sys2Proof

/-! ### What raising PWR_EVENT leaves -/

theorem Ctl.raise_pwr_pwr (c : Ctl) (cfg : Cfg) (bits : BitVec 16) :
    (c.raise cfg .pwr bits).pwr = { c.pwr with event := c.pwr.event.raise bits } :=
  (raise_pwr_keeps c cfg bits).2.2.2

theorem Ctl.raise_pwr_hub (c : Ctl) (cfg : Cfg) (bits : BitVec 16) : (c.raise cfg .pwr bits).hub = c.hub := by
  obtain ⟨x, same, eq⟩ := raise_pwr c cfg bits
  rw [eq]
  exact same.hub

theorem Ctl.raise_pwr_ev (c : Ctl) (cfg : Cfg) (bits : BitVec 16) : (c.raise cfg .pwr bits).ev .pwr = (c.ev .pwr).raise bits :=
  Ctl.raise_ev_same c cfg bits nofun

/-! ### Pins (R474, R477, R483, R484, R488) -/

section

variable {s : State}

/-- A release of MOD_RST_N before the conditions of R484 are met does nothing. -/
theorem exec_modRstNRelease_held (held : s.ctl.pwr.pg = false ∨ s.ctl.pwr.trip ≠ 0 ∨ s.ctl.pwr.refclk = false) (m : Interval) :
    exec (.modRstNRelease m) s = .next s := by
  refine if_neg ?_
  rcases held with low | tripped | lost
  · simp [low]
  · simp [tripped]
  · simp [lost]

/-- BOOT begins at a release of MOD_RST_N (R484 step 5). -/
theorem exec_modRstNRelease_boots (en : s.ctl.pwr.modEn = true) (pg : s.ctl.pwr.pg = true) (untripped : s.ctl.pwr.trip = 0)
    (clock : s.ctl.pwr.refclk = true) (held : s.ctl.pwr.rstN = false ∨ s.ctl.pwr.st = .standby) (cold : s.ctl.ldg.warm = false) (m : Interval) :
    exec (.modRstNRelease m) s = .next (s.withCtl (s.ctl.onPwr fun p => { p with st := .boot, rstN := true })) := by
  have early : s.ctl.meterEarly m = s.ctl := if_neg (by simp [cold])
  refine (if_pos (by simpa [en, pg, untripped, clock] using held)).trans ?_
  rw [early]
  rfl

/-- A level of VIN outside 44 V to 56 V raises VIN_RANGE when it was inside before (R483). -/
theorem exec_vinRange (v : Nat) : ∃ t, exec (.vinRange v) s = .next t ∧ t.dp = s.dp ∧ t.cfg = s.cfg ∧ t.ctl.hub = s.ctl.hub ∧
    t.ctl.pwr.vin = v ∧ (t.ctl.pwr.vinBad = true ↔ v < 4400 ∨ 5600 < v) ∧
    t.ctl.ev .pwr = if (v < 4400 ∨ 5600 < v) ∧ s.ctl.pwr.vinBad = false then (s.ctl.ev .pwr).raise 32#16 else s.ctl.ev .pwr := by
  refine ⟨_, rfl, rfl, rfl, ?_⟩
  by_cases leaves : (v < 4400 ∨ 5600 < v) ∧ s.ctl.pwr.vinBad = false
  · obtain ⟨outside, inside⟩ := leaves
    rw [if_pos (by simp [outside, inside]), if_pos ⟨outside, inside⟩, Ctl.raise_pwr_pwr, Ctl.raise_pwr_hub, Ctl.raise_pwr_ev]
    exact ⟨rfl, rfl, by simp [Ctl.onPwr], rfl⟩
  · have stays : ¬ ((decide (v < 4400) || decide (5600 < v)) && !s.ctl.pwr.vinBad) = true := by simpa using leaves
    rw [if_neg stays, if_neg leaves]
    exact ⟨rfl, rfl, by simp [Ctl.onPwr], rfl⟩

/-- A fault of the meter raises METER_FAULT as it rises (R334). -/
theorem exec_meterFault (now : Bool) : ∃ t, exec (.meterFault now) s = .next t ∧ t.dp = s.dp ∧ t.cfg = s.cfg ∧ t.ctl.pwr = s.ctl.pwr ∧
    t.ctl.ldg.meterFault = now ∧
    t.ctl.ev .ldg = if now = true ∧ s.ctl.ldg.meterFault = false then (s.ctl.ev .ldg).raise 8#16 else s.ctl.ev .ldg := by
  refine ⟨_, rfl, rfl, rfl, ?_⟩
  by_cases rises : now = true ∧ s.ctl.ldg.meterFault = false
  · have same := raise_sameBut (s.ctl.onLdg fun l => { l with meterFault := now }) s.cfg .ldg 8#16 nofun
    rw [if_pos (by simp [rises]), if_pos rises]
    exact ⟨same.pwr, congrArg Ldg.meterFault same.ldg, Ctl.raise_ev_same (r := .ldg) _ s.cfg 8#16 nofun⟩
  · have stays : ¬ (now && !s.ctl.ldg.meterFault) = true := by simpa using rises
    rw [if_neg stays, if_neg rises]
    exact ⟨rfl, rfl, rfl⟩

end

end Sys2Proof.Machine

open Sys2Proof Sys2Proof.Machine

/-- Settles O32 by `exec_modRstNRelease_boots`, `exec_modRstNRelease_held`, `exec_vinRange` (R483) and `exec_meterFault` (R334); that a level
raises its event once, as it is crossed, is log 83. -/
theorem pinsActAndRaiseTheirEvents : Obligations.PinsActAndRaiseTheirEvents := by
  refine fun s => ⟨fun low => if_neg (by simp [low]), fun m en pg untripped clock held cold => exec_modRstNRelease_boots en pg untripped clock held cold m,
    fun m held => exec_modRstNRelease_held held m, rfl, rfl, fun high => ?_, fun low => if_pos (by simp [low]), fun v => exec_vinRange v,
    fun now => exec_meterFault now⟩
  exact ⟨_, if_neg (by simp [high]), rfl, rfl, Ctl.raise_pwr_pwr .., Ctl.raise_pwr_hub ..⟩

namespace Sys2Proof.Machine

/-! ### Temperature (R486, R487) -/

/-- Controls that differ in the supply's event register, and in what its raising sets off. -/
def PwrRaised (a b : Ctl) : Prop := b.objs = a.objs ∧ b.hub = a.hub ∧ ∃ e, b.pwr = { a.pwr with event := e }

theorem PwrRaised.refl (c : Ctl) : PwrRaised c c := ⟨rfl, rfl, c.pwr.event, rfl⟩

theorem PwrRaised.trans {a b c : Ctl} (first : PwrRaised a b) (second : PwrRaised b c) : PwrRaised a c := by
  obtain ⟨objs, hub, e, pwr⟩ := first
  obtain ⟨objs', hub', e', pwr'⟩ := second
  exact ⟨objs'.trans objs, hub'.trans hub, e', by rw [pwr', pwr]⟩

theorem PwrRaised.raise (c : Ctl) (cfg : Cfg) (bits : BitVec 16) : PwrRaised c (c.raise cfg .pwr bits) :=
  ⟨Ctl.raise_objs .., Ctl.raise_pwr_hub .., _, Ctl.raise_pwr_pwr ..⟩

theorem Ctl.thermEvents_raises (c : Ctl) (cfg : Cfg) (old : List Nat) (new : List Level) : PwrRaised c (c.thermEvents cfg old new) := by
  unfold Ctl.thermEvents
  generalize new.mapIdx _ = crossings
  induction crossings generalizing c with
  | nil => exact .refl c
  | cons p ps ih =>
    refine PwrRaised.trans ?_ (ih _)
    dsimp only
    generalize (if crossed p.1 p.2.avg p.2.crit = true then 4#16 else 0#16) ||| _ = bits
    split
    · exact .refl c
    · exact .raise c cfg bits

/-- The controls once temperature allows no grade with a number below `g`. -/
def Ctl.cooled (c : Ctl) (g : Nat) : Ctl := c.onHub fun h => { h with grades := { h.grades with temp := g } }

/-- The grade that temperature allows falls to G2 or to the number `g`, and only falls. -/
theorem Ctl.thermGrade_eq (c : Ctl) (cfg : Cfg) (g : Nat) :
    PwrRaised (c.cooled (max c.hub.grades.temp (min 2 g))) (c.thermGrade cfg g) := by
  unfold Ctl.thermGrade
  dsimp only
  split
  next above =>
    rw [max_eq_left above]
    exact .refl c
  next below =>
    rw [max_eq_right (by omega)]
    exact .raise ..

/-- A grade that falls as temperature asks: the controls with that grade, its event raised. -/
theorem thermGrade_chosen (c : Ctl) (cfg : Cfg) (critical warns : Bool) :
    PwrRaised (c.cooled (max c.hub.grades.temp (if critical = true then 2 else if warns = true then min 2 (c.hub.grades.current + 1) else 0)))
      (if critical = true then c.thermGrade cfg 2 else if warns = true then c.thermGrade cfg (c.hub.grades.current + 1) else c) := by
  cases critical
  · cases warns
    · simp only [Bool.false_eq_true, if_false, Nat.max_zero]
      exact .refl c
    · exact Ctl.thermGrade_eq c cfg _
  · exact Ctl.thermGrade_eq c cfg 2

/-- A sample in which no yard's sensor passes its shutdown level: the readings and levels, and the grade that they allow. -/
theorem thermalSample_graded (s : State) {x : Temps} (safe : ∀ k : Yard, Temps.shut x k = false) : ∃ c,
    PwrRaised ((s.ctl.onPwr fun p => p.sampled x).cooled (max s.ctl.hub.grades.temp (if (s.ctl.pwr.sampled x).critical = true then 2
      else if ((s.ctl.pwr.sampled x).warned && !s.ctl.pwr.warned) = true then min 2 (s.ctl.hub.grades.current + 1) else 0))) c ∧
    thermalSample s x = if 110 < x.hub.now then tripOff (s.withCtl c) 5 0#8 else if 55 < x.inlet.now then tripOff (s.withCtl c) 6 0#8
      else s.withCtl c := by
  have yards : (List.finRange 8).filter (Temps.shut x) = [] := List.filter_eq_nil_iff.2 fun k _ => by simp [safe k]
  generalize crossings : ((s.ctl.pwr.temps.map Temps.levels).getD []).map (·.avg) = old
  obtain ⟨objs, hub, e, pwr⟩ := Ctl.thermEvents_raises (s.ctl.onPwr fun p => p.sampled x) s.cfg old (Temps.levels x)
  obtain ⟨objs', hub', e', pwr'⟩ := thermGrade_chosen ((s.ctl.onPwr fun p => p.sampled x).thermEvents s.cfg old (Temps.levels x)) s.cfg
    (s.ctl.pwr.sampled x).critical ((s.ctl.pwr.sampled x).warned && !s.ctl.pwr.warned)
  have critical : ((s.ctl.onPwr fun p => p.sampled x).thermEvents s.cfg old (Temps.levels x)).pwr.critical = (s.ctl.pwr.sampled x).critical := by
    rw [pwr]
    rfl
  have warned : ((s.ctl.onPwr fun p => p.sampled x).thermEvents s.cfg old (Temps.levels x)).pwr.warned = (s.ctl.pwr.sampled x).warned := by
    rw [pwr]
    rfl
  refine ⟨_, ⟨objs'.trans objs, hub'.trans ?_, e', pwr'.trans ?_⟩, ?_⟩
  · simp only [Ctl.cooled, Ctl.onHub, hub]
    rfl
  · rw [Ctl.cooled, Ctl.onHub_pwr, pwr]
    rfl
  · unfold thermalSample
    dsimp only
    rw [crossings, yards, critical, warned]
    rfl

/-- A warning that stands takes the grade one step further (R487). -/
theorem Ctl.thermGrade_steps {c : Ctl} (cfg : Cfg) (allowed : c.hub.grades.temp ≤ c.hub.grades.current) (above : c.hub.grades.current < 2) :
    c.thermGrade cfg (c.hub.grades.current + 1) =
      (c.onHub fun h => { h with grades := { h.grades with temp := c.hub.grades.current + 1 } }).raise cfg .pwr 2#16 := by
  have step : min 2 (c.hub.grades.current + 1) = c.hub.grades.current + 1 := by omega
  rw [Ctl.thermGrade, step]
  exact if_neg (by omega)

/-! ### The power cap (R475) -/

theorem Ctl.limitPower_steps {c : Ctl} (cfg : Cfg) (above : c.hub.grades.current < 2) (allowed : c.hub.grades.power ≤ c.hub.grades.current) :
    c.limitPower cfg = (c.onHub fun h => { h with grades := { h.grades with power := c.hub.grades.current + 1 } }).raise cfg .pwr 1#16 :=
  (if_pos above).trans (if_neg (by omega))

theorem Ctl.limitPower_halves {c : Ctl} (cfg : Cfg) (lowest : 2 ≤ c.hub.grades.current) (whole : c.hub.halving = false) :
    c.limitPower cfg = (c.onHub fun h => { h with halving := true }).raise cfg .pwr 1#16 :=
  (if_neg (Nat.not_lt.2 lowest)).trans (if_neg (by simp [whole]))

end Sys2Proof.Machine

/-- Settles O33: a sample is `thermalSample_graded`, whose trip leaves what `tripOff_mains` says (R476; the blank stores are log 4 and 69),
and the steps are `Ctl.thermGrade_steps`, `Ctl.limitPower_steps` and `Ctl.limitPower_halves`. That an event is raised at the crossing of
a level, and the order of a sample's effects, are log 83. -/
theorem gradesFollowTemperatureAndPower : Obligations.GradesFollowTemperatureAndPower := by
  refine fun s => ⟨fun x mains safe hub inlet => ?_, fun x mains safe trips => ?_, fun warned allowed above => ?_, fun cool => if_pos cool,
    fun critical lowest => if_pos (by simp [critical, lowest]), fun exceeds above allowed => ?_, fun exceeds lowest whole => ?_,
    fun under whole => (if_pos under).trans (if_neg (by simp [whole])),
    fun under halved calm => (if_pos under).trans ((if_pos halved).trans (if_neg (by simp [calm])))⟩
  · obtain ⟨c, ⟨objs, hub', e, pwr⟩, sampled⟩ := thermalSample_graded s safe
    rw [if_neg (Nat.not_lt.2 hub), if_neg (Nat.not_lt.2 inlet)] at sampled
    have readings : c.pwr = { s.ctl.pwr.sampled x with event := e } := pwr
    have grade := congrArg (fun h : Hub => h.grades.temp) hub'
    refine ⟨_, (if_pos mains).trans (congrArg _ sampled), rfl, rfl, objs, ?_⟩
    simp only [State.withCtl, readings]
    refine ⟨rfl, List.any_eq_true.trans (by simp), List.any_eq_true.trans (by simp), List.all_eq_true.trans (by simp), rfl, ?_⟩
    refine grade.trans ?_
    simp only [Bool.and_eq_true, Bool.not_eq_true']
    rfl
  · obtain ⟨c, ⟨-, -, e, pwr⟩, sampled⟩ := thermalSample_graded s safe
    have rails : (s.withCtl c).ctl.pwr.st.mains = true := by
      simp only [State.withCtl, pwr]
      exact mains
    by_cases hot : 110 < x.hub.now
    · rw [if_pos hot] at sampled
      obtain ⟨cleared, -, -, st, -, trip⟩ := tripOff_mains rails 5 0#8
      exact ⟨_, (if_pos mains).trans (congrArg _ sampled), cleared, st, by rw [if_pos hot, trip]⟩
    · rw [if_neg hot, if_pos (trips.resolve_left hot)] at sampled
      obtain ⟨cleared, -, -, st, -, trip⟩ := tripOff_mains rails 6 0#8
      exact ⟨_, (if_pos mains).trans (congrArg _ sampled), cleared, st, by rw [if_neg hot, trip]⟩
  · refine ⟨_, (if_pos (by simp [warned, allowed])).trans (congrArg _ (congrArg s.withCtl (Ctl.thermGrade_steps s.cfg allowed above))), rfl, rfl,
      ?_, Ctl.raise_pwr_ev ..⟩
    exact congrArg Hub.grades (Ctl.raise_pwr_hub ..)
  · refine ⟨_, (if_pos exceeds).trans (congrArg _ (congrArg s.withCtl (Ctl.limitPower_steps s.cfg above allowed))), rfl, rfl, ?_, Ctl.raise_pwr_ev ..⟩
    exact congrArg Hub.grades (Ctl.raise_pwr_hub ..)
  · refine ⟨_, (if_pos exceeds).trans (congrArg _ (congrArg s.withCtl (Ctl.limitPower_halves s.cfg lowest whole))), rfl, rfl, ?_, ?_,
      Ctl.raise_pwr_ev ..⟩
    · exact congrArg Hub.halving (Ctl.raise_pwr_hub ..)
    · exact (congrArg Hub.grades (Ctl.raise_pwr_hub ..)).trans rfl

end

section
/-! Samples and the stream of the journal (16): what a sample writes (R438, R439) and what a copied record leaves (R449). -/

namespace Sys2Proof.Machine

open Sys2Proof

/-! ### What the journal's writers leave of the stream -/

theorem Ctl.journal_tail (c : Ctl) (cfg : Cfg) (typ source cycle data0 : Nat) (body : List Byte) :
    (c.journal cfg typ source cycle data0 body).dbg.tail = c.dbg.tail := by
  unfold Ctl.journal
  split
  · rfl
  · split
    · rfl
    · dsimp only
      generalize (if c.dbg.state = 0 then _ else _ : Bool) = full
      cases full <;> rfl

theorem Ctl.trigger_tail (c : Ctl) (cfg : Cfg) (cause : Nat) : (c.trigger cfg cause).dbg.tail = c.dbg.tail := by
  unfold Ctl.trigger
  split
  · rfl
  · split
    · rfl
    · by_cases window : cfg.mode = 2
      · simp only [window, if_true]
        rfl
      · simp only [window, if_false]
        rfl

theorem Ctl.announce_tail (c : Ctl) (cfg : Cfg) (off : Nat) (e : Word) (was bits : BitVec 16) :
    (c.announce cfg off e was bits).dbg.tail = c.dbg.tail := by
  have pended : (match (c.count 0 1).fn? (c.count 0 1).mgmt with
      | some f => if f.deviceEn then (c.count 0 1).pendVector f.num f.eventVector else c.count 0 1
      | none => c.count 0 1).dbg.tail = c.dbg.tail := by
    split
    · split
      · rfl
      · rfl
    · rfl
  have written := (Ctl.journal_tail _ cfg 5 0x8FFF 0 off (Bits.toLe e.toNat 4 ++ List.replicate 12 0#8)).trans pended
  unfold Ctl.announce
  dsimp only
  split
  · exact (Ctl.trigger_tail ..).trans written
  · exact written

theorem Ctl.raise_dbg_tail (c : Ctl) (cfg : Cfg) (bits : BitVec 16) : (c.raise cfg .dbg bits).dbg.tail = c.dbg.tail :=
  Ctl.announce_tail ..

/-- Writing units to the host's ring is that many host writes, and changes neither an object nor the journal. -/
theorem Ctl.streamWrite_keeps (cfg : Cfg) (n : Nat) (c : Ctl) (pos : Nat) (bs : List Byte) :
    (c.streamWrite cfg pos bs n).objs = c.objs ∧ (c.streamWrite cfg pos bs n).dbg = c.dbg ∧
      (c.streamWrite cfg pos bs n).bus.writes.length = c.bus.writes.length + n := by
  induction n generalizing c pos bs with
  | zero => exact ⟨rfl, rfl, rfl⟩
  | succ n ih =>
    obtain ⟨objs, dbg, writes⟩ := ih (c.hostWrite c.mgmt none (cfg.streamAddr + 16 * (pos % cfg.streamUnits)) (bs.take 16)) (pos + 1) (bs.drop 16)
    refine ⟨objs.trans (Ctl.hostWrite_objs ..), dbg.trans (Ctl.hostWrite_dbg ..), writes.trans ?_⟩
    rw [Ctl.hostWrite_writes, List.length_cons]
    omega

/-! ### Samples (R438, R439) -/

section

variable {s : State} {k : Yard} {l : Cluster} {cycle queued : Nat}

theorem exec_pcSample_none (none' : s.cfg.sampleEn = false ∨ s.cfg.sampleYards.getLsbD k.val = false ∨ s.ctl.yardUp k = false ∨
    s.ctl.fe.ticking = false ∨ s.ctl.hub.halted = true ∨ sampleCycle k l s.cfg.log2i cycle = false ∨ s.cfg.cat.getLsbD 0 = false) :
    exec (.pcSample k l cycle queued) s = .next s := by
  refine if_pos ?_
  rcases none' with off | out | down | still | halted | apart | closed
  · simp only [off, Bool.false_and, Bool.not_false, Bool.true_or]
  · simp only [out, Bool.and_false, Bool.false_and, Bool.not_false, Bool.true_or]
  · simp only [down, Bool.and_false, Bool.false_and, Bool.not_false, Bool.true_or]
  · simp only [still, Bool.and_false, Bool.false_and, Bool.not_false, Bool.true_or]
  · simp only [halted, Bool.not_true, Bool.and_false, Bool.not_false, Bool.true_or]
  · simp only [apart, Bool.not_false, Bool.or_true, Bool.true_or]
  · simp only [closed, Bool.not_false, Bool.or_true]

/-- A sample that is taken becomes a record, or a loss that is counted where the queue is more than three quarters full. -/
theorem exec_pcSample_taken (on : s.cfg.sampleEn = true) (yard : s.cfg.sampleYards.getLsbD k.val = true) (up : s.ctl.yardUp k = true)
    (ticking : s.ctl.fe.ticking = true) (runs : s.ctl.hub.halted = false) (here : sampleCycle k l s.cfg.log2i cycle = true)
    (category : s.cfg.cat.getLsbD 0 = true) : exec (.pcSample k l cycle queued) s = .next (s.withCtl (if 3072 < queued then s.ctl.count 2 1
      else s.ctl.journal s.cfg 1 (k.val * 4096 + l.val) cycle (seqState s k l * 2 ^ 29 + seqPc s k l % 2 ^ 24) [])) := by
  refine (if_neg (by simp only [on, yard, up, ticking, runs, here, category]; decide)).trans ?_
  split
  · rfl
  · rfl

end

/-! ### The stream (R449) -/

/-- A record that cannot be written stops the stream. -/
theorem streamCopy_fails {s : State} {r : JRec}
    (next' : s.ctl.dbg.recs.find? (fun x => s.ctl.dbg.copyNext ≤ x.seq && x.typ ≠ 0) = some r) :
    streamCopy s false = { s with
      cfg := { s.cfg with streamEn := false }
      ctl := (s.ctl.onHub fun h => { h with crcRef := Cfg.crc { s.cfg with streamEn := false } }).raise { s.cfg with streamEn := false }
        .dbg 16#16 } := by
  unfold streamCopy
  dsimp only
  rw [next']
  exact if_pos rfl

section

variable {s : State} {ok : Bool}

theorem exec_streamRecordCopy_none (none' : s.cfg.streamEn = false ∨ s.ctl.sec.st ≠ .running ∨
    s.ctl.dbg.recs.find? (fun x => s.ctl.dbg.copyNext ≤ x.seq && x.typ ≠ 0) = none) : exec (.streamRecordCopy ok) s = .next s := by
  rcases none' with off | waits | empty
  · exact if_neg (by simp [off])
  · exact if_neg (by simp [waits])
  · have copied : streamCopy s ok = s := by
      unfold streamCopy
      dsimp only
      rw [empty]
    simp only [exec, execStreamRecordCopy, copied, ite_self]

variable (on : s.cfg.streamEn = true) (running : s.ctl.sec.st = .running)
include on running

theorem exec_streamRecordCopy_running : exec (.streamRecordCopy ok) s = .next (streamCopy s ok) :=
  if_pos (by simp [on, running])

variable {r : JRec} (next' : s.ctl.dbg.recs.find? (fun x => s.ctl.dbg.copyNext ≤ x.seq && x.typ ≠ 0) = some r)
include next'

/-- A record that cannot be written stops the stream, which STREAM_FAIL says. -/
theorem exec_streamRecordCopy_fails : ∃ t, exec (.streamRecordCopy false) s = .next t ∧ t.dp = s.dp ∧
    t.cfg = { s.cfg with streamEn := false } ∧ (t.ctl.ev .dbg).bits.getLsbD 4 = true ∧ t.ctl.dbg.tail = s.ctl.dbg.tail := by
  refine ⟨_, (exec_streamRecordCopy_running on running).trans (congrArg _ (streamCopy_fails next')), rfl, rfl, ?_, ?_⟩
  · exact raise_dbg_bit _ _ (by decide)
  · exact (Ctl.raise_dbg_tail ..).trans (congrArg Dbg.tail (Ctl.onHub_dbg ..))

variable {gap : Bool} (lost : gap = s.ctl.dbg.recs.all fun x => s.ctl.dbg.copyNext < x.seq) {out : JRec}
  (copied : out = if gap = true then s.ctl.dbg.lostGap s.ctl.hub.tick (r.seq - s.ctl.dbg.copyNext) else r) {used : Nat}
  (filled : used = (s.ctl.dbg.tail + s.cfg.streamUnits - s.cfg.streamHead % s.cfg.streamUnits) % s.cfg.streamUnits)
include lost copied filled

theorem exec_streamRecordCopy_copies (room : used + out.len < s.cfg.streamUnits) : ∃ t, exec (.streamRecordCopy true) s = .next t ∧
    t.dp = s.dp ∧ t.cfg = s.cfg ∧ t.ctl.objs = s.ctl.objs ∧ t.ctl.dbg.tail = (s.ctl.dbg.tail + out.len) % s.cfg.streamUnits ∧
    t.ctl.dbg.copyNext = (if gap = true then r.seq else r.seq + 1) ∧ t.ctl.dbg.stall = false ∧
    t.ctl.bus.writes.length = s.ctl.bus.writes.length + out.len := by
  obtain ⟨objs, dbg, writes⟩ := Ctl.streamWrite_keeps s.cfg out.len s.ctl s.ctl.dbg.tail out.bytes
  have step : streamCopy s true = s.withCtl (((s.ctl.streamWrite s.cfg s.ctl.dbg.tail out.bytes out.len).onDbg fun x =>
      { x with stall := false, tail := (x.tail + out.len) % s.cfg.streamUnits
               copyNext := if gap = true then r.seq else r.seq + 1 }).count 4 (16 * out.len)) := by
    unfold streamCopy
    dsimp only
    rw [next']
    dsimp only
    rw [← lost, ← copied, ← filled]
    exact (if_neg (by decide)).trans (if_neg (Nat.not_le.2 room))
  refine ⟨_, (exec_streamRecordCopy_running on running).trans (congrArg _ step), rfl, rfl, objs, ?_, rfl, rfl, writes⟩
  exact congrArg (fun d : Dbg => (d.tail + out.len) % s.cfg.streamUnits) dbg

theorem exec_streamRecordCopy_stalls (full : s.cfg.streamUnits ≤ used + out.len) :
    exec (.streamRecordCopy true) s = .next (s.withCtl (s.ctl.onDbg fun x => { x with stall := true })) := by
  refine (exec_streamRecordCopy_running on running).trans (congrArg _ ?_)
  unfold streamCopy
  dsimp only
  rw [next']
  dsimp only
  rw [← lost, ← copied, ← filled]
  exact (if_neg (by decide)).trans (if_pos full)

end

end Sys2Proof.Machine

open Sys2Proof Sys2Proof.Machine

/-- Settles O41: samples are `exec_pcSample_taken` (R438, R439), and the stream `exec_streamRecordCopy_copies`, whose GAP for records that were
overwritten rests on log 80, `exec_streamRecordCopy_stalls` and `exec_streamRecordCopy_fails` (R449). -/
theorem samplesAndStreamRecords : Obligations.SamplesAndStreamRecords := by
  refine fun s => ⟨fun k l cycle queued on yard up ticking runs here category => ?_, fun k l cycle queued none' => exec_pcSample_none none',
    fun ok none' => exec_streamRecordCopy_none none', fun r on running next' => ⟨exec_streamRecordCopy_fails on running next',
      fun gap out used lost copied filled => ⟨fun room => exec_streamRecordCopy_copies on running next' lost copied filled room,
        fun full => exec_streamRecordCopy_stalls on running next' lost copied filled full⟩⟩⟩
  have taken := exec_pcSample_taken (queued := queued) on yard up ticking runs here category
  exact ⟨fun fits => by rw [taken, if_neg (Nat.not_lt.2 fits)], fun past => by rw [taken, if_pos past]⟩

end

section
/-! The boot's firmware check (13): the state and the cause that it leaves (R359, R361, R362, R484). -/

namespace Sys2Proof.Machine

open Sys2Proof

/-- What the check of the firmware decides: the cause of RECOVERY_WAIT and the state. -/
def Ctl.checked (c : Ctl) : Nat × SecSt := (c.sec.cause, c.sec.st)

theorem Ctl.checked_of_sec {c d : Ctl} (same : d.sec = c.sec) : d.checked = c.checked := by
  rw [Ctl.checked, same]
  rfl

theorem Ctl.setEv_checked (c : Ctl) (r : EvReg) (e : EventReg) : (c.setEv r e).checked = c.checked := by
  cases r <;> rfl

theorem Ctl.raise_checked (c : Ctl) (cfg : Cfg) (r : EvReg) (bits : BitVec 16) : (c.raise cfg r bits).checked = c.checked := by
  by_cases supply : r = .pwr
  · subst supply
    exact Ctl.checked_of_sec (raise_pwr_keeps c cfg bits).2.2.1
  · exact (Ctl.checked_of_sec (raise_sameBut c cfg r bits supply).sec).trans (Ctl.setEv_checked ..)

theorem Ctl.onHub_checked (c : Ctl) (f : Hub → Hub) : (c.onHub f).checked = c.checked := rfl

theorem Ctl.onYard_checked (c : Ctl) (k : Yard) (f : Yd → Yd) : (c.onYard k f).checked = c.checked := rfl

theorem Ctl.persist_checked (c : Ctl) (cfg : Cfg) (i : Nat) (v : Word) : (c.persist cfg i v).2.checked = c.checked :=
  Ctl.checked_of_sec (Ctl.persist_sec ..)

/-! ### The steps of a start decide nothing more (R484) -/

theorem Ctl.finishFlr_checked (c : Ctl) (n : BitVec 8) : (c.finishFlr n).checked = c.checked := by
  unfold Ctl.finishFlr
  split
  · rfl
  · rfl

theorem Ctl.startFns_checked (c : Ctl) : c.startFns.checked = c.checked := by
  have made (d : Ctl) (fns : List Fn) (n : BitVec 8) : (Ctl.finishFlr { d.drawKey.2 with fns := fns } n).checked = d.checked :=
    (Ctl.finishFlr_checked ..).trans rfl
  unfold Ctl.startFns
  dsimp only
  split
  · exact (made ..).trans (made ..)
  · exact made ..

theorem Ctl.startKeys_checked (c : Ctl) (cfg : Cfg) : (c.startKeys cfg).checked = c.checked := by
  unfold Ctl.startKeys
  dsimp only
  split
  · rfl
  · exact Ctl.raise_checked ..

theorem Ctl.startYard_checked (c : Ctl) (cfg : Cfg) (st : StartIn) (k : Yard) : (c.startYard cfg st k).checked = c.checked := by
  unfold Ctl.startYard
  simp only [apply_ite Ctl.checked, Ctl.raise_checked, Ctl.onHub_checked, Ctl.onYard_checked, ite_self]

theorem Ctl.foldl_startYard_checked (cfg : Cfg) (st : StartIn) (l : List Yard) (c : Ctl) :
    (l.foldl (fun c k => c.startYard cfg st k) c).checked = c.checked := by
  induction l generalizing c with
  | nil => rfl
  | cons k l ih => exact (ih _).trans (Ctl.startYard_checked ..)

theorem Ctl.startPorts_checked (c : Ctl) (cfg : Cfg) (found : List CxlFound) : (c.startPorts cfg found).checked = c.checked := by
  unfold Ctl.startPorts
  simp only [apply_ite Ctl.checked, Ctl.raise_checked]
  exact ite_self _

theorem Ctl.startLedger_checked (c : Ctl) (cfg : Cfg) : (c.startLedger cfg).checked = c.checked := by
  unfold Ctl.startLedger
  dsimp only
  split
  · exact Ctl.persist_checked ..
  · exact (Ctl.raise_checked ..).trans (Ctl.persist_checked ..)

theorem Ctl.measure_checked (c : Ctl) : c.measure.checked = c.checked := rfl

theorem Ctl.startSite_checked (c : Ctl) (st : StartIn) (i : Nat) : (c.startSite st i).checked = c.checked := rfl

theorem Ctl.recover_checked (c : Ctl) (st : StartIn) (cause : Nat) : (c.recover st cause).checked = (cause, .recoveryWait) := by
  unfold Ctl.recover
  rw [Ctl.measure_checked, Ctl.startSite_checked, Ctl.startSite_checked, Ctl.startFns_checked]
  rfl

theorem Ctl.run_checked (c : Ctl) (cfg : Cfg) (st : StartIn) (i : FwImage) : (c.run cfg st i).checked = (0, .running) := by
  unfold Ctl.run
  dsimp only
  rw [Ctl.measure_checked, Ctl.checked_of_sec (Ctl.onPwr_sec ..), Ctl.onHub_checked, Ctl.startLedger_checked, Ctl.startSite_checked,
    Ctl.startSite_checked, Ctl.startFns_checked, Ctl.startPorts_checked, Ctl.foldl_startYard_checked, Ctl.startKeys_checked]
  rfl

/-! ### The check (R359, R361) -/

theorem firmwareCheck_none {c : Ctl} {found : Option FwImage} (none' : c.cof.firmware found = none) (cfg : Cfg) (st : StartIn) :
    (firmwareCheck c cfg found st).checked = (1, .recoveryWait) := by
  unfold firmwareCheck
  rw [none']
  exact Ctl.recover_checked ..

/-- The device runs the image that passes every check, where the counter of R361 need not rise or can. -/
theorem firmwareCheck_image {c : Ctl} {found : Option FwImage} {i : FwImage} (image : c.cof.firmware found = some i) (cfg : Cfg) (st : StartIn) :
    (firmwareCheck c cfg found st).checked =
      (if fwCause i (c.prs.word rollbackWord).toNat ≠ 0 then (fwCause i (c.prs.word rollbackWord).toNat, .recoveryWait)
       else if fwSvn i ≤ (c.prs.word rollbackWord).toNat then (0, .running)
       else if (c.persist cfg rollbackWord (BitVec.ofNat 32 (fwSvn i))).1 = true then (0, .running) else (8, .recoveryWait)) := by
  unfold firmwareCheck
  rw [image]
  dsimp only
  split
  · exact Ctl.recover_checked ..
  · by_cases known : fwSvn i ≤ (c.prs.word rollbackWord).toNat
    · rw [if_pos known, if_neg (Nat.not_lt.2 known), if_pos rfl]
      exact Ctl.run_checked ..
    · rw [if_neg known, if_pos (Nat.not_le.1 known)]
      split
      · exact Ctl.run_checked ..
      · exact Ctl.recover_checked ..

end Sys2Proof.Machine

open Sys2Proof Sys2Proof.Machine

/-- Settles O34 by `firmwareCheck_none` and `firmwareCheck_image`. -/
theorem firmwareCheckRunsOrRecovers : Obligations.FirmwareCheckRunsOrRecovers := by
  intro s found st boot supply pg rstN clock
  refine ⟨_, if_pos (by simp [boot, supply, pg, rstN, clock]), rfl, rfl, fun none' => ?_, fun i image => firmwareCheck_image image s.cfg st⟩
  have decided := firmwareCheck_none none' s.cfg st
  exact ⟨congrArg Prod.snd decided, congrArg Prod.fst decided⟩

end

section
/-! Yard faults and hard faults (14): what a yard that is lost leaves (R392, R394, R399), and a cluster with a hard fault (R378, R379, R381). -/

namespace Sys2Proof.Machine

open Sys2Proof

/-! ### What raising an event leaves beside its register (R454) -/

/-- What does not read the observation block, the functions and the buses stands after an event is raised as its register leaves it. -/
theorem Ctl.raise_leaves {α : Type} {g : Ctl → α} (beside : ∀ (c : Ctl) d f b, g { c with dbg := d, fns := f, bus := b } = g c) (c : Ctl)
    (cfg : Cfg) (r : EvReg) (bits : BitVec 16) : g (c.raise cfg r bits) = g (c.setEv r ((c.ev r).raise bits)) := by
  by_cases supply : r = .pwr
  · subst supply
    obtain ⟨x, ⟨d, p, rfl⟩, raised⟩ := raise_pwr c cfg bits
    rw [raised]
    exact beside (c.setEv .pwr ((c.ev .pwr).raise bits)) _ _ _
  · obtain ⟨d, p, raised⟩ := raise_sameBut c cfg r bits supply
    rw [raised]
    exact beside (c.setEv r ((c.ev r).raise bits)) _ _ _

theorem Ctl.raise_hub (c : Ctl) (cfg : Cfg) (r : EvReg) (bits : BitVec 16) :
    (c.raise cfg r bits).hub = (c.setEv r ((c.ev r).raise bits)).hub :=
  Ctl.raise_leaves (fun _ _ _ _ => rfl) ..

theorem Ctl.raise_yd (c : Ctl) (cfg : Cfg) (r : EvReg) (bits : BitVec 16) (k : Yard) :
    (c.raise cfg r bits).yd k = (c.setEv r ((c.ev r).raise bits)).yd k :=
  Ctl.raise_leaves (g := fun c => c.yd k) (fun _ _ _ _ => rfl) ..

/-- An event of a yard leaves the hub. -/
theorem Ctl.raise_yras_hub (c : Ctl) (cfg : Cfg) (k : Yard) (bits : BitVec 16) : (c.raise cfg (.yras k) bits).hub = c.hub :=
  Ctl.raise_hub ..

theorem Ctl.raise_yras_yd (c : Ctl) (cfg : Cfg) (k : Yard) (bits : BitVec 16) :
    (c.raise cfg (.yras k) bits).yd k = { c.yd k with ras := (c.yd k).ras.raise bits } :=
  (Ctl.raise_yd ..).trans (Ctl.yd_onYard_same ..)

theorem Ctl.raise_mem_yd (c : Ctl) (cfg : Cfg) (k : Yard) (bits : BitVec 16) :
    (c.raise cfg (.mem k) bits).yd k = { c.yd k with mem := (c.yd k).mem.raise bits } :=
  (Ctl.raise_yd ..).trans (Ctl.yd_onYard_same ..)

theorem Ctl.yardUp_iff (c : Ctl) (k : Yard) : c.yardUp k = true ↔ c.hub.yardsUp.getLsbD k.val = true ∧ (c.yd k).lost = false := by
  simp [Ctl.yardUp]

theorem Ctl.yardUp_lost {c : Ctl} {k : Yard} (lost : (c.yd k).lost = true) : c.yardUp k = false := by
  simp [Ctl.yardUp, lost]

/-! ### Yard faults (R392, R394, R399) -/

section

variable {c : Ctl} {cfg : Cfg} {k : Yard} {cause : YardCause}

theorem Ctl.loseYard_none (none' : c.hub.halted = true ∨ (c.yd k).lost = true) : c.loseYard cfg k cause = c :=
  if_pos (by simpa using none')

variable (running : c.hub.halted = false) (stands : (c.yd k).lost = false)
include running stands

/-- A second yard fault stops the device as a hang does (R399). -/
theorem Ctl.loseYard_hangs (second : c.hub.relief ≠ none ∨ c.hub.reliefNext ≠ none) : c.loseYard cfg k cause = c.hang cfg 4 0 noMeter :=
  (if_neg (by simp [running, stands])).trans (if_pos (by simpa [Option.isSome_iff_ne_none] using second))

omit running stands in
/-- The controls once a yard is lost and its events are raised. -/
def Ctl.yardLostRaised (c : Ctl) (cfg : Cfg) (k : Yard) (cause : YardCause) : Ctl :=
  match cause with
  | .temperature => ((c.onYard k fun y => { y with lost := true }).raise cfg (.yras k) (evBit 12)).raise cfg .pwr 8#16
  | _ => (c.onYard k fun y => { y with lost := true }).raise cfg (.yras k) (evBit 12)

omit running stands in
theorem Ctl.yardLostRaised_holds (c : Ctl) (cfg : Cfg) (k : Yard) (cause : YardCause) :
    (c.yardLostRaised cfg k cause).hub = c.hub ∧ ((c.yardLostRaised cfg k cause).yd k).lost = true ∧
      (((c.yardLostRaised cfg k cause).yd k).ras).bits.getLsbD 12 = true ∧ (c.yardLostRaised cfg k cause).objs = c.objs ∧
      (cause = .temperature → ((c.yardLostRaised cfg k cause).ev .pwr).bits.getLsbD 3 = true) := by
  have yard : ((c.onYard k fun y => { y with lost := true }).raise cfg (.yras k) (evBit 12)).yd k =
      { c.yd k with lost := true, ras := (c.yd k).ras.raise (evBit 12) } := by
    rw [Ctl.raise_yras_yd, Ctl.yd_onYard_same]
  have bit : ((c.yd k).ras.raise (evBit 12)).bits.getLsbD 12 = true := by simp [EventReg.raise, evBit]
  have hub := Ctl.raise_yras_hub (c.onYard k fun y => { y with lost := true }) cfg k (evBit 12)
  have objs := Ctl.raise_objs (c.onYard k fun y => { y with lost := true }) cfg (.yras k) (evBit 12)
  unfold Ctl.yardLostRaised
  generalize (c.onYard k fun y => { y with lost := true }).raise cfg (.yras k) (evBit 12) = d at yard hub objs
  have named : (d.yd k).lost = true ∧ (d.yd k).ras.bits.getLsbD 12 = true := by
    rw [yard]
    exact ⟨rfl, bit⟩
  cases cause with
  | temperature =>
    have same : (d.raise cfg .pwr 8#16).yd k = d.yd k := Ctl.raise_yd ..
    exact ⟨(Ctl.raise_hub d cfg .pwr 8#16).trans hub, same ▸ named.1, same ▸ named.2, (Ctl.raise_objs ..).trans objs,
      fun _ => Ctl.raise_bit d cfg .pwr (by decide)⟩
  | management | other => exact ⟨hub, named.1, named.2, objs, nofun⟩

/-- A first yard fault (R392, R394): what it makes of the hub and of the stalls in flight. -/
theorem Ctl.loseYard_eq (first : c.hub.relief = none) (next' : c.hub.reliefNext = none) : ∃ placed, c.loseYard cfg k cause =
    ((c.yardLostRaised cfg k cause).onHub fun h =>
      { h with yardsUp := h.yardsUp &&& ~~~(1#8 <<< k.val), rasValid := true, rasPlaced := placed, rasYard := k, rasMs := 0
               reliefNext := if (c.yardLostRaised cfg k cause).objs.selected.isSome then some k else none, reliefUp := false }).onFe
        fun f => { f with pipe := f.pipe.map fun m => m.failUpTo k } := by
  unfold Ctl.loseYard
  rw [if_neg (by simp [running, stands]), if_neg (by simp [first, next'])]
  cases cause with
  | temperature => exact ⟨_, rfl⟩
  | management | other => exact ⟨_, rfl⟩

/-- A yard that is lost is out of service, and YARD_LOST says so. -/
theorem Ctl.loseYard_lost (first : c.hub.relief = none) (next' : c.hub.reliefNext = none) : ((c.loseYard cfg k cause).yd k).lost = true ∧
    ((c.loseYard cfg k cause).ev (.yras k)).bits.getLsbD 12 = true := by
  obtain ⟨placed, lost⟩ := Ctl.loseYard_eq (cfg := cfg) (cause := cause) running stands first next'
  obtain ⟨-, out, bit, -, -⟩ := c.yardLostRaised_holds cfg k cause
  rw [lost]
  exact ⟨out, bit⟩

end

/-- The stalls of every microbatch up to the lost yard have failed (R394). -/
theorem Micro.failUpTo_fails {m : Micro} {k : Yard} {l : List Micro} (mem : m ∈ l.map fun m => m.failUpTo k) (upTo : m.yard ≤ k.val) :
    ∀ st ∈ m.stalls, st.failedAt ≠ none := by
  obtain ⟨n, -, rfl⟩ := List.mem_map.1 mem
  unfold Micro.failUpTo at upTo ⊢
  split at upTo
  next before =>
    rw [if_pos before]
    intro st listed
    obtain ⟨x, -, rfl⟩ := List.mem_map.1 listed
    cases failed : x.failedAt <;> simp
  next after => exact absurd upTo after

/-! ### Images whose masters cannot be read (R209) -/

/-- From `a` to `b` the hub, the yards, the ports, the persistent store and the coffer's lost channels stand, as records, jobs and objects
leave them. -/
structure Elsewhere (a b : Ctl) : Prop where
  hub : b.hub = a.hub
  yards : b.yards = a.yards
  ports : b.cxl = a.cxl
  words : b.prs = a.prs
  coffer : b.cof.lost = a.cof.lost

namespace Elsewhere

variable {a b d : Ctl}

theorem refl (a : Ctl) : Elsewhere a a := ⟨rfl, rfl, rfl, rfl, rfl⟩

theorem trans (h : Elsewhere a b) (k : Elsewhere b d) : Elsewhere a d :=
  ⟨k.hub.trans h.hub, k.yards.trans h.yards, k.ports.trans h.ports, k.words.trans h.words, k.coffer.trans h.coffer⟩

theorem onFn (h : Elsewhere a b) {n : BitVec 8} {f : Fn → Fn} : Elsewhere a (b.onFn n f) := h.trans ⟨rfl, rfl, rfl, rfl, rfl⟩

theorem onQueue (h : Elsewhere a b) {n : BitVec 8} {q : Fin 4} {f : Queue → Queue} : Elsewhere a (b.onQueue n q f) := h.onFn

theorem onObjs (h : Elsewhere a b) {f : Objs → Objs} : Elsewhere a (b.onObjs f) := h.trans ⟨rfl, rfl, rfl, rfl, rfl⟩

theorem onFe (h : Elsewhere a b) {f : Fe → Fe} : Elsewhere a (b.onFe f) := h.trans ⟨rfl, rfl, rfl, rfl, rfl⟩

theorem ite {p : Prop} [Decidable p] (h : Elsewhere a b) (k : Elsewhere a d) : Elsewhere a (if p then b else d) := by
  split
  · exact h
  · exact k

theorem foldl {α : Type} {f : Ctl → α → Ctl} (step : ∀ c x, Elsewhere c (f c x)) (h : Elsewhere a b) (l : List α) : Elsewhere a (l.foldl f b) := by
  induction l generalizing b with
  | nil => exact h
  | cons x l ih => exact ih (h.trans (step b x))

/-- The coffer's own events leave its channels. -/
theorem raiseCof (h : Elsewhere a b) {cfg : Cfg} {bits : BitVec 16} : Elsewhere a (b.raise cfg .cof bits) := by
  have same := raise_sameBut b cfg .cof bits nofun
  exact h.trans ⟨same.hub, same.yards, Ctl.raise_leaves (g := Ctl.cxl) (fun _ _ _ _ => rfl) .., same.prs, (congrArg Cof.lost same.cof).trans rfl⟩

theorem hostWrite (h : Elsewhere a b) {n : BitVec 8} {pasid : Option (BitVec 20)} {addr : Nat} {bs : List Byte} :
    Elsewhere a (b.hostWrite n pasid addr bs) := by
  rw [Ctl.hostWrite, Ctl.translate_eq]
  exact h.trans ⟨rfl, rfl, rfl, rfl, rfl⟩

theorem deliver (h : Elsewhere a b) {n : BitVec 8} {r : Rec} : Elsewhere a (b.deliver n r) := by
  unfold Ctl.deliver
  split
  · exact h
  · exact h.onFn.onObjs

theorem writeRec (h : Elsewhere a b) {f : Fn} {q : Fin 4} {r : Rec} {held : Bool} : Elsewhere a (b.writeRec f q r held) := by
  unfold Ctl.writeRec
  dsimp only
  exact .deliver (.ite h.hostWrite.onQueue.onFn h.hostWrite.onQueue)

theorem postFor (h : Elsewhere a b) {m : Cmd} {r : Rec} : Elsewhere a (b.postFor m r) := by
  unfold Ctl.postFor Ctl.post
  split
  · exact h.deliver
  · split
    · exact h
    · exact .ite h.writeRec h.onQueue.onFn

theorem decide (h : Elsewhere a b) {m : Cmd} {status : BitVec 16} {handle : Handle} {result : Nat} {tally : Option (Nat × Nat × Nat)}
    {job : Option Nat} : Elsewhere a (b.decide m status handle result tally job) := by
  unfold Ctl.decide
  exact h.onFn.onQueue.postFor

theorem settle (h : Elsewhere a b) {n : BitVec 8} : Elsewhere a (b.settle n) :=
  h.foldl (fun c w => by
    split
    · exact .ite (Elsewhere.refl c).onObjs.onQueue.decide (.refl c)
    · exact .refl c) _

/-- A job that ends, with the commands that wait on it (R280, R297). -/
theorem finishJob (h : Elsewhere a b) {j : Job} {status : BitVec 16} {handle : Handle} {result : Nat} :
    Elsewhere a (b.finishJob j status handle result) := by
  unfold Ctl.finishJob
  dsimp only
  exact .foldl (fun c o => (Elsewhere.refl c).decide.settle) (.ite h.onObjs h.onObjs.decide.settle) _

theorem stopActivations (h : Elsewhere a b) {image : Nat} {status : BitVec 16} : Elsewhere a (b.stopActivations image status) :=
  h.foldl (fun c j => by
    unfold Ctl.dropActivate
    split
    · exact (Elsewhere.refl c).onObjs.finishJob
    · exact (Elsewhere.refl c).finishJob) _

theorem damage (h : Elsewhere a b) {cfg : Cfg} {i : Image} : Elsewhere a (b.damage cfg i) :=
  .ite h h.onObjs.stopActivations.raiseCof

theorem damageAll (h : Elsewhere a b) {cfg : Cfg} {unread : List (Nat × Nat)} : Elsewhere a (b.damageAll cfg unread) :=
  h.foldl (fun c _ => .foldl (fun d _ => .damage (.refl d)) (.refl c) _) _

end Elsewhere

/-! ### Relief sets that become ready (R397) -/

section

variable {s : State} {ms : Nat} {unread : List (Nat × Nat)}

theorem reliefReady_none (none' : s.ctl.hub.halted = true ∨ s.ctl.hub.relief = none ∨ s.ctl.hub.reliefUp = true) :
    reliefReady s ms unread = s := by
  unfold reliefReady
  split
  · rfl
  next k relief =>
    refine if_pos ?_
    rcases none' with halted | none' | up
    · simp [halted]
    · simp [none'] at relief
    · simp [up]

theorem reliefReady_serves {k : Yard} (running : s.ctl.hub.halted = false) (relief : s.ctl.hub.relief = some k) (down : s.ctl.hub.reliefUp = false) :
    ∃ c, Elsewhere s.ctl c ∧ reliefReady s ms unread = { s with
      dp := if s.ctl.hub.rasPlaced = true then s.dp else s.dp.takeUnits (s.ctl.objs.epochs.foldl (fun d e => loadRelief s.ctl d e) s.dp)
        s.ctl.sec.deviceKey ((s.ctl.objs.epochs.flatMap fun e => s.ctl.copyUnitsOf unread e true).filter fun u => fastOwner u = some (reliefYard k))
      ctl := (c.onHub fun h => { h with reliefUp := true, rasMs := min ms (2 ^ 24 - 1) }).raise s.cfg .ras (evBit 1) } := by
  refine ⟨if s.ctl.hub.rasPlaced then s.ctl else s.ctl.damageAll s.cfg unread, .ite (.refl _) (Elsewhere.refl _).damageAll, ?_⟩
  unfold reliefReady
  rw [relief]
  exact if_neg (by simp [running, down])

end

end Sys2Proof.Machine

open Sys2Proof Sys2Proof.Machine

/-- Settles O55 by `Ctl.loseYard_hangs` and `Ctl.hang_freezes`; that a relief set which waits for its bell counts as one that runs is log 71. -/
theorem secondYardFaultStopsTheDevice : Obligations.SecondYardFaultStopsTheDevice := by
  intro s k cause running second stands
  have hangs := Ctl.loseYard_hangs (cfg := s.cfg) (cause := cause) running stands second
  obtain ⟨halted, st, bit, objs, d, mem, -, begun⟩ := Ctl.hang_freezes running s.cfg 4 0 noMeter
  exact ⟨_, next_withCtl hangs, rfl, rfl, halted, st, bit, objs, d, mem, begun⟩

/-- Settles O57 by `Ctl.loseYard_eq` and `reliefReady_serves`. That the load fills only units on the relief yard's own stacks is log 75, and the
events that change nothing are log 56. -/
theorem lostYardsBringReliefSets : Obligations.LostYardsBringReliefSets := by
  refine fun s k => ⟨fun cause running stands first next' => ?_, fun cause none' => next_withCtl (Ctl.loseYard_none none'),
    fun ms unread => ⟨fun none' => congrArg _ (reliefReady_none none'), fun running relief down => ?_⟩⟩
  · obtain ⟨placed, lost⟩ := Ctl.loseYard_eq (cfg := s.cfg) (cause := cause) running stands first next'
    obtain ⟨hub, out, bit, objs, hot⟩ := s.ctl.yardLostRaised_holds s.cfg k cause
    refine ⟨_, next_withCtl lost, rfl, rfl, out, ?_, bit, hot, rfl, rfl, ?_, fun m mem upTo => Micro.failUpTo_fails mem upTo⟩
    · exact Ctl.yardUp_lost out
    · rw [← objs]
      rfl
  · obtain ⟨c, kept, ready⟩ := reliefReady_serves (ms := ms) (unread := unread) running relief down
    have hub := Ctl.raise_hub (c.onHub fun h => { h with reliefUp := true, rasMs := min ms (2 ^ 24 - 1) }) s.cfg .ras (evBit 1)
    refine ⟨_, congrArg Host.Outcome.next ready, rfl, (congrArg Hub.reliefUp hub).trans rfl, (congrArg Hub.rasMs hub).trans rfl, ?_, rfl⟩
    refine (Ctl.raise_ev_same (r := .ras) _ s.cfg (evBit 1) nofun).trans ?_
    rw [Ctl.ev, Ctl.onHub_hub, kept.hub]
    rfl

end

section
/-! Hard faults of clusters (14): fault mode, the way to a yard fault, and errors in the stores (R378, R379, R381, R405). -/

namespace Sys2Proof.Machine

open Sys2Proof

/-! ### A cluster with a hard fault (R378, R381) -/

section

variable {c : Ctl} {cfg : Cfg} {k : Yard} {l : Cluster}

theorem Ctl.hardFault_loses (taken : (c.yd k).freeSpare (l.val / 25) = false) : c.hardFault cfg k l = c.loseYard cfg k .other :=
  if_pos (by simp [taken])

/-- With a free spare and no other cluster of its row at fault the cluster is in fault mode. -/
theorem Ctl.hardFault_enters (free : (c.yd k).freeSpare (l.val / 25) = true)
    (alone : ∀ x ∈ (c.yd k).seqs, x.2.faulty = true → x.1 / 25 = l.val / 25 → x.1 = l.val) :
    c.hardFault cfg k l = c.onYard k fun y => y.onSeq l.val fun q => { q with faulty := true } := by
  have other : ((c.yd k).seqs.any fun x => x.2.faulty && x.1 ≠ l.val && x.1 / 25 = l.val / 25) = false :=
    List.any_eq_false.2 fun x mem => by simpa using fun faulty apart row => apart (alone x mem faulty row)
  refine if_neg ?_
  rw [free]
  exact fun h => by rw [other] at h; cases h

end

/-! ### An uncorrectable error in a store (R378) -/

/-- The controls once an error at a unit is counted, raised and latched. -/
def Ctl.errorLatched (c : Ctl) (cfg : Cfg) (k : Yard) (u source addr : Nat) : Ctl :=
  (((c.onYard k fun y => { y with uncorrectable := (u :: y.uncorrectable.filter (· ≠ u)).take 64 }).raise cfg (.mem k) 16#16).countYard k 8 1).latchPoison
    k source addr

theorem Ctl.errorLatched_yd (c : Ctl) (cfg : Cfg) (k : Yard) (u source addr : Nat) : ∃ counts, (c.errorLatched cfg k u source addr).yd k =
    { c.yd k with uncorrectable := (u :: (c.yd k).uncorrectable.filter (· ≠ u)).take 64, mem := (c.yd k).mem.raise 16#16, counts := counts
                  poisonAddr := (c.yd k).poisonAddr.orElse fun _ => some (source, addr) } := by
  unfold Ctl.errorLatched Ctl.latchPoison Ctl.countYard
  simp only [Ctl.yd_onYard_same, Ctl.raise_mem_yd]
  exact ⟨_, rfl⟩

theorem Ctl.errorLatched_hub (c : Ctl) (cfg : Cfg) (k : Yard) (u source addr : Nat) : (c.errorLatched cfg k u source addr).hub = c.hub :=
  Ctl.raise_hub ..

/-- An error at a unit, and a hard fault where the yard remembers one there. -/
theorem sramFault_eq (s : State) (k : Yard) (l : Cluster) (core : Fin 40) (off : Nat) (cstore : Bool) : ∃ source addr, sramFault s k l core off cstore =
    { s with
      dp := { s.dp with poison := s.dp.poison.add (faultKey s.ctl k l core off cstore / 64) }
      ctl := if (s.ctl.yd k).uncorrectable.contains (faultKey s.ctl k l core off cstore / 64)
        then (s.ctl.errorLatched s.cfg k (faultKey s.ctl k l core off cstore / 64) source addr).hardFault s.cfg k l
        else s.ctl.errorLatched s.cfg k (faultKey s.ctl k l core off cstore / 64) source addr } :=
  ⟨_, _, rfl⟩

section

variable {s : State} {k : Yard} {l : Cluster}

/-- On a halted device or in a yard out of service no hard fault is acted on. -/
theorem exec_hardFaults_none (none' : s.ctl.hub.halted = true ∨ s.ctl.yardUp k = false) :
    (∀ cause : FaultCause, exec (.clusterHardFault k l cause) s = .next s) ∧ ∀ code : BitVec 16, exec (.cpmCritical k l code) s = .next s := by
  refine ⟨fun cause => if_pos (by simpa using none'), fun code => congrArg _ (if_pos ?_)⟩
  rcases none' with halted | down
  · simp [halted]
  · simp [down]

variable (running : s.ctl.hub.halted = false) (up : s.ctl.yardUp k = true)
include running up

theorem exec_clusterHardFault_acts {cause : FaultCause} (shown : cause = .checker ∨ cause = .monitor ∨ cause = .selftest) :
    exec (.clusterHardFault k l cause) s = .next (s.withCtl (s.ctl.hardFault s.cfg k l)) := by
  refine (if_neg (by simp [running, up])).trans ?_
  rcases shown with rfl | rfl | rfl
  · rfl
  · rfl
  · rfl

theorem exec_clusterHardFault_sram {core : Fin 40} {off : Nat} {cstore : Bool} (inside : off < if cstore = true then clusterBytes else coreBytes) :
    exec (.clusterHardFault k l (.sram core off cstore)) s = .next (sramFault s k l core off cstore) :=
  (if_neg (by simp [running, up])).trans (if_neg (Nat.not_le.2 inside))

theorem exec_clusterHardFault_outside {core : Fin 40} {off : Nat} {cstore : Bool}
    (outside : (if cstore = true then clusterBytes else coreBytes) ≤ off) :
    exec (.clusterHardFault k l (.sram core off cstore)) s = .fault .noSuchAddress :=
  (if_neg (by simp [running, up])).trans (if_pos outside)

section

variable {core : Fin 40} {off : Nat} {cstore : Bool} (inside : off < if cstore = true then clusterBytes else coreBytes)
include inside

/-- A repeated error where the row's spare is taken loses the yard (R381). -/
theorem exec_sram_loses (again : (s.ctl.yd k).uncorrectable.contains (faultKey s.ctl k l core off cstore / 64) = true)
    (taken : (s.ctl.yd k).freeSpare (l.val / 25) = false) (first : s.ctl.hub.relief = none) (next' : s.ctl.hub.reliefNext = none) :
    ∃ t, exec (.clusterHardFault k l (.sram core off cstore)) s = .next t ∧ (t.ctl.yd k).lost = true ∧
      (t.ctl.ev (.yras k)).bits.getLsbD 12 = true := by
  obtain ⟨source, addr, step⟩ := sramFault_eq s k l core off cstore
  rw [if_pos again] at step
  obtain ⟨counts, yard⟩ := s.ctl.errorLatched_yd s.cfg k (faultKey s.ctl k l core off cstore / 64) source addr
  have hub := s.ctl.errorLatched_hub s.cfg k (faultKey s.ctl k l core off cstore / 64) source addr
  generalize s.ctl.errorLatched s.cfg k (faultKey s.ctl k l core off cstore / 64) source addr = c at step yard hub
  rw [Ctl.hardFault_loses (by rw [yard]; exact taken)] at step
  have stands : (c.yd k).lost = false := (congrArg Yd.lost yard).trans ((Ctl.yardUp_iff ..).1 up).2
  exact ⟨_, (exec_clusterHardFault_sram running up inside).trans (congrArg _ step),
    Ctl.loseYard_lost (hub ▸ running) stands (hub ▸ first) (hub ▸ next')⟩

/-- A repeated error where the row has a free spare puts the cluster in fault mode. -/
theorem exec_sram_enters (again : (s.ctl.yd k).uncorrectable.contains (faultKey s.ctl k l core off cstore / 64) = true)
    (free : (s.ctl.yd k).freeSpare (l.val / 25) = true)
    (alone : ∀ x ∈ (s.ctl.yd k).seqs, x.2.faulty = true → x.1 / 25 = l.val / 25 → x.1 = l.val) :
    ∃ t, exec (.clusterHardFault k l (.sram core off cstore)) s = .next t ∧ (t.ctl.yd k).lost = false ∧
      (t.ctl.yd k).seqs = ((s.ctl.yd k).onSeq l.val fun q => { q with faulty := true }).seqs := by
  obtain ⟨source, addr, step⟩ := sramFault_eq s k l core off cstore
  rw [if_pos again] at step
  obtain ⟨counts, yard⟩ := s.ctl.errorLatched_yd s.cfg k (faultKey s.ctl k l core off cstore / 64) source addr
  generalize s.ctl.errorLatched s.cfg k (faultKey s.ctl k l core off cstore / 64) source addr = c at step yard
  rw [Ctl.hardFault_enters (by rw [yard]; exact free) (by rw [yard]; exact alone)] at step
  refine ⟨_, (exec_clusterHardFault_sram running up inside).trans (congrArg _ step), ?_⟩
  simp only [Ctl.yd_onYard_same, yard]
  exact ⟨((Ctl.yardUp_iff ..).1 up).2, rfl⟩

/-- A first error at an address poisons its unit, is raised and latched, and is no hard fault. -/
theorem exec_sram_latches (first : (s.ctl.yd k).uncorrectable.contains (faultKey s.ctl k l core off cstore / 64) = false) :
    ∃ t, exec (.clusterHardFault k l (.sram core off cstore)) s = .next t ∧ t.cfg = s.cfg ∧
      t.dp = { s.dp with poison := s.dp.poison.add (faultKey s.ctl k l core off cstore / 64) } ∧ (t.ctl.yd k).seqs = (s.ctl.yd k).seqs ∧
      (t.ctl.ev (.mem k)).bits.getLsbD 4 = true ∧ (t.ctl.yd k).poisonAddr ≠ none ∧
      (t.ctl.yd k).uncorrectable = ((faultKey s.ctl k l core off cstore / 64) :: (s.ctl.yd k).uncorrectable.filter
        (· ≠ faultKey s.ctl k l core off cstore / 64)).take 64 := by
  obtain ⟨source, addr, step⟩ := sramFault_eq s k l core off cstore
  rw [if_neg (by rw [first]; exact Bool.false_ne_true)] at step
  obtain ⟨counts, yard⟩ := s.ctl.errorLatched_yd s.cfg k (faultKey s.ctl k l core off cstore / 64) source addr
  refine ⟨_, (exec_clusterHardFault_sram running up inside).trans (congrArg _ step), rfl, rfl, ?_⟩
  simp only [Ctl.ev, yard]
  refine ⟨trivial, by simp [EventReg.raise], ?_, trivial⟩
  cases (s.ctl.yd k).poisonAddr <;> simp

end

/-! ### A critical alarm of a path monitor (R405) -/

omit running up in
theorem NatSet.mem_add {marks : NatSet} {i j : Nat} : i ∈ marks.add j ↔ i = j ∨ i ∈ marks := by
  induction marks with
  | nil => simp [NatSet.add]
  | cons a marks ih =>
    unfold NatSet.add
    split
    · rw [List.mem_cons, ih, List.mem_cons]
      tauto
    · split
      next same => simp [same]
      · simp

omit running up in
theorem mem_foldl_add {m : Nat → Nat} {i n : Nat} (below : i < n) (marks : NatSet) :
    m i ∈ (List.range n).foldl (fun p i => p.add (m i)) marks := by
  induction n with
  | zero => exact absurd below (Nat.not_lt_zero i)
  | succ n ih =>
    rw [List.range_succ, List.foldl_append, List.foldl_cons, List.foldl_nil, NatSet.mem_add]
    rcases Nat.lt_succ_iff_lt_or_eq.1 below with before | rfl
    · exact .inr (ih before)
    · exact .inl rfl

theorem exec_cpmCritical_acts (free : (s.ctl.yd k).freeSpare (l.val / 25) = true)
    (alone : ∀ x ∈ (s.ctl.yd k).seqs, x.2.faulty = true → x.1 / 25 = l.val / 25 → x.1 = l.val) (code : BitVec 16) :
    ∃ t, exec (.cpmCritical k l code) s = .next t ∧ t.cfg = s.cfg ∧ t.dp.mem = s.dp.mem ∧
      (if Config.cpmLevels.2 ≤ code then t = s else (t.ctl.ev (.yras k)).bits.getLsbD 9 = true ∧ (t.ctl.yd k).lost = false ∧
        (t.ctl.yd k).seqs = ((s.ctl.yd k).onSeq l.val fun q => { q with faulty := true }).seqs ∧
        ∀ i < (s.ctl.yardStalls k).length, rowMark k l i ∈ t.dp.rowPoison) := by
  by_cases high : Config.cpmLevels.2 ≤ code
  · simp only [if_pos high]
    exact ⟨s, congrArg _ (if_pos (by simp [high])), rfl, rfl, rfl⟩
  · simp only [if_neg high]
    have yard := s.ctl.raise_yras_yd s.cfg k (evBit 9)
    have step : exec (.cpmCritical k l code) s = .next { s with
        dp := { s.dp with rowPoison := (List.range (s.ctl.yardStalls k).length).foldl (fun p i => p.add (rowMark k l i)) s.dp.rowPoison }
        ctl := (s.ctl.raise s.cfg (.yras k) (evBit 9)).hardFault s.cfg k l } := congrArg _ (if_neg (by simp [running, up, high]))
    rw [Ctl.hardFault_enters (by rw [yard]; exact free) (by rw [yard]; exact alone)] at step
    refine ⟨_, step, rfl, rfl, ?_⟩
    simp only [Ctl.ev, Ctl.yd_onYard_same, yard]
    refine ⟨?_, ((Ctl.yardUp_iff ..).1 up).2, rfl, fun i below => mem_foldl_add below _⟩
    simp [Yd.onSeq, EventReg.raise, evBit]

end

end Sys2Proof.Machine

open Sys2Proof Sys2Proof.Machine

/-- Settles O56 by `Ctl.hardFault_loses` and `exec_sram_loses`. -/
theorem hardFaultWithoutSpareIsAYardFault : Obligations.HardFaultWithoutSpareIsAYardFault := by
  refine fun s k l cause running up taken => ⟨fun shown => ?_, fun core off cstore inside again first next' =>
    exec_sram_loses running up inside again taken first next'⟩
  exact (exec_clusterHardFault_acts running up shown).trans (next_withCtl (Ctl.hardFault_loses taken))

/-- Settles O58 by `Ctl.hardFault_enters`, `exec_sram_enters`, `exec_sram_latches` and `exec_cpmCritical_acts`. Errors are remembered by the unit
of 64 bytes (log 35). -/
theorem hardFaultsEnterFaultMode : Obligations.HardFaultsEnterFaultMode := by
  refine fun s k l => ⟨exec_hardFaults_none, fun running up free alone => ⟨fun cause shown => ?_, fun core off cstore inside again =>
    exec_sram_enters running up inside again free alone, exec_cpmCritical_acts running up free alone⟩,
    fun running up core off cstore => ⟨fun inside first => exec_sram_latches running up inside first, exec_clusterHardFault_outside running up⟩⟩
  exact (exec_clusterHardFault_acts running up shown).trans (next_withCtl (Ctl.hardFault_enters free alone))

end

section
/-! What faults leave beside what they change (14): a hang and a yard fault, and the rebuilding of images, KV and shadows. -/

namespace Sys2Proof.Machine

open Sys2Proof

/-! ### The persistent store (R466) -/

/-- From `a` to `b` a persistent word stands, and the table of the words keeps its form. -/
structure WordStands (i : Nat) (a b : Ctl) : Prop where
  wf : Sparse.wf 0#32 a.prs.words = true → Sparse.wf 0#32 b.prs.words = true
  word : Sparse.wf 0#32 a.prs.words = true → b.prs.word i = a.prs.word i

namespace WordStands

variable {i : Nat} {a b d : Ctl}

theorem same (h : b.prs.words = a.prs.words) : WordStands i a b :=
  ⟨fun wf => h ▸ wf, fun _ => by simp only [Prs.word, h]⟩

theorem refl (a : Ctl) : WordStands i a a := same rfl

theorem trans (h : WordStands i a b) (k : WordStands i b d) : WordStands i a d :=
  ⟨fun wf => k.wf (h.wf wf), fun wf => (k.word (h.wf wf)).trans (h.word wf)⟩

theorem ite {p : Prop} [Decidable p] (h : WordStands i a b) (k : WordStands i a d) : WordStands i a (if p then b else d) := by
  split
  · exact h
  · exact k

theorem onLdg (h : WordStands i a b) {f : Ldg → Ldg} : WordStands i a (b.onLdg f) := h.trans (same rfl)

theorem onYard (h : WordStands i a b) {k : Yard} {f : Yd → Yd} : WordStands i a (b.onYard k f) := h.trans (same rfl)

theorem raise (h : WordStands i a b) {cfg : Cfg} {r : EvReg} {bits : BitVec 16} : WordStands i a (b.raise cfg r bits) :=
  h.trans (same ((Ctl.raise_leaves (g := fun c => c.prs.words) (fun _ _ _ _ => rfl) ..).trans (by cases r <;> rfl)))

/-- A word that is written leaves the others (R466). -/
theorem persist {j : Nat} (other : i ≠ j) (a : Ctl) (cfg : Cfg) (v : Word) : WordStands i a (a.persist cfg j v).2 := by
  have written {b : Ctl} (words : b.prs.words = Sparse.set 0#32 a.prs.words j v) : WordStands i a b :=
    ⟨fun wf => words ▸ Sparse.wf_set _ _ _ _ wf, fun wf => by rw [Prs.word, words, Sparse.get_set_other _ _ _ _ _ wf other]; rfl⟩
  unfold Ctl.persist
  split
  · exact refl a
  · dsimp only
    split
    · exact written rfl
    · split
      · dsimp only
        exact (written (b := a.onPrs fun p => (p.remap j v).latch false j) rfl).raise
      · dsimp only
        exact (same (a := a) (b := a.onPrs fun p => p.latch true j) rfl).raise

end WordStands

/-! ### A hang (R450) -/

theorem Ctl.addHouse_prs (c : Ctl) (kind : Nat) (n : BitVec 8) (e : Nat) (tick : Option Nat) : (c.addHouse kind n e tick).prs = c.prs := by
  unfold Ctl.addHouse
  split
  · rfl
  · rfl

theorem Ctl.closeInterval_hang_prs (c : Ctl) (cfg : Cfg) (m : Interval) : (c.closeInterval cfg .hang m).prs = c.prs := by
  have yards (l : List Yard) (y : Yard → Nat) (d : Ctl) : (l.foldl (fun d k => d.closeYard cfg .hang k (y k)) d).prs = d.prs := by
    induction l generalizing d with
    | nil => rfl
    | cons k l ih => exact (ih _).trans (Ctl.addHouse_prs ..)
  have metered (d : Ctl) : (d.meterSeen m).prs = d.prs := by
    unfold Ctl.meterSeen
    dsimp only
    split
    · rfl
    · rfl
  unfold Ctl.closeInterval
  dsimp only
  rw [metered, Ctl.onLdg_prs, (sameBut_journal ..).prs]
  exact yards ..

theorem Ctl.reserveBlock_word {i : Nat} (other : i ≠ ledgerWord) (c : Ctl) (cfg : Cfg) : WordStands i c (c.reserveBlock cfg) := by
  have kept := WordStands.persist other c cfg (BitVec.ofNat 32 (c.ldg.folio.number / 4096))
  unfold Ctl.reserveBlock
  exact .ite (.refl c) (.ite kept kept.onLdg.raise)

theorem Ctl.seal_word {i : Nat} (other : i ≠ ledgerWord) (c : Ctl) (cfg : Cfg) (flags : Nat) : WordStands i c (c.seal cfg flags) := by
  have reserved := Ctl.reserveBlock_word other c cfg
  unfold Ctl.seal
  exact .ite (.refl c) (.ite reserved reserved.onLdg)

/-- What a hang leaves: the hub but for its freezing, the yards, and every persistent word but the ledger's. -/
theorem Ctl.hang_leaves {c : Ctl} (running : c.hub.halted = false) (cfg : Cfg) (cause cycle : Nat) (m : Interval) :
    (c.hang cfg cause cycle m).hub = { c.hub with halted := true } ∧ (c.hang cfg cause cycle m).yards = c.yards ∧
      ∀ i, i ≠ ledgerWord → WordStands i c (c.hang cfg cause cycle m) := by
  unfold Ctl.hang
  rw [if_neg (by simp [running])]
  dsimp only
  generalize frozen : ((c.onHub fun h => { h with halted := true }).onPwr fun p => { p with st := .halted }) = f
  have halted : f.hub = { c.hub with halted := true } ∧ f.yards = c.yards ∧ f.prs = c.prs := by
    subst frozen
    exact ⟨rfl, rfl, rfl⟩
  have closed : LedgerStep f (if f.ldg.opening then (f.closeInterval cfg .hang m).seal cfg 16 else f) :=
    .ite ((closeInterval_ledgerStep f cfg (by simp) m).trans (seal_ledgerStep _ cfg 16)) (.refl f)
  have words (i : Nat) (other : i ≠ ledgerWord) : WordStands i f (if f.ldg.opening then (f.closeInterval cfg .hang m).seal cfg 16 else f) :=
    .ite ((WordStands.same (congrArg Prs.words (f.closeInterval_hang_prs cfg m))).trans (Ctl.seal_word other _ cfg 16)) (.refl f)
  generalize (if f.ldg.opening then (f.closeInterval cfg .hang m).seal cfg 16 else f) = g at closed words
  have traced : SameBut g (g.snapDevice.trigger cfg 6) := (sameBut_snap g).trans (sameBut_trigger _ cfg 6)
  have raised := raise_sameBut (g.snapDevice.trigger cfg 6) cfg .dbg 1#16 nofun
  obtain ⟨hub, yards, prs⟩ := halted
  exact ⟨raised.hub.trans (traced.hub.trans (closed.hub.trans hub)), raised.yards.trans (traced.yards.trans (closed.yards.trans yards)),
    fun i other => ((WordStands.same (congrArg Prs.words prs)).trans (words i other)).trans
      (.same (congrArg Prs.words (raised.prs.trans traced.prs)))⟩

/-! ### A yard fault (R392) -/

section

variable {c : Ctl} {cfg : Cfg} {k : Yard} {cause : YardCause}

/-- A yard fault does nothing, stops the device, or loses the yard. -/
theorem Ctl.loseYard_cases (c : Ctl) (cfg : Cfg) (k : Yard) (cause : YardCause) : c.loseYard cfg k cause = c ∨
    (c.hub.halted = false ∧ c.loseYard cfg k cause = c.hang cfg 4 0 noMeter) ∨
    ∃ f g, c.loseYard cfg k cause = ((c.yardLostRaised cfg k cause).onHub f).onFe g := by
  by_cases none' : c.hub.halted = true ∨ (c.yd k).lost = true
  · exact .inl (Ctl.loseYard_none none')
  · obtain ⟨running, stands⟩ := not_or.1 none'
    rw [Bool.not_eq_true] at running stands
    by_cases second : c.hub.relief ≠ none ∨ c.hub.reliefNext ≠ none
    · exact .inr (.inl ⟨running, Ctl.loseYard_hangs running stands second⟩)
    · simp only [not_or, not_not] at second
      obtain ⟨placed, lost⟩ := Ctl.loseYard_eq (cfg := cfg) (cause := cause) running stands second.1 second.2
      exact .inr (.inr ⟨_, _, lost⟩)

/-- No event of a yard is taken back when it is lost. -/
theorem Ctl.loseYard_bit {i : Nat} (set : (c.yd k).ras.bits.getLsbD i = true) : ((c.loseYard cfg k cause).yd k).ras.bits.getLsbD i = true := by
  rcases c.loseYard_cases cfg k cause with none' | ⟨running, hangs⟩ | ⟨f, g, lost⟩
  · rwa [none']
  · have yard : (c.hang cfg 4 0 noMeter).yd k = c.yd k := congrArg (·[k]) (Ctl.hang_leaves running cfg 4 0 noMeter).2.1
    rwa [hangs, yard]
  · have yard : ((c.onYard k fun y => { y with lost := true }).raise cfg (.yras k) (evBit 12)).yd k =
        { c.yd k with lost := true, ras := (c.yd k).ras.raise (evBit 12) } := by
      rw [Ctl.raise_yras_yd, Ctl.yd_onYard_same]
    have grown : ((c.yardLostRaised cfg k cause).yd k).ras = (c.yd k).ras.raise (evBit 12) := by
      cases cause with
      | temperature => exact congrArg Yd.ras ((Ctl.raise_yd _ cfg .pwr 8#16 k).trans yard)
      | management | other => exact congrArg Yd.ras yard
    have bit : ((c.yd k).ras.raise (evBit 12)).bits.getLsbD i = true := by simp [EventReg.raise, set]
    rw [lost]
    exact (congrArg (fun e : EventReg => e.bits.getLsbD i) grown).trans bit

/-- A yard that is lost keeps every persistent word but the ledger's. -/
theorem Ctl.loseYard_word {i : Nat} (other : i ≠ ledgerWord) : WordStands i c (c.loseYard cfg k cause) := by
  rcases c.loseYard_cases cfg k cause with none' | ⟨running, hangs⟩ | ⟨f, g, lost⟩
  · rw [none']
    exact .refl c
  · rw [hangs]
    exact (Ctl.hang_leaves running cfg 4 0 noMeter).2.2 i other
  · have raised : WordStands i c (c.yardLostRaised cfg k cause) := by
      have yard : WordStands i c ((c.onYard k fun y => { y with lost := true }).raise cfg (.yras k) (evBit 12)) :=
        (WordStands.refl c).onYard.raise
      unfold Ctl.yardLostRaised
      cases cause with
      | temperature => exact yard.raise
      | management | other => exact yard
    rw [lost]
    exact raised.trans (.same rfl)

/-- With no relief set and none waiting a fault leaves the yard lost, were it lost before or not. -/
theorem Ctl.loseYard_out (running : c.hub.halted = false) (first : c.hub.relief = none) (next' : c.hub.reliefNext = none) :
    ((c.loseYard cfg k cause).yd k).lost = true := by
  cases stands : (c.yd k).lost with
  | true => rwa [Ctl.loseYard_none (.inr stands)]
  | false => exact (Ctl.loseYard_lost running stands first next').1

end

/-! ### Images, KV and shadows (R209, R233, R390, R391) -/

/-- From `a` to `b` what the rebuilding of images, KV and shadows leaves: admission's pauses, the ports, the coffer's lost channels, the
persistent store, each yard's service and its events, and the hub's events, of which none is taken back. -/
structure Survives (a b : Ctl) : Prop where
  paused : b.hub.paused = a.hub.paused
  portPause : b.hub.portPause = a.hub.portPause
  ports : b.cxl = a.cxl
  coffer : b.cof.lost = a.cof.lost
  words : b.prs = a.prs
  lost : ∀ k, (b.yd k).lost = (a.yd k).lost
  events : ∀ k, (b.yd k).ras = (a.yd k).ras
  raised : ∀ i, a.hub.ras.bits.getLsbD i = true → b.hub.ras.bits.getLsbD i = true

namespace Survives

variable {a b d : Ctl}

theorem refl (a : Ctl) : Survives a a := ⟨rfl, rfl, rfl, rfl, rfl, fun _ => rfl, fun _ => rfl, fun _ set => set⟩

theorem trans (h : Survives a b) (k : Survives b d) : Survives a d :=
  ⟨k.paused.trans h.paused, k.portPause.trans h.portPause, k.ports.trans h.ports, k.coffer.trans h.coffer, k.words.trans h.words,
    fun y => (k.lost y).trans (h.lost y), fun y => (k.events y).trans (h.events y), fun i set => k.raised i (h.raised i set)⟩

theorem of (h : Elsewhere a b) : Survives a b := by
  have yard (k : Yard) : b.yd k = a.yd k := by simp only [Ctl.yd, h.yards]
  exact ⟨congrArg Hub.paused h.hub, congrArg Hub.portPause h.hub, h.ports, h.coffer, h.words, fun k => congrArg Yd.lost (yard k),
    fun k => congrArg Yd.ras (yard k), fun i set => by rwa [h.hub]⟩

theorem ite {p : Prop} [Decidable p] (h : Survives a b) (k : Survives a d) : Survives a (if p then b else d) := by
  split
  · exact h
  · exact k

/-- A fold over states whose controls survive each step. -/
theorem foldlState {α : Type} {f : State → α → State} (step : ∀ s x, Survives s.ctl (f s x).ctl) {s : State} (h : Survives a s.ctl) (l : List α) :
    Survives a (l.foldl f s).ctl := by
  induction l generalizing s with
  | nil => exact h
  | cons x l ih => exact ih (h.trans (step s x))

theorem raiseKv (h : Survives a b) {cfg : Cfg} {k : Yard} {bits : BitVec 16} : Survives a (b.raise cfg (.kv k) bits) := by
  have same := raise_sameBut b cfg (.kv k) bits nofun
  have yard (j : Yard) : ∃ e, (b.raise cfg (.kv k) bits).yd j = { b.yd j with kvEvent := e } := by
    rw [Ctl.raise_yd]
    by_cases own : j = k
    · subst own
      exact ⟨_, Ctl.yd_onYard_same ..⟩
    · exact ⟨(b.yd j).kvEvent, (Ctl.yd_onYard ..).trans (if_neg own)⟩
  refine h.trans ⟨congrArg Hub.paused same.hub, congrArg Hub.portPause same.hub, Ctl.raise_leaves (g := Ctl.cxl) (fun _ _ _ _ => rfl) ..,
    congrArg Cof.lost same.cof, same.prs, fun j => ?_, fun j => ?_, fun i set => by rwa [same.hub]⟩
  · obtain ⟨e, eq⟩ := yard j
    rw [eq]
  · obtain ⟨e, eq⟩ := yard j
    rw [eq]

theorem raiseRas (h : Survives a b) {cfg : Cfg} {bits : BitVec 16} : Survives a (b.raise cfg .ras bits) := by
  have same := raise_sameBut b cfg .ras bits nofun
  refine h.trans ⟨(congrArg Hub.paused same.hub).trans rfl, (congrArg Hub.portPause same.hub).trans rfl,
    Ctl.raise_leaves (g := Ctl.cxl) (fun _ _ _ _ => rfl) .., congrArg Cof.lost same.cof, same.prs, fun k => congrArg Yd.lost (same.yd k),
    fun k => congrArg Yd.ras (same.yd k), fun i set => ?_⟩
  rw [same.hub]
  simp [Ctl.setEv, Ctl.ev, EventReg.raise, set]

/-- Too little shed space is left (R391). -/
theorem shadowShort (h : Survives a b) {cfg : Cfg} : Survives a (b.shadowShort cfg) := by
  have short : Survives a (b.onHub fun h => { h with short := true }) :=
    h.trans ⟨rfl, rfl, rfl, rfl, rfl, fun _ => rfl, fun _ => rfl, fun _ set => set⟩
  exact short.raiseRas

end Survives

namespace Elsewhere

variable {a b : Ctl}

theorem onBlock (h : Elsewhere a b) {shadow : Nat} {f : MapEntry → MapEntry} : Elsewhere a (b.onBlock shadow f) := by
  unfold Ctl.onBlock
  exact h.onObjs

theorem releaseEntry (h : Elsewhere a b) {e : MapEntry} : Elsewhere a (b.releaseEntry e) := .ite h h.onFe

theorem dropNode (h : Elsewhere a b) {n : Node} : Elsewhere a (b.dropNode n) :=
  .ite h.onObjs (.foldl (fun c _ => (refl c).releaseEntry) h.onObjs _)

theorem endSession (h : Elsewhere a b) {x : Session} {status : BitVec 16} : Elsewhere a (b.endSession x status) := by
  unfold Ctl.endSession
  split
  · exact .ite h h.onObjs
  · exact h

theorem dropDeviceJob (h : Elsewhere a b) {typ : Nat} : Elsewhere a (b.dropDeviceJob typ) :=
  .foldl (fun c _ => (refl c).onObjs.onFn) h _

theorem startDeviceJob {kind : JobKind} {limit ix : Nat} (started : a.startDeviceJob kind limit = some (ix, b)) : Elsewhere a b := by
  unfold Ctl.startDeviceJob at started
  dsimp only at started
  split at started
  · cases started
  · cases started
    exact (refl a).dropDeviceJob.onFn.onObjs

theorem endMigration (h : Elsewhere a b) : Elsewhere a b.endMigration := by
  unfold Ctl.endMigration
  split
  · exact h.finishJob
  · exact h

theorem shedTake {ports : List Nat} {n : Nat} {g g' : ShedGroup} (taken : a.shedTake ports g n = some (g', b)) : Elsewhere a b := by
  induction n generalizing a g with
  | zero =>
    cases taken
    exact (refl a).onFe
  | succ n ih =>
    unfold Ctl.shedTake at taken
    dsimp only at taken
    split at taken
    · cases taken
    · exact (refl a).onFe.trans (ih taken)

theorem allocCold {n : Nat} {units : List Nat} (taken : a.allocCold n = some (units, b)) : Elsewhere a b := by
  unfold Ctl.allocCold at taken
  split at taken
  · cases taken
    exact refl a
  · obtain ⟨r, group, same⟩ := Option.map_eq_some_iff.1 taken
    cases same
    exact (shedTake group).onFe

theorem moveCold {port : Nat} {e : Epoch} (moved : a.moveCold port e = some b) : Elsewhere a b := by
  unfold Ctl.moveCold at moved
  dsimp only at moved
  split at moved
  · cases moved
    exact refl a
  · obtain ⟨r, units, same⟩ := Option.map_eq_some_iff.1 moved
    cases same
    exact (allocCold units).onObjs

theorem mirrorAlloc {fn : BitVec 8} {bytes shadow addr : Nat} (taken : a.mirrorAlloc fn bytes shadow = some (addr, b)) : Elsewhere a b := by
  obtain ⟨r, group, same⟩ := Option.map_eq_some_iff.1 taken
  cases same
  exact shedTake group

end Elsewhere

/-- A block that is lost ends its sessions and drops its node (R233). -/
theorem Survives.kvLost {a b : Ctl} (h : Survives a b) {cfg : Cfg} {e : MapEntry} : Survives a (b.kvLost cfg e) :=
  (h.trans (.of (.foldl (fun c _ => (Elsewhere.refl c).dropNode) (.foldl (fun c _ => (Elsewhere.refl c).endSession) (.refl b) _) _))).raiseKv

theorem Survives.startMigration {a b : Ctl} (h : Survives a b) {bytes : Nat} : Survives a (b.startMigration bytes) := by
  unfold Ctl.startMigration
  split
  · exact h
  next started =>
    exact (h.trans (.of (.startDeviceJob started))).trans ⟨rfl, rfl, rfl, rfl, rfl, fun _ => rfl, fun _ => rfl, fun _ set => set⟩

theorem rebuildUnits_survives (s : State) (unread : List (Nat × Nat)) (sel : Nat → Bool) : Survives s.ctl (rebuildUnits s unread sel).ctl := by
  unfold rebuildUnits
  dsimp only
  refine .foldlState (fun s e => ?_) (.of (Elsewhere.refl s.ctl).damageAll) _
  split
  · exact .refl _
  · split
    · exact .refl _
    · exact (Survives.refl _).kvLost

theorem rehomeCold_survives (s : State) (port : Nat) : Survives s.ctl (rehomeCold s port).ctl := by
  refine .foldlState (fun s e => ?_) (.refl _) _
  split
  next moved => exact .of (.moveCold moved)
  · exact (Survives.refl _).shadowShort

theorem rehomeMirrors_survives (s : State) (port : Nat) : Survives s.ctl (rehomeMirrors s port).ctl := by
  unfold rehomeMirrors
  split
  · exact .refl _
  · refine .foldlState (fun s e => ?_) (.refl _) _
    dsimp only
    split
    · exact (Survives.of (Elsewhere.refl _).onBlock).shadowShort
    next taken =>
      split
      · exact (Survives.refl _).kvLost
      · exact .of (Elsewhere.mirrorAlloc taken).onBlock

end Sys2Proof.Machine

end

section
/-! The coffer's channels, the shed's ports and the margin plan (14): R389, R390, R391, R404, R405, R407. -/

namespace Sys2Proof.Machine

open Sys2Proof

/-! ### Coffer channels and ports (R389, R390) -/

theorem Ctl.loseCofferChannel_loses {c : Ctl} {ch : Nat} (new : c.cof.lost.has ch = false) (cfg : Cfg) :
    (c.loseCofferChannel cfg ch).cof.lost = c.cof.lost.add ch ∧ ((c.loseCofferChannel cfg ch).ev .ras).bits.getLsbD 4 = true := by
  unfold Ctl.loseCofferChannel
  rw [if_neg (by simp [new])]
  dsimp only
  generalize spoil : (Ctl.onCof _ fun k => if spoiled k.lost k.fwWithout = true then { k with region := some none } else k) = d
  have lost : d.cof.lost = c.cof.lost.add ch := by
    rw [← spoil, Ctl.onCof_cof, apply_ite Cof.lost]
    exact ite_self _
  have damaged : Elsewhere (d.raise cfg .ras (evBit 4)) (d.spoiledImages.foldl (fun c i => c.damage cfg i) (d.raise cfg .ras (evBit 4))) :=
    .foldl (fun c _ => (Elsewhere.refl c).damage) (.refl _) _
  have raised : ((d.raise cfg .ras (evBit 4)).ev .ras).bits.getLsbD 4 = true := Ctl.raise_bit d cfg .ras (by simp [evBit])
  refine ⟨damaged.coffer.trans ((congrArg Cof.lost (raise_sameBut d cfg .ras (evBit 4) nofun).cof).trans lost), ?_⟩
  exact (congrArg (fun h : Hub => h.ras.bits.getLsbD 4) damaged.hub).trans raised

section

variable {s : State} {port : Nat}

theorem losePort_none (none' : s.ctl.hub.halted = true ∨ (s.ctl.port port).up = false ∨ (s.ctl.port port).held = true) : losePort s port = s := by
  refine if_pos ?_
  rcases none' with halted | down | held
  · simp [halted]
  · simp [down]
  · simp [held]

/-- A lost port is out of service and held, with its event, and pauses admission (R390). -/
theorem losePort_holds (running : s.ctl.hub.halted = false) (up : (s.ctl.port port).up = true) (free : (s.ctl.port port).held = false) :
    (losePort s port).ctl.cxl = s.ctl.cxl.set port { s.ctl.port port with up := false, held := true, cause := 2 } ∧
      (losePort s port).ctl.hub.portPause = true ∧ ((losePort s port).ctl.ev .ras).bits.getLsbD 7 = true := by
  unfold losePort
  rw [if_neg (by simp [running, up, free])]
  dsimp only
  generalize lost : (Ctl.onHub (Ctl.raise _ s.cfg .ras (evBit 7)) fun h => { h with portPause := true }) = d
  have held : d.cxl = s.ctl.cxl.set port { s.ctl.port port with up := false, held := true, cause := 2 } ∧ d.hub.portPause = true ∧
      (d.ev .ras).bits.getLsbD 7 = true := by
    subst lost
    exact ⟨Ctl.raise_leaves (g := Ctl.cxl) (fun _ _ _ _ => rfl) .., rfl, Ctl.raise_bit _ s.cfg .ras (by simp [evBit])⟩
  generalize List.sum (α := Nat) (d.kvBlocks.map _) = mirrors
  generalize List.sum (α := Nat) (d.kvBlocks.map _) = shadows
  have begun : Survives d (d.startMigration (mirrors + shadows)) := (Survives.refl d).startMigration
  have moved := (begun.trans (rehomeCold_survives { s with ctl := d.startMigration (mirrors + shadows) } port)).trans (rehomeMirrors_survives _ port)
  generalize rehomeMirrors (rehomeCold { s with ctl := d.startMigration (mirrors + shadows) } port) port = t at moved
  have dropped : Survives d ((t.ctl.objs.nodes.filter (·.port = port)).foldl (fun c n => c.dropNode n) t.ctl) :=
    moved.trans (.of (.foldl (fun c _ => (Elsewhere.refl c).dropNode) (.refl _) _))
  generalize (t.ctl.objs.nodes.filter (·.port = port)).foldl (fun c n => c.dropNode n) t.ctl = e at dropped
  obtain ⟨ports, pause, bit⟩ := held
  split
  · exact ⟨dropped.ports.trans ports, dropped.portPause.trans pause, dropped.raised 7 bit⟩
  · exact ⟨dropped.ports.trans ports, dropped.portPause.trans pause, dropped.raised 7 bit⟩

theorem rehomeShadows_none (none' : s.ctl.hub.halted = true ∨ (s.ctl.port port).held = false ∨ (s.ctl.port port).cause ≠ 2) :
    rehomeShadows s port = s := by
  refine if_pos ?_
  rcases none' with halted | free | other
  · simp [halted]
  · simp [free]
  · simp [other]

/-- The end of the re-homing raises its event (R390 step 4). -/
theorem rehomeShadows_raises (running : s.ctl.hub.halted = false) (held : (s.ctl.port port).held = true) (lost : (s.ctl.port port).cause = 2) :
    ((rehomeShadows s port).ctl.ev .ras).bits.getLsbD 8 = true := by
  unfold rehomeShadows
  rw [if_neg (by simp [running, held, lost])]
  split
  · exact Ctl.raise_bit _ s.cfg .ras (by simp [evBit])
  · exact Ctl.raise_bit _ _ .ras (by simp [evBit])

end

/-! ### The margin plan (R404, R405, R407) -/

theorem Ctl.keepMargin_yd (c : Ctl) (cfg : Cfg) (k : Yard) (g : Nat) (j : Yard) : (c.keepMargin cfg k g).yd j = c.yd j :=
  congrArg (·[j]) (persist_ledgerStep ..).yards

section

variable {c : Ctl} {cfg : Cfg} {k : Yard}

/-- What holds back an alarm and a proof alike: a device that a hang froze, or a yard out of service. -/
theorem Ctl.margins_none (none' : c.hub.halted = true ∨ c.yardUp k = false) (code : BitVec 16) (us g : Nat) (proofs : List (List (BitVec 16))) :
    c.cpmRaise cfg k code us = c ∧ c.marginChanged cfg k g proofs = c := by
  rcases none' with halted | down
  · exact ⟨if_pos (by simp [halted]), if_pos (by simp [halted])⟩
  · exact ⟨if_pos (by simp [down]), if_pos (by simp [down])⟩

theorem Ctl.cpmRaise_eq (c : Ctl) (cfg : Cfg) (k : Yard) (code : BitVec 16) (us : Nat) : c.cpmRaise cfg k code us =
    if c.hub.halted || !c.yardUp k || Config.cpmLevels.1 ≤ code || (c.yd k).raisedAt.any (fun u => us < u + 10) then c
    else if 40 < ((c.yd k).raised.getD ((c.yd k).offsets.getD c.hub.grades.current 0)) + 1 then
      (c.onYard k fun y => { y with held := y.held.set c.hub.grades.current false, raisedAt := some us }).keepMargin cfg k c.hub.grades.current
    else (c.onYard k fun y => { y with raised := some (((c.yd k).raised.getD ((c.yd k).offsets.getD c.hub.grades.current 0)) + 1)
                                       raisedAt := some us, volts := y.volts + 1 }).raise cfg (.yras k) (evBit 8) := by
  unfold Ctl.cpmRaise
  dsimp only
  generalize (c.yd k).raisedAt = last
  cases last with
  | none => rfl
  | some t => rfl

variable (running : c.hub.halted = false) (up : c.yardUp k = true)
include running up

/-- An alarm of a path monitor: nothing within 10 µs or above the level, a step up, or the grade held no longer (R405). -/
theorem Ctl.cpmRaise_steps (code : BitVec 16) (us : Nat) :
    if Config.cpmLevels.1 ≤ code ∨ (c.yd k).raisedAt.any (fun u => us < u + 10) = true then c.cpmRaise cfg k code us = c
    else if ((c.yd k).raised.getD ((c.yd k).offsets.getD c.hub.grades.current 0)) < 40 then
      ((c.cpmRaise cfg k code us).yd k).raised = some ((c.yd k).raised.getD ((c.yd k).offsets.getD c.hub.grades.current 0) + 1) ∧
      ((c.cpmRaise cfg k code us).yd k).volts = (c.yd k).volts + 1 ∧ ((c.cpmRaise cfg k code us).ev (.yras k)).bits.getLsbD 8 = true
    else ((c.cpmRaise cfg k code us).yd k).held = (c.yd k).held.set c.hub.grades.current false := by
  by_cases still : Config.cpmLevels.1 ≤ code ∨ (c.yd k).raisedAt.any (fun u => us < u + 10) = true
  · rw [if_pos still]
    refine (Ctl.cpmRaise_eq ..).trans (if_pos ?_)
    rcases still with high | recent
    · simp [high]
    · rw [recent, Bool.or_true]
  · rw [if_neg still]
    rw [not_or, Bool.not_eq_true] at still
    obtain ⟨low, past⟩ := still
    have acts : ¬ (c.hub.halted || !c.yardUp k || Config.cpmLevels.1 ≤ code || (c.yd k).raisedAt.any fun u => us < u + 10) = true := by
      rw [running, up, decide_eq_false low, past]
      exact Bool.false_ne_true
    have step := (Ctl.cpmRaise_eq c cfg k code us).trans (if_neg acts)
    by_cases room : ((c.yd k).raised.getD ((c.yd k).offsets.getD c.hub.grades.current 0)) < 40
    · rw [if_pos room, step, if_neg (by omega), Ctl.raise_yras_yd, Ctl.yd_onYard_same]
      exact ⟨rfl, rfl, Ctl.raise_bit _ cfg _ (by simp [evBit])⟩
    · rw [if_neg room, step, if_pos (by omega), Ctl.keepMargin_yd, Ctl.yd_onYard_same]

/-- A proof of the margin: nothing where it does not hold, else one step down, or the grade held again at +40 (R407). -/
theorem Ctl.marginChanged_steps (g : Nat) (proofs : List (List (BitVec 16))) :
    if ((List.range 10).filter (c.yd k).freeSpare).length < 5 ∨ provesOk proofs = false ∨
        ((c.yd k).held.getD g false = true ∧ (c.yd k).offsets.getD g 0 ≤ -16) then c.marginChanged cfg k g proofs = c
    else ((c.marginChanged cfg k g proofs).ev (.yras k)).bits.getLsbD 10 = true ∧
      if (c.yd k).held.getD g false = true then
        ((c.marginChanged cfg k g proofs).yd k).offsets = (c.yd k).offsets.set g ((c.yd k).offsets.getD g 0 - 1) ∧
          ((c.marginChanged cfg k g proofs).yd k).held = (c.yd k).held
      else ((c.marginChanged cfg k g proofs).yd k).offsets = (c.yd k).offsets.set g 40 ∧
        ((c.marginChanged cfg k g proofs).yd k).held = (c.yd k).held.set g true := by
  unfold Ctl.marginChanged
  dsimp only
  by_cases still : ((List.range 10).filter (c.yd k).freeSpare).length < 5 ∨ provesOk proofs = false ∨
      ((c.yd k).held.getD g false = true ∧ (c.yd k).offsets.getD g 0 ≤ -16)
  · rw [if_pos still]
    refine if_pos ?_
    simpa only [running, up, Bool.not_true, Bool.false_or, Bool.or_eq_true, Bool.and_eq_true, decide_eq_true_eq, Bool.not_eq_true', or_assoc] using still
  · rw [if_neg still, if_neg (by simpa only [running, up, Bool.not_true, Bool.false_or, Bool.or_eq_true, Bool.and_eq_true, decide_eq_true_eq,
      Bool.not_eq_true', or_assoc] using still), Ctl.raise_yras_yd, Ctl.keepMargin_yd, Ctl.yd_onYard_same]
    refine ⟨Ctl.raise_bit _ cfg _ (by simp [evBit]), ?_⟩
    by_cases held : (c.yd k).held.getD g false = true
    · rw [if_pos held, if_pos held]
      exact ⟨rfl, rfl⟩
    · rw [if_neg held, if_neg held]
      exact ⟨rfl, rfl⟩

end

end Sys2Proof.Machine

open Sys2Proof Sys2Proof.Machine

/-- Settles O60: `Ctl.loseCofferChannel_loses`, `losePort_holds`, `rehomeShadows_raises`, `Ctl.cpmRaise_steps` and `Ctl.marginChanged_steps`. That a
grade beyond +40 is given up at once and that a proof lets it be held again at +40 are log 74; the levels of the monitors are free values. -/
theorem cofferPortsAndMargins : Obligations.CofferPortsAndMargins := by
  intro s k ch p l code us g proofs
  refine ⟨fun new => ⟨_, rfl, rfl, rfl, Ctl.loseCofferChannel_loses new s.cfg⟩, fun known => next_withCtl (if_pos known),
    fun none' => congrArg Host.Outcome.next (losePort_none none'), fun running four up free => ?_,
    fun none' => congrArg Host.Outcome.next (rehomeShadows_none none'), fun running held lost => ?_, fun none' => ?_, fun running up => ⟨?_, ?_⟩⟩
  · obtain ⟨ports, pause, bit⟩ := losePort_holds running up free
    have port : (losePort s p.val).ctl.port p.val = { s.ctl.port p.val with up := false, held := true, cause := 2 } := by
      rw [Ctl.port, ports]
      simp [four]
    exact ⟨_, rfl, (losePort_stands s p.val).cfg, congrArg Port.up port, congrArg Port.held port, congrArg Port.cause port, pause, bit⟩
  · exact ⟨_, rfl, (rehomeShadows_stands s p.val).cfg, rehomeShadows_raises running held lost⟩
  · obtain ⟨alarm, proof⟩ := Ctl.margins_none (cfg := s.cfg) none' code us g.val proofs
    exact ⟨next_withCtl alarm, next_withCtl proof⟩
  · have steps := Ctl.cpmRaise_steps (cfg := s.cfg) running up code us
    refine ⟨_, rfl, rfl, rfl, ?_⟩
    split at steps
    next still =>
      rw [if_pos still]
      exact congrArg s.withCtl steps
    next acts =>
      rw [if_neg acts]
      exact steps
  · have steps := Ctl.marginChanged_steps (cfg := s.cfg) running up g.val proofs
    refine ⟨_, rfl, rfl, rfl, ?_⟩
    split at steps
    next still =>
      rw [if_pos still]
      exact congrArg s.withCtl steps
    next acts =>
      rw [if_neg acts]
      exact steps

end

section
/-! Sub-links, rows, channels and phases (14): the losses that a yard survives (R382, R384-R388). -/

namespace Sys2Proof.Machine

open Sys2Proof

variable {s : State} {c : Ctl} {cfg : Cfg} {k : Yard}

/-! ### On a halted device (R450) -/

theorem exec_losses_halted (halted : s.ctl.hub.halted = true) (i : Fin 8) (r : RowFault) (near : Fin 2) (ch : BitVec 5)
    (unread : List (Nat × Nat)) : ∀ x ∈ [Instr.sublinkLost k i, .rowRepair r, .channelLost k near ch, .channelRebuilt k near ⟨ch, unread⟩,
      .phaseLost (some k), .phaseLost none], exec x s = .next s := by
  simp only [List.forall_mem_cons]
  exact ⟨next_withCtl (if_pos (by simp [halted])), congrArg Host.Outcome.next (if_pos halted), next_withCtl (if_pos (by simp [halted])),
    congrArg Host.Outcome.next (if_pos (by simp [halted])), next_withCtl (if_pos halted), next_withCtl (if_pos halted), List.forall_mem_nil _⟩

/-! ### Sub-links (R382, R383) -/

/-- A lost sub-link: its yard once the events are raised, and the way to a yard fault with fewer than five left. -/
theorem Ctl.loseLink_eq {i : Fin 8} (running : c.hub.halted = false) (due : (c.yd k).linksDue.getLsbD i.val = true) : ∃ d, d.hub = c.hub ∧
    (d.yd k).lost = (c.yd k).lost ∧ (d.yd k).linksNext = some ((c.yd k).linksDue &&& ~~~(1#8 <<< i.val)) ∧
    (d.yd k).ras.bits.getLsbD 2 = true ∧
    c.loseLink cfg k i = if linkCount ((c.yd k).linksDue &&& ~~~(1#8 <<< i.val)) < 5 then d.loseYard cfg k .other else d := by
  unfold Ctl.loseLink
  dsimp only
  rw [if_neg (by simp [running, due])]
  generalize (c.yd k).linksDue &&& ~~~(1#8 <<< i.val) = now
  have hub := (c.onYard k fun y => { y with linksNext := some now }).raise_yras_hub cfg k (evBit 2)
  have yard := (c.onYard k fun y => { y with linksNext := some now }).raise_yras_yd cfg k (evBit 2)
  rw [Ctl.yd_onYard_same] at yard
  have bit : ((c.yd k).ras.raise (evBit 2)).bits.getLsbD 2 = true := by simp [EventReg.raise, evBit]
  generalize (c.onYard k fun y => { y with linksNext := some now }).raise cfg (.yras k) (evBit 2) = d at hub yard
  by_cases six : linkCount now ≤ 6
  · refine ⟨d.raise cfg (.yras k) (evBit 3), (Ctl.raise_yras_hub ..).trans hub, ?_⟩
    rw [if_pos six, Ctl.raise_yras_yd, yard]
    exact ⟨rfl, rfl, by simp [EventReg.raise, evBit], rfl⟩
  · refine ⟨d, hub, ?_⟩
    rw [if_neg six, yard]
    exact ⟨rfl, rfl, bit, rfl⟩

/-- What a lost sub-link leaves (R382, R383). -/
theorem sublinkLost_holds {i : Fin 8} (running : s.ctl.hub.halted = false) (due : (s.ctl.yd k).linksDue.getLsbD i.val = true) :
    ∃ t, exec (.sublinkLost k i) s = .next t ∧ t.dp = s.dp ∧ t.cfg = s.cfg ∧ (t.ctl.ev (.yras k)).bits.getLsbD 2 = true ∧
      (5 ≤ linkCount ((s.ctl.yd k).linksDue &&& ~~~(1#8 <<< i.val)) → (t.ctl.yd k).lost = (s.ctl.yd k).lost ∧
        (t.ctl.yd k).linksNext = some ((s.ctl.yd k).linksDue &&& ~~~(1#8 <<< i.val))) ∧
      (linkCount ((s.ctl.yd k).linksDue &&& ~~~(1#8 <<< i.val)) < 5 → s.ctl.hub.relief = none → s.ctl.hub.reliefNext = none →
        (t.ctl.yd k).lost = true) := by
  obtain ⟨d, hub, lost, next', bit, step⟩ := Ctl.loseLink_eq (cfg := s.cfg) running due
  refine ⟨_, next_withCtl step, rfl, rfl, ?_, fun five => ?_, fun few first waits => ?_⟩
  · by_cases few : linkCount ((s.ctl.yd k).linksDue &&& ~~~(1#8 <<< i.val)) < 5
    · simp only [if_pos few]
      exact Ctl.loseYard_bit bit
    · simp only [if_neg few]
      exact bit
  · simp only [if_neg (Nat.not_lt.2 five)]
    exact ⟨lost, next'⟩
  · simp only [if_pos few]
    exact Ctl.loseYard_out (by rw [hub]; exact running) (by rw [hub]; exact first) (by rw [hub]; exact waits)

/-! ### Channels (R385-R387) -/

/-- A channel that is lost is one more lost channel of its stack. -/
theorem Yd.lostOn_lose {y : Yd} {near ch : Nat} (wf : Sparse.wf {} y.channels = true) (below : ch < 32)
    (stands : (Sparse.get {} y.channels (32 * near + ch)).lost = false) (e : EventReg) :
    (Yd.lostOn { y with ras := e, channels := Sparse.upd {} y.channels (32 * near + ch) fun x => { x with lost := true, rebuilt := false } }
      near).length = (y.lostOn near).length + 1 := by
  have fresh : ch ∉ y.lostOn near := by simp [Yd.lostOn, stands]
  refine (List.Perm.length_eq (l₂ := ch :: y.lostOn near) ?_).trans (List.length_cons ..)
  refine (List.perm_ext_iff_of_nodup (List.nodup_range.filter _) (List.nodup_cons.2 ⟨fresh, List.nodup_range.filter _⟩)).2 fun i => ?_
  by_cases same : i = ch
  · subst same
    simp [Sparse.upd, Sparse.get_set_same _ _ _ _ wf, below]
  · have other : 32 * near + i ≠ 32 * near + ch := by omega
    simp [Yd.lostOn, Sparse.upd, Sparse.get_set_other _ _ _ _ _ wf other, same]

/-- A word that is not worn holds what is written to it (R466). -/
theorem Ctl.persist_word {i : Nat} (fresh : Sparse.get 0 c.prs.wear i < prsRating) (wf : Sparse.wf 0#32 c.prs.words = true) (v : Word) :
    (c.persist cfg i v).2.prs.word i = v ∧ Sparse.wf 0#32 (c.persist cfg i v).2.prs.words = true := by
  by_cases known : c.prs.word i = v
  · rw [Ctl.persist, if_pos known]
    exact ⟨known, wf⟩
  · rw [Ctl.persist_wears known fresh]
    exact ⟨Sparse.get_set_same _ _ _ _ wf, Sparse.wf_set _ _ _ _ wf⟩

/-- The controls once a channel's loss is recorded and raised. -/
def Ctl.channelRecorded (c : Ctl) (cfg : Cfg) (k : Yard) (near ch : Nat) : Ctl :=
  ((c.onYard k fun y => { y with channels := Sparse.upd {} y.channels (32 * near + ch) fun x => { x with lost := true, rebuilt := false } }).persist
    cfg (0x480 + 2 * k.val + near) (c.prs.word (0x480 + 2 * k.val + near) ||| (1#32 <<< ch))).2.raise cfg (.yras k) (evBit 5)

theorem Ctl.channelRecorded_hub (c : Ctl) (cfg : Cfg) (k : Yard) (near ch : Nat) : (c.channelRecorded cfg k near ch).hub = c.hub :=
  (Ctl.raise_yras_hub ..).trans (persist_ledgerStep ..).hub

theorem Ctl.channelRecorded_objs (c : Ctl) (cfg : Cfg) (k : Yard) (near ch : Nat) : (c.channelRecorded cfg k near ch).objs = c.objs :=
  (Ctl.raise_objs ..).trans (persist_ledgerStep ..).objs

theorem Ctl.channelRecorded_yd (c : Ctl) (cfg : Cfg) (k : Yard) (near ch : Nat) : (c.channelRecorded cfg k near ch).yd k =
    { c.yd k with ras := (c.yd k).ras.raise (evBit 5)
                  channels := Sparse.upd {} (c.yd k).channels (32 * near + ch) fun x => { x with lost := true, rebuilt := false } } := by
  have yard (d : Ctl) (i : Nat) (v : Word) : (d.persist cfg i v).2.yd k = d.yd k := congrArg (·[k]) (persist_ledgerStep ..).yards
  rw [Ctl.channelRecorded, Ctl.raise_yras_yd, yard, Ctl.yd_onYard_same]

/-- The loss stands in its persistent word. -/
theorem Ctl.channelRecorded_word {near ch : Nat} (below : ch < 32) (fresh : Sparse.get 0 c.prs.wear (0x480 + 2 * k.val + near) < prsRating)
    (wf : Sparse.wf 0#32 c.prs.words = true) : ((c.channelRecorded cfg k near ch).prs.word (0x480 + 2 * k.val + near)).getLsbD ch = true ∧
      Sparse.wf 0#32 (c.channelRecorded cfg k near ch).prs.words = true := by
  obtain ⟨word, kept⟩ := Ctl.persist_word (cfg := cfg) (c := c.onYard k fun y =>
    { y with channels := Sparse.upd {} y.channels (32 * near + ch) fun x => { x with lost := true, rebuilt := false } }) fresh wf
    (c.prs.word (0x480 + 2 * k.val + near) ||| (1#32 <<< ch))
  have raised : (c.channelRecorded cfg k near ch).prs = _ := (raise_sameBut _ cfg (.yras k) (evBit 5) nofun).prs
  rw [raised]
  refine ⟨(congrArg (BitVec.getLsbD · ch) word).trans ?_, kept⟩
  simp [below]

/-- A lost channel: recorded, then rebuilt where the reserve has room, else a yard fault. -/
theorem Ctl.loseChannel_eq {near : Fin 2} {ch : Nat} (running : c.hub.halted = false) (below : ch < 32)
    (wf : Sparse.wf {} (c.yd k).channels = true) (stands : (Sparse.get {} (c.yd k).channels (32 * near.val + ch)).lost = false) : ∃ kv,
    c.loseChannel cfg k near ch =
      if (c.plan?.map fun p => planReserveHolds p (2 * k.val + near.val) (((c.yd k).lostOn near.val).length + 1)).getD true = true
      then ((c.channelRecorded cfg k near.val ch).onHub fun h => { h with paused := h.paused + 1 }).startMigration kv
      else (c.channelRecorded cfg k near.val ch).loseYard cfg k .other := by
  have count : (((c.channelRecorded cfg k near.val ch).yd k).lostOn near.val).length = ((c.yd k).lostOn near.val).length + 1 := by
    rw [Ctl.channelRecorded_yd]
    exact Yd.lostOn_lose wf below stands _
  have plan : (c.channelRecorded cfg k near.val ch).plan? = c.plan? := by simp only [Ctl.plan?, Ctl.channelRecorded_objs]
  have step : ∃ kv, c.loseChannel cfg k near ch = if !(((c.channelRecorded cfg k near.val ch).plan?.map fun p => planReserveHolds p
      (2 * k.val + near.val) (((c.channelRecorded cfg k near.val ch).yd k).lostOn near.val).length).getD true)
      then (c.channelRecorded cfg k near.val ch).loseYard cfg k .other
      else ((c.channelRecorded cfg k near.val ch).onHub fun h => { h with paused := h.paused + 1 }).startMigration kv :=
    ⟨_, if_neg (by simp [running, stands])⟩
  obtain ⟨kv, step⟩ := step
  refine ⟨kv, step.trans ?_⟩
  rw [count, plan]
  cases (c.plan?.map fun p => planReserveHolds p (2 * k.val + near.val) (((c.yd k).lostOn near.val).length + 1)).getD true
  · rfl
  · rfl

/-- What the loss of a channel leaves (R385-R387). -/
theorem Ctl.loseChannel_holds {near : Fin 2} {ch : Nat} (running : c.hub.halted = false) (below : ch < 32)
    (wf : Sparse.wf {} (c.yd k).channels = true) (stands : (Sparse.get {} (c.yd k).channels (32 * near.val + ch)).lost = false) :
    ((c.loseChannel cfg k near ch).ev (.yras k)).bits.getLsbD 5 = true ∧
    (Sparse.get 0 c.prs.wear (0x480 + 2 * k.val + near.val) < prsRating → Sparse.wf 0#32 c.prs.words = true →
      ((c.loseChannel cfg k near ch).prs.word (0x480 + 2 * k.val + near.val)).getLsbD ch = true) ∧
    (if (c.plan?.map fun p => planReserveHolds p (2 * k.val + near.val) (((c.yd k).lostOn near.val).length + 1)).getD true = true then
      (c.loseChannel cfg k near ch).hub.paused = c.hub.paused + 1 ∧ ((c.loseChannel cfg k near ch).yd k).lost = (c.yd k).lost
    else c.hub.relief = none → c.hub.reliefNext = none → ((c.loseChannel cfg k near ch).yd k).lost = true) := by
  obtain ⟨kv, step⟩ := Ctl.loseChannel_eq (cfg := cfg) running below wf stands
  have yard := c.channelRecorded_yd cfg k near.val ch
  have hub := c.channelRecorded_hub cfg k near.val ch
  have word := Ctl.channelRecorded_word (cfg := cfg) (c := c) (k := k) (near := near.val) below
  generalize c.channelRecorded cfg k near.val ch = d at step yard hub word
  have bit : (d.yd k).ras.bits.getLsbD 5 = true := by simp [yard, EventReg.raise, evBit]
  have lost : (d.yd k).lost = (c.yd k).lost := by rw [yard]
  rw [step]
  by_cases holds : (c.plan?.map fun p => planReserveHolds p (2 * k.val + near.val) (((c.yd k).lostOn near.val).length + 1)).getD true = true
  · rw [if_pos holds, if_pos holds]
    have begun : Survives (d.onHub fun h => { h with paused := h.paused + 1 })
        ((d.onHub fun h => { h with paused := h.paused + 1 }).startMigration kv) := (Survives.refl _).startMigration
    refine ⟨(congrArg (fun e : EventReg => e.bits.getLsbD 5) (begun.events k)).trans bit, fun fresh wfw => ?_, ?_, ?_⟩
    · rw [begun.words]
      exact (word fresh wfw).1
    · exact begun.paused.trans (congrArg (fun h : Hub => h.paused + 1) hub)
    · exact (begun.lost k).trans lost
  · rw [if_neg holds, if_neg holds]
    refine ⟨Ctl.loseYard_bit bit, fun fresh wfw => ?_, fun first next' => ?_⟩
    · obtain ⟨there, kept⟩ := word fresh wfw
      have other : 0x480 + 2 * k.val + near.val ≠ ledgerWord := by
        unfold ledgerWord
        omega
      rw [(Ctl.loseYard_word other).word kept]
      exact there
    · exact Ctl.loseYard_out (by rw [hub]; exact running) (by rw [hub]; exact first) (by rw [hub]; exact next')

/-- A row of a bank without a spare row loses its channel (R384). -/
theorem repairRow_bare {r : RowFault} (running : s.ctl.hub.halted = false) (bare : r.spare = false) :
    repairRow s r = s.withCtl (s.ctl.loseChannel s.cfg r.yard r.near r.channel.toNat) :=
  (if_neg (by simp [running])).trans (if_pos (by simp [bare]))

theorem exec_rowRepair (s : State) (r : RowFault) : exec (.rowRepair r) s = .next (repairRow s r) := rfl

theorem exec_channelLost (s : State) (k : Yard) (near : Fin 2) (ch : BitVec 5) :
    exec (.channelLost k near ch) s = .next (s.withCtl (s.ctl.loseChannel s.cfg k near ch.toNat)) := rfl

/-- A row with a spare is read whole, then its repair raised (R384). -/
theorem repairRow_spare {r : RowFault} (running : s.ctl.hub.halted = false) (spare : r.spare = true) :
    ∃ t : State, (repairRow s r).ctl = t.ctl.raise t.cfg (.yras r.yard) (evBit 4) := by
  unfold repairRow
  rw [if_neg (by simp [running]), if_neg (by simp [spare])]
  exact ⟨_, rfl⟩

/-- A row with a spare raises its repair (R384). -/
theorem rowRepair_raises {r : RowFault} (running : s.ctl.hub.halted = false) (spare : r.spare = true) :
    ∃ t, exec (.rowRepair r) s = .next t ∧ t.cfg = s.cfg ∧ (t.ctl.ev (.yras r.yard)).bits.getLsbD 4 = true := by
  obtain ⟨t, raised⟩ := repairRow_spare running spare
  refine ⟨_, exec_rowRepair s r, (repairRow_stands s r).cfg, ?_⟩
  rw [raised]
  exact Ctl.raise_bit _ _ (.yras r.yard) (by simp [evBit])

section

variable {near : Fin 2} {ch : Nat} {unread : List (Nat × Nat)}

theorem rebuildChannel_none (none' : (Sparse.get {} (s.ctl.yd k).channels (32 * near.val + ch)).lost = false ∨
    (Sparse.get {} (s.ctl.yd k).channels (32 * near.val + ch)).rebuilt = true) : rebuildChannel s k near ch unread = s := by
  refine if_pos ?_
  rcases none' with stands | rebuilt
  · simp [stands]
  · simp [rebuilt]

/-- A rebuilt channel ends its pause of admission and raises its event (R386). -/
theorem rebuildChannel_rebuilds (running : s.ctl.hub.halted = false)
    (lost : (Sparse.get {} (s.ctl.yd k).channels (32 * near.val + ch)).lost = true)
    (due : (Sparse.get {} (s.ctl.yd k).channels (32 * near.val + ch)).rebuilt = false) :
    (rebuildChannel s k near ch unread).ctl.hub.paused = s.ctl.hub.paused - 1 ∧
      ((rebuildChannel s k near ch unread).ctl.ev (.yras k)).bits.getLsbD 6 = true := by
  have rebuilt := rebuildUnits_survives s unread (onChannel k near ch)
  unfold rebuildChannel
  rw [if_neg (by simp [running, lost, due])]
  dsimp only
  generalize rebuildUnits s unread (onChannel k near ch) = t at rebuilt
  generalize paused : Ctl.onHub _ (fun h => { h with paused := h.paused - 1 }) = d
  have less : d.hub.paused = s.ctl.hub.paused - 1 := by
    subst paused
    exact congrArg (· - 1) rebuilt.paused
  have ended : Elsewhere d d.endMigration := (Elsewhere.refl d).endMigration
  refine ⟨?_, Ctl.raise_bit _ _ _ (by simp [evBit])⟩
  exact (congrArg Hub.paused ((Ctl.raise_yras_hub ..).trans ended.hub)).trans less

end

/-! ### Phases (R388) -/

/-- A lost phase of a yard's rail: raised, and a yard fault with the third. -/
theorem Ctl.losePhase_yard (running : c.hub.halted = false) : ∃ d, d.hub = c.hub ∧ (d.yd k).lost = (c.yd k).lost ∧
    (d.yd k).phases = (c.yd k).phases + 1 ∧ (d.yd k).ras.bits.getLsbD 7 = true ∧
    c.losePhase cfg (some k) = if 3 ≤ (c.yd k).phases + 1 then d.loseYard cfg k .other else d := by
  have yard := (c.onYard k fun y => { y with phases := y.phases + 1 }).raise_yras_yd cfg k (evBit 7)
  rw [Ctl.yd_onYard_same] at yard
  refine ⟨(c.onYard k fun y => { y with phases := y.phases + 1 }).raise cfg (.yras k) (evBit 7), Ctl.raise_yras_hub .., ?_⟩
  have step : c.losePhase cfg (some k) = if 3 ≤ (((c.onYard k fun y => { y with phases := y.phases + 1 }).raise cfg (.yras k) (evBit 7)).yd k).phases
      then ((c.onYard k fun y => { y with phases := y.phases + 1 }).raise cfg (.yras k) (evBit 7)).loseYard cfg k .other
      else (c.onYard k fun y => { y with phases := y.phases + 1 }).raise cfg (.yras k) (evBit 7) := if_neg (by simp [running])
  rw [step, yard]
  exact ⟨rfl, rfl, by simp [EventReg.raise, evBit], rfl⟩

/-- A lost phase of a rail of the hub's: raised, and a hang with the third. -/
theorem Ctl.losePhase_hub (running : c.hub.halted = false) (cfg : Cfg) : (c.losePhase cfg none).hub.phases = c.hub.phases + 1 ∧
    ((c.losePhase cfg none).ev .ras).bits.getLsbD 3 = true ∧ ((c.losePhase cfg none).hub.halted = true ↔ 2 ≤ c.hub.phases) := by
  have hub : ((c.onHub fun h => { h with phases := h.phases + 1 }).raise cfg .ras (evBit 3)).hub =
      { c.hub with phases := c.hub.phases + 1, ras := c.hub.ras.raise (evBit 3) } := Ctl.raise_hub ..
  have bit : (c.hub.ras.raise (evBit 3)).bits.getLsbD 3 = true := by simp [EventReg.raise, evBit]
  unfold Ctl.losePhase
  rw [if_neg (by simp [running])]
  dsimp only
  generalize (c.onHub fun h => { h with phases := h.phases + 1 }).raise cfg .ras (evBit 3) = d at hub
  have up : d.hub.halted = false := by rw [hub]; exact running
  have phases : d.hub.phases = c.hub.phases + 1 := congrArg Hub.phases hub
  rw [phases]
  by_cases third : 3 ≤ c.hub.phases + 1
  · have frozen := (Ctl.hang_leaves up cfg 3 0 noMeter).1
    rw [if_pos third, Ctl.ev, frozen, hub]
    exact ⟨rfl, bit, iff_of_true rfl (by omega)⟩
  · rw [if_neg third, Ctl.ev, hub]
    exact ⟨rfl, bit, iff_of_false (by simp [running]) (by omega)⟩

/-- What a lost phase of a yard's rail leaves (R388). -/
theorem phaseLost_holds (running : s.ctl.hub.halted = false) :
    ∃ t, exec (.phaseLost (some k)) s = .next t ∧ t.dp = s.dp ∧ t.cfg = s.cfg ∧ (t.ctl.ev (.yras k)).bits.getLsbD 7 = true ∧
      ((s.ctl.yd k).phases < 2 → (t.ctl.yd k).phases = (s.ctl.yd k).phases + 1 ∧ (t.ctl.yd k).lost = (s.ctl.yd k).lost) ∧
      (2 ≤ (s.ctl.yd k).phases → s.ctl.hub.relief = none → s.ctl.hub.reliefNext = none → (t.ctl.yd k).lost = true) := by
  obtain ⟨d, hub, lost, phases, bit, step⟩ := Ctl.losePhase_yard (k := k) (cfg := s.cfg) running
  refine ⟨_, next_withCtl step, rfl, rfl, ?_, fun few => ?_, fun two first waits => ?_⟩
  · by_cases third : 3 ≤ (s.ctl.yd k).phases + 1
    · simp only [if_pos third]
      exact Ctl.loseYard_bit bit
    · simp only [if_neg third]
      exact bit
  · simp only [if_neg (show ¬ 3 ≤ (s.ctl.yd k).phases + 1 by omega)]
    exact ⟨phases, lost⟩
  · simp only [if_pos (show 3 ≤ (s.ctl.yd k).phases + 1 by omega)]
    exact Ctl.loseYard_out (by rw [hub]; exact running) (by rw [hub]; exact first) (by rw [hub]; exact waits)

end Sys2Proof.Machine

open Sys2Proof Sys2Proof.Machine

/-- Settles O59: `Ctl.loseLink_eq` (fewer than five sub-links are R383), `repairRow`, `Ctl.loseChannel_holds`, `rebuildChannel_rebuilds`,
`Ctl.losePhase_yard` and `Ctl.losePhase_hub`. The room of a stack's reserve is log 75. -/
theorem linksRowsChannelsAndPhases : Obligations.LinksRowsChannelsAndPhases := by
  intro s k i r near ch unread
  refine ⟨fun halted => exec_losses_halted halted i r near ch unread, fun running => ⟨fun due => ?_,
    fun gone => next_withCtl (if_pos (by rw [gone, Bool.not_false, Bool.or_true])),
    fun spare => ?_, fun bare => ?_, fun lost => next_withCtl (if_pos (by simp [lost])), fun stands wf => ?_,
    fun none' => congrArg Host.Outcome.next (rebuildChannel_none none'), fun lost due => ?_, ?_, ?_⟩⟩
  · exact sublinkLost_holds running due
  · exact rowRepair_raises running spare
  · rw [exec_rowRepair, exec_channelLost, repairRow_bare running bare]
  · obtain ⟨bit, word, room⟩ := Ctl.loseChannel_holds (cfg := s.cfg) running ch.isLt wf stands
    exact ⟨_, rfl, rfl, rfl, bit, word, room⟩
  · obtain ⟨paused, bit⟩ := rebuildChannel_rebuilds (unread := unread) running lost due
    exact ⟨_, rfl, (rebuildChannel_stands s k near ch.toNat unread).cfg, paused, bit⟩
  · exact phaseLost_holds running
  · obtain ⟨phases, bit, halted⟩ := Ctl.losePhase_hub running s.cfg
    exact ⟨_, rfl, rfl, rfl, bit, phases, halted⟩

end

section
/-! Gradients and updates of adapter tuning (15: R425-R429). -/

namespace Sys2Proof.Machine

open Sys2Proof

variable {s : State} {c : Ctl} {k : Yard} {fn : BitVec 8} {h : Handle} {r : Run}

/-! ### A run that is replaced -/

/-- A run that is replaced by one of its key stands under its handle. -/
theorem Ctl.run?_setRun {q : Run} (found : c.run? fn h = some r) (site : q.fn = r.fn) (index : q.ix = r.ix) :
    (c.setRun q).run? fn h = some q := by
  have own : (r.fn = fn && handleOf .job r.ix = h) = true := List.find?_some (p := fun x : Run => x.fn = fn && handleOf .job x.ix = h) found
  have same (x : Run) : ((fun x : Run => x.fn = fn && handleOf .job x.ix = h) (if x.fn = q.fn && x.ix = q.ix then q else x)) =
      (x.fn = fn && handleOf .job x.ix = h) := by
    by_cases key : x.fn = q.fn ∧ x.ix = q.ix
    · simp [key]
    · simp [key]
  have replaced : (c.setRun q).run? fn h = (c.run? fn h).map fun x => if x.fn = q.fn && x.ix = q.ix then q else x := by
    simp only [Ctl.run?, Ctl.setRun, Ctl.onObjs, List.find?_map, Function.comp_def, same]
  rw [replaced, found]
  simp [site, index]

/-! ### Partial sums (R425) -/

/-- Whether a stall is a committed backward visit of a run's chunk to a yard, whose partial sums the accumulators do not have. -/
def State.contributes (s : State) (k : Yard) (fn : BitVec 8) (h : Handle) (stall : Nat) (r : Run) (st : Stall) : Prop :=
  (∃ i, st.work = .backward i) ∧ st.fn = fn ∧ st.session = h ∧ st.bwdYard = some k.val ∧
    stall ∈ ((s.dp.commit.find? (·.1 = k)).map (·.2)).getD [] ∧
    k.val ∉ ((r.steps.head?.bind fun x => x.chunks[st.position]?).map (·.visited)).getD []

section

variable {stall tensor : Nat} {st : Stall} {ps : List Word}

/-- The partial sums of a visit that contributes enter the accumulator of their tensor. -/
theorem gradientPartial_enters (found : s.ctl.run? fn h = some r) (there : s.ctl.stallIn k stall = some st)
    (own : s.contributes k fn h stall r st) : gradientPartial s k fn h tensor stall ps =
      s.ctl.setRun { r with tensors := r.tensors.mapIdx fun i t =>
        if i = tensor ∧ t.yard = k then { t with acc := addPartials t.acc ps } else t } := by
  obtain ⟨⟨i, back⟩, ofFn, ofRun, yard, committed, new⟩ := own
  simp [gradientPartial, found, there, back, ofFn, ofRun, yard, committed, new, -Option.map_bind]

/-- No other partial sums do. -/
theorem gradientPartial_keeps (none' : ∀ r st, s.ctl.run? fn h = some r → s.ctl.stallIn k stall = some st → ¬ s.contributes k fn h stall r st) :
    gradientPartial s k fn h tensor stall ps = s.ctl := by
  unfold gradientPartial
  dsimp only
  split
  next r st found there =>
    refine if_neg fun all => none' r st found there ?_
    simp only [Bool.and_eq_true, decide_eq_true_eq, Bool.not_eq_true', List.contains_eq_mem, decide_eq_false_iff_not] at all
    obtain ⟨⟨⟨⟨⟨back, ofFn⟩, ofRun⟩, yard⟩, committed⟩, new⟩ := all
    refine ⟨?_, ofFn, ofRun, yard, committed, new⟩
    split at back
    next i work => exact ⟨i, work⟩
    next => cases back
  next => rfl

end

theorem exec_gradientPartial (s : State) (k : Yard) (fn : BitVec 8) (h : Handle) (tensor : Nat) (stall : BitVec 16) (ps : List Word) :
    exec (.gradientPartial k fn h tensor stall ps) s =
      if s.ctl.hub.halted = true then .next s else .next (s.withCtl (gradientPartial s k fn h tensor stall.toNat ps)) := rfl

/-! ### The update (R426-R428) -/

theorem exec_tuneUpdate (s : State) (fn : BitVec 8) (h : Handle) :
    exec (.tuneUpdate fn h) s = if s.ctl.hub.halted = true then .next s else .next (s.withCtl (s.ctl.tuneUpdate fn h)) := rfl

/-- A run's first step once its update or its skip is made. -/
def TuneStep.made (st : TuneStep) : TuneStep := { st with status := some Status.success }

/-- A tensor once the update rule is applied to it (R426). -/
def Tensor.updated (t : Tensor) (u : Update) : Tensor := { t with x := u.x, r := u.r, c := u.c, acc := t.acc.map fun _ => (0#32, 0#32) }

/-- A run once a step is applied to all its tensors. -/
def Run.applied (r : Run) (st : TuneStep) (rest : List TuneStep) : Run :=
  { r with t := r.t + 1, bt := tMul r.bt r.b2, steps := st.made :: rest
           tensors := r.tensors.map fun t => t.updated (updateOf r st.rho (tMul r.bt r.b2) t) }

/-- Without a run, or with no step whose visits are over and that waits for its update, nothing happens. -/
theorem Ctl.tuneUpdate_none (none' : ∀ r st rest, c.run? fn h = some r → r.steps = st :: rest →
    st.visited = false ∨ st.status ≠ none ∨ r.closing ≠ none) : c.tuneUpdate fn h = c := by
  unfold Ctl.tuneUpdate
  split
  next => rfl
  next r found =>
    split
    next => rfl
    next st rest steps =>
      refine if_pos ?_
      rcases none' r st rest found steps with visits | ended | closing
      · simp [visits]
      · simp [Option.isSome_iff_ne_none, ended]
      · simp [Option.isSome_iff_ne_none, closing]

/-- A field of a function after a change to the function. -/
theorem Ctl.fn?_onFn_map {α : Type} {d : Ctl} {n : BitVec 8} {f : Fn → Fn} {v w : Fn → α} (num : ∀ x, (f x).num = x.num)
    (field : ∀ x, v (f x) = w x) : ((d.onFn n f).fn? n).map v = (d.fn? n).map w := by
  have changed : (d.onFn n f).fn? n = (d.fn? n).map f := find_num_map d.fns n f num
  rw [changed, Option.map_map]
  exact congrArg (Option.map · (d.fn? n)) (funext field)

section

variable {st : TuneStep} {rest : List TuneStep}

/-- What an update that applies its step leaves. -/
theorem Run.applied_tensors (r : Run) (st : TuneStep) (rest : List TuneStep) :
    ((r.applied st rest).tensors.map fun x => x.x) = (r.tensors.map fun x => (updateOf r st.rho (tMul r.bt r.b2) x).x) ∧
      ∀ x ∈ (r.applied st rest).tensors, ∀ p ∈ x.acc, p = (0#32, 0#32) := by
  refine ⟨List.map_map, fun x listed p sum => ?_⟩
  obtain ⟨t, -, rfl⟩ := List.mem_map.1 listed
  obtain ⟨q, -, rfl⟩ := List.mem_map.1 sum
  rfl

/-- A step whose values are all finite is applied: its run and the count of its function. -/
theorem Ctl.tuneUpdate_applies (found : c.run? fn h = some r) (steps : r.steps = st :: rest) (visited : st.visited = true)
    (waits : st.status = none) (opened : r.closing = none)
    (finite : (r.tensors.all fun x => (updateOf r st.rho (tMul r.bt r.b2) x).finite) = true) :
    (c.tuneUpdate fn h).run? fn h = some (r.applied st rest) ∧
      ((c.tuneUpdate fn h).fn? fn).map (·.tuneSteps) = (c.fn? fn).map fun f => sat64 f.tuneSteps 1 := by
  have all : ((r.tensors.map fun t => updateOf r st.rho (tMul r.bt r.b2) t).all fun u => u.finite) = true := by
    simpa [List.all_map, Function.comp_def] using finite
  have run : (c.setRun (r.applied st rest)).run? fn h = some (r.applied st rest) := Ctl.run?_setRun found rfl rfl
  have count : (((c.setRun (r.applied st rest)).onFn fn fun f => { f with tuneSteps := sat64 f.tuneSteps 1 }).fn? fn).map (·.tuneSteps) =
      (c.fn? fn).map fun f => sat64 f.tuneSteps 1 := Ctl.fn?_onFn_map (fun _ => rfl) fun _ => rfl
  unfold Ctl.tuneUpdate
  simp only [found, steps]
  rw [if_neg (by simp [visited, waits, opened]), if_pos all]
  simp only [List.zipWith_map_right, List.zipWith_self]
  split
  next => exact ⟨run, count⟩
  next => exact ⟨run, count⟩

/-- A step with a value that is not finite is skipped. -/
theorem Ctl.tuneUpdate_skips (found : c.run? fn h = some r) (steps : r.steps = st :: rest) (visited : st.visited = true)
    (waits : st.status = none) (opened : r.closing = none)
    (infinite : (r.tensors.all fun x => (updateOf r st.rho (tMul r.bt r.b2) x).finite) ≠ true) :
    (c.tuneUpdate fn h).run? fn h = some { r with steps := st.made :: rest } ∧
      ((c.tuneUpdate fn h).fn? fn).map (·.tuneSkipped) = (c.fn? fn).map fun f => sat64 f.tuneSkipped 1 := by
  have all : ¬ ((r.tensors.map fun t => updateOf r st.rho (tMul r.bt r.b2) t).all fun u => u.finite) = true := by
    simpa [List.all_map, Function.comp_def] using infinite
  unfold Ctl.tuneUpdate
  simp only [found, steps]
  rw [if_neg (by simp [visited, waits, opened]), if_neg all]
  exact ⟨Ctl.run?_setRun found rfl rfl, Ctl.fn?_onFn_map (fun _ => rfl) fun _ => rfl⟩

end

end Sys2Proof.Machine

open Sys2Proof Sys2Proof.Machine

/-- Settles O54: `gradientPartial_enters`, `gradientPartial_keeps`, `Ctl.tuneUpdate_applies` and `Ctl.tuneUpdate_skips`. That a skipped step keeps
the accumulators, and that a yard which has given a chunk's partial sums gives none on its replay, are log 77. -/
theorem gradientsReduceAndUpdate : Obligations.GradientsReduceAndUpdate := by
  intro s fn h
  refine ⟨fun k tensor stall ps => ⟨fun none' => ?_, fun r st running found there => ⟨fun none' => ?_, fun i back ofFn ofRun yard committed new => ?_⟩⟩,
    fun none' => ?_, fun r running found => ⟨fun none' => ?_, fun st rest steps visited waits opened => ?_⟩⟩
  · rw [exec_gradientPartial]
    split
    next => rfl
    next up =>
      refine next_withCtl (gradientPartial_keeps fun r st found there own => ?_)
      obtain ⟨-, -, -, -, committed, -⟩ := own
      rcases none' with halted | none' | none' | none'
      · exact up halted
      · simp [none'] at found
      · simp [none'] at there
      · exact none' committed
  · rw [exec_gradientPartial, if_neg (by simp [running])]
    refine next_withCtl (gradientPartial_keeps fun r' st' found' there' own => ?_)
    obtain rfl := Option.some.inj (found.symm.trans found')
    obtain rfl := Option.some.inj (there.symm.trans there')
    obtain ⟨⟨i, back⟩, ofFn, ofRun, yard, -, new⟩ := own
    rcases none' with none' | none' | none' | none' | none'
    · exact none' i back
    · exact none' ofFn
    · exact none' ofRun
    · exact none' yard
    · exact new none'
  · rw [exec_gradientPartial, if_neg (by simp [running])]
    exact next_withCtl (gradientPartial_enters found there ⟨⟨i, back⟩, ofFn, ofRun, yard, committed, new⟩)
  · rw [exec_tuneUpdate]
    split
    next => rfl
    next up =>
      refine next_withCtl (Ctl.tuneUpdate_none fun r st rest found steps => ?_)
      rcases none' with halted | none'
      · exact absurd halted up
      · simp [none'] at found
  · rw [exec_tuneUpdate, if_neg (by simp [running])]
    refine next_withCtl (Ctl.tuneUpdate_none fun r' st rest found' steps => ?_)
    obtain rfl := Option.some.inj (found.symm.trans found')
    rcases none' with none' | closing | ⟨st', first, ended⟩
    · simp [none'] at steps
    · exact .inr (.inr closing)
    · obtain rfl : st = st' := by simpa [steps] using first
      exact ended.imp_right .inl
  · rw [exec_tuneUpdate, if_neg (by simp [running])]
    by_cases finite : (r.tensors.all fun x => (updateOf r st.rho (tMul r.bt r.b2) x).finite) = true
    · obtain ⟨run, count⟩ := Ctl.tuneUpdate_applies found steps visited waits opened finite
      obtain ⟨values, cleared⟩ := Run.applied_tensors r st rest
      exact ⟨_, r.applied st rest, rfl, rfl, rfl, run, rfl, (if_pos finite).mpr ⟨rfl, rfl, values, cleared, count⟩⟩
    · obtain ⟨run, count⟩ := Ctl.tuneUpdate_skips found steps visited waits opened finite
      exact ⟨_, { r with steps := st.made :: rest }, rfl, rfl, rfl, run, rfl, (if_neg finite).mpr ⟨rfl, rfl, rfl, count⟩⟩

end

section
/-! Commands on tuning runs (15: R419-R422, R429, R430, R432). -/

namespace Sys2Proof.Machine

open Sys2Proof

namespace Takes

variable {s : State} {p : Pkt} {f g : Fn} {d : Ctl} (taken : Takes s p f d g)
include taken

/-! ### What the fetch leaves -/

theorem run? (n : BitVec 8) (h : Handle) : d.run? n h = s.ctl.run? n h := by simp only [Ctl.run?, taken.objs]

theorem plan? : d.plan? = s.ctl.plan? := by simp only [Ctl.plan?, taken.objs]

theorem adapter? (h : Handle) : d.adapter? g h = s.ctl.adapter? f h := by
  simp only [Ctl.adapter?, taken.object, taken.num, taken.fn_num, taken.objs]

theorem versions (n : BitVec 8) (name : BitVec 128) : d.versions n name = s.ctl.versions n name := by
  have images : d.objs.images = s.ctl.objs.images := by rw [taken.objs]
  unfold Ctl.versions Ctl.mgmt
  rw [images, taken.hub]

theorem image? (ix : Nat) : d.image? ix = s.ctl.image? ix := by simp only [Ctl.image?, taken.objs]

theorem tuneEpoch (n : BitVec 8) (name : BitVec 128) : d.tuneEpoch n name = s.ctl.tuneEpoch n name := by
  simp only [Ctl.tuneEpoch, taken.versions, taken.image?, Ctl.currentEpoch, taken.objs]

end Takes

section

variable {s : State} {p : Pkt} {f g h : Fn} {d a : Ctl} {r : Run} {pl : Plan}

/-! ### TUNE_OPEN (R419, R420) -/

/-- The tensors' values of a run's start: its adapter's, or the initial ones, or those of an imported record (R419). -/
inductive Ctl.StartsWith (c : Ctl) (f : Fn) (adapter : Handle) (source : RegionRef) (data : HostRead (List Byte)) (name : BitVec 128)
    (paths : List AdapterPath) (rank : Nat) (digest : Digest) : List (List Word) → Prop
  | saved {x : Adapter} (own : source.handle = 0#32) (named : c.adapter? f adapter = some x) :
      c.StartsWith f adapter source data name paths rank digest (x.tensors.map (·.x))
  | initial (own : source.handle = 0#32) (none' : c.adapter? f adapter = none) :
      c.StartsWith f adapter source data name paths rank digest (initialValues name paths rank)
  | imported {bs : List Byte} {v : List (List Word)} (imports : source.handle ≠ 0#32) (alone : adapter = 0#32)
      (live : f.regionLive source = true) (suits : f.regionOk source none false = true) (read : data = .ok bs)
      (record : importRecord paths rank digest bs = some v) : c.StartsWith f adapter source data name paths rank digest v

/-- The checks on a run's epoch pass where the plan names its image, which is not damaged, and has paths. -/
theorem Ctl.tuneState_passes {c : Ctl} {n : BitVec 8} {name : BitVec 128} {e : Epoch} {i : Image} (plan : c.plan? = some pl)
    (tuned : c.tuneEpoch n name = some (e, i)) (paths : pl.paths ≠ []) (healthy : i.st ≠ .damaged) (planned : c.planNames i = true) :
    ∀ x ∈ c.tuneState n name, x.1 = true := by
  simp [Ctl.tuneState, tuned, plan, paths, healthy, planned]

/-- A TUNE_OPEN whose checks pass begins its run at B_t = 1 and t = 0, or ends its job where a tuning region has no room (R420). -/
theorem Ctl.tuneOpen_begins {name : BitVec 128} {adapter : Handle} {source : RegionRef} {rank : Nat} {b2 e1 e2 dd : Word}
    {data : HostRead (List Byte)} {e : Epoch} {i : Image} {ix : Nat} {j : Job} {v : List (List Word)} (taken : Takes s p f d g)
    (subject : p.subject = 0#32) (suits : adapter = 0#32 ∨ (f.object .adapter adapter).isSome = true) (ranked : 1 ≤ rank ∧ rank ≤ 256)
    (params : tuneParamsOk b2 e1 e2 dd = true) (plan : s.ctl.plan? = some pl) (fits : rankFits pl.paths rank = true)
    (start : s.ctl.startSuits f adapter rank name = true) (tuned : s.ctl.tuneEpoch p.fn name = some (e, i))
    (state : ∀ x ∈ s.ctl.tuneState p.fn name, x.1 = true) (issued : g.issueSelf .job = some (ix, h))
    (accepts : a = (d.acceptJob (cmdOf s p) 0x50 0#32 .tuning 0 (if source.handle ≠ 0#32 then [source.handle] else []) false).1)
    (job : a.job? p.fn ix = some j) (values : s.ctl.StartsWith f adapter source data name pl.paths rank i.digest v) :
    s.ctl.tuneOpen p name adapter source rank b2 e1 e2 dd data =
      if a.tuneRoom pl (allShapes pl.paths rank) = false then a.finishJob j Status.noSpace 0#32 0
      else a.onObjs fun o => { o with runs := o.runs ++
        [{ fn := p.fn, ix := j.ix, name := name, image := e.image, epoch := e.num, rank := rank, b2 := b2, e1 := e1, e2 := e2, d := dd
           bt := 0x3F800000#32, t := 0, tensors := (allShapes pl.paths rank).zipWith Tensor.fresh v, steps := [], closing := none }] } := by
  subst accepts
  obtain ⟨least, most⟩ := ranked
  have checked : (source.handle = 0#32 ∨ f.regionLive source = true) ∧ (source.handle = 0#32 ∨ f.regionOk source none false = true) ∧
      (source.handle = 0#32 ∨ adapter = 0#32) := by
    cases values with
    | saved own _ => simp [own]
    | initial own _ => simp [own]
    | imported _ alone live suits _ _ => simp [alone, live, suits]
  obtain ⟨live, inside, alone⟩ := checked
  rw [Ctl.tuneOpen]
  dsimp only
  rw [taken.runs (fun _ => subject) (by
    simp only [List.mem_append]
    rintro x (early | late)
    · revert x
      simp [suits, least, most, params, plan, fits, start, live, inside, alone]
    · exact state x late)]
  simp only [taken.accepted issued (cmdOf s p) rfl, Option.bind_some, cmdOf_fn, job, taken.tuneEpoch, tuned, taken.plan?, plan, taken.adapter?]
  cases values with
  | saved own named => simp [own, named]
  | initial own none' => simp [own, none']
  | imported imports alone live suits read record => simp [imports, read, record]

/-! ### TUNE_STEP (R421, R422, R429) -/

/-- A TUNE_STEP whose checks pass packs its examples into chunks and joins the run's steps. -/
theorem Ctl.tuneStep_joins {region : RegionRef} {count : Nat} {rho : Word} {es : List Example} (taken : Takes s p f d g)
    (named : (f.object .job p.subject).isSome = true) (found : s.ctl.run? p.fn p.subject = some r) (live : f.regionLive region = true)
    (counted : 1 ≤ count) (suits : f.regionOk region (some (8 * count)) false = true)
    (size : finite32 rho = true ∧ FNum.le (FNum.ofInt 0) (num32 rho) = true) (opened : r.closing = none) (room : r.steps.length < 17)
    (plan : s.ctl.plan? = some pl) (length : es.length = count) (examples : examplesOk es pl.tuneChunk = true) :
    s.ctl.tuneStep p region count rho (.ok es) = d.setRun { r with steps := r.steps ++
      [{ cmd := cmdOf s p, subject := p.subject, count := count, rho := rho
         chunks := (packChunks pl.tuneChunk (exampleLengths es)).map fun n => ⟨n, none, []⟩, energy := 0, firstTick := none
         lastTick := none, status := none }] } := by
  obtain ⟨finite, atLeast⟩ := size
  rw [Ctl.tuneStep, taken.runs (by simp) (by
    simp [taken.fn_num, named, found, live, counted, suits, finite, atLeast, opened, room])]
  simp only [cmdOf_fn, taken.run?, found, taken.plan?, plan]
  exact if_neg (by simp [length, examples])

/-! ### TUNE_SAVE and TUNE_CLOSE (R430, R432) -/

/-- The checks of a packet on a run that is not being closed pass. -/
theorem Ctl.runChecks_pass (taken : Takes s p f d g) (named : (f.object .job p.subject).isSome = true)
    (found : s.ctl.run? p.fn p.subject = some r) (opened : r.closing = none) : ∀ x ∈ s.ctl.runChecks p f, x.1 = true := by
  simp [Ctl.runChecks, taken.fn_num, named, found, opened]

theorem Ctl.tuneSave_waits (taken : Takes s p f d g) (pass : ∀ x ∈ s.ctl.runChecks p f, x.1 = true) (name : BitVec 128) :
    s.ctl.tuneSave p name = d.onObjs fun o => { o with waiting := o.waiting ++ [⟨cmdOf s p, .tuneSave p.subject name⟩] } := by
  rw [Ctl.tuneSave, taken.runs (by simp) pass]

theorem Ctl.tuneClose_waits (taken : Takes s p f d g) (pass : ∀ x ∈ s.ctl.runChecks p f, x.1 = true)
    (found : s.ctl.run? p.fn p.subject = some r) : s.ctl.tuneClose p = d.setRun { r with closing := some (cmdOf s p) } := by
  rw [Ctl.tuneClose, taken.runs (by simp) pass]
  simp only [cmdOf_fn, taken.run?, found]

end

end Sys2Proof.Machine

open Sys2Proof Sys2Proof.Machine

/-- Settles O16: `Ctl.tuneOpen_begins`, `Ctl.tuneStep_joins`, `Ctl.tuneSave_waits` and `Ctl.tuneClose_waits`. The checks of the examples are R421 and
those of the step size R427; the region's need and the statuses are log 78, and reading the examples at acceptance is log 50. -/
theorem tuningCommandsAreAccepted : Obligations.TuningCommandsAreAccepted := by
  refine ⟨?_, ?_, ?_⟩
  · intro s p name adapter source rank b2 e1 e2 dd data f g h d a pl e i ix j v taken subject suits least most params plan fits start tuned paths
      healthy planned issued accepts job values
    refine next_withCtl (Ctl.tuneOpen_begins taken subject suits ⟨least, most⟩ params plan fits start tuned
      (Ctl.tuneState_passes plan tuned paths healthy planned) issued accepts job ?_)
    rcases values with ⟨own, rfl⟩ | ⟨imports, alone, live, inside, bs, read, record⟩
    · cases found : s.ctl.adapter? f adapter with
      | some x => exact .saved own found
      | none => exact .initial own found
    · exact .imported imports alone live inside read record
  · intro s p region count rho es f g d r pl taken named found live counted suits finite atLeast opened room plan length examples
    exact next_withCtl (Ctl.tuneStep_joins taken named found live counted suits ⟨finite, atLeast⟩ opened room plan length examples)
  · intro s p name f g d r taken named found opened
    have pass := Ctl.runChecks_pass taken named found opened
    exact ⟨next_withCtl (Ctl.tuneSave_waits taken pass name), next_withCtl (Ctl.tuneClose_waits taken pass found)⟩

end
